-- ==== Sys2Proof/Word.lean ====
section
/-! DEFINITION. The words of the part: the link byte, and the numbers that name its tags, ports and slots. -/

namespace Sys2Proof

/-- One character of the serial link, one byte of a block (R203, R221). -/
abbrev Byte := BitVec 8

/-- A 32-bit number the part counts or compares: generation, pool id, admission number, uptime (R3, R22, R186). -/
abbrev Word32 := BitVec 32

/-- A request tag, 0 to 15, which is the index of its request slot (R22). -/
abbrev Tag := Fin 16

/-- A member port, 0 to 3. -/
abbrev Port := Fin 4

/-- A staging slot number, 0 to 31 (R70). -/
abbrev SlotNo := Fin 32

/-- A return slot number, 0 to 7 (R49). -/
abbrev RetNo := Fin 8

end Sys2Proof
end

