-- ==== Sys2Proof/Syntax.lean ====
section
/-! DEFINITION. The steps of the part: one constructor for each row of spec/opcode_table.json, with its operands. -/

namespace Sys2Proof

/-- What made the receiver give up a frame (R204, R205). -/
inductive FramingCause where
  | gap | stopBit | badHeader
  deriving DecidableEq, Repr

/-- The member's answer to one attempt of an IDENT (R109, R111). -/
inductive IdentAnswer where
  | noAck
  | ack (capacity : Nat) (identity : Word32)
  deriving DecidableEq, Repr

/-- The member's answer to one attempt of an RDBLK: none, or the 258 stored bytes (R109, R112). -/
inductive ReadAnswer where
  | noAck
  | stored (bytes : List Byte)
  deriving DecidableEq, Repr

/-- The member's answer to one command of a PGBLK: the program start, then the status polls (R113). -/
inductive ProgramAnswer where
  | noAck | startAck | inProgress | ready | failed
  deriving DecidableEq, Repr

/-- The member's answer to one attempt of a SLEEP or a WAKE (R114, R115). -/
inductive CommandAnswer where
  | noAck | ack
  deriving DecidableEq, Repr

/-- One step of the part. A message carries its sequence byte and the payload bytes that follow its kind byte
(R221, R224); a lane operation's end carries the answers the member gave, one for each command sent. -/
inductive Instr where
  | read (seq : Byte) (body : List Byte)
  | write (seq : Byte) (body : List Byte)
  | verify (seq : Byte) (body : List Byte)
  | flush (seq : Byte) (body : List Byte)
  | writeData (seq : Byte) (body : List Byte)
  | identify (seq : Byte) (body : List Byte)
  | status (seq : Byte) (body : List Byte)
  | setParameter (seq : Byte) (body : List Byte)
  | getParameter (seq : Byte) (body : List Byte)
  | resetLink (seq : Byte) (body : List Byte)
  | linkSync (seq : Byte) (body : List Byte)
  | fetchSnapshot (seq : Byte) (body : List Byte)
  | mapRead (seq : Byte) (body : List Byte)
  | mapEdit (seq : Byte) (body : List Byte)
  | mapEditPool (seq : Byte) (body : List Byte)
  | mapResetDraft (seq : Byte) (body : List Byte)
  | mapCommit (seq : Byte) (body : List Byte)
  | setCeiling (seq : Byte) (body : List Byte)
  | park (seq : Byte) (body : List Byte)
  | unpark (seq : Byte) (body : List Byte)
  | portReset (seq : Byte) (body : List Byte)
  | strandedRetry (seq : Byte) (body : List Byte)
  | strandedDiscard (seq : Byte) (body : List Byte)
  | noticeClear (seq : Byte) (body : List Byte)
  | getLog (seq : Byte) (body : List Byte)
  | unknownKind (kind : Byte) (seq : Byte) (body : List Byte)
  | heldMessageRelease
  | reportAck (n : Byte)
  | frameCrcError
  | framingError (cause : FramingCause)
  | oversizeFrame (length : Nat)
  | breakDeclared
  | linkReset
  | outboundChoice
  | transmissionEnd
  | reportTimerExpiry (n : Byte)
  | resetAssert
  | deviceReset
  | presenceChange (p : Port)
  | debounceExpiry (p : Port)
  | arbiterChoice (p : Port)
  | identEnd (p : Port) (answers : List IdentAnswer)
  | rdblkEnd (p : Port) (answers : List ReadAnswer)
  | pgblkEnd (p : Port) (answers : List ProgramAnswer)
  | sleepEnd (p : Port) (answers : List CommandAnswer)
  | wakeEnd (p : Port) (answers : List CommandAnswer)
  | opTimeout (p : Port) (attempts : Nat)
  | quiesceEvaluation
  | quiesceTimeout
  | startupEnd
  | dataTimerExpiry (t : Tag)
  | grantFormation
  | returnSlotAssignment
  | holdRelease
  | idleTimerExpiry
  | parkComplete
  | uptimeTick
  | breakEnd
  | skippingEnd
  deriving DecidableEq, Repr

end Sys2Proof
end

