-- ==== Sys2Proof/Decode.lean ====
section
/-! DEFINITION. The command a word spells by the bits of spec/opcode_table.json: no row of the table gives any bits. -/

namespace Sys2Proof

/-- The command that a word of `nbits` bits spells: none, because the table gives no row any bits (log entry 4). -/
def decodeTableWord (_nbits _w : Nat) : Option Instr := none

end Sys2Proof
end

