-- ==== Sys2Proof/Config.lean ====
section
/-! DEFINITION. What the part fixes once (its limits and timings) and the values the spec leaves open. -/

namespace Sys2Proof.Config

/-- Data bytes of one logical block (R1). -/
def blockBytes : Nat := 256
/-- One above the highest LBN, and the session ceiling at reset (R1, R13). -/
def ceilingAtReset : Nat := 0x1000000
/-- Blocks one request may name (R25, check 6). -/
def maxBlocks : Nat := 64
/-- Blocks one grant may cover (R50). -/
def maxGrant : Nat := 8
/-- Reports sent and not yet acknowledged that the window holds (R211). -/
def windowSize : Nat := 4
/-- Entries of the error history ring (R188). -/
def ringSize : Nat := 12
/-- Headers of the recent-request list (R187). -/
def recentSize : Nat := 3
/-- Smallest and largest capacity a probe accepts (R103). -/
def minCapacity : Nat := 64
def maxCapacity : Nat := 262144
/-- The first PBN an extent may use: PBN 0 and PBN 1 are the copy slots (R5). -/
def firstDataPbn : Nat := 2
/-- Payload bytes of the longest MESSAGE the receiver takes (R205). -/
def maxMessage : Nat := 300
/-- The highest generation (R143, check 5). -/
def lastGeneration : Word32 := 0xFFFFFFFF

/-- Debounce, operation limit, wake wait and quiesce limit, in milliseconds (R98, R109, R115, R142). -/
def debounceMs : Nat := 25
def opLimitMs : Nat := 15
def wakeWaitMs : Nat := 3
def quiesceMs : Nat := 5000

/-- How many attempts in a row may go unacknowledged, or fail the check, before the operation ends (R109). -/
def attemptBudget : Nat := 3
/-- Failed operations in a row that take a port to FAILED (R116). -/
def failureLimit : Nat := 3

/-- The values IDENTIFY reports (R218). -/
def vendorCode : Nat := 0x5046
def partCode : Nat := 0x0416
def siliconRevision : Nat := 1
/-- The mark of a map record (R223). -/
def recordMark : Nat := 0x0A35C7E1

/-! The free values. None has a body, so nothing can be proved of the value it takes. -/

/-- FREE VALUE. Commands an operation had sent, beyond its first, when a port event ended it between two steps:
no step of the table says how many the lane had carried by then (R122, log entry 8). Applied to `State.freeDraws`. -/
opaque attemptsBeyondFirst : Nat → Nat

/-- FREE VALUE. Whether the record of copy slot B is the newest when both slots hold a FINAL record of ONE
generation: R102 names the higher generation and no rule names one of two equal ones (log entry 9). Applied to
the two pool ids and the generation they share. -/
opaque equalFinalTakesB : Word32 → Word32 → Word32 → Bool

/-- FREE VALUE. What the map holds as the access of a disabled extent whose record byte is neither access code
(R223 tests it for enabled extents alone, log entry 10): true is READ_ONLY. -/
opaque disabledAccessReadOnly : Byte → Bool

/-- FREE VALUE. What the map holds as the port of a disabled extent whose record byte is above 3 (R223, log entry 10). -/
opaque disabledPort : Byte → Port

end Sys2Proof.Config
end

