-- ==== Sys2Proof/Machine/State.lean ====
section
/-! DEFINITION. The state of the part, as plain data: what each of the nine blocks holds, the pins, and the queue of
waiting commands; and the state right after a device reset with no member fitted. -/

namespace Sys2Proof.Machine

/-! ## Names shared by several blocks -/

/-- What a tagged request asks (R22). -/
inductive ReqKind where
  | read | write | verify | flush
  deriving DecidableEq, Repr

/-- The state of an occupied request slot; a FREE slot holds no request at all (R23). -/
inductive ReqState where
  | held | active | settling | aborting | reporting
  deriving DecidableEq, Repr

/-- The completion statuses (R41). -/
inductive CompletionStatus where
  | good | mediaError | memberLost | dataTimeout | aborted
  deriving DecidableEq, Repr

/-- The causes of a history entry (R189). -/
inductive HistoryCause where
  | noResponse | checkFail | programFailed | opTimeout | memberLost | probeFailed | mapWriteFailed
  | dataTimeout | linkLost | dataDiscarded | quiesceTimeout
  deriving DecidableEq, Repr

/-- The block that made a history entry (R188). -/
inductive HistorySource where
  | port | request | link | staging | map
  deriving DecidableEq, Repr

/-- The ways a lane operation fails (R112, R113, R122). -/
inductive OpFailure where
  | noResponse | checkFail | programFailed | opTimeout | memberLost
  deriving DecidableEq, Repr

/-- The class of a port (R97). -/
inductive PortClass where
  | empty | debounce | probe | pooled | stale | foreign | blank | failed
  deriving DecidableEq, Repr

/-- The tag and the admission number that name one request for good (R49). -/
structure Owner where
  tag : Tag
  admission : Word32
  deriving DecidableEq, Repr

/-- A run of consecutive LBNs, added as plain integers (R1). -/
structure BlockRange where
  first : Nat
  count : Nat
  deriving DecidableEq, Repr

/-! ## Message kinds -/

/-- The message kinds (R209, R225). -/
inductive MsgKind where
  | identify | status | setParameter | getParameter | resetLink | linkSync
  | read | write | verify | flush | writeData | fetchSnapshot
  | mapRead | mapEdit | mapEditPool | mapResetDraft | mapCommit | setCeiling
  | park | unpark | portReset | strandedRetry | strandedDiscard | noticeClear | getLog
  deriving DecidableEq, Repr

/-! ## The Map Store -/

/-- Whether writes may be admitted to an extent's blocks (R2). -/
inductive Access where
  | readWrite | readOnly
  deriving DecidableEq, Repr

/-- One extent of a map, each field as the host gave it (R2). -/
structure Extent where
  enabled : Bool
  access : Access
  port : Port
  first : BitVec 24
  length : BitVec 24
  base : BitVec 24
  deriving DecidableEq, Repr

/-- An extent in its empty state (R2). -/
def Extent.empty : Extent := ⟨false, .readWrite, 0, 0, 0, 0⟩

/-- A map: pool id, generation and eight extents (R3). -/
structure Map where
  pool : Word32
  generation : Word32
  extents : Vector Extent 8
  deriving DecidableEq, Repr

/-- The map of a part without a record (R3). -/
def Map.empty : Map := ⟨0, 0, Vector.replicate 8 Extent.empty⟩

/-- The state byte of a map record (R139). -/
inductive RecordState where
  | tentative | final
  deriving DecidableEq, Repr

/-- What a copy slot read gave (R102). -/
inductive Finding where
  | nothing
  | found (state : RecordState) (map : Map)
  deriving DecidableEq, Repr

/-- One map write asked of a port's arbiter: the record's state and the copy slot it goes to (R148, R150). -/
structure MapWrite where
  state : RecordState
  pbn : Nat
  deriving DecidableEq, Repr

/-- How far a commit target has come (R142). -/
inductive TargetStage where
  | awaitingTentative | tentativeWritten | finalWritten
  deriving DecidableEq, Repr

/-- One port of the target set, with the map write it has asked and not yet started, if any (R142, R147). -/
structure Target where
  port : Port
  stage : TargetStage
  owed : Nat
  ask : Option MapWrite
  deriving DecidableEq, Repr

/-- The commit phase; the quiesce limit is present in QUIESCE alone (R142). NONE is the absence of the record. -/
inductive CommitPhase where
  | quiesce (limit : Nat)
  | tentative
  | final
  deriving DecidableEq, Repr

/-- The commit record (R142). `targets`, `written` and `failed` are sets, held in ascending port number. -/
structure Commit where
  phase : CommitPhase
  generation : Word32
  targets : List Target
  pointReached : Bool
  written : List Port
  failed : List Port
  deriving DecidableEq, Repr

/-- The result of a commit (R154). -/
inductive CommitResult where
  | done | failedQuiesce | failedWrite | failedNoTarget
  deriving DecidableEq, Repr

/-- The Map Store: both maps, the session ceiling, the start-up state and the commit record (R3, R13, R24, R142). -/
structure MapStore where
  active : Map
  draft : Map
  ceiling : Nat
  ready : Bool
  commit : Option Commit
  deriving DecidableEq, Repr

/-! ## The Request Table -/

/-- The record of an occupied request slot (R22). The three sets are lists in ascending order without repeats. -/
structure Request where
  kind : ReqKind
  range : Option BlockRange
  urgent : Bool
  through : Bool
  state : ReqState
  admission : Word32
  holdList : List Tag
  blocksDone : Nat
  status : Option CompletionStatus
  failingLbn : Option Nat
  flushSet : List SlotNo
  settleSet : List SlotNo
  deriving DecidableEq, Repr

/-- The record of the request that faulted (R127). -/
structure Snapshot where
  tag : Tag
  kind : ReqKind
  range : Option BlockRange
  urgent : Bool
  through : Bool
  status : CompletionStatus
  failingLbn : Option Nat
  failingPort : Option Port
  blocksDone : Nat
  aborted : Nat
  entry : Word32
  deriving DecidableEq, Repr

/-- The Request Table (R22, R24, R42). The queue is HALTED exactly while a snapshot is present (R127). -/
structure Table where
  slots : Vector (Option Request) 16
  admissionOrder : List Tag
  completionOrder : List Tag
  counter : Word32
  snapshot : Option Snapshot
  deriving DecidableEq, Repr

/-! ## The Data Mover -/

/-- Where a grant's report stands (R49). -/
inductive GrantReport where
  | unsent
  | inWindow (seq : Byte)
  | acknowledged
  deriving DecidableEq, Repr

/-- The current grant of a write: slot `slots[i]` is reserved for index `first + i` (R49). -/
structure Grant where
  first : Nat
  slots : List SlotNo
  received : List Nat
  report : GrantReport
  deriving DecidableEq, Repr

/-- The record of an ACTIVE WRITE; the data timer is its expiry moment while RUNNING (R49, R53). -/
structure WriteRecord where
  admission : Word32
  next : Nat
  grant : Option Grant
  timer : Option Nat
  deriving DecidableEq, Repr

/-- The stage of a fetch in progress; the last two know the block's place (R58). -/
inductive FetchStage where
  | drainWait
  | portWait (port : Port) (pbn : Nat)
  | inFlight (port : Port) (pbn : Nat)
  deriving DecidableEq, Repr

/-- A fetch in progress (R49). -/
structure Fetch where
  index : Nat
  lbn : Nat
  stage : FetchStage
  ret : Option RetNo
  deriving DecidableEq, Repr

/-- The record of an ACTIVE READ or VERIFY, kept while ABORTING (R49). -/
structure FetchRecord where
  admission : Word32
  cursor : Nat
  fetch : Option Fetch
  deriving DecidableEq, Repr

/-- A return slot, with the fields its state gives it (R49, R59). -/
inductive ReturnSlot where
  | free
  | fetching (owner : Owner) (index : Nat) (lbn : Nat)
  | filled (owner : Owner) (index : Nat) (lbn : Nat) (data : List Byte)
  | sent (owner : Owner) (index : Nat) (lbn : Nat) (data : List Byte)
  deriving DecidableEq, Repr

/-- The Data Mover (R49); `grantOrder` holds the writes whose GRANT is UNSENT, in formation order (R52, R69). -/
structure Mover where
  writes : Vector (Option WriteRecord) 16
  fetches : Vector (Option FetchRecord) 16
  returns : Vector ReturnSlot 8
  fillOrder : List RetNo
  grantOrder : List Tag
  deriving DecidableEq, Repr

/-! ## The Staging Buffer -/

/-- Why staged data could not be programmed (R70). -/
inductive StrandReason where
  | programFailed | noResponse | opTimeout | memberLost
  deriving DecidableEq, Repr

/-- A staging slot, with the fields its state gives it (R70, R71). -/
inductive StagingSlot where
  | free
  | filling (lbn : Nat) (owner : Owner) (through : Bool)
  | dirty (lbn : Nat) (through : Bool) (data : List Byte)
  | draining (lbn : Nat) (through : Bool) (data : List Byte)
  | stranded (lbn : Nat) (through : Bool) (data : List Byte) (reason : StrandReason)
  deriving DecidableEq, Repr

/-- The Staging Buffer (R70, R77, R88). -/
structure Staging where
  slots : Vector StagingSlot 32
  drainOrder : List SlotNo
  pressure : Bool
  deriving DecidableEq, Repr

/-! ## The Port Controllers -/

/-- The debounce record; `noted` is the class the port held when it was classified (R97). -/
structure Debounce where
  level : Bool
  expiry : Nat
  noted : Option PortClass
  deriving DecidableEq, Repr

/-- The steps of a probe; COMPLETE is a finished probe whose findings are held (R101, R104). -/
inductive ProbeStep where
  | ident | slotA | slotB | complete
  deriving DecidableEq, Repr

/-- The probe record: the step reached, the findings so far, and the WAKEs failed in a row (R97, R103). -/
structure Probe where
  step : ProbeStep
  capacity : Nat
  identity : Word32
  findingA : Finding
  findingB : Finding
  wakeFailures : Nat
  deriving DecidableEq, Repr

/-- The member record; `newest` is the generation and pool id of the newest FINAL record (R107). -/
structure Member where
  capacity : Nat
  identity : Word32
  newest : Option (Word32 × Word32)
  deriving DecidableEq, Repr

/-- The operation engine's state (R108). -/
inductive Engine where
  | idle | busy | asleep | waking
  deriving DecidableEq, Repr

/-- What a lane operation does; a PGBLK carries the 258 bytes it programs (R110 to R115). -/
inductive OpKind where
  | ident
  | rdblk (pbn : Nat)
  | pgblk (pbn : Nat) (stored : List Byte)
  | sleep
  | wake
  deriving DecidableEq, Repr

/-- Whom an operation's outcome is handed to. A map write knows the record it writes, and whether its target is
still in the set of the commit that asked it (R147, step 2). -/
inductive OpUser where
  | probe
  | fetch (owner : Owner) (lbn : Nat)
  | drain (slot : SlotNo)
  | mapWrite (write : MapWrite) (generation : Word32) (pool : Word32) (live : Bool)
  | power
  deriving DecidableEq, Repr

/-- The operation in flight: `attempts` counts the commands known to be sent, `limit` is its limit moment (R97). -/
structure Operation where
  kind : OpKind
  user : OpUser
  attempts : Nat
  limit : Nat
  suspended : Bool
  deriving DecidableEq, Repr

/-- The six statistics of a port (R124). -/
structure PortStats where
  blocksRead : Word32
  blocksProgrammed : Word32
  laneRetries : Word32
  opTimeouts : Word32
  checkFailures : Word32
  programFailures : Word32
  deriving DecidableEq, Repr

/-- All six statistics at 0. -/
def PortStats.zero : PortStats := ⟨0, 0, 0, 0, 0, 0⟩

/-- The record of a Port Controller (R97). -/
structure PortRecord where
  cls : PortClass
  debounce : Option Debounce
  probe : Option Probe
  engine : Engine
  op : Option Operation
  member : Option Member
  failures : Nat
  fairness : Nat
  stats : PortStats
  deriving DecidableEq, Repr

/-- A port with no member fitted, right after a device reset (R97). -/
def PortRecord.emptyAtReset : PortRecord :=
  ⟨.empty, none, none, .idle, none, none, 0, 0, PortStats.zero⟩

/-! ## Power Control -/

/-- The power states (R160). -/
inductive PowerState where
  | active | lowPower | parking | parked
  deriving DecidableEq, Repr

/-- The sleep mark of a port (R164). -/
inductive SleepMark where
  | clear | pending | declined
  deriving DecidableEq, Repr

/-- Power Control; the idle timer is its expiry moment while RUNNING (R160, R161, R164). -/
structure Power where
  state : PowerState
  idleTimer : Option Nat
  marks : Vector SleepMark 4
  deriving DecidableEq, Repr

/-! ## The Notice Unit -/

/-- The ten notice kinds (R173). -/
inductive NoticeKind where
  | portAttached | portDetached | portFailed | slotStranded | queueHalted
  | stagingHigh | commitDone | parked | logAdded | startDone
  deriving DecidableEq, Repr

/-- The key of an instance: the kind, and the port for a port kind (R172). -/
structure NoticeKey where
  kind : NoticeKind
  port : Option Port
  deriving DecidableEq, Repr

/-- The detail of an instance, by kind (R173). -/
inductive NoticeDetail where
  | portClass (c : PortClass)
  | cause (c : HistoryCause)
  | count (n : Nat)
  | tag (t : Tag)
  | commit (result : CommitResult) (generation : Word32) (written failed : List Port)
  | number (n : Word32)
  deriving DecidableEq, Repr

/-- Where an instance stands with the host; report sequence and new occurrences are present in SENT alone (R172). -/
inductive NoticeReport where
  | unreported
  | sent (seq : Byte) (fresh : Nat)
  | reported
  deriving DecidableEq, Repr

/-- One pending notice instance (R172). -/
structure Notice where
  key : NoticeKey
  count : Nat
  detail : NoticeDetail
  report : NoticeReport
  deriving DecidableEq, Repr

/-- The Notice Unit: the pending set in ascending key order, the notice-order list and the ATTN level
(R172, R176, R181). The enable mask and the mode are parameters. -/
structure Notices where
  pending : List Notice
  order : List NoticeKey
  attn : Bool
  deriving DecidableEq, Repr

/-! ## The Log Unit -/

/-- The header of an admitted request (R187). -/
structure Header where
  tag : Tag
  kind : ReqKind
  range : Option BlockRange
  urgent : Bool
  through : Bool
  deriving DecidableEq, Repr

/-- One history entry (R188). -/
structure HistoryEntry where
  number : Word32
  uptime : Word32
  cause : HistoryCause
  source : HistorySource
  tag : Option Tag
  lbn : Option Nat
  port : Option Port
  pbn : Option Nat
  attempts : Nat
  recent : List Header
  deriving DecidableEq, Repr

/-- The Log Unit: uptime, recent-request list and ring newest first, next entry number, device error count
(R186, R187, R188, R190, R192). -/
structure LogUnit where
  uptime : Word32
  recent : List Header
  ring : List HistoryEntry
  nextNumber : Word32
  errorCount : BitVec 16
  deriving DecidableEq, Repr

/-! ## The Link Controller -/

/-- The receiver's state (R204). A frame's reception is one step of the table, so HEADER and BODY, which lie
inside it, are never seen between steps. SKIPPING knows the bytes still to pass. -/
inductive Receiver where
  | hunting | header | body
  | skipping (left : Nat)
  deriving DecidableEq, Repr

/-- A message frame as accepted: kind byte, sequence byte, the payload bytes after the kind (R206). -/
structure Message where
  kind : Byte
  seq : Byte
  body : List Byte
  deriving DecidableEq, Repr

/-- What the end of a reply's transmission brings (R203, R216). -/
inductive ReplyEffect where
  | nothing
  | changeRate (code : Nat)
  | resetLink
  deriving DecidableEq, Repr

/-- A reply: the sequence number it answers under, its payload, and what follows its transmission. -/
structure Reply where
  seq : Byte
  payload : List Byte
  effect : ReplyEffect
  deriving DecidableEq, Repr

/-- The owner of a report in the window (R211, R212). -/
inductive ReportOwner where
  | completion (t : Tag)
  | grant (t : Tag)
  | readData (r : RetNo)
  | notice (k : NoticeKey)
  deriving DecidableEq, Repr

/-- Whether a report is marked due for resend, and by what: an expiry counts the resend, a LINK-SYNC does not
(R210, R213). -/
inductive DueMark where
  | notDue | byExpiry | bySync
  deriving DecidableEq, Repr

/-- A report in the window (R211): the copy of its content, its resend count, timer and due mark. -/
structure WindowEntry where
  seq : Byte
  owner : ReportOwner
  payload : List Byte
  resends : Nat
  timer : Option Nat
  due : DueMark
  deriving DecidableEq, Repr

/-- What the transmitter is sending; a report may be marked to fall due when its transmission ends (R210). -/
inductive Sending where
  | reply (effect : ReplyEffect)
  | report (seq : Byte) (dueAtEnd : Bool)
  deriving DecidableEq, Repr

/-- The frame on TXD: what it is and all its bytes (R215, R221). -/
structure Transmission where
  what : Sending
  frame : List Byte
  deriving DecidableEq, Repr

/-- Where a RESET-LINK stands: its reply is still to be sent or in transmission, or sent, so that the link reset
is due (R216). -/
inductive ResetWait where
  | noReset | replyUnsent | due
  deriving DecidableEq, Repr

/-- The ten link counters (R217). -/
structure LinkCounters where
  framesAccepted : Word32
  crcErrors : Word32
  framingErrors : Word32
  duplicateMessages : Word32
  sequenceErrors : Word32
  reportsResent : Word32
  linkLostEvents : Word32
  linkResets : Word32
  breaks : Word32
  oversizeFrames : Word32
  deriving DecidableEq, Repr

/-- All ten link counters at 0. -/
def LinkCounters.zero : LinkCounters := ⟨0, 0, 0, 0, 0, 0, 0, 0, 0, 0⟩

/-- The Link Controller (R203 to R217). `lineRate` is the rate code in force on the line; the stored code is the
LINK_RATE parameter. `rxdLow` holds after a break until RXD returns high (R207). -/
structure Link where
  receiver : Receiver
  rxdLow : Bool
  lineRate : Nat
  expected : Byte
  cache : Option Reply
  heldMessage : Option Message
  pendingReply : Option Reply
  transmission : Option Transmission
  resetWait : ResetWait
  reportSeq : Byte
  window : List WindowEntry
  lost : Bool
  counters : LinkCounters
  deriving DecidableEq, Repr

/-! ## Parameters -/

/-- The nine parameters (R219). `held` is the notice mode HELD; bit k − 1 of `noticeEnable` enables notice kind k. -/
structure Params where
  idleCode : Nat
  dataTimeout : Nat
  reportTimeout : Nat
  highWater : Nat
  writeBack : Bool
  held : Bool
  noticeEnable : BitVec 16
  linkRate : Nat
  drainFairness : Nat
  deriving DecidableEq, Repr

/-! ## The whole part -/

/-- The state of the part. -/
structure State where
  /-- The commands that wait, first in, first out. -/
  pending : List Instr
  /-- RESETn is held low (R230). -/
  resetLow : Bool
  /-- The level of each presence input; true is active (R98, R230). -/
  presence : Vector Bool 4
  /-- The MODEL'S OWN clock: milliseconds since the device reset, in which expiry moments are told. -/
  clock : Nat
  /-- The MODEL'S OWN counter of free values drawn. -/
  freeDraws : Nat
  params : Params
  link : Link
  table : Table
  mover : Mover
  staging : Staging
  mapStore : MapStore
  ports : Vector PortRecord 4
  power : Power
  notices : Notices
  log : LogUnit
  deriving DecidableEq, Repr

/-- Why the part stops. It has no constructor: no rule of spec/ stops the part, and no command leaves the model
without a next state, so a step never faults. -/
inductive Fault where
  deriving DecidableEq, Repr

/-- Why a step is refused. -/
inductive Refusal where
  /-- A command that has no meaning yet, by its mnemonic. Raised by an arm of `exec` alone; safe, since nothing
  is then claimed of the command. No arm raises it now. -/
  | notModelled (mnemonic : String)
  deriving DecidableEq, Repr

/-! ## Reset values, block by block -/

/-- Every parameter at its default (R219). -/
def Params.reset : Params :=
  { idleCode := 50, dataTimeout := 20, reportTimeout := 40, highWater := 24, writeBack := true, held := false
    noticeEnable := 0x02FF, linkRate := 0, drainFairness := 3 }

/-- The Link Controller after a device reset (R203, R204, R208, R211, R217). That RXD is then taken as high, though it
may still be held low after a break, is the model's choice (log entry 27). -/
def Link.reset : Link :=
  { receiver := .hunting, rxdLow := false, lineRate := 0, expected := 0, cache := none, heldMessage := none
    pendingReply := none, transmission := none, resetWait := .noReset, reportSeq := 0, window := [], lost := false
    counters := LinkCounters.zero }

/-- The Request Table after a device reset (R46). -/
def Table.reset : Table :=
  { slots := Vector.replicate 16 none, admissionOrder := [], completionOrder := [], counter := 0, snapshot := none }

/-- The Data Mover after a device reset (R49, R68). -/
def Mover.reset : Mover :=
  { writes := Vector.replicate 16 none, fetches := Vector.replicate 16 none, returns := Vector.replicate 8 .free
    fillOrder := [], grantOrder := [] }

/-- The Staging Buffer after a device reset (R94). -/
def Staging.reset : Staging :=
  { slots := Vector.replicate 32 .free, drainOrder := [], pressure := false }

/-- The Map Store after a device reset (R3, R13, R46, R142, R157). -/
def MapStore.reset : MapStore :=
  { active := Map.empty, draft := Map.empty, ceiling := Config.ceilingAtReset, ready := false, commit := none }

/-- Power Control after a device reset (R171). -/
def Power.reset : Power :=
  { state := .active, idleTimer := none, marks := Vector.replicate 4 .clear }

/-- The Notice Unit after a device reset (R184). -/
def Notices.reset : Notices := { pending := [], order := [], attn := false }

/-- The Log Unit after a device reset (R193). -/
def LogUnit.reset : LogUnit := { uptime := 0, recent := [], ring := [], nextNumber := 1, errorCount := 0 }

/-- The part right after a device reset with no member fitted: the presence inputs, which the spec leaves to the
world outside, all read inactive, as pins left open do (R230). -/
def State.reset : State :=
  { pending := [], resetLow := false, presence := Vector.replicate 4 false, clock := 0, freeDraws := 0
    params := Params.reset, link := Link.reset, table := Table.reset, mover := Mover.reset, staging := Staging.reset
    mapStore := MapStore.reset, ports := Vector.replicate 4 PortRecord.emptyAtReset, power := Power.reset
    notices := Notices.reset, log := LogUnit.reset }

end Sys2Proof.Machine
end

