-- ==== Sys2Proof/Machine/Codec.lean ====
section
/-! DEFINITION. Bytes: little-endian fields, the two CRCs, every code table, and the layouts of frames, extents, map
records, history entries and notice details (chapter Formats, Codes and Pins). -/

namespace Sys2Proof.Machine

/-! ## Fields -/

/-- One byte of a number. -/
def byte (n : Nat) : Byte := BitVec.ofNat 8 n

/-- A number as `k` bytes, least significant first (R221). -/
def le : Nat → Nat → List Byte
  | 0, _ => []
  | k + 1, n => byte n :: le k (n / 256)

/-- The number that bytes spell, least significant first (R221). -/
def leVal : List Byte → Nat
  | [] => 0
  | b :: bs => b.toNat + 256 * leVal bs

/-- A 32-bit number as four bytes. -/
def le32 (w : Word32) : List Byte := le 4 w.toNat

/-- Fill bytes, sent as 00H (R224). -/
def zeros (n : Nat) : List Byte := List.replicate n 0

/-- A byte for yes or no. -/
def flagByte (b : Bool) : Byte := if b then 1 else 0

/-- A byte with bit p set for each port of a set (R224). -/
def portSet (ps : List Port) : Byte := ps.foldl (fun acc p => acc ||| (1#8 <<< p.val)) 0

/-! ## The CRCs and the page checksum -/

/-- One bit through the CRC-16 register, polynomial 1021H, most significant bit first (R222). -/
def crc16Bit (r : BitVec 16) : BitVec 16 :=
  if r.msb then (r <<< 1) ^^^ 0x1021#16 else r <<< 1

/-- One byte through the CRC-16 register (R222). -/
def crc16Byte (r : BitVec 16) (b : Byte) : BitVec 16 :=
  Nat.repeat crc16Bit 8 (r ^^^ (b.zeroExtend 16 <<< 8))

/-- The CRC-16 of a run of bytes, initial value 0FFFFH (R222). -/
def crc16 (bs : List Byte) : BitVec 16 := bs.foldl crc16Byte 0xFFFF

/-- One bit through the reflected CRC-32 register, polynomial 04C11DB7H (R223). -/
def crc32Bit (r : Word32) : Word32 :=
  if r.getLsbD 0 then (r >>> 1) ^^^ 0xEDB88320#32 else r >>> 1

/-- One byte through the CRC-32 register, least significant bit first (R223). -/
def crc32Byte (r : Word32) (b : Byte) : Word32 :=
  Nat.repeat crc32Bit 8 (r ^^^ b.zeroExtend 32)

/-- The CRC-32 of a run of bytes, initial value 0FFFFFFFFH, inverted at the end (R223). -/
def crc32 (bs : List Byte) : Word32 := ~~~ (bs.foldl crc32Byte 0xFFFFFFFF)

/-- The checksum that makes the sum of a page's bytes 0 modulo 256 (R200). -/
def checksum (bs : List Byte) : Byte := 0 - bs.foldl (· + ·) 0

/-- The check value of a stored block: CRC-16 over the data and the PBN as three bytes (R110, R223). -/
def checkValue (pbn : Nat) (data : List Byte) : List Byte := le 2 (crc16 (data ++ le 3 pbn)).toNat

/-- The 258 bytes a PGBLK programs (R110). -/
def storedBlock (pbn : Nat) (data : List Byte) : List Byte := data ++ checkValue pbn data

/-! ## Code tables (R225, R227, R229) -/

/-- The kind byte of a message kind (R225). -/
def MsgKind.code : MsgKind → Byte
  | .identify => 0x10 | .status => 0x11 | .setParameter => 0x12 | .getParameter => 0x13
  | .resetLink => 0x14 | .linkSync => 0x15
  | .read => 0x20 | .write => 0x21 | .verify => 0x22 | .flush => 0x23 | .writeData => 0x24
  | .fetchSnapshot => 0x28
  | .mapRead => 0x30 | .mapEdit => 0x31 | .mapEditPool => 0x32 | .mapResetDraft => 0x33
  | .mapCommit => 0x34 | .setCeiling => 0x35
  | .park => 0x40 | .unpark => 0x41 | .portReset => 0x48
  | .strandedRetry => 0x50 | .strandedDiscard => 0x51 | .noticeClear => 0x58 | .getLog => 0x60

/-- Every message kind (R225). -/
def allKinds : List MsgKind :=
  [.identify, .status, .setParameter, .getParameter, .resetLink, .linkSync, .read, .write, .verify, .flush,
   .writeData, .fetchSnapshot, .mapRead, .mapEdit, .mapEditPool, .mapResetDraft, .mapCommit, .setCeiling,
   .park, .unpark, .portReset, .strandedRetry, .strandedDiscard, .noticeClear, .getLog]

/-- The message kind a kind byte names, if any (R209, R225). -/
def MsgKind.ofCode (b : Byte) : Option MsgKind := allKinds.find? (fun k => k.code = b)

/-- The reply statuses (R229). OK, ACCEPTED and TAKEN share the code 00H. -/
inductive ReplyStatus where
  | ok | malformed | unknownKind | starting | queueHalted | mapBusy | tagInUse | badCount | beyondCeiling
  | unmapped | writeProtected | memberUnavailable | notSolicited | badParameter | ceilingRaise | mapInvalid
  | noTarget | noSnapshot | portInvalid | sequenceError | commitStarted
  deriving DecidableEq, Repr

/-- The code of a reply status (R229). -/
def ReplyStatus.code : ReplyStatus → Byte
  | .ok => 0x00 | .malformed => 0x01 | .unknownKind => 0x02 | .starting => 0x03 | .queueHalted => 0x04
  | .mapBusy => 0x05 | .tagInUse => 0x06 | .badCount => 0x07 | .beyondCeiling => 0x08 | .unmapped => 0x09
  | .writeProtected => 0x0A | .memberUnavailable => 0x0B | .notSolicited => 0x0C | .badParameter => 0x0D
  | .ceilingRaise => 0x0E | .mapInvalid => 0x0F | .noTarget => 0x10 | .noSnapshot => 0x11
  | .portInvalid => 0x12 | .sequenceError => 0x13 | .commitStarted => 0x14

/-- The code of a completion status (R229). -/
def CompletionStatus.code : CompletionStatus → Byte
  | .good => 0 | .mediaError => 1 | .memberLost => 2 | .dataTimeout => 3 | .aborted => 4

/-- The code of a notice kind (R229). -/
def NoticeKind.code : NoticeKind → Nat
  | .portAttached => 1 | .portDetached => 2 | .portFailed => 3 | .slotStranded => 4 | .queueHalted => 5
  | .stagingHigh => 6 | .commitDone => 7 | .parked => 8 | .logAdded => 9 | .startDone => 10

/-- Every notice kind, in code order. -/
def allNoticeKinds : List NoticeKind :=
  [.portAttached, .portDetached, .portFailed, .slotStranded, .queueHalted, .stagingHigh, .commitDone, .parked,
   .logAdded, .startDone]

/-- The notice kind a byte names, 01H to 0AH (R180). -/
def NoticeKind.ofCode (b : Byte) : Option NoticeKind := allNoticeKinds.find? (fun k => k.code = b.toNat)

/-- The kinds that keep one instance for each port (R172). -/
def NoticeKind.isPortKind : NoticeKind → Bool
  | .portAttached | .portDetached | .portFailed => true
  | .slotStranded | .queueHalted | .stagingHigh | .commitDone | .parked | .logAdded | .startDone => false

/-- The code of a history cause (R229). -/
def HistoryCause.code : HistoryCause → Byte
  | .noResponse => 0x01 | .checkFail => 0x02 | .programFailed => 0x03 | .opTimeout => 0x04 | .memberLost => 0x05
  | .probeFailed => 0x06 | .mapWriteFailed => 0x07 | .dataTimeout => 0x10 | .linkLost => 0x11
  | .dataDiscarded => 0x12 | .quiesceTimeout => 0x13

/-- The code of a history source (R229). -/
def HistorySource.code : HistorySource → Byte
  | .port => 1 | .request => 2 | .link => 3 | .staging => 4 | .map => 5

/-- The history cause an operation's failure gives (R117). -/
def OpFailure.cause : OpFailure → HistoryCause
  | .noResponse => .noResponse | .checkFail => .checkFail | .programFailed => .programFailed
  | .opTimeout => .opTimeout | .memberLost => .memberLost

/-- The stranding reason a drain's failure gives (R81). A PGBLK never ends CHECK_FAIL, which R112 gives to RDBLK
alone; its line is there for totality. -/
def OpFailure.strandReason : OpFailure → StrandReason
  | .noResponse => .noResponse | .checkFail => .programFailed | .programFailed => .programFailed
  | .opTimeout => .opTimeout | .memberLost => .memberLost

/-- The history cause that repeats a stranding reason (R129). -/
def StrandReason.cause : StrandReason → HistoryCause
  | .programFailed => .programFailed | .noResponse => .noResponse | .opTimeout => .opTimeout
  | .memberLost => .memberLost

/-- The code of a port class (R229). -/
def PortClass.code : PortClass → Byte
  | .empty => 0 | .debounce => 1 | .probe => 2 | .pooled => 3 | .stale => 4 | .foreign => 5 | .blank => 6
  | .failed => 7

/-- The code of an engine state (R229). -/
def Engine.code : Engine → Byte
  | .idle => 0 | .busy => 1 | .asleep => 2 | .waking => 3

/-- The code of an occupied slot's state; FREE is 00H (R229). -/
def ReqState.code : ReqState → Byte
  | .held => 1 | .active => 2 | .settling => 3 | .aborting => 4 | .reporting => 5

/-- The code of a power state (R229). -/
def PowerState.code : PowerState → Byte
  | .active => 0 | .lowPower => 1 | .parking => 2 | .parked => 3

/-- The code of a commit phase; NONE is 00H (R229). -/
def CommitPhase.code : CommitPhase → Byte
  | .quiesce _ => 1 | .tentative => 2 | .final => 3

/-- The code of a commit result (R229). -/
def CommitResult.code : CommitResult → Byte
  | .done => 0 | .failedQuiesce => 1 | .failedWrite => 2 | .failedNoTarget => 3

/-- A request kind in a header or a snapshot is its message kind code (R229). -/
def ReqKind.code : ReqKind → Byte
  | .read => 0x20 | .write => 0x21 | .verify => 0x22 | .flush => 0x23

/-- Why a draft fails validation (R20). -/
inductive InvalidReason where
  | zeroLength | portNotTarget | range | overlapLogical | overlapPhysical
  deriving DecidableEq, Repr

/-- The code of a validation reason (R229). -/
def InvalidReason.code : InvalidReason → Byte
  | .zeroLength => 1 | .portNotTarget => 2 | .range => 3 | .overlapLogical => 4 | .overlapPhysical => 5

/-- The flags byte of a header or a snapshot: bit 0 URGENT, bit 1 THROUGH (R226, R228). -/
def flagsByte (urgent through : Bool) : Byte := byte (urgent.toNat + 2 * through.toNat)

/-! ## Frames (R221) -/

/-- The type codes of the part's own frames (R221). -/
def replyType : Byte := 0x02
def reportType : Byte := 0x03

/-- All bytes of a frame: start, length, type, sequence, payload and CRC (R221, R222). -/
def frameBytes (type seq : Byte) (payload : List Byte) : List Byte :=
  let covered := le 2 payload.length ++ type :: seq :: payload
  0xC7 :: covered ++ le 2 (crc16 covered).toNat

/-! ## Extents and map records (R223) -/

/-- The access code of an extent (R223). -/
def Access.code : Access → Byte
  | .readWrite => 0 | .readOnly => 1

/-- The 16-byte form of an extent (R223). -/
def extentForm (e : Extent) : List Byte :=
  flagByte e.enabled :: e.access.code :: byte e.port.val :: 0 ::
    (le 3 e.first.toNat ++ le 3 e.length.toNat ++ le 3 e.base.toNat ++ zeros 3)

/-- The eight extent forms, index 0 first. -/
def extentForms (m : Map) : List Byte := m.extents.toList.flatMap extentForm

/-- The port a byte names, if it is 0 to 3. -/
def portOfByte (b : Byte) : Option Port := if h : b.toNat < 4 then some ⟨b.toNat, h⟩ else none

/-- The tag a byte names, if it is 0 to 15. -/
def tagOfByte (b : Byte) : Option Tag := if h : b.toNat < 16 then some ⟨b.toNat, h⟩ else none

/-- The access a byte names, if it is one of the two codes. -/
def accessOfByte (b : Byte) : Option Access :=
  if b = 0 then some .readWrite else if b = 1 then some .readOnly else none

/-- A 24-bit field of an extent form. -/
def field24 (bs : List Byte) : BitVec 24 := BitVec.ofNat 24 (leVal (bs.take 3))

/-- An extent read from a map record. An enabled extent needs a good access and port byte; a disabled one takes
them as they are, and where a byte names none, a free value stands for it (R223, log entry 10). -/
def extentOfRecord (form : List Byte) : Option Extent :=
  let accessByte := form.getD 1 0
  let portByte := form.getD 2 0
  let fields := (field24 (form.drop 4), field24 (form.drop 7), field24 (form.drop 10))
  if form.getD 0 0 = 1 then
    match accessOfByte accessByte, portOfByte portByte with
    | some a, some p => some ⟨true, a, p, fields.1, fields.2.1, fields.2.2⟩
    | _, _ => none
  else
    let a := (accessOfByte accessByte).getD
      (if Config.disabledAccessReadOnly accessByte then .readOnly else .readWrite)
    let p := (portOfByte portByte).getD (Config.disabledPort portByte)
    some ⟨false, a, p, fields.1, fields.2.1, fields.2.2⟩

/-- The extents of a record, or none where one fails the structural test of R223. -/
def extentsOfRecord : Nat → List Byte → Option (List Extent)
  | 0, _ => some []
  | k + 1, bs =>
    match extentOfRecord (bs.take 16), extentsOfRecord k (bs.drop 16) with
    | some e, some es => some (e :: es)
    | _, _ => none

/-- Eight extents as a map's vector; a missing one is an empty extent. -/
def extentVector (es : List Extent) : Vector Extent 8 :=
  let g := fun i => es.getD i Extent.empty
  #v[g 0, g 1, g 2, g 3, g 4, g 5, g 6, g 7]

/-- The state byte of a map record (R223). -/
def RecordState.code : RecordState → Byte
  | .tentative => 1 | .final => 2

/-- The 256 data bytes of a map record (R139, R223). -/
def recordBytes (st : RecordState) (generation pool : Word32) (m : Map) : List Byte :=
  let body := le 4 Config.recordMark ++ [1, st.code, 0, 0] ++ le32 generation ++ le32 pool ++ extentForms m ++ zeros 108
  body ++ le32 (crc32 body)

/-! ## Optional fields, history entries and notice details -/

/-- A byte of presence bits, bit 0 first (R224). -/
def presenceBits (bits : List Bool) : Byte := byte (bits.foldr (fun b acc => b.toNat + 2 * acc) 0)

/-- An optional number as `k` bytes; its bytes are 00H where it is absent (R224). -/
def optField (k : Nat) (n : Option Nat) : List Byte := le k (n.getD 0)

/-- A header of page 01H, seven bytes (R228). -/
def headerBytes (h : Header) : List Byte :=
  byte h.tag.val :: h.kind.code ::
    byte (h.urgent.toNat + 2 * h.through.toNat + 4 * h.range.isSome.toNat) ::
    (optField 3 (h.range.map (·.first)) ++ optField 1 (h.range.map (·.count)))

/-- A history entry of page 01H, 21 + 7h bytes (R228). -/
def entryBytes (e : HistoryEntry) : List Byte :=
  le32 e.number ++ le32 e.uptime ++
    [e.cause.code, e.source.code, presenceBits [e.tag.isSome, e.lbn.isSome, e.port.isSome, e.pbn.isSome]] ++
    optField 1 (e.tag.map (·.val)) ++ optField 3 e.lbn ++ optField 1 (e.port.map (·.val)) ++ optField 3 e.pbn ++
    [byte e.attempts, byte e.recent.length] ++ e.recent.flatMap headerBytes

/-- The detail bytes of a notice that its kind lists (R227). -/
def detailFields : NoticeDetail → List Byte
  | .portClass c => [c.code]
  | .cause c => [c.code]
  | .count n => [byte n]
  | .tag t => [byte t.val]
  | .commit r g w f => r.code :: (le32 g ++ [portSet w, portSet f])
  | .number n => le32 n

/-- The eight detail bytes of a NOTICE report; those not listed are 00H (R227). -/
def detailBytes (d : NoticeDetail) : List Byte :=
  let fields := detailFields d
  fields ++ zeros (8 - fields.length)

end Sys2Proof.Machine
end

