-- ==== Sys2Proof/Machine/Ops.lean ====
section
/-! DEFINITION. The named operations every block's rules are written with: reading and writing one slot, port or
record, saturating counters, translation and availability, and the readings the blocks offer each other. -/

namespace Sys2Proof.Machine

/-! ## The numbered things, in ascending order -/

def allTags : List Tag := [0, 1, 2, 3, 4, 5, 6, 7, 8, 9, 10, 11, 12, 13, 14, 15]
def allPorts : List Port := [0, 1, 2, 3]
def allReturns : List RetNo := [0, 1, 2, 3, 4, 5, 6, 7]
def allSlots : List SlotNo :=
  [0, 1, 2, 3, 4, 5, 6, 7, 8, 9, 10, 11, 12, 13, 14, 15, 16, 17, 18, 19, 20, 21, 22, 23, 24, 25, 26, 27, 28, 29,
   30, 31]

/-! ## Sets as ascending lists without repeats -/

/-- Adds a number to an ascending list without repeats. -/
def setInsert {n : Nat} (x : Fin n) : List (Fin n) → List (Fin n)
  | [] => [x]
  | y :: ys => if x < y then x :: y :: ys else if x = y then y :: ys else y :: setInsert x ys

/-- Takes a number out of a set or of an order list without repeats. -/
def setRemove {n : Nat} (x : Fin n) (xs : List (Fin n)) : List (Fin n) := xs.filter (fun y => y ≠ x)

/-! ## Counters -/

/-- Adds 1 and stops at the largest value (Conventions; R192, R217). -/
def satInc {w : Nat} (c : BitVec w) : BitVec w := if c = BitVec.allOnes w then c else c + 1

/-- Adds `k` and stops at the largest value (R124). -/
def satAdd {w : Nat} (c : BitVec w) (k : Nat) : BitVec w := BitVec.ofNat w (min (c.toNat + k) (2 ^ w - 1))

/-- Adds 1 to a count that stops at 255 (R174). -/
def inc255 (n : Nat) : Nat := min (n + 1) 255

/-! ## The Request Table's slots -/

def State.request (s : State) (t : Tag) : Option Request := s.table.slots[t]

def State.setSlot (s : State) (t : Tag) (r : Option Request) : State :=
  { s with table := { s.table with slots := s.table.slots.set t r } }

def State.setRequest (s : State) (t : Tag) (r : Request) : State := s.setSlot t (some r)

/-- The queue is HALTED while a snapshot is present (R127). -/
def State.halted (s : State) : Bool := s.table.snapshot.isSome

/-- The first reading of R48: all sixteen slots are FREE. -/
def State.allFree (s : State) : Bool := allTags.all (fun t => (s.request t).isNone)

/-- Whether the slot is occupied by a request in state `st`. -/
def State.inState (s : State) (st : ReqState) (t : Tag) : Bool :=
  match s.request t with
  | some r => r.state = st
  | none => false

/-- The number of request slots in state `st` (R48). -/
def State.countState (s : State) (st : ReqState) : Nat := (allTags.filter (s.inState st)).length

/-! ## The Data Mover's records -/

def State.writeRecord (s : State) (t : Tag) : Option WriteRecord := s.mover.writes[t]

def State.setWriteRecord (s : State) (t : Tag) (w : Option WriteRecord) : State :=
  { s with mover := { s.mover with writes := s.mover.writes.set t w } }

def State.fetchRecord (s : State) (t : Tag) : Option FetchRecord := s.mover.fetches[t]

def State.setFetchRecord (s : State) (t : Tag) (f : Option FetchRecord) : State :=
  { s with mover := { s.mover with fetches := s.mover.fetches.set t f } }

def State.returnSlot (s : State) (r : RetNo) : ReturnSlot := s.mover.returns[r]

def State.setReturnSlot (s : State) (r : RetNo) (x : ReturnSlot) : State :=
  { s with mover := { s.mover with returns := s.mover.returns.set r x } }

def State.setFillOrder (s : State) (o : List RetNo) : State := { s with mover := { s.mover with fillOrder := o } }

def State.setGrantOrder (s : State) (o : List Tag) : State := { s with mover := { s.mover with grantOrder := o } }

/-- The owner a return slot records; absent when FREE (R49). -/
def ReturnSlot.owner? : ReturnSlot → Option Owner
  | .free => none
  | .fetching o _ _ => some o
  | .filled o _ _ _ => some o
  | .sent o _ _ _ => some o

/-- The number of return slots not FREE (R69). -/
def State.busyReturns (s : State) : Nat := (allReturns.filter (fun r => s.returnSlot r ≠ .free)).length

/-! ## The Staging Buffer's slots -/

def State.slot (s : State) (i : SlotNo) : StagingSlot := s.staging.slots[i]

def State.setStaging (s : State) (i : SlotNo) (x : StagingSlot) : State :=
  { s with staging := { s.staging with slots := s.staging.slots.set i x } }

def State.setDrainOrder (s : State) (o : List SlotNo) : State :=
  { s with staging := { s.staging with drainOrder := o } }

/-- The LBN a slot stands for; absent in FREE (R70). -/
def StagingSlot.lbn? : StagingSlot → Option Nat
  | .free => none
  | .filling x _ _ => some x
  | .dirty x _ _ => some x
  | .draining x _ _ => some x
  | .stranded x _ _ _ => some x

/-- The THROUGH mark; clear in FREE (R70). -/
def StagingSlot.isThrough : StagingSlot → Bool
  | .free => false
  | .filling _ _ m => m
  | .dirty _ m _ => m
  | .draining _ m _ => m
  | .stranded _ m _ _ => m

def StagingSlot.isFree : StagingSlot → Bool
  | .free => true
  | .filling .. | .dirty .. | .draining .. | .stranded .. => false

def StagingSlot.isFilling : StagingSlot → Bool
  | .filling .. => true
  | .free | .dirty .. | .draining .. | .stranded .. => false

def StagingSlot.isDirty : StagingSlot → Bool
  | .dirty .. => true
  | .free | .filling .. | .draining .. | .stranded .. => false

def StagingSlot.isDraining : StagingSlot → Bool
  | .draining .. => true
  | .free | .filling .. | .dirty .. | .stranded .. => false

def StagingSlot.isStranded : StagingSlot → Bool
  | .stranded .. => true
  | .free | .filling .. | .dirty .. | .draining .. => false

/-- The number of staging slots in one state (R71, R96). -/
def State.countSlots (s : State) (p : StagingSlot → Bool) : Nat := (allSlots.filter (fun i => p (s.slot i))).length

/-- The number of non-FREE staging slots: 32 minus the FREE count (R88). -/
def State.nonFree (s : State) : Nat := 32 - s.countSlots StagingSlot.isFree

/-- Quiet: no slot is FILLING, DIRTY or DRAINING (R96). -/
def State.quiet (s : State) : Bool :=
  allSlots.all (fun i => (s.slot i).isFree || (s.slot i).isStranded)

/-- The slot that holds LBN `x` in a state that `p` picks; by R76 there is at most one in DIRTY or STRANDED, one
in DRAINING. -/
def State.findLbn (s : State) (p : StagingSlot → Bool) (x : Nat) : Option SlotNo :=
  allSlots.find? (fun i => p (s.slot i) && decide ((s.slot i).lbn? = some x))

/-- The DIRTY or STRANDED slot for `x` (R85, step 1). -/
def State.newestCopy (s : State) (x : Nat) : Option SlotNo :=
  s.findLbn (fun d => d.isDirty || d.isStranded) x

/-- The data of a slot that holds some (R70). -/
def StagingSlot.data : StagingSlot → List Byte
  | .dirty _ _ d => d
  | .draining _ _ d => d
  | .stranded _ _ d _ => d
  | .free | .filling .. => []

/-- The coherent read lookup (R85). -/
def State.coherent (s : State) (x : Nat) : Option (List Byte) :=
  match s.newestCopy x with
  | some i => some (s.slot i).data
  | none => (s.findLbn StagingSlot.isDraining x).map (fun i => (s.slot i).data)

/-! ## Ports, power marks and time -/

def State.port (s : State) (p : Port) : PortRecord := s.ports[p]

def State.setPort (s : State) (p : Port) (x : PortRecord) : State := { s with ports := s.ports.set p x }

def State.mark (s : State) (p : Port) : SleepMark := s.power.marks[p]

def State.setMark (s : State) (p : Port) (m : SleepMark) : State :=
  { s with power := { s.power with marks := s.power.marks.set p m } }

/-- Every sleep mark CLEAR (R163, R164, R167). -/
def State.clearMarks (s : State) : State :=
  { s with power := { s.power with marks := Vector.replicate 4 .clear } }

def State.setPower (s : State) (p : PowerState) : State := { s with power := { s.power with state := p } }

def State.setIdleTimer (s : State) (e : Option Nat) : State := { s with power := { s.power with idleTimer := e } }

/-- A port is classified when it is POOLED, STALE, FOREIGN, BLANK or FAILED (R97). -/
def PortClass.classified : PortClass → Bool
  | .pooled | .stale | .foreign | .blank | .failed => true
  | .empty | .debounce | .probe => false

/-- The classes a commit takes as targets, and that SLEEP is started for (R20, R114). -/
def PortClass.targetable : PortClass → Bool
  | .pooled | .stale | .foreign | .blank => true
  | .empty | .debounce | .probe | .failed => false

/-- Whether any lane operation is in flight on any port, a suspended one included (R125). -/
def State.opInFlight (s : State) : Bool := allPorts.any (fun p => (s.port p).op.isSome)

/-- A timer has expired when its moment is reached on the model's clock (log entry 2). -/
def State.reached (s : State) (moment : Nat) : Bool := decide (moment ≤ s.clock)

/-- The moment `ms` milliseconds ahead. -/
def State.ahead (s : State) (ms : Nat) : Nat := s.clock + ms

/-! ## The Map Store -/

def State.setMaps (s : State) (m : MapStore) : State := { s with mapStore := m }

def State.setCommit (s : State) (c : Option Commit) : State := { s with mapStore := { s.mapStore with commit := c } }

/-- The code of the commit phase, NONE when no record is present (R142, R229). -/
def State.phaseCode (s : State) : Byte :=
  match s.mapStore.commit with
  | none => 0
  | some c => c.phase.code

/-! ## Extents, translation and availability -/

/-- The LBN lies in the extent (R2). -/
def Extent.covers (e : Extent) (x : Nat) : Bool :=
  decide (e.first.toNat ≤ x) && decide (x < e.first.toNat + e.length.toNat)

/-- Two extents share an LBN (R5, R20). -/
def Extent.overlapsLogical (a b : Extent) : Bool :=
  decide (a.first.toNat < b.first.toNat + b.length.toNat) &&
    decide (b.first.toNat < a.first.toNat + a.length.toNat) &&
    decide (0 < a.length.toNat) && decide (0 < b.length.toNat)

/-- Two extents on one port share a PBN (R5, R20). -/
def Extent.overlapsPhysical (a b : Extent) : Bool :=
  decide (a.port = b.port) && decide (a.base.toNat < b.base.toNat + b.length.toNat) &&
    decide (b.base.toNat < a.base.toNat + a.length.toNat) &&
    decide (0 < a.length.toNat) && decide (0 < b.length.toNat)

/-- The checks of R5 on one enabled extent alone. -/
def Extent.soundAlone (e : Extent) : Bool :=
  decide (1 ≤ e.length.toNat) && decide (e.first.toNat + e.length.toNat ≤ 0x1000000) &&
    decide (Config.firstDataPbn ≤ e.base.toNat) && decide (e.base.toNat + e.length.toNat ≤ Config.maxCapacity)

/-- The structural checks of R5 on a list of enabled extents. -/
def structuralOk : List Extent → Bool
  | [] => true
  | e :: es =>
    e.soundAlone && es.all (fun f => !e.overlapsLogical f && !e.overlapsPhysical f) && structuralOk es

/-- The enabled extents of a map, in index order. -/
def Map.enabledExtents (m : Map) : List Extent := m.extents.toList.filter (·.enabled)

/-- Where a block lies (R6). -/
structure Place where
  port : Port
  pbn : Nat
  access : Access
  deriving DecidableEq, Repr

/-- Translation of one LBN by a map (R6). -/
def Map.translate (m : Map) (x : Nat) : Option Place :=
  (m.enabledExtents.find? (·.covers x)).map
    (fun e => ⟨e.port, e.base.toNat + (x - e.first.toNat), e.access⟩)

/-- Translation by the active map as it stands (R6, R8). -/
def State.translate (s : State) (x : Nat) : Option Place := s.mapStore.active.translate x

/-- The capacity the port's member record holds (R107). -/
def State.capacity (s : State) (p : Port) : Nat :=
  match (s.port p).member with
  | some m => m.capacity
  | none => 0

/-- A place is available when its port is POOLED and its PBN is below the member's capacity (R7). -/
def State.placeAvailable (s : State) (pl : Place) : Bool :=
  decide ((s.port pl.port).cls = .pooled) && decide (pl.pbn < s.capacity pl.port)

/-- A block is available when it is mapped and its place is available (R7). -/
def State.available (s : State) (x : Nat) : Bool :=
  match s.translate x with
  | some pl => s.placeAvailable pl
  | none => false

/-- The LBN translates to port `p`. -/
def State.liesOn (s : State) (p : Port) (x : Nat) : Bool :=
  match s.translate x with
  | some pl => decide (pl.port = p)
  | none => false

/-! ## Free values -/

/-- Draws one fresh free value's index. -/
def State.drawn (s : State) : State := { s with freeDraws := s.freeDraws + 1 }

/-! ## The sub-records of the link -/

def State.setLink (s : State) (l : Link) : State := { s with link := l }

def State.setCounters (s : State) (c : LinkCounters) : State := { s with link := { s.link with counters := c } }

end Sys2Proof.Machine
end

