-- ==== Sys2Proof/Machine/Notices.lean ====
section
/-! DEFINITION. The Notice Unit: raising, acknowledgment, clearing, the mask and the mode, and ATTN (R172 to R185). -/

namespace Sys2Proof.Machine

/-- A kind is enabled when its bit of NOTICE_ENABLE is set (R175, R225). -/
def State.noticeEnabled (s : State) (k : NoticeKind) : Bool := s.params.noticeEnable.getLsbD (k.code - 1)

/-- The place of a key among all keys: ascending kind code, then ascending port (R175, R183). -/
def NoticeKey.rank (k : NoticeKey) : Nat :=
  4 * k.kind.code + (match k.port with | some p => p.val | none => 0)

/-- The level ATTN should have (R181). -/
def State.attnLevel (s : State) : Bool :=
  s.link.lost || s.notices.pending.any (fun n => s.noticeEnabled n.key.kind)

/-- The Notice Unit evaluates ATTN (R181). -/
def evalAttn (s : State) : State := { s with notices := { s.notices with attn := s.attnLevel } }

/-- Adds an instance to the pending set, kept in ascending key order. -/
def insertNotice (n : Notice) : List Notice → List Notice
  | [] => [n]
  | m :: ms => if n.key.rank < m.key.rank then n :: m :: ms else m :: insertNotice n ms

/-- Replaces the instance of one key. -/
def replaceNotice (n : Notice) (ns : List Notice) : List Notice := ns.map (fun m => if m.key = n.key then n else m)

/-- The instance with a key, if it is pending. -/
def State.notice (s : State) (k : NoticeKey) : Option Notice := s.notices.pending.find? (fun n => n.key = k)

/-- Puts a key at the tail of the notice-order list if its kind is enabled (R176). -/
def State.joinOrder (s : State) (k : NoticeKey) : State :=
  if s.noticeEnabled k.kind then { s with notices := { s.notices with order := s.notices.order ++ [k] } } else s

/-- Writes one pending instance back. -/
def State.putNotice (s : State) (n : Notice) : State :=
  { s with notices := { s.notices with pending := replaceNotice n s.notices.pending } }

/-- A raising before ATTN is evaluated: the table of R174. -/
def raiseTable (k : NoticeKey) (d : NoticeDetail) (s : State) : State :=
  match s.notice k with
  | none =>
    ({ s with notices := { s.notices with pending := insertNotice ⟨k, 1, d, .unreported⟩ s.notices.pending } } : State).joinOrder k
  | some n =>
    match n.report with
    | .unreported => s.putNotice { n with count := inc255 n.count, detail := d }
    | .sent q fresh => s.putNotice { n with count := inc255 n.count, detail := d, report := .sent q (inc255 fresh) }
    | .reported => (s.putNotice { n with count := inc255 n.count, detail := d, report := .unreported }).joinOrder k

/-- A raising of key `k` with detail `d` (R174). -/
def raise (k : NoticeKey) (d : NoticeDetail) (s : State) : State := evalAttn (raiseTable k d s)

/-- A raising of a single kind. -/
def raiseSingle (k : NoticeKind) (d : NoticeDetail) (s : State) : State := raise ⟨k, none⟩ d s

/-- A raising of a port kind. -/
def raisePort (k : NoticeKind) (p : Port) (d : NoticeDetail) (s : State) : State := raise ⟨k, some p⟩ d s

/-- Takes instances out of the pending set, and their keys out of the notice-order list (R177, R179, R180). -/
def State.dropNotices (s : State) (out : Notice → Bool) : State :=
  let gone := (s.notices.pending.filter out).map (·.key)
  { s with notices := { s.notices with
      pending := s.notices.pending.filter (fun n => !out n)
      order := s.notices.order.filter (fun k => !gone.contains k) } }

/-- The acknowledgment of the NOTICE report sent under `q`: R177 in AUTO mode, R178 in HELD mode. -/
def ackNotice (q : Byte) (s : State) : State :=
  match s.notices.pending.find? (fun n => match n.report with | .sent r _ => r = q | .unreported | .reported => false) with
  | none => s
  | some n =>
    match n.report with
    | .sent _ 0 =>
      if s.params.held then evalAttn (s.putNotice { n with report := .reported })
      else evalAttn (s.dropNotices (fun m => m.key = n.key))
    | .sent _ (fresh + 1) =>
      let count := if s.params.held then n.count else fresh + 1
      evalAttn ((s.putNotice { n with count := count, report := .unreported }).joinOrder n.key)
    | .unreported => s
    | .reported => s

/-- Instance `n` becomes SENT under sequence number `q` and leaves the notice-order list (R176). -/
def sendNotice (q : Byte) (n : Notice) (s : State) : State :=
  let s1 := s.putNotice { n with report := .sent q 0 }
  { s1 with notices := { s1.notices with order := s1.notices.order.filter (fun k => k ≠ n.key) } }

/-- A new enable mask takes effect (R175). -/
def changeMask (mask : BitVec 16) (s : State) : State :=
  let on := fun (k : NoticeKey) => mask.getLsbD (k.kind.code - 1)
  let joined := s.notices.pending.filter
    (fun n => decide (n.report = .unreported) && on n.key && !s.noticeEnabled n.key.kind)
  evalAttn { s with
    params := { s.params with noticeEnable := mask }
    notices := { s.notices with order := s.notices.order.filter on ++ joined.map (·.key) } }

/-- A new notice mode takes effect: HELD to AUTO drops the REPORTED instances (R179). -/
def changeMode (held : Bool) (s : State) : State :=
  let s1 : State := { s with params := { s.params with held := held } }
  evalAttn (if s.params.held && !held then s1.dropNotices (fun n => n.report = .reported) else s1)

/-- Every instance becomes UNREPORTED and the list is rebuilt (R183). -/
def unreportAll (s : State) : State :=
  let all := s.notices.pending.map (fun n => { n with report := .unreported })
  evalAttn { s with notices := { s.notices with
    pending := all
    order := (all.filter (fun n => s.noticeEnabled n.key.kind)).map (·.key) } }

end Sys2Proof.Machine
end

