-- ==== Sys2Proof/Machine/Log.lean ====
section
/-! DEFINITION. The Log Unit: the history ring, the device error count and the recent-request list (R186 to R193). -/

namespace Sys2Proof.Machine

/-- What the block that makes an entry hands over; number, uptime and headers are the Log Unit's (R188, R190). -/
structure EntryInfo where
  cause : HistoryCause
  source : HistorySource
  tag : Option Tag
  lbn : Option Nat
  port : Option Port
  pbn : Option Nat
  attempts : Nat
  deriving DecidableEq, Repr

/-- The entry the Log Unit makes of it (R190, steps 1 and 2). -/
def State.makeEntry (s : State) (e : EntryInfo) : HistoryEntry :=
  { number := s.log.nextNumber, uptime := s.log.uptime, cause := e.cause, source := e.source, tag := e.tag
    lbn := e.lbn, port := e.port, pbn := e.pbn, attempts := min e.attempts 255, recent := s.log.recent }

/-- The entry number after `n`: 1 follows 0FFFFFFFFH (R190, step 1). -/
def entryAfter (n : Word32) : Word32 := if n = 0xFFFFFFFF then 1 else n + 1

/-- Making one history entry (R190). -/
def addEntry (e : EntryInfo) (s : State) : State :=
  let entry := s.makeEntry e
  let log := { s.log with
    ring := (entry :: s.log.ring).take Config.ringSize
    nextNumber := entryAfter s.log.nextNumber
    errorCount := if e.source = .port then satInc s.log.errorCount else s.log.errorCount }
  raiseSingle .logAdded (.number entry.number) { s with log := log }

/-- The newest entry number (R202); 0 with no entry, a number no entry has. -/
def State.newestEntry (s : State) : Word32 :=
  match s.log.ring with
  | e :: _ => e.number
  | [] => 0

/-- An admission enters its header at the head of the recent-request list (R187). -/
def addHeader (h : Header) (s : State) : State :=
  { s with log := { s.log with recent := (h :: s.log.recent).take Config.recentSize } }

end Sys2Proof.Machine
end

