-- ==== Sys2Proof/Machine/Flags.lean ====
section
/-! DEFINITION. The flags and conditions the blocks evaluate: pressure (R88), the idle timer's conditions (R161), the
park condition (R167), the quiesce condition (R145), the start-up condition (R157) and the window's room (R211). -/

namespace Sys2Proof.Machine

/-- The evaluation of the pressure flag at the end of an event (R88, R89). -/
def evalPressure (s : State) : State :=
  if s.staging.pressure then
    if s.nonFree + 4 ≤ s.params.highWater then { s with staging := { s.staging with pressure := false } } else s
  else if s.params.highWater ≤ s.nonFree then
    raiseSingle .stagingHigh (.count s.nonFree) { s with staging := { s.staging with pressure := true } }
  else s

/-- The conditions under which the idle timer runs (R161). -/
def State.idleConditions (s : State) : Bool :=
  decide (s.power.state = .active) && s.mapStore.ready && s.allFree && s.quiet && s.mapStore.commit.isNone &&
    !s.opInFlight && decide (s.params.idleCode ≠ 0)

/-- The duration of the idle timer in milliseconds; none for a code that starts no timer (R162). -/
def idleDuration (code : Nat) : Option Nat :=
  if code = 0 then none
  else if code ≤ 200 then some (code * 100)
  else if code ≤ 250 then some ((code - 200) * 10000)
  else if code = 251 then some 900000
  else none

/-- The expiry of an idle timer started now (R162). -/
def State.idleExpiry (s : State) : Option Nat := (idleDuration s.params.idleCode).map s.ahead

/-- Power Control's evaluation of the idle timer (R161). -/
def evalIdle (s : State) : State :=
  if s.idleConditions then
    match s.power.idleTimer with
    | some _ => s
    | none => s.setIdleTimer s.idleExpiry
  else s.setIdleTimer none

/-- The evaluation made at the acceptance of a SET-PARAMETER for IDLE_CODE (R162). -/
def evalIdleRestart (s : State) : State :=
  if s.idleConditions then s.setIdleTimer s.idleExpiry else s.setIdleTimer none

/-- The commit phase is TENTATIVE or FINAL (R104, R167). -/
def State.writingPhase (s : State) : Bool :=
  match s.mapStore.commit with
  | some c => (match c.phase with | .quiesce _ => false | .tentative => true | .final => true)
  | none => false

/-- The park condition (R167). -/
def State.parkCondition (s : State) : Bool :=
  decide (s.power.state = .parking) &&
    allTags.all (fun t => !(s.inState .active t || s.inState .settling t || s.inState .aborting t)) &&
    !s.opInFlight && !s.writingPhase

/-- The quiesce condition: table all FREE and staging quiet (R145). -/
def State.quiesceCondition (s : State) : Bool := s.allFree && s.quiet

/-- A port holds the findings of a completed probe (R104, R157). -/
def State.holdsFindings (s : State) (p : Port) : Bool :=
  decide ((s.port p).cls = .probe) &&
    (match (s.port p).probe with | some pr => decide (pr.step = .complete) | none => false)

/-- The start-up condition (R157). -/
def State.startupCondition (s : State) : Bool :=
  allPorts.all (fun p => decide ((s.port p).cls = .empty) || decide ((s.port p).cls = .failed) || s.holdsFindings p)

/-- The window has room (R211). -/
def State.windowRoom (s : State) : Bool :=
  decide (s.link.window.length < Config.windowSize) && s.link.window.all (fun w => w.seq ≠ s.link.reportSeq)

/-- Drains may start: Power Control is neither PARKING nor PARKED (R79, R118). -/
def State.drainsOpen (s : State) : Bool :=
  decide (s.power.state = .active) || decide (s.power.state = .lowPower)

/-- SLEEP is asked of ports left idle in these power states (R164). -/
def State.resting (s : State) : Bool :=
  decide (s.power.state = .lowPower) || decide (s.power.state = .parked)

end Sys2Proof.Machine
end

