-- ==== Sys2Proof/Machine/Requests.lean ====
section
/-! DEFINITION. The end of a request: entering REPORTING, what a request leaves behind, the flush and settle sets, the
request fault and the halt (R38 to R43, R54, R57, R65, R92, R126 to R134). -/

namespace Sys2Proof.Machine

/-! ## Entering REPORTING -/

/-- The slot enters REPORTING with its status and failing LBN fixed, its sets are dropped, and its tag joins the
tail of the completion-order list (R41, R42). -/
def enterReporting (t : Tag) (st : CompletionStatus) (failing : Option Nat) (s : State) : State :=
  match s.request t with
  | none => s
  | some r =>
    let s1 := s.setRequest t { r with
      state := .reporting, status := some st, failingLbn := failing, holdList := [], flushSet := [], settleSet := [] }
    { s1 with table := { s1.table with completionOrder := s1.table.completionOrder ++ [t] } }

/-! ## Flush sets and settle sets -/

/-- Staging slot `o` leaves the flush set of tag `t` unreplaced: blocks done + 1, and GOOD when the set is empty
(R38). -/
def flushLeave (o : SlotNo) (t : Tag) (s : State) : State :=
  match s.request t with
  | none => s
  | some r =>
    if r.kind = .flush ∧ r.state = .settling ∧ o ∈ r.flushSet then
      let rest := setRemove o r.flushSet
      let s1 := s.setRequest t { r with flushSet := rest, blocksDone := r.blocksDone + 1 }
      if rest.isEmpty then enterReporting t .good none s1 else s1
    else s

/-- Staging slot `o` leaves the settle set of tag `t`; in SETTLING the write completes GOOD when the set is empty
(R39). -/
def settleLeave (o : SlotNo) (t : Tag) (s : State) : State :=
  match s.request t with
  | none => s
  | some r =>
    if o ∈ r.settleSet then
      let rest := setRemove o r.settleSet
      let s1 := s.setRequest t { r with settleSet := rest }
      if rest.isEmpty ∧ r.state = .settling then enterReporting t .good none s1 else s1
    else s

/-- Staging slot `n` takes the place of `o` in the flush set of tag `t`; blocks done is unchanged (R38, R75, R81). -/
def flushReplace (o n : SlotNo) (t : Tag) (s : State) : State :=
  match s.request t with
  | none => s
  | some r =>
    if o ∈ r.flushSet then s.setRequest t { r with flushSet := setInsert n (setRemove o r.flushSet) } else s

/-- Does something for each tag of the admission-order list, oldest first (R22). -/
def forAdmitted (f : Tag → State → State) (s : State) : State :=
  s.table.admissionOrder.foldl (fun acc t => f t acc) s

/-! ## What a request leaves behind -/

/-- A FILLING slot goes FREE because its grant is dropped, and leaves each flush set unreplaced (R73, R92). -/
def freeFilling (o : SlotNo) (s : State) : State :=
  forAdmitted (flushLeave o) (s.setStaging o .free)

/-- The slots still FILLING for a request (R73). -/
def State.fillingOf (s : State) (w : Owner) : List SlotNo :=
  allSlots.filter (fun i => match s.slot i with | .filling _ o _ => decide (o = w) | .free | .dirty .. | .draining .. | .stranded .. => false)

/-- The write record of tag `t` is dropped: its FILLING slots go FREE, its timer stops with it, and its GRANT
candidate is withdrawn (R54, R57). -/
def dropWrite (t : Tag) (admission : Word32) (s : State) : State :=
  let s1 := (s.setWriteRecord t none).setGrantOrder (setRemove t s.mover.grantOrder)
  (s1.fillingOf ⟨t, admission⟩).foldl (fun acc o => freeFilling o acc) s1

/-- The fate of one return slot when its READ leaves ACTIVE; `inFlight` keeps a FETCHING one whose RDBLK runs (R65). -/
def releaseReturn (w : Owner) (inFlight : Bool) (r : RetNo) (s : State) : State :=
  match s.returnSlot r with
  | .free => s
  | .sent .. => s
  | .fetching o _ _ => if o = w ∧ inFlight = false then s.setReturnSlot r .free else s
  | .filled o _ _ _ =>
    if o = w then (s.setReturnSlot r .free).setFillOrder (setRemove r s.mover.fillOrder) else s

/-- The fate of all return slots of a request (R65). -/
def releaseReturns (w : Owner) (inFlight : Bool) (s : State) : State :=
  allReturns.foldl (fun acc r => releaseReturn w inFlight r acc) s

/-- The fetch record of tag `t` is dropped, a waiting fetch with it, and its return slots are dealt with (R65). -/
def dropFetch (t : Tag) (admission : Word32) (s : State) : State :=
  releaseReturns ⟨t, admission⟩ false (s.setFetchRecord t none)

/-- What leaving ACTIVE does to the Data Mover's record of the request (R57, R65). -/
def dropWork (t : Tag) (r : Request) (s : State) : State :=
  match r.kind with
  | .write => dropWrite t r.admission s
  | .read => dropFetch t r.admission s
  | .verify => dropFetch t r.admission s
  | .flush => s

/-! ## The halt -/

/-- The request has a fetch IN_FLIGHT (R130). -/
def State.fetchInFlight (s : State) (t : Tag) : Bool :=
  match s.fetchRecord t with
  | some f => (match f.fetch with | some x => (match x.stage with | .inFlight _ _ => true | .drainWait => false | .portWait _ _ => false) | none => false)
  | none => false

/-- Ends one occupied request other than the faulting one, and counts it (R130). Its blocks done stays as held, so
the work it leaves is dealt with after every request has been ended (log entry 15). -/
def endRequest (acc : State × Nat) (t : Tag) : State × Nat :=
  match acc.1.request t with
  | none => acc
  | some r =>
    match r.state with
    | .held => (enterReporting t .aborted none acc.1, acc.2 + 1)
    | .settling => (enterReporting t .aborted none acc.1, acc.2 + 1)
    | .active =>
      if acc.1.fetchInFlight t then
        (acc.1.setRequest t { r with state := .aborting, holdList := [], flushSet := [], settleSet := [] }, acc.2 + 1)
      else (enterReporting t .aborted none acc.1, acc.2 + 1)
    | .aborting => acc
    | .reporting => acc

/-- The work that request `t`, as it stood in `before`, leaves behind (R131): an ABORTING request keeps its fetch. -/
def leaveWork (before : State) (t : Tag) (s : State) : State :=
  match before.request t with
  | none => s
  | some r =>
    if r.state = .active then
      if before.fetchInFlight t then releaseReturns ⟨t, r.admission⟩ true s else dropWork t r s
    else s

/-- The port a failing LBN translates to by the active map (R127). -/
def State.failingPort (s : State) (lbn : Option Nat) : Option Port := (lbn.bind s.translate).map (·.port)

/-- The snapshot of the faulting request (R127). -/
def State.makeSnapshot (s : State) (t : Tag) (r : Request) (st : CompletionStatus) (aborted : Nat) (entry : Word32) :
    Snapshot :=
  { tag := t, kind := r.kind, range := r.range, urgent := r.urgent, through := r.through, status := st
    failingLbn := r.failingLbn, failingPort := s.failingPort r.failingLbn, blocksDone := r.blocksDone
    aborted := aborted, entry := entry }

/-- Halt entry, steps 3 to 6 of R128: the others are ended in admission order and their work is dealt with, the
snapshot is recorded, and QUEUE_HALTED is raised. -/
def haltQueue (t : Tag) (st : CompletionStatus) (s : State) : State :=
  let entry := s.newestEntry
  let others := s.table.admissionOrder.filter (fun u => u ≠ t)
  let ended := others.foldl endRequest (s, 0)
  let left := others.foldl (fun acc u => leaveWork s u acc) ended.1
  match left.request t with
  | none => left
  | some r =>
    let snap := left.makeSnapshot t r st ended.2 entry
    raiseSingle .queueHalted (.tag t) { left with table := { left.table with snapshot := some snap } }

/-- A request fault: the request leaves ACTIVE or SETTLING for REPORTING, its history entry is made, and the queue
halts when it is RUNNING (R41, R128, R129, R135). It touches no request in another state (R41). R54 frees the FILLING
slots first for DATA_TIMEOUT; that they go FREE first in a WRITE's MEDIA_ERROR too is the model's choice (log entry
26). -/
def requestFault (t : Tag) (st : CompletionStatus) (failing : Option Nat) (cause : HistoryCause) (s : State) : State :=
  match s.request t with
  | none => s
  | some r =>
    if r.state = .active ∨ r.state = .settling then
      let s1 := enterReporting t st failing (dropWork t r s)
      let s2 := addEntry
        { cause := cause, source := .request, tag := some t, lbn := failing, port := s1.failingPort failing
          pbn := none, attempts := 0 } s1
      if s2.halted then s2 else haltQueue t st s2
    else s

end Sys2Proof.Machine
end

