-- ==== Sys2Proof/Machine/Staging.lean ====
section
/-! DEFINITION. The Staging Buffer: grants' reservations, data arrival and supersession, drain candidates, promotion,
stranding and its handing on (R50 to R52, R72 to R78, R82 to R86). -/

namespace Sys2Proof.Machine

/-! ## Grants (R50, R51, R72) -/

/-- The FREE staging slots, lowest-numbered first. -/
def State.freeSlots (s : State) : List SlotNo := allSlots.filter (fun i => (s.slot i).isFree)

/-- Turns the slots of a grant to FILLING, the first for LBN `x`, each next for the next LBN (R51, R72). -/
def reserve (w : Owner) (through : Bool) : Nat → List SlotNo → State → State
  | _, [], s => s
  | x, i :: is, s => reserve w through (x + 1) is (s.setStaging i (.filling x w through))

/-- A WRITE in ACTIVE waits when it has no current grant and blocks remain ungranted (R50). -/
def State.waitingWrite (s : State) (t : Tag) : Option (Request × BlockRange × WriteRecord) :=
  match s.request t with
  | none => none
  | some r =>
    match r.range, s.writeRecord t with
    | some g, some w =>
      if r.kind = .write ∧ r.state = .active ∧ w.grant.isNone ∧ w.next < g.count then some (r, g, w) else none
    | _, _ => none

/-- Gives tag `t` a grant if it waits and a staging slot is FREE (R50, R51, R52). -/
def formGrant (t : Tag) (s : State) : State :=
  match s.waitingWrite t with
  | none => s
  | some (r, g, w) =>
    let slots := s.freeSlots.take (min (g.count - w.next) Config.maxGrant)
    if slots.isEmpty then s
    else
      let grant : Grant := ⟨w.next, slots, [], .unsent⟩
      let s1 := s.setWriteRecord t (some { w with next := w.next + slots.length, grant := some grant, timer := none })
      reserve ⟨t, r.admission⟩ r.through (g.first + w.next) slots (s1.setGrantOrder (s1.mover.grantOrder ++ [t]))

/-- The Data Mover walks the waiting writes in admission order (R50). -/
def formGrants (s : State) : State := forAdmitted formGrant s

/-! ## Data arrival and supersession (R74, R75) -/

/-- An older DIRTY or STRANDED copy `o` is freed for the newer slot `i`, whose THROUGH mark takes `o`'s; the FREE of
`o` forms grants (R75). The mark to give slot `i` is answered beside the state. -/
def supersede (i : SlotNo) (x : Nat) (mark : Bool) (s : State) : State × Bool :=
  match s.newestCopy x with
  | none => (s, mark)
  | some o =>
    let older := (s.slot o).isThrough
    let s1 := (s.setStaging o .free).setDrainOrder (setRemove o s.staging.drainOrder)
    (formGrants (forAdmitted (flushReplace o i) s1), mark || older)

/-- The data of one block arrives in the FILLING slot `i` for LBN `x` (R74). The answer's second part is whether the
slot was stranded. -/
def dataArrival (i : SlotNo) (x : Nat) (mark : Bool) (data : List Byte) (s : State) : State × Bool :=
  let sup := supersede i x mark s
  if sup.1.available x then
    ((sup.1.setStaging i (.dirty x sup.2 data)).setDrainOrder (sup.1.staging.drainOrder ++ [i]), false)
  else (sup.1.setStaging i (.stranded x sup.2 data .memberLost), true)

/-! ## Drain candidates (R78) -/

/-- Slot `i` is eligible to drain on port `p` (R78). -/
def State.drainEligible (s : State) (p : Port) (i : SlotNo) : Bool :=
  match s.slot i with
  | .dirty x _ _ => s.liesOn p x && s.available x && (s.findLbn StagingSlot.isDraining x).isNone
  | .free | .filling .. | .draining .. | .stranded .. => false

/-- The THROUGH candidate of port `p` (R78). -/
def State.throughCandidate (s : State) (p : Port) : Option SlotNo :=
  s.staging.drainOrder.find? (fun i => s.drainEligible p i && (s.slot i).isThrough)

/-- The drain candidate of port `p` (R78). -/
def State.drainCandidate (s : State) (p : Port) : Option SlotNo :=
  match s.throughCandidate p with
  | some i => some i
  | none => s.staging.drainOrder.find? (s.drainEligible p)

/-! ## Promotion (R86) -/

/-- Sets the THROUGH mark of a DIRTY or DRAINING slot that holds `x`. -/
def StagingSlot.promoted (x : Nat) : StagingSlot → StagingSlot
  | .dirty y m d => .dirty y (m || decide (y = x)) d
  | .draining y m d => .draining y (m || decide (y = x)) d
  | .free => .free
  | .filling y o m => .filling y o m
  | .stranded y m d r => .stranded y m d r

/-- Promotion of every DIRTY and every DRAINING slot that holds `x` (R86). -/
def promote (x : Nat) (s : State) : State :=
  allSlots.foldl (fun acc i => acc.setStaging i ((acc.slot i).promoted x)) s

/-! ## Stranding (R82 to R84) -/

/-- A slot with data turns STRANDED, keeping its data and THROUGH mark, and leaves the drain-order list. -/
def strandSlot (reason : StrandReason) (i : SlotNo) (s : State) : State :=
  let x := s.slot i
  match x.lbn? with
  | none => s
  | some y =>
    (s.setStaging i (.stranded y x.isThrough x.data reason)).setDrainOrder (setRemove i s.staging.drainOrder)

/-- The DIRTY slots whose LBN translates to port `p`, in ascending slot number (R82). -/
def State.dirtyOn (s : State) (p : Port) : List SlotNo :=
  allSlots.filter (fun i => match s.slot i with | .dirty x _ _ => s.liesOn p x | .free | .filling .. | .draining .. | .stranded .. => false)

/-- Strands slots one by one with reason MEMBER_LOST (R82, R83). -/
def strandAll (slots : List SlotNo) (s : State) : State :=
  slots.foldl (fun acc i => strandSlot .memberLost i acc) s

/-- The stranding reason of a STRANDED slot. -/
def StagingSlot.reason? : StagingSlot → Option StrandReason
  | .stranded _ _ _ r => some r
  | .free | .filling .. | .dirty .. | .draining .. => none

/-- A stranded slot reaches the request of tag `t`, if its flush set or settle set holds the slot: MEDIA_ERROR at
the slot's LBN (R38, R39, R84, step 1). -/
def strandRequest (i : SlotNo) (x : Nat) (cause : HistoryCause) (t : Tag) (s : State) : State :=
  match s.request t with
  | none => s
  | some r =>
    if i ∈ r.flushSet ∨ i ∈ r.settleSet then requestFault t .mediaError (some x) cause s else s

/-- A stranded slot reaches the fetch of tag `t`, if it waits in DRAIN_WAIT on the slot's LBN (R61, R84, step 2). -/
def strandFetch (x : Nat) (cause : HistoryCause) (t : Tag) (s : State) : State :=
  match s.fetchRecord t with
  | none => s
  | some f =>
    match f.fetch with
    | none => s
    | some y => if y.stage = .drainWait ∧ y.lbn = x then requestFault t .mediaError (some x) cause s else s

/-- One stranded slot is handed on to both neighbours (R84). -/
def handOnSlot (i : SlotNo) (s : State) : State :=
  match s.slot i with
  | .stranded x _ _ reason =>
    forAdmitted (strandFetch x reason.cause) (forAdmitted (strandRequest i x reason.cause) s)
  | .free => s
  | .filling .. => s
  | .dirty .. => s
  | .draining .. => s

/-- Stranded slots are handed on to their neighbours in ascending slot number (R84). -/
def handOnWalk (slots : List SlotNo) (s : State) : State :=
  (allSlots.filter (fun i => slots.contains i)).foldl (fun acc i => handOnSlot i acc) s

/-- SLOT_STRANDED is raised once for an event that stranded `slots`, with the number of STRANDED slots when the event
ends; an event that stranded none raises nothing (R84). -/
def noteStranded (slots : List SlotNo) (s : State) : State :=
  if slots.isEmpty then s else raiseSingle .slotStranded (.count (s.countSlots StagingSlot.isStranded)) s

/-- The strandings of one event are handed on together and noted once (R84). -/
def handOn (slots : List SlotNo) (s : State) : State := noteStranded slots (handOnWalk slots s)

/-- The end-of-probe check of port `p`: its DIRTY slots that are unavailable are stranded (R83). -/
def endOfProbeCheck (p : Port) (s : State) : State :=
  let slots := (s.dirtyOn p).filter (fun i => match (s.slot i).lbn? with | some x => !s.available x | none => false)
  handOn slots (strandAll slots s)

end Sys2Proof.Machine
end

