-- ==== Sys2Proof/Machine/Mover.lean ====
section
/-! DEFINITION. The Data Mover's fetches and return slots, and the end of a drain (R58 to R66, R80, R81). -/

namespace Sys2Proof.Machine

/-! ## One fetch -/

/-- Writes the fetch in progress of tag `t`. -/
def setFetch (t : Tag) (x : Option Fetch) (s : State) : State :=
  match s.fetchRecord t with
  | none => s
  | some f => s.setFetchRecord t (some { f with fetch := x })

/-- The block at the cursor has been obtained: the fetch ends and the cursor adds 1 (R58). -/
def advanceCursor (t : Tag) (s : State) : State :=
  match s.fetchRecord t with
  | none => s
  | some f => s.setFetchRecord t (some { f with cursor := f.cursor + 1, fetch := none })

/-- A return slot receives its block and joins the fill-order list (R59, R61, R63). -/
def fillReturn (r : RetNo) (data : List Byte) (s : State) : State :=
  match s.returnSlot r with
  | .fetching o i x => (s.setReturnSlot r (.filled o i x data)).setFillOrder (s.mover.fillOrder ++ [r])
  | .free => s
  | .filled .. => s
  | .sent .. => s

/-- A fetch that must go to a member: PORT_WAIT at the block's port, or MEMBER_LOST where the block is unavailable
(R62). -/
def askMember (t : Tag) (index x : Nat) (ret : Option RetNo) (s : State) : State :=
  match s.translate x with
  | none => requestFault t .memberLost (some x) .memberLost s
  | some pl =>
    if s.placeAvailable pl then setFetch t (some ⟨index, x, .portWait pl.port pl.pbn, ret⟩) s
    else requestFault t .memberLost (some x) .memberLost s

/-- The THROUGH handling of a fetch: MEDIA_ERROR on a STRANDED copy, DRAIN_WAIT on a DIRTY or DRAINING one, which is
promoted, and otherwise the member (R61, R86). -/
def fetchThrough (t : Tag) (index x : Nat) (ret : Option RetNo) (s : State) : State :=
  match s.findLbn StagingSlot.isStranded x with
  | some i =>
    requestFault t .mediaError (some x) (((s.slot i).reason?.map StrandReason.cause).getD .memberLost) s
  | none =>
    if (s.findLbn (fun d => d.isDirty || d.isDraining) x).isSome then
      setFetch t (some ⟨index, x, .drainWait, ret⟩) (promote x s)
    else askMember t index x ret s

/-- The start of the fetch at the cursor of tag `t`; a READ brings its return slot (R61). -/
def startFetch (t : Tag) (ret : Option RetNo) (s : State) : State :=
  match s.request t, s.fetchRecord t with
  | some r, some f =>
    match r.range with
    | none => s
    | some g =>
      let x := g.first + f.cursor
      if r.kind = .read ∧ r.through = false then
        match s.coherent x, ret with
        | some data, some slot => advanceCursor t (fillReturn slot data s)
        | _, _ => askMember t f.cursor x ret s
      else fetchThrough t f.cursor x ret s
  | _, _ => s

/-! ## Return slots (R60) -/

/-- A READ is eligible for a return slot when it is ACTIVE, its cursor is below its count and no fetch is in
progress (R60). -/
def State.eligibleRead (s : State) (t : Tag) : Bool :=
  match s.request t, s.fetchRecord t with
  | some r, some f =>
    match r.range with
    | some g => decide (r.kind = .read) && decide (r.state = .active) && decide (f.cursor < g.count) && f.fetch.isNone
    | none => false
  | _, _ => false

/-- The request of tag `t` carries URGENT. -/
def State.isUrgent (s : State) (t : Tag) : Bool :=
  match s.request t with
  | some r => r.urgent
  | none => false

/-- The READ served next: URGENT first, and the oldest admitted in each group (R60). -/
def State.nextRead (s : State) : Option Tag :=
  match s.table.admissionOrder.find? (fun t => s.eligibleRead t && s.isUrgent t) with
  | some t => some t
  | none => s.table.admissionOrder.find? s.eligibleRead

/-- Return slot `r` turns FETCHING for the READ of tag `t`, and its fetch starts (R60). -/
def assignReturn (t : Tag) (r : RetNo) (s : State) : State :=
  match s.request t, s.fetchRecord t with
  | some q, some f =>
    match q.range with
    | some g =>
      startFetch t (some r) (s.setReturnSlot r (.fetching ⟨t, q.admission⟩ f.cursor (g.first + f.cursor)))
    | none => s
  | _, _ => s

/-- At most `fuel` assignments; each one takes a FREE return slot or ends its request. -/
def assignReturnsUpTo : Nat → State → State
  | 0, s => s
  | fuel + 1, s =>
    match s.nextRead, allReturns.find? (fun r => s.returnSlot r = .free) with
    | some t, some r => assignReturnsUpTo fuel (assignReturn t r s)
    | _, _ => s

/-- Return slots are assigned while a FREE one and an eligible READ both exist (R60). Every assignment but one that
faults keeps its slot, and a fault leaves no READ ACTIVE, so nine are as many as there can be. -/
def assignReturns (s : State) : State := assignReturnsUpTo 9 s

/-! ## Going ACTIVE (R33, R34) -/

/-- A request goes ACTIVE and is handed to the Data Mover by its kind; a VERIFY starts its first fetch (R34, R60). -/
def goActive (t : Tag) (s : State) : State :=
  match s.request t with
  | none => s
  | some r =>
    let s1 := s.setRequest t { r with state := .active }
    match r.kind with
    | .read => s1.setFetchRecord t (some ⟨r.admission, 0, none⟩)
    | .verify => startFetch t none (s1.setFetchRecord t (some ⟨r.admission, 0, none⟩))
    | .write => s1.setWriteRecord t (some ⟨r.admission, 0, none, none⟩)
    | .flush => s1

/-- The request of tag `t` goes ACTIVE if it is HELD with an empty hold list, and takes grants or return slots at
that event (R33, R50, R60). -/
def releaseHold (t : Tag) (s : State) : State :=
  match s.request t with
  | none => s
  | some r =>
    if r.state = .held ∧ r.holdList.isEmpty then assignReturns (formGrants (goActive t s)) else s

/-- The HELD requests whose hold lists are empty go ACTIVE in admission order (R33). -/
def releaseHolds (s : State) : State := forAdmitted releaseHold s

/-! ## The end of a fetch (R63, R132) -/

/-- A fetch has obtained its block (R63): a READ's return slot fills, a VERIFY counts the block and goes on. -/
def fetchObtained (t : Tag) (x : Fetch) (data : List Byte) (s : State) : State :=
  match s.request t with
  | none => s
  | some r =>
    match x.ret with
    | some slot => assignReturns (advanceCursor t (fillReturn slot data s))
    | none =>
      let s1 := advanceCursor t (s.setRequest t { r with blocksDone := r.blocksDone + 1 })
      match r.range, s1.fetchRecord t with
      | some g, some f =>
        if f.cursor < g.count then startFetch t none s1
        else enterReporting t .good none (s1.setFetchRecord t none)
      | _, _ => s1

/-- The end of an ABORTING request's operation (R132). -/
def endAborting (t : Tag) (admission : Word32) (s : State) : State :=
  assignReturns (enterReporting t .aborted none (dropFetch t admission s))

/-- A fetch failed on the lane (R63). -/
def fetchFailed (t : Tag) (x : Fetch) (e : OpFailure) (s : State) : State :=
  match e with
  | .memberLost => assignReturns (requestFault t .memberLost (some x.lbn) .memberLost s)
  | .noResponse | .checkFail | .programFailed | .opTimeout =>
    assignReturns (requestFault t .mediaError (some x.lbn) e.cause s)

/-- The outcome of an RDBLK is handed to the request it was made for, if its fetch record still exists and the
request is ACTIVE or ABORTING; any other result is discarded (R63). -/
def fetchResult (w : Owner) (outcome : Except OpFailure (List Byte)) (s : State) : State :=
  match s.request w.tag, s.fetchRecord w.tag with
  | some r, some f =>
    match f.fetch with
    | none => s
    | some x =>
      if f.admission = w.admission then
        match r.state, outcome with
        | .active, .ok data => fetchObtained w.tag x data s
        | .active, .error e => fetchFailed w.tag x e s
        | .aborting, _ => endAborting w.tag w.admission s
        | .held, _ => s
        | .settling, _ => s
        | .reporting, _ => s
      else s
  | _, _ => s

/-- The fetch of tag `t` waits in PORT_WAIT on port `p` (R62). -/
def State.waitsOn (s : State) (p : Port) (t : Tag) : Bool :=
  match s.fetchRecord t with
  | some f => (match f.fetch with | some x => (match x.stage with | .portWait q _ => decide (q = p) | .drainWait => false | .inFlight _ _ => false) | none => false)
  | none => false

/-- A fetch that waits for a port no longer POOLED fails MEMBER_LOST (R62). -/
def failWaiting (p : Port) (t : Tag) (s : State) : State :=
  match s.fetchRecord t with
  | none => s
  | some f =>
    match f.fetch with
    | none => s
    | some x => if s.waitsOn p t then requestFault t .memberLost (some x.lbn) .memberLost s else s

/-- Every fetch that waits for port `p` fails, in admission order (R62, R99, R134). -/
def failWaitingAll (p : Port) (s : State) : State := assignReturns (forAdmitted (failWaiting p) s)

/-! ## The end of a drain (R80, R81) -/

/-- A fetch in DRAIN_WAIT on `x` looks again: MEDIA_ERROR on a STRANDED copy, the member where no DIRTY or DRAINING
slot holds `x` (R61, R80, R81). -/
def drainWaitEnd (x : Nat) (t : Tag) (s : State) : State :=
  match s.fetchRecord t with
  | none => s
  | some f =>
    match f.fetch with
    | none => s
    | some y =>
      if y.stage = .drainWait ∧ y.lbn = x then
        match s.findLbn StagingSlot.isStranded x with
        | some i =>
          requestFault t .mediaError (some x) (((s.slot i).reason?.map StrandReason.cause).getD .memberLost) s
        | none =>
          if (s.findLbn (fun d => d.isDirty || d.isDraining) x).isSome then s
          else askMember t y.index x y.ret s
      else s

/-- What one request depending on a drained slot does (R80). -/
def drainedFor (o : SlotNo) (x : Nat) (t : Tag) (s : State) : State :=
  drainWaitEnd x t (settleLeave o t (flushLeave o t s))

/-- A drain succeeds: the slot goes FREE and the FREE is handed on (R80). -/
def drainSuccess (o : SlotNo) (s : State) : State :=
  match s.slot o with
  | .draining x _ _ => assignReturns (formGrants (forAdmitted (drainedFor o x) (s.setStaging o .free)))
  | .free => s
  | .filling .. => s
  | .dirty .. => s
  | .stranded .. => s

/-- What one request depending on a given-up slot does: the newer slot `n` takes its place in a flush set, and a
STRANDED `n` faults the FLUSH at once (R81, R92). -/
def replacedFor (o n : SlotNo) (x : Nat) (t : Tag) (s : State) : State :=
  let held := match s.request t with | some r => decide (o ∈ r.flushSet) | none => false
  let s1 := settleLeave o t (flushReplace o n t s)
  let s2 := match held, s1.slot n with
    | true, .stranded _ _ _ reason => requestFault t .mediaError (some x) reason.cause s1
    | _, _ => s1
  drainWaitEnd x t s2

/-- A drain fails: the slot goes FREE when a newer copy of its LBN is held, and turns STRANDED otherwise (R81). The
answer's second part is the slot when it was stranded, still to be handed on by R84. -/
def drainFailure (o : SlotNo) (e : OpFailure) (s : State) : State × List SlotNo :=
  match s.slot o with
  | .draining x _ _ =>
    match s.newestCopy x with
    | some n => (assignReturns (formGrants (forAdmitted (replacedFor o n x) (s.setStaging o .free))), [])
    | none => (strandSlot e.strandReason o s, [o])
  | .free => (s, [])
  | .filling .. => (s, [])
  | .dirty .. => (s, [])
  | .stranded .. => (s, [])

end Sys2Proof.Machine
end

