-- ==== Sys2Proof/Machine/Arbiter.lean ====
section
/-! DEFINITION. The port arbiter: who waits for a lane, whom it takes, the fairness count, and the start of an operation
(R79, R108, R115, R118 to R121), with the SLEEP Power Control asks (R114, R164). -/

namespace Sys2Proof.Machine

/-! ## Starting an operation -/

/-- An operation starts: its first command is sent, its limit set, and the engine goes BUSY or WAKING (R108, R109). -/
def startOp (p : Port) (kind : OpKind) (user : OpUser) (s : State) : State :=
  let engine := match kind with
    | .wake => Engine.waking
    | .ident | .rdblk _ | .pgblk _ _ | .sleep => Engine.busy
  s.setPort p { s.port p with engine := engine, op := some ⟨kind, user, 1, s.ahead Config.opLimitMs, false⟩ }

/-- The class of port `p` changes; a DECLINED sleep mark returns to CLEAR (R164). -/
def setClass (p : Port) (c : PortClass) (s : State) : State :=
  let s1 := s.setPort p { s.port p with cls := c }
  if (s.port p).cls ≠ c ∧ s.mark p = .declined then s1.setMark p .clear else s1

/-! ## The users of a lane (R118) -/

/-- A user of a lane. -/
inductive LaneUser where
  | probe (step : ProbeStep)
  | mapWrite (w : MapWrite)
  | fetch (t : Tag)
  | drain (i : SlotNo)
  deriving DecidableEq, Repr

/-- The probe's next step (R101); a probe whose findings are held asks nothing. -/
def State.probeUser (s : State) (p : Port) : Option LaneUser :=
  if (s.port p).cls = .probe then
    match (s.port p).probe with
    | some pr => (match pr.step with
      | .complete => none
      | .ident => some (.probe .ident)
      | .slotA => some (.probe .slotA)
      | .slotB => some (.probe .slotB))
    | none => none
  else none

/-- The commit's map write for port `p`, asked and not yet started (R118, R148, R150). -/
def State.mapWriteUser (s : State) (p : Port) : Option LaneUser :=
  match s.mapStore.commit with
  | none => none
  | some c =>
    if s.writingPhase then (c.targets.find? (fun x => x.port = p)).bind (fun x => x.ask.map LaneUser.mapWrite) else none

/-- The oldest admitted fetch in PORT_WAIT on `p`, URGENT or not (R62, R119). A port that is not POOLED serves none. -/
def State.fetchUser (s : State) (p : Port) (urgent : Bool) : Option LaneUser :=
  if (s.port p).cls = .pooled then
    (s.table.admissionOrder.find? (fun t => s.waitsOn p t && decide (s.isUrgent t = urgent))).map LaneUser.fetch
  else none

/-- The drain candidate, read only while neither PARKING nor PARKED (R118). -/
def State.openDrain (s : State) (p : Port) : Option SlotNo := if s.drainsOpen then s.drainCandidate p else none

/-- The THROUGH candidate, read only while neither PARKING nor PARKED (R118). -/
def State.openThrough (s : State) (p : Port) : Option SlotNo := if s.drainsOpen then s.throughCandidate p else none

/-- Classes 6 and 7: the ordinary fetch before the drain, unless the fairness count has reached DRAIN_FAIRNESS
(R119, R120). -/
def State.lastClasses (s : State) (p : Port) : Option LaneUser :=
  let drain := (s.openDrain p).map LaneUser.drain
  let fetch := s.fetchUser p false
  if s.params.drainFairness ≤ (s.port p).fairness then drain.or fetch else fetch.or drain

/-- The user the arbiter of port `p` takes: the first class in the order of R119 that has one. -/
def State.chooseUser (s : State) (p : Port) : Option LaneUser :=
  (s.probeUser p).or <| (s.mapWriteUser p).or <| (s.fetchUser p true).or <|
    ((s.openThrough p).map LaneUser.drain).or <|
      (if s.staging.pressure then (s.openDrain p).map LaneUser.drain else none).or (s.lastClasses p)

/-- The fairness count after a choice (R120). -/
def State.fairnessAfter (s : State) (p : Port) : LaneUser → Nat
  | .drain _ => 0
  | .fetch t =>
    if s.isUrgent t then (s.port p).fairness
    else if (s.openDrain p).isSome then min ((s.port p).fairness + 1) 8 else 0
  | .probe _ => (s.port p).fairness
  | .mapWrite _ => (s.port p).fairness

/-! ## The start of each user's operation -/

/-- A drain starts: the slot leaves the drain-order list, turns DRAINING, and its block goes to the lane (R79). -/
def startDrain (p : Port) (i : SlotNo) (s : State) : State :=
  match s.slot i with
  | .dirty x m d =>
    match s.translate x with
    | some pl =>
      startOp p (.pgblk pl.pbn (storedBlock pl.pbn d)) (.drain i)
        ((s.setStaging i (.draining x m d)).setDrainOrder (setRemove i s.staging.drainOrder))
    | none => s
  | .free => s
  | .filling .. => s
  | .draining .. => s
  | .stranded .. => s

/-- A fetch in PORT_WAIT enters IN_FLIGHT (R58, R62). -/
def startFetchOp (p : Port) (t : Tag) (s : State) : State :=
  match s.fetchRecord t with
  | none => s
  | some f =>
    match f.fetch with
    | none => s
    | some x =>
      match x.stage with
      | .portWait q pbn =>
        startOp p (.rdblk pbn) (.fetch ⟨t, f.admission⟩ x.lbn) (setFetch t (some { x with stage := .inFlight q pbn }) s)
      | .drainWait => s
      | .inFlight _ _ => s

/-- The map write asked by target `p` starts: the record of the new generation with the draft's pool id and extents
(R148, R150). -/
def startMapWrite (p : Port) (w : MapWrite) (s : State) : State :=
  match s.mapStore.commit with
  | none => s
  | some c =>
    let targets := c.targets.map (fun x => if x.port = p then { x with ask := none } else x)
    let draft := s.mapStore.draft
    startOp p (.pgblk w.pbn (storedBlock w.pbn (recordBytes w.state c.generation draft.pool draft)))
      (.mapWrite w c.generation draft.pool true) (s.setCommit (some { c with targets := targets }))

/-- The operation of the chosen user starts (R118). -/
def startUser (p : Port) (u : LaneUser) (s : State) : State :=
  match u with
  | .probe .ident => startOp p .ident .probe s
  | .probe .slotA => startOp p (.rdblk 0) .probe s
  | .probe .slotB => startOp p (.rdblk 1) .probe s
  | .probe .complete => s
  | .mapWrite w => startMapWrite p w s
  | .fetch t => startFetchOp p t s
  | .drain i => startDrain p i s

/-- The arbiter's choice on port `p`: one user is granted the lane when the engine is IDLE, and a WAKE is started
when it is ASLEEP (R115, R118, R119). -/
def arbitrate (p : Port) (s : State) : State :=
  match s.chooseUser p with
  | none => s
  | some u =>
    if (s.port p).op.isSome then s
    else
      match (s.port p).engine with
      | .idle => startUser p u (s.setPort p { s.port p with fairness := s.fairnessAfter p u })
      | .asleep => startOp p .wake .power s
      | .busy => s
      | .waking => s

/-! ## SLEEP (R114, R164) -/

/-- Power Control asks SLEEP of port `p`, and the sleep mark follows the port's answer (R114, R164). -/
def askSleep (p : Port) (s : State) : State :=
  if (s.port p).engine = .asleep then s.setMark p .clear
  else if (s.port p).engine = .idle ∧ (s.port p).op.isNone ∧ (s.port p).cls.targetable then
    (startOp p .sleep .power s).setMark p .pending
  else s.setMark p .declined

/-- The port's engine is IDLE with no operation in flight. -/
def State.laneIdle (s : State) (p : Port) : Bool :=
  decide ((s.port p).engine = .idle) && (s.port p).op.isNone

/-- In LOW_POWER and PARKED, a port left idle with no user and a CLEAR mark is asked for SLEEP (R164). -/
def restPort (p : Port) (s : State) : State :=
  if s.resting && s.laneIdle p && (s.chooseUser p).isNone && decide (s.mark p = .clear) then askSleep p s else s

/-- The same, for every port in ascending number. -/
def restPorts (s : State) : State := allPorts.foldl (fun acc p => restPort p acc) s

/-- Asks SLEEP of each port whose engine is IDLE, marks cleared first (R163, R167). -/
def sleepAll (s : State) : State :=
  allPorts.foldl (fun acc p => if acc.laneIdle p then askSleep p acc else acc) s.clearMarks

/-- The end of an event that may leave a port idle or change an idle condition: ports left idle rest (R164), and
the idle timer is evaluated (R161). -/
def settle (s : State) : State := evalIdle (restPorts s)

/-- The end of an event that may change the number of non-FREE staging slots: pressure first (R88). -/
def settleStaging (s : State) : State := settle (evalPressure s)

/-- Park is left: the power state becomes ACTIVE and every sleep mark CLEAR (R169, steps 1 and 2). -/
def leavePark (s : State) : State := (s.setPower .active).clearMarks

end Sys2Proof.Machine
end

