-- ==== Sys2Proof/Machine/Commit.lean ====
section
/-! DEFINITION. Classification, the commit and start-up: records, targets, the two write passes, the commit point, the
end of a commit, and the selection of the map to load (R102, R104, R105, R139 to R159). -/

namespace Sys2Proof.Machine

/-! ## Findings and classification (R102, R104) -/

/-- The finding of a copy slot from the data of a good read (R102, R223). -/
def findingOf (data : List Byte) : Finding :=
  let state := data.getD 5 0
  let generation : Word32 := BitVec.ofNat 32 (leVal ((data.drop 8).take 4))
  if leVal (data.take 4) = Config.recordMark ∧ data.getD 4 0 = 1 ∧
      crc32 (data.take 252) = BitVec.ofNat 32 (leVal ((data.drop 252).take 4)) ∧
      (state = 1 ∨ state = 2) ∧ generation ≠ 0 then
    match extentsOfRecord 8 (data.drop 16) with
    | none => .nothing
    | some es =>
      if structuralOk (es.filter (·.enabled)) then
        .found (if state = 2 then .final else .tentative)
          ⟨BitVec.ofNat 32 (leVal ((data.drop 12).take 4)), generation, extentVector es⟩
      else .nothing
  else .nothing

/-- The map of a FINAL finding (R102). -/
def Finding.final? : Finding → Option Map
  | .found .final m => some m
  | .found .tentative _ => none
  | .nothing => none

/-- The newest FINAL record of a member: the higher generation of two (R102); of two equal ones a free value
chooses (log entry 9). -/
def Probe.newest (pr : Probe) : Option Map :=
  match pr.findingA.final?, pr.findingB.final? with
  | some a, some b =>
    if a.generation < b.generation then some b
    else if b.generation < a.generation then some a
    else if Config.equalFinalTakesB a.pool b.pool a.generation then some b else some a
  | some a, none => some a
  | none, b => b

/-- The table of R104: the class a newest FINAL record gives against the active map. -/
def classFor (active : Map) : Option (Word32 × Word32) → PortClass
  | none => .blank
  | some (generation, pool) =>
    if pool ≠ active.pool then .foreign
    else if generation = active.generation then .pooled
    else if generation < active.generation then .stale
    else .foreign

/-- Port `p`, whose probe is complete, is classified against the active map (R104). -/
def classify (p : Port) (s : State) : State :=
  match (s.port p).probe with
  | none => s
  | some pr =>
    let newest := pr.newest.map (fun m => (m.generation, m.pool))
    let c := classFor s.mapStore.active newest
    let s1 := s.setPort p { s.port p with probe := none, member := some ⟨pr.capacity, pr.identity, newest⟩ }
    endOfProbeCheck p (raisePort .portAttached p (.portClass c) (setClass p c s1))

/-- Every port that holds findings is classified, in ascending port number (R154, R159). -/
def classifyHeld (s : State) : State :=
  allPorts.foldl (fun acc p => if acc.holdsFindings p then classify p acc else acc) s

/-! ## The commit record -/

/-- The copy slot a generation is written to: A, PBN 0, when odd; B, PBN 1, when even (R140). -/
def copySlot (generation : Word32) : Nat := if generation.getLsbD 0 then 0 else 1

/-- The port is in the target set. -/
def Commit.isTarget (c : Commit) (p : Port) : Bool := c.targets.any (fun x => x.port = p)

/-- Replaces one target's record. -/
def Commit.setTarget (c : Commit) (t : Target) : Commit :=
  { c with targets := c.targets.map (fun x => if x.port = t.port then t else x) }

/-- A map write of a target still in the set is in flight on port `p`. -/
def State.liveWrite (s : State) (p : Port) : Bool :=
  match (s.port p).op with
  | some o => (match o.user with | .mapWrite _ _ _ live => live | .probe => false | .fetch _ _ => false | .drain _ => false | .power => false)
  | none => false

/-- The result of a map write in flight on port `p` reaches no target any more (R147, step 2; R149). -/
def orphanWrite (p : Port) (s : State) : State :=
  match (s.port p).op with
  | some o =>
    (match o.user with
    | .mapWrite w g pool _ => s.setPort p { s.port p with op := some { o with user := .mapWrite w g pool false } }
    | .probe => s
    | .fetch _ _ => s
    | .drain _ => s
    | .power => s)
  | none => s

/-- The end of a commit (R154). -/
def endCommit (result : CommitResult) (s : State) : State :=
  match s.mapStore.commit with
  | none => s
  | some c =>
    let s1 := (allPorts.foldl (fun acc p => orphanWrite p acc) s).setCommit none
    let s2 := classifyHeld s1
    raiseSingle .commitDone (.commit result s2.mapStore.active.generation c.written c.failed) s2

/-- FINAL: when no rewrite is asked or in flight, the lowest-numbered TENTATIVE_WRITTEN target is asked next, and
with none left the commit ends (R150, R153). -/
def finalNext (s : State) : State :=
  match s.mapStore.commit with
  | none => s
  | some c =>
    if c.targets.any (fun x => x.ask.isSome || s.liveWrite x.port) then s
    else
      match c.targets.find? (fun x => x.stage = .tentativeWritten) with
      | some x =>
        s.setCommit (some (c.setTarget { x with ask := some ⟨.final, copySlot c.generation⟩ }))
      | none => endCommit (if c.pointReached then .done else .failedWrite) s

/-- TENTATIVE: when every target of a set that is not empty is TENTATIVE_WRITTEN, the phase becomes FINAL (R148). -/
def tentativeTest (s : State) : State :=
  match s.mapStore.commit with
  | none => s
  | some c =>
    if !c.targets.isEmpty && c.targets.all (fun x => x.stage = .tentativeWritten) then
      finalNext (s.setCommit (some { c with phase := .final }))
    else s

/-- A target is dropped from the target set (R147). `failed` says the port went FAILED; `byWrite` that the drop
comes from a failed map write, whose own rule goes on from there. -/
def dropTarget (p : Port) (failed byWrite : Bool) (s : State) : State :=
  match s.mapStore.commit with
  | none => s
  | some c =>
    if c.isTarget p then
      let rest := c.targets.filter (fun x => x.port ≠ p)
      let s1 := orphanWrite p
        (s.setCommit (some { c with targets := rest, failed := if failed then setInsert p c.failed else c.failed }))
      if byWrite then s1
      else if !c.pointReached && rest.isEmpty then endCommit .failedNoTarget s1
      else
        match c.phase with
        | .quiesce _ => s1
        | .tentative => tentativeTest s1
        | .final => finalNext s1
    else s

/-! ## Acceptance and quiesce (R144, R145, R148) -/

/-- The ports a commit takes as targets (R20, R144). -/
def State.targetPorts (s : State) : List Port := allPorts.filter (fun p => (s.port p).cls.targetable)

/-- The writes a target owes: 2 where its newest record is at or above the new generation (R144, step 3). -/
def State.writesOwed (s : State) (generation : Word32) (p : Port) : Nat :=
  match (s.port p).member.bind (·.newest) with
  | some (g, _) => if generation ≤ g then 2 else 1
  | none => 1

/-- The commit record of an accepted MAP-COMMIT (R144, steps 1 to 4). -/
def State.newCommit (s : State) : Commit :=
  let generation := s.mapStore.active.generation + 1
  { phase := .quiesce (s.ahead Config.quiesceMs), generation := generation
    targets := s.targetPorts.map (fun p => ⟨p, .awaitingTentative, s.writesOwed generation p, none⟩)
    pointReached := false, written := [], failed := [] }

/-- A quiesce evaluation (R145): an evaluation in QUIESCE that finds the condition holding enters TENTATIVE and asks
every target's first map write (R148). -/
def evalQuiesce (s : State) : State :=
  match s.mapStore.commit with
  | none => s
  | some c =>
    match c.phase with
    | .quiesce _ =>
      if s.quiesceCondition then
        s.setCommit (some { c with
          phase := .tentative
          targets := c.targets.map (fun x => { x with ask := some ⟨.tentative, copySlot c.generation⟩ }) })
      else s
    | .tentative => s
    | .final => s

/-! ## The success of a map write (R148, R151, R152) -/

/-- A TENTATIVE map write of target `p` succeeded (R148). -/
def tentativeWritten (p : Port) (s : State) : State :=
  match s.mapStore.commit with
  | none => s
  | some c =>
    match c.targets.find? (fun x => x.port = p) with
    | none => s
    | some x =>
      let owed := x.owed - 1
      let next : Target :=
        if 0 < owed then { x with owed := owed, ask := some ⟨.tentative, 1 - copySlot c.generation⟩ }
        else { x with owed := 0, stage := .tentativeWritten }
      tentativeTest (s.setCommit (some (c.setTarget next)))

/-- A classified port that is no target is classified again at the commit point (R105, R151, step 4). -/
def reclassify (p : Port) (s : State) : State :=
  match s.mapStore.commit with
  | none => s
  | some c =>
    if c.isTarget p || !(s.port p).cls.targetable then s
    else
      let k := classFor s.mapStore.active ((s.port p).member.bind (·.newest))
      if (s.port p).cls = k then s else raisePort .portAttached p (.portClass k) (setClass p k s)

/-- The commit point (R151). -/
def commitPoint (s : State) : State :=
  match s.mapStore.commit with
  | none => s
  | some c =>
    let map : Map := { s.mapStore.draft with generation := c.generation }
    let s1 := s.setMaps { s.mapStore with active := map, draft := map, commit := some { c with pointReached := true } }
    allPorts.foldl (fun acc p => reclassify p acc) s1

/-- The member record of port `p` takes the record written FINAL (R105). -/
def recordFinal (p : Port) (generation pool : Word32) (s : State) : State :=
  match (s.port p).member with
  | some m => s.setPort p { s.port p with member := some { m with newest := some (generation, pool) } }
  | none => s

/-- Adoption: a target whose FINAL map write succeeded is POOLED (R152). -/
def adopt (p : Port) (s : State) : State :=
  if (s.port p).cls = .pooled then s
  else raisePort .portAttached p (.portClass .pooled) (setClass p .pooled s)

/-- A FINAL map write of target `p` succeeded: the commit point if it is the first, then adoption (R150 to R152). -/
def finalWritten (p : Port) (s : State) : State :=
  match s.mapStore.commit with
  | none => s
  | some c =>
    let s1 := adopt p (if c.pointReached then s else commitPoint s)
    match s1.mapStore.commit with
    | none => s1
    | some d =>
      match d.targets.find? (fun x => x.port = p) with
      | none => s1
      | some x =>
        finalNext (s1.setCommit (some
          ({ d with written := setInsert p d.written }.setTarget { x with stage := .finalWritten })))

/-- The success of a map write: the member record first (R105), then its target, if it still has one. -/
def mapWriteDone (p : Port) (w : MapWrite) (generation pool : Word32) (live : Bool) (s : State) : State :=
  match w.state with
  | .tentative => if live then tentativeWritten p s else s
  | .final =>
    let s1 := recordFinal p generation pool s
    if live then finalWritten p s1 else s1

/-! ## Start-up (R157 to R159) -/

/-- The newest FINAL record of a port that holds findings (R158). -/
def State.heldRecord (s : State) (p : Port) : Option Map :=
  if s.holdsFindings p then (s.port p).probe.bind (·.newest) else none

/-- The record start-up selects: the highest generation, from the lowest-numbered port that carries it (R158). -/
def State.selected (s : State) : Option Map :=
  allPorts.foldl (fun best p =>
    match best, s.heldRecord p with
    | none, m => m
    | some b, some m => if b.generation < m.generation then some m else some b
    | some b, none => some b) none

/-- The end of start-up (R159). -/
def endStartup (s : State) : State :=
  let map := s.selected.getD Map.empty
  let s1 := classifyHeld (s.setMaps { s.mapStore with active := map, draft := map })
  let s2 := s1.setMaps { s1.mapStore with ready := true }
  raiseSingle .startDone (.number s2.mapStore.active.generation) s2

end Sys2Proof.Machine
end

