-- ==== Sys2Proof/Machine/Operands.lean ====
section
/-! DEFINITION. Operands: the fields of each message payload, with the MALFORMED test of its kind (R26, R55, R224,
R225), and what the member's answers make of a lane operation (R109 to R115). -/

namespace Sys2Proof.Machine

/-! ## Message fields (R225) -/

/-- The fields of a READ, WRITE or VERIFY. -/
structure RangeFields where
  tag : Tag
  urgent : Bool
  through : Bool
  first : Nat
  count : Nat
  deriving DecidableEq, Repr

/-- The fields of a READ, WRITE or VERIFY; none is MALFORMED: a wrong length, a tag above 15, or a flags byte with a
bit other than URGENT and THROUGH (R26, R224). -/
def rangeFields : List Byte → Option RangeFields
  | [t, f, a, b, c, n] =>
    match tagOfByte t with
    | none => none
    | some tag =>
      if f.toNat < 4 then some ⟨tag, f.getLsbD 0, f.getLsbD 1, leVal [a, b, c], n.toNat⟩ else none
  | _ => none

/-- The tag of a FLUSH; none is MALFORMED (R26). -/
def flushFields : List Byte → Option Tag
  | [t] => tagOfByte t
  | _ => none

/-- The fields of a WRITE-DATA. -/
structure DataFields where
  tag : Tag
  index : Nat
  data : List Byte
  deriving DecidableEq, Repr

/-- The fields of a WRITE-DATA; none is MALFORMED: a wrong length, a tag above 15 or an index above 63 (R55). -/
def dataFields (body : List Byte) : Option DataFields :=
  match body with
  | t :: i :: data =>
    match tagOfByte t with
    | none => none
    | some tag => if data.length = Config.blockBytes ∧ i.toNat < 64 then some ⟨tag, i.toNat, data⟩ else none
  | _ => none

/-- A payload of four bytes that spell one number (MAP-EDIT-POOL, SET-CEILING). -/
def field4 : List Byte → Option Nat
  | [a, b, c, d] => some (leVal [a, b, c, d])
  | _ => none

/-- The fields of a SET-PARAMETER: identifier and value. -/
def parameterFields : List Byte → Option (Nat × Nat)
  | [i, a, b] => some (i.toNat, leVal [a, b])
  | _ => none

/-- A payload of one byte after the kind (GET-PARAMETER, MAP-READ, PORT-RESET). -/
def byteField : List Byte → Option Byte
  | [b] => some b
  | _ => none

/-- The selector and LBN of a STRANDED-RETRY or STRANDED-DISCARD; true is ONE. None is MALFORMED (R90, R91). -/
def strandedFields : List Byte → Option (Bool × Nat)
  | [sel, a, b, c, d] =>
    if sel = 0 then some (false, leVal [a, b, c, d])
    else if sel = 1 then some (true, leVal [a, b, c, d])
    else none
  | _ => none

/-- The selector, kind and port bytes of a NOTICE-CLEAR; true is ONE. None is MALFORMED (R180). -/
def clearFields : List Byte → Option (Bool × Byte × Byte)
  | [sel, k, p] => if sel = 0 then some (false, k, p) else if sel = 1 then some (true, k, p) else none
  | _ => none

/-- The page and the clear flag of a GET-LOG; none is MALFORMED (R194). -/
def logFields : List Byte → Option (Byte × Bool)
  | [page, c] => if c = 0 then some (page, false) else if c = 1 then some (page, true) else none
  | _ => none

/-- The index and extent of a MAP-EDIT, after its field checks (R17): `none` is MALFORMED, `some none` is
BAD_PARAMETER. -/
def editFields (body : List Byte) : Option (Option (Fin 8 × Extent)) :=
  match body with
  | i :: form =>
    if form.length = 16 then
      if h : i.toNat < 8 then
        match accessOfByte (form.getD 1 0), portOfByte (form.getD 2 0) with
        | some a, some p =>
          if form.getD 0 0 = 0 ∨ form.getD 0 0 = 1 then
            some (some (⟨i.toNat, h⟩,
              ⟨decide (form.getD 0 0 = 1), a, p, field24 (form.drop 4), field24 (form.drop 7), field24 (form.drop 10)⟩))
          else some none
        | _, _ => some none
      else some none
    else none
  | [] => none

/-! ## Lane answers (R109 to R115)

Each scan answers the outcome and the number of commands sent, or none where the answers do not end the operation
at exactly the last of them. -/

/-- The end of a scan: the answers must stop here. -/
def endScan {α β : Type} (rest : List α) (outcome : β) (sent : Nat) : Option (β × Nat) :=
  if rest.isEmpty then some (outcome, sent) else none

/-- A SLEEP or the command of a WAKE (R114, R115). -/
def scanCommand : Nat → Nat → List CommandAnswer → Option (Except OpFailure Unit × Nat)
  | _, _, [] => none
  | noAcks, sent, .noAck :: rest =>
    if noAcks + 1 = Config.attemptBudget then endScan rest (.error .noResponse) (sent + 1)
    else scanCommand (noAcks + 1) (sent + 1) rest
  | _, sent, .ack :: rest => endScan rest (.ok ()) (sent + 1)

/-- An IDENT (R111). -/
def scanIdent : Nat → Nat → List IdentAnswer → Option (Except OpFailure (Nat × Word32) × Nat)
  | _, _, [] => none
  | noAcks, sent, .noAck :: rest =>
    if noAcks + 1 = Config.attemptBudget then endScan rest (.error .noResponse) (sent + 1)
    else scanIdent (noAcks + 1) (sent + 1) rest
  | _, sent, .ack c i :: rest => endScan rest (.ok (c, i)) (sent + 1)

/-- The condition of a member block when read (R110): `some none` is erased, `some (some data)` good, `none` bad. -/
def blockReading (pbn : Nat) (bytes : List Byte) : Option (Option (List Byte)) :=
  if bytes = List.replicate 258 0xFF then some none
  else if bytes.length = 258 ∧ bytes = storedBlock pbn (bytes.take 256) then some (some (bytes.take 256))
  else none

/-- An RDBLK of `pbn` (R109, R112): the data of a good read, or none of an erased one. -/
def scanRead (pbn : Nat) : Nat → Nat → Nat → List ReadAnswer → Option (Except OpFailure (Option (List Byte)) × Nat)
  | _, _, _, [] => none
  | noAcks, bad, sent, .noAck :: rest =>
    if noAcks + 1 = Config.attemptBudget then endScan rest (.error .noResponse) (sent + 1)
    else scanRead pbn (noAcks + 1) bad (sent + 1) rest
  | noAcks, bad, sent, .stored bytes :: rest =>
    match blockReading pbn bytes with
    | some reading => endScan rest (.ok reading) (sent + 1)
    | none =>
      if bad + 1 = Config.attemptBudget then endScan rest (.error .checkFail) (sent + 1)
      else scanRead pbn noAcks (bad + 1) (sent + 1) rest

/-- A PGBLK: the start until it is acknowledged, then the polls (R113). -/
def scanProgram : Bool → Nat → Nat → List ProgramAnswer → Option (Except OpFailure Unit × Nat)
  | _, _, _, [] => none
  | started, noAcks, sent, .noAck :: rest =>
    if noAcks + 1 = Config.attemptBudget then endScan rest (.error .noResponse) (sent + 1)
    else scanProgram started (noAcks + 1) (sent + 1) rest
  | started, noAcks, sent, .startAck :: rest =>
    if started then none else scanProgram true noAcks (sent + 1) rest
  | started, noAcks, sent, .inProgress :: rest =>
    if started then scanProgram started noAcks (sent + 1) rest else none
  | started, _, sent, .ready :: rest => if started then endScan rest (.ok ()) (sent + 1) else none
  | started, _, sent, .failed :: rest =>
    if started then endScan rest (.error .programFailed) (sent + 1) else none

end Sys2Proof.Machine
end

