-- ==== Sys2Proof/Machine/Ports.lean ====
section
/-! DEFINITION. The Port Controllers: the end of each lane operation, the consecutive-failure count, the probe, and the
class changes EMPTY, PROBE, FAILED and DEBOUNCE (R97 to R124). -/

namespace Sys2Proof.Machine

/-! ## The record of an operation's end -/

/-- The statistics an operation's end adds to, beside its lane retries (R124). -/
inductive StatEvent where
  | noStat | blockRead | blockProgrammed | timeout | checkFailure | programFailure
  deriving DecidableEq, Repr

/-- The statistics after an operation that sent `attempts` commands (R109, R124). -/
def PortStats.after (x : PortStats) (e : StatEvent) (attempts : Nat) : PortStats :=
  let y := { x with laneRetries := satAdd x.laneRetries (attempts - 1) }
  match e with
  | .noStat => y
  | .blockRead => { y with blocksRead := satInc y.blocksRead }
  | .blockProgrammed => { y with blocksProgrammed := satInc y.blocksProgrammed }
  | .timeout => { y with opTimeouts := satInc y.opTimeouts }
  | .checkFailure => { y with checkFailures := satInc y.checkFailures }
  | .programFailure => { y with programFailures := satInc y.programFailures }

/-- The statistic a failure adds to (R124). -/
def OpFailure.stat : OpFailure → StatEvent
  | .noResponse => .noStat
  | .checkFail => .checkFailure
  | .programFailed => .programFailure
  | .opTimeout => .timeout
  | .memberLost => .noStat

/-- The operation in flight on port `p` ends: the engine goes to `engine`, the statistics are counted, and a
DECLINED sleep mark returns to CLEAR where the operation is no SLEEP (R108, R124, R164). -/
def closeOp (p : Port) (kind : OpKind) (engine : Engine) (e : StatEvent) (attempts : Nat) (s : State) : State :=
  let x := s.port p
  let s1 := s.setPort p { x with engine := engine, op := none, stats := x.stats.after e attempts }
  if kind ≠ .sleep ∧ s.mark p = .declined then s1.setMark p .clear else s1

/-- The consecutive-failure count of port `p` (R116). -/
def setFailures (p : Port) (n : Nat) (s : State) : State := s.setPort p { s.port p with failures := n }

/-- The PBN of an operation that has one. -/
def OpKind.pbn? : OpKind → Option Nat
  | .rdblk n => some n
  | .pgblk n _ => some n
  | .ident => none
  | .sleep => none
  | .wake => none

/-- The LBN of a slot that holds one. -/
def State.slotLbn (s : State) (i : SlotNo) : Option Nat := (s.slot i).lbn?

/-- The history entry of a failed operation, from its user (R117, R189). -/
def State.portEntry (s : State) (p : Port) (op : Operation) (cause : HistoryCause) (attempts : Nat) : EntryInfo :=
  let context : Option Tag × Option Nat := match op.user with
    | .fetch w x => (some w.tag, some x)
    | .drain i => (none, s.slotLbn i)
    | .mapWrite _ _ _ _ => (none, none)
    | .probe => (none, none)
    | .power => (none, none)
  { cause := cause, source := .port, tag := context.1, lbn := context.2, port := some p, pbn := op.kind.pbn?
    attempts := attempts }

/-! ## An operation ended by a port event (R122) -/

/-- The most commands an operation can have sent while it has not ended, from the budgets and the limit of R109:
three starts, five reads, or three starts and a poll each 100 µs for 15 ms. -/
def OpKind.mostAttempts : OpKind → Nat
  | .ident => 3
  | .rdblk _ => 5
  | .pgblk _ _ => 153
  | .sleep => 3
  | .wake => 3

/-- The commands an operation has sent so far, a free value within those bounds (log entry 8); a suspended operation
has its number fixed. -/
def attemptsSoFar (op : Operation) (s : State) : Nat :=
  if op.suspended then op.attempts
  else op.attempts + Config.attemptsBeyondFirst s.freeDraws % op.kind.mostAttempts

/-- The operation in flight on port `p` ends MEMBER_LOST and its outcome is handed to its user (R122). The engine is
left to the port event. The answer's second part is the drained slot when it was stranded. -/
def loseOp (p : Port) (s : State) : State × List SlotNo :=
  match (s.port p).op with
  | none => (s, [])
  | some op =>
    let attempts := attemptsSoFar op s
    let s1 := closeOp p op.kind (s.port p).engine .noStat attempts s.drawn
    let entry := s.portEntry p op .memberLost attempts
    match op.user with
    | .probe => (s1, [])
    | .power => (if op.kind = .sleep then s1.setMark p .clear else s1, [])
    | .fetch w _ => (fetchResult w (.error .memberLost) (addEntry entry s1), [])
    | .drain i => drainFailure i .memberLost (addEntry entry s1)
    | .mapWrite _ _ _ _ => (addEntry entry s1, [])

/-! ## Class changes -/

/-- Port `p` goes FAILED (R106). `stranded` are the slots that the failed operation's end stranded: with the outcome
they reach their users before the fetches that wait for the port fail, and the DIRTY slots of the port follow at its
step 5 (R116, R134, log entry 16). `byWrite` says that a failed map write of a live target is the cause. -/
def portFailed (p : Port) (cause : HistoryCause) (stranded : List SlotNo) (byWrite : Bool) (s : State) : State :=
  let wasPooled := decide ((s.port p).cls = .pooled)
  let lost := loseOp p s
  let handed := stranded ++ lost.2
  let s1 := setClass p .failed (handOnWalk handed lost.1)
  let s2 := s1.setPort p { s1.port p with engine := .idle, probe := none, debounce := none }
  let s3 := if wasPooled then failWaitingAll p s2 else s2
  let s4 := dropTarget p true byWrite s3
  let slots := s4.dirtyOn p
  let s5 := noteStranded (handed ++ slots) (handOnWalk slots (strandAll slots s4))
  raisePort .portFailed p (.cause cause) s5

/-- Port `p` reaches EMPTY (R100). `noted` is the class it held if it had been classified; `handed` are slots
stranded and handed on earlier in the event, still to be noted. The slot that the end of its operation strands and
the DIRTY slots of the port are handed on in one ascending walk (R82, R84). -/
def portEmpty (p : Port) (noted : Option PortClass) (handed : List SlotNo) (s : State) : State :=
  let lost := loseOp p s
  let s1 := setClass p .empty lost.1
  let s2 := s1.setPort p { s1.port p with
    engine := .idle, member := none, probe := none, debounce := none, failures := 0, fairness := 0 }
  let slots := s2.dirtyOn p
  let s3 := noteStranded (handed ++ lost.2 ++ slots) (handOnWalk (lost.2 ++ slots) (strandAll slots s2))
  match noted with
  | some c => raisePort .portDetached p (.portClass c) s3
  | none => s3

/-- A new probe record, at its first step (R101). -/
def Probe.start : Probe := ⟨.ident, 0, 0, .nothing, .nothing, 0⟩

/-- The engine a port event leaves at entry to PROBE: ASLEEP where it ended a SLEEP or a WAKE, IDLE where it ended
any other operation, and as it was with none in flight (R101). -/
def probeEngine (x : PortRecord) : Engine :=
  match x.op with
  | none => x.engine
  | some op =>
    match op.kind with
    | .sleep => .asleep
    | .wake => .asleep
    | .ident => .idle
    | .rdblk _ => .idle
    | .pgblk _ _ => .idle

/-- Port `p` enters PROBE (R101). `handed` are slots stranded and handed on earlier in the event, still to be
noted. -/
def portProbe (p : Port) (engine : Engine) (handed : List SlotNo) (s : State) : State :=
  let lost := loseOp p s
  let s1 := setClass p .probe lost.1
  noteStranded (handed ++ lost.2) (handOnWalk lost.2 (s1.setPort p { s1.port p with
    engine := engine, member := none, probe := some Probe.start, debounce := none, failures := 0, fairness := 0 }))

/-- Port `p` leaves PROBE or a classified state for DEBOUNCE on a change to `level` (R99), or leaves EMPTY for it. -/
def enterDebounce (p : Port) (level : Bool) (s : State) : State :=
  let x := s.port p
  let wasPooled := decide (x.cls = .pooled)
  let op := x.op.map (fun o => { o with attempts := attemptsSoFar o s, suspended := true })
  let record : Debounce := ⟨level, s.ahead Config.debounceMs, if x.cls.classified then some x.cls else none⟩
  let s0 := if x.op.isSome then s.drawn else s
  let s1 := setClass p .debounce s0
  let s2 := s1.setPort p { s1.port p with op := op, debounce := some record, probe := none }
  let s3 := if wasPooled then failWaitingAll p s2 else s2
  dropTarget p false false s3

/-! ## The consecutive-failure count (R116) -/

/-- An operation that succeeded sets the count to 0. -/
def countSuccess (p : Port) (s : State) : State := setFailures p 0 s

/-- An operation that failed adds 1 to the count, once its outcome has been handed to its user; a count of 3 takes
the port to FAILED. `stranded` are the slots its failure stranded, still to be handed on. -/
def countFailure (p : Port) (e : OpFailure) (stranded : List SlotNo) (s : State) : State :=
  let n := min ((s.port p).failures + 1) Config.failureLimit
  let s1 := setFailures p n s
  if n = Config.failureLimit then portFailed p e.cause stranded false s1 else handOn stranded s1

/-! ## The probe (R101 to R104) -/

/-- A probe fails (R103). -/
def probeFailed (p : Port) (pbn : Option Nat) (attempts : Nat) (s : State) : State :=
  let s1 := addEntry
    { cause := .probeFailed, source := .port, tag := none, lbn := none, port := some p, pbn := pbn, attempts := attempts } s
  portFailed p .probeFailed [] false (s1.setPort p { s1.port p with probe := none, member := none })

/-- Writes the probe record of port `p`. -/
def setProbe (p : Port) (pr : Probe) (s : State) : State := s.setPort p { s.port p with probe := some pr }

/-- The probe of port `p` is complete: it is classified at once, but during start-up and in TENTATIVE and FINAL its
findings are held (R104). -/
def probeComplete (p : Port) (s : State) : State :=
  if s.mapStore.ready && !s.writingPhase then classify p s else s

/-- The finding of a copy slot read: its record, or NONE for an erased or bad slot (R101, R102). -/
def slotFinding : Except OpFailure (Option (List Byte)) → Finding
  | .ok (some data) => findingOf data
  | .ok none => .nothing
  | .error _ => .nothing

/-- An IDENT of the probe ended (R101, R103). -/
def probeIdent (p : Port) (outcome : Except OpFailure (Nat × Word32)) (attempts : Nat) (s : State) : State :=
  match outcome, (s.port p).probe with
  | .ok (capacity, identity), some pr =>
    if Config.minCapacity ≤ capacity ∧ capacity ≤ Config.maxCapacity then
      setProbe p { pr with step := .slotA, capacity := capacity, identity := identity } s
    else probeFailed p none attempts s
  | .error _, some _ => probeFailed p none attempts s
  | _, none => s

/-- A copy slot read of the probe ended (R101, R102, R103). -/
def probeRead (p : Port) (pbn : Nat) (outcome : Except OpFailure (Option (List Byte))) (attempts : Nat) (s : State) :
    State :=
  match (s.port p).probe with
  | none => s
  | some pr =>
    let failed := match outcome with
      | .error .noResponse => true
      | .error .opTimeout => true
      | .error .checkFail => false
      | .error .programFailed => false
      | .error .memberLost => false
      | .ok _ => false
    if failed then probeFailed p (some pbn) attempts s
    else
      match pr.step with
      | .slotA => setProbe p { pr with step := .slotB, findingA := slotFinding outcome } s
      | .slotB => probeComplete p (setProbe p { pr with step := .complete, findingB := slotFinding outcome } s)
      | .ident => s
      | .complete => s

/-! ## The end of each operation, for each user -/

/-- The engine an operation's end leaves (R108, R114, R115). -/
def OpKind.engineAfter (k : OpKind) (failed : Bool) : Engine :=
  match k with
  | .sleep => if failed then .idle else .asleep
  | .wake => if failed then .asleep else .idle
  | .ident => .idle
  | .rdblk _ => .idle
  | .pgblk _ _ => .idle

/-- A fetch's or a drain's operation fails: its history entry, its outcome to its user, then the count (R116, R117). -/
def fetchOpFailed (p : Port) (op : Operation) (w : Owner) (e : OpFailure) (attempts : Nat) (s : State) : State :=
  countFailure p e [] (fetchResult w (.error e) (addEntry (s.portEntry p op e.cause attempts) s))

/-- A drain's operation fails (R81, R116, R117). -/
def drainOpFailed (p : Port) (op : Operation) (i : SlotNo) (e : OpFailure) (attempts : Nat) (s : State) : State :=
  let d := drainFailure i e (addEntry (s.portEntry p op e.cause attempts) s)
  countFailure p e d.2 d.1

/-- A map write fails: MAP_WRITE_FAILED, the port FAILED, and its commit goes on or ends by R149 or R153 (R105). -/
def mapWriteFailed (p : Port) (op : Operation) (w : MapWrite) (live : Bool) (attempts : Nat) (s : State) : State :=
  let s1 := addEntry (s.portEntry p op .mapWriteFailed attempts) s
  let s2 := setFailures p (min ((s1.port p).failures + 1) Config.failureLimit) s1
  let s3 := portFailed p .mapWriteFailed [] live s2
  if live then
    match w.state with
    | .tentative => endCommit .failedWrite s3
    | .final => finalNext s3
  else s3

/-- A WAKE fails: in PROBE its third failure in a row fails the probe; elsewhere it is a failed operation. Where
users still wait, another WAKE starts at once (R103, R115, R116). -/
def wakeFailed (p : Port) (op : Operation) (e : OpFailure) (attempts : Nat) (s : State) : State :=
  let s1 := match (s.port p).probe with
    | some pr =>
      if pr.wakeFailures + 1 = Config.failureLimit then probeFailed p none attempts s
      else setProbe p { pr with wakeFailures := pr.wakeFailures + 1 } s
    | none => countFailure p e [] (addEntry (s.portEntry p op e.cause attempts) s)
  if (s1.port p).engine = .asleep then arbitrate p s1 else s1

/-- A SLEEP ended: the sleep mark follows, and a failure counts (R114, R116, R164). -/
def sleepEnded (p : Port) (op : Operation) (failure : Option OpFailure) (attempts : Nat) (s : State) : State :=
  match failure with
  | none => countSuccess p (s.setMark p .clear)
  | some e => countFailure p e [] (addEntry (s.portEntry p op e.cause attempts) (s.setMark p .declined))

/-- A WAKE succeeded (R115). -/
def wakeDone (p : Port) (s : State) : State :=
  match (s.port p).probe with
  | some pr => setProbe p { pr with wakeFailures := 0 } s
  | none => countSuccess p s

/-- The operation `op` of port `p` failed on the lane: its user and the count are told (R116, R117). -/
def opFailed (p : Port) (op : Operation) (e : OpFailure) (attempts : Nat) (s : State) : State :=
  let s1 := closeOp p op.kind (op.kind.engineAfter true) e.stat attempts s
  match op.user with
  | .probe =>
    (match op.kind with
    | .rdblk pbn => probeRead p pbn (.error e) attempts s1
    | .ident => probeIdent p (.error e) attempts s1
    | .pgblk _ _ => s1
    | .sleep => s1
    | .wake => s1)
  | .fetch w _ => fetchOpFailed p op w e attempts s1
  | .drain i => drainOpFailed p op i e attempts s1
  | .mapWrite w _ _ live => mapWriteFailed p op w live attempts s1
  | .power =>
    (match op.kind with
    | .sleep => sleepEnded p op (some e) attempts s1
    | .wake => wakeFailed p op e attempts s1
    | .ident => s1
    | .rdblk _ => s1
    | .pgblk _ _ => s1)

/-- An RDBLK ended with a reading, GOOD or ERASED (R112). -/
def readDone (p : Port) (op : Operation) (pbn : Nat) (reading : Option (List Byte)) (attempts : Nat) (s : State) : State :=
  let s1 := closeOp p op.kind .idle .blockRead attempts s
  match op.user with
  | .probe => probeRead p pbn (.ok reading) attempts s1
  | .fetch w _ => fetchResult w (.ok (reading.getD (zeros Config.blockBytes))) (countSuccess p s1)
  | .drain _ => s1
  | .mapWrite _ _ _ _ => s1
  | .power => s1

/-- A PGBLK ended with success (R113). -/
def programDone (p : Port) (op : Operation) (attempts : Nat) (s : State) : State :=
  let s1 := closeOp p op.kind .idle .blockProgrammed attempts s
  match op.user with
  | .drain i => drainSuccess i (countSuccess p s1)
  | .mapWrite w g pool live => mapWriteDone p w g pool live (countSuccess p s1)
  | .probe => s1
  | .fetch _ _ => s1
  | .power => s1

/-- The operation in flight on port `p`, unless a DEBOUNCE has suspended it (R99). -/
def State.runningOp (s : State) (p : Port) : Option Operation :=
  match (s.port p).op with
  | some op => if op.suspended then none else some op
  | none => none

end Sys2Proof.Machine
end

