-- ==== Sys2Proof/Machine/Tagged.lean ====
section
/-! DEFINITION. Answers to messages, and the Request Table's messages: READ, WRITE, VERIFY, FLUSH and FETCH-SNAPSHOT
(R9 to R12, R25 to R37, R136). -/

namespace Sys2Proof.Machine

/-! ## Answers -/

/-- What the owner of a message answers: the reply's bytes after its kind byte, what the end of the reply's
transmission brings, and the state after the event (R209). -/
structure Answer where
  fields : List Byte
  effect : ReplyEffect
  state : State
  deriving DecidableEq, Repr

/-- A reply with a status, fields and a new state. -/
def answer (st : ReplyStatus) (fields : List Byte) (s : State) : Answer := ⟨st.code :: fields, .nothing, s⟩

/-- A reply of a status alone, changing nothing: a refusal where no layout names more (log entry 12). -/
def refuse (st : ReplyStatus) (s : State) : Answer := answer st [] s

/-! ## Tagged requests: the message -/

/-- What a tagged request asks. A FLUSH has no range and no flags (R22, R26). -/
structure Ask where
  kind : ReqKind
  tag : Tag
  range : Option BlockRange
  urgent : Bool
  through : Bool
  deriving DecidableEq, Repr

/-- The request a payload carries; none is MALFORMED (R26). -/
def readAsk (k : ReqKind) (body : List Byte) : Option Ask :=
  match k with
  | .flush => (flushFields body).map (fun t => ⟨.flush, t, none, false, false⟩)
  | .read => (rangeFields body).map (fun f => ⟨.read, f.tag, some ⟨f.first, f.count⟩, f.urgent, f.through⟩)
  | .write => (rangeFields body).map (fun f => ⟨.write, f.tag, some ⟨f.first, f.count⟩, f.urgent, f.through⟩)
  | .verify => (rangeFields body).map (fun f => ⟨.verify, f.tag, some ⟨f.first, f.count⟩, f.urgent, f.through⟩)

/-! ## Admission checks (R25 to R28, R9 to R12) -/

/-- The LBNs of a range, in ascending order (R1). -/
def BlockRange.lbns (g : BlockRange) : List Nat := (List.range g.count).map (g.first + ·)

/-- The LBN lies in a READ_ONLY extent (R11). -/
def State.writeProtected (s : State) (x : Nat) : Bool :=
  match s.translate x with
  | some pl => decide (pl.access = .readOnly)
  | none => false

/-- Checks 6 to 10: the refusal and its detail (R9 to R12, R28, R226). -/
def State.rangeRefusal (s : State) (k : ReqKind) (g : BlockRange) : Option (ReplyStatus × Nat) :=
  if g.count = 0 ∨ Config.maxBlocks < g.count then some (.badCount, g.count)
  else if s.mapStore.ceiling ≤ g.first + g.count - 1 then some (.beyondCeiling, s.mapStore.ceiling)
  else
    match g.lbns.find? (fun x => (s.translate x).isNone) with
    | some x => some (.unmapped, x)
    | none =>
      match if k = .write then g.lbns.find? s.writeProtected else none with
      | some x => some (.writeProtected, x)
      | none => (g.lbns.find? (fun x => !s.available x)).map (fun x => (.memberUnavailable, x))

/-- Checks 2 to 10: the first that fails, with its detail (R25, R226). -/
def State.refusal (s : State) (a : Ask) : Option (ReplyStatus × Nat) :=
  if s.mapStore.ready = false then some (.starting, 0)
  else
    match s.table.snapshot with
    | some snap => some (.queueHalted, snap.tag.val)
    | none =>
      if s.mapStore.commit.isSome then some (.mapBusy, s.phaseCode.toNat)
      else
        match s.request a.tag with
        | some r => some (.tagInUse, r.state.code.toNat)
        | none => a.range.bind (s.rangeRefusal a.kind)

/-! ## Admission (R29 to R31, R36, R37) -/

/-- Two ranges share an LBN (R31). -/
def BlockRange.overlaps (a b : BlockRange) : Bool :=
  decide (a.first < b.first + b.count) && decide (b.first < a.first + a.count)

/-- An occupied slot holds the request asked (R31). -/
def Request.holds (r : Request) (a : Ask) : Bool :=
  match r.range, a.range with
  | some g, some h => g.overlaps h && (decide (r.kind = .write) || decide (a.kind = .write))
  | _, _ => false

/-- The hold list (R31). -/
def State.holdListOf (s : State) (a : Ask) : List Tag :=
  allTags.filter (fun t => match s.request t with | some r => r.holds a | none => false)

/-- The effective THROUGH flag (R36). -/
def State.effectiveThrough (s : State) (a : Ask) : Bool :=
  match a.kind with
  | .write => a.through || !s.params.writeBack
  | .read => a.through
  | .verify => a.through
  | .flush => false

/-- The flush set of a FLUSH admitted now (R37). -/
def State.flushSetNow (s : State) : List SlotNo :=
  allSlots.filter (fun i => (s.slot i).isFilling || (s.slot i).isDirty || (s.slot i).isDraining)

/-- The record admission puts in the slot, before the request goes ACTIVE or a FLUSH completes (R29). -/
def State.newRequest (s : State) (a : Ask) : Request :=
  { kind := a.kind, range := a.range, urgent := a.urgent, through := s.effectiveThrough a
    state := if a.kind = .flush then .settling else .held
    admission := s.table.counter
    holdList := s.holdListOf a, blocksDone := 0, status := none, failingLbn := none
    flushSet := if a.kind = .flush then s.flushSetNow else [], settleSet := [] }

/-- The slot takes the record, the counter adds 1 and the tag joins the admission order (R29, steps 1 to 6). -/
def State.enterSlot (s : State) (t : Tag) (r : Request) : State :=
  let s1 := s.setRequest t r
  { s1 with table := { s1.table with admissionOrder := s1.table.admissionOrder ++ [t], counter := s1.table.counter + 1 } }

/-- Power Control at an admission: the idle timer stops, and LOW_POWER, PARKING and PARKED end (R30, R169). -/
def wakePower (s : State) : State :=
  let s1 := s.setIdleTimer none
  if s1.power.state = .active then s1 else leavePark s1

/-- The state the slot has just taken at admission (R29, step 7). -/
def Request.admittedState (r : Request) : ReqState :=
  match r.kind with
  | .flush => if r.flushSet.isEmpty then .reporting else .settling
  | .read => if r.holdList.isEmpty then .active else .held
  | .write => if r.holdList.isEmpty then .active else .held
  | .verify => if r.holdList.isEmpty then .active else .held

/-- The request is offered: a FLUSH with nothing to wait for completes, and any other request with an empty hold
list goes ACTIVE (R29, step 6; R34, R37). -/
def offer (t : Tag) (r : Request) (s : State) : State :=
  match r.kind with
  | .flush => if r.flushSet.isEmpty then enterReporting t .good none s else s
  | .read => releaseHold t s
  | .write => releaseHold t s
  | .verify => releaseHold t s

/-- Admission (R29, R30). -/
def takeIn (a : Ask) (s : State) : State :=
  let r := s.newRequest a
  let header : Header := ⟨a.tag, a.kind, a.range, a.urgent, r.through⟩
  settleStaging (offer a.tag r (wakePower (addHeader header (s.enterSlot a.tag r))))

/-- The reply to a tagged request: tag, detail and state (R226). -/
def taggedReply (st : ReplyStatus) (tag : Byte) (detail : Nat) (state : Byte) (s : State) : Answer :=
  answer st (tag :: (le 4 detail ++ [state])) s

/-- A tagged request is admitted whole or refused whole (R25). -/
def takeTagged (k : ReqKind) (body : List Byte) (s : State) : Answer :=
  match readAsk k body with
  | none => taggedReply .malformed (body.headD 0xFF) 0 0xFF s
  | some a =>
    match s.refusal a with
    | some (st, detail) => taggedReply st (byte a.tag.val) detail 0xFF s
    | none =>
      let r := s.newRequest a
      taggedReply .ok (byte a.tag.val) r.admission.toNat r.admittedState.code (takeIn a s)

/-! ## FETCH-SNAPSHOT (R136) -/

/-- The bytes of a snapshot in its reply (R226). -/
def snapshotBytes (x : Snapshot) : List Byte :=
  [byte x.tag.val, x.kind.code, flagsByte x.urgent x.through,
    presenceBits [x.range.isSome, x.failingLbn.isSome, x.failingPort.isSome]] ++
    optField 3 (x.range.map (·.first)) ++ optField 1 (x.range.map (·.count)) ++ [x.status.code] ++
    optField 3 x.failingLbn ++ optField 1 (x.failingPort.map (·.val)) ++ [byte x.blocksDone, byte x.aborted] ++
    le32 x.entry

/-- FETCH-SNAPSHOT: the snapshot is sent and discarded, and the queue runs (R136). -/
def takeFetchSnapshot (body : List Byte) (s : State) : Answer :=
  if body.isEmpty then
    match s.table.snapshot with
    | none => refuse .noSnapshot s
    | some x => answer .ok (snapshotBytes x) { s with table := { s.table with snapshot := none } }
  else refuse .malformed s

/-! ## Acknowledged COMPLETION reports (R33, R43) -/

/-- A tag leaves every hold list (R33). -/
def dropHolds (t : Tag) (s : State) : State :=
  allTags.foldl (fun acc u =>
    match acc.request u with
    | some r => acc.setRequest u { r with holdList := setRemove t r.holdList }
    | none => acc) s

/-- The acknowledgment of a COMPLETION report frees its slot, and holds that named it are released (R33, R43). -/
def ackCompletion (t : Tag) (s : State) : State :=
  if s.inState .reporting t then
    let s1 := s.setSlot t none
    let s2 : State :=
      { s1 with table := { s1.table with admissionOrder := setRemove t s1.table.admissionOrder } }
    releaseHolds (dropHolds t s2)
  else s

end Sys2Proof.Machine
end

