-- ==== Sys2Proof/Machine/Blocks.lean ====
section
/-! DEFINITION. Block data and staged data by message: WRITE-DATA, the acknowledgments of GRANT and READ-DATA,
the data timer, STRANDED-RETRY and STRANDED-DISCARD (R52 to R56, R64, R90, R91). -/

namespace Sys2Proof.Machine

/-! ## WRITE-DATA (R55, R56) -/

/-- The write a WRITE-DATA falls to, when it is solicited (R55, check 2). -/
structure Solicited where
  request : Request
  range : BlockRange
  record : WriteRecord
  grant : Grant
  slot : SlotNo
  deriving DecidableEq, Repr

/-- The write, grant and staging slot a WRITE-DATA falls to; none is NOT_SOLICITED (R55). -/
def State.solicited (s : State) (f : DataFields) : Option Solicited :=
  match s.request f.tag, s.writeRecord f.tag with
  | some r, some w =>
    match r.range, w.grant with
    | some g, some grant =>
      if r.kind = .write ∧ r.state = .active ∧ grant.first ≤ f.index ∧ f.index ∉ grant.received then
        (grant.slots[f.index - grant.first]?).map (fun i => ⟨r, g, w, grant, i⟩)
      else none
    | _, _ => none
  | _, _ => none

/-- The duration of a data timer started now (R53). -/
def State.dataExpiry (s : State) : Nat := s.ahead (s.params.dataTimeout * 10)

/-- Steps 2 and 3: blocks done adds 1, and a THROUGH write's slot joins its settle set (R56). -/
def countReceived (t : Tag) (i : SlotNo) (s : State) : State :=
  match s.request t with
  | none => s
  | some r =>
    s.setRequest t { r with
      blocksDone := r.blocksDone + 1, settleSet := if r.through then setInsert i r.settleSet else r.settleSet }

/-- Steps 2 and 4: the index joins the received set; the grant finishes and forms the next, or the timer restarts
(R51, R53, R56). -/
def advanceGrant (t : Tag) (q : Solicited) (index : Nat) (s : State) : State :=
  let received := q.grant.received ++ [index]
  if received.length = q.grant.slots.length then
    formGrants ((s.setWriteRecord t (some { q.record with grant := none, timer := none })).setGrantOrder
      (setRemove t s.mover.grantOrder))
  else
    s.setWriteRecord t (some { q.record with
      grant := some { q.grant with received := received }, timer := some s.dataExpiry })

/-- Step 5: with every block received a write-back WRITE completes, and a THROUGH WRITE settles (R39, R40, R56). -/
def finishWrite (t : Tag) (s : State) : State :=
  match s.request t with
  | none => s
  | some r =>
    if r.range.any (fun g => g.count = r.blocksDone) then
      let s1 := s.setWriteRecord t none
      if r.through = false ∨ r.settleSet.isEmpty then enterReporting t .good none s1
      else s1.setRequest t { r with state := .settling }
    else s

/-- An accepted block takes its place; a stranded one is handed on last (R56, R74, log entry 14). -/
def takeBlock (f : DataFields) (q : Solicited) (s : State) : State :=
  let arrival := dataArrival q.slot (q.range.first + f.index) (s.slot q.slot).isThrough f.data s
  let s1 := finishWrite f.tag (advanceGrant f.tag q f.index (countReceived f.tag q.slot arrival.1))
  settleStaging (handOn (if arrival.2 then [q.slot] else []) s1)

/-- WRITE-DATA (R55, R56). -/
def takeWriteData (body : List Byte) (s : State) : Answer :=
  match dataFields body with
  | none => answer .malformed (zeros 3) s
  | some f =>
    match s.solicited f with
    | none => answer .notSolicited [byte f.tag.val, byte f.index, 0] s
    | some q => answer .ok [byte f.tag.val, byte f.index, byte (q.request.blocksDone + 1)] (takeBlock f q s)

/-! ## Acknowledgments (R52, R53, R64) -/

/-- The acknowledgment of the GRANT report `n`: the grant it announced, still current, starts its timer (R52, R53). -/
def ackGrant (t : Tag) (n : Byte) (s : State) : State :=
  match s.writeRecord t with
  | none => s
  | some w =>
    match w.grant with
    | none => s
    | some g =>
      if g.report = .inWindow n then
        s.setWriteRecord t (some { w with grant := some { g with report := .acknowledged }, timer := some s.dataExpiry })
      else s

/-- A block of a READ is acknowledged while the READ is ACTIVE: it counts, and the last completes it (R40, R64). -/
def countDelivered (w : Owner) (s : State) : State :=
  match s.request w.tag with
  | none => s
  | some r =>
    if r.admission = w.admission ∧ r.kind = .read ∧ r.state = .active then
      let s1 := s.setRequest w.tag { r with blocksDone := r.blocksDone + 1 }
      if r.range.any (fun g => g.count = r.blocksDone + 1) then
        enterReporting w.tag .good none (s1.setFetchRecord w.tag none)
      else s1
    else s

/-- The acknowledgment of a READ-DATA report frees its return slot (R59, R60, R64). -/
def ackReadData (i : RetNo) (s : State) : State :=
  match s.returnSlot i with
  | .sent w _ _ _ => assignReturns (countDelivered w (s.setReturnSlot i .free))
  | .free => s
  | .fetching .. => s
  | .filled .. => s

/-! ## The data timer (R54) -/

/-- A data timer that has reached its moment faults its WRITE (R54). -/
def dataTimerExpires (t : Tag) (s : State) : State :=
  match (s.writeRecord t).bind (·.timer) with
  | none => s
  | some moment =>
    if s.reached moment then settleStaging (formGrants (requestFault t .dataTimeout none .dataTimeout s)) else s

/-! ## Stranded data (R90, R91) -/

/-- The STRANDED slots a selector names, in ascending slot number. -/
def State.namedStranded (s : State) (one : Bool) (x : Nat) : List SlotNo :=
  allSlots.filter (fun i => (s.slot i).isStranded && (!one || decide ((s.slot i).lbn? = some x)))

/-- A STRANDED slot whose block is available turns DIRTY (R90). -/
def retrySlot (i : SlotNo) (s : State) : State :=
  match s.slot i with
  | .stranded x m d _ =>
    if s.available x then (s.setStaging i (.dirty x m d)).setDrainOrder (s.staging.drainOrder ++ [i]) else s
  | .free => s
  | .filling .. => s
  | .dirty .. => s
  | .draining .. => s

/-- STRANDED-RETRY (R90). -/
def takeStrandedRetry (body : List Byte) (s : State) : Answer :=
  match strandedFields body with
  | none => refuse .malformed s
  | some (one, x) =>
    if s.mapStore.commit.isSome then refuse .mapBusy s
    else if one ∧ 0xFFFFFF < x then refuse .badParameter s
    else
      let named := s.namedStranded one x
      let s1 := named.foldl (fun acc i => retrySlot i acc) s
      let left := named.filter (fun i => (s1.slot i).isStranded)
      answer .ok [byte (named.length - left.length), byte left.length, byte (s1.countSlots StagingSlot.isStranded)]
        (settle s1)

/-- A STRANDED slot is discarded: it goes FREE, its entry is made, and the FREE forms grants (R91). -/
def discardSlot (i : SlotNo) (s : State) : State :=
  formGrants (addEntry
    { cause := .dataDiscarded, source := .staging, tag := none, lbn := (s.slot i).lbn?, port := none, pbn := none
      attempts := 0 } (s.setStaging i .free))

/-- STRANDED-DISCARD (R91). -/
def takeStrandedDiscard (body : List Byte) (s : State) : Answer :=
  match strandedFields body with
  | none => refuse .malformed s
  | some (one, x) =>
    if 0xFFFFFF < x then refuse .badParameter s
    else
      let named := s.namedStranded one x
      let s1 := named.foldl (fun acc i => discardSlot i acc) s
      answer .ok [byte named.length, byte (s1.countSlots StagingSlot.isStranded)] (settleStaging s1)

end Sys2Proof.Machine
end

