-- ==== Sys2Proof/Machine/Maps.lean ====
section
/-! DEFINITION. The Map Store's messages: MAP-READ, the draft-changing messages, MAP-COMMIT with its validation, and
SET-CEILING (R14 to R21, R143, R144). -/

namespace Sys2Proof.Machine

/-- MAP-READ (R15). -/
def takeMapRead (body : List Byte) (s : State) : Answer :=
  match byteField body with
  | none => refuse .malformed s
  | some sel =>
    if s.mapStore.ready = false then refuse .starting s
    else if sel = 0 ∨ sel = 1 then
      let m := if sel = 0 then s.mapStore.active else s.mapStore.draft
      answer .ok (sel :: (le32 m.pool ++ le32 m.generation ++ extentForms m)) s
    else refuse .badParameter s

/-- Checks 2 and 3 of the draft-changing messages (R16). -/
def State.draftRefusal (s : State) : Option ReplyStatus :=
  if s.mapStore.ready = false then some .starting
  else if s.mapStore.commit.isSome then some .mapBusy
  else none

def State.setDraft (s : State) (m : Map) : State := { s with mapStore := { s.mapStore with draft := m } }

/-- MAP-EDIT (R16, R17). -/
def takeMapEdit (body : List Byte) (s : State) : Answer :=
  match editFields body with
  | none => refuse .malformed s
  | some edit =>
    match s.draftRefusal with
    | some st => refuse st s
    | none =>
      match edit with
      | none => refuse .badParameter s
      | some (i, e) =>
        answer .ok [] (s.setDraft { s.mapStore.draft with extents := s.mapStore.draft.extents.set i e })

/-- MAP-EDIT-POOL (R16, R18). -/
def takeMapEditPool (body : List Byte) (s : State) : Answer :=
  match field4 body with
  | none => refuse .malformed s
  | some v =>
    match s.draftRefusal with
    | some st => refuse st s
    | none => answer .ok [] (s.setDraft { s.mapStore.draft with pool := BitVec.ofNat 32 v })

/-- MAP-RESET-DRAFT (R16, R19). -/
def takeMapResetDraft (body : List Byte) (s : State) : Answer :=
  if body.isEmpty then
    match s.draftRefusal with
    | some st => refuse st s
    | none => answer .ok [] (s.setDraft s.mapStore.active)
  else refuse .malformed s

/-! ## Validation (R20) -/

/-- The checks on one enabled extent against the enabled extents of lower index (R20). -/
def State.extentFault (s : State) (lower : List Extent) (e : Extent) : Option InvalidReason :=
  if e.length = 0 then some .zeroLength
  else if !(s.port e.port).cls.targetable then some .portNotTarget
  else if 0x1000000 < e.first.toNat + e.length.toNat ∨ e.base.toNat < Config.firstDataPbn ∨
      s.capacity e.port < e.base.toNat + e.length.toNat then some .range
  else if lower.any (fun f => f.overlapsLogical e) then some .overlapLogical
  else if lower.any (fun f => f.overlapsPhysical e) then some .overlapPhysical
  else none

/-- Validation in index order, from index `i`; `lower` are the enabled extents already passed (R20). -/
def State.validateFrom (s : State) : Nat → List Extent → List Extent → Option (InvalidReason × Nat)
  | _, _, [] => none
  | i, lower, e :: es =>
    if e.enabled then
      match s.extentFault lower e with
      | some reason => some (reason, i)
      | none => s.validateFrom (i + 1) (lower ++ [e]) es
    else s.validateFrom (i + 1) lower es

/-- Validation of the draft: the reason and index of the first failing extent (R20). -/
def State.validate (s : State) : Option (InvalidReason × Nat) :=
  s.validateFrom 0 [] s.mapStore.draft.extents.toList

/-! ## MAP-COMMIT (R143, R144) -/

/-- The layout of a MAP-COMMIT reply: reason or phase, index, generation, targets (R226). -/
def commitReply (st : ReplyStatus) (first index : Byte) (generation : Word32) (targets : List Port) (s : State) : Answer :=
  answer st (first :: index :: (le32 generation ++ [portSet targets])) s

/-- A commit is accepted: its record, its power effect, and the first quiesce evaluation (R144). -/
def acceptCommit (s : State) : State :=
  let s1 := s.setCommit (some s.newCommit)
  let s2 := if s1.power.state = .parking ∨ s1.power.state = .parked then leavePark s1 else s1
  settle (evalQuiesce s2)

/-- MAP-COMMIT (R21, R143, R144). -/
def takeMapCommit (body : List Byte) (s : State) : Answer :=
  if !body.isEmpty then commitReply .malformed 0 0 0 [] s
  else if s.mapStore.ready = false then commitReply .starting 0 0 0 [] s
  else if s.mapStore.commit.isSome then commitReply .mapBusy s.phaseCode 0 0 [] s
  else if s.targetPorts.isEmpty then commitReply .noTarget 0 0 0 [] s
  else if s.mapStore.active.generation = Config.lastGeneration then
    commitReply .mapInvalid InvalidReason.range.code 8 0 [] s
  else
    match s.validate with
    | some (reason, i) => commitReply .mapInvalid reason.code (byte i) 0 [] s
    | none => commitReply .commitStarted 0 0 (s.mapStore.active.generation + 1) s.targetPorts (acceptCommit s)

/-! ## SET-CEILING (R14) -/

def State.setCeilingTo (s : State) (n : Nat) : State := { s with mapStore := { s.mapStore with ceiling := n } }

/-- SET-CEILING (R14). -/
def takeSetCeiling (body : List Byte) (s : State) : Answer :=
  match field4 body with
  | none => refuse .malformed s
  | some v =>
    if v ≤ s.mapStore.ceiling then answer .ok (le 4 v) (s.setCeilingTo v)
    else answer .ceilingRaise (le 4 s.mapStore.ceiling) s

end Sys2Proof.Machine
end

