-- ==== Sys2Proof/Machine/Admin.lean ====
section
/-! DEFINITION. IDENTIFY, STATUS, the parameters, PARK and UNPARK, PORT-RESET, NOTICE-CLEAR and GET-LOG (R123, R166,
R169, R180, R194 to R201, R218 to R220). -/

namespace Sys2Proof.Machine

/-! ## IDENTIFY and STATUS (R218) -/

/-- The values IDENTIFY reports, in the order R218 names them, each in the fewest bytes (R224, log entry 13). -/
def identifyBytes : List Byte :=
  le 2 Config.vendorCode ++ le 2 Config.partCode ++ le 1 Config.siliconRevision ++
    le 2 Config.blockBytes ++ le 3 0xFFFFFF ++ le 4 Config.ceilingAtReset ++
    [16, byte Config.maxBlocks, byte Config.maxGrant, 32, 8, 8, 4] ++
    le 3 Config.minCapacity ++ le 3 Config.maxCapacity ++
    [byte Config.firstDataPbn, byte Config.windowSize, 3] ++ le 2 Config.maxMessage ++ le 2 1040 ++
    [byte Config.ringSize, byte Config.recentSize, 0, 5]

/-- IDENTIFY (R218). -/
def takeIdentify (body : List Byte) (s : State) : Answer :=
  if body.isEmpty then answer .ok identifyBytes s else refuse .malformed s

/-- A port in the STATUS reply (R226). -/
def statusPort (x : PortRecord) : List Byte :=
  [x.cls.code, x.engine.code, presenceBits [x.member.isSome]] ++
    optField 3 (x.member.map (·.capacity)) ++ optField 4 (x.member.map (·.identity.toNat))

/-- The 75 bytes of the STATUS reply (R218, R226). -/
def statusBytes (s : State) : List Byte :=
  [flagByte s.mapStore.ready, flagByte s.halted, s.power.state.code, s.phaseCode] ++
    [byte (allTags.filter (fun t => (s.request t).isNone)).length, byte (s.countState .held),
      byte (s.countState .active), byte (s.countState .settling), byte (s.countState .aborting),
      byte (s.countState .reporting)] ++
    [byte (s.countSlots StagingSlot.isFree), byte (s.countSlots StagingSlot.isFilling),
      byte (s.countSlots StagingSlot.isDirty), byte (s.countSlots StagingSlot.isDraining),
      byte (s.countSlots StagingSlot.isStranded)] ++
    [byte s.busyReturns, byte s.link.window.length, flagByte s.link.lost] ++
    le32 s.mapStore.active.generation ++ le32 s.mapStore.active.pool ++ le 4 s.mapStore.ceiling ++
    allPorts.flatMap (fun p => statusPort (s.port p)) ++
    byte s.notices.pending.length :: le32 s.log.uptime

/-- STATUS (R218). -/
def takeStatus (body : List Byte) (s : State) : Answer :=
  if body.isEmpty then answer .ok (statusBytes s) s else refuse .malformed s

/-! ## Parameters (R219, R220) -/

/-- The value of a parameter, in the form SET-PARAMETER takes (R219, R220); none for an identifier outside 01H to
09H. -/
def Params.get (q : Params) (id : Nat) : Option Nat :=
  match id with
  | 1 => some q.idleCode
  | 2 => some q.dataTimeout
  | 3 => some q.reportTimeout
  | 4 => some q.highWater
  | 5 => some q.writeBack.toNat
  | 6 => some q.held.toNat
  | 7 => some q.noticeEnable.toNat
  | 8 => some q.linkRate
  | 9 => some q.drainFairness
  | _ => none

/-- The legal range of a parameter (R219, R225). -/
def legalValue (id v : Nat) : Bool :=
  match id with
  | 1 => decide (v ≤ 251)
  | 2 => decide (1 ≤ v) && decide (v ≤ 255)
  | 3 => decide (5 ≤ v) && decide (v ≤ 255)
  | 4 => decide (8 ≤ v) && decide (v ≤ 31)
  | 5 => decide (v ≤ 1)
  | 6 => decide (v ≤ 1)
  | 7 => decide (v < 1024)
  | 8 => decide (v ≤ 5)
  | 9 => decide (1 ≤ v) && decide (v ≤ 8)
  | _ => false

def State.setParams (s : State) (q : Params) : State := { s with params := q }

/-- An accepted value takes effect in its owner (R89, R162, R175, R179, R203, R219). -/
def applyParameter (id v : Nat) (s : State) : State :=
  let q := s.params
  match id with
  | 1 => evalIdleRestart (s.setParams { q with idleCode := v })
  | 2 => s.setParams { q with dataTimeout := v }
  | 3 => s.setParams { q with reportTimeout := v }
  | 4 => evalPressure (s.setParams { q with highWater := v })
  | 5 => s.setParams { q with writeBack := decide (v = 1) }
  | 6 => changeMode (decide (v = 1)) s
  | 7 => changeMask (BitVec.ofNat 16 v) s
  | 8 => s.setParams { q with linkRate := v }
  | 9 => s.setParams { q with drainFairness := v }
  | _ => s

/-- What the end of the reply's transmission brings: a new LINK_RATE code changes the line (R203). -/
def parameterEffect (id v : Nat) (s : State) : ReplyEffect :=
  if id = 8 ∧ v ≠ s.params.linkRate then .changeRate v else .nothing

/-- The identifier and the value in force (R219, R220, R226). -/
def parameterReply (id : Nat) (s : State) : List Byte := byte id :: le 2 ((s.params.get id).getD 0)

/-- SET-PARAMETER (R219). -/
def takeSetParameter (body : List Byte) (s : State) : Answer :=
  match parameterFields body with
  | none => answer .malformed (zeros 3) s
  | some (id, v) =>
    if legalValue id v then
      let t := applyParameter id v s
      ⟨ReplyStatus.ok.code :: parameterReply id t, parameterEffect id v s, t⟩
    else answer .badParameter (zeros 3) s

/-- GET-PARAMETER (R220). -/
def takeGetParameter (body : List Byte) (s : State) : Answer :=
  match byteField body with
  | none => answer .malformed (zeros 3) s
  | some id =>
    match s.params.get id.toNat with
    | some v => answer .ok (id :: le 2 v) s
    | none => answer .badParameter (zeros 3) s

/-! ## PARK and UNPARK (R166, R169) -/

/-- PARK (R166). -/
def takePark (body : List Byte) (s : State) : Answer :=
  if !body.isEmpty then refuse .malformed s
  else if s.mapStore.ready = false then refuse .starting s
  else
    let t := match s.power.state with
      | .active => settle (s.setPower .parking)
      | .lowPower => settle (s.setPower .parking)
      | .parking => s
      | .parked => s
    answer .ok [t.power.state.code] t

/-- UNPARK (R169). -/
def takeUnpark (body : List Byte) (s : State) : Answer :=
  if !body.isEmpty then refuse .malformed s
  else
    let t := match s.power.state with
      | .active => s
      | .lowPower => s
      | .parking => settle (leavePark s)
      | .parked => settle (leavePark s)
    answer .ok [t.power.state.code] t

/-! ## PORT-RESET (R123) -/

/-- The class a port had if it was classified: its own, or the one its debounce record notes (R123, step 5). -/
def PortRecord.noted (x : PortRecord) : Option PortClass :=
  if x.cls.classified then some x.cls else x.debounce.bind (·.noted)

/-- Steps 1 and 2 of a reset of a POOLED port: the operation in flight ends and its outcome reaches its user, then
the fetches that wait for the arbiter fail (R123, R134, log entry 16). The answer's second part is the slot stranded
and handed on. -/
def resetPooled (p : Port) (s : State) : State × List SlotNo :=
  let lost := loseOp p s
  (failWaitingAll p (handOnWalk lost.2 lost.1), lost.2)

/-- The port reset itself (R123, steps 1 to 5). A port that is not POOLED has no fetch waiting for it, and its
operation ends at its entry to PROBE or EMPTY. -/
def resetPort (p : Port) (s : State) : State :=
  let x := s.port p
  let first := if x.cls = .pooled then resetPooled p s else (s, [])
  if s.presence[p] then portProbe p (probeEngine x) first.2 first.1 else portEmpty p x.noted first.2 first.1

/-- PORT-RESET (R123). -/
def takePortReset (body : List Byte) (s : State) : Answer :=
  match byteField body with
  | none => refuse .malformed s
  | some b =>
    if s.mapStore.ready = false then refuse .starting s
    else if s.mapStore.commit.isSome then refuse .mapBusy s
    else
      match portOfByte b with
      | none => refuse .portInvalid s
      | some p => answer .ok [b, if s.presence[p] then PortClass.probe.code else PortClass.empty.code]
          (settleStaging (resetPort p s))

/-! ## NOTICE-CLEAR (R180) -/

/-- The reply of an accepted NOTICE-CLEAR that removes what `out` picks. -/
def clearNotices (out : Notice → Bool) (s : State) : Answer :=
  let t := evalAttn (s.dropNotices out)
  answer .ok [byte (s.notices.pending.filter out).length, byte t.notices.pending.length] t

/-- NOTICE-CLEAR (R180). -/
def takeNoticeClear (body : List Byte) (s : State) : Answer :=
  match clearFields body with
  | none => refuse .malformed s
  | some (false, _, _) => clearNotices (fun _ => true) s
  | some (true, k, b) =>
    match NoticeKind.ofCode k with
    | none => refuse .badParameter s
    | some kind =>
      if kind.isPortKind then
        match portOfByte b with
        | none => refuse .portInvalid s
        | some p => clearNotices (fun n => n.key = ⟨kind, some p⟩) s
      else clearNotices (fun n => n.key = ⟨kind, none⟩) s

/-! ## Log pages (R194 to R201, R228) -/

/-- The link counters in identifier order (R197). -/
def LinkCounters.values (c : LinkCounters) : List Word32 :=
  [c.framesAccepted, c.crcErrors, c.framingErrors, c.duplicateMessages, c.sequenceErrors, c.reportsResent,
   c.linkLostEvents, c.linkResets, c.breaks, c.oversizeFrames]

/-- The statistics of a port in the order of R198. -/
def PortStats.values (x : PortStats) : List Word32 :=
  [x.blocksRead, x.blocksProgrammed, x.laneRetries, x.opTimeouts, x.checkFailures, x.programFailures]

/-- The code of a stranding reason (R229). -/
def StrandReason.code (r : StrandReason) : Byte := r.cause.code

/-- Page 01H's body (R196, R228). -/
def historyBody (s : State) : List Byte := byte s.log.ring.length :: s.log.ring.flatMap entryBytes

/-- Page 02H's body: identifier and value of each counter, from identifier `id` (R197, R228). -/
def counterPairs : Nat → List Word32 → List Byte
  | _, [] => []
  | id, v :: vs => byte id :: (le32 v ++ counterPairs (id + 1) vs)

/-- Page 03H's body (R198, R228). -/
def statsBody (s : State) : List Byte := allPorts.flatMap (fun p => (s.port p).stats.values.flatMap le32)

/-- One slot of page 04H; nothing for a slot that is not STRANDED (R199, R228). -/
def strandedEntry (s : State) (i : SlotNo) : List Byte :=
  match s.slot i with
  | .stranded x _ _ reason => byte i.val :: (le 3 x ++ [reason.code])
  | .free => []
  | .filling .. => []
  | .dirty .. => []
  | .draining .. => []

/-- Page 04H's body (R199, R228). -/
def strandedBody (s : State) : List Byte :=
  byte (s.countSlots StagingSlot.isStranded) :: allSlots.flatMap (strandedEntry s)

/-- The length of a whole page: header, body and checksum (R228). -/
def pageLength (body : List Byte) : Nat := body.length + 4

/-- The length of the directory page (R228). -/
def directoryLength : Nat := 32

/-- Page 00H's body (R195, R228). -/
def directoryBody (s : State) : List Byte :=
  let pair := fun (page : Byte) (n : Nat) => page :: le 2 n
  pair 0 directoryLength ++ pair 1 (pageLength (historyBody s)) ++
    pair 2 (pageLength (counterPairs 1 s.link.counters.values)) ++ pair 3 (pageLength (statsBody s)) ++
    pair 4 (pageLength (strandedBody s)) ++ le32 s.log.uptime ++ le 2 s.log.errorCount.toNat ++
    [byte s.log.ring.length, presenceBits [!s.log.ring.isEmpty]] ++ le32 s.newestEntry ++
    [byte (s.countSlots StagingSlot.isStranded)]

/-- The body of a page; none for a number that names no page (R194). -/
def pageBody (page : Byte) (s : State) : Option (List Byte) :=
  match page.toNat with
  | 0 => some (directoryBody s)
  | 1 => some (historyBody s)
  | 2 => some (counterPairs 1 s.link.counters.values)
  | 3 => some (statsBody s)
  | 4 => some (strandedBody s)
  | _ => none

/-- A whole page: number, body length, body and checksum (R200, R228). -/
def wholePage (page : Byte) (body : List Byte) : List Byte :=
  let bytes := page :: (le 2 body.length ++ body)
  bytes ++ [checksum bytes]

/-- A clearing GET-LOG sets the counters of its page to 0 (R201). -/
def clearPage (page : Byte) (s : State) : State :=
  match page.toNat with
  | 2 => s.setCounters LinkCounters.zero
  | 3 => allPorts.foldl (fun acc p => acc.setPort p { acc.port p with stats := PortStats.zero }) s
  | _ => s

/-- GET-LOG (R194). -/
def takeGetLog (body : List Byte) (s : State) : Answer :=
  match logFields body with
  | none => refuse .malformed s
  | some (page, clear) =>
    match pageBody page s with
    | none => refuse .badParameter s
    | some bytes =>
      answer .ok (page :: flagByte clear :: wholePage page bytes) (if clear then clearPage page s else s)

end Sys2Proof.Machine
end

