-- ==== Sys2Proof/Machine/Link.lean ====
section
/-! DEFINITION. The Link Controller: accepting a message, the sequence check and the reply cache, LINK-SYNC, the report
window, the resend timers and LOST, the outbound arbiter, and the link reset (R203 to R217). -/

namespace Sys2Proof.Machine

/-! ## Counters -/

/-- FRAMES_ACCEPTED adds 1 and the receiver hunts (R206). -/
def acceptFrame (s : State) : State :=
  let c := s.link.counters
  { s with link := { s.link with receiver := .hunting, counters := { c with framesAccepted := satInc c.framesAccepted } } }

/-- The receiver passes over an oversize frame (R205). -/
def Receiver.isSkipping : Receiver → Bool
  | .skipping _ => true
  | .hunting => false
  | .header => false
  | .body => false

/-- The receiver can take a frame: RESETn is high, RXD is not held low, and no oversize frame is being skipped
(R205, R207, R230). -/
def State.receives (s : State) : Bool := !s.resetLow && !s.link.rxdLow && !s.link.receiver.isSkipping

/-! ## Dispatch (R209) -/

/-- RESET-LINK (R216): its reply is formed, and the reset follows its transmission. -/
def takeResetLink (body : List Byte) (s : State) : Answer :=
  if body.isEmpty then
    ⟨[ReplyStatus.ok.code], .resetLink, { s with link := { s.link with resetWait := .replyUnsent } }⟩
  else refuse .malformed s

/-- A message is handed to the owner of its kind (R209). A LINK-SYNC never comes here: R208 takes it first. -/
def takeKind (k : MsgKind) (body : List Byte) (s : State) : Answer :=
  match k with
  | .identify => takeIdentify body s
  | .status => takeStatus body s
  | .setParameter => takeSetParameter body s
  | .getParameter => takeGetParameter body s
  | .resetLink => takeResetLink body s
  | .linkSync => refuse .unknownKind s
  | .read => takeTagged .read body s
  | .write => takeTagged .write body s
  | .verify => takeTagged .verify body s
  | .flush => takeTagged .flush body s
  | .writeData => takeWriteData body s
  | .fetchSnapshot => takeFetchSnapshot body s
  | .mapRead => takeMapRead body s
  | .mapEdit => takeMapEdit body s
  | .mapEditPool => takeMapEditPool body s
  | .mapResetDraft => takeMapResetDraft body s
  | .mapCommit => takeMapCommit body s
  | .setCeiling => takeSetCeiling body s
  | .park => takePark body s
  | .unpark => takeUnpark body s
  | .portReset => takePortReset body s
  | .strandedRetry => takeStrandedRetry body s
  | .strandedDiscard => takeStrandedDiscard body s
  | .noticeClear => takeNoticeClear body s
  | .getLog => takeGetLog body s

/-- The answer to a message by its kind byte; a byte that names no kind is refused UNKNOWN_KIND (R209). -/
def dispatch (kind : Byte) (body : List Byte) (s : State) : Answer :=
  match MsgKind.ofCode kind with
  | some k => takeKind k body s
  | none => refuse .unknownKind s

/-! ## The sequence check (R208) -/

/-- Makes a reply pending (R209). -/
def State.replyPending (s : State) (r : Reply) : State := { s with link := { s.link with pendingReply := some r } }

/-- A reply as the cache keeps it: sent again, it changes no rate and brings no link reset (R208). -/
def Reply.cached (r : Reply) : Reply := { r with effect := .nothing }

/-- A message with s = E is processed: its reply is cached and made pending, and E moves on (R208, R209). -/
def processMessage (m : Message) (s : State) : State :=
  let a := dispatch m.kind m.body s
  let r : Reply := ⟨m.seq, m.kind :: a.fields, a.effect⟩
  { a.state with link := { a.state.link with
      expected := a.state.link.expected + 1, cache := some r.cached, pendingReply := some r } }

/-- A message answered from the cache (R208). -/
def resendReply (r : Reply) (s : State) : State :=
  let c := s.link.counters
  (s.setCounters { c with duplicateMessages := satInc c.duplicateMessages }).replyPending r

/-- A message out of sequence is answered SEQUENCE_ERROR carrying E (R208). -/
def sequenceError (m : Message) (s : State) : State :=
  let c := s.link.counters
  (s.setCounters { c with sequenceErrors := satInc c.sequenceErrors }).replyPending
    ⟨m.seq, [m.kind, ReplyStatus.sequenceError.code, s.link.expected], .nothing⟩

/-- The sequence check of every message but LINK-SYNC (R208). -/
def checkSequence (m : Message) (s : State) : State :=
  if m.seq = s.link.expected then processMessage m s
  else if m.seq + 1 = s.link.expected then
    match s.link.cache with
    | some r => resendReply r s
    | none => sequenceError m s
  else sequenceError m s

/-! ## LINK-SYNC (R210) -/

/-- The report in transmission, if a report is (R210). -/
def State.sendingReport (s : State) : Option Byte :=
  match s.link.transmission with
  | some x => (match x.what with | .report q _ => some q | .reply _ => none)
  | none => none

/-- A window entry at LINK-SYNC: marked due, or left to fall due when its transmission ends (R210, step 3). -/
def WindowEntry.synced (sending : Option Byte) (w : WindowEntry) : WindowEntry :=
  { w with resends := 0, timer := none, due := if sending = some w.seq then .notDue else .bySync }

/-- The frame in transmission at LINK-SYNC: a report of the window falls due at its end (R210, step 3). -/
def Transmission.synced (window : List WindowEntry) (x : Transmission) : Transmission :=
  match x.what with
  | .report q _ => { x with what := .report q (window.any (fun w => w.seq = q)) }
  | .reply _ => x

/-- A well-formed LINK-SYNC under sequence `q` (R210). -/
def linkSynced (q : Byte) (s : State) : State :=
  let s1 := evalAttn { s with link := { s.link with expected := q + 1, lost := false } }
  let window := s1.link.window.map (WindowEntry.synced s1.sendingReport)
  let r : Reply := ⟨q, [MsgKind.linkSync.code, ReplyStatus.ok.code, q + 1, byte window.length], .nothing⟩
  { s1 with link := { s1.link with
      window := window, transmission := s1.link.transmission.map (Transmission.synced window)
      cache := some r, pendingReply := some r } }

/-- LINK-SYNC; one with fields is refused MALFORMED, uncached, E as it was (R210). -/
def takeLinkSync (m : Message) (s : State) : State :=
  if m.body.isEmpty then linkSynced m.seq s
  else s.replyPending ⟨m.seq, [m.kind, ReplyStatus.malformed.code], .nothing⟩

/-- A message passes to the sequence check, a LINK-SYNC to its own rule (R208). -/
def takeMessage (m : Message) (s : State) : State :=
  if MsgKind.ofCode m.kind = some .linkSync then takeLinkSync m s else checkSequence m s

/-! ## Accepting messages (R206) -/

/-- An accepted MESSAGE is taken, held or discarded (R206). -/
def routeMessage (m : Message) (s : State) : State :=
  if s.link.resetWait ≠ .noReset ∨ s.link.heldMessage.isSome then s
  else if s.link.pendingReply.isSome then { s with link := { s.link with heldMessage := some m } }
  else takeMessage m s

/-- A MESSAGE frame passes its CRC check (R206). -/
def acceptMessage (kind seq : Byte) (body : List Byte) (s : State) : State :=
  if s.receives then routeMessage ⟨kind, seq, body⟩ (acceptFrame s) else s

/-- The held message is passed on once the pending reply's transmission has begun (R206). -/
def releaseHeld (s : State) : State :=
  match s.link.heldMessage with
  | none => s
  | some m =>
    if s.link.pendingReply.isSome ∨ s.link.resetWait ≠ .noReset then s
    else takeMessage m { s with link := { s.link with heldMessage := none } }

/-! ## REPORT_ACK (R212) -/

/-- The acknowledgment is handed to the report's owner (R212, step 2). -/
def ackOwner (w : WindowEntry) (s : State) : State :=
  match w.owner with
  | .completion t => settleStaging (ackCompletion t s)
  | .grant t => ackGrant t w.seq s
  | .readData r => settleStaging (ackReadData r s)
  | .notice _ => ackNotice w.seq s

/-- The report with sequence number `n` in the window. -/
def State.report (s : State) (n : Byte) : Option WindowEntry := s.link.window.find? (fun w => w.seq = n)

def State.setWindow (s : State) (ws : List WindowEntry) : State := { s with link := { s.link with window := ws } }

/-- A REPORT_ACK of report `n` is taken at its reception (R206, R212). -/
def takeAck (n : Byte) (s : State) : State :=
  match s.report n with
  | none => s
  | some w => ackOwner w (s.setWindow (s.link.window.filter (fun x => x.seq ≠ n)))

/-- A REPORT_ACK frame passes its CRC check (R206). -/
def acceptAck (n : Byte) (s : State) : State := if s.receives then takeAck n (acceptFrame s) else s

/-! ## Resend timers and LOST (R213, R214) -/

/-- Every resend timer stops and every due mark is dropped (R214, step 1). -/
def WindowEntry.stopped (w : WindowEntry) : WindowEntry := { w with timer := none, due := .notDue }

/-- LOST is declared (R214). -/
def declareLost (s : State) : State :=
  let c := s.link.counters
  let s1 : State := { s with link := { s.link with
    lost := true, window := s.link.window.map WindowEntry.stopped
    counters := { c with linkLostEvents := satInc c.linkLostEvents } } }
  evalAttn (addEntry
    { cause := .linkLost, source := .link, tag := none, lbn := none, port := none, pbn := none, attempts := 4 } s1)

/-- Changes the window entry with sequence number `n`. -/
def mapReport (n : Byte) (f : WindowEntry → WindowEntry) (s : State) : State :=
  s.setWindow (s.link.window.map (fun w => if w.seq = n then f w else w))

/-- The resend timer of report `n` has reached its moment: a resend falls due, or LOST is declared (R213). -/
def reportTimerExpires (n : Byte) (s : State) : State :=
  match s.report n with
  | none => s
  | some w =>
    match w.timer with
    | none => s
    | some moment =>
      if s.reached moment then
        if w.resends < 3 then mapReport n (fun x => { x with timer := none, due := .byExpiry }) s else declareLost s
      else s

/-! ## The outbound arbiter (R211, R215) -/

/-- Puts a frame on TXD. -/
def transmit (what : Sending) (frame : List Byte) (s : State) : State :=
  { s with link := { s.link with transmission := some ⟨what, frame⟩ } }

/-- The pending reply's transmission begins (R215, item 1). -/
def sendReply (r : Reply) (s : State) : State :=
  transmit (.reply r.effect) (frameBytes replyType r.seq r.payload)
    { s with link := { s.link with pendingReply := none } }

/-- A report marked due is sent again; a resend after an expiry counts in its resend count, one after LINK-SYNC does
not (R210, R213, R215, item 2). -/
def sendAgain (w : WindowEntry) (s : State) : State :=
  let c := s.link.counters
  let again := fun (x : WindowEntry) =>
    { x with due := .notDue, resends := if w.due = .byExpiry then x.resends + 1 else x.resends }
  transmit (.report w.seq false) (frameBytes reportType w.seq w.payload)
    (mapReport w.seq again (s.setCounters { c with reportsResent := satInc c.reportsResent }))

/-- The payload of a COMPLETION report (R227). -/
def completionPayload (t : Tag) (r : Request) : List Byte :=
  [0x80, byte t.val, (r.status.map CompletionStatus.code).getD 0, byte r.blocksDone,
    presenceBits [r.failingLbn.isSome]] ++ optField 3 r.failingLbn

/-- The payload of a GRANT report (R227). -/
def grantPayload (t : Tag) (g : Grant) : List Byte := [0x81, byte t.val, byte g.first, byte g.slots.length]

/-- The payload of a READ-DATA report (R227). -/
def readDataPayload (w : Owner) (index : Nat) (data : List Byte) : List Byte :=
  0x82 :: byte w.tag.val :: byte index :: data

/-- The payload of a NOTICE report (R227). -/
def noticePayload (n : Notice) : List Byte :=
  [0x83, byte n.key.kind.code, (n.key.port.map (fun p => byte p.val)).getD 0xFF, byte n.count] ++ detailBytes n.detail

/-- The COMPLETION candidate is sent: its tag leaves the head of the completion-order list (R42). -/
def offerCompletion (s : State) : Option (ReportOwner × List Byte × State) :=
  match s.table.completionOrder with
  | [] => none
  | t :: rest =>
    (s.request t).map (fun r => (.completion t, completionPayload t r,
      { s with table := { s.table with completionOrder := rest } }))

/-- The NOTICE candidate is sent under the report sequence counter (R176). -/
def offerNotice (s : State) : Option (ReportOwner × List Byte × State) :=
  match s.notices.order with
  | [] => none
  | k :: _ => (s.notice k).map (fun n => (.notice k, noticePayload n, sendNotice s.link.reportSeq n s))

/-- The GRANT candidate is sent: its report state becomes IN_WINDOW (R52). -/
def offerGrant (s : State) : Option (ReportOwner × List Byte × State) :=
  match s.mover.grantOrder with
  | [] => none
  | t :: rest =>
    match s.writeRecord t with
    | none => none
    | some w => w.grant.map (fun g => (.grant t, grantPayload t g,
        (s.setWriteRecord t (some { w with grant := some { g with report := .inWindow s.link.reportSeq } })).setGrantOrder
          rest))

/-- The READ-DATA candidate is sent: its return slot turns SENT (R64). -/
def offerReadData (s : State) : Option (ReportOwner × List Byte × State) :=
  match s.mover.fillOrder with
  | [] => none
  | r :: rest =>
    match s.returnSlot r with
    | .filled w i x d => some (.readData r, readDataPayload w i d, (s.setReturnSlot r (.sent w i x d)).setFillOrder rest)
    | .free => none
    | .fetching .. => none
    | .sent .. => none

/-- The new report the arbiter takes, with the state its owner leaves (R211, step 2; R215, item 3). -/
def newReport (s : State) : Option (ReportOwner × List Byte × State) :=
  (offerCompletion s).or ((offerNotice s).or ((offerGrant s).or (offerReadData s)))

/-- A new report is sent: it takes the report sequence number and joins the window (R211). -/
def sendReport (owner : ReportOwner) (payload : List Byte) (s : State) : State :=
  let q := s.link.reportSeq
  transmit (.report q false) (frameBytes reportType q payload) { s with link := { s.link with
    reportSeq := q + 1, window := s.link.window ++ [⟨q, owner, payload, 0, none, .notDue⟩] } }

/-- The oldest report in the window marked due (R215, item 2). -/
def State.dueReport (s : State) : Option WindowEntry := s.link.window.find? (fun w => w.due ≠ .notDue)

/-- The choice of a report, resent or new (R215, items 2 and 3). -/
def chooseReport (s : State) : State :=
  match s.dueReport with
  | some w => sendAgain w s
  | none =>
    if s.windowRoom then
      match newReport s with
      | some (owner, payload, t) => sendReport owner payload t
      | none => s
    else s

/-- The outbound arbiter's choice, made while the transmitter is free (R215). -/
def chooseOutbound (s : State) : State :=
  if s.link.transmission.isSome then s
  else
    match s.link.pendingReply with
    | some r => sendReply r s
    | none => if s.link.resetWait = .noReset ∧ s.link.lost = false then chooseReport s else s

/-- The end of a report's transmission: its timer starts, or it falls due by an earlier LINK-SYNC; while LOST
neither (R210, R213, R214). -/
def reportSent (q : Byte) (dueAtEnd : Bool) (s : State) : State :=
  if s.link.lost then s
  else if dueAtEnd then mapReport q (fun w => { w with due := .bySync }) s
  else mapReport q (fun w => { w with timer := some (s.ahead s.params.reportTimeout) }) s

/-- The end of a reply's transmission (R203, R216). -/
def replySent (e : ReplyEffect) (s : State) : State :=
  match e with
  | .nothing => s
  | .changeRate code => { s with link := { s.link with lineRate := code, receiver := .hunting } }
  | .resetLink => { s with link := { s.link with resetWait := .due } }

/-- The end of a frame's transmission (R215). -/
def endTransmission (s : State) : State :=
  match s.link.transmission with
  | none => s
  | some x =>
    let s1 : State := { s with link := { s.link with transmission := none } }
    match x.what with
    | .reply e => replySent e s1
    | .report q dueAtEnd => reportSent q dueAtEnd s1

/-! ## The link reset (R216) -/

/-- The Link Controller's part, step 1; after a break the rate code is 0 (R203, R216). -/
def resetConversation (byBreak : Bool) (s : State) : State :=
  let c := s.link.counters
  let rate := if byBreak then 0 else s.params.linkRate
  { s with
    params := { s.params with linkRate := rate }
    link := { s.link with
      receiver := .hunting, lineRate := rate, expected := 0, cache := none, heldMessage := none, pendingReply := none
      transmission := none, resetWait := .noReset, reportSeq := 0, window := [], lost := false
      counters := { c with linkResets := satInc c.linkResets } } }

/-- The Request Table's part, step 2: every slot FREE, every order empty, no snapshot, the counter kept (R45, R138). -/
def resetTable (s : State) : State := { s with table := { Table.reset with counter := s.table.counter } }

/-- The Data Mover's part, step 3: every record, grant and return slot dropped (R67). -/
def resetMover (s : State) : State := { s with mover := Mover.reset }

/-- The Staging Buffer's part, step 4: FILLING slots go FREE (R93). -/
def resetFilling (s : State) : State :=
  allSlots.foldl (fun acc i => if (acc.slot i).isFilling then acc.setStaging i .free else acc) s

/-- Power Control's part, step 5: park is left (R169, R171). -/
def resetPark (s : State) : State :=
  if s.power.state = .parking ∨ s.power.state = .parked then leavePark s else s

/-- The link reset (R216); pressure and the idle timer are evaluated at its end (R93, R171). -/
def resetLink (byBreak : Bool) (s : State) : State :=
  settleStaging (unreportAll (resetPark (resetFilling (resetMover (resetTable (resetConversation byBreak s))))))

/-- A break is declared (R207). While RXD stays low it is the same break. -/
def declareBreak (s : State) : State :=
  if s.link.rxdLow then s
  else
    let c := s.link.counters
    resetLink true { s with link := { s.link with rxdLow := true, counters := { c with breaks := satInc c.breaks } } }

end Sys2Proof.Machine
end

