-- ==== Sys2Proof/Machine/Messages.lean ====
section
/-! DEFINITION. The meanings of the message commands: a MESSAGE frame of each kind passes its CRC check (R206, R208,
R209). The kind decides the owner that answers it. -/

namespace Sys2Proof.Machine

/-- READ: asks to read a run of blocks (R25). -/
def execRead (seq : Byte) (body : List Byte) (s : State) : Host.Outcome State Fault Refusal :=
  .next (acceptMessage (MsgKind.code .read) seq body s)

/-- WRITE: asks to write a run of blocks (R25, R36). -/
def execWrite (seq : Byte) (body : List Byte) (s : State) : Host.Outcome State Fault Refusal :=
  .next (acceptMessage (MsgKind.code .write) seq body s)

/-- VERIFY: asks to verify a run of blocks (R25, R66). -/
def execVerify (seq : Byte) (body : List Byte) (s : State) : Host.Outcome State Fault Refusal :=
  .next (acceptMessage (MsgKind.code .verify) seq body s)

/-- FLUSH: asks to wait for staged data (R37). -/
def execFlush (seq : Byte) (body : List Byte) (s : State) : Host.Outcome State Fault Refusal :=
  .next (acceptMessage (MsgKind.code .flush) seq body s)

/-- WRITE-DATA: one granted block (R55, R56). -/
def execWriteData (seq : Byte) (body : List Byte) (s : State) : Host.Outcome State Fault Refusal :=
  .next (acceptMessage (MsgKind.code .writeData) seq body s)

/-- IDENTIFY (R218). -/
def execIdentify (seq : Byte) (body : List Byte) (s : State) : Host.Outcome State Fault Refusal :=
  .next (acceptMessage (MsgKind.code .identify) seq body s)

/-- STATUS (R218). -/
def execStatus (seq : Byte) (body : List Byte) (s : State) : Host.Outcome State Fault Refusal :=
  .next (acceptMessage (MsgKind.code .status) seq body s)

/-- SET-PARAMETER (R219). -/
def execSetParameter (seq : Byte) (body : List Byte) (s : State) : Host.Outcome State Fault Refusal :=
  .next (acceptMessage (MsgKind.code .setParameter) seq body s)

/-- GET-PARAMETER (R220). -/
def execGetParameter (seq : Byte) (body : List Byte) (s : State) : Host.Outcome State Fault Refusal :=
  .next (acceptMessage (MsgKind.code .getParameter) seq body s)

/-- RESET-LINK: its reply is formed, and the reset follows it (R216). -/
def execResetLink (seq : Byte) (body : List Byte) (s : State) : Host.Outcome State Fault Refusal :=
  .next (acceptMessage (MsgKind.code .resetLink) seq body s)

/-- LINK-SYNC (R210). -/
def execLinkSync (seq : Byte) (body : List Byte) (s : State) : Host.Outcome State Fault Refusal :=
  .next (acceptMessage (MsgKind.code .linkSync) seq body s)

/-- FETCH-SNAPSHOT (R136). -/
def execFetchSnapshot (seq : Byte) (body : List Byte) (s : State) : Host.Outcome State Fault Refusal :=
  .next (acceptMessage (MsgKind.code .fetchSnapshot) seq body s)

/-- MAP-READ (R15). -/
def execMapRead (seq : Byte) (body : List Byte) (s : State) : Host.Outcome State Fault Refusal :=
  .next (acceptMessage (MsgKind.code .mapRead) seq body s)

/-- MAP-EDIT (R17). -/
def execMapEdit (seq : Byte) (body : List Byte) (s : State) : Host.Outcome State Fault Refusal :=
  .next (acceptMessage (MsgKind.code .mapEdit) seq body s)

/-- MAP-EDIT-POOL (R18). -/
def execMapEditPool (seq : Byte) (body : List Byte) (s : State) : Host.Outcome State Fault Refusal :=
  .next (acceptMessage (MsgKind.code .mapEditPool) seq body s)

/-- MAP-RESET-DRAFT (R19). -/
def execMapResetDraft (seq : Byte) (body : List Byte) (s : State) : Host.Outcome State Fault Refusal :=
  .next (acceptMessage (MsgKind.code .mapResetDraft) seq body s)

/-- MAP-COMMIT (R143, R144). -/
def execMapCommit (seq : Byte) (body : List Byte) (s : State) : Host.Outcome State Fault Refusal :=
  .next (acceptMessage (MsgKind.code .mapCommit) seq body s)

/-- SET-CEILING (R14). -/
def execSetCeiling (seq : Byte) (body : List Byte) (s : State) : Host.Outcome State Fault Refusal :=
  .next (acceptMessage (MsgKind.code .setCeiling) seq body s)

/-- PARK (R166). -/
def execPark (seq : Byte) (body : List Byte) (s : State) : Host.Outcome State Fault Refusal :=
  .next (acceptMessage (MsgKind.code .park) seq body s)

/-- UNPARK (R169). -/
def execUnpark (seq : Byte) (body : List Byte) (s : State) : Host.Outcome State Fault Refusal :=
  .next (acceptMessage (MsgKind.code .unpark) seq body s)

/-- PORT-RESET (R123). -/
def execPortReset (seq : Byte) (body : List Byte) (s : State) : Host.Outcome State Fault Refusal :=
  .next (acceptMessage (MsgKind.code .portReset) seq body s)

/-- STRANDED-RETRY (R90). -/
def execStrandedRetry (seq : Byte) (body : List Byte) (s : State) : Host.Outcome State Fault Refusal :=
  .next (acceptMessage (MsgKind.code .strandedRetry) seq body s)

/-- STRANDED-DISCARD (R91). -/
def execStrandedDiscard (seq : Byte) (body : List Byte) (s : State) : Host.Outcome State Fault Refusal :=
  .next (acceptMessage (MsgKind.code .strandedDiscard) seq body s)

/-- NOTICE-CLEAR (R180). -/
def execNoticeClear (seq : Byte) (body : List Byte) (s : State) : Host.Outcome State Fault Refusal :=
  .next (acceptMessage (MsgKind.code .noticeClear) seq body s)

/-- GET-LOG (R194). -/
def execGetLog (seq : Byte) (body : List Byte) (s : State) : Host.Outcome State Fault Refusal :=
  .next (acceptMessage (MsgKind.code .getLog) seq body s)

/-- A message whose kind byte names no message kind: refused UNKNOWN_KIND (R209). -/
def execUnknownKind (kind : Byte) (seq : Byte) (body : List Byte) (s : State) : Host.Outcome State Fault Refusal :=
  .next (acceptMessage kind seq body s)

end Sys2Proof.Machine
end

