-- ==== Sys2Proof/Machine/LinkEvents.lean ====
section
/-! DEFINITION. The meanings of the link's own commands: REPORT_ACK frames, damaged frames, breaks, the link reset, the
transmitter, and the report timers (R203 to R217). -/

namespace Sys2Proof.Machine

/-- A command acts only while RESETn is high (R230, log entry 11). -/
def live (f : State → State) (s : State) : Host.Outcome State Fault Refusal := .next (if s.resetLow then s else f s)

/-- HELD_MESSAGE_RELEASE (R206). -/
def execHeldMessageRelease (s : State) : Host.Outcome State Fault Refusal := live releaseHeld s

/-- REPORT_ACK (R212). -/
def execReportAck (n : Byte) (s : State) : Host.Outcome State Fault Refusal := .next (acceptAck n s)

/-- A received frame fails its CRC check: it is discarded and CRC_ERRORS counts it (R206). -/
def execFrameCrcError (s : State) : Host.Outcome State Fault Refusal :=
  let c := s.link.counters
  .next (if s.receives then
    { s with link := { s.link with receiver := .hunting, counters := { c with crcErrors := satInc c.crcErrors } } }
  else s)

/-- A gap, a low stop bit or a bad header discards the frame being received, and FRAMING_ERRORS counts it; the cause
makes no difference (R204, R205). -/
def execFramingError (_cause : FramingCause) (s : State) : Host.Outcome State Fault Refusal :=
  let c := s.link.counters
  .next (if s.receives then
    { s with link := { s.link with
        receiver := .hunting, counters := { c with framingErrors := satInc c.framingErrors } } }
  else s)

/-- A MESSAGE header with a length above 300 is counted, and the rest of the frame is skipped (R205). -/
def execOversizeFrame (length : Nat) (s : State) : Host.Outcome State Fault Refusal :=
  let c := s.link.counters
  .next (if s.receives ∧ Config.maxMessage < length then
    { s with link := { s.link with
        receiver := .skipping (length + 3), counters := { c with oversizeFrames := satInc c.oversizeFrames } } }
  else s)

/-- BREAK (R207). -/
def execBreakDeclared (s : State) : Host.Outcome State Fault Refusal := live declareBreak s

/-- BREAK_END: RXD returns high, and the receiver hunts (R207). -/
def execBreakEnd (s : State) : Host.Outcome State Fault Refusal :=
  live (fun t => if t.link.rxdLow then { t with link := { t.link with rxdLow := false, receiver := .hunting } } else t) s

/-- SKIPPING_END: the oversize frame has passed, or a gap has ended it (R205). -/
def execSkippingEnd (s : State) : Host.Outcome State Fault Refusal :=
  live (fun t => if t.link.receiver.isSkipping then { t with link := { t.link with receiver := .hunting } } else t) s

/-- LINK_RESET: the reset that follows the reply to a RESET-LINK (R216). -/
def execLinkReset (s : State) : Host.Outcome State Fault Refusal :=
  live (fun t => if t.link.resetWait = .due then resetLink false t else t) s

/-- OUTBOUND_CHOICE (R215). -/
def execOutboundChoice (s : State) : Host.Outcome State Fault Refusal := live chooseOutbound s

/-- TRANSMISSION_END (R203, R213, R215). -/
def execTransmissionEnd (s : State) : Host.Outcome State Fault Refusal := live endTransmission s

/-- REPORT_TIMER_EXPIRY (R213, R214). -/
def execReportTimerExpiry (n : Byte) (s : State) : Host.Outcome State Fault Refusal := live (reportTimerExpires n) s

end Sys2Proof.Machine
end

