-- ==== Sys2Proof/Machine/PortEvents.lean ====
section
/-! DEFINITION. The meanings of the ports' commands: presence, debounce, the arbiter, and the end of each lane operation
(R98 to R122). -/

namespace Sys2Proof.Machine

/-- A change of level on port `p` (R98). -/
def presenceChanged (p : Port) (level : Bool) (s : State) : State :=
  match (s.port p).cls, (s.port p).debounce with
  | .debounce, some d =>
    s.setPort p { s.port p with debounce := some { d with level := level, expiry := s.ahead Config.debounceMs } }
  | _, _ => settleStaging (enterDebounce p level s)

/-- PRESENCE_CHANGE: the pin changes level at any time, and the part acts on it while RESETn is high (R98, R230). -/
def execPresenceChange (p : Port) (s : State) : Host.Outcome State Fault Refusal :=
  let level := !s.presence[p]
  let s1 : State := { s with presence := s.presence.set p level }
  .next (if s.resetLow then s1 else presenceChanged p level s1)

/-- DEBOUNCE ends with the level held (R98). -/
def debounceEnds (p : Port) (s : State) : State :=
  match (s.port p).cls, (s.port p).debounce with
  | .debounce, some d =>
    if s.reached d.expiry then
      settleStaging (if d.level then portProbe p (probeEngine (s.port p)) [] s else portEmpty p d.noted [] s)
    else s
  | _, _ => s

/-- DEBOUNCE_EXPIRY (R98, R100, R101). -/
def execDebounceExpiry (p : Port) (s : State) : Host.Outcome State Fault Refusal := live (debounceEnds p) s

/-- ARBITER_CHOICE (R115, R118, R119). -/
def execArbiterChoice (p : Port) (s : State) : Host.Outcome State Fault Refusal :=
  live (fun t => settle (arbitrate p t)) s

/-- The end of an IDENT (R111). -/
def identEnds (p : Port) (answers : List IdentAnswer) (s : State) : State :=
  match s.runningOp p with
  | none => s
  | some op =>
    match op.kind, scanIdent 0 0 answers with
    | .ident, some (.ok found, sent) =>
      settleStaging (probeIdent p (.ok found) sent (closeOp p .ident .idle .noStat sent s))
    | .ident, some (.error e, sent) => settleStaging (opFailed p op e sent s)
    | _, _ => s

/-- IDENT_END (R111). -/
def execIdentEnd (p : Port) (answers : List IdentAnswer) (s : State) : Host.Outcome State Fault Refusal :=
  live (identEnds p answers) s

/-- The end of an RDBLK (R112). -/
def rdblkEnds (p : Port) (answers : List ReadAnswer) (s : State) : State :=
  match s.runningOp p with
  | none => s
  | some op =>
    match op.kind with
    | .rdblk pbn =>
      (match scanRead pbn 0 0 0 answers with
      | some (.ok reading, sent) => settleStaging (readDone p op pbn reading sent s)
      | some (.error e, sent) => settleStaging (opFailed p op e sent s)
      | none => s)
    | .ident => s
    | .pgblk _ _ => s
    | .sleep => s
    | .wake => s

/-- RDBLK_END (R112). -/
def execRdblkEnd (p : Port) (answers : List ReadAnswer) (s : State) : Host.Outcome State Fault Refusal :=
  live (rdblkEnds p answers) s

/-- The end of a PGBLK (R113). -/
def pgblkEnds (p : Port) (answers : List ProgramAnswer) (s : State) : State :=
  match s.runningOp p with
  | none => s
  | some op =>
    match op.kind with
    | .pgblk _ _ =>
      (match scanProgram false 0 0 answers with
      | some (.ok _, sent) => settleStaging (programDone p op sent s)
      | some (.error e, sent) => settleStaging (opFailed p op e sent s)
      | none => s)
    | .ident => s
    | .rdblk _ => s
    | .sleep => s
    | .wake => s

/-- PGBLK_END (R113). -/
def execPgblkEnd (p : Port) (answers : List ProgramAnswer) (s : State) : Host.Outcome State Fault Refusal :=
  live (pgblkEnds p answers) s

/-- The end of a SLEEP (R114). -/
def sleepEnds (p : Port) (answers : List CommandAnswer) (s : State) : State :=
  match s.runningOp p with
  | none => s
  | some op =>
    match op.kind, scanCommand 0 0 answers with
    | .sleep, some (.ok _, sent) => settleStaging (sleepEnded p op none sent (closeOp p .sleep .asleep .noStat sent s))
    | .sleep, some (.error e, sent) => settleStaging (opFailed p op e sent s)
    | _, _ => s

/-- SLEEP_END (R114). -/
def execSleepEnd (p : Port) (answers : List CommandAnswer) (s : State) : Host.Outcome State Fault Refusal :=
  live (sleepEnds p answers) s

/-- The moment before which a WAKE that started with `op` cannot have waited its 3 ms (R115, log entry 2). -/
def wakeMoment (op : Operation) : Nat := op.limit - Config.opLimitMs + Config.wakeWaitMs

/-- The end of a WAKE (R115). -/
def wakeEnds (p : Port) (answers : List CommandAnswer) (s : State) : State :=
  match s.runningOp p with
  | none => s
  | some op =>
    match op.kind, scanCommand 0 0 answers with
    | .wake, some (.ok _, sent) =>
      if s.reached (wakeMoment op) then settleStaging (wakeDone p (closeOp p .wake .idle .noStat sent s)) else s
    | .wake, some (.error e, sent) => settleStaging (opFailed p op e sent s)
    | _, _ => s

/-- WAKE_END (R115). -/
def execWakeEnd (p : Port) (answers : List CommandAnswer) (s : State) : Host.Outcome State Fault Refusal :=
  live (wakeEnds p answers) s

/-- The operation in flight has reached its limit after `attempts` commands (R109). -/
def opTimesOut (p : Port) (attempts : Nat) (s : State) : State :=
  match s.runningOp p with
  | none => s
  | some op => if s.reached op.limit then settleStaging (opFailed p op .opTimeout attempts s) else s

/-- OP_TIMEOUT (R109). -/
def execOpTimeout (p : Port) (attempts : Nat) (s : State) : Host.Outcome State Fault Refusal :=
  live (opTimesOut p attempts) s

end Sys2Proof.Machine
end

