-- ==== Sys2Proof/Machine/Events.lean ====
section
/-! DEFINITION. The meanings of the remaining commands: the resets, the commit's and start-up's own events, the data
timer, grants, return slots and holds, power, and the uptime tick. -/

namespace Sys2Proof.Machine

/-- The lane operation in flight on port `p` is cut off where it stands (R230). -/
def cutOff (p : Port) (s : State) : State := s.setPort p { s.port p with engine := .idle, op := none }

/-- RESET_ASSERT: RESETn goes low; TXD goes high, ATTN is released, and lane operations are cut off (R230). -/
def execResetAssert (s : State) : Host.Outcome State Fault Refusal :=
  .next (allPorts.foldl (fun acc p => cutOff p acc) { s with
    resetLow := true
    notices := { s.notices with attn := false }
    link := { s.link with transmission := none } })

/-- A port right after a device reset, by the level of its presence input (R97, R98). -/
def portAtReset (level : Bool) : PortRecord :=
  if level then { PortRecord.emptyAtReset with cls := .debounce, debounce := some ⟨true, Config.debounceMs, none⟩ }
  else PortRecord.emptyAtReset

/-- DEVICE_RESET: every block at its reset state, the presence inputs read as they stand (R230). -/
def execDeviceReset (s : State) : Host.Outcome State Fault Refusal :=
  .next { State.reset with
    pending := s.pending
    presence := s.presence
    freeDraws := s.freeDraws
    ports := #v[portAtReset s.presence[0], portAtReset s.presence[1], portAtReset s.presence[2],
      portAtReset s.presence[3]] }

/-- QUIESCE_EVALUATION (R145). -/
def execQuiesceEvaluation (s : State) : Host.Outcome State Fault Refusal := live (fun t => settle (evalQuiesce t)) s

/-- The quiesce limit has been reached: QUIESCE_TIMEOUT is logged, and the commit ends FAILED_QUIESCE (R146). -/
def quiesceTimesOut (s : State) : State :=
  match s.mapStore.commit with
  | none => s
  | some c =>
    match c.phase with
    | .quiesce limit =>
      if s.reached limit then
        settleStaging (endCommit .failedQuiesce (addEntry
          { cause := .quiesceTimeout, source := .map, tag := none, lbn := none, port := none, pbn := none
            attempts := 0 } s))
      else s
    | .tentative => s
    | .final => s

/-- QUIESCE_TIMEOUT (R146). -/
def execQuiesceTimeout (s : State) : Host.Outcome State Fault Refusal := live quiesceTimesOut s

/-- STARTUP_END (R157 to R159). -/
def execStartupEnd (s : State) : Host.Outcome State Fault Refusal :=
  live (fun t => if t.mapStore.ready = false ∧ t.startupCondition then settleStaging (endStartup t) else t) s

/-- DATA_TIMER_EXPIRY (R54). -/
def execDataTimerExpiry (t : Tag) (s : State) : Host.Outcome State Fault Refusal := live (dataTimerExpires t) s

/-- GRANT_FORMATION (R50). -/
def execGrantFormation (s : State) : Host.Outcome State Fault Refusal := live (fun t => settleStaging (formGrants t)) s

/-- RETURN_SLOT_ASSIGNMENT (R60). -/
def execReturnSlotAssignment (s : State) : Host.Outcome State Fault Refusal :=
  live (fun t => settleStaging (assignReturns t)) s

/-- HOLD_RELEASE (R33). -/
def execHoldRelease (s : State) : Host.Outcome State Fault Refusal := live (fun t => settleStaging (releaseHolds t)) s

/-- The idle timer has reached its moment: LOW_POWER, and SLEEP is asked of each idle port (R163). -/
def idleTimerExpires (s : State) : State :=
  match s.power.idleTimer with
  | none => s
  | some moment =>
    if s.reached moment ∧ s.power.state = .active then
      settle (sleepAll ((s.setPower .lowPower).setIdleTimer none))
    else s

/-- IDLE_TIMER_EXPIRY (R163). -/
def execIdleTimerExpiry (s : State) : Host.Outcome State Fault Refusal := live idleTimerExpires s

/-- The park completes where the park condition holds (R167). -/
def completePark (s : State) : State :=
  if s.parkCondition then
    let s1 := sleepAll (s.setPower .parked)
    settle (raiseSingle .parked (.count s1.nonFree) s1)
  else s

/-- PARK_COMPLETE (R167). -/
def execParkComplete (s : State) : Host.Outcome State Fault Refusal := live completePark s

/-- UPTIME_TICK: a millisecond has passed (R186, log entry 2). -/
def execUptimeTick (s : State) : Host.Outcome State Fault Refusal :=
  live (fun t => { t with clock := t.clock + 1, log := { t.log with uptime := t.log.uptime + 1 } }) s

end Sys2Proof.Machine
end

