-- ==== Sys2Proof/Machine/Dispatch.lean ====
section
/-! DEFINITION. One arm for each command: the meaning that carries it out. -/

namespace Sys2Proof.Machine

/-- What a command does to everything but the queue. -/
def exec (i : Instr) (s : State) : Host.Outcome State Fault Refusal :=
  match i with
  | .read seq body => Sys2Proof.Machine.execRead seq body s
  | .write seq body => Sys2Proof.Machine.execWrite seq body s
  | .verify seq body => Sys2Proof.Machine.execVerify seq body s
  | .flush seq body => Sys2Proof.Machine.execFlush seq body s
  | .writeData seq body => Sys2Proof.Machine.execWriteData seq body s
  | .identify seq body => Sys2Proof.Machine.execIdentify seq body s
  | .status seq body => Sys2Proof.Machine.execStatus seq body s
  | .setParameter seq body => Sys2Proof.Machine.execSetParameter seq body s
  | .getParameter seq body => Sys2Proof.Machine.execGetParameter seq body s
  | .resetLink seq body => Sys2Proof.Machine.execResetLink seq body s
  | .linkSync seq body => Sys2Proof.Machine.execLinkSync seq body s
  | .fetchSnapshot seq body => Sys2Proof.Machine.execFetchSnapshot seq body s
  | .mapRead seq body => Sys2Proof.Machine.execMapRead seq body s
  | .mapEdit seq body => Sys2Proof.Machine.execMapEdit seq body s
  | .mapEditPool seq body => Sys2Proof.Machine.execMapEditPool seq body s
  | .mapResetDraft seq body => Sys2Proof.Machine.execMapResetDraft seq body s
  | .mapCommit seq body => Sys2Proof.Machine.execMapCommit seq body s
  | .setCeiling seq body => Sys2Proof.Machine.execSetCeiling seq body s
  | .park seq body => Sys2Proof.Machine.execPark seq body s
  | .unpark seq body => Sys2Proof.Machine.execUnpark seq body s
  | .portReset seq body => Sys2Proof.Machine.execPortReset seq body s
  | .strandedRetry seq body => Sys2Proof.Machine.execStrandedRetry seq body s
  | .strandedDiscard seq body => Sys2Proof.Machine.execStrandedDiscard seq body s
  | .noticeClear seq body => Sys2Proof.Machine.execNoticeClear seq body s
  | .getLog seq body => Sys2Proof.Machine.execGetLog seq body s
  | .unknownKind kind seq body => Sys2Proof.Machine.execUnknownKind kind seq body s
  | .heldMessageRelease => Sys2Proof.Machine.execHeldMessageRelease s
  | .reportAck n => Sys2Proof.Machine.execReportAck n s
  | .frameCrcError => Sys2Proof.Machine.execFrameCrcError s
  | .framingError cause => Sys2Proof.Machine.execFramingError cause s
  | .oversizeFrame length => Sys2Proof.Machine.execOversizeFrame length s
  | .breakDeclared => Sys2Proof.Machine.execBreakDeclared s
  | .linkReset => Sys2Proof.Machine.execLinkReset s
  | .outboundChoice => Sys2Proof.Machine.execOutboundChoice s
  | .transmissionEnd => Sys2Proof.Machine.execTransmissionEnd s
  | .reportTimerExpiry n => Sys2Proof.Machine.execReportTimerExpiry n s
  | .resetAssert => Sys2Proof.Machine.execResetAssert s
  | .deviceReset => Sys2Proof.Machine.execDeviceReset s
  | .presenceChange p => Sys2Proof.Machine.execPresenceChange p s
  | .debounceExpiry p => Sys2Proof.Machine.execDebounceExpiry p s
  | .arbiterChoice p => Sys2Proof.Machine.execArbiterChoice p s
  | .identEnd p answers => Sys2Proof.Machine.execIdentEnd p answers s
  | .rdblkEnd p answers => Sys2Proof.Machine.execRdblkEnd p answers s
  | .pgblkEnd p answers => Sys2Proof.Machine.execPgblkEnd p answers s
  | .sleepEnd p answers => Sys2Proof.Machine.execSleepEnd p answers s
  | .wakeEnd p answers => Sys2Proof.Machine.execWakeEnd p answers s
  | .opTimeout p attempts => Sys2Proof.Machine.execOpTimeout p attempts s
  | .quiesceEvaluation => Sys2Proof.Machine.execQuiesceEvaluation s
  | .quiesceTimeout => Sys2Proof.Machine.execQuiesceTimeout s
  | .startupEnd => Sys2Proof.Machine.execStartupEnd s
  | .dataTimerExpiry t => Sys2Proof.Machine.execDataTimerExpiry t s
  | .grantFormation => Sys2Proof.Machine.execGrantFormation s
  | .returnSlotAssignment => Sys2Proof.Machine.execReturnSlotAssignment s
  | .holdRelease => Sys2Proof.Machine.execHoldRelease s
  | .idleTimerExpiry => Sys2Proof.Machine.execIdleTimerExpiry s
  | .parkComplete => Sys2Proof.Machine.execParkComplete s
  | .uptimeTick => Sys2Proof.Machine.execUptimeTick s
  | .breakEnd => Sys2Proof.Machine.execBreakEnd s
  | .skippingEnd => Sys2Proof.Machine.execSkippingEnd s

end Sys2Proof.Machine
end

