-- ==== Sys2Proof/Machine/Frames.lean ====
section
/-! DEFINITION. Received frames: from the bytes on RXD to the command they bring (R204 to R206, R209, R221, R222, R225).
The four type codes of R221 are the two here and the two of the part's own frames. -/

namespace Sys2Proof.Machine

/-- The byte that starts every frame (R204, R221). -/
def startByte : Byte := 0xC7

/-- The type codes of the frames a host sends (R221). -/
def messageType : Byte := 0x01
def reportAckType : Byte := 0x04

/-- The command that brings a message of a known kind (R225). -/
def MsgKind.command : MsgKind → Byte → List Byte → Instr
  | .identify => .identify | .status => .status | .setParameter => .setParameter | .getParameter => .getParameter
  | .resetLink => .resetLink | .linkSync => .linkSync
  | .read => .read | .write => .write | .verify => .verify | .flush => .flush | .writeData => .writeData
  | .fetchSnapshot => .fetchSnapshot
  | .mapRead => .mapRead | .mapEdit => .mapEdit | .mapEditPool => .mapEditPool | .mapResetDraft => .mapResetDraft
  | .mapCommit => .mapCommit | .setCeiling => .setCeiling
  | .park => .park | .unpark => .unpark | .portReset => .portReset
  | .strandedRetry => .strandedRetry | .strandedDiscard => .strandedDiscard | .noticeClear => .noticeClear
  | .getLog => .getLog

/-- The command of an accepted MESSAGE: its payload begins with the kind byte (R209, R221, R225). -/
def messageCommand (kind seq : Byte) (body : List Byte) : Instr :=
  match MsgKind.ofCode kind with
  | some k => k.command seq body
  | none => .unknownKind kind seq body

/-- What the header test finds (R205). -/
inductive HeaderFate where
  | body | oversize | bad
  deriving DecidableEq, Repr

/-- The header test, made when the type byte arrives (R205). -/
def headerFate (type : Byte) (length : Nat) : HeaderFate :=
  if type = messageType then
    if length = 0 then .bad else if Config.maxMessage < length then .oversize else .body
  else if type = reportAckType ∧ length = 0 then .body
  else .bad

/-- The command of a frame whose CRC matches: a MESSAGE has a payload, a REPORT_ACK has none (R205, R206). -/
def acceptedCommand (seq : Byte) : List Byte → Instr
  | kind :: body => messageCommand kind seq body
  | [] => .reportAck seq

/-- The sequence byte, the payload and the CRC of a frame whose header `header` has passed: at the last CRC byte the
CRC decides (R206, R222). None while bytes of the frame are still to come. -/
def takeBody (header : List Byte) (length : Nat) : List Byte → Option (Instr × List Byte)
  | [] => none
  | seq :: tail =>
    if tail.length < length + 2 then none
    else
      let payload := tail.take length
      let crc := (tail.drop length).take 2
      let command := if crc = le 2 (crc16 (header ++ seq :: payload)).toNat then acceptedCommand seq payload
        else .frameCrcError
      some (command, tail.drop (length + 2))

/-- The bytes after a start byte, from the length on: the command the frame brings, and the bytes that follow it. A bad
header and an oversize one are found at the type byte (R205). -/
def takeFrame : List Byte → Option (Instr × List Byte)
  | l0 :: l1 :: type :: rest =>
    let length := leVal [l0, l1]
    match headerFate type length with
    | .bad => some (.framingError .badHeader, rest)
    | .oversize => some (.oversizeFrame length, rest)
    | .body => takeBody [l0, l1, type] length rest
  | [] => none
  | [_] => none
  | [_, _] => none

/-- The bytes on RXD of a receiver that hunts, no gap and no low stop bit among them: the bytes before the start byte
are passed over, and the frame it begins brings its command (R204, R221). None while the frame is not over. A gap or a
low stop bit in it is the command FRAMING_ERROR. -/
def receivedCommand (line : List Byte) : Option (Instr × List Byte) :=
  match line.dropWhile (fun b => b ≠ startByte) with
  | [] => none
  | _ :: bytes => takeFrame bytes

end Sys2Proof.Machine
end

