-- ==== Sys2Proof/WellFormed.lean ====
section
/-! DEFINITION. Which commands are well formed: what the receiver can hand on, and answers that end an operation. -/

namespace Sys2Proof

/-- The payload of a message: the kind byte and at most 299 bytes after it (R205). -/
def payloadFits (body : List Byte) : Bool := decide (body.length + 1 ≤ Config.maxMessage)

/-- The answers of an RDBLK: each stored block is 258 bytes (R110), and the budgets of R109 allow at most five. -/
def readAnswersFit (answers : List ReadAnswer) : Bool :=
  answers.all (fun a => match a with | .noAck => true | .stored bytes => decide (bytes.length = 258)) &&
    decide (1 ≤ answers.length) && decide (answers.length ≤ 5)

/-- A command is well formed when some event outside or inside the part could be it. -/
def Instr.wellFormed : Instr → Bool
  | .read _ b | .write _ b | .verify _ b | .flush _ b | .writeData _ b | .identify _ b | .status _ b
  | .setParameter _ b | .getParameter _ b | .resetLink _ b | .linkSync _ b | .fetchSnapshot _ b | .mapRead _ b
  | .mapEdit _ b | .mapEditPool _ b | .mapResetDraft _ b | .mapCommit _ b | .setCeiling _ b | .park _ b | .unpark _ b
  | .portReset _ b | .strandedRetry _ b | .strandedDiscard _ b | .noticeClear _ b | .getLog _ b => payloadFits b
  | .unknownKind k _ b => payloadFits b && (Machine.MsgKind.ofCode k).isNone
  | .oversizeFrame n => decide (Config.maxMessage < n) && decide (n < 65536)
  | .identEnd _ answers => (Machine.scanIdent 0 0 answers).isSome
  | .rdblkEnd _ answers => readAnswersFit answers
  | .pgblkEnd _ answers => (Machine.scanProgram false 0 0 answers).isSome
  | .sleepEnd _ answers => (Machine.scanCommand 0 0 answers).isSome
  | .wakeEnd _ answers => (Machine.scanCommand 0 0 answers).isSome
  | .opTimeout _ attempts => decide (1 ≤ attempts)
  | .heldMessageRelease | .reportAck _ | .frameCrcError | .framingError _ | .breakDeclared | .linkReset
  | .outboundChoice | .transmissionEnd | .reportTimerExpiry _ | .resetAssert | .deviceReset | .presenceChange _
  | .debounceExpiry _ | .arbiterChoice _ | .quiesceEvaluation | .quiesceTimeout | .startupEnd | .dataTimerExpiry _
  | .grantFormation | .returnSlotAssignment | .holdRelease | .idleTimerExpiry | .parkComplete | .uptimeTick
  | .breakEnd | .skippingEnd => true

end Sys2Proof
end

