-- ==== Sys2Proof/Safety.lean ====
section
/-! DEFINITION. What a safe step and a prompt run are: the steps the part owes at once, and the words the statements
use of a message that is taken at once and answered. -/

namespace Sys2Proof.Machine

/-! ## Safe steps -/

/-- A step is safe when it has a next state: no rule of the spec stops the part. -/
def Safe (s : State) : Prop := ∃ t, step s = .next t

/-! ## The steps the part owes -/

/-- The transmitter is free and something waits for it (R215). -/
def State.owesOutbound (s : State) : Bool := decide (chooseOutbound s ≠ s)

/-- The arbiter of port `p` has a choice to make, or a WAKE to start (R118). -/
def State.owesChoice (s : State) (p : Port) : Bool := decide (arbitrate p s ≠ s)

/-- The internal steps that are due now. The rules place them at the event that makes them due, or at an event of
their own right after it (log entry 1). -/
def State.owed (s : State) : List Instr :=
  (if s.link.resetWait = .due then [.linkReset] else []) ++
    (if s.owesOutbound then [.outboundChoice] else []) ++
    (if s.link.heldMessage.isSome ∧ s.link.pendingReply.isNone then [.heldMessageRelease] else []) ++
    (allPorts.filter s.owesChoice).map Instr.arbiterChoice ++
    (if evalQuiesce s ≠ s then [.quiesceEvaluation] else []) ++
    (if s.parkCondition then [.parkComplete] else []) ++
    (if s.mapStore.ready = false ∧ s.startupCondition then [.startupEnd] else [])

/-- A queue is prompt from `s` when a command that comes from outside finds no internal step due: the steps the part
owes come first. Without it the commands of a queue may come in any order, as the rules' two orders of near events. -/
def prompt : List Instr → State → Bool
  | [], _ => true
  | i :: rest, s =>
    (s.resetLow || s.owed.isEmpty || s.owed.contains i) &&
      (match exec i { s with pending := rest } with
      | .next t => prompt rest t
      | .fault _ => false
      | .refused _ => false)

/-! ## Invariants -/

/-- A commit in progress carries the generation above the active one, and after its commit point the active one
(R144, R151). -/
def CommitGood (s : State) : Prop :=
  ∀ c, s.mapStore.commit = some c →
    if c.pointReached then c.generation = s.mapStore.active.generation
    else c.generation.toNat = s.mapStore.active.generation.toNat + 1

/-- The maps are as start-up and commits leave them: until start-up ends no map is in force and no commit runs
(R3, R143), and a commit is as `CommitGood` says. -/
def MapsGood (s : State) : Prop :=
  CommitGood s ∧ (s.mapStore.ready = false → s.mapStore.commit = none ∧ s.mapStore.active.generation = 0)

/-- The states a slot can be found in later, while one request holds it (the table of R23). -/
def ReqState.laterStates : ReqState → List ReqState
  | .held => [.held, .active, .settling, .aborting, .reporting]
  | .active => [.active, .settling, .aborting, .reporting]
  | .settling => [.settling, .reporting]
  | .aborting => [.aborting, .reporting]
  | .reporting => [.reporting]

/-- Two requests overlap and at least one of them is a WRITE (R31). -/
def Request.conflicts (a b : Request) : Bool :=
  match a.range, b.range with
  | some g, some h => g.overlaps h && (decide (a.kind = .write) || decide (b.kind = .write))
  | _, _ => false

/-- Of two requests that conflict, one is over, or one is held by the other (R31, R32). -/
def OverlapGood (s : State) : Prop :=
  ∀ t u a b, t ≠ u → s.request t = some a → s.request u = some b → a.conflicts b = true →
    a.state = .reporting ∨ b.state = .reporting ∨ (a.state = .held ∧ u ∈ a.holdList) ∨ (b.state = .held ∧ t ∈ b.holdList)

/-- The admission-order list holds the tags of the occupied slots, without duplicates (R22). -/
def TableGood (s : State) : Prop :=
  s.table.admissionOrder.Nodup ∧ ∀ t, t ∈ s.table.admissionOrder ↔ (s.request t).isSome = true

/-- While the queue is HALTED every occupied slot is in ABORTING or REPORTING (R27, R130). -/
def HaltGood (s : State) : Prop :=
  s.halted = true → ∀ t r, s.request t = some r → r.state = .aborting ∨ r.state = .reporting

/-- No counter of the first is above the same counter of the second (R217). -/
def LinkCounters.atMost (x y : LinkCounters) : Prop :=
  x.framesAccepted ≤ y.framesAccepted ∧ x.crcErrors ≤ y.crcErrors ∧ x.framingErrors ≤ y.framingErrors ∧
    x.duplicateMessages ≤ y.duplicateMessages ∧ x.sequenceErrors ≤ y.sequenceErrors ∧
    x.reportsResent ≤ y.reportsResent ∧ x.linkLostEvents ≤ y.linkLostEvents ∧ x.linkResets ≤ y.linkResets ∧
    x.breaks ≤ y.breaks ∧ x.oversizeFrames ≤ y.oversizeFrames

/-- No statistic of the first is above the same statistic of the second (R124). -/
def PortStats.atMost (x y : PortStats) : Prop :=
  x.blocksRead ≤ y.blocksRead ∧ x.blocksProgrammed ≤ y.blocksProgrammed ∧ x.laneRetries ≤ y.laneRetries ∧
    x.opTimeouts ≤ y.opTimeouts ∧ x.checkFailures ≤ y.checkFailures ∧ x.programFailures ≤ y.programFailures

/-- The window holds at most four reports, each under a sequence number of its own (R211). -/
def WindowGood (s : State) : Prop :=
  s.link.window.length ≤ Config.windowSize ∧ (s.link.window.map (·.seq)).Nodup

/-- The pending set is in ascending key order, which is one instance to a key, a port with the port kinds alone, every
count from 1 to 255; and the notice-order list holds exactly the keys of the enabled UNREPORTED instances, each once
(R172, R176). -/
def NoticesGood (s : State) : Prop :=
  (s.notices.pending.map (fun n => n.key.rank)).Pairwise (· < ·) ∧
    (∀ n ∈ s.notices.pending, n.key.port.isSome = n.key.kind.isPortKind ∧ 1 ≤ n.count ∧ n.count ≤ 255 ∧
      ∀ q f, n.report = .sent q f → f ≤ 255) ∧
    s.notices.order.Nodup ∧ ∀ k, k ∈ s.notices.order ↔ ∃ n ∈ s.notices.pending, n.key = k ∧ n.report = .unreported ∧
      s.params.noticeEnable.getLsbD (k.kind.code - 1) = true

/-- Which of the three places that R76 gives the copies of a block a staging slot takes: the one reserved for data to come
(FILLING), the copy held (DIRTY or STRANDED), or the copy being programmed (DRAINING). -/
inductive CopyPlace where
  | reserved | held | draining
  deriving DecidableEq, Repr

/-- The place a staging slot takes, and the block it takes it for; a FREE one takes none (R71, R76). -/
def StagingSlot.place : StagingSlot → Option (CopyPlace × Nat)
  | .free => none
  | .filling x _ _ => some (.reserved, x)
  | .dirty x _ _ => some (.held, x)
  | .draining x _ _ => some (.draining, x)
  | .stranded x _ _ _ => some (.held, x)

/-- The drain-order list holds the DIRTY slots, each once (R77), and no two slots hold one block, or program one (R76). -/
def StagingGood (s : State) : Prop :=
  s.staging.drainOrder.Nodup ∧ (∀ i, i ∈ s.staging.drainOrder ↔ (s.slot i).isDirty = true) ∧
    ∀ i j c, c.1 ≠ .reserved → (s.slot i).place = some c → (s.slot j).place = some c → i = j

/-- Slot `i` is reserved for block `x` of the ACTIVE WRITE of owner `o`, under its current grant, and the block has not
arrived (R52, R56, R72). -/
def State.awaits (s : State) (o : Owner) (i : SlotNo) (x : Nat) : Prop :=
  ∃ r g w a k, s.request o.tag = some r ∧ r.admission = o.admission ∧ r.range = some g ∧
    s.writeRecord o.tag = some w ∧ w.grant = some a ∧ a.slots[k]? = some i ∧ a.first + k ∉ a.received ∧
    x = g.first + (a.first + k)

/-- The record of a WRITE fits its request: the request is an ACTIVE WRITE, its blocks done are those of its earlier grants
and those received under its current one, which waits for a block, and no more has been granted than asked (R49 to R51, R56). -/
def WriteRecord.fits (w : WriteRecord) (r : Request) : Prop :=
  r.kind = .write ∧ r.state = .active ∧ ∃ g, r.range = some g ∧ w.next ≤ g.count ∧
    match w.grant with
    | none => r.blocksDone = w.next
    | some a => a.first + a.slots.length = w.next ∧ r.blocksDone = a.first + a.received.length ∧
      a.received.length < a.slots.length ∧ a.received.Nodup ∧ ∀ n ∈ a.received, a.first ≤ n ∧ n < w.next

/-- The Data Mover's records fit the requests: a write record fits its WRITE, a fetch record stands for an ACTIVE or ABORTING
READ or VERIFY, a HELD request has no block done, a WRITE has a range, and the FILLING slots are those that current grants
wait for (R49, R72, R73). -/
def RecordsGood (s : State) : Prop :=
  (∀ t w, s.writeRecord t = some w → ∃ r, s.request t = some r ∧ w.fits r) ∧
  (∀ t f, s.fetchRecord t = some f → ∃ r, s.request t = some r ∧ (r.kind = .read ∨ r.kind = .verify) ∧
    (r.state = .active ∨ r.state = .aborting)) ∧
  (∀ t r, s.request t = some r → (r.state = .held → r.blocksDone = 0) ∧ (r.kind = .write → r.range.isSome = true)) ∧
  ∀ i x o, (∃ m, s.slot i = .filling x o m) ↔ s.awaits o i x

/-- The table, the staging buffer and the Data Mover's records, together. -/
def StageGood (s : State) : Prop :=
  TableGood s ∧ HaltGood s ∧ OverlapGood s ∧ StagingGood s ∧ RecordsGood s

/-! ## Maps -/

/-- The PBN lies in the extent, on the extent's port (R2). -/
def Extent.occupies (e : Extent) (n : Nat) : Prop := e.base.toNat ≤ n ∧ n < e.base.toNat + e.length.toNat

/-- The enabled extents of the map never overlap in logical blocks, never overlap in physical blocks on one port, and
never include PBN 0 or PBN 1: the law of R5. -/
def Map.apart (m : Map) : Prop :=
  (∀ i : Fin 8, m.extents[i].enabled = true → 2 ≤ m.extents[i].base.toNat) ∧
  ∀ i j : Fin 8, i ≠ j → m.extents[i].enabled = true → m.extents[j].enabled = true →
    (∀ x, ¬ (m.extents[i].covers x = true ∧ m.extents[j].covers x = true)) ∧
    (m.extents[i].port = m.extents[j].port → ∀ n, ¬ (m.extents[i].occupies n ∧ m.extents[j].occupies n))

/-- The map passes the structural checks of R5. -/
def Map.structural (m : Map) : Prop :=
  m.apart ∧ ∀ i : Fin 8, m.extents[i].enabled = true → 1 ≤ m.extents[i].length.toNat ∧
    m.extents[i].first.toNat + m.extents[i].length.toNat ≤ 0x1000000 ∧
    m.extents[i].base.toNat + m.extents[i].length.toNat ≤ 262144

/-! ## Ports and the commit -/

/-- The phase of the commit is the one that writes records of this state (R148, R150). -/
def Commit.writes (c : Commit) : RecordState → Prop
  | .tentative => c.phase = .tentative
  | .final => c.phase = .final

/-- A map write of a target still in the set is in flight on the port. -/
def PortRecord.live (x : PortRecord) : Prop := ∃ o w g k, x.op = some o ∧ o.user = .mapWrite w g k true

/-- The port is a commit target after the commit point and before its own FINAL write: the exception of R152. -/
def MapStore.awaitsFinal (m : MapStore) (p : Port) : Prop :=
  ∃ c, m.commit = some c ∧ c.pointReached = true ∧ ∃ x ∈ c.targets, x.port = p ∧ x.stage = .tentativeWritten

/-- The finding is none, or a record whose map obeys the law of R5. -/
def Finding.apart : Finding → Prop
  | .nothing => True
  | .found _ m => m.apart

/-- The operation's user fits the commit: a map write of a live target writes the record of the commit in progress, and a
FINAL one of any other is suspended, its port in DEBOUNCE (R99, R147, R148, R150). -/
def Operation.fits (o : Operation) (m : MapStore) (p : Port) : Prop :=
  ∀ w g k b, o.user = .mapWrite w g k b →
    if b then ∃ c, m.commit = some c ∧ (∃ x ∈ c.targets, x.port = p) ∧ g = c.generation ∧ k = m.draft.pool ∧ c.writes w.state
    else w.state = .final → o.suspended = true

/-- A port's record fits the Map Store: an EMPTY port has no operation in flight (R100), a POOLED port's newest FINAL record
carries the active generation and pool id but in the one exception of R152, a classified port that has not failed has a
member record, and the findings of a probe hold maps that obey R5 (R102). -/
def PortRecord.fits (x : PortRecord) (m : MapStore) (p : Port) : Prop :=
  (x.cls = .empty → x.op = none) ∧
  (x.cls = .pooled → (∃ y, x.member = some y ∧ y.newest = some (m.active.generation, m.active.pool)) ∨ m.awaitsFinal p) ∧
  (x.cls.targetable = true → x.member.isSome = true) ∧
  (∀ pr, x.probe = some pr → x.cls = .probe ∧ pr.findingA.apart ∧ pr.findingB.apart) ∧
  ∀ o, x.op = some o → o.fits m p

/-- A target fits its commit and the port it names (R147 to R153). -/
def Target.fits (x : Target) (y : PortRecord) (c : Commit) : Prop :=
  (∀ w, x.ask = some w → c.writes w.state ∧ ¬ y.live) ∧
  (x.stage = .tentativeWritten → c.phase = .final ∨ (c.phase = .tentative ∧ x.ask = none ∧ ¬ y.live)) ∧
  (x.stage = .awaitingTentative → c.phase ≠ .final) ∧
  (x.stage = .finalWritten → c.pointReached = true)

/-- The commit fits the ports; every target but one on port `q` is a port of a targetable class. -/
def State.commitFits (s : State) (q : Option Port) (c : Commit) : Prop :=
  s.mapStore.draft.apart ∧ (c.targets.map (·.port)).Nodup ∧
  (c.pointReached = true → c.phase = .final ∧ c.generation = s.mapStore.active.generation ∧
    s.mapStore.draft.pool = s.mapStore.active.pool) ∧
  ∀ x ∈ c.targets, x.fits (s.port x.port) c ∧ (some x.port ≠ q → (s.port x.port).cls.targetable = true)

/-- The active map obeys R5, and the ports and the commit fit it. -/
def State.portsFit (s : State) (q : Option Port) : Prop :=
  s.mapStore.active.apart ∧ (∀ p, (s.port p).fits s.mapStore p) ∧ ∀ c, s.mapStore.commit = some c → s.commitFits q c

/-- Before start-up ends no commit is in progress and no port has a class that only the table of R104 gives (R104, R159). -/
def State.startsClear (s : State) : Prop :=
  s.mapStore.ready = false → s.mapStore.commit = none ∧ ∀ p, (s.port p).cls.targetable = false

/-- The laws of the ports and the Map Store (R5, R100, R152), with what keeps them. -/
def PortsGood (s : State) : Prop := s.portsFit none ∧ s.startsClear

/-! ## A message taken at once, and its answer -/

/-- A message under sequence number `q` is taken at once and processed: the receiver can take it, nothing is held or
pending, no link reset is awaited, and `q` is E (R206, R208). -/
def State.takes (s : State) (q : Byte) : Prop :=
  s.receives = true ∧ s.link.resetWait = .noReset ∧ s.link.heldMessage = none ∧ s.link.pendingReply = none ∧
    q = s.link.expected

/-- The Link Controller after it has taken a message under `q` and its reply is pending: FRAMES_ACCEPTED has counted
the frame, the receiver hunts, E has moved on, the reply is in the cache and pending (R206, R208, R209). -/
def Link.replied (l : Link) (q : Byte) (payload : List Byte) (e : ReplyEffect) : Link :=
  { l with
    receiver := .hunting
    counters := { l.counters with framesAccepted := satInc l.counters.framesAccepted }
    expected := l.expected + 1
    cache := some ⟨q, payload, .nothing⟩
    pendingReply := some ⟨q, payload, e⟩ }

/-- The state `s` with that Link Controller, and nothing else changed. -/
def State.replied (s : State) (q : Byte) (payload : List Byte) (e : ReplyEffect := .nothing) : State :=
  { s with link := s.link.replied q payload e }

/-! ## The end of an event -/

/-- The seven conditions of R161 hold, with `code` as IDLE_CODE: ACTIVE, READY, the table all FREE, staging quiet, no
commit, no lane operation in flight, and a code that is not 0. -/
def State.idleAllows (s : State) (code : Nat) : Prop :=
  s.power.state = .active ∧ s.mapStore.ready = true ∧ (∀ t, s.request t = none) ∧
    (∀ i, (s.slot i).isFree = true ∨ (s.slot i).isStranded = true) ∧ s.mapStore.commit = none ∧
    (∀ p, (s.port p).op = none) ∧ code ≠ 0

/-- `t` is `s`, but for the link, after what the end of an event brings where no staging slot can have changed: the
idle timer runs exactly while its conditions hold (R161), and in LOW_POWER and PARKED a port left idle may have been
asked for SLEEP (R164). Every other port, and everything else, is as in `s`. -/
def State.restsAs (s t : State) : Prop :=
  t.table = s.table ∧ t.mover = s.mover ∧ t.staging = s.staging ∧ t.mapStore = s.mapStore ∧ t.notices = s.notices ∧
    t.log = s.log ∧ t.params = s.params ∧ t.freeDraws = s.freeDraws ∧ t.power.state = s.power.state ∧
    t.power.idleTimer = (if t.idleConditions then s.power.idleTimer.or s.idleExpiry else none) ∧
    (∀ p, t.port p = { s.port p with engine := (t.port p).engine, op := (t.port p).op }) ∧
    (∀ p, s.resting = false ∨ s.laneIdle p = false → t.port p = s.port p ∧ t.mark p = s.mark p)

/-- The same where staging slots may have changed: the pressure flag is evaluated first (R88). -/
def State.endsAs (s t : State) : Prop := (evalPressure s).restsAs t

/-! ## Tagged requests as commands -/

/-- The command that carries a tagged request. -/
def ReqKind.command (k : ReqKind) (q : Byte) (body : List Byte) : Instr :=
  match k with
  | .read => .read q body
  | .write => .write q body
  | .verify => .verify q body
  | .flush => .flush q body

/-- The reply that refuses a tagged request: kind, status, tag, detail as four bytes, and 0FFH for the state (R226). -/
def refusedPayload (k : ReqKind) (st tag : Byte) (detail : Nat) : List Byte := k.code :: st :: tag :: (le 4 detail ++ [0xFF])

/-- The reply that admits a tagged request: the admission number, and the state the slot has taken (R226). -/
def acceptedPayload (k : ReqKind) (t : Tag) (number : Word32) (state : Byte) : List Byte :=
  k.code :: 0x00 :: byte t.val :: (le 4 number.toNat ++ [state])

/-- Checks 2 to 5 of R25 pass for tag `t`: READY, RUNNING, no commit, slot FREE. -/
def State.freeFor (s : State) (t : Tag) : Prop :=
  s.mapStore.ready = true ∧ s.table.snapshot = none ∧ s.mapStore.commit = none ∧ s.request t = none

/-- Checks 6 and 7 of R25 pass: 1 to 64 blocks, all below the ceiling (R9, R28). -/
def State.counts (s : State) (g : BlockRange) : Prop :=
  1 ≤ g.count ∧ g.count ≤ 64 ∧ g.first + g.count - 1 < s.mapStore.ceiling

/-- The block `x` lies in the range (R1). -/
def BlockRange.has (g : BlockRange) (x : Nat) : Prop := g.first ≤ x ∧ x < g.first + g.count

/-- `y` is the lowest block of the range with property `P`. -/
def BlockRange.lowest (g : BlockRange) (P : Nat → Prop) (y : Nat) : Prop := g.has y ∧ P y ∧ ∀ z, g.first ≤ z → z < y → ¬ P z

/-- Checks 8 to 10 of R25 pass: every block is mapped, writable where it is to be written, and available. -/
def State.serves (s : State) (k : ReqKind) (g : BlockRange) : Prop :=
  ∀ x, g.has x → ∃ pl, s.translate x = some pl ∧ s.placeAvailable pl = true ∧ (k = .write → pl.access = .readWrite)

/-- The occupied slots that block a request of kind `k` for range `g`: their ranges overlap and one of the two is a
WRITE (R31). -/
def State.blockers (s : State) (k : ReqKind) (g : BlockRange) : List Tag :=
  allTags.filter (fun u => match s.request u with
    | some r => r.range.any (fun h => h.overlaps g && (decide (r.kind = .write) || decide (k = .write)))
    | none => false)

/-- The effective THROUGH flag of a WRITE, READ or VERIFY (R36). -/
def State.throughFor (s : State) (k : ReqKind) (flags : Byte) : Bool :=
  flags.getLsbD 1 || (decide (k = .write) && !s.params.writeBack)

/-- Power Control after an admission: ACTIVE, the idle timer stopped, marks CLEAR where LOW_POWER or park was left
(R30, R169). -/
def Power.woken (p : Power) : Power :=
  ⟨.active, none, if p.state = .active then p.marks else Vector.replicate 4 .clear⟩

/-- The state `s` with the slot of tag `t` taken by `r`: the admission counter, the admission order, the recent-request
list and Power Control follow (R29, R30, R187). -/
def State.admitted (s : State) (t : Tag) (r : Request) : State :=
  { s with
    table := { s.table with
      slots := s.table.slots.set t (some r), admissionOrder := s.table.admissionOrder ++ [t]
      counter := s.table.counter + 1 }
    log := { s.log with recent := (⟨t, r.kind, r.range, r.urgent, r.through⟩ :: s.log.recent).take 3 }
    power := s.power.woken }

/-- `t` has every request of `s` but that of tag `x` still in its slot, as the same request. -/
def State.keepsOthers (s t : State) (x : Tag) : Prop :=
  ∀ u, u ≠ x → (s.request u = none → t.request u = none) ∧
    ∀ r, s.request u = some r → ∃ q, t.request u = some q ∧ q.kind = r.kind ∧ q.range = r.range ∧
      q.urgent = r.urgent ∧ q.through = r.through ∧ q.admission = r.admission ∧ q.state ∈ r.state.laterStates

/-- The WRITE of tag `u` waits for a grant: it is ACTIVE without a current grant, and blocks remain (R50). -/
def State.waits (s : State) (u : Tag) : Prop :=
  ∃ r g w, s.request u = some r ∧ r.kind = .write ∧ r.state = .active ∧ r.range = some g ∧ s.writeRecord u = some w ∧
    w.grant = none ∧ w.next < g.count

/-- The READ of tag `u` is eligible for a return slot (R60). -/
def State.wantsReturn (s : State) (u : Tag) : Prop :=
  ∃ r g f, s.request u = some r ∧ r.kind = .read ∧ r.state = .active ∧ r.range = some g ∧ s.fetchRecord u = some f ∧
    f.fetch = none ∧ f.cursor < g.count

/-! ## Messages as commands -/

/-- The command brings the message of kind byte `k`, sequence byte `q` and fields `body` (R209). -/
def carries (c : Instr) (k q : Byte) (body : List Byte) : Prop :=
  (∃ m : MsgKind, k = m.code ∧ c = m.command q body) ∨ (MsgKind.ofCode k = none ∧ c = .unknownKind k q body)

/-- The Link Controller after a frame has passed its CRC check: FRAMES_ACCEPTED counts it, the receiver hunts (R206). -/
def Link.accepted (l : Link) : Link :=
  { l with receiver := .hunting, counters := { l.counters with framesAccepted := satInc l.counters.framesAccepted } }

/-- Some instance of the list is of an enabled kind (R181). -/
def State.anyEnabled (s : State) (ns : List Notice) : Bool :=
  ns.any (fun n => s.params.noticeEnable.getLsbD (n.key.kind.code - 1))

/-- The notices without the instances that `out` names, ATTN evaluated (R180, R181). -/
def State.noticesWithout (s : State) (out : Notice → Bool) : Notices :=
  { pending := s.notices.pending.filter (fun n => !out n)
    order := s.notices.order.filter (fun k => !s.notices.pending.any (fun n => out n && decide (n.key = k)))
    attn := s.link.lost || s.anyEnabled (s.notices.pending.filter (fun n => !out n)) }

/-! ## Raisings -/

/-- The instance of key `k` after a raising with detail `d`, from the instance before it (R174). -/
def raisedOnce (k : NoticeKey) (d : NoticeDetail) : Option Notice → Notice
  | none => ⟨k, 1, d, .unreported⟩
  | some n => ⟨k, min (n.count + 1) 255, d, match n.report with
    | .sent q fresh => .sent q (min (fresh + 1) 255)
    | .unreported | .reported => .unreported⟩

/-- The instance of key `k` after one raising with each detail of `ds` in turn (R174). -/
def raisedEach (k : NoticeKey) (ds : List NoticeDetail) (o : Option Notice) : Option Notice :=
  ds.foldl (fun o d => some (raisedOnce k d o)) o

/-- The number of the `n`th history entry after the one numbered `x` (R190). -/
def laterNumber : Nat → Word32 → Word32
  | 0, x => x
  | n + 1, x => laterNumber n (if x = 0xFFFFFFFF then 1 else x + 1)

/-- The pressure flag after an evaluation, and the notice it raises where it becomes set, from the flag before, the number
of non-FREE slots and HIGH_WATER: set at HIGH_WATER, clear at HIGH_WATER − 4, held between (R88, R89). -/
def pressureAfter (was : Bool) (nonFree high : Nat) : Bool :=
  if was then decide (high < nonFree + 4) else decide (high ≤ nonFree)

/-! ## A request fault that halts the queue -/

/-- The work of owner `o` is dropped when the request of tag `t` faults and the queue halts: it is the faulting request,
or another ACTIVE one without a fetch in flight (R57, R65, R130, R131). -/
def State.droppedBy (s : State) (t : Tag) (o : Owner) : Bool :=
  (s.request o.tag).any (fun r => decide (r.admission = o.admission) &&
    (decide (o.tag = t) || (decide (r.state = .active) && !s.fetchInFlight o.tag)))

/-- The tag's WRITE record is dropped by such a fault. -/
def State.dropsWrite (s : State) (t v : Tag) : Bool :=
  (s.request v).any (fun r => decide (r.kind = .write) && s.droppedBy t ⟨v, r.admission⟩)

/-- The tag's fetch record is dropped by such a fault. -/
def State.dropsFetch (s : State) (t v : Tag) : Bool :=
  (s.request v).any (fun r => (decide (r.kind = .read) || decide (r.kind = .verify)) && s.droppedBy t ⟨v, r.admission⟩)

/-- The halt lets the owner's request end with its fetch: it is ACTIVE with one in flight, and not the faulting one. -/
def State.abortsOwner (s : State) (t : Tag) (o : Owner) : Bool :=
  (s.request o.tag).any (fun r => decide (r.admission = o.admission) && decide (o.tag ≠ t) &&
    decide (r.state = .active) && s.fetchInFlight o.tag)

/-- The staging slot is FILLING for the WRITE of tag `v`. -/
def State.fillsFor (s : State) (v : Tag) (i : SlotNo) : Bool :=
  match s.slot i with
  | .filling _ o _ => (s.request v).any (fun r => decide (r.kind = .write) && decide (o = ⟨v, r.admission⟩))
  | .free | .dirty .. | .draining .. | .stranded .. => false

/-- A SETTLING FLUSH of which the fault of tag `t` frees the whole flush set: it is GOOD before the halt (R38, R73, R92,
log entry 26). -/
def State.flushedBy (s : State) (t v : Tag) : Bool :=
  (s.request v).any (fun r => decide (r.kind = .flush) && decide (r.state = .settling) && decide (r.flushSet ≠ []) &&
    r.flushSet.all (s.fillsFor t))

/-- The halt ends the request of tag `v` (R130). -/
def State.haltEnds (s : State) (t v : Tag) : Bool :=
  decide (v ≠ t) && !s.flushedBy t v &&
    (s.request v).any (fun r => decide (r.state = .held ∨ r.state = .active ∨ r.state = .settling))

/-- In the event that led from `s` to `t` the request of tag `x` faulted, and the queue halted on it (R127 to R131). The
faulting request reports `st`; every other one is over, or ends ABORTED with its fetch in flight; their work is dropped.
The snapshot is of the fault, its history entry is made, and QUEUE_HALTED is raised; pressure may raise STAGING_HIGH. -/
def State.haltsOn (s t : State) (x : Tag) (st : CompletionStatus) (failing : Option Nat) (cause : HistoryCause) : Prop :=
  ∃ r, s.request x = some r ∧
    t.request x = some { r with
      state := .reporting, status := some st, failingLbn := failing, holdList := [], flushSet := [], settleSet := [] } ∧
    t.table.snapshot = some ⟨x, r.kind, r.range, r.urgent, r.through, st, failing, s.failingPort failing, r.blocksDone,
      (allTags.filter (s.haltEnds x)).length, s.log.nextNumber⟩ ∧
    (∀ v, v ≠ x → s.request v = none → t.request v = none) ∧
    (∀ v q, v ≠ x → s.request v = some q → ∃ p, t.request v = some p ∧ p.kind = q.kind ∧ p.range = q.range ∧
      p.urgent = q.urgent ∧ p.through = q.through ∧ p.admission = q.admission ∧
      (q.state = .reporting ∨ q.state = .aborting → p = q) ∧
      (¬ (q.state = .reporting ∨ q.state = .aborting) → p.holdList = [] ∧ p.flushSet = [] ∧ p.settleSet = []) ∧
      (s.flushedBy x v = true → p.state = .reporting ∧ p.status = some .good) ∧
      (s.haltEnds x v = true → (q.kind ≠ .flush → p.blocksDone = q.blocksDone) ∧
        if q.state = .active ∧ s.fetchInFlight v = true then p.state = .aborting
        else p.state = .reporting ∧ p.status = some .aborted ∧ p.failingLbn = none)) ∧
    (∃ good, (∀ v, v ∈ good → s.flushedBy x v = true) ∧ t.table.completionOrder = s.table.completionOrder ++ good ++
      x :: s.table.admissionOrder.filter (fun v => s.haltEnds x v && !(s.inState .active v && s.fetchInFlight v))) ∧
    t.table.admissionOrder = s.table.admissionOrder ∧ t.table.counter = s.table.counter ∧
    (∀ v, t.writeRecord v = if s.dropsWrite x v then none else s.writeRecord v) ∧
    (∀ v, t.fetchRecord v = if s.dropsFetch x v then none else s.fetchRecord v) ∧
    (∀ n, t.returnSlot n = match s.returnSlot n with
      | .fetching o i y => if s.dropsFetch x o.tag && s.droppedBy x o then .free else .fetching o i y
      | .filled o i y d => if (s.dropsFetch x o.tag && s.droppedBy x o) || s.abortsOwner x o then .free
        else .filled o i y d
      | z => z) ∧
    (∀ i, t.slot i = match s.slot i with
      | .filling y o m => if s.dropsWrite x o.tag && s.droppedBy x o then .free else .filling y o m
      | z => z) ∧
    t.staging.drainOrder = s.staging.drainOrder ∧
    t.log = { s.log with
      ring := (⟨s.log.nextNumber, s.log.uptime, cause, .request, some x, failing, s.failingPort failing, none, 0,
        s.log.recent⟩ :: s.log.ring).take 12
      nextNumber := if s.log.nextNumber = 0xFFFFFFFF then 1 else s.log.nextNumber + 1 } ∧
    (∀ k, k ≠ ⟨.stagingHigh, none⟩ → t.notice k =
      if k = ⟨.queueHalted, none⟩ then some (raisedOnce k (.tag x) (s.notice k))
      else if k = ⟨.logAdded, none⟩ then some (raisedOnce k (.number s.log.nextNumber) (s.notice k))
      else s.notice k) ∧
    t.mapStore = s.mapStore ∧ t.params = s.params

/-- The ABORTING request `r` of owner `w` has ended with its operation: it is REPORTING with ABORTED, its fetch record is
gone and its FETCHING and FILLED return slots are FREE; no other request, no data and no map is touched (R132). -/
def State.abortEnds (s t : State) (w : Owner) (r : Request) : Prop :=
  t.request w.tag = some { r with
    state := .reporting, status := some .aborted, failingLbn := none, holdList := [], flushSet := [], settleSet := [] } ∧
  t.fetchRecord w.tag = none ∧ (∀ u, u ≠ w.tag → t.request u = s.request u ∧ t.fetchRecord u = s.fetchRecord u) ∧
  t.table.completionOrder = s.table.completionOrder ++ [w.tag] ∧ t.table.snapshot = s.table.snapshot ∧
  (∀ n, t.returnSlot n = match s.returnSlot n with
    | .fetching k i y => if k = w then .free else .fetching k i y
    | .filled k i y d => if k = w then .free else .filled k i y d
    | z => z) ∧
  t.mover.writes = s.mover.writes ∧ t.staging.slots = s.staging.slots ∧ t.staging.drainOrder = s.staging.drainOrder ∧
  t.mapStore = s.mapStore ∧ t.params = s.params

/-! ## Validation, targets and quiesce -/

/-- The port is one a commit takes as a target (R20). -/
def State.isTargetPort (s : State) (p : Port) : Bool :=
  decide ((s.port p).cls ∈ [PortClass.pooled, .stale, .foreign, .blank])

/-- The extent at index `i` of the draft fails check `r` of validation (R20). -/
def State.draftFails (s : State) (i : Fin 8) (r : InvalidReason) : Prop :=
  let e := s.mapStore.draft.extents[i]
  e.enabled = true ∧ match r with
    | .zeroLength => e.length.toNat = 0
    | .portNotTarget => s.isTargetPort e.port = false
    | .range => 0x1000000 < e.first.toNat + e.length.toNat ∨ e.base.toNat < 2 ∨
        s.capacity e.port < e.base.toNat + e.length.toNat
    | .overlapLogical => ∃ j, j < i ∧ (s.mapStore.draft.extents[j]).enabled = true ∧
        ∃ x, e.covers x = true ∧ (s.mapStore.draft.extents[j]).covers x = true
    | .overlapPhysical => ∃ j, j < i ∧ (s.mapStore.draft.extents[j]).enabled = true ∧
        (s.mapStore.draft.extents[j]).port = e.port ∧ ∃ n, e.base.toNat ≤ n ∧ n < e.base.toNat + e.length.toNat ∧
        (s.mapStore.draft.extents[j]).base.toNat ≤ n ∧
        n < (s.mapStore.draft.extents[j]).base.toNat + (s.mapStore.draft.extents[j]).length.toNat

/-- Every request slot is FREE and no staging slot is FILLING, DIRTY or DRAINING (R145). -/
def State.quiesced (s : State) : Prop :=
  (∀ t, s.request t = none) ∧ ∀ i, (s.slot i).isFree = true ∨ (s.slot i).isStranded = true

/-- The commit record that a quiesce evaluation leaves of `c` where the condition holds: TENTATIVE, every target's first
map write asked, in the copy slot of the generation's parity (R140, R145, R148). -/
def Commit.asked (c : Commit) : Commit :=
  { c with
    phase := .tentative
    targets := c.targets.map (fun x => { x with
      ask := some ⟨.tentative, if c.generation.toNat % 2 = 1 then 0 else 1⟩ }) }

/-- The class that the table of R104 gives for the newest FINAL record, against the active map. -/
def Map.classOf (active : Map) (newest : Option (Word32 × Word32)) : PortClass :=
  match newest with
  | none => .blank
  | some (g, k) =>
    if k ≠ active.pool then .foreign
    else if g = active.generation then .pooled
    else if g.toNat < active.generation.toNat then .stale
    else .foreign

/-- The commit has ended with `result` in the event of port `p` that led from `s` to `t` (R154): no commit is in progress,
COMMIT_DONE carries the result, the active generation and the two port sets, and every other port that held findings is
classified against the active map. -/
def State.commitEnds (s t : State) (p : Port) (result : CommitResult) (written failed : List Port) : Prop :=
  t.mapStore.commit = none ∧
  t.notice ⟨.commitDone, none⟩ = some (raisedOnce ⟨.commitDone, none⟩
    (.commit result t.mapStore.active.generation written failed) (s.notice ⟨.commitDone, none⟩)) ∧
  ∀ q pr, q ≠ p → (s.port q).cls = .probe → (s.port q).probe = some pr → pr.step = .complete →
    let newest := pr.newest.map (fun m => (m.generation, m.pool))
    (t.port q).probe = none ∧ (t.port q).member = some ⟨pr.capacity, pr.identity, newest⟩ ∧
      (t.port q).cls = t.mapStore.active.classOf newest

/-- The user of a map write that reaches no target any more (R147, step 2); any other user is as it was. -/
def OpUser.orphaned : OpUser → OpUser
  | .mapWrite w g k _ => .mapWrite w g k false
  | .probe => .probe
  | .fetch w x => .fetch w x
  | .drain i => .drain i
  | .power => .power

/-! ## Ports -/

/-- No READ can be given a return slot now: none is eligible, or none of the eight is FREE (R60). -/
def State.returnsSettled (s : State) : Prop := (∀ u, ¬ s.wantsReturn u) ∨ ∀ r, s.returnSlot r ≠ .free

/-- The sleep marks after the class of port `p` becomes `c`: a DECLINED mark of `p` is CLEAR once its class changes
(R164). -/
def State.marksAfter (s : State) (p : Port) (c : PortClass) : Vector SleepMark 4 :=
  if (s.port p).cls ≠ c ∧ s.mark p = .declined then s.power.marks.set p .clear else s.power.marks

/-- The record of a port that a port event has taken to PROBE or to EMPTY (R100, R101): with no operation, member or
findings, the counts 0. At PROBE the engine is as it was, but ASLEEP where the event ended a SLEEP or a WAKE and IDLE
where it ended another operation; at EMPTY it is IDLE. -/
def PortRecord.entered (x : PortRecord) (present : Bool) (st : PortStats) : PortRecord :=
  if present then
    ⟨.probe, none, some ⟨.ident, 0, 0, .nothing, .nothing, 0⟩, match x.op with
      | none => x.engine
      | some o => if o.kind = .sleep ∨ o.kind = .wake then .asleep else .idle, none, none, 0, 0, st⟩
  else ⟨.empty, none, none, .idle, none, none, 0, 0, st⟩

/-- Port `p` has gone to PROBE, or to EMPTY, in the event that led from `s` to `t` (R100, R101); `noted` is the class
PORT_DETACHED carries. An operation in flight only adds to the statistics of the port. With none in flight, and for EMPTY
no DIRTY slot on the port, nothing else changes but for the port's DECLINED mark and for the end of the event. -/
def State.portEntered (s t : State) (p : Port) (present : Bool) (noted : Option PortClass) : Prop :=
  ∃ st, (s.port p).stats.atMost st ∧ t.port p = (s.port p).entered present st ∧
    ((s.port p).op = none → st = (s.port p).stats ∧
      ((present = false → ∀ i x m d, s.slot i = .dirty x m d → s.liesOn p x = false) →
        ∃ ns, (({ s with
            ports := s.ports.set p ((s.port p).entered present st), notices := ns
            power := { s.power with marks := s.marksAfter p (if present then .probe else .empty) } } : State).endsAs t) ∧
          (present = true → ns = s.notices) ∧ (noted = none → ns = s.notices) ∧
          ∀ k c, present = false → noted = some c → ns.pending.find? (fun n => n.key = k) =
            if k = ⟨.portDetached, some p⟩ then some (raisedOnce k (.portClass c) (s.notice k)) else s.notice k))

/-! ## The users of a lane -/

/-- `y` is the first of the list with property `P`. -/
def firstOf {α : Type} (l : List α) (P : α → Prop) (y : α) : Prop := ∃ a b, l = a ++ y :: b ∧ P y ∧ ∀ z ∈ a, ¬ P z

/-- The DIRTY slot `i` may be drained by port `p`: its block is available there and no copy of it is DRAINING (R78). -/
def State.mayDrain (s : State) (p : Port) (i : SlotNo) : Prop :=
  ∃ x m d, s.slot i = .dirty x m d ∧ s.liesOn p x = true ∧ s.available x = true ∧
    ∀ j y n e, s.slot j = .draining y n e → y ≠ x

/-- Slot `i` is the THROUGH candidate of port `p`, read outside park (R78, R118). -/
def State.isThroughCandidate (s : State) (p : Port) (i : SlotNo) : Prop :=
  (s.power.state = .active ∨ s.power.state = .lowPower) ∧
    firstOf s.staging.drainOrder (fun j => s.mayDrain p j ∧ (s.slot j).isThrough = true) i

/-- Slot `i` is the drain candidate of port `p`, read outside park (R78, R118). -/
def State.isDrainCandidate (s : State) (p : Port) (i : SlotNo) : Prop :=
  s.isThroughCandidate p i ∨ ((∀ j, ¬ s.isThroughCandidate p j) ∧
    (s.power.state = .active ∨ s.power.state = .lowPower) ∧ firstOf s.staging.drainOrder (s.mayDrain p) i)

/-- The fetch of tag `t` is the oldest admitted one that waits on port `p` with URGENT as given (R119). -/
def State.isOldestFetch (s : State) (p : Port) (urgent : Bool) (t : Tag) : Prop :=
  (s.port p).cls = .pooled ∧
    firstOf s.table.admissionOrder (fun v => s.waitsOn p v = true ∧ s.isUrgent v = urgent) t

/-- The user that class `n` of R119 has on port `p`. -/
def State.isUser (s : State) (p : Port) (n : Nat) (u : LaneUser) : Prop :=
  match n, u with
  | 1, .probe step => (s.port p).cls = .probe ∧ step ≠ .complete ∧ ∃ pr, (s.port p).probe = some pr ∧ pr.step = step
  | 2, .mapWrite w => ∃ c x, s.mapStore.commit = some c ∧ (∀ m, c.phase ≠ .quiesce m) ∧
      firstOf c.targets (fun z => z.port = p) x ∧ x.ask = some w
  | 3, .fetch t => s.isOldestFetch p true t
  | 4, .drain i => s.isThroughCandidate p i
  | 5, .drain i => s.staging.pressure = true ∧ s.isDrainCandidate p i
  | 6, .fetch t => s.isOldestFetch p false t
  | 7, .drain i => s.isDrainCandidate p i
  | _, _ => False

/-- The place of class `n` in the order of R119: class 6 comes last once the fairness count has reached DRAIN_FAIRNESS
(R120). -/
def State.classPlace (s : State) (p : Port) (n : Nat) : Nat :=
  if n = 6 ∧ s.params.drainFairness ≤ (s.port p).fairness then 8 else n

/-! ## The end of a lane operation -/

/-- The record of a port whose operation has ended (R108, R124). -/
def PortRecord.closed (x : PortRecord) (e : Engine) (st : PortStats) : PortRecord := { x with engine := e, op := none, stats := st }

/-- The statistics after an operation of `n` + 1 commands: `n` more lane retries (R109, R124). -/
def PortStats.retried (x : PortStats) (n : Nat) : PortStats := { x with laneRetries := satAdd x.laneRetries n }

/-- The sleep marks after an operation of port `p` other than SLEEP has ended: a DECLINED mark is CLEAR (R164). -/
def State.marksClosed (s : State) (p : Port) : Vector SleepMark 4 :=
  if s.mark p = .declined then s.power.marks.set p .clear else s.power.marks

/-- The Log Unit after a history entry of port `p` (R117, R189, R190, R192). -/
def State.portLogged (s : State) (p : Port) (c : HistoryCause) (tag : Option Tag) (lbn pbn : Option Nat) (attempts : Nat) : LogUnit :=
  { s.log with
    ring := (⟨s.log.nextNumber, s.log.uptime, c, .port, tag, lbn, some p, pbn, min attempts 255, s.log.recent⟩ ::
      s.log.ring).take 12
    nextNumber := if s.log.nextNumber = 0xFFFFFFFF then 1 else s.log.nextNumber + 1
    errorCount := satInc s.log.errorCount }

/-- The notices of `s` after one raising of LOG_ADDED for its next entry (R190). -/
def State.logAddedTo (s : State) (ns : Notices) : Prop :=
  ∀ k, ns.pending.find? (fun n => n.key = k) = if k = ⟨.logAdded, none⟩
    then some (raisedOnce k (.number s.log.nextNumber) (s.notice k)) else s.notice k

/-- The answers of an RDBLK of `b`, `pre` before the last, do not end it: at most two go unacknowledged and at most two
blocks read are bad, and none is erased or good (R109, R110, R112). -/
def goesOnReading (b : Nat) (pre : List ReadAnswer) : Prop :=
  (pre.filter (fun a => a = .noAck)).length ≤ 2 ∧ (pre.filter (fun a => a ≠ .noAck)).length ≤ 2 ∧
    ∀ bytes, .stored bytes ∈ pre → bytes ≠ List.replicate 258 0xFF ∧
      ¬ (bytes.length = 258 ∧ bytes = storedBlock b (bytes.take 256))

end Sys2Proof.Machine
end

