-- ==== Sys2Proof/Certificates/Slice0/Obligations.lean ====
section
/-! DEFINITION. The statements for the provers. -/

section

open Sys2Proof Sys2Proof.Machine

/-! ## The machine -/

/-- One step takes the command at the front of the queue and carries it out on the queue's rest. -/
def Obligations.StepRunsFrontCommand : Prop :=
  ∀ (c : Instr) (s : State) (rest : List Instr),
    step { s with pending := c :: rest } = exec c { s with pending := rest }

/-- On an empty queue the block idles. This is the model's choice, log entry 3. -/
def Obligations.EmptyQueueIdles : Prop :=
  ∀ s : State, s.pending = [] → step s = .next s

/-- Every command has a next state. It leaves the queue, and the pins, the clock and the uptime but for the commands
that are about them: PRESENCE_CHANGE the presence input it names, RESET_ASSERT and DEVICE_RESET the level of RESETn,
UPTIME_TICK and DEVICE_RESET the clock and the uptime. -/
def Obligations.CommandsLeaveQueueAndPins : Prop :=
  ∀ (c : Instr) (s : State), ∃ t, exec c s = .next t ∧ t.pending = s.pending ∧
    ((∀ p, c ≠ .presenceChange p) → t.presence = s.presence) ∧
    (∀ p, c = .presenceChange p → t.presence = s.presence.set p (!s.presence[p])) ∧
    (c ≠ .resetAssert → c ≠ .deviceReset → t.resetLow = s.resetLow) ∧
    (c ≠ .uptimeTick → c ≠ .deviceReset → t.clock = s.clock ∧ t.log.uptime = s.log.uptime)

/-- The commit, the table, the maps, the overlap, the window, the halt, the notices, the staging buffer with the Data
Mover's records, and the ports are as their rules leave them right after a device reset. -/
def Obligations.InvariantsHoldAtReset : Prop :=
  MapsGood State.reset ∧ TableGood State.reset ∧ OverlapGood State.reset ∧ WindowGood State.reset ∧ HaltGood State.reset ∧
    NoticesGood State.reset ∧ StageGood State.reset ∧ PortsGood State.reset

/-! ## The laws of the device -/

/-- Of two requests that overlap, one of them a WRITE, never two are both in ACTIVE, SETTLING or ABORTING (R32): the
invariant `OverlapGood`, which every step keeps, says that one of them is over or is held by the other. -/
def Obligations.ConflictingRequestsStayApart : Prop :=
  (∀ s t : State, OverlapGood s → step s = .next t → OverlapGood t) ∧
    ∀ (s : State) (x y : Tag) (a b : Request), OverlapGood s → x ≠ y → s.request x = some a → s.request y = some b →
      a.conflicts b = true → ¬ (a.state ∈ [ReqState.active, .settling, .aborting] ∧
        b.state ∈ [ReqState.active, .settling, .aborting])

/-- The window never holds more than four reports, and no two under one sequence number (R211). The pending notices
keep the form of `NoticesGood`: one instance to a key, in ascending key order, a port with the port kinds alone, counts
from 1 to 255 (R172), and the notice-order list holds exactly the keys of the enabled UNREPORTED instances, each once
(R176). -/
def Obligations.WindowKeepsItsForm : Prop :=
  (∀ s t : State, WindowGood s → step s = .next t → WindowGood t) ∧
  (∀ s t : State, NoticesGood s → step s = .next t → NoticesGood t) ∧
  ∀ (s : State) (m n : Notice), NoticesGood s → m ∈ s.notices.pending → n ∈ s.notices.pending → m.key = n.key → m = n

/-- Between two device resets the active generation never decreases (R151). The invariant `PortsGood`, which every step
keeps, holds the laws of the maps and the ports. The enabled extents of the active map never overlap and never include PBN 0
or PBN 1 (R5), so at most one covers a block: the block translates through that extent to its port and PBN, and to nothing
where none covers it (R6). An EMPTY port has no lane operation in flight (R100). A POOLED port's newest FINAL record carries
the active pool id and generation; the one exception is a commit target after the commit point, before its rewrite (R152). -/
def Obligations.ActiveGenerationNeverFalls : Prop :=
  (∀ (c : Instr) (s t : State), MapsGood s → exec c s = .next t →
    MapsGood t ∧ (c ≠ .deviceReset → s.mapStore.active.generation ≤ t.mapStore.active.generation)) ∧
  (∀ s t : State, PortsGood s → step s = .next t → PortsGood t) ∧
  ∀ s : State, PortsGood s →
    (let e := s.mapStore.active.extents;
      (∀ i : Fin 8, e[i].enabled = true → 2 ≤ e[i].base.toNat) ∧
      (∀ i j : Fin 8, i ≠ j → e[i].enabled = true → e[j].enabled = true →
        (∀ x, ¬ (e[i].covers x = true ∧ e[j].covers x = true)) ∧
        (e[i].port = e[j].port → ∀ n, ¬ (e[i].occupies n ∧ e[j].occupies n))) ∧
      (∀ (i : Fin 8) (x : Nat), e[i].enabled = true → e[i].first.toNat ≤ x → x < e[i].first.toNat + e[i].length.toNat →
        s.translate x = some ⟨e[i].port, e[i].base.toNat + (x - e[i].first.toNat), e[i].access⟩) ∧
      ∀ x, (∀ i : Fin 8, e[i].enabled = true → ¬ (e[i].first.toNat ≤ x ∧ x < e[i].first.toNat + e[i].length.toNat)) →
        s.translate x = none) ∧
    (∀ p, (s.port p).cls = .empty → (s.port p).op = none) ∧
    ∀ p, (s.port p).cls = .pooled →
      (∃ y, (s.port p).member = some y ∧ y.newest = some (s.mapStore.active.generation, s.mapStore.active.pool)) ∨
      ∃ c, s.mapStore.commit = some c ∧ c.phase = .final ∧ c.pointReached = true ∧
        ∃ x ∈ c.targets, x.port = p ∧ x.stage = .tentativeWritten

/-- The admission-order list names the occupied slots, each once (R22), and while the queue is HALTED every occupied
slot is in ABORTING or REPORTING (R130). -/
def Obligations.HaltedTableStaysEnded : Prop :=
  ∀ s t : State, TableGood s → HaltGood s → step s = .next t → TableGood t ∧ HaltGood t

/-- While the queue is HALTED no tagged request is admitted (R27), and a slot goes FREE only by the acknowledgment of a
report, by a link reset or by a device reset (R43). The counts of staging slots in the five states always add up to 32 (R71).
The invariant `StageGood`, which every step keeps, holds the laws of the staging buffer: for any one block at most one slot is
DIRTY or STRANDED, at most one is FILLING and at most one is DRAINING (R76), and the drain-order list holds exactly the DIRTY
slots, each once, so at most 32 (R77). -/
def Obligations.SlotsFillAndEmptyByRule : Prop :=
  (∀ (c : Instr) (s t : State) (u : Tag), exec c s = .next t →
    (s.halted = true → s.request u = none → t.request u = none) ∧
    ((s.request u).isSome = true → t.request u = none →
      (∃ n, c = .reportAck n) ∨ c = .breakDeclared ∨ c = .linkReset ∨ c = .deviceReset)) ∧
  (∀ s : State, s.countSlots StagingSlot.isFree + s.countSlots StagingSlot.isFilling + s.countSlots StagingSlot.isDirty +
    s.countSlots StagingSlot.isDraining + s.countSlots StagingSlot.isStranded = 32) ∧
  (∀ s t : State, StageGood s → step s = .next t → StageGood t) ∧
  ∀ s : State, StageGood s →
    (∀ (i j : SlotNo) (x : Nat), (s.slot i).lbn? = some x → (s.slot j).lbn? = some x →
      (((s.slot i).isDirty = true ∨ (s.slot i).isStranded = true) →
        ((s.slot j).isDirty = true ∨ (s.slot j).isStranded = true) → i = j) ∧
      ((s.slot i).isFilling = true → (s.slot j).isFilling = true → i = j) ∧
      ((s.slot i).isDraining = true → (s.slot j).isDraining = true → i = j)) ∧
    s.staging.drainOrder.Nodup ∧ s.staging.drainOrder.length ≤ 32 ∧
    ∀ i, i ∈ s.staging.drainOrder ↔ (s.slot i).isDirty = true

/-- The device error count never decreases but at a device reset, and the link counters and the port statistics never
decrease but at a device reset or at a GET-LOG (R192, R201). A held message may be a GET-LOG. -/
def Obligations.CountersNeverFall : Prop :=
  ∀ (c : Instr) (s t : State), c ≠ .deviceReset → exec c s = .next t →
    s.log.errorCount ≤ t.log.errorCount ∧
    ((∀ q b, c ≠ .getLog q b) → (∀ q b, c ≠ .unknownKind 0x60 q b) → c ≠ .heldMessageRelease →
      s.link.counters.atMost t.link.counters ∧ ∀ p, (s.port p).stats.atMost (t.port p).stats)

/-! ## The resets and the uptime -/

/-- What a device reset leaves, field by field as the rules state it (R3, R13, R46, R49, R68, R94, R142, R171, R184,
R193, R203, R208, R211, R217, R219). -/
def Obligations.ResetValues : Prop :=
  State.reset.params = ⟨50, 20, 40, 24, true, false, 0x02FF, 0, 3⟩ ∧
    (∀ t, State.reset.request t = none) ∧ State.reset.table.admissionOrder = [] ∧
    State.reset.table.completionOrder = [] ∧ State.reset.table.counter = 0 ∧ State.reset.halted = false ∧
    (∀ t, State.reset.writeRecord t = none ∧ State.reset.fetchRecord t = none) ∧
    (∀ r, State.reset.returnSlot r = .free) ∧ (∀ i, State.reset.slot i = .free) ∧
    State.reset.staging.drainOrder = [] ∧ State.reset.staging.pressure = false ∧
    State.reset.mapStore.active = ⟨0, 0, Vector.replicate 8 ⟨false, .readWrite, 0, 0, 0, 0⟩⟩ ∧
    State.reset.mapStore.draft = State.reset.mapStore.active ∧ State.reset.mapStore.ceiling = 0x1000000 ∧
    State.reset.mapStore.ready = false ∧ State.reset.mapStore.commit = none ∧
    State.reset.power.state = .active ∧ State.reset.power.idleTimer = none ∧
    (∀ p, State.reset.mark p = .clear) ∧ State.reset.notices = ⟨[], [], false⟩ ∧
    State.reset.log = ⟨0, [], [], 1, 0⟩ ∧ State.reset.link.lineRate = 0 ∧ State.reset.link.expected = 0 ∧
    State.reset.link.cache = none ∧ State.reset.link.heldMessage = none ∧ State.reset.link.pendingReply = none ∧
    State.reset.link.window = [] ∧ State.reset.link.reportSeq = 0 ∧
    State.reset.link.counters = ⟨0, 0, 0, 0, 0, 0, 0, 0, 0, 0⟩

/-- DEVICE_RESET sets every block to its reset state and releases RESETn. Each port whose presence input is active goes
to DEBOUNCE, with 25 ms to run, and each other port to EMPTY (R97, R98, R230). -/
def Obligations.DeviceResetResult : Prop :=
  ∀ s : State, ∃ t, exec .deviceReset s = .next t ∧ t.resetLow = false ∧ t.presence = s.presence ∧
    t.params = State.reset.params ∧ t.link = State.reset.link ∧ t.table = State.reset.table ∧
    t.mover = State.reset.mover ∧ t.staging = State.reset.staging ∧ t.mapStore = State.reset.mapStore ∧
    t.power = State.reset.power ∧ t.notices = State.reset.notices ∧ t.log = State.reset.log ∧
    ∀ p, t.port p = ⟨if s.presence[p] then .debounce else .empty,
      if s.presence[p] then some ⟨true, t.clock + 25, none⟩ else none, none, .idle, none, none, 0, 0,
      ⟨0, 0, 0, 0, 0, 0⟩⟩

/-- RESET_ASSERT: RESETn is low, TXD is high, ATTN is released, and every lane operation is cut off (R230). The rest
stands until the rising edge, and while RESETn is low the part takes no step but a device reset, though a presence input
may change its level: both are the model's choice, log entry 11. -/
def Obligations.ResetAssertResult : Prop :=
  (∀ s : State, ∃ t, exec .resetAssert s = .next t ∧ t.resetLow = true ∧
    t.notices = { s.notices with attn := false } ∧
    t.link = { s.link with transmission := none } ∧
    (∀ p, t.port p = { s.port p with engine := .idle, op := none }) ∧
    t.table = s.table ∧ t.mover = s.mover ∧ t.staging = s.staging ∧ t.mapStore = s.mapStore ∧ t.params = s.params ∧
    t.power = s.power ∧ t.log = s.log) ∧
  ∀ (c : Instr) (s : State), s.resetLow = true → c ≠ .deviceReset → c ≠ .resetAssert →
    exec c s = .next (match c with
      | .presenceChange p => { s with presence := s.presence.set p (!s.presence[p]) }
      | _ => s)

/-- UPTIME_TICK adds 1 to the uptime, which wraps at 0FFFFFFFFH, and changes nothing else but the model's own clock
(R186, log entry 2). -/
def Obligations.UptimeTickResult : Prop :=
  ∀ s : State, s.resetLow = false →
    exec .uptimeTick s = .next { s with clock := s.clock + 1, log := { s.log with uptime := s.log.uptime + 1 } }

/-! ## The maps and the ceiling -/

/-- SET-CEILING, whole (R14): the four bytes spell the value, least significant first; a value at or below the ceiling
becomes the ceiling and is answered OK, a value above it is refused CEILING_RAISE, both replies carry the ceiling in
force after the message, another length is refused MALFORMED, and no state of the part matters. That the MALFORMED reply
is two bytes, without the ceiling, is the model's reading, log entry 12. Between two device resets the ceiling never
increases. -/
def Obligations.SetCeilingResult : Prop :=
  (∀ (s : State) (q a b c d : Byte), s.takes q →
    (leVal [a, b, c, d] ≤ s.mapStore.ceiling →
      exec (.setCeiling q [a, b, c, d]) s = .next
        (({ s with mapStore := { s.mapStore with ceiling := leVal [a, b, c, d] } } : State).replied q
          [0x35, 0x00, a, b, c, d])) ∧
    (s.mapStore.ceiling < leVal [a, b, c, d] →
      exec (.setCeiling q [a, b, c, d]) s = .next (s.replied q (0x35 :: 0x0E :: le 4 s.mapStore.ceiling)))) ∧
  (∀ (s : State) (q : Byte) (body : List Byte), s.takes q → body.length ≠ 4 →
    exec (.setCeiling q body) s = .next (s.replied q [0x35, 0x01])) ∧
  (∀ (c : Instr) (s t : State), c ≠ .deviceReset → exec c s = .next t → t.mapStore.ceiling ≤ s.mapStore.ceiling)

/-- MAP-RESET-DRAFT, whole (R19, with the checks of R16): it carries no fields, gets OK and copies the whole active map
into the draft, and changes nothing where the two are already equal. -/
def Obligations.MapResetDraftResult : Prop :=
  (∀ (s : State) (q : Byte), s.takes q → s.mapStore.ready = true → s.mapStore.commit = none →
    exec (.mapResetDraft q []) s = .next
      (({ s with mapStore := { s.mapStore with draft := s.mapStore.active } } : State).replied q [0x33, 0x00]) ∧
    (s.mapStore.draft = s.mapStore.active → exec (.mapResetDraft q []) s = .next (s.replied q [0x33, 0x00]))) ∧
  (∀ (s : State) (q : Byte) (body : List Byte), s.takes q → body ≠ [] →
    exec (.mapResetDraft q body) s = .next (s.replied q [0x33, 0x01])) ∧
  (∀ (s : State) (q : Byte), s.takes q → s.mapStore.ready = false →
    exec (.mapResetDraft q []) s = .next (s.replied q [0x33, 0x03])) ∧
  (∀ (s : State) (q : Byte), s.takes q → s.mapStore.ready = true → s.mapStore.commit.isSome = true →
    exec (.mapResetDraft q []) s = .next (s.replied q [0x33, 0x05]))

/-- MAP-EDIT and MAP-EDIT-POOL (R16, R17, R18, R223). With index, enabled, access and port inside their codes
MAP-EDIT replaces all fields of the draft extent at that index with the values carried, and nothing else; outside them it
is refused BAD_PARAMETER. MAP-EDIT-POOL: the draft's pool id takes the value; its extents and generation do not change.
Before that both are refused MALFORMED for a wrong length, then STARTING, then MAP_BUSY. -/
def Obligations.MapEditResult : Prop :=
  (∀ (s : State) (q i en ac po x f0 f1 f2 l0 l1 l2 b0 b1 b2 y0 y1 y2 : Byte), s.takes q → s.mapStore.ready = true →
    s.mapStore.commit = none →
    (∀ (hi : i.toNat < 8) (hp : po.toNat < 4), (en = 0 ∨ en = 1) → (ac = 0 ∨ ac = 1) →
      exec (.mapEdit q [i, en, ac, po, x, f0, f1, f2, l0, l1, l2, b0, b1, b2, y0, y1, y2]) s = .next
        (({ s with mapStore := { s.mapStore with draft := { s.mapStore.draft with
            extents := s.mapStore.draft.extents.set i.toNat
              ⟨decide (en = 1), if ac = 0 then .readWrite else .readOnly, ⟨po.toNat, hp⟩,
               BitVec.ofNat 24 (leVal [f0, f1, f2]), BitVec.ofNat 24 (leVal [l0, l1, l2]),
               BitVec.ofNat 24 (leVal [b0, b1, b2])⟩ } } } : State).replied q [0x31, 0x00])) ∧
    (8 ≤ i.toNat ∨ 4 ≤ po.toNat ∨ (en ≠ 0 ∧ en ≠ 1) ∨ (ac ≠ 0 ∧ ac ≠ 1) →
      exec (.mapEdit q [i, en, ac, po, x, f0, f1, f2, l0, l1, l2, b0, b1, b2, y0, y1, y2]) s =
        .next (s.replied q [0x31, 0x0D])) ∧
    exec (.mapEditPool q [f0, f1, f2, l0]) s = .next
      (({ s with mapStore := { s.mapStore with draft := { s.mapStore.draft with
          pool := BitVec.ofNat 32 (leVal [f0, f1, f2, l0]) } } } : State).replied q [0x32, 0x00])) ∧
  ∀ (s : State) (q : Byte) (body : List Byte), s.takes q →
    (body.length ≠ 17 → exec (.mapEdit q body) s = .next (s.replied q [0x31, 0x01])) ∧
    (body.length ≠ 4 → exec (.mapEditPool q body) s = .next (s.replied q [0x32, 0x01])) ∧
    (s.mapStore.ready = false →
      (body.length = 17 → exec (.mapEdit q body) s = .next (s.replied q [0x31, 0x03])) ∧
      (body.length = 4 → exec (.mapEditPool q body) s = .next (s.replied q [0x32, 0x03]))) ∧
    (s.mapStore.ready = true → s.mapStore.commit.isSome = true →
      (body.length = 17 → exec (.mapEdit q body) s = .next (s.replied q [0x31, 0x05])) ∧
      (body.length = 4 → exec (.mapEditPool q body) s = .next (s.replied q [0x32, 0x05])))

/-- MAP-READ (R15): the three checks in their order, and the selected map's pool id, generation and eight
extents; it changes nothing. -/
def Obligations.MapReadResult : Prop :=
  ∀ (s : State) (q : Byte), s.takes q →
    (∀ body, body.length ≠ 1 → exec (.mapRead q body) s = .next (s.replied q [0x30, 0x01])) ∧
    (∀ sel, s.mapStore.ready = false → exec (.mapRead q [sel]) s = .next (s.replied q [0x30, 0x03])) ∧
    (∀ sel, s.mapStore.ready = true → sel ≠ 0 → sel ≠ 1 →
      exec (.mapRead q [sel]) s = .next (s.replied q [0x30, 0x0D])) ∧
    (s.mapStore.ready = true →
      exec (.mapRead q [0]) s = .next (s.replied q (0x30 :: 0x00 :: 0 ::
        (le 4 s.mapStore.active.pool.toNat ++ le 4 s.mapStore.active.generation.toNat ++
          s.mapStore.active.extents.toList.flatMap extentForm))) ∧
      exec (.mapRead q [1]) s = .next (s.replied q (0x30 :: 0x00 :: 1 ::
        (le 4 s.mapStore.draft.pool.toNat ++ le 4 s.mapStore.draft.generation.toNat ++
          s.mapStore.draft.extents.toList.flatMap extentForm))))

/-! ## Tagged requests -/

/-- The MALFORMED check (R26): a wrong length, a tag above 15, or a flags byte with a bit other than URGENT and
THROUGH is refused in every state, and the refusal changes nothing beyond the link. -/
def Obligations.MalformedRequestsRefused : Prop :=
  ∀ (s : State) (q : Byte) (k : ReqKind) (body : List Byte), s.takes q →
    (if k = .flush then body.length ≠ 1 ∨ 16 ≤ (body.getD 0 0).toNat
      else body.length ≠ 6 ∨ 16 ≤ (body.getD 0 0).toNat ∨ 4 ≤ (body.getD 1 0).toNat) →
    exec (k.command q body) s = .next (s.replied q (refusedPayload k 0x01 (body.headD 0xFF) 0))

/-- Checks 2 to 5 of R25 in their order, for all four kinds: STARTING, QUEUE_HALTED with the snapshot's tag, MAP_BUSY
with the commit phase, TAG_IN_USE with the slot's state. Each refusal is whole: nothing beyond the link changes. -/
def Obligations.RequestsRefusedByState : Prop :=
  ∀ (s : State) (q f a b c n : Byte) (t : Tag) (k : ReqKind), s.takes q → f.toNat < 4 →
    let run := exec (k.command q (if k = .flush then [byte t.val] else [byte t.val, f, a, b, c, n])) s
    (s.mapStore.ready = false → run = .next (s.replied q (refusedPayload k 0x03 (byte t.val) 0))) ∧
    (∀ x, s.mapStore.ready = true → s.table.snapshot = some x →
      run = .next (s.replied q (refusedPayload k 0x04 (byte t.val) x.tag.val))) ∧
    (∀ m, s.mapStore.ready = true → s.table.snapshot = none → s.mapStore.commit = some m →
      run = .next (s.replied q (refusedPayload k 0x05 (byte t.val) m.phase.code.toNat))) ∧
    (∀ r, s.mapStore.ready = true → s.table.snapshot = none → s.mapStore.commit = none → s.request t = some r →
      run = .next (s.replied q (refusedPayload k 0x06 (byte t.val) r.state.code.toNat)))

/-- The BEYOND_CEILING check (R9): a last block at or above the ceiling is refused with the ceiling, whatever the maps
and the ports hold; so is every range that would run past 0FFFFFFH, because the ceiling never exceeds 1000000H. -/
def Obligations.BeyondCeilingRefused : Prop :=
  (State.reset.mapStore.ceiling ≤ 0x1000000 ∧ ∀ (c : Instr) (s t : State), s.mapStore.ceiling ≤ 0x1000000 →
    exec c s = .next t → t.mapStore.ceiling ≤ 0x1000000) ∧
  ∀ (s : State) (q f a b c n : Byte) (t : Tag) (k : ReqKind), s.takes q → f.toNat < 4 → k ≠ .flush → s.freeFor t →
    1 ≤ n.toNat → n.toNat ≤ 64 →
    (s.mapStore.ceiling ≤ leVal [a, b, c] + n.toNat - 1 →
      exec (k.command q [byte t.val, f, a, b, c, n]) s =
        .next (s.replied q (refusedPayload k 0x08 (byte t.val) s.mapStore.ceiling))) ∧
    (s.mapStore.ceiling ≤ 0x1000000 → 0xFFFFFF < leVal [a, b, c] + n.toNat - 1 →
      exec (k.command q [byte t.val, f, a, b, c, n]) s =
        .next (s.replied q (refusedPayload k 0x08 (byte t.val) s.mapStore.ceiling)))

/-- The UNMAPPED check (R10): a READ, WRITE or VERIFY of whose range any block is unmapped is refused with the lowest
such LBN, and none of it is admitted. -/
def Obligations.UnmappedRefused : Prop :=
  ∀ (s : State) (q f a b c n : Byte) (t : Tag) (k : ReqKind) (y : Nat), s.takes q → f.toNat < 4 → k ≠ .flush →
    s.freeFor t → s.counts ⟨leVal [a, b, c], n.toNat⟩ →
    BlockRange.lowest ⟨leVal [a, b, c], n.toNat⟩ (fun x => s.translate x = none) y →
    exec (k.command q [byte t.val, f, a, b, c, n]) s = .next (s.replied q (refusedPayload k 0x09 (byte t.val) y))

/-- The WRITE_PROTECTED check (R11): a mapped WRITE of whose range any block lies in a READ_ONLY extent is refused with
the lowest such LBN. READ and VERIFY are not: where nothing else refuses them they are admitted. -/
def Obligations.WriteProtectedRefused : Prop :=
  ∀ (s : State) (q f a b c n : Byte) (t : Tag), s.takes q → f.toNat < 4 → s.freeFor t →
    s.counts ⟨leVal [a, b, c], n.toNat⟩ →
    (∀ y, (∀ x, BlockRange.has ⟨leVal [a, b, c], n.toNat⟩ x → (s.translate x).isSome = true) →
      BlockRange.lowest ⟨leVal [a, b, c], n.toNat⟩ (fun x => ∃ pl, s.translate x = some pl ∧ pl.access = .readOnly) y →
      exec (.write q [byte t.val, f, a, b, c, n]) s = .next (s.replied q (refusedPayload .write 0x0A (byte t.val) y))) ∧
    (∀ k, k = .read ∨ k = .verify → s.serves k ⟨leVal [a, b, c], n.toNat⟩ →
      ∃ u r, exec (k.command q [byte t.val, f, a, b, c, n]) s = .next u ∧ u.request t = some r ∧ r.kind = k ∧
        ∃ st, u.link = s.link.replied q (acceptedPayload k t s.table.counter st) .nothing)

/-- BAD_COUNT with the count, for 0 blocks or more than 64 (R28), and MEMBER_UNAVAILABLE with the lowest unavailable LBN
(R12), each in its place among the checks of R25. -/
def Obligations.RangeChecksRefuse : Prop :=
  ∀ (s : State) (q f a b c n : Byte) (t : Tag) (k : ReqKind), s.takes q → f.toNat < 4 → k ≠ .flush → s.freeFor t →
    (n.toNat = 0 ∨ 64 < n.toNat →
      exec (k.command q [byte t.val, f, a, b, c, n]) s =
        .next (s.replied q (refusedPayload k 0x07 (byte t.val) n.toNat))) ∧
    (∀ y, s.counts ⟨leVal [a, b, c], n.toNat⟩ →
      (∀ x, BlockRange.has ⟨leVal [a, b, c], n.toNat⟩ x →
        ∃ pl, s.translate x = some pl ∧ (k = .write → pl.access = .readWrite)) →
      BlockRange.lowest ⟨leVal [a, b, c], n.toNat⟩ (fun x => s.available x = false) y →
      exec (k.command q [byte t.val, f, a, b, c, n]) s =
        .next (s.replied q (refusedPayload k 0x0B (byte t.val) y)))

/-- A READ, WRITE or VERIFY that an occupied slot blocks is admitted HELD: its slot holds the record with the blockers as
its hold list, the reply says HELD, and nothing else begins (R29, R30, R31, R36, R187). -/
def Obligations.BlockedRequestIsHeld : Prop :=
  ∀ (s : State) (q f a b c n : Byte) (t : Tag) (k : ReqKind), s.takes q → f.toNat < 4 → k ≠ .flush → s.freeFor t →
    s.counts ⟨leVal [a, b, c], n.toNat⟩ → s.serves k ⟨leVal [a, b, c], n.toNat⟩ →
    s.blockers k ⟨leVal [a, b, c], n.toNat⟩ ≠ [] →
    ∃ u, exec (k.command q [byte t.val, f, a, b, c, n]) s = .next u ∧
      u.link = s.link.replied q (acceptedPayload k t s.table.counter 0x01) .nothing ∧
      (s.admitted t ⟨k, some ⟨leVal [a, b, c], n.toNat⟩, f.getLsbD 0, s.throughFor k f, .held, s.table.counter,
        s.blockers k ⟨leVal [a, b, c], n.toNat⟩, 0, none, none, [], []⟩).endsAs u

/-- A READ, WRITE or VERIFY that no slot blocks is admitted and goes ACTIVE: the reply says ACTIVE, its number is the
admission counter, which adds 1, and every other request stays in its slot (R29, R30, R34, R187). -/
def Obligations.UnblockedRequestGoesActive : Prop :=
  ∀ (s : State) (q f a b c n : Byte) (t : Tag) (k : ReqKind), s.takes q → f.toNat < 4 → k ≠ .flush → s.freeFor t →
    s.counts ⟨leVal [a, b, c], n.toNat⟩ → s.serves k ⟨leVal [a, b, c], n.toNat⟩ →
    s.blockers k ⟨leVal [a, b, c], n.toNat⟩ = [] →
    ∃ u r, exec (k.command q [byte t.val, f, a, b, c, n]) s = .next u ∧
      u.link = s.link.replied q (acceptedPayload k t s.table.counter 0x02) .nothing ∧
      u.request t = some r ∧ r.kind = k ∧ r.range = some ⟨leVal [a, b, c], n.toNat⟩ ∧ r.urgent = f.getLsbD 0 ∧
      r.through = s.throughFor k f ∧ r.admission = s.table.counter ∧ r.state ∈ ReqState.laterStates .active ∧
      u.table.counter = s.table.counter + 1 ∧ u.table.admissionOrder = s.table.admissionOrder ++ [t] ∧
      u.log.recent = (⟨t, k, some ⟨leVal [a, b, c], n.toNat⟩, f.getLsbD 0, s.throughFor k f⟩ :: s.log.recent).take 3 ∧
      u.power.state = .active ∧ s.keepsOthers u t ∧ u.mapStore = s.mapStore ∧ u.params = s.params

/-- The grant a WRITE takes as it is admitted unblocked, where no other WRITE waits: the lowest-numbered FREE slots, as
many as blocks, FREE slots and eight allow, FILLING for its blocks in order; with none FREE it waits (R50, R51, R72). -/
def Obligations.WriteTakesItsGrant : Prop :=
  ∀ (s : State) (q f a b c n : Byte) (t : Tag), s.takes q → f.toNat < 4 → s.freeFor t →
    s.counts ⟨leVal [a, b, c], n.toNat⟩ → s.serves .write ⟨leVal [a, b, c], n.toNat⟩ →
    s.blockers .write ⟨leVal [a, b, c], n.toNat⟩ = [] → (∀ u, ¬ s.waits u) → (∀ u, ¬ s.wantsReturn u) →
    let slots := (allSlots.filter (fun i => (s.slot i).isFree)).take (min n.toNat 8)
    ∃ u, exec (.write q [byte t.val, f, a, b, c, n]) s = .next u ∧
      u.writeRecord t = some (if slots = [] then ⟨s.table.counter, 0, none, none⟩
        else ⟨s.table.counter, slots.length, some ⟨0, slots, [], .unsent⟩, none⟩) ∧
      u.mover.grantOrder = (if slots = [] then s.mover.grantOrder else s.mover.grantOrder ++ [t]) ∧
      (∀ (i : Nat) (h : i < slots.length),
        u.slot slots[i] = .filling (leVal [a, b, c] + i) ⟨t, s.table.counter⟩ (s.throughFor .write f)) ∧
      (∀ i, i ∉ slots → u.slot i = s.slot i) ∧ u.staging.drainOrder = s.staging.drainOrder ∧
      (∀ x, u.request x = if x = t then some ⟨.write, some ⟨leVal [a, b, c], n.toNat⟩, f.getLsbD 0,
        s.throughFor .write f, .active, s.table.counter, [], 0, none, none, [], []⟩ else s.request x) ∧
      u.mover.fetches = s.mover.fetches ∧ u.mover.returns = s.mover.returns ∧ u.mover.fillOrder = s.mover.fillOrder

/-- A FLUSH is admitted with both flags clear and no range. With no slot FILLING, DIRTY or DRAINING it completes GOOD at
once; otherwise it goes to SETTLING and its flush set holds exactly those slots (R26, R29, R37). -/
def Obligations.FlushResult : Prop :=
  ∀ (s : State) (q : Byte) (t : Tag), s.takes q → s.freeFor t →
    let set := allSlots.filter (fun i => (s.slot i).isFilling || (s.slot i).isDirty || (s.slot i).isDraining)
    (set ≠ [] → ∃ u, exec (.flush q [byte t.val]) s = .next u ∧
      u.link = s.link.replied q (acceptedPayload .flush t s.table.counter 0x03) .nothing ∧
      (s.admitted t ⟨.flush, none, false, false, .settling, s.table.counter, [], 0, none, none, set, []⟩).endsAs u) ∧
    (set = [] → ∃ u, exec (.flush q [byte t.val]) s = .next u ∧
      u.link = s.link.replied q (acceptedPayload .flush t s.table.counter 0x05) .nothing ∧
      (({ s with table := { s.table with completionOrder := s.table.completionOrder ++ [t] } } : State).admitted t
        ⟨.flush, none, false, false, .reporting, s.table.counter, [], 0, some .good, none, [], []⟩).endsAs u)

/-! ## Block data -/

/-- A WRITE-DATA is refused by the two checks of R55: MALFORMED for a wrong length, a tag above 15 or an index above 63;
NOT_SOLICITED, with tag and index, where the tag names no ACTIVE WRITE with a current grant that still misses the index.
A refused one changes nothing beyond the link. That the MALFORMED reply sends tag, index and count as 00H is the model's
reading, log entry 12. -/
def Obligations.WriteDataRefused : Prop :=
  ∀ (s : State) (q : Byte), s.takes q →
    (∀ body : List Byte, body.length ≠ 258 ∨ 16 ≤ (body.getD 0 0).toNat ∨ 64 ≤ (body.getD 1 0).toNat →
      exec (.writeData q body) s = .next (s.replied q [0x24, 0x01, 0, 0, 0])) ∧
    (∀ (t : Tag) (i : Byte) (data : List Byte), data.length = 256 → i.toNat < 64 →
      (¬ ∃ r g w x, s.request t = some r ∧ r.kind = .write ∧ r.state = .active ∧ r.range = some g ∧
        s.writeRecord t = some w ∧ w.grant = some x ∧ x.first ≤ i.toNat ∧ i.toNat < x.first + x.slots.length ∧
        i.toNat ∉ x.received) →
      exec (.writeData q (byte t.val :: i :: data)) s = .next (s.replied q [0x24, 0x0C, byte t.val, i, 0]))

/-- A solicited WRITE-DATA is TAKEN (R56, R74, R75, R84): blocks done adds 1 and the reply carries it; the reserved slot
turns DIRTY with the data, its THROUGH mark joined by that of an older DIRTY or STRANDED copy, which leaves the drain
order for it; the data timer restarts while blocks of the grant are missing; and with every block of the request
received a write-back WRITE completes GOOD and a THROUGH one settles. A block that is unavailable on arrival turns its slot
STRANDED with reason MEMBER_LOST, outside the drain order, with SLOT_STRANDED raised: a write-back WRITE goes on or completes
as with the block available, and a THROUGH one, its slot in the settle set, faults MEDIA_ERROR at the block and halts the
queue. That the stranding is handed on last is log entry 14, the model's choice; here no other request depends on the slot, and
none on the copy it supersedes. -/
def Obligations.WriteDataTaken : Prop :=
  ∀ (s : State) (q i : Byte) (t : Tag) (data : List Byte) (r : Request) (g : BlockRange) (w : WriteRecord) (x : Grant)
    (n : SlotNo) (m : Bool) (o : Owner), s.takes q → data.length = 256 → i.toNat < 64 →
    s.request t = some r → r.kind = .write → r.state = .active → r.range = some g → s.writeRecord t = some w →
    w.grant = some x → x.first ≤ i.toNat → i.toNat ∉ x.received → x.slots[i.toNat - x.first]? = some n →
    s.slot n = .filling (g.first + i.toNat) o m →
    let lbn := g.first + i.toNat
    let older := s.newestCopy lbn
    let mark := m || older.any (fun y => (s.slot y).isThrough)
    let lost : StagingSlot := .stranded lbn mark data .memberLost
    let order := match older with
      | none => s.staging.drainOrder
      | some y => s.staging.drainOrder.filter (fun z => z ≠ y)
    let link := s.link.replied q [0x24, 0x00, byte t.val, i, byte (r.blocksDone + 1)] .nothing
    let same (p : Request) : Prop := p.kind = r.kind ∧ p.range = r.range ∧ p.urgent = r.urgent ∧ p.through = r.through ∧
      p.admission = r.admission ∧ p.blocksDone = r.blocksDone + 1
    let count (u : State) : Nat := (allSlots.filter (fun j => (u.slot j).isStranded)).length
    let alone : Prop := (∀ v q, s.request v = some q → n ∉ q.flushSet ∧ n ∉ q.settleSet ∧ ∀ y, older = some y → y ∉ q.flushSet) ∧
      ∀ u f v, s.fetchRecord u = some f → f.fetch = some v → v.stage = .drainWait → v.lbn ≠ lbn
    (s.available lbn = true ∨ (alone ∧ r.through = false) →
      ∃ u p, exec (.writeData q (byte t.val :: i :: data)) s = .next u ∧ u.link = link ∧
        (s.available lbn = true → u.slot n = .dirty lbn mark data ∧ u.staging.drainOrder = order ++ [n]) ∧
        (s.available lbn = false → u.slot n = lost ∧ u.staging.drainOrder = order ∧ u.notice ⟨.slotStranded, none⟩ =
          some (raisedOnce ⟨.slotStranded, none⟩ (.count (count u)) (s.notice ⟨.slotStranded, none⟩))) ∧
        u.request t = some p ∧ same p ∧
        (g.count ≠ r.blocksDone + 1 → p.state = .active ∧ (x.received.length + 1 < x.slots.length →
          u.writeRecord t = some { w with
            grant := some { x with received := x.received ++ [i.toNat] }, timer := some (s.clock + s.params.dataTimeout * 10) })) ∧
        (g.count = r.blocksDone + 1 → u.writeRecord t = none ∧
          (r.through = true → p.state = .settling ∧ n ∈ p.settleSet) ∧
          (r.through = false → p.state = .reporting ∧ p.status = some .good ∧ p.failingLbn = none ∧
            u.table.completionOrder = s.table.completionOrder ++ [t])) ∧
        s.keepsOthers u t ∧ u.mapStore = s.mapStore ∧ u.params = s.params ∧ u.log = s.log) ∧
    (s.available lbn = false → alone → r.through = true → TableGood s → s.table.snapshot = none →
      ∃ u v p, exec (.writeData q (byte t.val :: i :: data)) s = .next u ∧ u.link = link ∧
        v.haltsOn u t .mediaError (some lbn) .memberLost ∧ v.request t = some p ∧ same p ∧
        p.state = (if g.count = r.blocksDone + 1 then .settling else .active) ∧ v.slot n = lost ∧
        v.staging.drainOrder = order ∧ s.keepsOthers v t ∧ v.table.completionOrder = s.table.completionOrder ∧
        (∀ k, v.notice k = if k = ⟨.slotStranded, none⟩ then some (raisedOnce k (.count (count u)) (s.notice k)) else s.notice k) ∧
        v.mapStore = s.mapStore ∧ v.params = s.params ∧ v.log = s.log)

/-- GRANT_FORMATION gives the first waiting WRITE of the admission order its grant: the lowest-numbered FREE slots, as
many as the blocks left, the FREE slots and eight allow (R50, R51, R52, R72). With none waiting nothing is formed. -/
def Obligations.GrantFormationResult : Prop :=
  (∀ (s : State) (t : Tag) (r : Request) (g : BlockRange) (w : WriteRecord) (pre post : List Tag), s.resetLow = false →
    s.table.admissionOrder = pre ++ t :: post → (∀ u, u ∈ pre → ¬ s.waits u) →
    s.request t = some r → r.kind = .write → r.state = .active → r.range = some g → s.writeRecord t = some w →
    w.grant = none → w.next < g.count →
    let slots := (allSlots.filter (fun i => (s.slot i).isFree)).take (min (g.count - w.next) 8)
    slots ≠ [] → ∃ u, exec .grantFormation s = .next u ∧
      u.writeRecord t = some ⟨w.admission, w.next + slots.length, some ⟨w.next, slots, [], .unsent⟩, none⟩ ∧
      (∀ (i : Nat) (h : i < slots.length),
        u.slot slots[i] = .filling (g.first + w.next + i) ⟨t, r.admission⟩ r.through) ∧
      (∀ i, (s.slot i).isFree = false → u.slot i = s.slot i) ∧ u.table = s.table ∧ u.link = s.link ∧
      u.mover.fetches = s.mover.fetches ∧ u.mover.returns = s.mover.returns ∧ u.mover.fillOrder = s.mover.fillOrder ∧
      u.staging.drainOrder = s.staging.drainOrder ∧ u.mapStore = s.mapStore ∧ u.log = s.log ∧ u.params = s.params) ∧
  ∀ s : State, s.resetLow = false → (∀ u, ¬ s.waits u) →
    ∃ u, exec .grantFormation s = .next u ∧ u.link = s.link ∧ s.endsAs u

/-- RETURN_SLOT_ASSIGNMENT gives the lowest-numbered FREE return slot (log entry 18, the model's choice) to the eligible READ
served first, URGENT before the others and the oldest admitted in each group (R60). With no other READ to serve, or no other
return slot FREE, the event ends with it. The fetch of a READ without THROUGH takes the newest staged copy, and its slot is
FILLED; a THROUGH fetch ends the READ MEDIA_ERROR on a STRANDED copy, and promotes a DIRTY or DRAINING one to THROUGH and waits
in DRAIN_WAIT; without a staged copy it waits for the block's port, or ends the READ MEMBER_LOST where the block is unavailable
(R61, R62, R85, R86). -/
def Obligations.ReturnSlotAssignmentResult : Prop :=
  (∀ (s : State) (t : Tag) (r : Request) (g : BlockRange) (f : FetchRecord) (n : RetNo), s.resetLow = false →
    s.request t = some r → r.kind = .read → r.state = .active → r.range = some g →
    s.fetchRecord t = some f → f.fetch = none → f.cursor < g.count →
    (let urgent (u : Tag) : Prop := ∃ q, s.request u = some q ∧ q.urgent = true
     firstOf s.table.admissionOrder (fun u => s.wantsReturn u ∧ urgent u) t ∨
      ((∀ u, s.wantsReturn u → ¬ urgent u) ∧ firstOf s.table.admissionOrder s.wantsReturn t)) →
    s.returnSlot n = .free → (∀ m, m < n → s.returnSlot m ≠ .free) →
    let x := g.first + f.cursor
    let full : Prop := ∀ m, m ≠ n → s.returnSlot m ≠ .free
    let last : Prop := full ∨ ∀ u, u ≠ t → ¬ s.wantsReturn u
    let fetching : ReturnSlot := .fetching ⟨t, r.admission⟩ f.cursor x
    let claimed : State := { s with mover := { s.mover with returns := s.mover.returns.set n fetching } }
    let waiting (stage : FetchStage) : Mover := { s.mover with
      fetches := s.mover.fetches.set t (some ⟨f.admission, f.cursor, some ⟨f.cursor, x, stage, some n⟩⟩)
      returns := s.mover.returns.set n fetching }
    let ends (v : State) : Prop := ∃ u, exec .returnSlotAssignment s = .next u ∧ u.link = s.link ∧ v.endsAs u
    let faults (st : CompletionStatus) (cause : HistoryCause) : Prop := TableGood s → s.table.snapshot = none →
      ∃ u, exec .returnSlotAssignment s = .next u ∧ u.link = s.link ∧ claimed.haltsOn u t st (some x) cause
    ((∀ i, (s.slot i).isFilling = false → (s.slot i).lbn? ≠ some x) →
      (last → ∀ pl, s.translate x = some pl → s.placeAvailable pl = true →
        ends { s with mover := waiting (.portWait pl.port pl.pbn) }) ∧
      (s.available x = false → faults .memberLost .memberLost)) ∧
    (∀ d, r.through = false → s.coherent x = some d → full ∨ (last ∧ f.cursor + 1 = g.count) →
      ends { s with mover := { s.mover with
        fetches := s.mover.fetches.set t (some ⟨f.admission, f.cursor + 1, none⟩)
        returns := s.mover.returns.set n (.filled ⟨t, r.admission⟩ f.cursor x d)
        fillOrder := s.mover.fillOrder ++ [n] } }) ∧
    (r.through = true →
      (∀ i m d why, s.slot i = .stranded x m d why →
        (∀ j m d why, s.slot j = .stranded x m d why → j = i) → faults .mediaError why.cause) ∧
      ((∀ i m d why, s.slot i ≠ .stranded x m d why) →
        (∃ i m d, s.slot i = .dirty x m d ∨ s.slot i = .draining x m d) → last →
        ∀ v : Vector StagingSlot 32, (∀ i, v[i] = match s.slot i with
            | .dirty y m d => .dirty y (m || decide (y = x)) d
            | .draining y m d => .draining y (m || decide (y = x)) d
            | z => z) →
          ends { s with mover := waiting .drainWait, staging := { s.staging with slots := v } }))) ∧
  ∀ s : State, s.resetLow = false → (∀ u, ¬ s.wantsReturn u) →
    ∃ u, exec .returnSlotAssignment s = .next u ∧ u.link = s.link ∧ s.endsAs u

/-- HOLD_RELEASE: after it no HELD request has an empty hold list. A request that had one has gone ACTIVE, or further;
one that had a tag in its list is as it was, or over (R33, R34). -/
def Obligations.HoldReleaseResult : Prop :=
  ∀ s : State, s.resetLow = false → TableGood s → ∃ u, exec .holdRelease s = .next u ∧
    (∀ t r, u.request t = some r → r.state = .held → r.holdList ≠ []) ∧
    (∀ t r, s.request t = some r → ∃ p, u.request t = some p ∧ p.kind = r.kind ∧ p.range = r.range ∧
      p.admission = r.admission ∧ (r.state = .held → r.holdList = [] → p.state ∈ ReqState.laterStates .active) ∧
      (r.state = .held → r.holdList ≠ [] → p.state = .reporting ∨ (p.state = .held ∧ p.holdList = r.holdList))) ∧
    (∀ t, s.request t = none → u.request t = none) ∧ u.link = s.link ∧ u.mapStore = s.mapStore ∧ u.params = s.params

/-- DATA_TIMER_EXPIRY (R54, R126 to R131): the WRITE whose data timer has run out enters REPORTING with DATA_TIMEOUT, its
record is dropped and its FILLING slots go FREE, and the queue halts on it as `haltsOn` says: the snapshot holds it with
the number of its history entry and the number of requests the halt ends, every other request is over or ends with its
operation, and their FILLING slots go FREE too. -/
def Obligations.DataTimerExpiryResult : Prop :=
  ∀ (s : State) (t : Tag) (r : Request) (w : WriteRecord) (m : Nat), s.resetLow = false → TableGood s →
    s.table.snapshot = none → s.request t = some r → r.kind = .write → r.state = .active → s.writeRecord t = some w →
    w.timer = some m → m ≤ s.clock →
    ∃ u p y, s.haltsOn u t .dataTimeout none .dataTimeout ∧
      (∀ i x b, s.slot i = .filling x ⟨t, r.admission⟩ b → u.slot i = .free) ∧
      (∀ i x o b q, s.slot i = .filling x o b → s.request o.tag = some q → q.admission = o.admission → q.kind = .write →
        q.state = .active → s.fetchInFlight o.tag = false → u.slot i = .free) ∧
      (∀ i, (s.slot i).isFilling = false → u.slot i = s.slot i) ∧
      y.aborted = (allTags.filter (s.haltEnds t)).length ∧ exec (.dataTimerExpiry t) s = .next u ∧ u.request t = some p ∧
      p.state = .reporting ∧ p.status = some .dataTimeout ∧ p.failingLbn = none ∧ p.blocksDone = r.blocksDone ∧ p.kind = .write ∧
      p.range = r.range ∧ u.writeRecord t = none ∧ u.table.snapshot = some y ∧ y.tag = t ∧ y.kind = .write ∧
      y.range = r.range ∧ y.status = .dataTimeout ∧ y.failingLbn = none ∧ y.failingPort = none ∧
      y.blocksDone = r.blocksDone ∧ y.entry = s.log.nextNumber ∧
      (∀ v x, u.request v = some x → x.state = .aborting ∨ x.state = .reporting) ∧
      (∀ v, s.request v = none → u.request v = none) ∧
      (∃ e rest, u.log.ring = e :: rest ∧ e.number = s.log.nextNumber ∧ e.cause = .dataTimeout ∧ e.source = .request ∧
        e.tag = some t ∧ e.lbn = none ∧ e.port = none ∧ e.pbn = none ∧ e.attempts = 0) ∧
      u.log.errorCount = s.log.errorCount ∧ u.mapStore = s.mapStore ∧ u.params = s.params ∧ u.link = s.link

/-- FETCH-SNAPSHOT (R136, R226): MALFORMED with fields, NO_SNAPSHOT while the queue is RUNNING; while it is
HALTED the reply carries every field of the snapshot, which is discarded, and the queue is RUNNING. It touches nothing
else: no request, no member, no power state, no notice. -/
def Obligations.FetchSnapshotResult : Prop :=
  ∀ (s : State) (q : Byte), s.takes q →
    (∀ body, body ≠ [] → exec (.fetchSnapshot q body) s = .next (s.replied q [0x28, 0x01])) ∧
    (s.table.snapshot = none → exec (.fetchSnapshot q []) s = .next (s.replied q [0x28, 0x11])) ∧
    (∀ x, s.table.snapshot = some x → exec (.fetchSnapshot q []) s = .next
      (({ s with table := { s.table with snapshot := none } } : State).replied q
        ([0x28, 0x00, byte x.tag.val, x.kind.code, byte (x.urgent.toNat + 2 * x.through.toNat),
          byte (x.range.isSome.toNat + 2 * x.failingLbn.isSome.toNat + 4 * x.failingPort.isSome.toNat)] ++
          le 3 (match x.range with | some g => g.first | none => 0) ++
          [byte (match x.range with | some g => g.count | none => 0), x.status.code] ++ le 3 (x.failingLbn.getD 0) ++
          [byte (match x.failingPort with | some p => p.val | none => 0), byte x.blocksDone, byte x.aborted] ++
          le 4 x.entry.toNat)))

/-! ## Stranded data -/

/-- STRANDED-RETRY and STRANDED-DISCARD (R90, R91): the checks in their order, and what happens to the STRANDED
slots that the selector names. A retry turns those whose block is available DIRTY, in ascending slot number at the tail of
the drain order, and leaves the rest; a discard frees each with a history entry and its LOG_ADDED, each FREE forms grants,
and pressure is evaluated at the end. With no slot FREE before, or no WRITE waiting, each waiting WRITE in admission order
gets the next freed slot, and the rest stay FREE. The replies carry the counts; that a refusal's are not sent is log entry
12. -/
def Obligations.StrandedResult : Prop :=
  ∀ (s : State) (q : Byte), s.takes q →
    (∀ body : List Byte, body.length ≠ 5 ∨ 2 ≤ (body.getD 0 0).toNat →
      exec (.strandedRetry q body) s = .next (s.replied q [0x50, 0x01]) ∧
      exec (.strandedDiscard q body) s = .next (s.replied q [0x51, 0x01])) ∧
    ∀ sel a b c d : Byte, sel.toNat < 2 →
      let x := leVal [a, b, c, d]
      let named (i : SlotNo) : Bool := (s.slot i).isStranded && (decide (sel = 0) || decide ((s.slot i).lbn? = some x))
      let moved (i : SlotNo) : Bool := named i && (s.slot i).lbn?.any s.available
      let count (f : SlotNo → Bool) : Byte := byte (allSlots.filter f).length
      let slots := allSlots.filter named
      let number (j : Nat) : Word32 := laterNumber j s.log.nextNumber
      let retry := exec (.strandedRetry q [sel, a, b, c, d]) s
      let discard := exec (.strandedDiscard q [sel, a, b, c, d]) s
      (s.mapStore.commit.isSome = true → retry = .next (s.replied q [0x50, 0x05])) ∧
      (s.mapStore.commit = none → sel = 1 → 0x1000000 ≤ x → retry = .next (s.replied q [0x50, 0x0D])) ∧
      (s.mapStore.commit = none → sel = 0 ∨ x < 0x1000000 → ∃ t, retry = .next t ∧
        t.link = s.link.replied q [0x50, 0x00, count moved, count (fun i => named i && !moved i),
          count (fun i => (s.slot i).isStranded && !moved i)] .nothing ∧
        ∀ v : Vector StagingSlot 32,
          (∀ i, v[i] = match s.slot i with
            | .stranded y m data r => if moved i then .dirty y m data else .stranded y m data r
            | z => z) →
          ({ s with staging := { s.staging with
            slots := v, drainOrder := s.staging.drainOrder ++ allSlots.filter moved } } : State).restsAs t) ∧
      (0x1000000 ≤ x → discard = .next (s.replied q [0x51, 0x0D])) ∧
      (x < 0x1000000 → ∃ t, discard = .next t ∧
        t.link = s.link.replied q [0x51, 0x00, count named, count (fun i => (s.slot i).isStranded && !named i)] .nothing ∧
        (∀ i, named i = true → (t.slot i).isFree = true ∨ (t.slot i).isFilling = true) ∧
        (∀ i, named i = false → (s.slot i).isFree = false → t.slot i = s.slot i) ∧
        ((∀ u, ¬ s.waits u) → (∀ i, t.slot i = if named i then .free else s.slot i) ∧ t.mover = s.mover) ∧
        ((∀ i, named i = false) → t.log = s.log) ∧
        ((∃ i, named i = true) → t.log.nextNumber = number slots.length ∧ t.log.ring =
          ((slots.zipIdx.map (fun z => (⟨number z.2, s.log.uptime, .dataDiscarded, .staging, none, (s.slot z.1).lbn?, none,
            none, 0, s.log.recent⟩ : HistoryEntry))).reverse ++ s.log.ring).take 12) ∧
        (∀ waiting : List Tag, waiting.Sublist s.table.admissionOrder → (∀ u, u ∈ waiting ↔ u ∈ s.table.admissionOrder ∧ s.waits u) →
          TableGood s → (∀ i, (s.slot i).isFree = false) ∨ waiting = [] →
          (∀ u i r g w, (u, i) ∈ waiting.zip slots → s.request u = some r → r.range = some g → s.writeRecord u = some w →
            t.slot i = .filling (g.first + w.next) ⟨u, r.admission⟩ r.through ∧
            t.writeRecord u = some ⟨w.admission, w.next + 1, some ⟨w.next, [i], [], .unsent⟩, none⟩) ∧
          (∀ i, named i = true → i ∉ (waiting.zip slots).map (·.2) → t.slot i = .free) ∧
          (∀ u, u ∉ (waiting.zip slots).map (·.1) → t.writeRecord u = s.writeRecord u) ∧
          t.mover.grantOrder = s.mover.grantOrder ++ (waiting.zip slots).map (·.1)) ∧
        t.mover.fetches = s.mover.fetches ∧ t.mover.returns = s.mover.returns ∧ t.mover.fillOrder = s.mover.fillOrder ∧
        (let used := 32 - t.countSlots StagingSlot.isFree;
          t.staging.pressure = pressureAfter s.staging.pressure used s.params.highWater ∧
          ∀ k, t.notice k =
            if k = ⟨.stagingHigh, none⟩ then
              (if t.staging.pressure && !s.staging.pressure then some (raisedOnce k (.count used) (s.notice k))
              else s.notice k)
            else if k = ⟨.logAdded, none⟩ then
              raisedEach k ((List.range slots.length).map (fun j => .number (number j))) (s.notice k)
            else s.notice k) ∧
        t.log.errorCount = s.log.errorCount ∧ t.staging.drainOrder = s.staging.drainOrder ∧ t.table = s.table ∧
        t.mapStore = s.mapStore ∧ t.params = s.params)

/-! ## Ports and lanes -/

/-- PRESENCE_CHANGE and DEBOUNCE_EXPIRY (R62, R98 to R101, R134, R147, R148, R150, R154). A change in DEBOUNCE takes the new
level and starts the 25 ms again, the note kept; from any other class the port goes to DEBOUNCE, a running operation suspended
with the attempts it has made, which are a free value (log entry 8). Where the level has held 25 ms the port goes to PROBE or
to EMPTY; before that (log entry 2), and outside DEBOUNCE (log entry 6), an expiry changes nothing. Of a port that is no
commit target: no fetch waits on it, or the first one in admission order halts the queue with MEMBER_LOST. A commit target, on
which no fetch waits, leaves the target set, its map write in flight reaches no target, and the commit goes on as its phase
says: it ends FAILED_NO_TARGET before the commit point with no target left; TENTATIVE goes on, or FINAL begins; FINAL goes on,
asks the next target, or ends. Where a commit ends, no slot is DIRTY or no port holds findings. -/
def Obligations.PresenceResult : Prop :=
  ∀ (s : State) (p : Port), s.resetLow = false →
    (∀ d, (s.port p).cls = .debounce → (s.port p).debounce = some d →
      exec (.presenceChange p) s = .next { s with
        presence := s.presence.set p (!s.presence[p])
        ports := s.ports.set p { s.port p with debounce := some ⟨!s.presence[p], s.clock + 25, d.noted⟩ } } ∧
      (s.clock < d.expiry → exec (.debounceExpiry p) s = .next s) ∧
      (d.expiry ≤ s.clock → ∃ t, exec (.debounceExpiry p) s = .next t ∧ t.link = s.link ∧
        s.portEntered t p d.level d.noted)) ∧
    ((s.port p).cls ≠ .debounce →
      exec (.debounceExpiry p) s = .next s ∧
      ∃ t n, exec (.presenceChange p) s = .next t ∧ t.link = s.link ∧
        t.presence = s.presence.set p (!s.presence[p]) ∧
        (let held : Option Operation := (s.port p).op.map (fun o => { o with attempts := n, suspended := true })
        let record (o : Option Operation) : PortRecord := { s.port p with
          cls := .debounce, probe := none, op := o
          debounce := some ⟨!s.presence[p], s.clock + 25,
            if (s.port p).cls = .empty ∨ (s.port p).cls = .probe then none else some (s.port p).cls⟩ }
        let base (o : Option Operation) (m : MapStore) : State := { s with
          presence := s.presence.set p (!s.presence[p])
          freeDraws := s.freeDraws + (if (s.port p).op.isSome then 1 else 0)
          ports := s.ports.set p (record o), mapStore := m
          power := { s.power with marks := s.marksAfter p .debounce } }
        let none_waits : Prop := (s.port p).cls = .pooled → s.returnsSettled ∧ ∀ u, s.waitsOn p u = false
        ((∀ c, s.mapStore.commit = some c → ∀ x ∈ c.targets, x.port ≠ p) →
          t.port p = record held ∧ (none_waits → (base held s.mapStore).endsAs t) ∧
          ∀ u r f x, (s.port p).cls = .pooled → TableGood s → s.table.snapshot = none →
            firstOf s.table.admissionOrder (fun v => s.waitsOn p v = true) u → s.request u = some r → r.state = .active →
            s.fetchRecord u = some f → f.fetch = some x → s.haltsOn t u .memberLost (some x.lbn) .memberLost) ∧
        ∀ c, s.mapStore.commit = some c → (∃ v ∈ c.targets, v.port = p) → (c.targets.map (·.port)).Nodup → none_waits →
          let rest := c.targets.filter (fun v => v.port ≠ p)
          let left (d : Commit) : Prop := (base (held.map (fun o => { o with user := o.user.orphaned })) { s.mapStore with commit := some d }).endsAs t
          let live (v : Target) : Prop := v.ask.isSome = true ∨
            ∃ q m g k, (s.port v.port).op = some q ∧ q.user = .mapWrite m g k true
          let asked (lead : Target) : List Target := rest.map (fun v => if v.port = lead.port then { v with
            ask := some ⟨.final, if c.generation.toNat % 2 = 1 then 0 else 1⟩ } else v)
          let apart : Prop := (∀ i, (s.slot i).isDirty = false) ∨
            ∀ q pr, (s.port q).cls = .probe → (s.port q).probe = some pr → pr.step ≠ .complete
          (rest = [] → c.pointReached = false → apart → s.commitEnds t p .failedNoTarget c.written c.failed) ∧
          (rest ≠ [] →
            (∀ m, c.phase = .quiesce m → left { c with targets := rest }) ∧
            (c.phase = .tentative → (∃ v ∈ rest, v.stage ≠ .tentativeWritten) → left { c with targets := rest }) ∧
            (c.phase = .tentative → (∀ v ∈ rest, v.stage = .tentativeWritten ∧ ¬ live v) → ∀ lead l, rest = lead :: l →
              left { c with phase := .final, targets := asked lead })) ∧
          (rest ≠ [] ∨ c.pointReached = true → c.phase = .final →
            ((∃ v ∈ rest, live v) → left { c with targets := rest }) ∧
            ((∀ v ∈ rest, ¬ live v) →
              (∀ lead, firstOf rest (fun v => v.stage = .tentativeWritten) lead → left { c with targets := asked lead }) ∧
              (apart → (∀ v ∈ rest, v.stage ≠ .tentativeWritten) →
                s.commitEnds t p (if c.pointReached then .done else .failedWrite) c.written c.failed)))))

/-- PORT-RESET (R122, R123, R134): the four checks in their order, each reply of two bytes (log entry 12, the model's
choice); the port goes to PROBE where its presence input is active and to EMPTY otherwise, and the reply carries which.
PORT_DETACHED carries the class the port had, or the one its debounce record notes. The ACTIVE request whose fetch the
operation in flight serves ends MEMBER_LOST; with no operation in flight, and for EMPTY no DIRTY slot on the port, the first
fetch in admission order that waits on the POOLED port halts the queue with MEMBER_LOST, or none waits. -/
def Obligations.PortResetResult : Prop :=
  ∀ (s : State) (q : Byte), s.takes q →
    (∀ body : List Byte, body.length ≠ 1 → exec (.portReset q body) s = .next (s.replied q [0x48, 0x01])) ∧
    ∀ b : Byte,
      (s.mapStore.ready = false → exec (.portReset q [b]) s = .next (s.replied q [0x48, 0x03])) ∧
      (s.mapStore.ready = true → s.mapStore.commit.isSome = true →
        exec (.portReset q [b]) s = .next (s.replied q [0x48, 0x05])) ∧
      (s.mapStore.ready = true → s.mapStore.commit = none → 4 ≤ b.toNat →
        exec (.portReset q [b]) s = .next (s.replied q [0x48, 0x12])) ∧
      (∀ p : Port, b = byte p.val → s.mapStore.ready = true → s.mapStore.commit = none →
        ∃ t, exec (.portReset q [b]) s = .next t ∧
          t.link = s.link.replied q [0x48, 0x00, b, if s.presence[p] then 0x02 else 0x00] .nothing ∧
          t.mapStore = s.mapStore ∧
          (((s.port p).cls = .pooled → s.returnsSettled ∧ ∀ u, s.waitsOn p u = false) →
            s.portEntered t p s.presence[p] (match (s.port p).cls with
              | .empty | .probe | .debounce => (s.port p).debounce.bind (fun d => d.noted)
              | c => some c)) ∧
          (∀ o w z r f v, (s.port p).op = some o → o.user = .fetch w z → s.request w.tag = some r → r.state = .active →
            s.fetchRecord w.tag = some f → f.admission = w.admission → f.fetch = some v →
            ∃ r', t.request w.tag = some r' ∧ r'.state = .reporting ∧ r'.status = some .memberLost ∧
              r'.failingLbn = some v.lbn ∧ r'.blocksDone = r.blocksDone) ∧
          (∀ u r f v, (s.port p).cls = .pooled → (s.port p).op = none →
            (s.presence[p] = false → ∀ i x m d, s.slot i = .dirty x m d → s.liesOn p x = false) →
            TableGood s → s.table.snapshot = none → firstOf s.table.admissionOrder (fun w => s.waitsOn p w = true) u →
            s.request u = some r → r.state = .active → s.fetchRecord u = some f → f.fetch = some v →
            ∃ ns, (∀ k, ns.pending.find? (fun n => n.key = k) = if s.presence[p] = false ∧ k = ⟨.portDetached, some p⟩ then
                some (raisedOnce k (.portClass .pooled) (s.notice k)) else s.notice k) ∧
              ({ s with notices := ns }).haltsOn t u .memberLost (some v.lbn) .memberLost) ∧
          ∃ st, (s.port p).stats.atMost st ∧ t.port p = (s.port p).entered s.presence[p] st)

/-- ARBITER_CHOICE (R79, R101, R115, R118, R119, R120). With an operation in flight, a busy engine or no user nothing
starts. An ASLEEP port with a user starts a WAKE. An IDLE one starts the operation of the user of the first class that has
one, the fairness count following the choice: a probe step, the record of a map write asked, a fetch that goes
IN_FLIGHT, or a drain whose slot turns DRAINING and leaves the drain order. -/
def Obligations.ArbiterResult : Prop :=
  ∀ (s : State) (p : Port), s.resetLow = false →
    let x := s.port p
    let leaves (S : State) : Prop := ∃ t, exec (.arbiterChoice p) s = .next t ∧ t.link = s.link ∧ S.restsAs t
    let started (k : OpKind) (u : OpUser) (fair : Nat) : Vector PortRecord 4 :=
      s.ports.set p { x with engine := .busy, op := some ⟨k, u, 1, s.clock + 15, false⟩, fairness := fair }
    (x.op.isSome = true ∨ x.engine = .busy ∨ x.engine = .waking ∨ (∀ n u, ¬ s.isUser p n u) → leaves s) ∧
    (x.op = none → x.engine = .asleep → (∃ n u, s.isUser p n u) →
      leaves { s with ports := s.ports.set p { x with
        engine := .waking, op := some ⟨.wake, .power, 1, s.clock + 15, false⟩ } }) ∧
    (x.op = none → x.engine = .idle → ∀ n u, s.isUser p n u →
      (∀ m v, s.isUser p m v → s.classPlace p n ≤ s.classPlace p m) →
      (u = .probe .ident → leaves { s with ports := started .ident .probe x.fairness }) ∧
      (u = .probe .slotA → leaves { s with ports := started (.rdblk 0) .probe x.fairness }) ∧
      (u = .probe .slotB → leaves { s with ports := started (.rdblk 1) .probe x.fairness }) ∧
      (∀ w c, u = .mapWrite w → s.mapStore.commit = some c → leaves { s with
        ports := started (.pgblk w.pbn (storedBlock w.pbn
            (recordBytes w.state c.generation s.mapStore.draft.pool s.mapStore.draft)))
          (.mapWrite w c.generation s.mapStore.draft.pool true) x.fairness
        mapStore := { s.mapStore with commit := some { c with
          targets := c.targets.map (fun z => if z.port = p then { z with ask := none } else z) } } }) ∧
      (∀ t f y b, u = .fetch t → s.fetchRecord t = some f → f.fetch = some y → y.stage = .portWait p b → ∀ fair,
        (n = 3 → fair = x.fairness) → (n = 6 → (∀ i, ¬ s.isDrainCandidate p i) → fair = 0) →
        (n = 6 → (∃ i, s.isDrainCandidate p i) → fair = min (x.fairness + 1) 8) → leaves { s with
          ports := started (.rdblk b) (.fetch ⟨t, f.admission⟩ y.lbn) fair
          mover := { s.mover with
            fetches := s.mover.fetches.set t (some { f with fetch := some { y with stage := .inFlight p b } }) } }) ∧
      (∀ i z m d pl, u = .drain i → s.slot i = .dirty z m d → s.translate z = some pl → leaves { s with
        ports := started (.pgblk pl.pbn (storedBlock pl.pbn d)) (.drain i) 0
        staging := { s.staging with
          slots := s.staging.slots.set i (.draining z m d)
          drainOrder := s.staging.drainOrder.filter (fun j => j ≠ i) } }))

/-- RDBLK_END, and OP_TIMEOUT of an RDBLK (R63, R101 to R104, R106, R109, R110, R112, R116, R117, R124, R128, R129, R132)
and map records read back (R102, R139, R223). The answers are spelled out: a block read is erased, good or bad; three
unacknowledged commands, three bad blocks, or the limit reached end the operation; an end of another operation changes
nothing (log entry 6), and the attempts are counted from the answers (log entry 7). Its user is a fetch whose request is
gone, one of an ACTIVE READ, the last one of an ACTIVE VERIFY, one of an ABORTING request, or a probe. Where a READ's fetch
ends, no other READ can take a return slot here. A failing fetch of an ACTIVE request ends it MEDIA_ERROR with both history
entries and halts the queue; an ABORTING one ends ABORTED whatever the outcome; the third failure in a row takes the port to
FAILED. A failed probe is that of a port in PROBE, no target of a commit, with no DIRTY slot (a CHECK_FAIL of a copy slot
makes no entry, log entry 17). A record that a map write puts down gives its own state, generation, pool id and extents as
the finding, and one that fails a test of R102 or R223 gives NONE. -/
def Obligations.ReadBlockResult : Prop :=
  (∀ (st : RecordState) (g k : Word32) (m : Map),
    (g ≠ 0 → m.structural → findingOf (recordBytes st g k m) = .found st ⟨k, g, m.extents⟩) ∧
    (g = 0 ∨ ¬ m.structural → findingOf (recordBytes st g k m) = .nothing)) ∧
  (∀ data : List Byte, data.length = 256 →
    leVal (data.take 4) ≠ 0x0A35C7E1 ∨ data.getD 4 0 ≠ 1 ∨
      (crc32 (data.take 252)).toNat ≠ leVal (data.drop 252) ∨ (data.getD 5 0 ≠ 1 ∧ data.getD 5 0 ≠ 2) ∨
      leVal ((data.drop 8).take 4) = 0 ∨
      (∃ i : Nat, i < 8 ∧ data.getD (16 + 16 * i) 0 = 1 ∧
        (2 ≤ (data.getD (17 + 16 * i) 0).toNat ∨ 4 ≤ (data.getD (18 + 16 * i) 0).toNat)) →
    findingOf data = .nothing) ∧
  ∀ (s : State) (p : Port), s.resetLow = false →
    let x := s.port p
    (∀ answers, (∀ o b, x.op = some o → o.suspended = false → o.kind ≠ .rdblk b) →
      exec (.rdblkEnd p answers) s = .next s) ∧
    ∀ (o : Operation) (b : Nat) (pre : List ReadAnswer), x.op = some o → o.suspended = false → o.kind = .rdblk b →
      goesOnReading b pre →
      let ends (last : ReadAnswer) (S : State) : Prop :=
        ∃ t, exec (.rdblkEnd p (pre ++ [last])) s = .next t ∧ t.link = s.link ∧ S.endsAs t
      let base (y : PortRecord) : State :=
        { s with ports := s.ports.set p y, power := { s.power with marks := s.marksClosed p } }
      let tries := x.stats.retried pre.length
      (∀ bytes data : List Byte,
        (bytes = List.replicate 258 0xFF ∧ data = List.replicate 256 0) ∨
          (bytes ≠ List.replicate 258 0xFF ∧ data.length = 256 ∧ bytes = storedBlock b data) →
        let y := x.closed .idle { tries with blocksRead := satInc x.stats.blocksRead }
        let found : Finding := if bytes = List.replicate 258 0xFF then .nothing else findingOf data
        (∀ w z, o.user = .fetch w z → s.request w.tag = none → ends (.stored bytes) (base { y with failures := 0 })) ∧
        (∀ w z r g f v k i c, o.user = .fetch w z → s.request w.tag = some r → r.state = .active → r.range = some g →
          s.fetchRecord w.tag = some f → f.admission = w.admission → f.fetch = some v → v.ret = some k →
          s.returnSlot k = .fetching w i c →
          (∀ n, n ≠ k → s.returnSlot n ≠ .free) ∨ (f.cursor + 1 = g.count ∧ ∀ u, u ≠ w.tag → ¬ s.wantsReturn u) →
          ends (.stored bytes) { base { y with failures := 0 } with mover := { s.mover with
            fetches := s.mover.fetches.set w.tag (some { f with cursor := f.cursor + 1, fetch := none })
            returns := s.mover.returns.set k (.filled w i c data)
            fillOrder := s.mover.fillOrder ++ [k] } }) ∧
        (∀ w z r g f v, o.user = .fetch w z → s.request w.tag = some r → r.state = .active → r.range = some g →
          s.fetchRecord w.tag = some f → f.admission = w.admission → f.fetch = some v → v.ret = none →
          f.cursor + 1 = g.count →
          ends (.stored bytes) { base { y with failures := 0 } with
            table := { s.table with
              slots := s.table.slots.set w.tag (some { r with
                blocksDone := r.blocksDone + 1, state := .reporting, status := some .good, failingLbn := none
                holdList := [], flushSet := [], settleSet := [] })
              completionOrder := s.table.completionOrder ++ [w.tag] }
            mover := { s.mover with fetches := s.mover.fetches.set w.tag none } }) ∧
        (∀ w z r f v, o.user = .fetch w z → s.request w.tag = some r → r.state = .aborting →
          s.fetchRecord w.tag = some f → f.admission = w.admission → f.fetch = some v → (∀ u, ¬ s.wantsReturn u) →
          ∃ t, exec (.rdblkEnd p (pre ++ [.stored bytes])) s = .next t ∧ t.link = s.link ∧ s.abortEnds t w r ∧
            t.log = s.log ∧ (t.port p).failures = 0 ∧ (t.port p).stats = y.stats) ∧
        (∀ pr, o.user = .probe → x.probe = some pr → pr.step = .slotA → ends (.stored bytes)
          (base { y with probe := some { pr with step := .slotB, findingA := found } })) ∧
        (∀ pr, o.user = .probe → x.probe = some pr → pr.step = .slotB →
          (s.mapStore.ready = false ∨ ∃ c, s.mapStore.commit = some c ∧ ∀ m, c.phase ≠ .quiesce m) →
          ends (.stored bytes) (base { y with probe := some { pr with step := .complete, findingB := found } })) ∧
        (∀ pr, o.user = .probe → x.probe = some pr → pr.step = .slotB → s.mapStore.ready = true →
          (∀ c, s.mapStore.commit = some c → ∃ m, c.phase = .quiesce m) →
          let newest := ({ pr with step := .complete, findingB := found } : Probe).newest
          ∃ t, exec (.rdblkEnd p (pre ++ [.stored bytes])) s = .next t ∧ t.link = s.link ∧ (t.port p).probe = none ∧
            (t.port p).member = some ⟨pr.capacity, pr.identity, newest.map (fun m => (m.generation, m.pool))⟩ ∧
            (t.port p).cls = match newest with
              | none => .blank
              | some m =>
                if m.pool ≠ s.mapStore.active.pool then .foreign
                else if m.generation = s.mapStore.active.generation then .pooled
                else if m.generation < s.mapStore.active.generation then .stale else .foreign)) ∧
      (∀ (e : Instr) (cause : HistoryCause) (st : PortStats) (sent : Nat),
        (e = .rdblkEnd p (pre ++ [.noAck]) ∧ (pre.filter (fun a => a = .noAck)).length = 2 ∧ sent = pre.length + 1 ∧
            cause = .noResponse ∧ st = tries) ∨
          ((∃ bytes, e = .rdblkEnd p (pre ++ [.stored bytes]) ∧ bytes ≠ List.replicate 258 0xFF ∧
              ¬ (bytes.length = 258 ∧ bytes = storedBlock b (bytes.take 256))) ∧
            (pre.filter (fun a => a ≠ .noAck)).length = 2 ∧ sent = pre.length + 1 ∧ cause = .checkFail ∧
            st = { tries with checkFailures := satInc x.stats.checkFailures }) ∨
          (e = .opTimeout p sent ∧ 1 ≤ sent ∧ o.limit ≤ s.clock ∧ cause = .opTimeout ∧
            st = { x.stats.retried (sent - 1) with opTimeouts := satInc x.stats.opTimeouts }) →
        let y := x.closed .idle st
        let ends (S : State) : Prop := ∃ t, exec e s = .next t ∧ t.link = s.link ∧ S.endsAs t
        (∀ w z, o.user = .fetch w z → s.request w.tag = none → x.failures < 2 → ∃ ns, s.logAddedTo ns ∧
          ends { base { y with failures := x.failures + 1 } with
            log := s.portLogged p cause (some w.tag) (some z) (some b) sent, notices := ns }) ∧
        (∀ w z r f v, o.user = .fetch w z → s.request w.tag = some r → r.state = .active →
          s.fetchRecord w.tag = some f → f.admission = w.admission → f.fetch = some v → TableGood s →
          s.table.snapshot = none → x.failures < 2 →
          ∃ ns t, s.logAddedTo ns ∧ exec e s = .next t ∧ t.link = s.link ∧
            (({ s with
              log := s.portLogged p cause (some w.tag) (some z) (some b) sent, notices := ns } : State).haltsOn
                t w.tag .mediaError (some v.lbn) cause) ∧
            (t.port p).cls = x.cls ∧ (t.port p).failures = x.failures + 1 ∧ (t.port p).stats = st) ∧
        (∀ w z r f v, o.user = .fetch w z → s.request w.tag = some r → r.state = .aborting →
          s.fetchRecord w.tag = some f → f.admission = w.admission → f.fetch = some v → (∀ u, ¬ s.wantsReturn u) →
          x.failures < 2 →
          ∃ t, exec e s = .next t ∧ t.link = s.link ∧ s.abortEnds t w r ∧
            t.log = s.portLogged p cause (some w.tag) (some z) (some b) sent ∧
            (t.port p).failures = x.failures + 1 ∧ (t.port p).stats = st) ∧
        (∀ w z, o.user = .fetch w z → x.failures = 2 →
          ∃ t n, exec e s = .next t ∧ t.link = s.link ∧
            t.port p = { y with cls := .failed, probe := none, debounce := none, failures := 3 } ∧
            t.notice ⟨.portFailed, some p⟩ = some n ∧ n.detail = .cause cause ∧ (∀ r f v, s.request w.tag = some r →
              s.fetchRecord w.tag = some f → f.admission = w.admission → f.fetch = some v →
              (r.state = .active → ∃ q, t.request w.tag = some q ∧ q.state = .reporting ∧ q.status = some .mediaError ∧
                q.failingLbn = some v.lbn ∧ q.blocksDone = r.blocksDone) ∧
              (r.state = .aborting → ∃ q, t.request w.tag = some q ∧ q.state = .reporting ∧ q.status = some .aborted ∧
                q.blocksDone = r.blocksDone))) ∧
        (∀ pr, o.user = .probe → x.probe = some pr → pr.step = .slotA → cause = .checkFail → ends
          (base { y with probe := some { pr with step := .slotB, findingA := .nothing } })) ∧
        (o.user = .probe → x.probe.isSome = true → cause ≠ .checkFail → x.cls = .probe →
          (∀ c, s.mapStore.commit = some c → ∀ v ∈ c.targets, v.port ≠ p) →
          (∀ i z m d, s.slot i = .dirty z m d → s.liesOn p z = false) → ∃ ns,
          (∀ k, ns.pending.find? (fun n => n.key = k) =
            if k = ⟨.portFailed, some p⟩ then some (raisedOnce k (.cause .probeFailed) (s.notice k))
            else if k = ⟨.logAdded, none⟩ then some (raisedOnce k (.number s.log.nextNumber) (s.notice k))
            else s.notice k) ∧
          ends { base { y with cls := .failed, probe := none, member := none, debounce := none } with
            log := s.portLogged p .probeFailed none none (some b) sent, notices := ns }))

/-- PGBLK_END, and OP_TIMEOUT of a PGBLK (R38, R39, R80, R81, R84, R92, R105, R106, R109, R113, R116, R117, R124, R147 to
R154). The answers are spelled out: the starts that go unacknowledged, the acknowledged one, and the polls; a failure is a
program that failed, three commands unacknowledged, or the limit reached. An end of another operation changes nothing (log
entry 6), and the attempts are counted from the answers (log entry 7). A drain that succeeds frees its slot, and a FLUSH or
THROUGH WRITE that waited only for it is GOOD. One that fails leaves it STRANDED where no newer copy is held; otherwise the
slot goes FREE and the newer one takes its place in the flush sets, a STRANDED one faulting the FLUSH at once. A TENTATIVE
map write counts for its target, and the last one of the set starts FINAL with the first target. A FINAL one makes the
commit point if it is the first, adopts its target, and asks the next or ends the commit DONE. One that fails takes the port
to FAILED: in TENTATIVE the commit ends FAILED_WRITE; in FINAL the next target is asked, and with none left it ends
FAILED_WRITE before the commit point and DONE after. One that reaches no target any more changes the port alone. Where a
commit is told to its end, the table is FREE and staging quiet, as in TENTATIVE and FINAL, and no other rewrite is asked or
in flight. -/
def Obligations.ProgramBlockResult : Prop :=
  ∀ (s : State) (p : Port), s.resetLow = false →
    let x := s.port p
    (∀ answers, (∀ o b d, x.op = some o → o.suspended = false → o.kind ≠ .pgblk b d) →
      exec (.pgblkEnd p answers) s = .next s) ∧
    ∀ (o : Operation) (b : Nat) (d : List Byte) (starts : Nat) (polls : List ProgramAnswer),
      x.op = some o → o.suspended = false → o.kind = .pgblk b d → (∀ a ∈ polls, a = .inProgress ∨ a = .noAck) →
      starts + (polls.filter (fun a => a = .noAck)).length ≤ 2 →
      let answers (last : ProgramAnswer) : List ProgramAnswer := List.replicate starts .noAck ++ .startAck :: (polls ++ [last])
      let done : Instr := .pgblkEnd p (answers .ready)
      let ends (c : Instr) (S : State) : Prop := ∃ t, exec c s = .next t ∧ t.link = s.link ∧ S.endsAs t
      let base (y : PortRecord) : State :=
        { s with ports := s.ports.set p y, power := { s.power with marks := s.marksClosed p } }
      let tries := x.stats.retried (starts + 1 + polls.length)
      let y := x.closed .idle { tries with blocksProgrammed := satInc x.stats.blocksProgrammed }
      let logged (cause : HistoryCause) (lbn : Option Nat) (sent : Nat) : LogUnit :=
        s.portLogged p cause none lbn (some b) sent
      let fails (c : Instr) (cause : HistoryCause) (reason : StrandReason) (st : PortStats) (sent : Nat) : Prop :=
        (c = .pgblkEnd p (answers .failed) ∧ sent = starts + 1 + polls.length + 1 ∧ cause = .programFailed ∧
            reason = .programFailed ∧ st = { tries with programFailures := satInc x.stats.programFailures }) ∨
          (((c = .pgblkEnd p (answers .noAck) ∧ starts + (polls.filter (fun a => a = .noAck)).length = 2 ∧
                sent = starts + 1 + polls.length + 1) ∨ (c = .pgblkEnd p [.noAck, .noAck, .noAck] ∧ sent = 3)) ∧
            cause = .noResponse ∧ reason = .noResponse ∧ st = x.stats.retried (sent - 1)) ∨
          (c = .opTimeout p sent ∧ 1 ≤ sent ∧ o.limit ≤ s.clock ∧ cause = .opTimeout ∧ reason = .opTimeout ∧
            st = { x.stats.retried (sent - 1) with opTimeouts := satInc x.stats.opTimeouts })
      (∀ i z m data, o.user = .drain i → s.slot i = .draining z m data →
        (∀ u f v, s.fetchRecord u = some f → f.fetch = some v → v.stage = .drainWait → v.lbn ≠ z) →
        let free : State := { base { y with failures := 0 } with
          staging := { s.staging with slots := s.staging.slots.set i .free } }
        ((∀ u, ¬ s.waits u) → s.returnsSettled → TableGood s → ∃ t, exec done s = .next t ∧ t.link = s.link ∧
          (∀ j, t.slot j = if j = i then .free else s.slot j) ∧
          (∀ u r, s.request u = some r →
            (i ∉ r.flushSet → i ∉ r.settleSet → t.request u = some r) ∧
            (r.state = .settling → (r.kind = .flush ∧ r.flushSet = [i] ∧ r.settleSet = []) ∨
                (r.kind = .write ∧ r.flushSet = [] ∧ r.settleSet = [i]) →
              t.request u = some { r with
                blocksDone := r.blocksDone + (if r.kind = .flush then 1 else 0), state := .reporting
                status := some .good, failingLbn := none, holdList := [], flushSet := [], settleSet := [] }))) ∧
        ((∀ u, ¬ s.waits u) → s.returnsSettled → (∀ u r, s.request u = some r → i ∉ r.flushSet ∧ i ∉ r.settleSet) →
          ends done free) ∧
        (∀ c cause reason st sent, fails c cause reason st sent → x.failures < 2 →
          ((∀ u r, s.request u = some r → i ∉ r.flushSet ∧ i ∉ r.settleSet) →
            (∀ j, ((s.slot j).isDirty = true ∨ (s.slot j).isStranded = true) → (s.slot j).lbn? ≠ some z) → ∃ ns,
            (∀ k, ns.pending.find? (fun n => n.key = k) =
              if k = ⟨.slotStranded, none⟩
                then some (raisedOnce k (.count (s.countSlots StagingSlot.isStranded + 1)) (s.notice k))
              else if k = ⟨.logAdded, none⟩ then some (raisedOnce k (.number s.log.nextNumber) (s.notice k))
              else s.notice k) ∧
            ends c { base { x.closed .idle st with failures := x.failures + 1 } with
              staging := { s.staging with
                slots := s.staging.slots.set i (.stranded z m data reason)
                drainOrder := s.staging.drainOrder.filter (fun j => j ≠ i) }
              log := logged cause (some z) sent, notices := ns }) ∧
          ∀ n : SlotNo, (s.slot n).lbn? = some z → TableGood s →
            (∀ j, ((s.slot j).isDirty = true ∨ (s.slot j).isStranded = true) → (s.slot j).lbn? = some z → j = n) →
            ((s.slot n).isDirty = true → (∀ u, ¬ s.waits u) → s.returnsSettled → ∃ ns t, s.logAddedTo ns ∧
              exec c s = .next t ∧ t.link = s.link ∧
              ({ base { x.closed .idle st with failures := x.failures + 1 } with
                staging := { s.staging with slots := s.staging.slots.set i .free }, table := t.table
                log := logged cause (some z) sent, notices := ns } : State).endsAs t ∧
              ∀ u r, s.request u = some r →
                (i ∉ r.settleSet → ∃ f, (i ∉ r.flushSet → f = r.flushSet) ∧
                  (i ∈ r.flushSet → ∀ k, k ∈ f ↔ k = n ∨ (k ∈ r.flushSet ∧ k ≠ i)) ∧
                  t.request u = some { r with flushSet := f }) ∧
                (r.kind = .write → r.state = .settling → r.flushSet = [] → r.settleSet = [i] →
                  t.request u = some { r with
                    state := .reporting, status := some .good, failingLbn := none, holdList := [], settleSet := [] })) ∧
            (∀ mk old why u r, s.slot n = .stranded z mk old why → s.table.snapshot = none → s.request u = some r →
              r.kind = .flush → r.state = .settling → i ∈ r.flushSet →
              (∀ v q, s.request v = some q → (v ≠ u → i ∉ q.flushSet) ∧ i ∉ q.settleSet) → ∃ ns t f, s.logAddedTo ns ∧
              (∀ k, k ∈ f ↔ k = n ∨ (k ∈ r.flushSet ∧ k ≠ i)) ∧ exec c s = .next t ∧ t.link = s.link ∧
              ({ s with
                table := { s.table with slots := s.table.slots.set u (some { r with flushSet := f }) }
                staging := { s.staging with slots := s.staging.slots.set i .free }
                log := logged cause (some z) sent, notices := ns } : State).haltsOn t u .mediaError (some z) why.cause ∧
              (t.port p).failures = x.failures + 1 ∧ (t.port p).stats = st))) ∧
      (∀ w g pool c tg, o.user = .mapWrite w g pool true → s.mapStore.commit = some c →
        firstOf c.targets (fun v => v.port = p) tg →
        let slot : Nat := if c.generation.toNat % 2 = 1 then 0 else 1
        let put (v : Target) : State := { base { y with failures := 0 } with mapStore := { s.mapStore with
          commit := some { c with targets := c.targets.map (fun u => if u.port = p then v else u) } } }
        let alone : Prop := (c.targets.map (·.port)).Nodup ∧ tg.ask = none ∧ ∀ v ∈ c.targets, v.port ≠ p →
          v.ask = none ∧ ∀ q m h k, (s.port v.port).op = some q → q.user ≠ .mapWrite m h k true
        let next (v : Target) : Prop := v.port ≠ p ∧ v.stage = .tentativeWritten
        (w.state = .tentative →
          (tg.stage = .awaitingTentative → 2 ≤ tg.owed → ends done (put { tg with
            owed := tg.owed - 1, ask := some ⟨.tentative, if c.generation.toNat % 2 = 1 then 1 else 0⟩ })) ∧
          (tg.owed ≤ 1 → (∃ v ∈ c.targets, v.port ≠ p ∧ v.stage ≠ .tentativeWritten) →
            ends done (put { tg with owed := 0, stage := .tentativeWritten })) ∧
          (tg.owed ≤ 1 → alone → (∀ v ∈ c.targets, v.port ≠ p → next v) → ∀ lead rest, c.targets = lead :: rest →
            ends done { base { y with failures := 0 } with mapStore := { s.mapStore with commit := some { c with
              phase := .final
              targets := c.targets.map (fun v => { v with
                owed := if v.port = p then 0 else v.owed, stage := .tentativeWritten
                ask := if v.port = lead.port then some ⟨.final, slot⟩ else none }) } } })) ∧
        (w.state = .final → ∀ m, x.member = some m →
          (c.pointReached = false → ∃ t, exec done s = .next t ∧ t.link = s.link ∧
            t.mapStore.active = { s.mapStore.draft with generation := c.generation } ∧
            t.mapStore.draft = t.mapStore.active ∧ (t.port p).cls = .pooled ∧
            (t.port p).member = some { m with newest := some (g, pool) }) ∧
          (alone → s.quiesced → ∃ t ws, (∀ q, q ∈ ws ↔ q = p ∨ q ∈ c.written) ∧ exec done s = .next t ∧ t.link = s.link ∧
            t.log = s.log ∧ (t.port p).cls = .pooled ∧ (t.port p).member = some { m with newest := some (g, pool) } ∧
            t.mapStore.active = (if c.pointReached then s.mapStore.active
              else { s.mapStore.draft with generation := c.generation }) ∧
            t.mapStore.draft = (if c.pointReached then s.mapStore.draft else t.mapStore.active) ∧
            t.notice ⟨.portAttached, some p⟩ = (if x.cls = .pooled then s.notice ⟨.portAttached, some p⟩
              else some (raisedOnce ⟨.portAttached, some p⟩ (.portClass .pooled) (s.notice ⟨.portAttached, some p⟩))) ∧
            (∀ q, c.pointReached = false → (∀ v ∈ c.targets, v.port ≠ q) → s.isTargetPort q = true →
              (t.port q).cls = t.mapStore.active.classOf ((s.port q).member.bind (·.newest))) ∧
            (∀ lead, firstOf c.targets next lead → t.mapStore.commit = some { c with
              pointReached := true, written := ws
              targets := c.targets.map (fun v => if v.port = p then { v with stage := .finalWritten }
                else if v.port = lead.port then { v with ask := some ⟨.final, slot⟩ } else v) }) ∧
            ((∀ v ∈ c.targets, ¬ next v) → s.commitEnds t p .done ws c.failed))) ∧
        (∀ e cause reason st sent, fails e cause reason st sent → s.quiesced → ∃ t fs, (∀ q, q ∈ fs ↔ q = p ∨ q ∈ c.failed) ∧
          exec e s = .next t ∧ t.link = s.link ∧ t.log = logged .mapWriteFailed none sent ∧
          t.mapStore.active = s.mapStore.active ∧ t.mapStore.draft = s.mapStore.draft ∧
          t.notice ⟨.portFailed, some p⟩ =
            some (raisedOnce ⟨.portFailed, some p⟩ (.cause .mapWriteFailed) (s.notice ⟨.portFailed, some p⟩)) ∧
          (w.state = .tentative → s.commitEnds t p .failedWrite c.written fs) ∧
          (w.state = .final → alone →
            (∀ lead, firstOf c.targets next lead → t.mapStore.commit = some { c with
              failed := fs
              targets := (c.targets.filter (fun v => v.port ≠ p)).map (fun v =>
                if v.port = lead.port then { v with ask := some ⟨.final, slot⟩ } else v) }) ∧
            ((∀ v ∈ c.targets, ¬ next v) →
              s.commitEnds t p (if c.pointReached then .done else .failedWrite) c.written fs)))) ∧
      (∀ w g pool, o.user = .mapWrite w g pool false →
        (w.state = .tentative → ends done (base { y with failures := 0 })) ∧
        (w.state = .final → ∀ m, x.member = some m →
          ends done (base { y with failures := 0, member := some { m with newest := some (g, pool) } }))) ∧
      ∀ w g pool live e cause reason st sent, o.user = .mapWrite w g pool live → fails e cause reason st sent →
        let record : PortRecord := { x.closed .idle st with
          cls := .failed, probe := none, debounce := none, failures := min (x.failures + 1) 3 }
        (∃ t, exec e s = .next t ∧ t.link = s.link ∧ t.port p = record) ∧
        (live = false → s.quiesced → (∀ c, s.mapStore.commit = some c → ∀ v ∈ c.targets, v.port ≠ p) → ∃ ns,
          (∀ k, ns.pending.find? (fun n => n.key = k) =
            if k = ⟨.portFailed, some p⟩ then some (raisedOnce k (.cause .mapWriteFailed) (s.notice k))
            else if k = ⟨.logAdded, none⟩ then some (raisedOnce k (.number s.log.nextNumber) (s.notice k))
            else s.notice k) ∧
          ends e { base record with log := logged .mapWriteFailed none sent, notices := ns })

/-- IDENT_END, SLEEP_END, WAKE_END and OP_TIMEOUT (R101, R103, R109, R111, R114, R115, R116, R117, R124, R164). The command
is acknowledged after at most two attempts that were not, or a third goes unacknowledged; the attempts are counted from
the answers, or carried by OP_TIMEOUT (log entry 7). A WAKE ends 3 ms after it started at the earliest, and an operation ends
OP_TIMEOUT at its limit, not before (log entry 2); an end or a timeout of an operation that is not in flight changes nothing
(log entry 6). A WAKE that fails is asked again where a user waits; in PROBE the third in a row fails the probe. Where
another failure is described the count stays below three, and a port whose probe fails is in PROBE, no target of a commit,
with no DIRTY slot. OP_TIMEOUT of an RDBLK or a PGBLK is told whole with RDBLK_END and PGBLK_END. -/
def Obligations.LaneCommandsResult : Prop :=
  ∀ (s : State) (p : Port), s.resetLow = false →
    let x := s.port p
    let runs (o : Operation) (k : OpKind) (u : OpUser) : Prop :=
      x.op = some o ∧ o.suspended = false ∧ o.kind = k ∧ o.user = u
    let ends (c : Instr) (S : State) : Prop := ∃ t, exec c s = .next t ∧ t.link = s.link ∧ S.endsAs t
    let base (y : PortRecord) (m : Vector SleepMark 4) : State :=
      { s with ports := s.ports.set p y, power := { s.power with marks := m } }
    let idle (k : OpKind) : Prop := ∀ o, x.op = some o → o.suspended = true ∨ o.kind ≠ k
    let probeFails (c : Instr) (st : PortStats) (attempts : Nat) : Prop :=
      x.cls = .probe → (∀ c, s.mapStore.commit = some c → ∀ v ∈ c.targets, v.port ≠ p) →
      (∀ i z m d, s.slot i = .dirty z m d → s.liesOn p z = false) → ∃ ns : Notices,
        (∀ k, ns.pending.find? (fun n => n.key = k) =
          if k = ⟨.portFailed, some p⟩ then some (raisedOnce k (.cause .probeFailed) (s.notice k))
          else if k = ⟨.logAdded, none⟩ then some (raisedOnce k (.number s.log.nextNumber) (s.notice k))
          else s.notice k) ∧
        ends c { base { x.closed .idle st with cls := .failed, probe := none, member := none, debounce := none }
            (s.marksClosed p) with
          log := s.portLogged p .probeFailed none none none attempts, notices := ns }
    (idle .ident → ∀ answers, exec (.identEnd p answers) s = .next s) ∧
    (idle .sleep → ∀ answers, exec (.sleepEnd p answers) s = .next s) ∧
    (idle .wake → ∀ answers, exec (.wakeEnd p answers) s = .next s) ∧
    ((∀ o, x.op = some o → o.suspended = true ∨ s.clock < o.limit) → ∀ n, exec (.opTimeout p n) s = .next s) ∧
    (∀ o pr, runs o .ident .probe → x.probe = some pr →
      (∀ n cap id, n ≤ 2 → 64 ≤ cap → cap ≤ 262144 →
        ends (.identEnd p (List.replicate n .noAck ++ [.ack cap id])) (base { x.closed .idle (x.stats.retried n) with
          probe := some { pr with step := .slotA, capacity := cap, identity := id } } (s.marksClosed p))) ∧
      (∀ n cap id, n ≤ 2 → cap < 64 ∨ 262144 < cap →
        probeFails (.identEnd p (List.replicate n .noAck ++ [.ack cap id])) (x.stats.retried n) (n + 1)) ∧
      probeFails (.identEnd p [.noAck, .noAck, .noAck]) (x.stats.retried 2) 3 ∧
      ∀ n, 1 ≤ n → o.limit ≤ s.clock → probeFails (.opTimeout p n)
        { x.stats.retried (n - 1) with opTimeouts := satInc x.stats.opTimeouts } n) ∧
    (∀ o, runs o .sleep .power →
      (∀ n, n ≤ 2 → ends (.sleepEnd p (List.replicate n .noAck ++ [.ack]))
        (base { x.closed .asleep (x.stats.retried n) with failures := 0 } (s.power.marks.set p .clear))) ∧
      (x.failures < 2 → ∃ ns, s.logAddedTo ns ∧ ends (.sleepEnd p [.noAck, .noAck, .noAck])
        { base { x.closed .idle (x.stats.retried 2) with failures := x.failures + 1 } (s.power.marks.set p .declined) with
          log := s.portLogged p .noResponse none none none 3, notices := ns }) ∧
      (x.failures < 2 → o.limit ≤ s.clock → ∀ n, 1 ≤ n → ∃ ns, s.logAddedTo ns ∧ ends (.opTimeout p n)
        { base { x.closed .idle { x.stats.retried (n - 1) with opTimeouts := satInc x.stats.opTimeouts } with
            failures := x.failures + 1 } (s.power.marks.set p .declined) with
          log := s.portLogged p .opTimeout none none none n, notices := ns })) ∧
    (∀ o, runs o .wake .power →
      (∀ n, n ≤ 2 → s.clock < o.limit - 15 + 3 →
        exec (.wakeEnd p (List.replicate n .noAck ++ [.ack])) s = .next s) ∧
      (∀ n, n ≤ 2 → o.limit - 15 + 3 ≤ s.clock →
        (x.probe = none → ends (.wakeEnd p (List.replicate n .noAck ++ [.ack]))
          (base { x.closed .idle (x.stats.retried n) with failures := 0 } (s.marksClosed p))) ∧
        ∀ pr, x.probe = some pr → ends (.wakeEnd p (List.replicate n .noAck ++ [.ack]))
          (base { x.closed .idle (x.stats.retried n) with probe := some { pr with wakeFailures := 0 } } (s.marksClosed p))) ∧
      ∀ (c : Instr) (cause : HistoryCause) (st : PortStats) (sent : Nat),
        (c = .wakeEnd p [.noAck, .noAck, .noAck] ∧ sent = 3 ∧ cause = .noResponse ∧ st = x.stats.retried 2) ∨
          (c = .opTimeout p sent ∧ 1 ≤ sent ∧ o.limit ≤ s.clock ∧ cause = .opTimeout ∧
            st = { x.stats.retried (sent - 1) with opTimeouts := satInc x.stats.opTimeouts }) →
        let again (y : PortRecord) : PortRecord := { y with
          engine := .waking, op := some ⟨.wake, .power, 1, s.clock + 15, false⟩ }
        let y := x.closed .asleep st
        (x.probe = none → x.failures < 2 → ∃ ns, s.logAddedTo ns ∧
          let failed (z : PortRecord) : State := { base { z with failures := x.failures + 1 } (s.marksClosed p) with
            log := s.portLogged p cause none none none sent, notices := ns }
          ((∀ n u, ¬ s.isUser p n u) → ends c (failed y)) ∧ ((∃ n u, s.isUser p n u) → ends c (failed (again y)))) ∧
        (∀ pr, x.probe = some pr → pr.wakeFailures < 2 →
          let z : PortRecord := { y with probe := some { pr with wakeFailures := pr.wakeFailures + 1 } }
          ((∀ n u, ¬ s.isUser p n u) → ends c (base z (s.marksClosed p))) ∧
          ((∃ n u, s.isUser p n u) → ends c (base (again z) (s.marksClosed p)))) ∧
        (∀ pr, x.probe = some pr → pr.wakeFailures = 2 → probeFails c st sent)) ∧
    (∀ o w z b, runs o (.rdblk b) (.fetch w z) → s.request w.tag = none → x.failures < 2 → o.limit ≤ s.clock →
      ∀ n, 1 ≤ n → ∃ ns, s.logAddedTo ns ∧ ends (.opTimeout p n)
        { base { x.closed .idle { x.stats.retried (n - 1) with opTimeouts := satInc x.stats.opTimeouts } with
            failures := x.failures + 1 } (s.marksClosed p) with
          log := s.portLogged p .opTimeout (some w.tag) (some z) (some b) n, notices := ns })

/-! ## Administration -/

/-- IDENTIFY and STATUS (R218, R226): with fields they are refused MALFORMED; without, they report and change nothing beyond
the link. The widths of IDENTIFY's fields are the model's, log entry 13, and that both MALFORMED replies are two bytes,
STATUS sending no 00H for its 75 bytes, is the model's choice, log entry 25. -/
def Obligations.IdentifyAndStatusResult : Prop :=
  ∀ (s : State) (q : Byte), s.takes q →
    (∀ body, body ≠ [] → exec (.identify q body) s = .next (s.replied q [0x10, 0x01]) ∧
      exec (.status q body) s = .next (s.replied q [0x11, 0x01])) ∧
    exec (.identify q []) s = .next (s.replied q (([0x10, 0x00] : List Byte) ++ le 2 0x5046 ++ le 2 0x0416 ++ [1] ++ le 2 256 ++
      le 3 0xFFFFFF ++ le 4 0x1000000 ++ [16, 64, 8, 32, 8, 8, 4] ++ le 3 64 ++ le 3 262144 ++ [2, 4, 3] ++ le 2 300 ++
      le 2 1040 ++ [12, 3, 0, 5])) ∧
    exec (.status q []) s = .next (s.replied q (([0x11, 0x00] : List Byte) ++
      [flagByte s.mapStore.ready, flagByte s.table.snapshot.isSome, s.power.state.code, s.phaseCode] ++
      [byte (allTags.filter (fun t => (s.request t).isNone)).length, byte (s.countState .held),
        byte (s.countState .active), byte (s.countState .settling), byte (s.countState .aborting),
        byte (s.countState .reporting)] ++
      [byte (s.countSlots StagingSlot.isFree), byte (s.countSlots StagingSlot.isFilling),
        byte (s.countSlots StagingSlot.isDirty), byte (s.countSlots StagingSlot.isDraining),
        byte (s.countSlots StagingSlot.isStranded)] ++
      [byte (allReturns.filter (fun r => s.returnSlot r ≠ .free)).length, byte s.link.window.length,
        flagByte s.link.lost] ++
      le 4 s.mapStore.active.generation.toNat ++ le 4 s.mapStore.active.pool.toNat ++ le 4 s.mapStore.ceiling ++
      ([0, 1, 2, 3] : List Port).flatMap (fun p => [(s.port p).cls.code, (s.port p).engine.code,
        flagByte (s.port p).member.isSome] ++
        le 3 (match (s.port p).member with | some m => m.capacity | none => 0) ++
        le 4 (match (s.port p).member with | some m => m.identity.toNat | none => 0)) ++
      byte s.notices.pending.length :: le 4 s.log.uptime.toNat))

/-- GET-PARAMETER, whole (R220): MALFORMED for a wrong length, BAD_PARAMETER for an identifier outside 01H to 09H, and
otherwise OK with the identifier and the value in force, in the form SET-PARAMETER takes. It changes nothing. That a
refusal sends the three bytes as 00H is the model's reading, log entry 12. -/
def Obligations.GetParameterResult : Prop :=
  ∀ (s : State) (q : Byte), s.takes q →
    (∀ body, body.length ≠ 1 → exec (.getParameter q body) s = .next (s.replied q [0x13, 0x01, 0, 0, 0])) ∧
    (∀ i : Byte, i.toNat < 1 ∨ 9 < i.toNat →
      exec (.getParameter q [i]) s = .next (s.replied q [0x13, 0x0D, 0, 0, 0])) ∧
    (∀ i v, (i, v) ∈ ([(1, s.params.idleCode), (2, s.params.dataTimeout), (3, s.params.reportTimeout),
        (4, s.params.highWater), (5, if s.params.writeBack then 1 else 0), (6, if s.params.held then 1 else 0),
        (7, s.params.noticeEnable.toNat), (8, s.params.linkRate), (9, s.params.drainFairness)] : List (Nat × Nat)) →
      exec (.getParameter q [byte i]) s = .next (s.replied q (([0x13, 0x00, byte i] : List Byte) ++ le 2 v)))

/-- SET-PARAMETER (R219): MALFORMED, then BAD_PARAMETER for an identifier or a value outside the table, changing nothing;
otherwise the value is stored, the reply carries it, and the owner's rule follows: the idle timer starts anew under the
seven conditions of R161, for the duration of R162; pressure is evaluated by the table of R88, HIGH_WATER − 4 being the
lower mark, and STAGING_HIGH raised where the flag becomes set (R89); the mode or the mask takes effect (R175, R179);
LINK_RATE waits for the end of the reply (R203). The 00H bytes of a refusal are log entry 12. Last, what the end of every
event (`endsAs`, `restsAs`) means for pressure and for the idle timer is said in the same words. -/
def Obligations.SetParameterResult : Prop :=
  (∀ (s : State) (q : Byte), s.takes q →
    (∀ body, body.length ≠ 3 → exec (.setParameter q body) s = .next (s.replied q [0x12, 0x01, 0, 0, 0])) ∧
    (∀ i a b : Byte, i.toNat < 1 ∨ 9 < i.toNat →
      exec (.setParameter q [i, a, b]) s = .next (s.replied q [0x12, 0x0D, 0, 0, 0])) ∧
    (∀ (i low high : Nat) (a b : Byte), (i, low, high) ∈ ([(1, 0, 251), (2, 1, 255), (3, 5, 255), (4, 8, 31), (5, 0, 1),
        (6, 0, 1), (7, 0, 1023), (8, 0, 5), (9, 1, 8)] : List (Nat × Nat × Nat)) →
      leVal [a, b] < low ∨ high < leVal [a, b] →
      exec (.setParameter q [byte i, a, b]) s = .next (s.replied q [0x12, 0x0D, 0, 0, 0])) ∧
    (∀ a b : Byte,
      let v := leVal [a, b]
      let with1 : State := { s with params := { s.params with idleCode := v } }
      let mode : Bool := decide (v = 1)
      let on (n : Notice) : Bool := (BitVec.ofNat 16 v).getLsbD (n.key.kind.code - 1)
      (v ≤ 251 → ∀ e : Option Nat,
        e = (if v = 0 then none else if v ≤ 200 then some (s.clock + v * 100)
          else if v ≤ 250 then some (s.clock + (v - 200) * 10000) else some (s.clock + 900000)) →
        (s.idleAllows v → exec (.setParameter q [1, a, b]) s = .next
          (({ with1 with power := { s.power with idleTimer := e } } : State).replied q [0x12, 0x00, 1, a, b])) ∧
        (¬ s.idleAllows v → exec (.setParameter q [1, a, b]) s = .next
          (({ with1 with power := { s.power with idleTimer := none } } : State).replied q [0x12, 0x00, 1, a, b]))) ∧
      (1 ≤ v → v ≤ 255 → exec (.setParameter q [2, a, b]) s = .next
        (({ s with params := { s.params with dataTimeout := v } } : State).replied q [0x12, 0x00, 2, a, b])) ∧
      (5 ≤ v → v ≤ 255 → exec (.setParameter q [3, a, b]) s = .next
        (({ s with params := { s.params with reportTimeout := v } } : State).replied q [0x12, 0x00, 3, a, b])) ∧
      (8 ≤ v → v ≤ 31 →
        let used := 32 - s.countSlots StagingSlot.isFree
        let marked (b : Bool) : State := { s with
          params := { s.params with highWater := v }, staging := { s.staging with pressure := b } }
        (s.staging.pressure = true → v < used + 4 →
          exec (.setParameter q [4, a, b]) s = .next ((marked true).replied q [0x12, 0x00, 4, a, b])) ∧
        (s.staging.pressure = true → used + 4 ≤ v →
          exec (.setParameter q [4, a, b]) s = .next ((marked false).replied q [0x12, 0x00, 4, a, b])) ∧
        (s.staging.pressure = false → used < v →
          exec (.setParameter q [4, a, b]) s = .next ((marked false).replied q [0x12, 0x00, 4, a, b])) ∧
        (s.staging.pressure = false → v ≤ used → ∃ ns,
          exec (.setParameter q [4, a, b]) s = .next
            (({ marked true with notices := ns } : State).replied q [0x12, 0x00, 4, a, b]) ∧
          ∀ k, ns.pending.find? (fun n => n.key = k) = if k = ⟨.stagingHigh, none⟩
            then some (raisedOnce k (.count used) (s.notice k)) else s.notice k)) ∧
      (v ≤ 1 → exec (.setParameter q [5, a, b]) s = .next
        (({ s with params := { s.params with writeBack := decide (v = 1) } } : State).replied q [0x12, 0x00, 5, a, b])) ∧
      (v ≤ 1 → exec (.setParameter q [6, a, b]) s = .next (({ s with
        params := { s.params with held := mode }
        notices := s.noticesWithout (fun n => s.params.held && !mode && decide (n.report = .reported)) } : State).replied q
          [0x12, 0x00, 6, a, b])) ∧
      (v ≤ 1023 → exec (.setParameter q [7, a, b]) s = .next (({ s with
        params := { s.params with noticeEnable := BitVec.ofNat 16 v }
        notices := {
          pending := s.notices.pending
          order := s.notices.order.filter (fun k => (BitVec.ofNat 16 v).getLsbD (k.kind.code - 1)) ++
            (s.notices.pending.filter (fun n => decide (n.report = .unreported) && on n &&
              !s.params.noticeEnable.getLsbD (n.key.kind.code - 1))).map (·.key)
          attn := s.link.lost || s.notices.pending.any on } } : State).replied q [0x12, 0x00, 7, a, b])) ∧
      (v ≤ 5 → exec (.setParameter q [8, a, b]) s = .next
        (({ s with params := { s.params with linkRate := v } } : State).replied q [0x12, 0x00, 8, a, b]
          (if v = s.params.linkRate then .nothing else .changeRate v))) ∧
      (1 ≤ v → v ≤ 8 → exec (.setParameter q [9, a, b]) s = .next
        (({ s with params := { s.params with drainFairness := v } } : State).replied q [0x12, 0x00, 9, a, b])))) ∧
  (∀ s t : State, s.endsAs t →
    t.staging.pressure = pressureAfter s.staging.pressure (32 - s.countSlots StagingSlot.isFree) s.params.highWater ∧
    ∀ k, t.notice k = if k = ⟨.stagingHigh, none⟩ ∧ s.staging.pressure = false ∧ t.staging.pressure = true
      then some (raisedOnce k (.count (32 - s.countSlots StagingSlot.isFree)) (s.notice k)) else s.notice k) ∧
  ∀ s t : State, s.restsAs t →
    (¬ t.idleAllows s.params.idleCode → t.power.idleTimer = none) ∧
    (t.idleAllows s.params.idleCode → (∀ m, s.power.idleTimer = some m → t.power.idleTimer = some m) ∧
      (s.power.idleTimer = none → t.power.idleTimer = (let v := s.params.idleCode;
        if v ≤ 200 then some (s.clock + v * 100) else if v ≤ 250 then some (s.clock + (v - 200) * 10000)
        else if v = 251 then some (s.clock + 900000) else none)))

/-- A message whose kind byte names no kind is refused UNKNOWN_KIND, its reply repeating the byte (R209). RESET-LINK is
answered OK and awaits the link reset that follows its reply; with fields it is MALFORMED (R216). -/
def Obligations.UnknownKindAndResetLinkResult : Prop :=
  ∀ (s : State) (q : Byte), s.takes q →
    (∀ k body, k ∉ ([0x10, 0x11, 0x12, 0x13, 0x14, 0x15, 0x20, 0x21, 0x22, 0x23, 0x24, 0x28, 0x30, 0x31, 0x32, 0x33, 0x34,
        0x35, 0x40, 0x41, 0x48, 0x50, 0x51, 0x58, 0x60] : List Byte) →
      exec (.unknownKind k q body) s = .next (s.replied q [k, 0x02])) ∧
    (∀ body, body ≠ [] → exec (.resetLink q body) s = .next (s.replied q [0x14, 0x01])) ∧
    exec (.resetLink q []) s = .next { s with link := { s.link.replied q [0x14, 0x00] .resetLink with
      resetWait := .replyUnsent } }

/-- NOTICE-CLEAR (R180): the three refusals in their order; ALL removes every instance, ONE the instance of its key, a
single kind whatever its port byte. The removed leave the notice order, ATTN is evaluated, and the reply counts the
removed and the left. That each refusal is two bytes is the model's reading, log entry 12. -/
def Obligations.NoticeClearResult : Prop :=
  ∀ (s : State) (q : Byte), s.takes q →
    let cleared (out : Notice → Bool) : Host.Outcome State Fault Refusal :=
      .next (({ s with notices := s.noticesWithout out } : State).replied q [0x58, 0x00,
        byte (s.notices.pending.filter out).length, byte (s.notices.pending.filter (fun n => !out n)).length])
    (∀ body : List Byte, body.length ≠ 3 ∨ 2 ≤ (body.getD 0 0).toNat →
      exec (.noticeClear q body) s = .next (s.replied q [0x58, 0x01])) ∧
    (∀ k p : Byte, exec (.noticeClear q [0, k, p]) s = cleared (fun _ => true)) ∧
    (∀ k p : Byte, k.toNat < 1 ∨ 10 < k.toNat →
      exec (.noticeClear q [1, k, p]) s = .next (s.replied q [0x58, 0x0D])) ∧
    (∀ (k : NoticeKind) (p : Byte), k = .portAttached ∨ k = .portDetached ∨ k = .portFailed →
      (4 ≤ p.toNat → exec (.noticeClear q [1, byte k.code, p]) s = .next (s.replied q [0x58, 0x12])) ∧
      (∀ h : p.toNat < 4, exec (.noticeClear q [1, byte k.code, p]) s =
        cleared (fun n => decide (n.key = ⟨k, some ⟨p.toNat, h⟩⟩)))) ∧
    (∀ (k : NoticeKind) (p : Byte), k ≠ .portAttached → k ≠ .portDetached → k ≠ .portFailed →
      exec (.noticeClear q [1, byte k.code, p]) s = cleared (fun n => decide (n.key = ⟨k, none⟩)))

/-- GET-LOG (R194, R200, R201): MALFORMED, then BAD_PARAMETER, both in two bytes (log entry 12); otherwise the page as it
stands, whose bytes add up to 0 modulo 256. The clear flag sets the ten link counters to 0 on page 02H, the port statistics
on page 03H, and nothing on another page. The five bodies are spelled out (R195 to R199, R228): the directory with the length
of each whole page, the entries with their headers, newest first, the counters, which show the frame of this very message
(R197), the statistics and the STRANDED slots. -/
def Obligations.GetLogResult : Prop :=
  ∀ (s : State) (q : Byte), s.takes q →
    (∀ body : List Byte, body.length ≠ 2 ∨ 2 ≤ (body.getD 1 0).toNat →
      exec (.getLog q body) s = .next (s.replied q [0x60, 0x01])) ∧
    (∀ p c : Byte, 4 < p.toNat → c.toNat < 2 → exec (.getLog q [p, c]) s = .next (s.replied q [0x60, 0x0D])) ∧
    (∀ p c : Byte, p.toNat ≤ 4 → c.toNat < 2 → ∃ body ck,
      pageBody p (acceptFrame s) = some body ∧
      (p :: (le 2 body.length ++ body ++ [ck])).foldl (· + ·) 0 = (0 : Byte) ∧
      ((c = 0 ∨ (p ≠ 2 ∧ p ≠ 3)) → exec (.getLog q [p, c]) s = .next
        (s.replied q (0x60 :: 0x00 :: p :: c :: p :: (le 2 body.length ++ body ++ [ck])))) ∧
      (c = 1 → p = 2 → exec (.getLog q [p, c]) s = .next { s with link := {
        s.link.replied q (0x60 :: 0x00 :: p :: c :: p :: (le 2 body.length ++ body ++ [ck])) .nothing with
          counters := ⟨0, 0, 0, 0, 0, 0, 0, 0, 0, 0⟩ } }) ∧
      (c = 1 → p = 3 → ∃ v, exec (.getLog q [p, c]) s = .next (({ s with ports := v } : State).replied q
          (0x60 :: 0x00 :: p :: c :: p :: (le 2 body.length ++ body ++ [ck]))) ∧
        ∀ x : Port, v[x] = { s.port x with stats := ⟨0, 0, 0, 0, 0, 0⟩ })) ∧
    pageBody 0 (acceptFrame s) = some (0 :: le 2 32 ++
      1 :: le 2 (5 + (s.log.ring.map (fun e => 21 + 7 * e.recent.length)).sum) ++ 2 :: le 2 54 ++ 3 :: le 2 100 ++
      4 :: le 2 (5 + 5 * s.countSlots StagingSlot.isStranded) ++ le 4 s.log.uptime.toNat ++ le 2 s.log.errorCount.toNat ++
      [byte s.log.ring.length, flagByte (decide (s.log.ring ≠ []))] ++
      le 4 (match s.log.ring with | e :: _ => e.number.toNat | [] => 0) ++ [byte (s.countSlots StagingSlot.isStranded)]) ∧
    pageBody 1 (acceptFrame s) = some (byte s.log.ring.length :: s.log.ring.flatMap (fun e =>
      le 4 e.number.toNat ++ le 4 e.uptime.toNat ++ [e.cause.code, e.source.code,
        byte (e.tag.isSome.toNat + 2 * e.lbn.isSome.toNat + 4 * e.port.isSome.toNat + 8 * e.pbn.isSome.toNat),
        byte (match e.tag with | some t => t.val | none => 0)] ++ le 3 (e.lbn.getD 0) ++
      [byte (match e.port with | some p => p.val | none => 0)] ++ le 3 (e.pbn.getD 0) ++
      [byte e.attempts, byte e.recent.length] ++ e.recent.flatMap (fun h =>
        [byte h.tag.val, h.kind.code, byte (h.urgent.toNat + 2 * h.through.toNat + 4 * h.range.isSome.toNat)] ++
          le 3 (match h.range with | some g => g.first | none => 0) ++
          [byte (match h.range with | some g => g.count | none => 0)]))) ∧
    pageBody 2 (acceptFrame s) = some (1 :: (le 4 (satInc s.link.counters.framesAccepted).toNat ++
      2 :: (le 4 s.link.counters.crcErrors.toNat ++ 3 :: (le 4 s.link.counters.framingErrors.toNat ++
      4 :: (le 4 s.link.counters.duplicateMessages.toNat ++ 5 :: (le 4 s.link.counters.sequenceErrors.toNat ++
      6 :: (le 4 s.link.counters.reportsResent.toNat ++ 7 :: (le 4 s.link.counters.linkLostEvents.toNat ++
      8 :: (le 4 s.link.counters.linkResets.toNat ++ 9 :: (le 4 s.link.counters.breaks.toNat ++
      10 :: (le 4 s.link.counters.oversizeFrames.toNat ++ []))))))))))) ∧
    pageBody 3 (acceptFrame s) = some (([0, 1, 2, 3] : List Port).flatMap (fun p =>
      le 4 (s.port p).stats.blocksRead.toNat ++ le 4 (s.port p).stats.blocksProgrammed.toNat ++
      le 4 (s.port p).stats.laneRetries.toNat ++ le 4 (s.port p).stats.opTimeouts.toNat ++
      le 4 (s.port p).stats.checkFailures.toNat ++ le 4 (s.port p).stats.programFailures.toNat)) ∧
    pageBody 4 (acceptFrame s) = some (byte (s.countSlots StagingSlot.isStranded) :: allSlots.flatMap (fun i =>
      match s.slot i with
      | .stranded x _ _ r => byte i.val :: (le 3 x ++ [r.code])
      | _ => []))

/-! ## The link -/

/-- LINK-SYNC, taken whatever E is (R208, R210): E becomes q + 1, LOST clears and ATTN follows, the window's reports are
due again with resend counts 0, the one in transmission at its end, and the reply is cached, with E and the window's
length. With fields it is refused MALFORMED, uncached, and E stands. -/
def Obligations.LinkSyncResult : Prop :=
  ∀ (s : State) (q : Byte), s.receives = true → s.link.resetWait = .noReset → s.link.heldMessage = none →
    s.link.pendingReply = none →
    (∀ body, body ≠ [] → exec (.linkSync q body) s =
      .next { s with link := { s.link.accepted with pendingReply := some ⟨q, [0x15, 0x01], .nothing⟩ } }) ∧
    (let sending : Option Byte := match s.link.transmission with
        | some ⟨.report n _, _⟩ => some n
        | _ => none
      let reply : Reply := ⟨q, [0x15, 0x00, q + 1, byte s.link.window.length], .nothing⟩
      exec (.linkSync q []) s = .next { s with
        notices := { s.notices with attn := s.anyEnabled s.notices.pending }
        link := { s.link.accepted with
          expected := q + 1, lost := false, cache := some reply, pendingReply := some reply
          window := s.link.window.map (fun w =>
            { w with resends := 0, timer := none, due := if sending = some w.seq then .notDue else .bySync })
          transmission := match s.link.transmission with
            | some ⟨.report n _, f⟩ => some ⟨.report n (s.link.window.any (fun w => w.seq = n)), f⟩
            | x => x } })

/-- What becomes of a message that passes its CRC check (R206, R208): discarded while one is held or a link reset is
awaited, held while a reply is pending, answered from the cache when it repeats the message before E, SEQUENCE_ERROR with
E otherwise. A message taken at once and a held message once the reply is gone pass the same check, `takeMessage`. -/
def Obligations.SequenceCheckResult : Prop :=
  ∀ (s : State) (c : Instr) (k q : Byte) (body : List Byte), carries c k q body →
    (s.receives = false → exec c s = .next s) ∧
    (s.receives = true →
      (s.link.resetWait ≠ .noReset ∨ s.link.heldMessage.isSome = true →
        exec c s = .next { s with link := s.link.accepted }) ∧
      (s.link.resetWait = .noReset → s.link.heldMessage = none →
        (s.link.pendingReply.isSome = true →
          exec c s = .next { s with link := { s.link.accepted with heldMessage := some ⟨k, q, body⟩ } }) ∧
        (s.link.pendingReply = none →
          exec c s = .next (takeMessage ⟨k, q, body⟩ { s with link := s.link.accepted })) ∧
        (s.link.pendingReply = none → k ≠ 0x15 → q ≠ s.link.expected →
          (∀ r, q + 1 = s.link.expected → s.link.cache = some r →
            exec c s = .next { s with link := { s.link.accepted with
              pendingReply := some r
              counters := { s.link.accepted.counters with
                duplicateMessages := satInc s.link.counters.duplicateMessages } } }) ∧
          (q + 1 ≠ s.link.expected ∨ s.link.cache = none →
            exec c s = .next { s with link := { s.link.accepted with
              pendingReply := some ⟨q, [k, 0x13, s.link.expected], .nothing⟩
              counters := { s.link.accepted.counters with
                sequenceErrors := satInc s.link.counters.sequenceErrors } } })))) ∧
    (s.resetLow = false →
      (s.link.heldMessage = none → exec .heldMessageRelease s = .next s) ∧
      (∀ m, s.link.heldMessage = some m → s.link.pendingReply.isSome = true ∨ s.link.resetWait ≠ .noReset →
        exec .heldMessageRelease s = .next s) ∧
      (s.link.heldMessage = some ⟨k, q, body⟩ → s.link.pendingReply = none → s.link.resetWait = .noReset →
        exec .heldMessageRelease s =
          .next (takeMessage ⟨k, q, body⟩ { s with link := { s.link with heldMessage := none } })))

/-- The receiver: the frames it takes and its own events (R204 to R207, R221, R222). Bytes before the start byte are passed
over. A MESSAGE of 1 to 300 bytes whose CRC matches brings the command of its kind, a REPORT_ACK without payload its
acknowledgment, either with another CRC FRAME_CRC_ERROR; a MESSAGE above 300 is oversize, and any other type and length is a
framing error, both at the type byte. The CRC-16 of the bytes 31H to 39H is 29B1H. A frame that fails its CRC check and a
frame given up are counted and the receiver hunts; a header above 300 is counted and the frame, with its CRC, is skipped;
SKIPPING and a break end in hunting. While the receiver cannot take a frame none of them changes anything. That an
OVERSIZE_FRAME of 300 bytes or fewer, a SKIPPING_END outside SKIPPING and a BREAK_END with RXD high change nothing is the
model's choice, log entries 6 and 20. -/
def Obligations.ReceiverEventsResult : Prop :=
  (∀ s : State,
    (s.receives = true →
      exec .frameCrcError s = .next { s with link := { s.link with
        receiver := .hunting, counters := { s.link.counters with crcErrors := satInc s.link.counters.crcErrors } } } ∧
      (∀ cause, exec (.framingError cause) s = .next { s with link := { s.link with
        receiver := .hunting
        counters := { s.link.counters with framingErrors := satInc s.link.counters.framingErrors } } }) ∧
      (∀ n, 300 < n → exec (.oversizeFrame n) s = .next { s with link := { s.link with
        receiver := .skipping (n + 3)
        counters := { s.link.counters with oversizeFrames := satInc s.link.counters.oversizeFrames } } }) ∧
      ∀ n, n ≤ 300 → exec (.oversizeFrame n) s = .next s) ∧
    (s.receives = false → exec .frameCrcError s = .next s ∧ (∀ cause, exec (.framingError cause) s = .next s) ∧
      ∀ n, exec (.oversizeFrame n) s = .next s) ∧
    (s.resetLow = false →
      (∀ n, s.link.receiver = .skipping n →
        exec .skippingEnd s = .next { s with link := { s.link with receiver := .hunting } }) ∧
      ((∀ n, s.link.receiver ≠ .skipping n) → exec .skippingEnd s = .next s) ∧
      (s.link.rxdLow = true →
        exec .breakEnd s = .next { s with link := { s.link with rxdLow := false, receiver := .hunting } }) ∧
      (s.link.rxdLow = false → exec .breakEnd s = .next s))) ∧
  crc16 [0x31, 0x32, 0x33, 0x34, 0x35, 0x36, 0x37, 0x38, 0x39] = 0x29B1 ∧
  ∀ (noise rest : List Byte) (b0 b1 q : Byte), (∀ b ∈ noise, b ≠ 0xC7) →
    let n := b0.toNat + 256 * b1.toNat
    receivedCommand noise = none ∧
    (∀ (kind x y : Byte) (body : List Byte), n ≤ 300 → body.length + 1 = n →
      let crc := crc16 (b0 :: b1 :: 0x01 :: q :: kind :: body)
      ∃ c, receivedCommand (noise ++ 0xC7 :: b0 :: b1 :: 0x01 :: q :: kind :: (body ++ x :: y :: rest)) = some (c, rest) ∧
        (x.toNat + 256 * y.toNat = crc.toNat → carries c kind q body) ∧
        (x.toNat + 256 * y.toNat ≠ crc.toNat → c = .frameCrcError)) ∧
    (∀ x y : Byte, n = 0 → let crc := crc16 [b0, b1, 0x04, q]
      receivedCommand (noise ++ 0xC7 :: b0 :: b1 :: 0x04 :: q :: x :: y :: rest) =
        some (if x.toNat + 256 * y.toNat = crc.toNat then .reportAck q else .frameCrcError, rest)) ∧
    (300 < n → receivedCommand (noise ++ 0xC7 :: b0 :: b1 :: 0x01 :: rest) = some (.oversizeFrame n, rest)) ∧
    (∀ ty : Byte, (ty = 0x01 ∧ n = 0) ∨ (ty = 0x04 ∧ n ≠ 0) ∨ (ty ≠ 0x01 ∧ ty ≠ 0x04) →
      receivedCommand (noise ++ 0xC7 :: b0 :: b1 :: ty :: rest) = some (.framingError .badHeader, rest)) ∧
    ∀ (ty : Byte) (tail : List Byte), (ty = 0x01 ∧ 1 ≤ n ∧ n ≤ 300) ∨ (ty = 0x04 ∧ n = 0) → tail.length < n + 2 →
      receivedCommand (noise ++ 0xC7 :: b0 :: b1 :: ty :: q :: tail) = none

/-- A link reset (R45, R67, R93, R138, R183, R216), after a declared break and after the reply to a RESET-LINK. The
conversation starts anew, the rate is 0 after a break and the stored code otherwise, the table and the mover are empty,
FILLING slots go FREE, park is left, every notice is UNREPORTED, and then pressure and the idle timer are evaluated. The
admission counter, staged data, the maps, the log and the link counters live on. The model's choices: the reset is a step of
its own after the reply (log entry 21), a LINK_RESET while none is due changes nothing (6, 21), and neither does a BREAK
while RXD is still low from the one before (19). -/
def Obligations.LinkResetResult : Prop :=
  ∀ s : State, s.resetLow = false →
    let after (byBreak : Bool) (t : State) : Prop :=
      let rate := if byBreak then 0 else s.params.linkRate
      t.link = ⟨.hunting, s.link.rxdLow || byBreak, rate, 0, none, none, none, none, .noReset, 0, [], false,
        { s.link.counters with
          linkResets := satInc s.link.counters.linkResets
          breaks := if byBreak then satInc s.link.counters.breaks else s.link.counters.breaks }⟩ ∧
      (({ s with
        params := { s.params with linkRate := rate }
        link := t.link
        table := ⟨Vector.replicate 16 none, [], [], s.table.counter, none⟩
        mover := ⟨Vector.replicate 16 none, Vector.replicate 16 none, Vector.replicate 8 .free, [], []⟩
        staging := { s.staging with slots := s.staging.slots.map (fun x => if x.isFilling then .free else x) }
        power := if s.power.state = .parking ∨ s.power.state = .parked then
          { s.power with state := .active, marks := Vector.replicate 4 .clear } else s.power
        notices := {
          pending := s.notices.pending.map (fun n => { n with report := .unreported })
          order := (s.notices.pending.filter (fun n => s.params.noticeEnable.getLsbD (n.key.kind.code - 1))).map (·.key)
          attn := s.anyEnabled s.notices.pending } } : State).endsAs t)
    (s.link.rxdLow = false → ∃ t, exec .breakDeclared s = .next t ∧ after true t) ∧
    (s.link.rxdLow = true → exec .breakDeclared s = .next s) ∧
    (s.link.resetWait = .due → ∃ t, exec .linkReset s = .next t ∧ after false t) ∧
    (s.link.resetWait ≠ .due → exec .linkReset s = .next s)

/-- The outbound arbiter (R42, R52, R64, R176, R211, R215, R227): while the transmitter is free the pending reply goes
first, then, unless a link reset is awaited or the link is LOST, the oldest report due, then, where the window has room, a
new COMPLETION, NOTICE, GRANT or READ-DATA in this order, under the next report sequence number. -/
def Obligations.OutboundChoiceResult : Prop :=
  ∀ s : State, s.resetLow = false →
    (s.link.transmission.isSome = true → exec .outboundChoice s = .next s) ∧
    (s.link.transmission = none →
      (∀ r, s.link.pendingReply = some r → exec .outboundChoice s = .next { s with link := { s.link with
        pendingReply := none, transmission := some ⟨.reply r.effect, frameBytes 0x02 r.seq r.payload⟩ } }) ∧
      (s.link.pendingReply = none → s.link.resetWait ≠ .noReset ∨ s.link.lost = true →
        exec .outboundChoice s = .next s) ∧
      (s.link.pendingReply = none → s.link.resetWait = .noReset → s.link.lost = false →
        (∀ older w newer, s.link.window = older ++ w :: newer → (∀ x ∈ older, x.due = .notDue) → w.due ≠ .notDue →
          exec .outboundChoice s = .next { s with link := { s.link with
            counters := { s.link.counters with reportsResent := satInc s.link.counters.reportsResent }
            window := s.link.window.map (fun x => if x.seq = w.seq then { x with
              due := .notDue, resends := if w.due = .byExpiry then x.resends + 1 else x.resends } else x)
            transmission := some ⟨.report w.seq false, frameBytes 0x03 w.seq w.payload⟩ } }) ∧
        ((∀ x ∈ s.link.window, x.due = .notDue) →
          let room : Prop := s.link.window.length < 4 ∧ ∀ x ∈ s.link.window, x.seq ≠ s.link.reportSeq
          let sent (u : State) (owner : ReportOwner) (payload : List Byte) : Host.Outcome State Fault Refusal :=
            .next { u with link := { s.link with
              reportSeq := s.link.reportSeq + 1
              window := s.link.window ++ [⟨s.link.reportSeq, owner, payload, 0, none, .notDue⟩]
              transmission := some ⟨.report s.link.reportSeq false, frameBytes 0x03 s.link.reportSeq payload⟩ } }
          (¬ room → exec .outboundChoice s = .next s) ∧
          (room →
            (∀ t rest r st, s.table.completionOrder = t :: rest → s.request t = some r → r.status = some st →
              exec .outboundChoice s = sent { s with table := { s.table with completionOrder := rest } } (.completion t)
                (0x80 :: byte t.val :: st.code :: byte r.blocksDone :: flagByte r.failingLbn.isSome ::
                  le 3 (r.failingLbn.getD 0))) ∧
            (s.table.completionOrder = [] →
              (∀ k rest n, s.notices.order = k :: rest → s.notice k = some n →
                exec .outboundChoice s = sent { s with notices := { s.notices with
                    pending := s.notices.pending.map (fun x =>
                      if x.key = k then { n with report := .sent s.link.reportSeq 0 } else x)
                    order := s.notices.order.filter (fun x => x ≠ k) } } (.notice k)
                  (0x83 :: byte k.kind.code :: (match k.port with | some p => byte p.val | none => 0xFF) ::
                    byte n.count :: detailBytes n.detail)) ∧
              (s.notices.order = [] →
                (∀ t rest w g, s.mover.grantOrder = t :: rest → s.writeRecord t = some w → w.grant = some g →
                  exec .outboundChoice s = sent { s with mover := { s.mover with
                      grantOrder := rest
                      writes := s.mover.writes.set t (some { w with
                        grant := some { g with report := .inWindow s.link.reportSeq } }) } } (.grant t)
                    [0x81, byte t.val, byte g.first, byte g.slots.length]) ∧
                (s.mover.grantOrder = [] →
                  (∀ r rest o i x d, s.mover.fillOrder = r :: rest → s.returnSlot r = .filled o i x d →
                    exec .outboundChoice s = sent { s with mover := { s.mover with
                        fillOrder := rest, returns := s.mover.returns.set r (.sent o i x d) } } (.readData r)
                      (0x82 :: byte o.tag.val :: byte i :: d)) ∧
                  (s.mover.fillOrder = [] → exec .outboundChoice s = .next s))))))))

/-- The end of a transmission (R203, R210, R213 to R216), and a resend timer that reaches its moment: with fewer than three
resends made the report is due again, with three the link is LOST, with its history entry, its notice and ATTN. The model's
choices: TRANSMISSION_END with nothing sent and an expiry of a timer that does not run change nothing (log entry 6), nor does
an expiry before its moment (2), and the end of a RESET-LINK's reply marks the link reset due (21). -/
def Obligations.TransmissionAndTimersResult : Prop :=
  ∀ s : State, s.resetLow = false →
    (s.link.transmission = none → exec .transmissionEnd s = .next s) ∧
    (∀ f, s.link.transmission = some ⟨.reply .nothing, f⟩ →
      exec .transmissionEnd s = .next { s with link := { s.link with transmission := none } }) ∧
    (∀ f rate, s.link.transmission = some ⟨.reply (.changeRate rate), f⟩ →
      exec .transmissionEnd s = .next { s with link := { s.link with
        transmission := none, lineRate := rate, receiver := .hunting } }) ∧
    (∀ f, s.link.transmission = some ⟨.reply .resetLink, f⟩ →
      exec .transmissionEnd s = .next { s with link := { s.link with transmission := none, resetWait := .due } }) ∧
    (∀ n due f, s.link.transmission = some ⟨.report n due, f⟩ →
      exec .transmissionEnd s = .next { s with link := { s.link with
        transmission := none
        window := if s.link.lost then s.link.window else s.link.window.map (fun w => if w.seq = n then
            (if due then { w with due := .bySync } else { w with timer := some (s.clock + s.params.reportTimeout) })
          else w) } }) ∧
    (∀ n, (∀ w ∈ s.link.window, w.seq ≠ n) → exec (.reportTimerExpiry n) s = .next s) ∧
    (∀ older w newer, s.link.window = older ++ w :: newer → (∀ x ∈ older, x.seq ≠ w.seq) →
      ((∀ m, w.timer = some m → s.clock < m) → exec (.reportTimerExpiry w.seq) s = .next s) ∧
      (∀ m, w.timer = some m → m ≤ s.clock →
        (w.resends < 3 → exec (.reportTimerExpiry w.seq) s = .next { s with link := { s.link with
          window := s.link.window.map (fun x =>
            if x.seq = w.seq then { x with timer := none, due := .byExpiry } else x) } }) ∧
        (3 ≤ w.resends → ∃ ns, exec (.reportTimerExpiry w.seq) s = .next { s with
            link := { s.link with
              lost := true
              window := s.link.window.map (fun x => { x with timer := none, due := .notDue })
              counters := { s.link.counters with linkLostEvents := satInc s.link.counters.linkLostEvents } }
            log := { s.log with
              ring := (⟨s.log.nextNumber, s.log.uptime, .linkLost, .link, none, none, none, none, 4, s.log.recent⟩ ::
                s.log.ring).take 12
              nextNumber := if s.log.nextNumber = 0xFFFFFFFF then 1 else s.log.nextNumber + 1 }
            notices := ns } ∧ ns.attn = true ∧
          (∀ k, ns.pending.find? (fun x => x.key = k) = if k = ⟨.logAdded, none⟩
            then some (raisedOnce k (.number s.log.nextNumber) (s.notice k)) else s.notice k))))

/-- REPORT_ACK (R43, R52, R53, R59, R64, R177, R178, R212): a number in no window entry changes nothing more; otherwise
the report leaves the window and its owner goes on: a slot goes FREE and every hold list loses its tag, a grant's data
timer starts, a return slot goes FREE and its block counts, a notice goes or becomes REPORTED or is reported anew. -/
def Obligations.ReportAckResult : Prop :=
  ∀ s : State,
    (s.receives = false → ∀ n, exec (.reportAck n) s = .next s) ∧
    (s.receives = true →
      (∀ n, (∀ w ∈ s.link.window, w.seq ≠ n) → exec (.reportAck n) s = .next { s with link := s.link.accepted }) ∧
      ∀ older w newer, s.link.window = older ++ w :: newer → (∀ x ∈ older, x.seq ≠ w.seq) →
        let left : Link := { s.link.accepted with window := s.link.window.filter (fun x => x.seq ≠ w.seq) }
        (∀ t, w.owner = .completion t → (∀ r, s.request t = some r → r.state ≠ .reporting) →
          ∃ u, exec (.reportAck w.seq) s = .next u ∧ u.link = left ∧ s.endsAs u) ∧
        (∀ t r, w.owner = .completion t → s.request t = some r → r.state = .reporting →
          ∃ u, exec (.reportAck w.seq) s = .next u ∧ u.link = left ∧ u.request t = none ∧
            u.table.admissionOrder = s.table.admissionOrder.filter (fun x => x ≠ t) ∧
            (∀ v q, u.request v = some q → q.state = .held → t ∉ q.holdList ∧ (TableGood s → q.holdList ≠ [])) ∧
            s.keepsOthers u t ∧ u.mapStore = s.mapStore ∧ u.params = s.params ∧ u.log.recent = s.log.recent) ∧
        (∀ t, w.owner = .grant t →
          (∀ x g, s.writeRecord t = some x → x.grant = some g → g.report = .inWindow w.seq →
            exec (.reportAck w.seq) s = .next { s with
              link := left
              mover := { s.mover with writes := s.mover.writes.set t (some { x with
                grant := some { g with report := .acknowledged }
                timer := some (s.clock + 10 * s.params.dataTimeout) }) } }) ∧
          ((∀ x g, s.writeRecord t = some x → x.grant = some g → g.report ≠ .inWindow w.seq) →
            exec (.reportAck w.seq) s = .next { s with link := left })) ∧
        (∀ i o j x d, w.owner = .readData i → s.returnSlot i = .sent o j x d → (∀ v, ¬ s.wantsReturn v) →
          ∃ u, exec (.reportAck w.seq) s = .next u ∧ u.link = left ∧
            (∀ k, u.returnSlot k = if k = i then .free else s.returnSlot k) ∧
            (∀ v r, s.request v = some r → (v ≠ o.tag ∨ r.admission ≠ o.admission ∨ r.kind ≠ .read ∨ r.state ≠ .active) →
              u.request v = some r) ∧
            (∀ r g, s.request o.tag = some r → r.admission = o.admission → r.kind = .read → r.state = .active →
              r.range = some g →
              (r.blocksDone + 1 ≠ g.count → u.request o.tag = some { r with blocksDone := r.blocksDone + 1 }) ∧
              (r.blocksDone + 1 = g.count → u.request o.tag = some { r with
                  blocksDone := r.blocksDone + 1, state := .reporting, status := some .good, failingLbn := none
                  holdList := [], flushSet := [], settleSet := [] } ∧
                u.fetchRecord o.tag = none ∧ u.table.completionOrder = s.table.completionOrder ++ [o.tag])) ∧
            u.mapStore = s.mapStore ∧ u.params = s.params ∧ u.log = s.log ∧ (∀ k, u.slot k = s.slot k)) ∧
        (∀ k n fresh, w.owner = .notice k →
          n ∈ s.notices.pending → n.report = .sent w.seq fresh →
          (∀ x ∈ s.notices.pending, ∀ f, x.report = .sent w.seq f → x = n) →
          let put (m : Notice) : List Notice := s.notices.pending.map (fun x => if x.key = n.key then m else x)
          let ends (ns : Notices) : Prop := exec (.reportAck w.seq) s = .next { s with link := left, notices := { ns with
            attn := s.link.lost || s.anyEnabled ns.pending } }
          let again : List NoticeKey := s.notices.order ++
            (if s.params.noticeEnable.getLsbD (n.key.kind.code - 1) then [n.key] else [])
          (fresh = 0 → s.params.held = false → ends (s.noticesWithout (fun x => decide (x.key = n.key)))) ∧
          (fresh = 0 → s.params.held = true → ends { s.notices with pending := put { n with report := .reported } }) ∧
          (fresh ≠ 0 → s.params.held = false →
            ends { s.notices with pending := put { n with count := fresh, report := .unreported }, order := again }) ∧
          (fresh ≠ 0 → s.params.held = true →
            ends { s.notices with pending := put { n with report := .unreported }, order := again })))

/-! ## Commit and start-up -/

/-- MAP-COMMIT (R20, R21, R143, R144, R145): the six refusals in their order, validation naming the lowest failing
extent and the first check it fails, each changing nothing; otherwise the commit begins, with its targets, the writes each
owes and a limit 5 s ahead, PARKING and PARKED return to ACTIVE, and the first quiesce evaluation is made. -/
def Obligations.MapCommitResult : Prop :=
  ∀ (s : State) (q : Byte), s.takes q →
    let refused (st reason index : Byte) : Host.Outcome State Fault Refusal :=
      .next (s.replied q [0x34, st, reason, index, 0, 0, 0, 0, 0])
    (∀ body, body ≠ [] → exec (.mapCommit q body) s = refused 0x01 0 0) ∧
    (s.mapStore.ready = false → exec (.mapCommit q []) s = refused 0x03 0 0) ∧
    (∀ c, s.mapStore.ready = true → s.mapStore.commit = some c →
      exec (.mapCommit q []) s = refused 0x05 c.phase.code 0) ∧
    (s.mapStore.ready = true → s.mapStore.commit = none →
      ((∀ p, s.isTargetPort p = false) → exec (.mapCommit q []) s = refused 0x10 0 0) ∧
      (∀ p, s.isTargetPort p = true →
        (s.mapStore.active.generation = 0xFFFFFFFF → exec (.mapCommit q []) s = refused 0x0F 0x03 8) ∧
        (s.mapStore.active.generation ≠ 0xFFFFFFFF →
          (∀ i r, s.draftFails i r → (∀ j x, j < i → ¬ s.draftFails j x) →
            (∀ x : InvalidReason, x.code < r.code → ¬ s.draftFails i x) →
            exec (.mapCommit q []) s = refused 0x0F r.code (byte i.val)) ∧
          ((∀ i r, ¬ s.draftFails i r) →
            let g := s.mapStore.active.generation + 1
            let record : Commit := ⟨.quiesce (s.clock + 5000), g,
              (allPorts.filter s.isTargetPort).map (fun p => ⟨p, .awaitingTentative,
                match (s.port p).member.bind (·.newest) with
                | some (n, _) => if g ≤ n then 2 else 1
                | none => 1, none⟩), false, [], []⟩
            ∃ t, exec (.mapCommit q []) s = .next t ∧
              t.link = s.link.replied q ([0x34, 0x14, 0, 0] ++ (le 4 g.toNat ++
                [byte ((s.isTargetPort 0).toNat + 2 * (s.isTargetPort 1).toNat + 4 * (s.isTargetPort 2).toNat +
                  8 * (s.isTargetPort 3).toNat)])) .nothing ∧
              ∀ k : Commit, (s.quiesced → k = record.asked) → (¬ s.quiesced → k = record) →
                (({ s with
                  mapStore := { s.mapStore with commit := some k }
                  power := if s.power.state = .parking ∨ s.power.state = .parked then
                    { s.power with state := .active, marks := Vector.replicate 4 .clear } else s.power } : State).restsAs
                  t)))))

/-- The quiesce evaluation and its limit (R145, R146, R148, R154). In QUIESCE the condition asks every target's first map
write; an expired limit makes its history entry and ends the commit FAILED_QUIESCE, with COMMIT_DONE, where no port is in
PROBE and no map write is in flight. In another phase QUIESCE_TIMEOUT changes nothing (log entry 6), and nothing before the
limit (log entry 2): both are the model's choice. -/
def Obligations.QuiesceResult : Prop :=
  ∀ s : State, s.resetLow = false →
    ((s.mapStore.commit = none ∨ ¬ s.quiesced ∨
        ∃ c, s.mapStore.commit = some c ∧ ∀ m, c.phase ≠ .quiesce m) →
      ∃ t, exec .quiesceEvaluation s = .next t ∧ s.restsAs t ∧ t.link = s.link) ∧
    (∀ c m, s.mapStore.commit = some c → c.phase = .quiesce m →
      (s.quiesced → ∃ t, exec .quiesceEvaluation s = .next t ∧ t.link = s.link ∧
        (({ s with mapStore := { s.mapStore with commit := some c.asked } } : State).restsAs t)) ∧
      (s.clock < m → exec .quiesceTimeout s = .next s) ∧
      (m ≤ s.clock → (∀ p, (s.port p).cls ≠ .probe) →
        (∀ p o w g y b, (s.port p).op = some o → o.user ≠ .mapWrite w g y b) →
        ∃ t ns, exec .quiesceTimeout s = .next t ∧ t.link = s.link ∧
          (({ s with
            mapStore := { s.mapStore with commit := none }
            log := { s.log with
              ring := (⟨s.log.nextNumber, s.log.uptime, .quiesceTimeout, .map, none, none, none, none, 0,
                s.log.recent⟩ :: s.log.ring).take 12
              nextNumber := if s.log.nextNumber = 0xFFFFFFFF then 1 else s.log.nextNumber + 1 }
            notices := ns } : State).endsAs t) ∧
          ∀ k, ns.pending.find? (fun x => x.key = k) =
            if k = ⟨.commitDone, none⟩ then some (raisedOnce k
              (.commit .failedQuiesce s.mapStore.active.generation c.written c.failed) (s.notice k))
            else if k = ⟨.logAdded, none⟩ then some (raisedOnce k (.number s.log.nextNumber) (s.notice k))
            else s.notice k)) ∧
    ((s.mapStore.commit = none ∨ ∃ c, s.mapStore.commit = some c ∧ ∀ m, c.phase ≠ .quiesce m) →
      exec .quiesceTimeout s = .next s)

/-- The end of start-up (R3, R104, R157, R158, R159): where the part is STARTING and every port is EMPTY, FAILED or holds
the findings of a probe, the newest record of the lowest-numbered port that has it becomes both maps, or both stay
empty; every port that held findings is classified against it, the part is READY. With no slot DIRTY, as always before
READY, PORT_ATTACHED is raised with the class of each port classified, and START_DONE with the generation. -/
def Obligations.StartupEndResult : Prop :=
  ∀ s : State, s.resetLow = false →
    (s.mapStore.ready = true → exec .startupEnd s = .next s) ∧
    ((∃ p, (s.port p).cls ≠ .empty ∧ (s.port p).cls ≠ .failed ∧ s.holdsFindings p = false) →
      exec .startupEnd s = .next s) ∧
    (s.mapStore.ready = false →
      (∀ p, (s.port p).cls = .empty ∨ (s.port p).cls = .failed ∨ s.holdsFindings p = true) →
      ∀ m, ((∀ p, s.heldRecord p = none) ∧ m = ⟨0, 0, Vector.replicate 8 ⟨false, .readWrite, 0, 0, 0, 0⟩⟩) ∨
          (∃ p, s.heldRecord p = some m ∧ (∀ x n, s.heldRecord x = some n → n.generation ≤ m.generation) ∧
            ∀ x n, x < p → s.heldRecord x = some n → n.generation ≠ m.generation) →
        ∃ t, exec .startupEnd s = .next t ∧ t.link = s.link ∧ t.params = s.params ∧
          t.mapStore = ⟨m, m, s.mapStore.ceiling, true, s.mapStore.commit⟩ ∧
          (∀ p, (t.port p).cls = if s.holdsFindings p then
              (match s.heldRecord p with
              | none => .blank
              | some n => if n.pool ≠ m.pool then .foreign
                else if n.generation = m.generation then .pooled
                else if n.generation < m.generation then .stale else .foreign)
            else (s.port p).cls) ∧
          (∀ p pr, s.holdsFindings p = true → (s.port p).probe = some pr → (t.port p).probe = none ∧
            (t.port p).member = some ⟨pr.capacity, pr.identity,
              (s.heldRecord p).map (fun n => (n.generation, n.pool))⟩) ∧
          ((∀ i, (s.slot i).isDirty = false) →
            t.notice ⟨.startDone, none⟩ =
              some (raisedOnce ⟨.startDone, none⟩ (.number m.generation) (s.notice ⟨.startDone, none⟩)) ∧
            ∀ p, t.notice ⟨.portAttached, some p⟩ = if s.holdsFindings p
              then some (raisedOnce ⟨.portAttached, some p⟩ (.portClass (t.port p).cls) (s.notice ⟨.portAttached, some p⟩))
              else s.notice ⟨.portAttached, some p⟩))

/-! ## Power -/

/-- PARK and UNPARK (R166, R169): PARK is refused MALFORMED with fields and STARTING before READY, and otherwise takes
ACTIVE and LOW_POWER to PARKING; UNPARK is taken in every start-up state and takes PARKING and PARKED back to ACTIVE,
every sleep mark CLEAR. In the other power states they change nothing. Both report the state. That each refusal is two bytes
is the model's reading, log entry 12. -/
def Obligations.ParkMessagesResult : Prop :=
  ∀ (s : State) (q : Byte), s.takes q →
    (∀ body, body ≠ [] → exec (.park q body) s = .next (s.replied q [0x40, 0x01]) ∧
      exec (.unpark q body) s = .next (s.replied q [0x41, 0x01])) ∧
    (s.mapStore.ready = false → exec (.park q []) s = .next (s.replied q [0x40, 0x03])) ∧
    (s.mapStore.ready = true → s.power.state = .active ∨ s.power.state = .lowPower →
      ∃ t, exec (.park q []) s = .next t ∧ t.link = s.link.replied q [0x40, 0x00, 0x02] .nothing ∧
        (({ s with power := { s.power with state := .parking } } : State).restsAs t)) ∧
    (s.mapStore.ready = true → s.power.state = .parking ∨ s.power.state = .parked →
      exec (.park q []) s = .next (s.replied q [0x40, 0x00, s.power.state.code])) ∧
    (s.power.state = .active ∨ s.power.state = .lowPower →
      exec (.unpark q []) s = .next (s.replied q [0x41, 0x00, s.power.state.code])) ∧
    (s.power.state = .parking ∨ s.power.state = .parked →
      ∃ t, exec (.unpark q []) s = .next t ∧ t.link = s.link.replied q [0x41, 0x00, 0x00] .nothing ∧
        (({ s with power := { s.power with state := .active, marks := Vector.replicate 4 .clear } } : State).restsAs t))

/-- The idle timer's expiry and the end of PARKING (R114, R163, R164, R167): the power state becomes LOW_POWER or PARKED,
and SLEEP is asked of each port whose engine is IDLE with no operation: it starts on a POOLED, STALE, FOREIGN or BLANK port
and is DECLINED elsewhere. PARKED raises its notice. While the park condition fails nothing changes; that an expiry with no
timer running or outside ACTIVE changes nothing is the model's choice, log entry 6, and one before its moment log entry 2. -/
def Obligations.PowerEventsResult : Prop :=
  ∀ s : State, s.resetLow = false →
    let asked (t : State) : Prop := ∀ p,
      (s.laneIdle p = true → s.isTargetPort p = true → t.mark p = .pending ∧
        t.port p = { s.port p with engine := .busy, op := some ⟨.sleep, .power, 1, s.clock + 15, false⟩ }) ∧
      (s.laneIdle p = true → s.isTargetPort p = false → t.mark p = .declined ∧ t.port p = s.port p) ∧
      (s.laneIdle p = false → t.mark p = .clear ∧ t.port p = s.port p)
    let stands (t : State) : Prop := t.link = s.link ∧ t.table = s.table ∧ t.mover = s.mover ∧ t.staging = s.staging ∧
      t.mapStore = s.mapStore ∧ t.params = s.params ∧ t.log = s.log ∧ t.power.idleTimer = none
    let ready : Prop := s.power.state = .parking ∧
      (∀ t r, s.request t = some r → r.state ≠ .active ∧ r.state ≠ .settling ∧ r.state ≠ .aborting) ∧
      (∀ p, (s.port p).op = none) ∧ ∀ c, s.mapStore.commit = some c → c.phase ≠ .tentative ∧ c.phase ≠ .final
    (((∀ m, s.power.idleTimer = some m → s.clock < m) ∨ s.power.state ≠ .active) →
      exec .idleTimerExpiry s = .next s) ∧
    (∀ m, s.power.idleTimer = some m → m ≤ s.clock → s.power.state = .active →
      ∃ t, exec .idleTimerExpiry s = .next t ∧ stands t ∧ t.power.state = .lowPower ∧ asked t ∧
        t.notices = s.notices) ∧
    (¬ ready → exec .parkComplete s = .next s) ∧
    (ready → ∃ t, exec .parkComplete s = .next t ∧ stands t ∧ t.power.state = .parked ∧ asked t ∧
      ∀ k, t.notice k = if k = ⟨.parked, none⟩
        then some (raisedOnce k (.count (32 - s.countSlots StagingSlot.isFree)) (s.notice k)) else s.notice k)

end
end

