-- ==== Sys2Proof/Laws/State.lean ====
section
/-! SUPPORT. What one update leaves of each part of the state, and what it puts there: one lemma for each pair. -/

namespace Sys2Proof.Machine
namespace State

variable (s : State)


/-! ### setSlot -/

@[simp] theorem setSlot_pending (t : Tag) (x : Option Request) : (s.setSlot t x).pending = s.pending := rfl
@[simp] theorem setSlot_resetLow (t : Tag) (x : Option Request) : (s.setSlot t x).resetLow = s.resetLow := rfl
@[simp] theorem setSlot_presence (t : Tag) (x : Option Request) : (s.setSlot t x).presence = s.presence := rfl
@[simp] theorem setSlot_clock (t : Tag) (x : Option Request) : (s.setSlot t x).clock = s.clock := rfl
@[simp] theorem setSlot_freeDraws (t : Tag) (x : Option Request) : (s.setSlot t x).freeDraws = s.freeDraws := rfl
@[simp] theorem setSlot_params (t : Tag) (x : Option Request) : (s.setSlot t x).params = s.params := rfl
@[simp] theorem setSlot_link (t : Tag) (x : Option Request) : (s.setSlot t x).link = s.link := rfl
@[simp] theorem setSlot_mover (t : Tag) (x : Option Request) : (s.setSlot t x).mover = s.mover := rfl
@[simp] theorem setSlot_staging (t : Tag) (x : Option Request) : (s.setSlot t x).staging = s.staging := rfl
@[simp] theorem setSlot_mapStore (t : Tag) (x : Option Request) : (s.setSlot t x).mapStore = s.mapStore := rfl
@[simp] theorem setSlot_ports (t : Tag) (x : Option Request) : (s.setSlot t x).ports = s.ports := rfl
@[simp] theorem setSlot_power (t : Tag) (x : Option Request) : (s.setSlot t x).power = s.power := rfl
@[simp] theorem setSlot_notices (t : Tag) (x : Option Request) : (s.setSlot t x).notices = s.notices := rfl
@[simp] theorem setSlot_log (t : Tag) (x : Option Request) : (s.setSlot t x).log = s.log := rfl
@[simp] theorem setSlot_writeRecord (t : Tag) (x : Option Request) (t' : Tag) : (s.setSlot t x).writeRecord t' = s.writeRecord t' := rfl
@[simp] theorem setSlot_fetchRecord (t : Tag) (x : Option Request) (t' : Tag) : (s.setSlot t x).fetchRecord t' = s.fetchRecord t' := rfl
@[simp] theorem setSlot_returnSlot (t : Tag) (x : Option Request) (r' : RetNo) : (s.setSlot t x).returnSlot r' = s.returnSlot r' := rfl
@[simp] theorem setSlot_slot (t : Tag) (x : Option Request) (i' : SlotNo) : (s.setSlot t x).slot i' = s.slot i' := rfl
@[simp] theorem setSlot_port (t : Tag) (x : Option Request) (p' : Port) : (s.setSlot t x).port p' = s.port p' := rfl
@[simp] theorem setSlot_mark (t : Tag) (x : Option Request) (p' : Port) : (s.setSlot t x).mark p' = s.mark p' := rfl

/-! ### setRequest -/

@[simp] theorem setRequest_pending (t : Tag) (x : Request) : (s.setRequest t x).pending = s.pending := rfl
@[simp] theorem setRequest_resetLow (t : Tag) (x : Request) : (s.setRequest t x).resetLow = s.resetLow := rfl
@[simp] theorem setRequest_presence (t : Tag) (x : Request) : (s.setRequest t x).presence = s.presence := rfl
@[simp] theorem setRequest_clock (t : Tag) (x : Request) : (s.setRequest t x).clock = s.clock := rfl
@[simp] theorem setRequest_freeDraws (t : Tag) (x : Request) : (s.setRequest t x).freeDraws = s.freeDraws := rfl
@[simp] theorem setRequest_params (t : Tag) (x : Request) : (s.setRequest t x).params = s.params := rfl
@[simp] theorem setRequest_link (t : Tag) (x : Request) : (s.setRequest t x).link = s.link := rfl
@[simp] theorem setRequest_mover (t : Tag) (x : Request) : (s.setRequest t x).mover = s.mover := rfl
@[simp] theorem setRequest_staging (t : Tag) (x : Request) : (s.setRequest t x).staging = s.staging := rfl
@[simp] theorem setRequest_mapStore (t : Tag) (x : Request) : (s.setRequest t x).mapStore = s.mapStore := rfl
@[simp] theorem setRequest_ports (t : Tag) (x : Request) : (s.setRequest t x).ports = s.ports := rfl
@[simp] theorem setRequest_power (t : Tag) (x : Request) : (s.setRequest t x).power = s.power := rfl
@[simp] theorem setRequest_notices (t : Tag) (x : Request) : (s.setRequest t x).notices = s.notices := rfl
@[simp] theorem setRequest_log (t : Tag) (x : Request) : (s.setRequest t x).log = s.log := rfl
@[simp] theorem setRequest_writeRecord (t : Tag) (x : Request) (t' : Tag) : (s.setRequest t x).writeRecord t' = s.writeRecord t' := rfl
@[simp] theorem setRequest_fetchRecord (t : Tag) (x : Request) (t' : Tag) : (s.setRequest t x).fetchRecord t' = s.fetchRecord t' := rfl
@[simp] theorem setRequest_returnSlot (t : Tag) (x : Request) (r' : RetNo) : (s.setRequest t x).returnSlot r' = s.returnSlot r' := rfl
@[simp] theorem setRequest_slot (t : Tag) (x : Request) (i' : SlotNo) : (s.setRequest t x).slot i' = s.slot i' := rfl
@[simp] theorem setRequest_port (t : Tag) (x : Request) (p' : Port) : (s.setRequest t x).port p' = s.port p' := rfl
@[simp] theorem setRequest_mark (t : Tag) (x : Request) (p' : Port) : (s.setRequest t x).mark p' = s.mark p' := rfl

/-! ### enterSlot -/

@[simp] theorem enterSlot_pending (t : Tag) (x : Request) : (s.enterSlot t x).pending = s.pending := rfl
@[simp] theorem enterSlot_resetLow (t : Tag) (x : Request) : (s.enterSlot t x).resetLow = s.resetLow := rfl
@[simp] theorem enterSlot_presence (t : Tag) (x : Request) : (s.enterSlot t x).presence = s.presence := rfl
@[simp] theorem enterSlot_clock (t : Tag) (x : Request) : (s.enterSlot t x).clock = s.clock := rfl
@[simp] theorem enterSlot_freeDraws (t : Tag) (x : Request) : (s.enterSlot t x).freeDraws = s.freeDraws := rfl
@[simp] theorem enterSlot_params (t : Tag) (x : Request) : (s.enterSlot t x).params = s.params := rfl
@[simp] theorem enterSlot_link (t : Tag) (x : Request) : (s.enterSlot t x).link = s.link := rfl
@[simp] theorem enterSlot_mover (t : Tag) (x : Request) : (s.enterSlot t x).mover = s.mover := rfl
@[simp] theorem enterSlot_staging (t : Tag) (x : Request) : (s.enterSlot t x).staging = s.staging := rfl
@[simp] theorem enterSlot_mapStore (t : Tag) (x : Request) : (s.enterSlot t x).mapStore = s.mapStore := rfl
@[simp] theorem enterSlot_ports (t : Tag) (x : Request) : (s.enterSlot t x).ports = s.ports := rfl
@[simp] theorem enterSlot_power (t : Tag) (x : Request) : (s.enterSlot t x).power = s.power := rfl
@[simp] theorem enterSlot_notices (t : Tag) (x : Request) : (s.enterSlot t x).notices = s.notices := rfl
@[simp] theorem enterSlot_log (t : Tag) (x : Request) : (s.enterSlot t x).log = s.log := rfl
@[simp] theorem enterSlot_writeRecord (t : Tag) (x : Request) (t' : Tag) : (s.enterSlot t x).writeRecord t' = s.writeRecord t' := rfl
@[simp] theorem enterSlot_fetchRecord (t : Tag) (x : Request) (t' : Tag) : (s.enterSlot t x).fetchRecord t' = s.fetchRecord t' := rfl
@[simp] theorem enterSlot_returnSlot (t : Tag) (x : Request) (r' : RetNo) : (s.enterSlot t x).returnSlot r' = s.returnSlot r' := rfl
@[simp] theorem enterSlot_slot (t : Tag) (x : Request) (i' : SlotNo) : (s.enterSlot t x).slot i' = s.slot i' := rfl
@[simp] theorem enterSlot_port (t : Tag) (x : Request) (p' : Port) : (s.enterSlot t x).port p' = s.port p' := rfl
@[simp] theorem enterSlot_mark (t : Tag) (x : Request) (p' : Port) : (s.enterSlot t x).mark p' = s.mark p' := rfl

/-! ### setWriteRecord -/

@[simp] theorem setWriteRecord_pending (t : Tag) (x : Option WriteRecord) : (s.setWriteRecord t x).pending = s.pending := rfl
@[simp] theorem setWriteRecord_resetLow (t : Tag) (x : Option WriteRecord) : (s.setWriteRecord t x).resetLow = s.resetLow := rfl
@[simp] theorem setWriteRecord_presence (t : Tag) (x : Option WriteRecord) : (s.setWriteRecord t x).presence = s.presence := rfl
@[simp] theorem setWriteRecord_clock (t : Tag) (x : Option WriteRecord) : (s.setWriteRecord t x).clock = s.clock := rfl
@[simp] theorem setWriteRecord_freeDraws (t : Tag) (x : Option WriteRecord) : (s.setWriteRecord t x).freeDraws = s.freeDraws := rfl
@[simp] theorem setWriteRecord_params (t : Tag) (x : Option WriteRecord) : (s.setWriteRecord t x).params = s.params := rfl
@[simp] theorem setWriteRecord_link (t : Tag) (x : Option WriteRecord) : (s.setWriteRecord t x).link = s.link := rfl
@[simp] theorem setWriteRecord_table (t : Tag) (x : Option WriteRecord) : (s.setWriteRecord t x).table = s.table := rfl
@[simp] theorem setWriteRecord_staging (t : Tag) (x : Option WriteRecord) : (s.setWriteRecord t x).staging = s.staging := rfl
@[simp] theorem setWriteRecord_mapStore (t : Tag) (x : Option WriteRecord) : (s.setWriteRecord t x).mapStore = s.mapStore := rfl
@[simp] theorem setWriteRecord_ports (t : Tag) (x : Option WriteRecord) : (s.setWriteRecord t x).ports = s.ports := rfl
@[simp] theorem setWriteRecord_power (t : Tag) (x : Option WriteRecord) : (s.setWriteRecord t x).power = s.power := rfl
@[simp] theorem setWriteRecord_notices (t : Tag) (x : Option WriteRecord) : (s.setWriteRecord t x).notices = s.notices := rfl
@[simp] theorem setWriteRecord_log (t : Tag) (x : Option WriteRecord) : (s.setWriteRecord t x).log = s.log := rfl
@[simp] theorem setWriteRecord_request (t : Tag) (x : Option WriteRecord) (t' : Tag) : (s.setWriteRecord t x).request t' = s.request t' := rfl
@[simp] theorem setWriteRecord_slot (t : Tag) (x : Option WriteRecord) (i' : SlotNo) : (s.setWriteRecord t x).slot i' = s.slot i' := rfl
@[simp] theorem setWriteRecord_port (t : Tag) (x : Option WriteRecord) (p' : Port) : (s.setWriteRecord t x).port p' = s.port p' := rfl
@[simp] theorem setWriteRecord_mark (t : Tag) (x : Option WriteRecord) (p' : Port) : (s.setWriteRecord t x).mark p' = s.mark p' := rfl

/-! ### setFetchRecord -/

@[simp] theorem setFetchRecord_pending (t : Tag) (x : Option FetchRecord) : (s.setFetchRecord t x).pending = s.pending := rfl
@[simp] theorem setFetchRecord_resetLow (t : Tag) (x : Option FetchRecord) : (s.setFetchRecord t x).resetLow = s.resetLow := rfl
@[simp] theorem setFetchRecord_presence (t : Tag) (x : Option FetchRecord) : (s.setFetchRecord t x).presence = s.presence := rfl
@[simp] theorem setFetchRecord_clock (t : Tag) (x : Option FetchRecord) : (s.setFetchRecord t x).clock = s.clock := rfl
@[simp] theorem setFetchRecord_freeDraws (t : Tag) (x : Option FetchRecord) : (s.setFetchRecord t x).freeDraws = s.freeDraws := rfl
@[simp] theorem setFetchRecord_params (t : Tag) (x : Option FetchRecord) : (s.setFetchRecord t x).params = s.params := rfl
@[simp] theorem setFetchRecord_link (t : Tag) (x : Option FetchRecord) : (s.setFetchRecord t x).link = s.link := rfl
@[simp] theorem setFetchRecord_table (t : Tag) (x : Option FetchRecord) : (s.setFetchRecord t x).table = s.table := rfl
@[simp] theorem setFetchRecord_staging (t : Tag) (x : Option FetchRecord) : (s.setFetchRecord t x).staging = s.staging := rfl
@[simp] theorem setFetchRecord_mapStore (t : Tag) (x : Option FetchRecord) : (s.setFetchRecord t x).mapStore = s.mapStore := rfl
@[simp] theorem setFetchRecord_ports (t : Tag) (x : Option FetchRecord) : (s.setFetchRecord t x).ports = s.ports := rfl
@[simp] theorem setFetchRecord_power (t : Tag) (x : Option FetchRecord) : (s.setFetchRecord t x).power = s.power := rfl
@[simp] theorem setFetchRecord_notices (t : Tag) (x : Option FetchRecord) : (s.setFetchRecord t x).notices = s.notices := rfl
@[simp] theorem setFetchRecord_log (t : Tag) (x : Option FetchRecord) : (s.setFetchRecord t x).log = s.log := rfl
@[simp] theorem setFetchRecord_request (t : Tag) (x : Option FetchRecord) (t' : Tag) : (s.setFetchRecord t x).request t' = s.request t' := rfl
@[simp] theorem setFetchRecord_slot (t : Tag) (x : Option FetchRecord) (i' : SlotNo) : (s.setFetchRecord t x).slot i' = s.slot i' := rfl
@[simp] theorem setFetchRecord_port (t : Tag) (x : Option FetchRecord) (p' : Port) : (s.setFetchRecord t x).port p' = s.port p' := rfl
@[simp] theorem setFetchRecord_mark (t : Tag) (x : Option FetchRecord) (p' : Port) : (s.setFetchRecord t x).mark p' = s.mark p' := rfl

/-! ### setReturnSlot -/

@[simp] theorem setReturnSlot_pending (r : RetNo) (x : ReturnSlot) : (s.setReturnSlot r x).pending = s.pending := rfl
@[simp] theorem setReturnSlot_resetLow (r : RetNo) (x : ReturnSlot) : (s.setReturnSlot r x).resetLow = s.resetLow := rfl
@[simp] theorem setReturnSlot_presence (r : RetNo) (x : ReturnSlot) : (s.setReturnSlot r x).presence = s.presence := rfl
@[simp] theorem setReturnSlot_clock (r : RetNo) (x : ReturnSlot) : (s.setReturnSlot r x).clock = s.clock := rfl
@[simp] theorem setReturnSlot_freeDraws (r : RetNo) (x : ReturnSlot) : (s.setReturnSlot r x).freeDraws = s.freeDraws := rfl
@[simp] theorem setReturnSlot_params (r : RetNo) (x : ReturnSlot) : (s.setReturnSlot r x).params = s.params := rfl
@[simp] theorem setReturnSlot_link (r : RetNo) (x : ReturnSlot) : (s.setReturnSlot r x).link = s.link := rfl
@[simp] theorem setReturnSlot_table (r : RetNo) (x : ReturnSlot) : (s.setReturnSlot r x).table = s.table := rfl
@[simp] theorem setReturnSlot_staging (r : RetNo) (x : ReturnSlot) : (s.setReturnSlot r x).staging = s.staging := rfl
@[simp] theorem setReturnSlot_mapStore (r : RetNo) (x : ReturnSlot) : (s.setReturnSlot r x).mapStore = s.mapStore := rfl
@[simp] theorem setReturnSlot_ports (r : RetNo) (x : ReturnSlot) : (s.setReturnSlot r x).ports = s.ports := rfl
@[simp] theorem setReturnSlot_power (r : RetNo) (x : ReturnSlot) : (s.setReturnSlot r x).power = s.power := rfl
@[simp] theorem setReturnSlot_notices (r : RetNo) (x : ReturnSlot) : (s.setReturnSlot r x).notices = s.notices := rfl
@[simp] theorem setReturnSlot_log (r : RetNo) (x : ReturnSlot) : (s.setReturnSlot r x).log = s.log := rfl
@[simp] theorem setReturnSlot_request (r : RetNo) (x : ReturnSlot) (t' : Tag) : (s.setReturnSlot r x).request t' = s.request t' := rfl
@[simp] theorem setReturnSlot_slot (r : RetNo) (x : ReturnSlot) (i' : SlotNo) : (s.setReturnSlot r x).slot i' = s.slot i' := rfl
@[simp] theorem setReturnSlot_port (r : RetNo) (x : ReturnSlot) (p' : Port) : (s.setReturnSlot r x).port p' = s.port p' := rfl
@[simp] theorem setReturnSlot_mark (r : RetNo) (x : ReturnSlot) (p' : Port) : (s.setReturnSlot r x).mark p' = s.mark p' := rfl

/-! ### setFillOrder -/

@[simp] theorem setFillOrder_pending (o : List RetNo) : (s.setFillOrder o).pending = s.pending := rfl
@[simp] theorem setFillOrder_resetLow (o : List RetNo) : (s.setFillOrder o).resetLow = s.resetLow := rfl
@[simp] theorem setFillOrder_presence (o : List RetNo) : (s.setFillOrder o).presence = s.presence := rfl
@[simp] theorem setFillOrder_clock (o : List RetNo) : (s.setFillOrder o).clock = s.clock := rfl
@[simp] theorem setFillOrder_freeDraws (o : List RetNo) : (s.setFillOrder o).freeDraws = s.freeDraws := rfl
@[simp] theorem setFillOrder_params (o : List RetNo) : (s.setFillOrder o).params = s.params := rfl
@[simp] theorem setFillOrder_link (o : List RetNo) : (s.setFillOrder o).link = s.link := rfl
@[simp] theorem setFillOrder_table (o : List RetNo) : (s.setFillOrder o).table = s.table := rfl
@[simp] theorem setFillOrder_staging (o : List RetNo) : (s.setFillOrder o).staging = s.staging := rfl
@[simp] theorem setFillOrder_mapStore (o : List RetNo) : (s.setFillOrder o).mapStore = s.mapStore := rfl
@[simp] theorem setFillOrder_ports (o : List RetNo) : (s.setFillOrder o).ports = s.ports := rfl
@[simp] theorem setFillOrder_power (o : List RetNo) : (s.setFillOrder o).power = s.power := rfl
@[simp] theorem setFillOrder_notices (o : List RetNo) : (s.setFillOrder o).notices = s.notices := rfl
@[simp] theorem setFillOrder_log (o : List RetNo) : (s.setFillOrder o).log = s.log := rfl
@[simp] theorem setFillOrder_request (o : List RetNo) (t' : Tag) : (s.setFillOrder o).request t' = s.request t' := rfl
@[simp] theorem setFillOrder_slot (o : List RetNo) (i' : SlotNo) : (s.setFillOrder o).slot i' = s.slot i' := rfl
@[simp] theorem setFillOrder_port (o : List RetNo) (p' : Port) : (s.setFillOrder o).port p' = s.port p' := rfl
@[simp] theorem setFillOrder_mark (o : List RetNo) (p' : Port) : (s.setFillOrder o).mark p' = s.mark p' := rfl

/-! ### setGrantOrder -/

@[simp] theorem setGrantOrder_pending (o : List Tag) : (s.setGrantOrder o).pending = s.pending := rfl
@[simp] theorem setGrantOrder_resetLow (o : List Tag) : (s.setGrantOrder o).resetLow = s.resetLow := rfl
@[simp] theorem setGrantOrder_presence (o : List Tag) : (s.setGrantOrder o).presence = s.presence := rfl
@[simp] theorem setGrantOrder_clock (o : List Tag) : (s.setGrantOrder o).clock = s.clock := rfl
@[simp] theorem setGrantOrder_freeDraws (o : List Tag) : (s.setGrantOrder o).freeDraws = s.freeDraws := rfl
@[simp] theorem setGrantOrder_params (o : List Tag) : (s.setGrantOrder o).params = s.params := rfl
@[simp] theorem setGrantOrder_link (o : List Tag) : (s.setGrantOrder o).link = s.link := rfl
@[simp] theorem setGrantOrder_table (o : List Tag) : (s.setGrantOrder o).table = s.table := rfl
@[simp] theorem setGrantOrder_staging (o : List Tag) : (s.setGrantOrder o).staging = s.staging := rfl
@[simp] theorem setGrantOrder_mapStore (o : List Tag) : (s.setGrantOrder o).mapStore = s.mapStore := rfl
@[simp] theorem setGrantOrder_ports (o : List Tag) : (s.setGrantOrder o).ports = s.ports := rfl
@[simp] theorem setGrantOrder_power (o : List Tag) : (s.setGrantOrder o).power = s.power := rfl
@[simp] theorem setGrantOrder_notices (o : List Tag) : (s.setGrantOrder o).notices = s.notices := rfl
@[simp] theorem setGrantOrder_log (o : List Tag) : (s.setGrantOrder o).log = s.log := rfl
@[simp] theorem setGrantOrder_request (o : List Tag) (t' : Tag) : (s.setGrantOrder o).request t' = s.request t' := rfl
@[simp] theorem setGrantOrder_slot (o : List Tag) (i' : SlotNo) : (s.setGrantOrder o).slot i' = s.slot i' := rfl
@[simp] theorem setGrantOrder_port (o : List Tag) (p' : Port) : (s.setGrantOrder o).port p' = s.port p' := rfl
@[simp] theorem setGrantOrder_mark (o : List Tag) (p' : Port) : (s.setGrantOrder o).mark p' = s.mark p' := rfl

/-! ### setStaging -/

@[simp] theorem setStaging_pending (i : SlotNo) (x : StagingSlot) : (s.setStaging i x).pending = s.pending := rfl
@[simp] theorem setStaging_resetLow (i : SlotNo) (x : StagingSlot) : (s.setStaging i x).resetLow = s.resetLow := rfl
@[simp] theorem setStaging_presence (i : SlotNo) (x : StagingSlot) : (s.setStaging i x).presence = s.presence := rfl
@[simp] theorem setStaging_clock (i : SlotNo) (x : StagingSlot) : (s.setStaging i x).clock = s.clock := rfl
@[simp] theorem setStaging_freeDraws (i : SlotNo) (x : StagingSlot) : (s.setStaging i x).freeDraws = s.freeDraws := rfl
@[simp] theorem setStaging_params (i : SlotNo) (x : StagingSlot) : (s.setStaging i x).params = s.params := rfl
@[simp] theorem setStaging_link (i : SlotNo) (x : StagingSlot) : (s.setStaging i x).link = s.link := rfl
@[simp] theorem setStaging_table (i : SlotNo) (x : StagingSlot) : (s.setStaging i x).table = s.table := rfl
@[simp] theorem setStaging_mover (i : SlotNo) (x : StagingSlot) : (s.setStaging i x).mover = s.mover := rfl
@[simp] theorem setStaging_mapStore (i : SlotNo) (x : StagingSlot) : (s.setStaging i x).mapStore = s.mapStore := rfl
@[simp] theorem setStaging_ports (i : SlotNo) (x : StagingSlot) : (s.setStaging i x).ports = s.ports := rfl
@[simp] theorem setStaging_power (i : SlotNo) (x : StagingSlot) : (s.setStaging i x).power = s.power := rfl
@[simp] theorem setStaging_notices (i : SlotNo) (x : StagingSlot) : (s.setStaging i x).notices = s.notices := rfl
@[simp] theorem setStaging_log (i : SlotNo) (x : StagingSlot) : (s.setStaging i x).log = s.log := rfl
@[simp] theorem setStaging_request (i : SlotNo) (x : StagingSlot) (t' : Tag) : (s.setStaging i x).request t' = s.request t' := rfl
@[simp] theorem setStaging_writeRecord (i : SlotNo) (x : StagingSlot) (t' : Tag) : (s.setStaging i x).writeRecord t' = s.writeRecord t' := rfl
@[simp] theorem setStaging_fetchRecord (i : SlotNo) (x : StagingSlot) (t' : Tag) : (s.setStaging i x).fetchRecord t' = s.fetchRecord t' := rfl
@[simp] theorem setStaging_returnSlot (i : SlotNo) (x : StagingSlot) (r' : RetNo) : (s.setStaging i x).returnSlot r' = s.returnSlot r' := rfl
@[simp] theorem setStaging_port (i : SlotNo) (x : StagingSlot) (p' : Port) : (s.setStaging i x).port p' = s.port p' := rfl
@[simp] theorem setStaging_mark (i : SlotNo) (x : StagingSlot) (p' : Port) : (s.setStaging i x).mark p' = s.mark p' := rfl

/-! ### setDrainOrder -/

@[simp] theorem setDrainOrder_pending (o : List SlotNo) : (s.setDrainOrder o).pending = s.pending := rfl
@[simp] theorem setDrainOrder_resetLow (o : List SlotNo) : (s.setDrainOrder o).resetLow = s.resetLow := rfl
@[simp] theorem setDrainOrder_presence (o : List SlotNo) : (s.setDrainOrder o).presence = s.presence := rfl
@[simp] theorem setDrainOrder_clock (o : List SlotNo) : (s.setDrainOrder o).clock = s.clock := rfl
@[simp] theorem setDrainOrder_freeDraws (o : List SlotNo) : (s.setDrainOrder o).freeDraws = s.freeDraws := rfl
@[simp] theorem setDrainOrder_params (o : List SlotNo) : (s.setDrainOrder o).params = s.params := rfl
@[simp] theorem setDrainOrder_link (o : List SlotNo) : (s.setDrainOrder o).link = s.link := rfl
@[simp] theorem setDrainOrder_table (o : List SlotNo) : (s.setDrainOrder o).table = s.table := rfl
@[simp] theorem setDrainOrder_mover (o : List SlotNo) : (s.setDrainOrder o).mover = s.mover := rfl
@[simp] theorem setDrainOrder_mapStore (o : List SlotNo) : (s.setDrainOrder o).mapStore = s.mapStore := rfl
@[simp] theorem setDrainOrder_ports (o : List SlotNo) : (s.setDrainOrder o).ports = s.ports := rfl
@[simp] theorem setDrainOrder_power (o : List SlotNo) : (s.setDrainOrder o).power = s.power := rfl
@[simp] theorem setDrainOrder_notices (o : List SlotNo) : (s.setDrainOrder o).notices = s.notices := rfl
@[simp] theorem setDrainOrder_log (o : List SlotNo) : (s.setDrainOrder o).log = s.log := rfl
@[simp] theorem setDrainOrder_request (o : List SlotNo) (t' : Tag) : (s.setDrainOrder o).request t' = s.request t' := rfl
@[simp] theorem setDrainOrder_writeRecord (o : List SlotNo) (t' : Tag) : (s.setDrainOrder o).writeRecord t' = s.writeRecord t' := rfl
@[simp] theorem setDrainOrder_fetchRecord (o : List SlotNo) (t' : Tag) : (s.setDrainOrder o).fetchRecord t' = s.fetchRecord t' := rfl
@[simp] theorem setDrainOrder_returnSlot (o : List SlotNo) (r' : RetNo) : (s.setDrainOrder o).returnSlot r' = s.returnSlot r' := rfl
@[simp] theorem setDrainOrder_port (o : List SlotNo) (p' : Port) : (s.setDrainOrder o).port p' = s.port p' := rfl
@[simp] theorem setDrainOrder_mark (o : List SlotNo) (p' : Port) : (s.setDrainOrder o).mark p' = s.mark p' := rfl

/-! ### setPort -/

@[simp] theorem setPort_pending (p : Port) (x : PortRecord) : (s.setPort p x).pending = s.pending := rfl
@[simp] theorem setPort_resetLow (p : Port) (x : PortRecord) : (s.setPort p x).resetLow = s.resetLow := rfl
@[simp] theorem setPort_presence (p : Port) (x : PortRecord) : (s.setPort p x).presence = s.presence := rfl
@[simp] theorem setPort_clock (p : Port) (x : PortRecord) : (s.setPort p x).clock = s.clock := rfl
@[simp] theorem setPort_freeDraws (p : Port) (x : PortRecord) : (s.setPort p x).freeDraws = s.freeDraws := rfl
@[simp] theorem setPort_params (p : Port) (x : PortRecord) : (s.setPort p x).params = s.params := rfl
@[simp] theorem setPort_link (p : Port) (x : PortRecord) : (s.setPort p x).link = s.link := rfl
@[simp] theorem setPort_table (p : Port) (x : PortRecord) : (s.setPort p x).table = s.table := rfl
@[simp] theorem setPort_mover (p : Port) (x : PortRecord) : (s.setPort p x).mover = s.mover := rfl
@[simp] theorem setPort_staging (p : Port) (x : PortRecord) : (s.setPort p x).staging = s.staging := rfl
@[simp] theorem setPort_mapStore (p : Port) (x : PortRecord) : (s.setPort p x).mapStore = s.mapStore := rfl
@[simp] theorem setPort_power (p : Port) (x : PortRecord) : (s.setPort p x).power = s.power := rfl
@[simp] theorem setPort_notices (p : Port) (x : PortRecord) : (s.setPort p x).notices = s.notices := rfl
@[simp] theorem setPort_log (p : Port) (x : PortRecord) : (s.setPort p x).log = s.log := rfl
@[simp] theorem setPort_request (p : Port) (x : PortRecord) (t' : Tag) : (s.setPort p x).request t' = s.request t' := rfl
@[simp] theorem setPort_writeRecord (p : Port) (x : PortRecord) (t' : Tag) : (s.setPort p x).writeRecord t' = s.writeRecord t' := rfl
@[simp] theorem setPort_fetchRecord (p : Port) (x : PortRecord) (t' : Tag) : (s.setPort p x).fetchRecord t' = s.fetchRecord t' := rfl
@[simp] theorem setPort_returnSlot (p : Port) (x : PortRecord) (r' : RetNo) : (s.setPort p x).returnSlot r' = s.returnSlot r' := rfl
@[simp] theorem setPort_slot (p : Port) (x : PortRecord) (i' : SlotNo) : (s.setPort p x).slot i' = s.slot i' := rfl
@[simp] theorem setPort_mark (p : Port) (x : PortRecord) (p' : Port) : (s.setPort p x).mark p' = s.mark p' := rfl

/-! ### setMark -/

@[simp] theorem setMark_pending (p : Port) (m : SleepMark) : (s.setMark p m).pending = s.pending := rfl
@[simp] theorem setMark_resetLow (p : Port) (m : SleepMark) : (s.setMark p m).resetLow = s.resetLow := rfl
@[simp] theorem setMark_presence (p : Port) (m : SleepMark) : (s.setMark p m).presence = s.presence := rfl
@[simp] theorem setMark_clock (p : Port) (m : SleepMark) : (s.setMark p m).clock = s.clock := rfl
@[simp] theorem setMark_freeDraws (p : Port) (m : SleepMark) : (s.setMark p m).freeDraws = s.freeDraws := rfl
@[simp] theorem setMark_params (p : Port) (m : SleepMark) : (s.setMark p m).params = s.params := rfl
@[simp] theorem setMark_link (p : Port) (m : SleepMark) : (s.setMark p m).link = s.link := rfl
@[simp] theorem setMark_table (p : Port) (m : SleepMark) : (s.setMark p m).table = s.table := rfl
@[simp] theorem setMark_mover (p : Port) (m : SleepMark) : (s.setMark p m).mover = s.mover := rfl
@[simp] theorem setMark_staging (p : Port) (m : SleepMark) : (s.setMark p m).staging = s.staging := rfl
@[simp] theorem setMark_mapStore (p : Port) (m : SleepMark) : (s.setMark p m).mapStore = s.mapStore := rfl
@[simp] theorem setMark_ports (p : Port) (m : SleepMark) : (s.setMark p m).ports = s.ports := rfl
@[simp] theorem setMark_notices (p : Port) (m : SleepMark) : (s.setMark p m).notices = s.notices := rfl
@[simp] theorem setMark_log (p : Port) (m : SleepMark) : (s.setMark p m).log = s.log := rfl
@[simp] theorem setMark_request (p : Port) (m : SleepMark) (t' : Tag) : (s.setMark p m).request t' = s.request t' := rfl
@[simp] theorem setMark_writeRecord (p : Port) (m : SleepMark) (t' : Tag) : (s.setMark p m).writeRecord t' = s.writeRecord t' := rfl
@[simp] theorem setMark_fetchRecord (p : Port) (m : SleepMark) (t' : Tag) : (s.setMark p m).fetchRecord t' = s.fetchRecord t' := rfl
@[simp] theorem setMark_returnSlot (p : Port) (m : SleepMark) (r' : RetNo) : (s.setMark p m).returnSlot r' = s.returnSlot r' := rfl
@[simp] theorem setMark_slot (p : Port) (m : SleepMark) (i' : SlotNo) : (s.setMark p m).slot i' = s.slot i' := rfl
@[simp] theorem setMark_port (p : Port) (m : SleepMark) (p' : Port) : (s.setMark p m).port p' = s.port p' := rfl

/-! ### clearMarks -/

@[simp] theorem clearMarks_pending : (s.clearMarks).pending = s.pending := rfl
@[simp] theorem clearMarks_resetLow : (s.clearMarks).resetLow = s.resetLow := rfl
@[simp] theorem clearMarks_presence : (s.clearMarks).presence = s.presence := rfl
@[simp] theorem clearMarks_clock : (s.clearMarks).clock = s.clock := rfl
@[simp] theorem clearMarks_freeDraws : (s.clearMarks).freeDraws = s.freeDraws := rfl
@[simp] theorem clearMarks_params : (s.clearMarks).params = s.params := rfl
@[simp] theorem clearMarks_link : (s.clearMarks).link = s.link := rfl
@[simp] theorem clearMarks_table : (s.clearMarks).table = s.table := rfl
@[simp] theorem clearMarks_mover : (s.clearMarks).mover = s.mover := rfl
@[simp] theorem clearMarks_staging : (s.clearMarks).staging = s.staging := rfl
@[simp] theorem clearMarks_mapStore : (s.clearMarks).mapStore = s.mapStore := rfl
@[simp] theorem clearMarks_ports : (s.clearMarks).ports = s.ports := rfl
@[simp] theorem clearMarks_notices : (s.clearMarks).notices = s.notices := rfl
@[simp] theorem clearMarks_log : (s.clearMarks).log = s.log := rfl
@[simp] theorem clearMarks_request (t' : Tag) : (s.clearMarks).request t' = s.request t' := rfl
@[simp] theorem clearMarks_writeRecord (t' : Tag) : (s.clearMarks).writeRecord t' = s.writeRecord t' := rfl
@[simp] theorem clearMarks_fetchRecord (t' : Tag) : (s.clearMarks).fetchRecord t' = s.fetchRecord t' := rfl
@[simp] theorem clearMarks_returnSlot (r' : RetNo) : (s.clearMarks).returnSlot r' = s.returnSlot r' := rfl
@[simp] theorem clearMarks_slot (i' : SlotNo) : (s.clearMarks).slot i' = s.slot i' := rfl
@[simp] theorem clearMarks_port (p' : Port) : (s.clearMarks).port p' = s.port p' := rfl

/-! ### setPower -/

@[simp] theorem setPower_pending (x : PowerState) : (s.setPower x).pending = s.pending := rfl
@[simp] theorem setPower_resetLow (x : PowerState) : (s.setPower x).resetLow = s.resetLow := rfl
@[simp] theorem setPower_presence (x : PowerState) : (s.setPower x).presence = s.presence := rfl
@[simp] theorem setPower_clock (x : PowerState) : (s.setPower x).clock = s.clock := rfl
@[simp] theorem setPower_freeDraws (x : PowerState) : (s.setPower x).freeDraws = s.freeDraws := rfl
@[simp] theorem setPower_params (x : PowerState) : (s.setPower x).params = s.params := rfl
@[simp] theorem setPower_link (x : PowerState) : (s.setPower x).link = s.link := rfl
@[simp] theorem setPower_table (x : PowerState) : (s.setPower x).table = s.table := rfl
@[simp] theorem setPower_mover (x : PowerState) : (s.setPower x).mover = s.mover := rfl
@[simp] theorem setPower_staging (x : PowerState) : (s.setPower x).staging = s.staging := rfl
@[simp] theorem setPower_mapStore (x : PowerState) : (s.setPower x).mapStore = s.mapStore := rfl
@[simp] theorem setPower_ports (x : PowerState) : (s.setPower x).ports = s.ports := rfl
@[simp] theorem setPower_notices (x : PowerState) : (s.setPower x).notices = s.notices := rfl
@[simp] theorem setPower_log (x : PowerState) : (s.setPower x).log = s.log := rfl
@[simp] theorem setPower_request (x : PowerState) (t' : Tag) : (s.setPower x).request t' = s.request t' := rfl
@[simp] theorem setPower_writeRecord (x : PowerState) (t' : Tag) : (s.setPower x).writeRecord t' = s.writeRecord t' := rfl
@[simp] theorem setPower_fetchRecord (x : PowerState) (t' : Tag) : (s.setPower x).fetchRecord t' = s.fetchRecord t' := rfl
@[simp] theorem setPower_returnSlot (x : PowerState) (r' : RetNo) : (s.setPower x).returnSlot r' = s.returnSlot r' := rfl
@[simp] theorem setPower_slot (x : PowerState) (i' : SlotNo) : (s.setPower x).slot i' = s.slot i' := rfl
@[simp] theorem setPower_port (x : PowerState) (p' : Port) : (s.setPower x).port p' = s.port p' := rfl

/-! ### setIdleTimer -/

@[simp] theorem setIdleTimer_pending (x : Option Nat) : (s.setIdleTimer x).pending = s.pending := rfl
@[simp] theorem setIdleTimer_resetLow (x : Option Nat) : (s.setIdleTimer x).resetLow = s.resetLow := rfl
@[simp] theorem setIdleTimer_presence (x : Option Nat) : (s.setIdleTimer x).presence = s.presence := rfl
@[simp] theorem setIdleTimer_clock (x : Option Nat) : (s.setIdleTimer x).clock = s.clock := rfl
@[simp] theorem setIdleTimer_freeDraws (x : Option Nat) : (s.setIdleTimer x).freeDraws = s.freeDraws := rfl
@[simp] theorem setIdleTimer_params (x : Option Nat) : (s.setIdleTimer x).params = s.params := rfl
@[simp] theorem setIdleTimer_link (x : Option Nat) : (s.setIdleTimer x).link = s.link := rfl
@[simp] theorem setIdleTimer_table (x : Option Nat) : (s.setIdleTimer x).table = s.table := rfl
@[simp] theorem setIdleTimer_mover (x : Option Nat) : (s.setIdleTimer x).mover = s.mover := rfl
@[simp] theorem setIdleTimer_staging (x : Option Nat) : (s.setIdleTimer x).staging = s.staging := rfl
@[simp] theorem setIdleTimer_mapStore (x : Option Nat) : (s.setIdleTimer x).mapStore = s.mapStore := rfl
@[simp] theorem setIdleTimer_ports (x : Option Nat) : (s.setIdleTimer x).ports = s.ports := rfl
@[simp] theorem setIdleTimer_notices (x : Option Nat) : (s.setIdleTimer x).notices = s.notices := rfl
@[simp] theorem setIdleTimer_log (x : Option Nat) : (s.setIdleTimer x).log = s.log := rfl
@[simp] theorem setIdleTimer_request (x : Option Nat) (t' : Tag) : (s.setIdleTimer x).request t' = s.request t' := rfl
@[simp] theorem setIdleTimer_writeRecord (x : Option Nat) (t' : Tag) : (s.setIdleTimer x).writeRecord t' = s.writeRecord t' := rfl
@[simp] theorem setIdleTimer_fetchRecord (x : Option Nat) (t' : Tag) : (s.setIdleTimer x).fetchRecord t' = s.fetchRecord t' := rfl
@[simp] theorem setIdleTimer_returnSlot (x : Option Nat) (r' : RetNo) : (s.setIdleTimer x).returnSlot r' = s.returnSlot r' := rfl
@[simp] theorem setIdleTimer_slot (x : Option Nat) (i' : SlotNo) : (s.setIdleTimer x).slot i' = s.slot i' := rfl
@[simp] theorem setIdleTimer_port (x : Option Nat) (p' : Port) : (s.setIdleTimer x).port p' = s.port p' := rfl

/-! ### setMaps -/

@[simp] theorem setMaps_pending (m : MapStore) : (s.setMaps m).pending = s.pending := rfl
@[simp] theorem setMaps_resetLow (m : MapStore) : (s.setMaps m).resetLow = s.resetLow := rfl
@[simp] theorem setMaps_presence (m : MapStore) : (s.setMaps m).presence = s.presence := rfl
@[simp] theorem setMaps_clock (m : MapStore) : (s.setMaps m).clock = s.clock := rfl
@[simp] theorem setMaps_freeDraws (m : MapStore) : (s.setMaps m).freeDraws = s.freeDraws := rfl
@[simp] theorem setMaps_params (m : MapStore) : (s.setMaps m).params = s.params := rfl
@[simp] theorem setMaps_link (m : MapStore) : (s.setMaps m).link = s.link := rfl
@[simp] theorem setMaps_table (m : MapStore) : (s.setMaps m).table = s.table := rfl
@[simp] theorem setMaps_mover (m : MapStore) : (s.setMaps m).mover = s.mover := rfl
@[simp] theorem setMaps_staging (m : MapStore) : (s.setMaps m).staging = s.staging := rfl
@[simp] theorem setMaps_ports (m : MapStore) : (s.setMaps m).ports = s.ports := rfl
@[simp] theorem setMaps_power (m : MapStore) : (s.setMaps m).power = s.power := rfl
@[simp] theorem setMaps_notices (m : MapStore) : (s.setMaps m).notices = s.notices := rfl
@[simp] theorem setMaps_log (m : MapStore) : (s.setMaps m).log = s.log := rfl
@[simp] theorem setMaps_request (m : MapStore) (t' : Tag) : (s.setMaps m).request t' = s.request t' := rfl
@[simp] theorem setMaps_writeRecord (m : MapStore) (t' : Tag) : (s.setMaps m).writeRecord t' = s.writeRecord t' := rfl
@[simp] theorem setMaps_fetchRecord (m : MapStore) (t' : Tag) : (s.setMaps m).fetchRecord t' = s.fetchRecord t' := rfl
@[simp] theorem setMaps_returnSlot (m : MapStore) (r' : RetNo) : (s.setMaps m).returnSlot r' = s.returnSlot r' := rfl
@[simp] theorem setMaps_slot (m : MapStore) (i' : SlotNo) : (s.setMaps m).slot i' = s.slot i' := rfl
@[simp] theorem setMaps_port (m : MapStore) (p' : Port) : (s.setMaps m).port p' = s.port p' := rfl
@[simp] theorem setMaps_mark (m : MapStore) (p' : Port) : (s.setMaps m).mark p' = s.mark p' := rfl

/-! ### setCommit -/

@[simp] theorem setCommit_pending (c : Option Commit) : (s.setCommit c).pending = s.pending := rfl
@[simp] theorem setCommit_resetLow (c : Option Commit) : (s.setCommit c).resetLow = s.resetLow := rfl
@[simp] theorem setCommit_presence (c : Option Commit) : (s.setCommit c).presence = s.presence := rfl
@[simp] theorem setCommit_clock (c : Option Commit) : (s.setCommit c).clock = s.clock := rfl
@[simp] theorem setCommit_freeDraws (c : Option Commit) : (s.setCommit c).freeDraws = s.freeDraws := rfl
@[simp] theorem setCommit_params (c : Option Commit) : (s.setCommit c).params = s.params := rfl
@[simp] theorem setCommit_link (c : Option Commit) : (s.setCommit c).link = s.link := rfl
@[simp] theorem setCommit_table (c : Option Commit) : (s.setCommit c).table = s.table := rfl
@[simp] theorem setCommit_mover (c : Option Commit) : (s.setCommit c).mover = s.mover := rfl
@[simp] theorem setCommit_staging (c : Option Commit) : (s.setCommit c).staging = s.staging := rfl
@[simp] theorem setCommit_ports (c : Option Commit) : (s.setCommit c).ports = s.ports := rfl
@[simp] theorem setCommit_power (c : Option Commit) : (s.setCommit c).power = s.power := rfl
@[simp] theorem setCommit_notices (c : Option Commit) : (s.setCommit c).notices = s.notices := rfl
@[simp] theorem setCommit_log (c : Option Commit) : (s.setCommit c).log = s.log := rfl
@[simp] theorem setCommit_request (c : Option Commit) (t' : Tag) : (s.setCommit c).request t' = s.request t' := rfl
@[simp] theorem setCommit_writeRecord (c : Option Commit) (t' : Tag) : (s.setCommit c).writeRecord t' = s.writeRecord t' := rfl
@[simp] theorem setCommit_fetchRecord (c : Option Commit) (t' : Tag) : (s.setCommit c).fetchRecord t' = s.fetchRecord t' := rfl
@[simp] theorem setCommit_returnSlot (c : Option Commit) (r' : RetNo) : (s.setCommit c).returnSlot r' = s.returnSlot r' := rfl
@[simp] theorem setCommit_slot (c : Option Commit) (i' : SlotNo) : (s.setCommit c).slot i' = s.slot i' := rfl
@[simp] theorem setCommit_port (c : Option Commit) (p' : Port) : (s.setCommit c).port p' = s.port p' := rfl
@[simp] theorem setCommit_mark (c : Option Commit) (p' : Port) : (s.setCommit c).mark p' = s.mark p' := rfl

/-! ### setDraft -/

@[simp] theorem setDraft_pending (m : Map) : (s.setDraft m).pending = s.pending := rfl
@[simp] theorem setDraft_resetLow (m : Map) : (s.setDraft m).resetLow = s.resetLow := rfl
@[simp] theorem setDraft_presence (m : Map) : (s.setDraft m).presence = s.presence := rfl
@[simp] theorem setDraft_clock (m : Map) : (s.setDraft m).clock = s.clock := rfl
@[simp] theorem setDraft_freeDraws (m : Map) : (s.setDraft m).freeDraws = s.freeDraws := rfl
@[simp] theorem setDraft_params (m : Map) : (s.setDraft m).params = s.params := rfl
@[simp] theorem setDraft_link (m : Map) : (s.setDraft m).link = s.link := rfl
@[simp] theorem setDraft_table (m : Map) : (s.setDraft m).table = s.table := rfl
@[simp] theorem setDraft_mover (m : Map) : (s.setDraft m).mover = s.mover := rfl
@[simp] theorem setDraft_staging (m : Map) : (s.setDraft m).staging = s.staging := rfl
@[simp] theorem setDraft_ports (m : Map) : (s.setDraft m).ports = s.ports := rfl
@[simp] theorem setDraft_power (m : Map) : (s.setDraft m).power = s.power := rfl
@[simp] theorem setDraft_notices (m : Map) : (s.setDraft m).notices = s.notices := rfl
@[simp] theorem setDraft_log (m : Map) : (s.setDraft m).log = s.log := rfl
@[simp] theorem setDraft_request (m : Map) (t' : Tag) : (s.setDraft m).request t' = s.request t' := rfl
@[simp] theorem setDraft_writeRecord (m : Map) (t' : Tag) : (s.setDraft m).writeRecord t' = s.writeRecord t' := rfl
@[simp] theorem setDraft_fetchRecord (m : Map) (t' : Tag) : (s.setDraft m).fetchRecord t' = s.fetchRecord t' := rfl
@[simp] theorem setDraft_returnSlot (m : Map) (r' : RetNo) : (s.setDraft m).returnSlot r' = s.returnSlot r' := rfl
@[simp] theorem setDraft_slot (m : Map) (i' : SlotNo) : (s.setDraft m).slot i' = s.slot i' := rfl
@[simp] theorem setDraft_port (m : Map) (p' : Port) : (s.setDraft m).port p' = s.port p' := rfl
@[simp] theorem setDraft_mark (m : Map) (p' : Port) : (s.setDraft m).mark p' = s.mark p' := rfl

/-! ### setCeilingTo -/

@[simp] theorem setCeilingTo_pending (n : Nat) : (s.setCeilingTo n).pending = s.pending := rfl
@[simp] theorem setCeilingTo_resetLow (n : Nat) : (s.setCeilingTo n).resetLow = s.resetLow := rfl
@[simp] theorem setCeilingTo_presence (n : Nat) : (s.setCeilingTo n).presence = s.presence := rfl
@[simp] theorem setCeilingTo_clock (n : Nat) : (s.setCeilingTo n).clock = s.clock := rfl
@[simp] theorem setCeilingTo_freeDraws (n : Nat) : (s.setCeilingTo n).freeDraws = s.freeDraws := rfl
@[simp] theorem setCeilingTo_params (n : Nat) : (s.setCeilingTo n).params = s.params := rfl
@[simp] theorem setCeilingTo_link (n : Nat) : (s.setCeilingTo n).link = s.link := rfl
@[simp] theorem setCeilingTo_table (n : Nat) : (s.setCeilingTo n).table = s.table := rfl
@[simp] theorem setCeilingTo_mover (n : Nat) : (s.setCeilingTo n).mover = s.mover := rfl
@[simp] theorem setCeilingTo_staging (n : Nat) : (s.setCeilingTo n).staging = s.staging := rfl
@[simp] theorem setCeilingTo_ports (n : Nat) : (s.setCeilingTo n).ports = s.ports := rfl
@[simp] theorem setCeilingTo_power (n : Nat) : (s.setCeilingTo n).power = s.power := rfl
@[simp] theorem setCeilingTo_notices (n : Nat) : (s.setCeilingTo n).notices = s.notices := rfl
@[simp] theorem setCeilingTo_log (n : Nat) : (s.setCeilingTo n).log = s.log := rfl
@[simp] theorem setCeilingTo_request (n : Nat) (t' : Tag) : (s.setCeilingTo n).request t' = s.request t' := rfl
@[simp] theorem setCeilingTo_writeRecord (n : Nat) (t' : Tag) : (s.setCeilingTo n).writeRecord t' = s.writeRecord t' := rfl
@[simp] theorem setCeilingTo_fetchRecord (n : Nat) (t' : Tag) : (s.setCeilingTo n).fetchRecord t' = s.fetchRecord t' := rfl
@[simp] theorem setCeilingTo_returnSlot (n : Nat) (r' : RetNo) : (s.setCeilingTo n).returnSlot r' = s.returnSlot r' := rfl
@[simp] theorem setCeilingTo_slot (n : Nat) (i' : SlotNo) : (s.setCeilingTo n).slot i' = s.slot i' := rfl
@[simp] theorem setCeilingTo_port (n : Nat) (p' : Port) : (s.setCeilingTo n).port p' = s.port p' := rfl
@[simp] theorem setCeilingTo_mark (n : Nat) (p' : Port) : (s.setCeilingTo n).mark p' = s.mark p' := rfl

/-! ### drawn -/

@[simp] theorem drawn_pending : (s.drawn).pending = s.pending := rfl
@[simp] theorem drawn_resetLow : (s.drawn).resetLow = s.resetLow := rfl
@[simp] theorem drawn_presence : (s.drawn).presence = s.presence := rfl
@[simp] theorem drawn_clock : (s.drawn).clock = s.clock := rfl
@[simp] theorem drawn_params : (s.drawn).params = s.params := rfl
@[simp] theorem drawn_link : (s.drawn).link = s.link := rfl
@[simp] theorem drawn_table : (s.drawn).table = s.table := rfl
@[simp] theorem drawn_mover : (s.drawn).mover = s.mover := rfl
@[simp] theorem drawn_staging : (s.drawn).staging = s.staging := rfl
@[simp] theorem drawn_mapStore : (s.drawn).mapStore = s.mapStore := rfl
@[simp] theorem drawn_ports : (s.drawn).ports = s.ports := rfl
@[simp] theorem drawn_power : (s.drawn).power = s.power := rfl
@[simp] theorem drawn_notices : (s.drawn).notices = s.notices := rfl
@[simp] theorem drawn_log : (s.drawn).log = s.log := rfl
@[simp] theorem drawn_request (t' : Tag) : (s.drawn).request t' = s.request t' := rfl
@[simp] theorem drawn_writeRecord (t' : Tag) : (s.drawn).writeRecord t' = s.writeRecord t' := rfl
@[simp] theorem drawn_fetchRecord (t' : Tag) : (s.drawn).fetchRecord t' = s.fetchRecord t' := rfl
@[simp] theorem drawn_returnSlot (r' : RetNo) : (s.drawn).returnSlot r' = s.returnSlot r' := rfl
@[simp] theorem drawn_slot (i' : SlotNo) : (s.drawn).slot i' = s.slot i' := rfl
@[simp] theorem drawn_port (p' : Port) : (s.drawn).port p' = s.port p' := rfl
@[simp] theorem drawn_mark (p' : Port) : (s.drawn).mark p' = s.mark p' := rfl

/-! ### setLink -/

@[simp] theorem setLink_pending (l : Link) : (s.setLink l).pending = s.pending := rfl
@[simp] theorem setLink_resetLow (l : Link) : (s.setLink l).resetLow = s.resetLow := rfl
@[simp] theorem setLink_presence (l : Link) : (s.setLink l).presence = s.presence := rfl
@[simp] theorem setLink_clock (l : Link) : (s.setLink l).clock = s.clock := rfl
@[simp] theorem setLink_freeDraws (l : Link) : (s.setLink l).freeDraws = s.freeDraws := rfl
@[simp] theorem setLink_params (l : Link) : (s.setLink l).params = s.params := rfl
@[simp] theorem setLink_table (l : Link) : (s.setLink l).table = s.table := rfl
@[simp] theorem setLink_mover (l : Link) : (s.setLink l).mover = s.mover := rfl
@[simp] theorem setLink_staging (l : Link) : (s.setLink l).staging = s.staging := rfl
@[simp] theorem setLink_mapStore (l : Link) : (s.setLink l).mapStore = s.mapStore := rfl
@[simp] theorem setLink_ports (l : Link) : (s.setLink l).ports = s.ports := rfl
@[simp] theorem setLink_power (l : Link) : (s.setLink l).power = s.power := rfl
@[simp] theorem setLink_notices (l : Link) : (s.setLink l).notices = s.notices := rfl
@[simp] theorem setLink_log (l : Link) : (s.setLink l).log = s.log := rfl
@[simp] theorem setLink_request (l : Link) (t' : Tag) : (s.setLink l).request t' = s.request t' := rfl
@[simp] theorem setLink_writeRecord (l : Link) (t' : Tag) : (s.setLink l).writeRecord t' = s.writeRecord t' := rfl
@[simp] theorem setLink_fetchRecord (l : Link) (t' : Tag) : (s.setLink l).fetchRecord t' = s.fetchRecord t' := rfl
@[simp] theorem setLink_returnSlot (l : Link) (r' : RetNo) : (s.setLink l).returnSlot r' = s.returnSlot r' := rfl
@[simp] theorem setLink_slot (l : Link) (i' : SlotNo) : (s.setLink l).slot i' = s.slot i' := rfl
@[simp] theorem setLink_port (l : Link) (p' : Port) : (s.setLink l).port p' = s.port p' := rfl
@[simp] theorem setLink_mark (l : Link) (p' : Port) : (s.setLink l).mark p' = s.mark p' := rfl

/-! ### setCounters -/

@[simp] theorem setCounters_pending (c : LinkCounters) : (s.setCounters c).pending = s.pending := rfl
@[simp] theorem setCounters_resetLow (c : LinkCounters) : (s.setCounters c).resetLow = s.resetLow := rfl
@[simp] theorem setCounters_presence (c : LinkCounters) : (s.setCounters c).presence = s.presence := rfl
@[simp] theorem setCounters_clock (c : LinkCounters) : (s.setCounters c).clock = s.clock := rfl
@[simp] theorem setCounters_freeDraws (c : LinkCounters) : (s.setCounters c).freeDraws = s.freeDraws := rfl
@[simp] theorem setCounters_params (c : LinkCounters) : (s.setCounters c).params = s.params := rfl
@[simp] theorem setCounters_table (c : LinkCounters) : (s.setCounters c).table = s.table := rfl
@[simp] theorem setCounters_mover (c : LinkCounters) : (s.setCounters c).mover = s.mover := rfl
@[simp] theorem setCounters_staging (c : LinkCounters) : (s.setCounters c).staging = s.staging := rfl
@[simp] theorem setCounters_mapStore (c : LinkCounters) : (s.setCounters c).mapStore = s.mapStore := rfl
@[simp] theorem setCounters_ports (c : LinkCounters) : (s.setCounters c).ports = s.ports := rfl
@[simp] theorem setCounters_power (c : LinkCounters) : (s.setCounters c).power = s.power := rfl
@[simp] theorem setCounters_notices (c : LinkCounters) : (s.setCounters c).notices = s.notices := rfl
@[simp] theorem setCounters_log (c : LinkCounters) : (s.setCounters c).log = s.log := rfl
@[simp] theorem setCounters_request (c : LinkCounters) (t' : Tag) : (s.setCounters c).request t' = s.request t' := rfl
@[simp] theorem setCounters_writeRecord (c : LinkCounters) (t' : Tag) : (s.setCounters c).writeRecord t' = s.writeRecord t' := rfl
@[simp] theorem setCounters_fetchRecord (c : LinkCounters) (t' : Tag) : (s.setCounters c).fetchRecord t' = s.fetchRecord t' := rfl
@[simp] theorem setCounters_returnSlot (c : LinkCounters) (r' : RetNo) : (s.setCounters c).returnSlot r' = s.returnSlot r' := rfl
@[simp] theorem setCounters_slot (c : LinkCounters) (i' : SlotNo) : (s.setCounters c).slot i' = s.slot i' := rfl
@[simp] theorem setCounters_port (c : LinkCounters) (p' : Port) : (s.setCounters c).port p' = s.port p' := rfl
@[simp] theorem setCounters_mark (c : LinkCounters) (p' : Port) : (s.setCounters c).mark p' = s.mark p' := rfl

/-! ### setWindow -/

@[simp] theorem setWindow_pending (w : List WindowEntry) : (s.setWindow w).pending = s.pending := rfl
@[simp] theorem setWindow_resetLow (w : List WindowEntry) : (s.setWindow w).resetLow = s.resetLow := rfl
@[simp] theorem setWindow_presence (w : List WindowEntry) : (s.setWindow w).presence = s.presence := rfl
@[simp] theorem setWindow_clock (w : List WindowEntry) : (s.setWindow w).clock = s.clock := rfl
@[simp] theorem setWindow_freeDraws (w : List WindowEntry) : (s.setWindow w).freeDraws = s.freeDraws := rfl
@[simp] theorem setWindow_params (w : List WindowEntry) : (s.setWindow w).params = s.params := rfl
@[simp] theorem setWindow_table (w : List WindowEntry) : (s.setWindow w).table = s.table := rfl
@[simp] theorem setWindow_mover (w : List WindowEntry) : (s.setWindow w).mover = s.mover := rfl
@[simp] theorem setWindow_staging (w : List WindowEntry) : (s.setWindow w).staging = s.staging := rfl
@[simp] theorem setWindow_mapStore (w : List WindowEntry) : (s.setWindow w).mapStore = s.mapStore := rfl
@[simp] theorem setWindow_ports (w : List WindowEntry) : (s.setWindow w).ports = s.ports := rfl
@[simp] theorem setWindow_power (w : List WindowEntry) : (s.setWindow w).power = s.power := rfl
@[simp] theorem setWindow_notices (w : List WindowEntry) : (s.setWindow w).notices = s.notices := rfl
@[simp] theorem setWindow_log (w : List WindowEntry) : (s.setWindow w).log = s.log := rfl
@[simp] theorem setWindow_request (w : List WindowEntry) (t' : Tag) : (s.setWindow w).request t' = s.request t' := rfl
@[simp] theorem setWindow_writeRecord (w : List WindowEntry) (t' : Tag) : (s.setWindow w).writeRecord t' = s.writeRecord t' := rfl
@[simp] theorem setWindow_fetchRecord (w : List WindowEntry) (t' : Tag) : (s.setWindow w).fetchRecord t' = s.fetchRecord t' := rfl
@[simp] theorem setWindow_returnSlot (w : List WindowEntry) (r' : RetNo) : (s.setWindow w).returnSlot r' = s.returnSlot r' := rfl
@[simp] theorem setWindow_slot (w : List WindowEntry) (i' : SlotNo) : (s.setWindow w).slot i' = s.slot i' := rfl
@[simp] theorem setWindow_port (w : List WindowEntry) (p' : Port) : (s.setWindow w).port p' = s.port p' := rfl
@[simp] theorem setWindow_mark (w : List WindowEntry) (p' : Port) : (s.setWindow w).mark p' = s.mark p' := rfl

/-! ### replyPending -/

@[simp] theorem replyPending_pending (r : Reply) : (s.replyPending r).pending = s.pending := rfl
@[simp] theorem replyPending_resetLow (r : Reply) : (s.replyPending r).resetLow = s.resetLow := rfl
@[simp] theorem replyPending_presence (r : Reply) : (s.replyPending r).presence = s.presence := rfl
@[simp] theorem replyPending_clock (r : Reply) : (s.replyPending r).clock = s.clock := rfl
@[simp] theorem replyPending_freeDraws (r : Reply) : (s.replyPending r).freeDraws = s.freeDraws := rfl
@[simp] theorem replyPending_params (r : Reply) : (s.replyPending r).params = s.params := rfl
@[simp] theorem replyPending_table (r : Reply) : (s.replyPending r).table = s.table := rfl
@[simp] theorem replyPending_mover (r : Reply) : (s.replyPending r).mover = s.mover := rfl
@[simp] theorem replyPending_staging (r : Reply) : (s.replyPending r).staging = s.staging := rfl
@[simp] theorem replyPending_mapStore (r : Reply) : (s.replyPending r).mapStore = s.mapStore := rfl
@[simp] theorem replyPending_ports (r : Reply) : (s.replyPending r).ports = s.ports := rfl
@[simp] theorem replyPending_power (r : Reply) : (s.replyPending r).power = s.power := rfl
@[simp] theorem replyPending_notices (r : Reply) : (s.replyPending r).notices = s.notices := rfl
@[simp] theorem replyPending_log (r : Reply) : (s.replyPending r).log = s.log := rfl
@[simp] theorem replyPending_request (r : Reply) (t' : Tag) : (s.replyPending r).request t' = s.request t' := rfl
@[simp] theorem replyPending_writeRecord (r : Reply) (t' : Tag) : (s.replyPending r).writeRecord t' = s.writeRecord t' := rfl
@[simp] theorem replyPending_fetchRecord (r : Reply) (t' : Tag) : (s.replyPending r).fetchRecord t' = s.fetchRecord t' := rfl
@[simp] theorem replyPending_returnSlot (r : Reply) (r' : RetNo) : (s.replyPending r).returnSlot r' = s.returnSlot r' := rfl
@[simp] theorem replyPending_slot (r : Reply) (i' : SlotNo) : (s.replyPending r).slot i' = s.slot i' := rfl
@[simp] theorem replyPending_port (r : Reply) (p' : Port) : (s.replyPending r).port p' = s.port p' := rfl
@[simp] theorem replyPending_mark (r : Reply) (p' : Port) : (s.replyPending r).mark p' = s.mark p' := rfl

/-! ### setParams -/

@[simp] theorem setParams_pending (q : Params) : (s.setParams q).pending = s.pending := rfl
@[simp] theorem setParams_resetLow (q : Params) : (s.setParams q).resetLow = s.resetLow := rfl
@[simp] theorem setParams_presence (q : Params) : (s.setParams q).presence = s.presence := rfl
@[simp] theorem setParams_clock (q : Params) : (s.setParams q).clock = s.clock := rfl
@[simp] theorem setParams_freeDraws (q : Params) : (s.setParams q).freeDraws = s.freeDraws := rfl
@[simp] theorem setParams_link (q : Params) : (s.setParams q).link = s.link := rfl
@[simp] theorem setParams_table (q : Params) : (s.setParams q).table = s.table := rfl
@[simp] theorem setParams_mover (q : Params) : (s.setParams q).mover = s.mover := rfl
@[simp] theorem setParams_staging (q : Params) : (s.setParams q).staging = s.staging := rfl
@[simp] theorem setParams_mapStore (q : Params) : (s.setParams q).mapStore = s.mapStore := rfl
@[simp] theorem setParams_ports (q : Params) : (s.setParams q).ports = s.ports := rfl
@[simp] theorem setParams_power (q : Params) : (s.setParams q).power = s.power := rfl
@[simp] theorem setParams_notices (q : Params) : (s.setParams q).notices = s.notices := rfl
@[simp] theorem setParams_log (q : Params) : (s.setParams q).log = s.log := rfl
@[simp] theorem setParams_request (q : Params) (t' : Tag) : (s.setParams q).request t' = s.request t' := rfl
@[simp] theorem setParams_writeRecord (q : Params) (t' : Tag) : (s.setParams q).writeRecord t' = s.writeRecord t' := rfl
@[simp] theorem setParams_fetchRecord (q : Params) (t' : Tag) : (s.setParams q).fetchRecord t' = s.fetchRecord t' := rfl
@[simp] theorem setParams_returnSlot (q : Params) (r' : RetNo) : (s.setParams q).returnSlot r' = s.returnSlot r' := rfl
@[simp] theorem setParams_slot (q : Params) (i' : SlotNo) : (s.setParams q).slot i' = s.slot i' := rfl
@[simp] theorem setParams_port (q : Params) (p' : Port) : (s.setParams q).port p' = s.port p' := rfl
@[simp] theorem setParams_mark (q : Params) (p' : Port) : (s.setParams q).mark p' = s.mark p' := rfl

/-! ### putNotice -/

@[simp] theorem putNotice_pending (n : Notice) : (s.putNotice n).pending = s.pending := rfl
@[simp] theorem putNotice_resetLow (n : Notice) : (s.putNotice n).resetLow = s.resetLow := rfl
@[simp] theorem putNotice_presence (n : Notice) : (s.putNotice n).presence = s.presence := rfl
@[simp] theorem putNotice_clock (n : Notice) : (s.putNotice n).clock = s.clock := rfl
@[simp] theorem putNotice_freeDraws (n : Notice) : (s.putNotice n).freeDraws = s.freeDraws := rfl
@[simp] theorem putNotice_params (n : Notice) : (s.putNotice n).params = s.params := rfl
@[simp] theorem putNotice_link (n : Notice) : (s.putNotice n).link = s.link := rfl
@[simp] theorem putNotice_table (n : Notice) : (s.putNotice n).table = s.table := rfl
@[simp] theorem putNotice_mover (n : Notice) : (s.putNotice n).mover = s.mover := rfl
@[simp] theorem putNotice_staging (n : Notice) : (s.putNotice n).staging = s.staging := rfl
@[simp] theorem putNotice_mapStore (n : Notice) : (s.putNotice n).mapStore = s.mapStore := rfl
@[simp] theorem putNotice_ports (n : Notice) : (s.putNotice n).ports = s.ports := rfl
@[simp] theorem putNotice_power (n : Notice) : (s.putNotice n).power = s.power := rfl
@[simp] theorem putNotice_log (n : Notice) : (s.putNotice n).log = s.log := rfl
@[simp] theorem putNotice_request (n : Notice) (t' : Tag) : (s.putNotice n).request t' = s.request t' := rfl
@[simp] theorem putNotice_writeRecord (n : Notice) (t' : Tag) : (s.putNotice n).writeRecord t' = s.writeRecord t' := rfl
@[simp] theorem putNotice_fetchRecord (n : Notice) (t' : Tag) : (s.putNotice n).fetchRecord t' = s.fetchRecord t' := rfl
@[simp] theorem putNotice_returnSlot (n : Notice) (r' : RetNo) : (s.putNotice n).returnSlot r' = s.returnSlot r' := rfl
@[simp] theorem putNotice_slot (n : Notice) (i' : SlotNo) : (s.putNotice n).slot i' = s.slot i' := rfl
@[simp] theorem putNotice_port (n : Notice) (p' : Port) : (s.putNotice n).port p' = s.port p' := rfl
@[simp] theorem putNotice_mark (n : Notice) (p' : Port) : (s.putNotice n).mark p' = s.mark p' := rfl

/-! ### dropNotices -/

@[simp] theorem dropNotices_pending (f : Notice → Bool) : (s.dropNotices f).pending = s.pending := rfl
@[simp] theorem dropNotices_resetLow (f : Notice → Bool) : (s.dropNotices f).resetLow = s.resetLow := rfl
@[simp] theorem dropNotices_presence (f : Notice → Bool) : (s.dropNotices f).presence = s.presence := rfl
@[simp] theorem dropNotices_clock (f : Notice → Bool) : (s.dropNotices f).clock = s.clock := rfl
@[simp] theorem dropNotices_freeDraws (f : Notice → Bool) : (s.dropNotices f).freeDraws = s.freeDraws := rfl
@[simp] theorem dropNotices_params (f : Notice → Bool) : (s.dropNotices f).params = s.params := rfl
@[simp] theorem dropNotices_link (f : Notice → Bool) : (s.dropNotices f).link = s.link := rfl
@[simp] theorem dropNotices_table (f : Notice → Bool) : (s.dropNotices f).table = s.table := rfl
@[simp] theorem dropNotices_mover (f : Notice → Bool) : (s.dropNotices f).mover = s.mover := rfl
@[simp] theorem dropNotices_staging (f : Notice → Bool) : (s.dropNotices f).staging = s.staging := rfl
@[simp] theorem dropNotices_mapStore (f : Notice → Bool) : (s.dropNotices f).mapStore = s.mapStore := rfl
@[simp] theorem dropNotices_ports (f : Notice → Bool) : (s.dropNotices f).ports = s.ports := rfl
@[simp] theorem dropNotices_power (f : Notice → Bool) : (s.dropNotices f).power = s.power := rfl
@[simp] theorem dropNotices_log (f : Notice → Bool) : (s.dropNotices f).log = s.log := rfl
@[simp] theorem dropNotices_request (f : Notice → Bool) (t' : Tag) : (s.dropNotices f).request t' = s.request t' := rfl
@[simp] theorem dropNotices_writeRecord (f : Notice → Bool) (t' : Tag) : (s.dropNotices f).writeRecord t' = s.writeRecord t' := rfl
@[simp] theorem dropNotices_fetchRecord (f : Notice → Bool) (t' : Tag) : (s.dropNotices f).fetchRecord t' = s.fetchRecord t' := rfl
@[simp] theorem dropNotices_returnSlot (f : Notice → Bool) (r' : RetNo) : (s.dropNotices f).returnSlot r' = s.returnSlot r' := rfl
@[simp] theorem dropNotices_slot (f : Notice → Bool) (i' : SlotNo) : (s.dropNotices f).slot i' = s.slot i' := rfl
@[simp] theorem dropNotices_port (f : Notice → Bool) (p' : Port) : (s.dropNotices f).port p' = s.port p' := rfl
@[simp] theorem dropNotices_mark (f : Notice → Bool) (p' : Port) : (s.dropNotices f).mark p' = s.mark p' := rfl

/-! ### What an update puts there -/

@[simp] theorem request_setSlot (t u : Tag) (x : Option Request) :
    (s.setSlot t x).request u = if u = t then x else s.request u := by
  simp only [request, setSlot, Fin.getElem_fin, Vector.getElem_set, Fin.val_inj, eq_comm]

@[simp] theorem request_setRequest (t u : Tag) (x : Request) :
    (s.setRequest t x).request u = if u = t then some x else s.request u := request_setSlot s t u (some x)

@[simp] theorem request_enterSlot (t u : Tag) (x : Request) :
    (s.enterSlot t x).request u = if u = t then some x else s.request u := request_setSlot s t u (some x)

@[simp] theorem writeRecord_setWriteRecord (t u : Tag) (x : Option WriteRecord) :
    (s.setWriteRecord t x).writeRecord u = if u = t then x else s.writeRecord u := by
  simp only [writeRecord, setWriteRecord, Fin.getElem_fin, Vector.getElem_set, Fin.val_inj, eq_comm]

@[simp] theorem fetchRecord_setFetchRecord (t u : Tag) (x : Option FetchRecord) :
    (s.setFetchRecord t x).fetchRecord u = if u = t then x else s.fetchRecord u := by
  simp only [fetchRecord, setFetchRecord, Fin.getElem_fin, Vector.getElem_set, Fin.val_inj, eq_comm]

@[simp] theorem returnSlot_setReturnSlot (r q : RetNo) (x : ReturnSlot) :
    (s.setReturnSlot r x).returnSlot q = if q = r then x else s.returnSlot q := by
  simp only [returnSlot, setReturnSlot, Fin.getElem_fin, Vector.getElem_set, Fin.val_inj, eq_comm]

@[simp] theorem slot_setStaging (i j : SlotNo) (x : StagingSlot) :
    (s.setStaging i x).slot j = if j = i then x else s.slot j := by
  simp only [slot, setStaging, Fin.getElem_fin, Vector.getElem_set, Fin.val_inj, eq_comm]

@[simp] theorem port_setPort (p q : Port) (x : PortRecord) :
    (s.setPort p x).port q = if q = p then x else s.port q := by
  simp only [port, setPort, Fin.getElem_fin, Vector.getElem_set, Fin.val_inj, eq_comm]

@[simp] theorem mark_setMark (p q : Port) (m : SleepMark) :
    (s.setMark p m).mark q = if q = p then m else s.mark q := by
  simp only [mark, setMark, Fin.getElem_fin, Vector.getElem_set, Fin.val_inj, eq_comm]

@[simp] theorem mark_clearMarks (p : Port) : s.clearMarks.mark p = .clear := by
  simp only [mark, clearMarks, Fin.getElem_fin, Vector.getElem_replicate]

@[simp] theorem setSlot_table_admissionOrder (t : Tag) (x : Option Request) : (s.setSlot t x).table.admissionOrder = s.table.admissionOrder := rfl
@[simp] theorem setSlot_table_completionOrder (t : Tag) (x : Option Request) : (s.setSlot t x).table.completionOrder = s.table.completionOrder := rfl
@[simp] theorem setSlot_table_counter (t : Tag) (x : Option Request) : (s.setSlot t x).table.counter = s.table.counter := rfl
@[simp] theorem setSlot_table_snapshot (t : Tag) (x : Option Request) : (s.setSlot t x).table.snapshot = s.table.snapshot := rfl
@[simp] theorem setRequest_table_admissionOrder (t : Tag) (x : Request) : (s.setRequest t x).table.admissionOrder = s.table.admissionOrder := rfl
@[simp] theorem setRequest_table_completionOrder (t : Tag) (x : Request) : (s.setRequest t x).table.completionOrder = s.table.completionOrder := rfl
@[simp] theorem setRequest_table_counter (t : Tag) (x : Request) : (s.setRequest t x).table.counter = s.table.counter := rfl
@[simp] theorem setRequest_table_snapshot (t : Tag) (x : Request) : (s.setRequest t x).table.snapshot = s.table.snapshot := rfl
@[simp] theorem setReturnSlot_mover_writes (r : RetNo) (x : ReturnSlot) : (s.setReturnSlot r x).mover.writes = s.mover.writes := rfl
@[simp] theorem setReturnSlot_mover_fetches (r : RetNo) (x : ReturnSlot) : (s.setReturnSlot r x).mover.fetches = s.mover.fetches := rfl
@[simp] theorem setReturnSlot_mover_fillOrder (r : RetNo) (x : ReturnSlot) : (s.setReturnSlot r x).mover.fillOrder = s.mover.fillOrder := rfl
@[simp] theorem setReturnSlot_mover_grantOrder (r : RetNo) (x : ReturnSlot) : (s.setReturnSlot r x).mover.grantOrder = s.mover.grantOrder := rfl
@[simp] theorem setWriteRecord_mover_fetches (t : Tag) (x : Option WriteRecord) : (s.setWriteRecord t x).mover.fetches = s.mover.fetches := rfl
@[simp] theorem setWriteRecord_mover_returns (t : Tag) (x : Option WriteRecord) : (s.setWriteRecord t x).mover.returns = s.mover.returns := rfl
@[simp] theorem setWriteRecord_mover_fillOrder (t : Tag) (x : Option WriteRecord) : (s.setWriteRecord t x).mover.fillOrder = s.mover.fillOrder := rfl
@[simp] theorem setWriteRecord_mover_grantOrder (t : Tag) (x : Option WriteRecord) : (s.setWriteRecord t x).mover.grantOrder = s.mover.grantOrder := rfl
@[simp] theorem setFetchRecord_mover_writes (t : Tag) (x : Option FetchRecord) : (s.setFetchRecord t x).mover.writes = s.mover.writes := rfl
@[simp] theorem setFetchRecord_mover_returns (t : Tag) (x : Option FetchRecord) : (s.setFetchRecord t x).mover.returns = s.mover.returns := rfl
@[simp] theorem setFetchRecord_mover_fillOrder (t : Tag) (x : Option FetchRecord) : (s.setFetchRecord t x).mover.fillOrder = s.mover.fillOrder := rfl
@[simp] theorem setFetchRecord_mover_grantOrder (t : Tag) (x : Option FetchRecord) : (s.setFetchRecord t x).mover.grantOrder = s.mover.grantOrder := rfl
@[simp] theorem setFillOrder_mover_writes (o : List RetNo) : (s.setFillOrder o).mover.writes = s.mover.writes := rfl
@[simp] theorem setFillOrder_mover_fetches (o : List RetNo) : (s.setFillOrder o).mover.fetches = s.mover.fetches := rfl
@[simp] theorem setFillOrder_mover_returns (o : List RetNo) : (s.setFillOrder o).mover.returns = s.mover.returns := rfl
@[simp] theorem setFillOrder_mover_grantOrder (o : List RetNo) : (s.setFillOrder o).mover.grantOrder = s.mover.grantOrder := rfl
@[simp] theorem setGrantOrder_mover_writes (o : List Tag) : (s.setGrantOrder o).mover.writes = s.mover.writes := rfl
@[simp] theorem setGrantOrder_mover_fetches (o : List Tag) : (s.setGrantOrder o).mover.fetches = s.mover.fetches := rfl
@[simp] theorem setGrantOrder_mover_returns (o : List Tag) : (s.setGrantOrder o).mover.returns = s.mover.returns := rfl
@[simp] theorem setGrantOrder_mover_fillOrder (o : List Tag) : (s.setGrantOrder o).mover.fillOrder = s.mover.fillOrder := rfl
@[simp] theorem setStaging_staging_drainOrder (i : SlotNo) (x : StagingSlot) : (s.setStaging i x).staging.drainOrder = s.staging.drainOrder := rfl
@[simp] theorem setStaging_staging_pressure (i : SlotNo) (x : StagingSlot) : (s.setStaging i x).staging.pressure = s.staging.pressure := rfl
@[simp] theorem setDrainOrder_staging_slots (o : List SlotNo) : (s.setDrainOrder o).staging.slots = s.staging.slots := rfl
@[simp] theorem setDrainOrder_staging_pressure (o : List SlotNo) : (s.setDrainOrder o).staging.pressure = s.staging.pressure := rfl
@[simp] theorem setMark_power_state (p : Port) (m : SleepMark) : (s.setMark p m).power.state = s.power.state := rfl
@[simp] theorem setMark_power_idleTimer (p : Port) (m : SleepMark) : (s.setMark p m).power.idleTimer = s.power.idleTimer := rfl
@[simp] theorem clearMarks_power_state : (s.clearMarks).power.state = s.power.state := rfl
@[simp] theorem clearMarks_power_idleTimer : (s.clearMarks).power.idleTimer = s.power.idleTimer := rfl
@[simp] theorem setPower_power_idleTimer (x : PowerState) : (s.setPower x).power.idleTimer = s.power.idleTimer := rfl
@[simp] theorem setPower_power_marks (x : PowerState) : (s.setPower x).power.marks = s.power.marks := rfl
@[simp] theorem setIdleTimer_power_state (x : Option Nat) : (s.setIdleTimer x).power.state = s.power.state := rfl
@[simp] theorem setIdleTimer_power_marks (x : Option Nat) : (s.setIdleTimer x).power.marks = s.power.marks := rfl
@[simp] theorem setCommit_mapStore_active (c : Option Commit) : (s.setCommit c).mapStore.active = s.mapStore.active := rfl
@[simp] theorem setCommit_mapStore_draft (c : Option Commit) : (s.setCommit c).mapStore.draft = s.mapStore.draft := rfl
@[simp] theorem setCommit_mapStore_ceiling (c : Option Commit) : (s.setCommit c).mapStore.ceiling = s.mapStore.ceiling := rfl
@[simp] theorem setCommit_mapStore_ready (c : Option Commit) : (s.setCommit c).mapStore.ready = s.mapStore.ready := rfl
@[simp] theorem setDraft_mapStore_active (m : Map) : (s.setDraft m).mapStore.active = s.mapStore.active := rfl
@[simp] theorem setDraft_mapStore_ceiling (m : Map) : (s.setDraft m).mapStore.ceiling = s.mapStore.ceiling := rfl
@[simp] theorem setDraft_mapStore_ready (m : Map) : (s.setDraft m).mapStore.ready = s.mapStore.ready := rfl
@[simp] theorem setDraft_mapStore_commit (m : Map) : (s.setDraft m).mapStore.commit = s.mapStore.commit := rfl
@[simp] theorem setCeilingTo_mapStore_active (n : Nat) : (s.setCeilingTo n).mapStore.active = s.mapStore.active := rfl
@[simp] theorem setCeilingTo_mapStore_draft (n : Nat) : (s.setCeilingTo n).mapStore.draft = s.mapStore.draft := rfl
@[simp] theorem setCeilingTo_mapStore_ready (n : Nat) : (s.setCeilingTo n).mapStore.ready = s.mapStore.ready := rfl
@[simp] theorem setCeilingTo_mapStore_commit (n : Nat) : (s.setCeilingTo n).mapStore.commit = s.mapStore.commit := rfl
@[simp] theorem setFillOrder_puts (o : List RetNo) : (s.setFillOrder o).mover.fillOrder = o := rfl
@[simp] theorem setGrantOrder_puts (o : List Tag) : (s.setGrantOrder o).mover.grantOrder = o := rfl
@[simp] theorem setDrainOrder_puts (o : List SlotNo) : (s.setDrainOrder o).staging.drainOrder = o := rfl
@[simp] theorem setPower_puts (x : PowerState) : (s.setPower x).power.state = x := rfl
@[simp] theorem setIdleTimer_puts (x : Option Nat) : (s.setIdleTimer x).power.idleTimer = x := rfl
@[simp] theorem setCommit_puts (c : Option Commit) : (s.setCommit c).mapStore.commit = c := rfl
@[simp] theorem setDraft_puts (m : Map) : (s.setDraft m).mapStore.draft = m := rfl
@[simp] theorem setCeilingTo_puts (n : Nat) : (s.setCeilingTo n).mapStore.ceiling = n := rfl
@[simp] theorem setMaps_puts (m : MapStore) : (s.setMaps m).mapStore = m := rfl
@[simp] theorem setLink_puts (l : Link) : (s.setLink l).link = l := rfl
@[simp] theorem setParams_puts (q : Params) : (s.setParams q).params = q := rfl
@[simp] theorem setCounters_puts (c : LinkCounters) : (s.setCounters c).link.counters = c := rfl
@[simp] theorem setWindow_puts (w : List WindowEntry) : (s.setWindow w).link.window = w := rfl
@[simp] theorem replyPending_puts (r : Reply) : (s.replyPending r).link.pendingReply = some r := rfl
@[simp] theorem setReturnSlot_writeRecord (r : RetNo) (x : ReturnSlot) (t : Tag) : (s.setReturnSlot r x).writeRecord t = s.writeRecord t := rfl
@[simp] theorem setReturnSlot_fetchRecord (r : RetNo) (x : ReturnSlot) (t : Tag) : (s.setReturnSlot r x).fetchRecord t = s.fetchRecord t := rfl
@[simp] theorem setWriteRecord_fetchRecord (t : Tag) (x : Option WriteRecord) (u : Tag) : (s.setWriteRecord t x).fetchRecord u = s.fetchRecord u := rfl
@[simp] theorem setWriteRecord_returnSlot (t : Tag) (x : Option WriteRecord) (r : RetNo) : (s.setWriteRecord t x).returnSlot r = s.returnSlot r := rfl
@[simp] theorem setFetchRecord_writeRecord (t : Tag) (x : Option FetchRecord) (u : Tag) : (s.setFetchRecord t x).writeRecord u = s.writeRecord u := rfl
@[simp] theorem setFetchRecord_returnSlot (t : Tag) (x : Option FetchRecord) (r : RetNo) : (s.setFetchRecord t x).returnSlot r = s.returnSlot r := rfl
@[simp] theorem setFillOrder_writeRecord (o : List RetNo) (t : Tag) : (s.setFillOrder o).writeRecord t = s.writeRecord t := rfl
@[simp] theorem setFillOrder_fetchRecord (o : List RetNo) (t : Tag) : (s.setFillOrder o).fetchRecord t = s.fetchRecord t := rfl
@[simp] theorem setFillOrder_returnSlot (o : List RetNo) (r : RetNo) : (s.setFillOrder o).returnSlot r = s.returnSlot r := rfl
@[simp] theorem setGrantOrder_writeRecord (o : List Tag) (t : Tag) : (s.setGrantOrder o).writeRecord t = s.writeRecord t := rfl
@[simp] theorem setGrantOrder_fetchRecord (o : List Tag) (t : Tag) : (s.setGrantOrder o).fetchRecord t = s.fetchRecord t := rfl
@[simp] theorem setGrantOrder_returnSlot (o : List Tag) (r : RetNo) : (s.setGrantOrder o).returnSlot r = s.returnSlot r := rfl
@[simp] theorem setDrainOrder_slot (o : List SlotNo) (i : SlotNo) : (s.setDrainOrder o).slot i = s.slot i := rfl
@[simp] theorem setPower_mark (x : PowerState) (p : Port) : (s.setPower x).mark p = s.mark p := rfl
@[simp] theorem setIdleTimer_mark (x : Option Nat) (p : Port) : (s.setIdleTimer x).mark p = s.mark p := rfl

end State
end Sys2Proof.Machine
end

