-- ==== Sys2Proof/Laws/Extents.lean ====
section
/-! SUPPORT. Extents that lie apart: the checks of a record, the validation of a draft and the map of a finding give maps
whose extents are apart (R5, R20, R102). -/

namespace Sys2Proof.Machine

theorem Extent.covers_iff (e : Extent) (x : Nat) :
    e.covers x = true ↔ e.first.toNat ≤ x ∧ x < e.first.toNat + e.length.toNat := by
  unfold Extent.covers
  rw [Bool.and_eq_true, decide_eq_true_iff, decide_eq_true_iff]

theorem Extent.overlapsLogical_iff (f e : Extent) :
    f.overlapsLogical e = true ↔ ∃ x, e.covers x = true ∧ f.covers x = true := by
  simp only [Extent.covers_iff, Extent.overlapsLogical, Bool.and_eq_true, decide_eq_true_eq]
  constructor
  · rintro ⟨⟨⟨h1, h2⟩, h3⟩, h4⟩
    exact ⟨max f.first.toNat e.first.toNat, by omega, by omega⟩
  · rintro ⟨x, h1, h2⟩
    omega

theorem Extent.overlapsPhysical_iff (f e : Extent) : f.overlapsPhysical e = true ↔ f.port = e.port ∧
    ∃ n, e.base.toNat ≤ n ∧ n < e.base.toNat + e.length.toNat ∧ f.base.toNat ≤ n ∧
      n < f.base.toNat + f.length.toNat := by
  simp only [Extent.overlapsPhysical, Bool.and_eq_true, decide_eq_true_eq]
  constructor
  · rintro ⟨⟨⟨⟨h0, h1⟩, h2⟩, h3⟩, h4⟩
    exact ⟨h0, max f.base.toNat e.base.toNat, by omega, by omega, by omega, by omega⟩
  · rintro ⟨h0, x, h1, h2, h3, h4⟩
    exact ⟨⟨⟨⟨h0, by omega⟩, by omega⟩, by omega⟩, by omega⟩

/-! ## The structural checks -/

theorem structuralOk_iff (es : List Extent) : structuralOk es = true ↔
    (∀ e ∈ es, e.soundAlone = true) ∧ es.Pairwise (fun e f => e.overlapsLogical f = false ∧ e.overlapsPhysical f = false) := by
  induction es with
  | nil => simp [structuralOk]
  | cons e es ih =>
    rw [structuralOk, Bool.and_eq_true, Bool.and_eq_true, ih, List.all_eq_true, List.pairwise_cons]
    simp only [List.mem_cons, forall_eq_or_imp, Bool.and_eq_true, Bool.not_eq_true']
    constructor
    · rintro ⟨⟨a, b⟩, c, d⟩
      exact ⟨⟨a, c⟩, b, d⟩
    · rintro ⟨⟨a, c⟩, b, d⟩
      exact ⟨⟨a, b⟩, c, d⟩

theorem Extent.soundAlone_iff (e : Extent) : e.soundAlone = true ↔ 2 ≤ e.base.toNat ∧ 1 ≤ e.length.toNat ∧
    e.first.toNat + e.length.toNat ≤ 0x1000000 ∧ e.base.toNat + e.length.toNat ≤ 262144 := by
  have h1 : Config.firstDataPbn = 2 := rfl
  have h2 : Config.maxCapacity = 262144 := rfl
  unfold Extent.soundAlone
  rw [h1, h2, Bool.and_eq_true, Bool.and_eq_true, Bool.and_eq_true, decide_eq_true_iff, decide_eq_true_iff,
    decide_eq_true_iff, decide_eq_true_iff]
  omega

/-- Two extents that share neither an LBN nor, on one port, a PBN. -/
theorem Extent.apart_iff (e f : Extent) : (e.overlapsLogical f = false ∧ e.overlapsPhysical f = false) ↔
    (∀ x, ¬ (e.covers x = true ∧ f.covers x = true)) ∧ (e.port = f.port → ∀ n, ¬ (e.occupies n ∧ f.occupies n)) := by
  rw [← Bool.not_eq_true, ← Bool.not_eq_true, Extent.overlapsLogical_iff, Extent.overlapsPhysical_iff]
  unfold Extent.occupies
  constructor
  · rintro ⟨a, b⟩
    exact ⟨fun x h => a ⟨x, h.2, h.1⟩, fun hp n h => b ⟨hp, n, h.2.1, h.2.2, h.1.1, h.1.2⟩⟩
  · rintro ⟨a, b⟩
    exact ⟨fun ⟨x, h1, h2⟩ => a x ⟨h2, h1⟩, fun ⟨hp, n, h1, h2, h3, h4⟩ => b hp n ⟨⟨h3, h4⟩, h1, h2⟩⟩

/-- The extents start above PBN 1 and are apart from one another. -/
def ExtentsApart (es : List Extent) : Prop := (∀ e ∈ es, 2 ≤ e.base.toNat) ∧
  es.Pairwise (fun e f => e.overlapsLogical f = false ∧ e.overlapsPhysical f = false)

theorem Map.mem_enabled (m : Map) (e : Extent) :
    e ∈ m.extents.toList.filter (·.enabled) ↔ ∃ i : Fin 8, m.extents[i] = e ∧ m.extents[i].enabled = true := by
  have hl : m.extents.toList.length = 8 := by simp
  rw [List.mem_filter, List.mem_iff_getElem]
  constructor
  · rintro ⟨⟨i, h, rfl⟩, k⟩
    exact ⟨⟨i, by omega⟩, rfl, k⟩
  · rintro ⟨i, rfl, k⟩
    exact ⟨⟨i.val, by rw [hl]; exact i.isLt, rfl⟩, k⟩

theorem Map.apart_iff (m : Map) : ExtentsApart (m.extents.toList.filter (·.enabled)) ↔ m.apart := by
  have hl : m.extents.toList.length = 8 := by simp
  have hget : ∀ (i : Nat) (h : i < m.extents.toList.length), m.extents.toList[i] = m.extents[(⟨i, by omega⟩ : Fin 8)] :=
    fun _ _ => rfl
  unfold ExtentsApart Map.apart
  rw [List.pairwise_filter, List.pairwise_iff_getElem]
  constructor
  · rintro ⟨a, b⟩
    have B := fun (i j : Fin 8) (hij : i.val < j.val) (hi : m.extents[i].enabled = true) (hj : m.extents[j].enabled = true) =>
      (Extent.apart_iff m.extents[i] m.extents[j]).1
        (b i.val j.val (by rw [hl]; exact i.isLt) (by rw [hl]; exact j.isLt) hij hi hj)
    refine ⟨fun i he => a _ ((m.mem_enabled _).2 ⟨i, rfl, he⟩), fun i j hij hi hj => ?_⟩
    rcases Nat.lt_or_gt_of_ne (fun e => hij (Fin.ext e)) with h | h
    · exact B i j h hi hj
    · obtain ⟨c, d⟩ := B j i h hj hi
      exact ⟨fun x k => c x ⟨k.2, k.1⟩, fun hp n k => d hp.symm n ⟨k.2, k.1⟩⟩
  · rintro ⟨a, b⟩
    refine ⟨fun e he => ?_, fun i j hi hj hij => ?_⟩
    · obtain ⟨i, rfl, k⟩ := (m.mem_enabled e).1 he
      exact a i k
    · rw [hget i hi, hget j hj]
      exact fun h1 h2 => (Extent.apart_iff _ _).2 (b _ _ (fun e => by have := congrArg Fin.val e; dsimp only at this; omega) h1 h2)

theorem Map.structural_iff (m : Map) : structuralOk (m.extents.toList.filter (·.enabled)) = true ↔ m.structural := by
  have h := m.apart_iff
  unfold ExtentsApart at h
  unfold Map.structural
  rw [structuralOk_iff, ← h]
  constructor
  · rintro ⟨a, b⟩
    exact ⟨⟨fun e he => ((Extent.soundAlone_iff e).1 (a e he)).1, b⟩,
      fun i he => ((Extent.soundAlone_iff _).1 (a _ ((m.mem_enabled _).2 ⟨i, rfl, he⟩))).2⟩
  · rintro ⟨⟨a, b⟩, c⟩
    refine ⟨fun e he => ?_, b⟩
    obtain ⟨i, rfl, k⟩ := (m.mem_enabled e).1 he
    exact (Extent.soundAlone_iff _).2 ⟨a _ he, c i k⟩

/-! ## Validation leaves the extents apart -/

theorem State.extentFault_none {s : State} {lower : List Extent} {e : Extent} (h : s.extentFault lower e = none) :
    2 ≤ e.base.toNat ∧ ∀ f ∈ lower, f.overlapsLogical e = false ∧ f.overlapsPhysical e = false := by
  unfold State.extentFault at h
  have h2 : Config.firstDataPbn = 2 := rfl
  rw [h2] at h
  split at h
  · cases h
  split at h
  · cases h
  split at h
  · cases h
  split at h
  · cases h
  split at h
  · cases h
  next c d e =>
    simp only [List.any_eq_true, not_exists, not_and, Bool.not_eq_true] at d e
    exact ⟨by omega, fun f hf => ⟨d f hf, e f hf⟩⟩

theorem State.validateFrom_apart (s : State) (es : List Extent) : ∀ i lower, ExtentsApart lower →
    s.validateFrom i lower es = none → ExtentsApart (lower ++ es.filter (·.enabled)) := by
  induction es with
  | nil => intro i lower hl _; simpa using hl
  | cons e es ih =>
    intro i lower hl h
    rw [State.validateFrom] at h
    by_cases he : e.enabled = true
    · rw [if_pos he] at h
      rw [List.filter_cons_of_pos he]
      split at h
      · cases h
      next hf =>
        obtain ⟨a, b⟩ := State.extentFault_none hf
        have := ih (i + 1) (lower ++ [e]) ⟨fun f hf => ?_, ?_⟩ h
        · rwa [List.append_assoc] at this
        · rcases List.mem_append.1 hf with hf | hf
          · exact hl.1 f hf
          · rw [List.mem_singleton.1 hf]; exact a
        · refine List.pairwise_append.2 ⟨hl.2, List.pairwise_singleton _ _, fun f hf g hg => ?_⟩
          rw [List.mem_singleton.1 hg]
          exact b f hf
    · rw [if_neg he] at h
      rw [List.filter_cons_of_neg he]
      exact ih _ _ hl h

/-- A draft that passes validation has its extents apart (R20). -/
theorem State.validate_apart {s : State} (h : s.validate = none) : s.mapStore.draft.apart :=
  (Map.apart_iff _).1 (s.validateFrom_apart _ 0 [] ⟨(fun _ he => by cases he), List.Pairwise.nil⟩ h)

theorem Map.apart_empty : Map.empty.apart := by
  have h : ∀ i : Fin 8, ¬ Map.empty.extents[i].enabled = true := by decide
  exact ⟨fun i e => absurd e (h i), fun i _ _ e => absurd e (h i)⟩

/-! ## Findings -/

theorem toList_extentVector (es : List Extent) (h : es.length = 8) : (extentVector es).toList = es := by
  match es, h with
  | [a, b, c, d, e, f, g, i], _ => rfl

theorem extentsOfRecord_length (k : Nat) (bs : List Byte) (es : List Extent) (h : extentsOfRecord k bs = some es) :
    es.length = k := by
  induction k generalizing bs es with
  | zero => cases h; rfl
  | succ k ih =>
    rw [extentsOfRecord] at h
    split at h
    next e fs _ hf =>
      cases h
      rw [List.length_cons, ih _ _ hf]
    · cases h

/-- A finding's map passes the structural checks. -/
theorem findingOf_structural {data : List Byte} {st : RecordState} {m : Map} (h : findingOf data = .found st m) : m.structural := by
  unfold findingOf at h
  dsimp only at h
  split at h
  · split at h
    · cases h
    next es he =>
      split at h
      next k =>
        cases h
        refine (Map.structural_iff _).1 ?_
        rwa [toList_extentVector es (extentsOfRecord_length 8 _ es he)]
      · cases h
  · cases h

end Sys2Proof.Machine
end

