-- ==== Sys2Proof/Laws/Pending.lean ====
section
/-! SUPPORT. The pending set and the notice-order list keep their form (R172, R176): one lemma for each operation of the
Notice Unit. -/

namespace Sys2Proof.Machine

theorem NoticesGood.of_same {s t : State} (h : t.notices.pending = s.notices.pending ∧ t.notices.order = s.notices.order)
    (hp : t.params.noticeEnable = s.params.noticeEnable) (k : NoticesGood s) : NoticesGood t := by
  unfold NoticesGood at k ⊢
  rw [h.1, h.2, hp]
  exact k

theorem noticesGood_evalAttn (s : State) (k : NoticesGood s) : NoticesGood (evalAttn s) := k.of_same ⟨rfl, rfl⟩ rfl

theorem NoticeKind.code_inj {a b : NoticeKind} (h : a.code = b.code) : a = b := by
  cases a <;> cases b <;> first | rfl | cases h

/-- Two keys of one rank are one key. -/
theorem NoticeKey.rank_inj {a b : NoticeKey} (ha : a.port.isSome = a.kind.isPortKind) (hb : b.port.isSome = b.kind.isPortKind)
    (h : a.rank = b.rank) : a = b := by
  obtain ⟨k, p⟩ := a
  obtain ⟨j, q⟩ := b
  have code : k.code = j.code ∧ p.elim 0 Fin.val = q.elim 0 Fin.val := by
    cases p with
    | none => cases q with
      | none =>
        have h : 4 * k.code + 0 = 4 * j.code + 0 := h
        exact ⟨by omega, rfl⟩
      | some y =>
        have h : 4 * k.code + 0 = 4 * j.code + y.val := h
        exact ⟨by omega, show 0 = y.val by omega⟩
    | some x => cases q with
      | none =>
        have h : 4 * k.code + x.val = 4 * j.code + 0 := h
        exact ⟨by omega, show x.val = 0 by omega⟩
      | some y =>
        have h : 4 * k.code + x.val = 4 * j.code + y.val := h
        exact ⟨by omega, show x.val = y.val by omega⟩
  have hk : k = j := NoticeKind.code_inj code.1
  subst hk
  have hs : p.isSome = q.isSome := ha.trans hb.symm
  have : p = q := by
    cases p <;> cases q <;> first | rfl | exact congrArg some (Fin.ext code.2) | cases hs
  rw [this]

theorem NoticesGood.unique {s : State} (k : NoticesGood s) {a b : Notice} (ha : a ∈ s.notices.pending)
    (hb : b ∈ s.notices.pending) (h : a.key = b.key) : a = b := by
  have h1 := k.1
  clear k
  rw [List.pairwise_map] at h1
  generalize s.notices.pending = l at h1 ha hb
  induction l with
  | nil => cases ha
  | cons m l ih =>
    rw [List.pairwise_cons] at h1
    rcases List.mem_cons.1 ha with rfl | ka
    · rcases List.mem_cons.1 hb with rfl | kb
      · rfl
      · have := h1.1 b kb
        rw [h] at this
        exact absurd this (Nat.lt_irrefl _)
    · rcases List.mem_cons.1 hb with rfl | kb
      · have := h1.1 a ka
        rw [h] at this
        exact absurd this (Nat.lt_irrefl _)
      · exact ih h1.2 ka kb

theorem State.notice_mem {s : State} {k : NoticeKey} {n : Notice} (h : s.notice k = some n) :
    n ∈ s.notices.pending ∧ n.key = k :=
  ⟨List.mem_of_find?_eq_some h, of_decide_eq_true (List.find?_some (p := fun m : Notice => decide (m.key = k)) h)⟩

theorem State.notice_none {s : State} {k : NoticeKey} (h : s.notice k = none) : ∀ n ∈ s.notices.pending, n.key ≠ k :=
  fun n hn e => by simpa [e] using List.find?_eq_none.1 h n hn

/-! ## One instance written back, dropped or put in -/

theorem mem_replaceNotice {n m : Notice} {ns : List Notice} (h : m ∈ replaceNotice n ns) :
    m = n ∨ (m ∈ ns ∧ m.key ≠ n.key) := by
  unfold replaceNotice at h
  obtain ⟨x, hx, e⟩ := List.mem_map.1 h
  split at e
  · exact .inl e.symm
  next hne => exact .inr ⟨e ▸ hx, by rw [← e]; exact hne⟩

theorem replaceNotice_mem {n : Notice} {ns : List Notice} {x : Notice} (hx : x ∈ ns) :
    (if x.key = n.key then n else x) ∈ replaceNotice n ns := List.mem_map_of_mem (f := fun m => if m.key = n.key then n else m) hx

theorem replaceNotice_ranks (n : Notice) (ns : List Notice) :
    (replaceNotice n ns).map (fun n => n.key.rank) = ns.map (fun n => n.key.rank) := by
  unfold replaceNotice
  rw [List.map_map]
  refine List.map_congr_left (fun m _ => ?_)
  show (if m.key = n.key then n else m).key.rank = _
  split
  next h => rw [h]
  · rfl

/-- An instance is written back: the order list must say of its key what the new report state says. -/
theorem NoticesGood.put {s : State} (k : NoticesGood s) {n m : Notice} (hm : m ∈ s.notices.pending) (he : n.key = m.key)
    (hc : 1 ≤ n.count ∧ n.count ≤ 255 ∧ ∀ q f, n.report = .sent q f → f ≤ 255) (o : List NoticeKey) (ho : o.Nodup)
    (hi : n.key ∈ o ↔ n.report = .unreported ∧ s.params.noticeEnable.getLsbD (n.key.kind.code - 1) = true)
    (hr : ∀ j, j ≠ n.key → (j ∈ o ↔ j ∈ s.notices.order)) (a : Bool) :
    NoticesGood { s with notices := ⟨replaceNotice n s.notices.pending, o, a⟩ } := by
  refine ⟨?_, fun x hx => ?_, ho, fun j => ?_⟩
  · show ((replaceNotice n s.notices.pending).map _).Pairwise _
    rw [replaceNotice_ranks]
    exact k.1
  · rcases mem_replaceNotice hx with rfl | ⟨hx, _⟩
    · rw [he]
      exact ⟨(k.2.1 m hm).1, hc⟩
    · exact k.2.1 x hx
  · show j ∈ o ↔ ∃ x ∈ replaceNotice n s.notices.pending, _
    by_cases hj : j = n.key
    · subst hj
      rw [hi]
      constructor
      · exact fun h => ⟨n, by simpa [he] using replaceNotice_mem (n := n) hm, rfl, h⟩
      · rintro ⟨x, hx, e, h⟩
        rcases mem_replaceNotice hx with rfl | ⟨_, hn⟩
        · exact h
        · exact absurd e hn
    · rw [hr j hj, k.2.2.2 j]
      constructor
      · rintro ⟨x, hx, e, h⟩
        refine ⟨x, ?_, e, h⟩
        have := replaceNotice_mem (n := n) hx
        rwa [if_neg (by rw [e]; exact hj)] at this
      · rintro ⟨x, hx, e, h⟩
        rcases mem_replaceNotice hx with rfl | ⟨hx, _⟩
        · exact absurd e.symm hj
        · exact ⟨x, hx, e, h⟩

/-- The keys that join the tail of the order list when one instance becomes UNREPORTED. -/
theorem NoticesGood.putJoin {s : State} (k : NoticesGood s) {n m : Notice} (hm : m ∈ s.notices.pending) (he : n.key = m.key)
    (hu : m.report ≠ .unreported) (hn : n.report = .unreported) (hc : 1 ≤ n.count ∧ n.count ≤ 255) :
    NoticesGood ((s.putNotice n).joinOrder n.key) := by
  have no : n.key ∉ s.notices.order := fun h => by
    obtain ⟨x, hx, e, hr, _⟩ := (k.2.2.2 n.key).1 h
    have : x = m := k.unique hx hm (e.trans he)
    exact hu (this ▸ hr)
  unfold State.joinOrder State.noticeEnabled
  split
  next h =>
    refine k.put hm he ⟨hc.1, hc.2, fun q f c => by rw [hn] at c; cases c⟩ _ ?_ ?_ (fun j hj => ?_) _
    · rw [List.nodup_append]
      refine ⟨k.2.2.1, by simp, fun a ha b hb => ?_⟩
      rw [List.mem_singleton.1 hb]
      exact fun e => no (e ▸ ha)
    · exact ⟨fun _ => ⟨hn, h⟩, fun _ => by simp⟩
    · show j ∈ s.notices.order ++ [n.key] ↔ _
      simp [hj]
  next h =>
    refine k.put hm he ⟨hc.1, hc.2, fun q f c => by rw [hn] at c; cases c⟩ _ k.2.2.1 ?_ (fun _ _ => Iff.rfl) _
    exact ⟨fun c => absurd c no, fun c => absurd c.2 h⟩

theorem mem_insertNotice {n m : Notice} {ns : List Notice} : m ∈ insertNotice n ns ↔ m = n ∨ m ∈ ns := by
  induction ns with
  | nil => simp [insertNotice]
  | cons x ns ih =>
    unfold insertNotice
    split
    · simp
    · rw [List.mem_cons, ih, List.mem_cons]
      exact ⟨fun h => h.elim (fun h => .inr (.inl h)) (fun h => h.imp_right .inr),
        fun h => h.elim (fun h => .inr (.inl h)) (fun h => h.imp_right .inr)⟩

theorem insertNotice_ranks (n : Notice) (ns : List Notice) (h : (ns.map (fun n => n.key.rank)).Pairwise (· < ·))
    (hn : ∀ m ∈ ns, m.key.rank ≠ n.key.rank) : ((insertNotice n ns).map (fun n => n.key.rank)).Pairwise (· < ·) := by
  induction ns with
  | nil => simp [insertNotice]
  | cons x ns ih =>
    rw [List.map_cons, List.pairwise_cons] at h
    unfold insertNotice
    split
    next c =>
      rw [List.map_cons, List.map_cons, List.pairwise_cons, List.pairwise_cons]
      refine ⟨fun a ha => ?_, h⟩
      rcases List.mem_cons.1 ha with rfl | ha
      · exact c
      · exact Nat.lt_trans c (h.1 a ha)
    next c =>
      rw [List.map_cons, List.pairwise_cons]
      refine ⟨fun a ha => ?_, ih h.2 (fun m hm => hn m (by simp [hm]))⟩
      obtain ⟨m, hm, rfl⟩ := List.mem_map.1 ha
      rcases mem_insertNotice.1 hm with rfl | hm
      · have := hn x (by simp)
        omega
      · exact h.1 _ (List.mem_map_of_mem hm)

/-- A new instance joins the pending set (R174). -/
theorem NoticesGood.insert {s : State} (k : NoticesGood s) {n : Notice} (hn : ∀ m ∈ s.notices.pending, m.key ≠ n.key)
    (hw : n.key.port.isSome = n.key.kind.isPortKind) (hc : 1 ≤ n.count ∧ n.count ≤ 255) (hr : n.report = .unreported) :
    NoticesGood (({ s with notices := { s.notices with pending := insertNotice n s.notices.pending } } : State).joinOrder n.key) := by
  have no : n.key ∉ s.notices.order := fun h => by
    obtain ⟨x, hx, e, _⟩ := (k.2.2.2 n.key).1 h
    exact hn x hx e
  have key : ∀ o a, o.Nodup → (∀ j, j ∈ o ↔ j ∈ s.notices.order ∨ (j = n.key ∧ s.noticeEnabled n.key.kind = true)) →
      NoticesGood { s with notices := ⟨insertNotice n s.notices.pending, o, a⟩ } := by
    intro o a ho hi
    refine ⟨insertNotice_ranks n _ k.1 (fun m hm e => hn m hm (NoticeKey.rank_inj (k.2.1 m hm).1 hw e)), fun x hx => ?_, ho,
      fun j => ?_⟩
    · rcases mem_insertNotice.1 hx with rfl | hx
      · exact ⟨hw, hc.1, hc.2, fun q f c => by rw [hr] at c; cases c⟩
      · exact k.2.1 x hx
    · show j ∈ o ↔ ∃ x ∈ insertNotice n s.notices.pending, _
      rw [hi j, k.2.2.2 j]
      constructor
      · rintro (⟨x, hx, h⟩ | ⟨rfl, h⟩)
        · exact ⟨x, mem_insertNotice.2 (.inr hx), h⟩
        · exact ⟨n, mem_insertNotice.2 (.inl rfl), rfl, hr, h⟩
      · rintro ⟨x, hx, e, h⟩
        rcases mem_insertNotice.1 hx with rfl | hx
        · exact .inr ⟨e.symm, by rw [← e] at h; exact h.2⟩
        · exact .inl ⟨x, hx, e, h⟩
  unfold State.joinOrder
  split
  next h =>
    have h : s.noticeEnabled n.key.kind = true := h
    refine key _ _ ?_ (fun j => by simp [h])
    rw [List.nodup_append]
    refine ⟨k.2.2.1, by simp, fun a ha b hb => ?_⟩
    rw [List.mem_singleton.1 hb]
    exact fun e => no (e ▸ ha)
  next h =>
    have h : ¬ s.noticeEnabled n.key.kind = true := h
    exact key _ _ k.2.2.1 (fun j => by simp [h])

theorem inc255_range (n : Nat) : 1 ≤ inc255 n ∧ inc255 n ≤ 255 := by
  unfold inc255
  omega

/-- A raising keeps the form (R174). -/
theorem noticesGood_raise (k : NoticeKey) (d : NoticeDetail) (s : State) (hw : k.port.isSome = k.kind.isPortKind)
    (h : NoticesGood s) : NoticesGood (raise k d s) := by
  refine noticesGood_evalAttn _ ?_
  unfold raiseTable
  split
  next hn =>
    exact h.insert (n := ⟨k, 1, d, .unreported⟩) (State.notice_none hn) hw ⟨Nat.le_refl 1, show 1 ≤ 255 by decide⟩ rfl
  next n hn =>
    obtain ⟨hm, rfl⟩ := State.notice_mem hn
    have hi := inc255_range n.count
    split
    next hr =>
      refine h.put (n := { n with count := inc255 n.count, detail := d }) hm rfl ⟨hi.1, hi.2, fun q f c => ?_⟩ _ h.2.2.1 ?_ (fun _ _ => Iff.rfl) _
      · rw [show ({ n with count := inc255 n.count, detail := d } : Notice).report = n.report from rfl, hr] at c
        cases c
      · rw [h.2.2.2]
        constructor
        · rintro ⟨x, hx, e, r⟩
          rw [show ({ n with count := inc255 n.count, detail := d } : Notice).key = n.key from rfl] at e
          rw [h.unique hx hm e] at r
          exact r
        · exact fun r => ⟨n, hm, rfl, r⟩
    next q f hr =>
      refine h.put (n := { n with count := inc255 n.count, detail := d, report := .sent q (inc255 f) }) hm rfl ⟨hi.1, hi.2, fun _ _ c => ?_⟩ _ h.2.2.1 ?_ (fun _ _ => Iff.rfl) _
      · cases c
        exact (inc255_range f).2
      · rw [h.2.2.2]
        constructor
        · rintro ⟨x, hx, e, r, _⟩
          rw [show ({ n with count := inc255 n.count, detail := d, report := .sent q (inc255 f) } : Notice).key = n.key from rfl] at e
          rw [h.unique hx hm e, hr] at r
          cases r
        · exact fun r => by cases r.1
    next hr => exact h.putJoin (n := { n with count := inc255 n.count, detail := d, report := .unreported }) hm rfl (by simp [hr]) rfl hi

/-- Dropping instances keeps the form (R177, R179, R180). -/
theorem noticesGood_drop (out : Notice → Bool) (s : State) (h : NoticesGood s) : NoticesGood (s.dropNotices out) := by
  refine ⟨h.1.sublist (List.filter_sublist.map _), fun n hn => h.2.1 n (List.mem_filter.1 hn).1, h.2.2.1.filter _, fun k => ?_⟩
  show k ∈ s.notices.order.filter _ ↔ ∃ n ∈ s.notices.pending.filter _, _
  rw [List.mem_filter, h.2.2.2 k]
  constructor
  · rintro ⟨⟨n, hn, e, r⟩, hg⟩
    refine ⟨n, List.mem_filter.2 ⟨hn, ?_⟩, e, r⟩
    cases ho : out n with
    | false => rfl
    | true =>
      have : k ∈ (s.notices.pending.filter out).map (·.key) := List.mem_map.2 ⟨n, List.mem_filter.2 ⟨hn, ho⟩, e⟩
      simp [this] at hg
  · rintro ⟨n, hn, e, r⟩
    rw [List.mem_filter] at hn
    refine ⟨⟨n, hn.1, e, r⟩, ?_⟩
    simp only [Bool.not_eq_true', List.contains_eq_mem, decide_eq_false_iff_not, List.mem_map, not_exists, not_and]
    intro x hx ex
    rw [List.mem_filter] at hx
    rw [h.unique hx.1 hn.1 (ex.trans e.symm)] at hx
    simp [hx.2] at hn

/-- The acknowledgment of a NOTICE report keeps the form (R177, R178). -/
theorem noticesGood_ack (q : Byte) (s : State) (h : NoticesGood s) : NoticesGood (ackNotice q s) := by
  unfold ackNotice
  split
  · exact h
  next n hn =>
    have hm := List.mem_of_find?_eq_some hn
    have hc := h.2.1 n hm
    split
    next r hr =>
      split
      · refine noticesGood_evalAttn _ (h.put (n := { n with report := .reported }) hm rfl ⟨hc.2.1, hc.2.2.1, fun _ _ c => by cases c⟩
          _ h.2.2.1 ?_ (fun _ _ => Iff.rfl) _)
        rw [h.2.2.2]
        constructor
        · rintro ⟨x, hx, e, u, _⟩
          rw [h.unique hx hm e, hr] at u
          cases u
        · exact fun u => by cases u.1
      · exact noticesGood_evalAttn _ (noticesGood_drop _ _ h)
    next r f hr =>
      refine noticesGood_evalAttn _ (h.putJoin (n := { n with count := _, report := .unreported }) hm rfl (by simp [hr]) rfl ?_)
      dsimp only
      split
      · exact ⟨hc.2.1, hc.2.2.1⟩
      · exact ⟨Nat.succ_le_succ (Nat.zero_le f), hc.2.2.2 r _ hr⟩
    · exact h
    · exact h

/-- An instance sent keeps the form (R176). -/
theorem noticesGood_send (q : Byte) (n : Notice) (s : State) (hn : n ∈ s.notices.pending) (h : NoticesGood s) :
    NoticesGood (sendNotice q n s) := by
  have hc := h.2.1 n hn
  refine h.put (n := { n with report := .sent q 0 }) hn rfl ⟨hc.2.1, hc.2.2.1, fun _ _ c => ?_⟩ _ (h.2.2.1.filter _) ?_
    (fun j hj => ?_) _
  · cases c
    exact Nat.zero_le _
  · constructor
    · intro c
      simp at c
    · exact fun c => by cases c.1
  · show j ∈ s.notices.order.filter (fun k => k ≠ n.key) ↔ _
    have hj : j ≠ n.key := hj
    simp [hj]

/-- Every instance becomes UNREPORTED (R183). -/
theorem noticesGood_unreportAll (s : State) (h : NoticesGood s) : NoticesGood (unreportAll s) := by
  refine noticesGood_evalAttn _ ⟨?_, fun n hn => ?_, ?_, fun k => ?_⟩
  · show ((s.notices.pending.map _).map _).Pairwise _
    rw [List.map_map]
    exact h.1
  · obtain ⟨m, hm, rfl⟩ := List.mem_map.1 hn
    have := h.2.1 m hm
    exact ⟨this.1, this.2.1, this.2.2.1, fun _ _ c => by cases c⟩
  · have : ((s.notices.pending.map (fun n => { n with report := .unreported })).map (fun n : Notice => n.key.rank)).Pairwise (· < ·) := by
      rw [List.map_map]
      exact h.1
    have := (this.sublist ((List.filter_sublist (p := fun n : Notice => s.noticeEnabled n.key.kind)).map _))
    rw [List.pairwise_map] at this
    show (List.map (fun n : Notice => n.key) _).Nodup
    rw [List.Nodup, List.pairwise_map]
    exact this.imp (fun {a b} c e => by rw [e] at c; exact absurd c (Nat.lt_irrefl _))
  · constructor
    · intro hk
      obtain ⟨n, hn, e⟩ := List.mem_map.1 hk
      obtain ⟨h1, h2⟩ := List.mem_filter.1 hn
      obtain ⟨m, _, rfl⟩ := List.mem_map.1 h1
      exact ⟨_, h1, e, rfl, by rw [← e]; exact h2⟩
    · rintro ⟨n, hn, e, _, g⟩
      exact List.mem_map.2 ⟨n, List.mem_filter.2 ⟨hn, by rw [← e] at g; exact g⟩, e⟩

/-- A new mask keeps the form (R175). -/
theorem noticesGood_changeMask (mask : BitVec 16) (s : State) (h : NoticesGood s) : NoticesGood (changeMask mask s) := by
  refine noticesGood_evalAttn _ ⟨h.1, h.2.1, ?_, fun k => ?_⟩
  · show List.Nodup (_ ++ _)
    rw [List.nodup_append]
    refine ⟨h.2.2.1.filter _, ?_, fun a ha b hb e => ?_⟩
    · have := h.1.sublist ((List.filter_sublist (p := fun n : Notice => decide (n.report = .unreported) &&
        mask.getLsbD (n.key.kind.code - 1) && !s.noticeEnabled n.key.kind)).map _)
      rw [List.pairwise_map] at this
      rw [List.Nodup, List.pairwise_map]
      exact this.imp (fun {a b} c e => by rw [e] at c; exact absurd c (Nat.lt_irrefl _))
    · subst e
      obtain ⟨n, hn, e⟩ := List.mem_map.1 hb
      obtain ⟨_, h2⟩ := List.mem_filter.1 hn
      obtain ⟨x, _, _, _, h3⟩ := (h.2.2.2 a).1 (List.mem_filter.1 ha).1
      unfold State.noticeEnabled at h2
      rw [← e] at h3
      rw [h3] at h2
      simp at h2
  · show k ∈ _ ++ _ ↔ ∃ n ∈ s.notices.pending, n.key = k ∧ n.report = .unreported ∧ mask.getLsbD (k.kind.code - 1) = true
    rw [List.mem_append, List.mem_filter, h.2.2.2 k]
    constructor
    · rintro (⟨⟨n, hn, e, r, _⟩, g⟩ | hk)
      · exact ⟨n, hn, e, r, g⟩
      · obtain ⟨n, hn, e⟩ := List.mem_map.1 hk
        obtain ⟨h1, h2⟩ := List.mem_filter.1 hn
        simp only [Bool.and_eq_true, decide_eq_true_eq] at h2
        exact ⟨n, h1, e, h2.1.1, by rw [← e]; exact h2.1.2⟩
    · rintro ⟨n, hn, e, r, g⟩
      by_cases c : s.params.noticeEnable.getLsbD (k.kind.code - 1) = true
      · exact .inl ⟨⟨n, hn, e, r, c⟩, g⟩
      · refine .inr (List.mem_map.2 ⟨n, List.mem_filter.2 ⟨hn, ?_⟩, e⟩)
        unfold State.noticeEnabled
        rw [e, r]
        simpa [g] using c

/-- A new mode keeps the form (R179). -/
theorem noticesGood_changeMode (held : Bool) (s : State) (h : NoticesGood s) : NoticesGood (changeMode held s) := by
  have h1 : NoticesGood { s with params := { s.params with held := held } } := h.of_same ⟨rfl, rfl⟩ rfl
  unfold changeMode
  refine noticesGood_evalAttn _ ?_
  dsimp only
  split
  · exact noticesGood_drop _ _ h1
  · exact h1

end Sys2Proof.Machine
end

