-- ==== Sys2Proof/Laws/Soft.lean ====
section
/-! SUPPORT. What the operations inside a step leave alone, part by part. `Soft s t` says that `t` comes from `s` by what
requests, the Data Mover, the Staging Buffer, the Notice Unit and the Log Unit do to each other: the link, the parameters,
the maps, the ports and the power state stand, each request keeps its identity, a REPORTING one its outcome, a snapshot
stays. What it says nothing of is the staging buffer and the Data Mover's records: `Calm` adds that. -/

namespace Sys2Proof.Machine

/-- A request slot before and after: still occupied by the same request, further on in the order of R23, or still FREE.
A REPORTING request keeps its outcome, and a HELD one with a hold list goes nowhere but to REPORTING. -/
def SameRequest : Option Request → Option Request → Prop
  | none, none => True
  | some r, some q =>
    (q.kind = r.kind ∧ q.range = r.range ∧ q.urgent = r.urgent ∧ q.through = r.through ∧ q.admission = r.admission) ∧
      q.state ∈ r.state.laterStates ∧
      (r.state = .reporting → q.status = r.status ∧ q.failingLbn = r.failingLbn ∧ q.blocksDone = r.blocksDone) ∧
      (r.state = .held → q.state = .reporting ∨ (q.state = .held ∧ q.holdList = r.holdList) ∨
        (r.holdList = [] ∧ q.state ≠ .held))
  | none, some _ => False
  | some _, none => False

theorem ReqState.mem_laterStates (a : ReqState) : a ∈ a.laterStates := by cases a <;> simp [ReqState.laterStates]

theorem ReqState.laterStates_trans {a b c : ReqState} (h : b ∈ a.laterStates) (k : c ∈ b.laterStates) :
    c ∈ a.laterStates := by
  cases a <;> cases b <;> cases c <;> simp_all [ReqState.laterStates]

theorem SameRequest.refl (x : Option Request) : SameRequest x x := by
  cases x
  · exact trivial
  · exact ⟨⟨rfl, rfl, rfl, rfl, rfl⟩, ReqState.mem_laterStates _, fun _ => ⟨rfl, rfl, rfl⟩, fun e => .inr (.inl ⟨e, rfl⟩)⟩

theorem SameRequest.trans {x y z : Option Request} (h : SameRequest x y) (k : SameRequest y z) : SameRequest x z := by
  cases x <;> cases y <;> cases z
  case some.some.some r q p =>
    obtain ⟨hi, hl, hr, hh⟩ := h
    obtain ⟨ki, kl, kr, kh⟩ := k
    refine ⟨by simp_all, ReqState.laterStates_trans hl kl, fun e => ?_, fun e => ?_⟩
    · have hq : q.state = .reporting := by rw [e] at hl; simpa [ReqState.laterStates] using hl
      simp_all
    · rcases hh e with h1 | ⟨h1, h2⟩ | h1
      · left
        rw [h1] at kl
        simpa [ReqState.laterStates] using kl
      · rcases kh h1 with k1 | ⟨k1, k2⟩ | k1
        · exact .inl k1
        · exact .inr (.inl ⟨k1, k2.trans h2⟩)
        · exact .inr (.inr ⟨h2.symm.trans k1.1, k1.2⟩)
      · refine .inr (.inr ⟨h1.1, fun hp => h1.2 ?_⟩)
        rw [hp] at kl
        cases hq : q.state <;> simp [hq, ReqState.laterStates] at kl
        rfl
  all_goals simp_all [SameRequest]

theorem ReqState.reporting_later (a : ReqState) : ReqState.reporting ∈ a.laterStates := by
  cases a <;> simp [ReqState.laterStates]

/-- A request rewritten in its state. -/
theorem SameRequest.rewrite {r q : Request} (hi : q.kind = r.kind ∧ q.range = r.range ∧ q.urgent = r.urgent ∧
    q.through = r.through ∧ q.admission = r.admission) (hs : q.state = r.state) (hh : q.holdList = r.holdList)
    (ho : r.state = .reporting → q.status = r.status ∧ q.failingLbn = r.failingLbn ∧ q.blocksDone = r.blocksDone) :
    SameRequest (some r) (some q) :=
  ⟨hi, by rw [hs]; exact ReqState.mem_laterStates _, ho, fun e => .inr (.inl ⟨hs.trans e, hh⟩)⟩

/-- A request that goes on to a later state. -/
theorem SameRequest.advance {r q : Request} (hi : q.kind = r.kind ∧ q.range = r.range ∧ q.urgent = r.urgent ∧
    q.through = r.through ∧ q.admission = r.admission) (hs : q.state ∈ r.state.laterStates) (hn : r.state ≠ .reporting)
    (hh : r.state = .held → q.state = .reporting ∨ (r.holdList = [] ∧ q.state ≠ .held)) : SameRequest (some r) (some q) :=
  ⟨hi, hs, fun e => absurd e hn, fun e => (hh e).elim .inl (fun k => .inr (.inr k))⟩

/-- A request that is over, or ends with its operation, stays so. -/
theorem ReqState.ended_later {a b : ReqState} (h : b ∈ a.laterStates) (ha : a = .aborting ∨ a = .reporting) :
    b = .aborting ∨ b = .reporting := by
  rcases ha with rfl | rfl <;> simp [ReqState.laterStates] at h <;> simp [h]

theorem HaltGood.of_same {s t : State} (h : ∀ u, SameRequest (s.request u) (t.request u))
    (hh : t.halted = true → s.halted = true) (k : HaltGood s) : HaltGood t := by
  intro ht u q hq
  have hu := h u
  rw [hq] at hu
  cases hr : s.request u with
  | none => rw [hr] at hu; exact hu.elim
  | some r =>
    rw [hr] at hu
    exact ReqState.ended_later hu.2.1 (k (hh ht) u r hr)

theorem TableGood.of_same {s t : State} (h : ∀ u, SameRequest (s.request u) (t.request u))
    (ho : t.table.admissionOrder = s.table.admissionOrder) (k : TableGood s) : TableGood t := by
  refine ⟨by rw [ho]; exact k.1, fun u => ?_⟩
  rw [ho, k.2 u]
  have hu := h u
  cases hs : s.request u <;> cases ht : t.request u <;> simp_all [SameRequest]

/-- What a change keeps at least, whatever it does to the staging buffer and the Data Mover's records. -/
structure Soft (s t : State) : Prop where
  pending : t.pending = s.pending
  resetLow : t.resetLow = s.resetLow
  presence : t.presence = s.presence
  clock : t.clock = s.clock
  freeDraws : t.freeDraws = s.freeDraws
  params : t.params = s.params
  link : t.link = s.link
  mapStore : t.mapStore = s.mapStore
  ports : t.ports = s.ports
  power : t.power = s.power
  counter : t.table.counter = s.table.counter
  admissionOrder : t.table.admissionOrder = s.table.admissionOrder
  uptime : t.log.uptime = s.log.uptime
  recent : t.log.recent = s.log.recent
  errors : s.log.errorCount ≤ t.log.errorCount
  snapshot : ∀ x, s.table.snapshot = some x → t.table.snapshot = some x
  requests : ∀ u, SameRequest (s.request u) (t.request u)
  halt : TableGood s → HaltGood s → HaltGood t
  notices : NoticesGood s → NoticesGood t

theorem Soft.refl (s : State) : Soft s s := by
  constructor
  case errors => exact BitVec.le_refl _
  case requests => exact fun _ => SameRequest.refl _
  all_goals first | rfl | exact fun _ h => h | exact id

theorem Soft.trans {s t u : State} (h : Soft s t) (k : Soft t u) : Soft s u where
  pending := k.pending.trans h.pending
  resetLow := k.resetLow.trans h.resetLow
  presence := k.presence.trans h.presence
  clock := k.clock.trans h.clock
  freeDraws := k.freeDraws.trans h.freeDraws
  params := k.params.trans h.params
  link := k.link.trans h.link
  mapStore := k.mapStore.trans h.mapStore
  ports := k.ports.trans h.ports
  power := k.power.trans h.power
  counter := k.counter.trans h.counter
  admissionOrder := k.admissionOrder.trans h.admissionOrder
  uptime := k.uptime.trans h.uptime
  recent := k.recent.trans h.recent
  errors := BitVec.le_trans h.errors k.errors
  snapshot := fun x hx => k.snapshot x (h.snapshot x hx)
  requests := fun v => (h.requests v).trans (k.requests v)
  halt := fun a b => k.halt (a.of_same h.requests h.admissionOrder) (h.halt a b)
  notices := fun g => k.notices (h.notices g)

/-- Many calm operations in a row are calm. -/
theorem soft_foldl {α : Type} (f : State → α → State) (h : ∀ s a, Soft s (f s a)) (l : List α) (s : State) :
    Soft s (l.foldl f s) := by
  induction l generalizing s with
  | nil => exact Soft.refl s
  | cons a l ih => exact (h s a).trans (ih _)

theorem soft_forAdmitted (f : Tag → State → State) (h : ∀ t s, Soft s (f t s)) (s : State) :
    Soft s (forAdmitted f s) := soft_foldl _ (fun s t => h t s) _ _

theorem Soft.halted {s t : State} (h : Soft s t) (k : s.halted = true) : t.halted = true := by
  simp only [State.halted, Option.isSome_iff_exists] at k ⊢
  obtain ⟨x, hx⟩ := k
  exact ⟨x, h.snapshot x hx⟩

/-- Readings of the parts that stand. -/
theorem Soft.port {s t : State} (h : Soft s t) (p : Port) : t.port p = s.port p := by
  simp only [State.port, h.ports]

theorem Soft.mark {s t : State} (h : Soft s t) (p : Port) : t.mark p = s.mark p := by
  simp only [State.mark, h.power]

theorem Soft.translate {s t : State} (h : Soft s t) (x : Nat) : t.translate x = s.translate x := by
  simp only [State.translate, h.mapStore]

theorem Soft.available {s t : State} (h : Soft s t) (x : Nat) : t.available x = s.available x := by
  simp only [State.available, State.placeAvailable, State.capacity, h.translate, h.port]
  rfl

/-! ## Updates of one part -/

/-- A change of the parts that `Soft` says nothing of. -/
theorem soft_parts (s : State) (m : Mover) (g : Staging) (n : Notices)
    (h : NoticesGood s → NoticesGood { s with notices := n }) : Soft s { s with mover := m, staging := g, notices := n } :=
  { Soft.refl s with notices := h }

theorem soft_setWriteRecord (s : State) (t : Tag) (x : Option WriteRecord) : Soft s (s.setWriteRecord t x) :=
  soft_parts s _ s.staging s.notices id

theorem soft_setFetchRecord (s : State) (t : Tag) (x : Option FetchRecord) : Soft s (s.setFetchRecord t x) :=
  soft_parts s _ s.staging s.notices id

theorem soft_setReturnSlot (s : State) (r : RetNo) (x : ReturnSlot) : Soft s (s.setReturnSlot r x) :=
  soft_parts s _ s.staging s.notices id

theorem soft_setFillOrder (s : State) (o : List RetNo) : Soft s (s.setFillOrder o) :=
  soft_parts s _ s.staging s.notices id

theorem soft_setGrantOrder (s : State) (o : List Tag) : Soft s (s.setGrantOrder o) :=
  soft_parts s _ s.staging s.notices id

theorem soft_setStaging (s : State) (i : SlotNo) (x : StagingSlot) : Soft s (s.setStaging i x) :=
  soft_parts s s.mover _ s.notices id

theorem soft_setDrainOrder (s : State) (o : List SlotNo) : Soft s (s.setDrainOrder o) :=
  soft_parts s s.mover _ s.notices id

/-- A request rewritten as the same request. -/
theorem soft_setRequest (s : State) (t : Tag) (q : Request) (h : SameRequest (s.request t) (some q)) :
    Soft s (s.setRequest t q) := by
  have hk : ∀ u, SameRequest (s.request u) ((s.setRequest t q).request u) := ?_
  · exact { Soft.refl s with requests := hk, halt := fun _ => HaltGood.of_same hk (fun e => e) }
  intro u
  rw [State.request_setRequest]
  split
  next hu => subst hu; exact h
  next => exact SameRequest.refl _

/-! ## Notices and entries -/

theorem joinOrder_eq (k : NoticeKey) (s : State) : ∃ n, s.joinOrder k = { s with notices := n } := by
  unfold State.joinOrder
  split
  · exact ⟨_, rfl⟩
  · exact ⟨s.notices, rfl⟩

/-- A raising changes the notices alone. -/
theorem raise_eq (k : NoticeKey) (d : NoticeDetail) (s : State) : ∃ n, raise k d s = { s with notices := n } := by
  have h : ∃ n, raiseTable k d s = { s with notices := n } := by
    unfold raiseTable
    split
    · obtain ⟨n, hn⟩ := joinOrder_eq k { s with notices := { s.notices with
        pending := insertNotice ⟨k, 1, d, .unreported⟩ s.notices.pending } }
      exact ⟨n, hn⟩
    next m _ =>
      split
      · exact ⟨_, rfl⟩
      · exact ⟨_, rfl⟩
      · obtain ⟨n, hn⟩ := joinOrder_eq k (s.putNotice { m with
          count := inc255 m.count, detail := d, report := .unreported })
        exact ⟨n, hn⟩
  obtain ⟨n, hn⟩ := h
  exact ⟨{ n with attn := (raiseTable k d s).attnLevel }, by rw [raise, evalAttn, hn]⟩

theorem soft_raise (k : NoticeKey) (d : NoticeDetail) (s : State) (h : k.port.isSome = k.kind.isPortKind) :
    Soft s (raise k d s) := by
  have g := noticesGood_raise k d s h
  obtain ⟨n, hn⟩ := raise_eq k d s
  rw [hn] at g ⊢
  exact soft_parts s s.mover s.staging n g

theorem soft_raiseSingle (k : NoticeKind) (d : NoticeDetail) (s : State) (h : false = k.isPortKind := by rfl) :
    Soft s (raiseSingle k d s) := soft_raise ⟨k, none⟩ d s h

theorem soft_raisePort (k : NoticeKind) (p : Port) (d : NoticeDetail) (s : State) (h : true = k.isPortKind := by rfl) :
    Soft s (raisePort k p d s) := soft_raise ⟨k, some p⟩ d s h

theorem satInc_le {w : Nat} (c : BitVec w) : c ≤ satInc c := by
  unfold satInc
  split
  · exact BitVec.le_refl _
  next h =>
    rw [BitVec.le_def, BitVec.toNat_add]
    have h1 : c.toNat ≠ 2 ^ w - 1 := fun k => h (BitVec.eq_of_toNat_eq (by rw [k, BitVec.toNat_allOnes]))
    have h2 : c.toNat < 2 ^ w := c.isLt
    rcases Nat.eq_zero_or_pos w with h0 | h0
    · subst h0; simp_all
    · have h4 : (1#w).toNat = 1 := by
        rw [BitVec.toNat_ofNat]; exact Nat.mod_eq_of_lt (Nat.one_lt_two_pow (by omega))
      change c.toNat ≤ (c.toNat + (1#w).toNat) % 2 ^ w
      rw [h4, Nat.mod_eq_of_lt (by omega)]
      omega

/-- Making an entry changes the log and the notices alone. -/
theorem addEntry_eq (e : EntryInfo) (s : State) : ∃ n, addEntry e s = { s with
    notices := n
    log := { s.log with
      ring := (s.makeEntry e :: s.log.ring).take Config.ringSize
      nextNumber := entryAfter s.log.nextNumber
      errorCount := if e.source = .port then satInc s.log.errorCount else s.log.errorCount } } := by
  obtain ⟨n, hn⟩ := raise_eq ⟨.logAdded, none⟩ (.number s.log.nextNumber) { s with log := { s.log with
      ring := (s.makeEntry e :: s.log.ring).take Config.ringSize
      nextNumber := entryAfter s.log.nextNumber
      errorCount := if e.source = .port then satInc s.log.errorCount else s.log.errorCount } }
  exact ⟨n, hn⟩

theorem soft_addEntry (e : EntryInfo) (s : State) : Soft s (addEntry e s) := by
  have g : NoticesGood s → NoticesGood (addEntry e s) := fun k =>
    noticesGood_raise _ _ _ rfl (k.of_same (t := { s with log := _ }) ⟨rfl, rfl⟩ rfl)
  obtain ⟨n, hn⟩ := addEntry_eq e s
  rw [hn] at g ⊢
  refine { Soft.refl s with
    errors := ?_
    notices := fun k => (g k).of_same ⟨rfl, rfl⟩ rfl }
  dsimp only
  split
  · exact satInc_le _
  · exact BitVec.le_refl _

/-! ## Requests -/

theorem soft_enterReporting (t : Tag) (st : CompletionStatus) (x : Option Nat) (s : State)
    (h : ∀ r, s.request t = some r → r.state ≠ .reporting) : Soft s (enterReporting t st x s) := by
  unfold enterReporting
  split
  · exact Soft.refl s
  next r hr =>
    have hc : Soft s (s.setRequest t { r with
        state := .reporting, status := some st, failingLbn := x, holdList := [], flushSet := [], settleSet := [] }) :=
      soft_setRequest s t _ (by
        rw [hr]
        exact .advance ⟨rfl, rfl, rfl, rfl, rfl⟩ (ReqState.reporting_later _) (h r hr) (fun _ => .inl rfl))
    exact { hc with }

theorem soft_flushLeave (o : SlotNo) (t : Tag) (s : State) : Soft s (flushLeave o t s) := by
  unfold flushLeave
  split
  · exact Soft.refl s
  next r hr =>
    split
    next h =>
      have hc : Soft s (s.setRequest t { r with flushSet := setRemove o r.flushSet, blocksDone := r.blocksDone + 1 }) :=
        soft_setRequest s t _ (by
          rw [hr]
          exact .rewrite ⟨rfl, rfl, rfl, rfl, rfl⟩ rfl rfl (fun k => by simp_all))
      dsimp only
      split
      · refine hc.trans (soft_enterReporting _ _ _ _ ?_)
        intro q hq
        rw [State.request_setRequest, if_pos rfl, Option.some.injEq] at hq
        subst hq
        simp [h.2.1]
      · exact hc
    · exact Soft.refl s

theorem soft_settleLeave (o : SlotNo) (t : Tag) (s : State) : Soft s (settleLeave o t s) := by
  unfold settleLeave
  split
  · exact Soft.refl s
  next r hr =>
    split
    next h =>
      have hc : Soft s (s.setRequest t { r with settleSet := setRemove o r.settleSet }) :=
        soft_setRequest s t _ (by rw [hr]; exact .rewrite ⟨rfl, rfl, rfl, rfl, rfl⟩ rfl rfl (fun _ => ⟨rfl, rfl, rfl⟩))
      dsimp only
      split
      next h2 =>
        refine hc.trans (soft_enterReporting _ _ _ _ ?_)
        intro q hq
        rw [State.request_setRequest, if_pos rfl, Option.some.injEq] at hq
        subst hq
        simp [h2.2]
      · exact hc
    · exact Soft.refl s

theorem soft_flushReplace (o n : SlotNo) (t : Tag) (s : State) : Soft s (flushReplace o n t s) := by
  unfold flushReplace
  split
  · exact Soft.refl s
  next r hr =>
    split
    · exact soft_setRequest s t _ (by rw [hr]; exact .rewrite ⟨rfl, rfl, rfl, rfl, rfl⟩ rfl rfl (fun _ => ⟨rfl, rfl, rfl⟩))
    · exact Soft.refl s

theorem soft_freeFilling (o : SlotNo) (s : State) : Soft s (freeFilling o s) :=
  (soft_setStaging s o .free).trans (soft_forAdmitted _ (soft_flushLeave o) _)

theorem soft_dropWrite (t : Tag) (a : Word32) (s : State) : Soft s (dropWrite t a s) :=
  ((soft_setWriteRecord s t none).trans (soft_setGrantOrder _ _)).trans
    (soft_foldl _ (fun s o => soft_freeFilling o s) _ _)

theorem soft_releaseReturn (w : Owner) (b : Bool) (r : RetNo) (s : State) : Soft s (releaseReturn w b r s) := by
  unfold releaseReturn
  split
  · exact Soft.refl s
  · exact Soft.refl s
  · split
    · exact soft_setReturnSlot s r .free
    · exact Soft.refl s
  · split
    · exact (soft_setReturnSlot s r .free).trans (soft_setFillOrder _ _)
    · exact Soft.refl s

theorem soft_releaseReturns (w : Owner) (b : Bool) (s : State) : Soft s (releaseReturns w b s) :=
  soft_foldl _ (fun s r => soft_releaseReturn w b r s) _ _

theorem soft_dropFetch (t : Tag) (a : Word32) (s : State) : Soft s (dropFetch t a s) :=
  (soft_setFetchRecord s t none).trans (soft_releaseReturns _ _ _)

theorem soft_dropWork (t : Tag) (r : Request) (s : State) : Soft s (dropWork t r s) := by
  unfold dropWork
  split
  · exact soft_dropWrite _ _ _
  · exact soft_dropFetch _ _ _
  · exact soft_dropFetch _ _ _
  · exact Soft.refl s

theorem soft_endRequest (acc : State × Nat) (t : Tag) : Soft acc.1 (endRequest acc t).1 := by
  unfold endRequest
  split
  · exact Soft.refl _
  next r hr =>
    split
    · exact soft_enterReporting _ _ _ _ (fun q hq => by simp_all)
    · exact soft_enterReporting _ _ _ _ (fun q hq => by simp_all)
    next ha =>
      split
      · exact soft_setRequest _ t _ (by rw [hr]; exact .advance ⟨rfl, rfl, rfl, rfl, rfl⟩ (by simp [ha, ReqState.laterStates]) (by simp [ha]) (by simp [ha]))
      · exact soft_enterReporting _ _ _ _ (fun q hq => by simp_all)
    · exact Soft.refl _
    · exact Soft.refl _

theorem soft_endRequests (l : List Tag) (acc : State × Nat) : Soft acc.1 (l.foldl endRequest acc).1 := by
  induction l generalizing acc with
  | nil => exact Soft.refl _
  | cons t l ih => exact (soft_endRequest acc t).trans (ih _)

theorem soft_leaveWork (b : State) (t : Tag) (s : State) : Soft s (leaveWork b t s) := by
  unfold leaveWork
  split
  · exact Soft.refl s
  · split
    · split
      · exact soft_releaseReturns _ _ _
      · exact soft_dropWork _ _ _
    · exact Soft.refl s

theorem enterReporting_state (t : Tag) (st : CompletionStatus) (x : Option Nat) (s : State) :
    ∀ q, (enterReporting t st x s).request t = some q → q.state = .reporting := by
  intro q hq
  unfold enterReporting at hq
  split at hq
  next hn => rw [hn] at hq; simp at hq
  next r hr =>
    have hq' : (s.setRequest t { r with
      state := .reporting, status := some st, failingLbn := x, holdList := [], flushSet := [],
      settleSet := [] }).request t = some q := hq
    rw [State.request_setRequest, if_pos rfl, Option.some.injEq] at hq'
    rw [← hq']

/-- Every request the halt goes through is over, or ends with its operation. -/
theorem endRequests_ended (l : List Tag) (acc : State × Nat) (u : Tag) (hu : u ∈ l) :
    ∀ r, (l.foldl endRequest acc).1.request u = some r → r.state = .aborting ∨ r.state = .reporting := by
  have later : ∀ (l : List Tag) (acc : State × Nat),
      (∀ r, acc.1.request u = some r → r.state = .aborting ∨ r.state = .reporting) →
      ∀ r, (l.foldl endRequest acc).1.request u = some r → r.state = .aborting ∨ r.state = .reporting := by
    intro l acc h q hq
    have hc := (soft_endRequests l acc).requests u
    rw [hq] at hc
    cases hr : acc.1.request u with
    | none => rw [hr] at hc; exact hc.elim
    | some r => rw [hr] at hc; exact ReqState.ended_later hc.2.1 (h r hr)
  have here : ∀ acc : State × Nat, ∀ r, (endRequest acc u).1.request u = some r →
      r.state = .aborting ∨ r.state = .reporting := by
    intro acc q hq
    unfold endRequest at hq
    split at hq
    next hn => rw [hn] at hq; simp at hq
    next r hr =>
      split at hq
      · exact .inr (enterReporting_state _ _ _ _ q hq)
      · exact .inr (enterReporting_state _ _ _ _ q hq)
      · split at hq
        · rw [State.request_setRequest, if_pos rfl, Option.some.injEq] at hq
          rw [← hq]
          exact .inl rfl
        · exact .inr (enterReporting_state _ _ _ _ q hq)
      next ha =>
        rw [hr, Option.some.injEq] at hq
        rw [← hq]
        exact .inl ha
      next ha =>
        rw [hr, Option.some.injEq] at hq
        rw [← hq]
        exact .inr ha
  induction l generalizing acc with
  | nil => simp at hu
  | cons v l ih =>
    by_cases hv : u = v
    · subst hv
      exact later l _ (here acc)
    · exact ih _ (by simpa [hv] using hu)

theorem soft_haltQueue (t : Tag) (st : CompletionStatus) (s : State) (h : s.halted = false)
    (ht : ∀ r, s.request t = some r → r.state = .reporting) : Soft s (haltQueue t st s) := by
  have h0 : s.table.snapshot = none := by simpa [State.halted] using h
  unfold haltQueue
  dsimp only
  have h1 : Soft s ((s.table.admissionOrder.filter (fun u => u ≠ t)).foldl endRequest (s, 0)).1 :=
    soft_endRequests _ (s, 0)
  have h2 := h1.trans (soft_foldl (fun acc u => leaveWork s u acc) (fun a u => soft_leaveWork s u a)
    (s.table.admissionOrder.filter (fun u => u ≠ t)) _)
  split
  · exact h2
  next r hr =>
    refine Soft.trans ?_ (soft_raiseSingle _ _ _)
    refine { h2 with
      snapshot := fun x hx => by simp [h0] at hx
      halt := fun hg _ _ u q hq => ?_ }
    have hleft := soft_foldl (fun acc u => leaveWork s u acc) (fun a u => soft_leaveWork s u a)
      (s.table.admissionOrder.filter (fun u => u ≠ t))
      ((s.table.admissionOrder.filter (fun u => u ≠ t)).foldl endRequest (s, 0)).1
    have hq' : (List.foldl (fun acc u => leaveWork s u acc)
      ((s.table.admissionOrder.filter (fun u => u ≠ t)).foldl endRequest (s, 0)).1
      (s.table.admissionOrder.filter (fun u => u ≠ t))).request u = some q := hq
    by_cases hu : u = t
    · have hs := h2.requests u
      rw [hq'] at hs
      cases hr : s.request u with
      | none => rw [hr] at hs; exact hs.elim
      | some r =>
        rw [hr] at hs
        rw [hu] at hr
        exact ReqState.ended_later hs.2.1 (Or.inr (ht r hr))
    · have hs := hleft.requests u
      rw [hq'] at hs
      cases hr : ((s.table.admissionOrder.filter (fun u => u ≠ t)).foldl endRequest (s, 0)).1.request u with
      | none => rw [hr] at hs; exact hs.elim
      | some r =>
        rw [hr] at hs
        refine ReqState.ended_later hs.2.1 (endRequests_ended (s.table.admissionOrder.filter (fun u => u ≠ t)) (s, 0) u ?_ r hr)
        have hsome : (s.request u).isSome = true := by
          have hx := h1.requests u
          rw [hr] at hx
          cases hy : s.request u with
          | none => rw [hy] at hx; exact hx.elim
          | some _ => rfl
        simp only [List.mem_filter, ne_eq, hu, not_false_eq_true, decide_true, and_true]
        exact (hg.2 u).mpr hsome

theorem soft_requestFault (t : Tag) (st : CompletionStatus) (x : Option Nat) (c : HistoryCause) (s : State) :
    Soft s (requestFault t st x c s) := by
  unfold requestFault
  split
  · exact Soft.refl s
  next r hr =>
    split
    next h =>
      have hd := soft_dropWork t r s
      have he : Soft s (enterReporting t st x (dropWork t r s)) := by
        by_cases hq : ∃ q, (dropWork t r s).request t = some q ∧ q.state = .reporting
        · obtain ⟨q, hq1, hq2⟩ := hq
          unfold enterReporting
          rw [hq1]
          have hs := hd.requests t
          rw [hr, hq1] at hs
          have hc : Soft s ((dropWork t r s).setRequest t { q with
              state := .reporting, status := some st, failingLbn := x, holdList := [], flushSet := []
              settleSet := [] }) := by
            refine { hd with requests := ?_, halt := ?_ }
            · intro u
              rw [State.request_setRequest]
              split
              next hu =>
                subst hu
                rw [hr]
                exact .advance hs.1 (ReqState.reporting_later _) (fun k => by simp [k] at h) (fun _ => .inl rfl)
              next => exact hd.requests u
            · intro k1 k2 k3 u p hp
              rw [State.request_setRequest] at hp
              split at hp
              · simp only [Option.some.injEq] at hp
                rw [← hp]
                exact .inr rfl
              · exact hd.halt k1 k2 k3 u p hp
          exact { hc with }
        · exact hd.trans (soft_enterReporting _ _ _ _ (fun q hq1 hq2 => hq ⟨q, hq1, hq2⟩))
      have ha := he.trans (soft_addEntry
        { cause := c, source := .request, tag := some t, lbn := x
          port := (enterReporting t st x (dropWork t r s)).failingPort x, pbn := none, attempts := 0 } _)
      dsimp only
      split
      · exact ha
      next hn =>
        refine ha.trans (soft_haltQueue _ _ _ (by simpa using hn) (fun q hq => ?_))
        obtain ⟨n, e⟩ := addEntry_eq { cause := c, source := .request, tag := some t, lbn := x,
                                       port := (enterReporting t st x (dropWork t r s)).failingPort x, pbn := none,
                                       attempts := 0 } (enterReporting t st x (dropWork t r s))
        rw [e] at hq
        exact enterReporting_state t st x _ q hq
    · exact Soft.refl s

/-! ## Conflicting requests -/

/-- A slot before and after, as far as conflicts go: it was freed, or its request went on and did not leave HELD for
another state than REPORTING while its hold list was not empty. -/
def Kept : Option Request → Option Request → Prop
  | _, none => True
  | none, some _ => False
  | some r, some q =>
    q.kind = r.kind ∧ q.range = r.range ∧ (r.state = .reporting → q.state = .reporting) ∧
      (r.state = .held → q.state = .reporting ∨ (q.state = .held ∧ q.holdList = r.holdList) ∨ r.holdList = [])

theorem SameRequest.kept {x y : Option Request} (h : SameRequest x y) : Kept x y := by
  cases x <;> cases y
  case some.some r q =>
    refine ⟨h.1.1, h.1.2.1, fun e => ?_, fun e => (h.2.2.2 e).imp_right (fun k => k.imp_right And.left)⟩
    have := h.2.1
    rw [e] at this
    simpa [ReqState.laterStates] using this
  all_goals simp_all [SameRequest, Kept]

theorem Kept.refl (x : Option Request) : Kept x x := (SameRequest.refl x).kept

theorem OverlapGood.of_kept {s t : State} (h : ∀ u, Kept (s.request u) (t.request u)) (k : OverlapGood s) :
    OverlapGood t := by
  intro x y a b hxy ha hb hc
  have hx := h x
  have hy := h y
  rw [ha] at hx
  rw [hb] at hy
  cases hra : s.request x with
  | none => rw [hra] at hx; exact hx.elim
  | some r =>
    cases hrb : s.request y with
    | none => rw [hrb] at hy; exact hy.elim
    | some q =>
      rw [hra] at hx
      rw [hrb] at hy
      obtain ⟨x1, x2, x3, x4⟩ := hx
      obtain ⟨y1, y2, y3, y4⟩ := hy
      have hc' : r.conflicts q = true := by
        unfold Request.conflicts at hc ⊢
        rw [← x1, ← x2, ← y1, ← y2]
        exact hc
      rcases k x y r q hxy hra hrb hc' with g | g | ⟨g, gm⟩ | ⟨g, gm⟩
      · exact .inl (x3 g)
      · exact .inr (.inl (y3 g))
      · rcases x4 g with w | ⟨w, wl⟩ | w
        · exact .inl w
        · exact .inr (.inr (.inl ⟨w, by rw [wl]; exact gm⟩))
        · rw [w] at gm
          simp at gm
      · rcases y4 g with w | ⟨w, wl⟩ | w
        · exact .inr (.inl w)
        · exact .inr (.inr (.inr ⟨w, by rw [wl]; exact gm⟩))
        · rw [w] at gm
          simp at gm

end Sys2Proof.Machine
end

