-- ==== Sys2Proof/Laws/Waiting.lean ====
section
/-! SUPPORT. When the Data Mover has nothing to do, and what one grant comes to: formation finds no waiting WRITE, an
assignment finds no eligible READ, and the walks over the admission order leave the state as it is. -/

namespace Sys2Proof.Machine

/-- A walk of which no step does anything. -/
theorem foldl_idle {α : Type} (f : State → α → State) (l : List α) (s : State) (h : ∀ a, a ∈ l → f s a = s) : l.foldl f s = s := by
  induction l with
  | nil => rfl
  | cons a l ih =>
    rw [List.foldl_cons, h a (by simp)]
    exact ih (fun b hb => h b (by simp [hb]))

theorem forAdmitted_idle (f : Tag → State → State) (s : State) (h : ∀ t, f t s = s) : forAdmitted f s = s :=
  foldl_idle _ _ _ (fun t _ => h t)

/-- A walk in which one tag alone does something. -/
theorem forAdmitted_first (f : Tag → State → State) {s t : State} {x : Tag} {pre post : List Tag}
    (h : s.table.admissionOrder = pre ++ x :: post) (h1 : ∀ v ∈ pre, f v s = s) (h2 : f x s = t) (h3 : ∀ v, f v t = t) :
    forAdmitted f s = t := by
  unfold forAdmitted
  rw [h, List.foldl_append, foldl_idle (fun acc v => f v acc) pre s h1, List.foldl_cons, h2]
  exact foldl_idle (fun acc v => f v acc) post t (fun v _ => h3 v)

/-! ## Grants -/

theorem State.waitingWrite_none {s : State} {t : Tag} (h : ¬ s.waits t) : s.waitingWrite t = none := by
  unfold State.waitingWrite
  split
  · rfl
  next r hr =>
    split
    next g w hg hw =>
      split
      next e =>
        exact absurd ⟨r, g, w, hr, e.1, e.2.1, hg, hw, by simpa using e.2.2.1, e.2.2.2⟩ h
      · rfl
    · rfl

theorem State.waitingWrite_some {s : State} {t : Tag} {r : Request} {g : BlockRange} {w : WriteRecord}
    (hr : s.request t = some r) (hk : r.kind = .write) (ha : r.state = .active) (hg : r.range = some g)
    (hw : s.writeRecord t = some w) (hn : w.grant = none) (hl : w.next < g.count) :
    s.waitingWrite t = some (r, g, w) := by
  unfold State.waitingWrite
  rw [hr]
  dsimp only
  rw [hg, hw]
  dsimp only
  rw [if_pos ⟨hk, ha, by simp [hn], hl⟩]

theorem formGrant_idle {s : State} {t : Tag} (h : ¬ s.waits t) : formGrant t s = s := by
  unfold formGrant
  rw [State.waitingWrite_none h]

theorem formGrants_idle {s : State} (h : ∀ t, ¬ s.waits t) : formGrants s = s :=
  forAdmitted_idle _ _ (fun t => formGrant_idle (h t))

/-! ## Return slots -/

theorem State.eligibleRead_iff (s : State) (t : Tag) : s.eligibleRead t = true ↔ s.wantsReturn t := by
  unfold State.eligibleRead State.wantsReturn
  constructor
  · intro h
    split at h
    next r f hr hf =>
      split at h
      next g hg =>
        simp only [Bool.and_eq_true, decide_eq_true_eq, Option.isNone_iff_eq_none] at h
        exact ⟨r, g, f, hr, h.1.1.1, h.1.1.2, hg, hf, h.2, h.1.2⟩
      · cases h
    · cases h
  · rintro ⟨r, g, f, hr, hk, ha, hg, hf, hn, hc⟩
    rw [hr, hf]
    dsimp only
    rw [hg]
    simp [hk, ha, hc, hn]

theorem State.nextRead_none {s : State} (h : ∀ t, ¬ s.wantsReturn t) : s.nextRead = none := by
  have e : ∀ t, s.eligibleRead t = false := fun t => by
    rw [← Bool.not_eq_true, s.eligibleRead_iff]
    exact h t
  unfold State.nextRead
  rw [List.find?_eq_none.2 (fun t _ => by simp [e t])]
  exact List.find?_eq_none.2 (fun t _ => by simp [e t])

/-- Where no READ wants a return slot none is assigned, however many may be. -/
theorem assignReturnsUpTo_idle (k : Nat) {s : State} (h : ∀ t, ¬ s.wantsReturn t) : assignReturnsUpTo k s = s := by
  cases k with
  | zero => rfl
  | succ k =>
    unfold assignReturnsUpTo
    rw [s.nextRead_none h]

theorem assignReturns_idle {s : State} (h : ∀ t, ¬ s.wantsReturn t) : assignReturns s = s := assignReturnsUpTo_idle 9 h

/-! ## The slots of a grant -/

theorem reserve_eq (w : Owner) (m : Bool) (x : Nat) (is : List SlotNo) (s : State) :
    ∃ v, reserve w m x is s = { s with staging := { s.staging with slots := v } } := by
  induction is generalizing x s with
  | nil => exact ⟨s.staging.slots, rfl⟩
  | cons i is ih =>
    obtain ⟨v, e⟩ := ih (x + 1) (s.setStaging i (.filling x w m))
    exact ⟨v, e⟩

theorem reserve_other (w : Owner) (m : Bool) (x : Nat) (is : List SlotNo) (s : State) (i : SlotNo) (h : i ∉ is) :
    (reserve w m x is s).slot i = s.slot i := by
  induction is generalizing x s with
  | nil => rfl
  | cons j is ih =>
    rw [reserve, ih _ _ (fun hh => h (by simp [hh])), State.slot_setStaging, if_neg (by rintro rfl; simp at h)]

theorem reserve_slot (w : Owner) (m : Bool) (x : Nat) (is : List SlotNo) (hn : is.Nodup) (s : State) (n : Nat)
    (h : n < is.length) : (reserve w m x is s).slot is[n] = .filling (x + n) w m := by
  induction is generalizing x s n with
  | nil => simp at h
  | cons j is ih =>
    rw [List.nodup_cons] at hn
    cases n with
    | zero =>
      rw [reserve, List.getElem_cons_zero, reserve_other _ _ _ _ _ _ hn.1, State.slot_setStaging, if_pos rfl]
      rfl
    | succ n =>
      rw [reserve, List.getElem_cons_succ, ih _ hn.2]
      congr 1
      omega

theorem allSlots_nodup : allSlots.Nodup := by decide

theorem State.freeSlots_nodup (s : State) (n : Nat) : (s.freeSlots.take n).Nodup :=
  (allSlots_nodup.filter _).take

/-- The grant formed for a WRITE that waits. -/
theorem formGrant_waits {s : State} {t : Tag} {r : Request} {g : BlockRange} {w : WriteRecord}
    (hr : s.request t = some r) (hk : r.kind = .write) (ha : r.state = .active) (hg : r.range = some g)
    (hw : s.writeRecord t = some w) (hn : w.grant = none) (hl : w.next < g.count) (slots : List SlotNo)
    (hs : slots = s.freeSlots.take (min (g.count - w.next) 8)) (hne : slots ≠ []) :
    formGrant t s = reserve ⟨t, r.admission⟩ r.through (g.first + w.next) slots
      ((s.setWriteRecord t (some ⟨w.admission, w.next + slots.length, some ⟨w.next, slots, [], .unsent⟩, none⟩)).setGrantOrder
        (s.mover.grantOrder ++ [t])) := by
  unfold formGrant
  rw [State.waitingWrite_some hr hk ha hg hw hn hl]
  dsimp only
  rw [← show slots = s.freeSlots.take (min (g.count - w.next) Config.maxGrant) from hs, if_neg (by simpa using hne)]
  rfl

theorem formGrant_noSlots {s : State} {t : Tag} (h : s.freeSlots = []) : formGrant t s = s := by
  unfold formGrant
  split
  · rfl
  · simp [h]

/-- What forming one grant can change at all: the write records, the grants' order and the FREE staging slots. -/
structure Granted (s t : State) : Prop where
  eq : ∃ w o v, t = { s with
    mover := { s.mover with writes := w, grantOrder := o }, staging := { s.staging with slots := v } }
  slot : ∀ i, (s.slot i).isFree = false → t.slot i = s.slot i

theorem Granted.refl (s : State) : Granted s s := ⟨⟨s.mover.writes, s.mover.grantOrder, s.staging.slots, rfl⟩, fun _ _ => rfl⟩

theorem Granted.trans {s t u : State} (h : Granted s t) (k : Granted t u) : Granted s u := by
  obtain ⟨⟨w, o, v, e⟩, hs⟩ := h
  obtain ⟨⟨w', o', v', e'⟩, ks⟩ := k
  exact ⟨⟨w', o', v', by rw [e', e]⟩, fun i hi => (ks i (by rw [hs i hi]; exact hi)).trans (hs i hi)⟩

/-- One step of formation: nothing, or the grant of a WRITE that waits. -/
theorem formGrant_cases (t : Tag) (s : State) : formGrant t s = s ∨
    ∃ r g w slots, s.request t = some r ∧ r.kind = .write ∧ r.state = .active ∧ r.range = some g ∧
      s.writeRecord t = some w ∧ w.grant = none ∧ w.next < g.count ∧
      slots = s.freeSlots.take (min (g.count - w.next) 8) ∧ slots ≠ [] ∧
      formGrant t s = reserve ⟨t, r.admission⟩ r.through (g.first + w.next) slots
        ((s.setWriteRecord t (some ⟨w.admission, w.next + slots.length, some ⟨w.next, slots, [], .unsent⟩, none⟩)).setGrantOrder
          (s.mover.grantOrder ++ [t])) := by
  by_cases h : s.waits t
  · obtain ⟨r, g, w, hr, hk, ha, hg, hw, hn, hl⟩ := h
    by_cases he : s.freeSlots.take (min (g.count - w.next) 8) = []
    · left
      unfold formGrant
      rw [State.waitingWrite_some hr hk ha hg hw hn hl]
      dsimp only
      have he' : s.freeSlots.take (min (g.count - w.next) Config.maxGrant) = [] := he
      rw [if_pos (by rw [he']; rfl)]
    · exact .inr ⟨r, g, w, _, hr, hk, ha, hg, hw, hn, hl, rfl, he, formGrant_waits hr hk ha hg hw hn hl _ rfl he⟩
  · exact .inl (formGrant_idle h)

theorem State.mem_freeSlots {s : State} {n : Nat} {i : SlotNo} (h : i ∈ s.freeSlots.take n) : (s.slot i).isFree = true := by
  have := List.mem_of_mem_take h
  unfold State.freeSlots at this
  exact (List.mem_filter.1 this).2

theorem granted_formGrant (t : Tag) (s : State) : Granted s (formGrant t s) := by
  rcases formGrant_cases t s with e | ⟨r, g, w, slots, _, _, _, _, _, _, _, hs, _, e⟩
  · rw [e]
    exact .refl s
  · rw [e]
    obtain ⟨v, hv⟩ := reserve_eq ⟨t, r.admission⟩ r.through (g.first + w.next) slots
      ((s.setWriteRecord t (some ⟨w.admission, w.next + slots.length, some ⟨w.next, slots, [], .unsent⟩, none⟩)).setGrantOrder
        (s.mover.grantOrder ++ [t]))
    refine ⟨⟨_, _, v, hv⟩, fun i hi => ?_⟩
    rw [reserve_other]
    · rfl
    · intro hm
      rw [hs] at hm
      rw [State.mem_freeSlots hm] at hi
      cases hi

theorem granted_walk (l : List Tag) (s : State) : Granted s (l.foldl (fun acc u => formGrant u acc) s) := by
  induction l generalizing s with
  | nil => exact .refl s
  | cons a l ih => exact (granted_formGrant a s).trans (ih _)

theorem granted_formGrants (s : State) : Granted s (formGrants s) := granted_walk _ s

theorem Granted.request {s t : State} (h : Granted s t) (u : Tag) : t.request u = s.request u := by
  obtain ⟨⟨w, o, v, e⟩, _⟩ := h
  rw [e]
  rfl

theorem reserve_writeRecord (w : Owner) (m : Bool) (x : Nat) (is : List SlotNo) (s : State) (u : Tag) :
    (reserve w m x is s).writeRecord u = s.writeRecord u := by
  obtain ⟨v, e⟩ := reserve_eq w m x is s
  rw [e]
  rfl

/-- One step of formation leaves every other write record. -/
theorem formGrant_writeRecord (t u : Tag) (s : State) (h : u ≠ t) : (formGrant t s).writeRecord u = s.writeRecord u := by
  rcases formGrant_cases t s with e | ⟨r, g, w, slots, _, _, _, _, _, _, _, _, _, e⟩
  · rw [e]
  · rw [e, reserve_writeRecord]
    show ((s.setWriteRecord t _).setGrantOrder _).writeRecord u = _
    simp [h]

/-- A WRITE that does not wait keeps its record through formation. -/
theorem walk_writeRecord (l : List Tag) (s : State) (t : Tag) (h : ¬ s.waits t) :
    (l.foldl (fun acc u => formGrant u acc) s).writeRecord t = s.writeRecord t := by
  induction l generalizing s with
  | nil => rfl
  | cons a l ih =>
    rw [List.foldl_cons]
    by_cases e : t = a
    · subst e
      rw [formGrant_idle h]
      exact ih s h
    · rw [ih _ ?_, formGrant_writeRecord a t s e]
      unfold State.waits at h ⊢
      rw [(granted_formGrant a s).request, formGrant_writeRecord a t s e]
      exact h

theorem formGrants_writeRecord (s : State) (t : Tag) (h : ¬ s.waits t) : (formGrants s).writeRecord t = s.writeRecord t :=
  walk_writeRecord _ s t h

theorem formGrant_waits_other (t u : Tag) (s : State) (h : u ≠ t) : (formGrant t s).waits u ↔ s.waits u := by
  unfold State.waits
  rw [(granted_formGrant t s).request, formGrant_writeRecord t u s h]

/-- A second step of formation for one tag does nothing. -/
theorem formGrant_twice (t : Tag) (s : State) : formGrant t (formGrant t s) = formGrant t s := by
  rcases formGrant_cases t s with e | ⟨r, g, w, slots, _, _, _, _, _, _, _, _, _, e⟩
  · rw [e, e]
  · refine formGrant_idle ?_
    rw [e]
    rintro ⟨r', g', w', _, _, _, _, hw, hn, _⟩
    rw [reserve_writeRecord] at hw
    have : ((s.setWriteRecord t (some ⟨w.admission, w.next + slots.length, some ⟨w.next, slots, [], .unsent⟩, none⟩)).setGrantOrder
        (s.mover.grantOrder ++ [t])).writeRecord t =
        some ⟨w.admission, w.next + slots.length, some ⟨w.next, slots, [], .unsent⟩, none⟩ := by simp
    rw [this] at hw
    cases hw
    cases hn

/-- Formation where one WRITE alone may wait. -/
theorem formGrants_one {s : State} {t : Tag} (ht : t ∈ s.table.admissionOrder) (h : ∀ u, u ≠ t → ¬ s.waits u) :
    formGrants s = formGrant t s := by
  unfold formGrants forAdmitted
  generalize s.table.admissionOrder = l at ht
  induction l with
  | nil => cases ht
  | cons a l ih =>
    rw [List.foldl_cons]
    by_cases e : a = t
    · rw [e]
      refine foldl_idle _ _ _ (fun b _ => ?_)
      by_cases eb : b = t
      · rw [eb]
        exact formGrant_twice t s
      · exact formGrant_idle (fun hw => h b eb ((formGrant_waits_other t b s eb).1 hw))
    · rw [formGrant_idle (h a e)]
      exact ih ((List.mem_cons.1 ht).resolve_left (fun x => e x.symm))

/-- FREE or FILLING, as the formation of grants leaves a FREE slot. -/
def StagingSlot.isOpen (z : StagingSlot) : Prop := z.isFree = true ∨ z.isFilling = true

theorem reserve_open (w : Owner) (m : Bool) (x : Nat) (is : List SlotNo) (s : State) (i : SlotNo) (h : (s.slot i).isOpen) :
    ((reserve w m x is s).slot i).isOpen := by
  induction is generalizing x s with
  | nil => exact h
  | cons j is ih =>
    refine ih _ _ ?_
    rw [State.slot_setStaging]
    split
    · exact .inr rfl
    · exact h

theorem formGrant_open (t : Tag) (s : State) (i : SlotNo) (h : (s.slot i).isOpen) : ((formGrant t s).slot i).isOpen := by
  rcases formGrant_cases t s with e | ⟨r, g, w, slots, _, _, _, _, _, _, _, hs, _, e⟩
  · rw [e]; exact h
  · rw [e]; exact reserve_open _ _ _ _ _ _ h

theorem formGrants_open (s : State) (i : SlotNo) (h : (s.slot i).isOpen) : ((formGrants s).slot i).isOpen := by
  unfold formGrants forAdmitted
  generalize s.table.admissionOrder = l
  induction l generalizing s with
  | nil => exact h
  | cons a l ih => exact ih _ (formGrant_open a s i h)

end Sys2Proof.Machine
end

