-- ==== Sys2Proof/Laws/Stage.lean ====
section
/-! SUPPORT. What keeps the staging buffer and the Data Mover's records as `StageGood` says, one lemma for each kind of
change, and what it says of a reserved slot (R49 to R57, R71 to R77). -/

namespace Sys2Proof.Machine

/-- The part of `StageGood` beyond the request table. -/
def Staged (s : State) : Prop := StagingGood s ∧ RecordsGood s

/-- A request before and after, as far as the records go: its kind, range, admission and state stand, and its blocks done
too, unless it is no WRITE and not HELD. -/
def Counted (r q : Request) : Prop :=
  q.kind = r.kind ∧ q.range = r.range ∧ q.admission = r.admission ∧ q.state = r.state ∧
    (q.blocksDone = r.blocksDone ∨ (r.kind ≠ .write ∧ r.state ≠ .held))

theorem Counted.refl (r : Request) : Counted r r := ⟨rfl, rfl, rfl, rfl, .inl rfl⟩

/-- A request that no record stands for, as it is now. -/
def Unrecorded (s : State) (u : Tag) (x : Option Request) : Prop :=
  s.writeRecord u = none ∧ s.fetchRecord u = none ∧
    ∀ q, x = some q → (q.state = .held → q.blocksDone = 0) ∧ (q.kind = .write → q.range.isSome = true)

theorem StagingGood.of {s t : State} (h : StagingGood s) (hs : t.staging.slots = s.staging.slots)
    (ho : t.staging.drainOrder = s.staging.drainOrder) : StagingGood t := by
  have e : ∀ i, t.slot i = s.slot i := fun i => by unfold State.slot; rw [hs]
  refine ⟨by rw [ho]; exact h.1, fun i => by rw [ho, e]; exact h.2.1 i, fun i j c hc => ?_⟩
  rw [e, e]
  exact h.2.2 i j c hc

/-- The records stand, and each request they stand for. -/
theorem Staged.of {s t : State} (h : Staged s) (hs : t.staging.slots = s.staging.slots)
    (ho : t.staging.drainOrder = s.staging.drainOrder) (hw : t.mover.writes = s.mover.writes)
    (hf : t.mover.fetches = s.mover.fetches)
    (hr : ∀ u, t.request u = s.request u ∨ (∃ r q, s.request u = some r ∧ t.request u = some q ∧ Counted r q) ∨
      Unrecorded s u (t.request u)) : Staged t := by
  have es : ∀ i, t.slot i = s.slot i := fun i => by unfold State.slot; rw [hs]
  have ew : ∀ u, t.writeRecord u = s.writeRecord u := fun u => by unfold State.writeRecord; rw [hw]
  have ef : ∀ u, t.fetchRecord u = s.fetchRecord u := fun u => by unfold State.fetchRecord; rw [hf]
  obtain ⟨h1, h2, h3, h4, h5⟩ := h
  have fwd : ∀ u r, s.request u = some r → s.writeRecord u ≠ none ∨ s.fetchRecord u ≠ none →
      ∃ q, t.request u = some q ∧ Counted r q := by
    intro u r hu hn
    rcases hr u with k | ⟨r', q, k1, k2, k3⟩ | ⟨k1, k2, _⟩
    · exact ⟨r, k.trans hu, .refl r⟩
    · rw [hu] at k1
      cases k1
      exact ⟨q, k2, k3⟩
    · rcases hn with hn | hn
      · exact absurd k1 hn
      · exact absurd k2 hn
  refine ⟨h1.of hs ho, fun u w k => ?_, fun u f k => ?_, fun u q k => ?_, fun i x o => ?_⟩
  · rw [ew] at k
    obtain ⟨r, a1, a2, a3, g, a4, a5, a6⟩ := h2 u w k
    obtain ⟨q, b1, b2, b3, b4, b5, b6⟩ := fwd u r a1 (.inl (by rw [k]; simp))
    have b6 : q.blocksDone = r.blocksDone := b6.resolve_right (fun z => z.1 a2)
    exact ⟨q, b1, b2.trans a2, b5.trans a3, g, b3.trans a4, a5, by rw [b6]; exact a6⟩
  · rw [ef] at k
    obtain ⟨r, a1, a2, a3⟩ := h3 u f k
    obtain ⟨q, b1, b2, b3, b4, b5, b6⟩ := fwd u r a1 (.inr (by rw [k]; simp))
    exact ⟨q, b1, by rw [b2]; exact a2, by rw [b5]; exact a3⟩
  · rcases hr u with e | ⟨r, p, k1, k2, c1, c2, _, c4, c5⟩ | ⟨_, _, e⟩
    · exact h4 u q (e.symm.trans k)
    · rw [k] at k2
      cases k2
      obtain ⟨a1, a2⟩ := h4 u r k1
      refine ⟨fun z => ?_, fun z => by rw [c2]; exact a2 (c1 ▸ z)⟩
      rcases c5 with c5 | c5
      · rw [c5]; exact a1 (c4 ▸ z)
      · exact absurd (c4 ▸ z) c5.2
    · exact e q k
  · rw [es, h5 i x o]
    constructor
    · rintro ⟨r, g, w, a, n, k1, k2, k3, k4, k5⟩
      obtain ⟨q, b1, _, b3, b4, _, _⟩ := fwd o.tag r k1 (.inl (by rw [k4]; simp))
      exact ⟨q, g, w, a, n, b1, b4.trans k2, b3.trans k3, (ew _).trans k4, k5⟩
    · rintro ⟨q, g, w, a, n, k1, k2, k3, k4, k5⟩
      rw [ew] at k4
      obtain ⟨r, a1, _⟩ := h2 o.tag w k4
      obtain ⟨q', b1, _, b3, b4, _, _⟩ := fwd o.tag r a1 (.inl (by rw [k4]; simp))
      rw [k1] at b1
      cases b1
      exact ⟨r, g, w, a, n, a1, b4.symm.trans k2, b3.symm.trans k3, k4, k5⟩

/-- The records and the slots stand, and every request. -/
theorem Staged.of_same {s t : State} (h : Staged s) (hs : t.staging.slots = s.staging.slots)
    (ho : t.staging.drainOrder = s.staging.drainOrder) (hw : t.mover.writes = s.mover.writes)
    (hf : t.mover.fetches = s.mover.fetches) (ht : t.table.slots = s.table.slots) : Staged t :=
  h.of hs ho hw hf (fun u => .inl (by unfold State.request; rw [ht]))

/-! ## Fetch records -/

/-- A fetch record is dropped, or stands for an ACTIVE or ABORTING READ or VERIFY. -/
theorem Staged.setFetchRecord {s : State} (h : Staged s) (t : Tag) (x : Option FetchRecord)
    (hx : x.isSome = true → ∃ r, s.request t = some r ∧ (r.kind = .read ∨ r.kind = .verify) ∧
      (r.state = .active ∨ r.state = .aborting)) : Staged (s.setFetchRecord t x) := by
  obtain ⟨h1, h2, h3, h4, h5⟩ := h
  refine ⟨h1.of rfl rfl, h2, fun u f k => ?_, h4, h5⟩
  rw [State.fetchRecord_setFetchRecord] at k
  split at k
  next e => rw [e]; exact hx (by rw [k]; rfl)
  · exact h3 u f k

/-! ## Write records without a grant -/

/-- A write record without a current grant is put, changed or dropped: no slot is reserved under it. -/
theorem Staged.setWriteRecord {s : State} (h : Staged s) (t : Tag) (x : Option WriteRecord)
    (ho : ∀ w, s.writeRecord t = some w → w.grant = none)
    (hx : ∀ w, x = some w → w.grant = none ∧ ∃ r, s.request t = some r ∧ w.fits r) : Staged (s.setWriteRecord t x) := by
  obtain ⟨h1, h2, h3, h4, h5⟩ := h
  refine ⟨h1.of rfl rfl, fun u w k => ?_, h3, h4, fun i y o => ?_⟩
  · rw [State.writeRecord_setWriteRecord] at k
    split at k
    next e => rw [e]; exact (hx w k).2
    · exact h2 u w k
  · rw [State.setWriteRecord_slot, h5]
    unfold State.awaits
    simp only [State.writeRecord_setWriteRecord, State.setWriteRecord_request]
    constructor
    · rintro ⟨r, g, w, a, n, k1, k2, k3, k4, k5, k6⟩
      refine ⟨r, g, w, a, n, k1, k2, k3, ?_, k5, k6⟩
      rw [if_neg, k4]
      intro e
      rw [e] at k4
      rw [ho w k4] at k5
      cases k5
    · rintro ⟨r, g, w, a, n, k1, k2, k3, k4, k5, k6⟩
      refine ⟨r, g, w, a, n, k1, k2, k3, ?_, k5, k6⟩
      split at k4
      · rw [(hx w k4).1] at k5
        cases k5
      · exact k4

/-- A current grant is rewritten in its report state, or its timer. -/
theorem Staged.sameGrant {s : State} (h : Staged s) {t : Tag} {w v : WriteRecord} {a b : Grant} (hw : s.writeRecord t = some w)
    (ha : w.grant = some a) (hv : v.next = w.next ∧ v.grant = some b)
    (hb : b.first = a.first ∧ b.slots = a.slots ∧ b.received = a.received) : Staged (s.setWriteRecord t (some v)) := by
  obtain ⟨h1, h2, h3, h4, h5⟩ := h
  refine ⟨h1.of rfl rfl, fun u x k => ?_, h3, h4, fun i y o => ?_⟩
  · rw [State.writeRecord_setWriteRecord] at k
    split at k
    next e =>
      cases k
      obtain ⟨r, r1, r2, r3, g, r4, r5, r6⟩ := h2 t w hw
      rw [ha] at r6
      refine ⟨r, by rw [e]; exact r1, r2, r3, g, r4, by rw [hv.1]; exact r5, ?_⟩
      rw [hv.2, hv.1]
      dsimp only
      rw [hb.1, hb.2.1, hb.2.2]
      exact r6
    · exact h2 u x k
  · rw [State.setWriteRecord_slot, h5]
    unfold State.awaits
    simp only [State.writeRecord_setWriteRecord, State.setWriteRecord_request]
    constructor
    · rintro ⟨r, g, w', c, n, k1, k2, k3, k4, k5, k6, k7, k8⟩
      by_cases e : o.tag = t
      · rw [e, hw] at k4
        cases k4
        rw [ha] at k5
        cases k5
        exact ⟨r, g, v, b, n, k1, k2, k3, if_pos e, hv.2, by rw [hb.2.1]; exact k6, by rw [hb.1, hb.2.2]; exact k7,
          by rw [hb.1]; exact k8⟩
      · exact ⟨r, g, w', c, n, k1, k2, k3, (if_neg e).trans k4, k5, k6, k7, k8⟩
    · rintro ⟨r, g, w', c, n, k1, k2, k3, k4, k5, k6, k7, k8⟩
      split at k4
      next e =>
        cases k4
        rw [hv.2] at k5
        cases k5
        exact ⟨r, g, w, a, n, k1, k2, k3, by rw [e]; exact hw, ha, by rw [← hb.2.1]; exact k6,
          by rw [← hb.1, ← hb.2.2]; exact k7, by rw [← hb.1]; exact k8⟩
      · exact ⟨r, g, w', c, n, k1, k2, k3, k4, k5, k6, k7, k8⟩

/-! ## Staging slots -/

/-- The slots change in what none of the laws speaks of, or give up a place other than a reserved one. -/
theorem Staged.of_slots {s t : State} (h : Staged s) (ht : t.table.slots = s.table.slots) (hm : t.mover = s.mover)
    (hn : t.staging.drainOrder.Nodup) (ho : ∀ i, i ∈ t.staging.drainOrder ↔ (t.slot i).isDirty = true)
    (hc : ∀ i j c, c.1 ≠ .reserved → (t.slot i).place = some c → (t.slot j).place = some c → i = j)
    (hf : ∀ i x o, (∃ m, t.slot i = .filling x o m) ↔ ∃ m, s.slot i = .filling x o m) : Staged t := by
  have er : ∀ u, t.request u = s.request u := fun u => by unfold State.request; rw [ht]
  have ew : ∀ u, t.writeRecord u = s.writeRecord u := fun u => by unfold State.writeRecord; rw [hm]
  have ef : ∀ u, t.fetchRecord u = s.fetchRecord u := fun u => by unfold State.fetchRecord; rw [hm]
  obtain ⟨_, h2, h3, h4, h5⟩ := h
  refine ⟨⟨hn, ho, hc⟩, fun u w k => ?_, fun u f k => ?_, fun u q k => ?_, fun i x o => ?_⟩
  · rw [er]; exact h2 u w ((ew u).symm.trans k)
  · rw [er]; exact h3 u f ((ef u).symm.trans k)
  · exact h4 u q ((er u).symm.trans k)
  · rw [hf, h5]
    unfold State.awaits
    simp only [er, ew]

/-- One slot, not FILLING before or after, changes with the drain-order list. -/
theorem Staged.set_slot {s : State} (h : Staged s) (i : SlotNo) (y : StagingSlot) (l : List SlotNo)
    (h1 : (s.slot i).isFilling = false) (h2 : y.isFilling = false) (hn : l.Nodup)
    (ho : ∀ j, j ∈ l ↔ (if j = i then y.isDirty else (s.slot j).isDirty) = true)
    (hp : ∀ j c, j ≠ i → y.place = some c → (s.slot j).place ≠ some c) : Staged ((s.setStaging i y).setDrainOrder l) := by
  have e : ∀ j, ((s.setStaging i y).setDrainOrder l).slot j = if j = i then y else s.slot j := fun j =>
    State.slot_setStaging s i j y
  refine h.of_slots rfl rfl hn (fun j => ?_) (fun j k c hc hj hk => ?_) (fun j x o => ?_)
  · show j ∈ l ↔ _
    rw [e, ho j]
    split <;> rfl
  · rw [e] at hj hk
    split at hj
    next z =>
      split at hk
      next w => rw [z, w]
      next w => exact absurd hk (hp k c w hj)
    next z =>
      split at hk
      next w => exact absurd hj (hp j c z hk)
      · exact h.1.2.2 j k c hc hj hk
  · rw [e]
    split
    next z =>
      rw [z]
      refine ⟨fun ⟨m, k⟩ => ?_, fun ⟨m, k⟩ => ?_⟩
      · rw [k] at h2; cases h2
      · rw [k] at h1; cases h1
    · rfl

/-- A slot that is neither FILLING nor DIRTY gives up its place, or takes one that no other slot has, and is not DIRTY. -/
theorem Staged.replace {s : State} (h : Staged s) (i : SlotNo) (y : StagingSlot) (h1 : (s.slot i).isFilling = false)
    (h2 : y.isFilling = false) (h3 : (s.slot i).isDirty = false) (h4 : y.isDirty = false)
    (hp : ∀ j c, j ≠ i → y.place = some c → (s.slot j).place ≠ some c) : Staged (s.setStaging i y) := by
  refine h.set_slot i y s.staging.drainOrder h1 h2 h.1.1 (fun j => ?_) hp
  rw [h.1.2.1 j]
  split
  next e => rw [e, h3, h4]
  · rfl

/-- A slot leaves the drain-order list and is not DIRTY any more. -/
theorem Staged.leave {s : State} (h : Staged s) (i : SlotNo) (y : StagingSlot) (h1 : (s.slot i).isFilling = false)
    (h2 : y.isFilling = false) (h4 : y.isDirty = false)
    (hp : ∀ j c, j ≠ i → y.place = some c → (s.slot j).place ≠ some c) :
    Staged ((s.setStaging i y).setDrainOrder (setRemove i s.staging.drainOrder)) := by
  refine h.set_slot i y _ h1 h2 (h.1.1.filter _) (fun j => ?_) hp
  unfold setRemove
  rw [List.mem_filter, h.1.2.1 j]
  by_cases e : j = i
  · simp [e, h4]
  · simp [e]

/-- A slot that was not DIRTY turns DIRTY at the tail of the drain-order list. -/
theorem Staged.join {s : State} (h : Staged s) (i : SlotNo) (y : StagingSlot) (h1 : (s.slot i).isFilling = false)
    (h2 : y.isFilling = false) (h3 : (s.slot i).isDirty = false) (h4 : y.isDirty = true)
    (hp : ∀ j c, j ≠ i → y.place = some c → (s.slot j).place ≠ some c) :
    Staged ((s.setStaging i y).setDrainOrder (s.staging.drainOrder ++ [i])) := by
  have hi : i ∉ s.staging.drainOrder := fun k => by rw [h.1.2.1 i, h3] at k; cases k
  refine h.set_slot i y _ h1 h2 ?_ (fun j => ?_) hp
  · rw [List.nodup_append]
    refine ⟨h.1.1, by simp, fun a ha b hb e => ?_⟩
    rw [List.mem_singleton] at hb
    exact hi (hb ▸ e ▸ ha)
  · rw [List.mem_append, List.mem_singleton, h.1.2.1 j]
    by_cases e : j = i
    · simp [e, h4]
    · simp [e]

/-! ## What a slot holds -/

/-- The copy held for a block, as its place says. -/
theorem StagingSlot.place_held {z : StagingSlot} {x : Nat} :
    z.place = some (.held, x) ↔ (z.isDirty || z.isStranded) = true ∧ z.lbn? = some x := by
  cases z <;> simp [StagingSlot.place, StagingSlot.isDirty, StagingSlot.isStranded, StagingSlot.lbn?]

theorem StagingSlot.place_draining {z : StagingSlot} {x : Nat} :
    z.place = some (.draining, x) ↔ z.isDraining = true ∧ z.lbn? = some x := by
  cases z <;> simp [StagingSlot.place, StagingSlot.isDraining, StagingSlot.lbn?]

theorem StagingSlot.held_filling {z : StagingSlot} (h : (z.isDirty || z.isStranded) = true) : z.isFilling = false := by
  cases z <;> simp_all [StagingSlot.isDirty, StagingSlot.isStranded, StagingSlot.isFilling]

theorem StagingSlot.held_place {z : StagingSlot} (h : (z.isDirty || z.isStranded) = true) : ∃ x, z.place = some (.held, x) := by
  cases z <;> simp_all [StagingSlot.isDirty, StagingSlot.isStranded, StagingSlot.place]

theorem State.findLbn_some {s : State} {p : StagingSlot → Bool} {x : Nat} {i : SlotNo} (h : s.findLbn p x = some i) :
    p (s.slot i) = true ∧ (s.slot i).lbn? = some x := by
  have := List.find?_some h
  simpa using this

theorem State.findLbn_eq_none {s : State} {p : StagingSlot → Bool} {x : Nat} (h : s.findLbn p x = none) (i : SlotNo) :
    ¬ (p (s.slot i) = true ∧ (s.slot i).lbn? = some x) := by
  have := List.find?_eq_none.1 h i (by revert i; decide)
  simpa using this

/-- The copy held is the newest. -/
theorem Staged.no_held {s : State} {x : Nat} (h : s.newestCopy x = none) (j : SlotNo) : (s.slot j).place ≠ some (.held, x) :=
  fun k => State.findLbn_eq_none h j (StagingSlot.place_held.1 k)

/-! ## Grants -/

theorem StagingSlot.place_filling_iff {z : StagingSlot} {c : CopyPlace × Nat} (h : z.isFilling = true ∨ z.isFree = true)
    (hc : c.1 ≠ .reserved) : z.place ≠ some c := by
  intro k
  cases z with
  | filling x o m => cases k; exact hc rfl
  | free => cases k
  | dirty x m d => rcases h with h | h <;> cases h
  | draining x m d => rcases h with h | h <;> cases h
  | stranded x m d r => rcases h with h | h <;> cases h

/-- A grant formed reserves its slots, one for each block (R50 to R52). -/
theorem Staged.grant {s : State} (h : Staged s) (t : Tag) : Staged (formGrant t s) := by
  rcases formGrant_cases t s with e | ⟨r, g, w, l, hr, hk, ha, hg, hw, hn, hl, hs, hne, e⟩
  · rw [e]; exact h
  obtain ⟨⟨h1, h2, h3⟩, h4, h5, h6, h7⟩ := h
  have nd : l.Nodup := by rw [hs]; exact s.freeSlots_nodup _
  have fr : ∀ i ∈ l, (s.slot i).isFree = true := fun i hi => State.mem_freeSlots (hs ▸ hi)
  have len : l.length ≤ g.count - w.next := by rw [hs, List.length_take]; omega
  have pos : 0 < l.length := List.length_pos_iff.2 hne
  have base : r.blocksDone = w.next := by
    obtain ⟨q, a1, _, _, k, _, _, a4⟩ := h4 t w hw
    rw [hr] at a1
    cases a1
    rw [hn] at a4
    exact a4
  let S := (s.setWriteRecord t (some ⟨w.admission, w.next + l.length, some ⟨w.next, l, [], .unsent⟩, none⟩)).setGrantOrder
    (s.mover.grantOrder ++ [t])
  have eT : formGrant t s = reserve ⟨t, r.admission⟩ r.through (g.first + w.next) l S := e
  have out : ∀ i, i ∉ l → (formGrant t s).slot i = s.slot i := fun i hi => by
    rw [eT, reserve_other _ _ _ _ _ _ hi]
    rfl
  have inn : ∀ n (hn : n < l.length), (formGrant t s).slot l[n] = .filling (g.first + w.next + n) ⟨t, r.admission⟩ r.through :=
    fun n hn => by rw [eT, reserve_slot _ _ _ _ nd _ _ hn]
  have inn' : ∀ i ∈ l, ((formGrant t s).slot i).isFilling = true := fun i hi => by
    obtain ⟨n, hn, rfl⟩ := List.getElem_of_mem hi
    rw [inn n hn]
    rfl
  have rq : ∀ u, (formGrant t s).request u = s.request u := (granted_formGrant t s).request
  have wr : ∀ u, (formGrant t s).writeRecord u =
      if u = t then some ⟨w.admission, w.next + l.length, some ⟨w.next, l, [], .unsent⟩, none⟩ else s.writeRecord u := fun u => by
    rw [eT, reserve_writeRecord]
    exact State.writeRecord_setWriteRecord s t u _
  have fe : ∀ u, (formGrant t s).fetchRecord u = s.fetchRecord u := fun u => by
    obtain ⟨v, ev⟩ := reserve_eq ⟨t, r.admission⟩ r.through (g.first + w.next) l S
    rw [eT, ev]
    rfl
  have dr : (formGrant t s).staging.drainOrder = s.staging.drainOrder := by
    obtain ⟨v, ev⟩ := reserve_eq ⟨t, r.admission⟩ r.through (g.first + w.next) l S
    rw [eT, ev]
    rfl
  refine ⟨⟨by rw [dr]; exact h1, fun i => ?_, fun i j c hc hi hj => ?_⟩, fun u v hv => ?_, fun u f hf => ?_, fun u q hq => ?_,
    fun i x o => ?_⟩
  · rw [dr, h2]
    by_cases k : i ∈ l
    · have a1 := fr i k
      have a2 := inn' i k
      revert a1 a2
      cases s.slot i <;> cases (formGrant t s).slot i <;> simp [StagingSlot.isFree, StagingSlot.isFilling, StagingSlot.isDirty]
    · rw [out i k]
  · have ni : i ∉ l := fun k => StagingSlot.place_filling_iff (.inl (inn' i k)) hc hi
    have nj : j ∉ l := fun k => StagingSlot.place_filling_iff (.inl (inn' j k)) hc hj
    rw [out i ni] at hi
    rw [out j nj] at hj
    exact h3 i j c hc hi hj
  · rw [wr] at hv
    rw [rq]
    split at hv
    next eu =>
      cases hv
      rw [eu]
      exact ⟨r, hr, hk, ha, g, hg, by dsimp only; omega, rfl, by simpa using base, by simpa using pos, List.nodup_nil, by simp⟩
    · exact h4 u v hv
  · rw [rq]
    exact h5 u f (by rw [← fe]; exact hf)
  · exact h6 u q (by rw [← rq]; exact hq)
  · constructor
    · rintro ⟨m, hm⟩
      by_cases k : i ∈ l
      · obtain ⟨n, hn, rfl⟩ := List.getElem_of_mem k
        rw [inn n hn] at hm
        cases hm
        refine ⟨r, g, _, _, n, (rq t).trans hr, rfl, hg, (wr t).trans (if_pos rfl), rfl, List.getElem?_eq_getElem hn, by simp, ?_⟩
        dsimp only
        omega
      · rw [out i k] at hm
        obtain ⟨r', g', w', a, n, k1, k2, k3, k4, k5, k6⟩ := (h7 i x o).1 ⟨m, hm⟩
        refine ⟨r', g', w', a, n, (rq _).trans k1, k2, k3, (wr _).trans ?_, k5, k6⟩
        rw [if_neg, k4]
        intro eo
        rw [eo, hw] at k4
        cases k4
        rw [hn] at k5
        cases k5
    · rintro ⟨r', g', w', a, n, k1, k2, k3, k4, k5, k6, k7, k8⟩
      rw [rq] at k1
      rw [wr] at k4
      split at k4
      next eo =>
        cases k4
        cases k5
        rw [eo, hr] at k1
        cases k1
        rw [hg] at k3
        cases k3
        obtain ⟨hn, rfl⟩ := List.getElem?_eq_some_iff.1 k6
        refine ⟨r.through, (inn n hn).trans ?_⟩
        have oe : o = ⟨t, r.admission⟩ := by rw [← eo, k2]
        rw [k8, oe]
        dsimp only
        rw [Nat.add_assoc]
      next eo =>
        obtain ⟨m, hm⟩ := (h7 i x o).2 ⟨r', g', w', a, n, k1, k2, k3, k4, k5, k6, k7, k8⟩
        refine ⟨m, (out i (fun k => ?_)).trans hm⟩
        have := fr i k
        rw [hm] at this
        cases this

/-! ## A block arrives -/

/-- Numbers without duplicates from `m` in a row are no more than `m`. -/
theorem nodup_bounded (a m : Nat) (l : List Nat) (h : l.Nodup) (k : ∀ n ∈ l, a ≤ n ∧ n < a + m) : l.length ≤ m := by
  induction m generalizing l with
  | zero =>
    cases l with
    | nil => exact Nat.le_refl _
    | cons n l => have := k n (List.mem_cons_self ..); omega
  | succ m ih =>
    have j := ih (l.erase (a + m)) (h.erase _) (fun n hn => by
      have := k n (List.mem_of_mem_erase hn)
      have : n ≠ a + m := fun e => by rw [e] at hn; exact absurd hn h.not_mem_erase
      omega)
    by_cases e : a + m ∈ l
    · rw [List.length_erase_of_mem e] at j
      omega
    · rw [List.erase_of_not_mem e] at j
      omega

/-- A block arrives in the slot reserved for it, while no copy of it is held: the slot holds it, and the record counts it
(R51, R56, R74). -/
theorem Staged.arrive {A B : State} (h : Staged A) {t : Tag} {r q : Request} {g : BlockRange} {w v : WriteRecord} {a : Grant}
    {k x : Nat} {i : SlotNo} {z : StagingSlot} (hr : A.request t = some r) (hg : r.range = some g)
    (hw : A.writeRecord t = some w) (ha : w.grant = some a) (hi : a.slots[k]? = some i) (hn : a.first + k ∉ a.received)
    (hx : x = g.first + (a.first + k)) (hz : z.place = some (.held, x)) (ho : ∀ j, (A.slot j).place ≠ some (.held, x))
    (bs : ∀ j, B.slot j = if j = i then z else A.slot j)
    (bd : B.staging.drainOrder = if z.isDirty then A.staging.drainOrder ++ [i] else A.staging.drainOrder)
    (bq : ∀ u, B.request u = if u = t then some q else A.request u)
    (hq : q.kind = r.kind ∧ q.range = r.range ∧ q.admission = r.admission ∧ q.state = r.state ∧ q.blocksDone = r.blocksDone + 1)
    (bw : ∀ u, B.writeRecord u = if u = t then some v else A.writeRecord u) (bf : ∀ u, B.fetchRecord u = A.fetchRecord u)
    (hv : v.next = w.next ∧ if a.received.length + 1 = a.slots.length then v.grant = none
      else ∃ b, v.grant = some b ∧ b.first = a.first ∧ b.slots = a.slots ∧ b.received = a.received ++ [a.first + k]) :
    Staged B := by
  obtain ⟨⟨h1, h2, h3⟩, h4, h5, h6, h7⟩ := h
  obtain ⟨c1, c2, c3, c4, c5⟩ := hq
  obtain ⟨r', d1, d2, d3, g', d4, d5, d6⟩ := h4 t w hw
  rw [hr] at d1
  cases d1
  rw [hg] at d4
  cases d4
  rw [ha] at d6
  obtain ⟨e1, e2, e3, e4, e5⟩ := d6
  have hk : k < a.slots.length := (List.getElem?_eq_some_iff.1 hi).1
  obtain ⟨m, hm⟩ := (h7 i x ⟨t, r.admission⟩).2 ⟨r, g, w, a, k, hr, rfl, hg, hw, ha, hi, hn, hx⟩
  have zf : ∀ y o n, z ≠ .filling y o n := fun y o n e => by rw [e] at hz; cases hz
  have ni : i ∉ A.staging.drainOrder := fun c => by rw [h2, hm] at c; cases c
  refine ⟨⟨?_, fun j => ?_, fun j j' c hc hj hj' => ?_⟩, fun u w' hw' => ?_, fun u f hf => ?_, fun u p hp => ?_, fun j y o => ?_⟩
  · rw [bd]
    split
    · rw [List.nodup_append]
      refine ⟨h1, by simp, fun y hy y' hy' e => ?_⟩
      rw [List.mem_singleton] at hy'
      exact ni (hy' ▸ e ▸ hy)
    · exact h1
  · rw [bd, bs]
    by_cases e : j = i
    · rw [if_pos e, e]
      cases z.isDirty <;> simp [ni]
    · rw [if_neg e, ← h2 j]
      split <;> simp [e]
  · rw [bs] at hj hj'
    split at hj <;> split at hj'
    · simp_all
    · rw [hz] at hj
      cases hj
      exact absurd hj' (ho j')
    · rw [hz] at hj'
      cases hj'
      exact absurd hj (ho j)
    · exact h3 j j' c hc hj hj'
  · rw [bw] at hw'
    rw [bq]
    split at hw'
    next e =>
      cases hw'
      rw [if_pos e]
      refine ⟨q, rfl, c1.trans d2, c4.trans d3, g, c2.trans hg, by rw [hv.1]; exact d5, ?_⟩
      by_cases f : a.received.length + 1 = a.slots.length
      · have z2 := hv.2
        rw [if_pos f] at z2
        rw [z2, hv.1]
        dsimp only
        omega
      · have z2 := hv.2
        rw [if_neg f] at z2
        obtain ⟨b, b1, b2, b3, b4⟩ := z2
        rw [b1, hv.1]
        dsimp only
        rw [b2, b3, b4, List.length_append, List.length_singleton]
        refine ⟨e1, by omega, by omega, ?_, fun n hn' => ?_⟩
        · rw [List.nodup_append]
          refine ⟨e4, by simp, fun y hy y' hy' e => ?_⟩
          rw [List.mem_singleton] at hy'
          exact hn (hy' ▸ e ▸ hy)
        · rw [List.mem_append, List.mem_singleton] at hn'
          rcases hn' with hn' | hn'
          · exact e5 n hn'
          · omega
    next e =>
      rw [if_neg e]
      exact h4 u w' hw'
  · rw [bf] at hf
    obtain ⟨p, p1, p2, p3⟩ := h5 u f hf
    rw [bq]
    split
    next e =>
      rw [e, hr] at p1
      cases p1
      exact ⟨q, rfl, by rw [c1]; exact p2, by rw [c4]; exact p3⟩
    · exact ⟨p, p1, p2, p3⟩
  · rw [bq] at hp
    split at hp
    · cases hp
      rw [c1, c2, c4, d3, hg]
      exact ⟨fun c => ReqState.noConfusion c, fun _ => rfl⟩
    · exact h6 u p hp
  · constructor
    · rintro ⟨m', hm'⟩
      rw [bs] at hm'
      split at hm'
      · exact absurd hm' (zf _ _ _)
      next ne =>
      obtain ⟨r0, g0, w0, a0, k0, k1, k2, k3, k4, k5, k6, k7, k8⟩ := (h7 j y o).1 ⟨m', hm'⟩
      by_cases e : o.tag = t
      · rw [e, hr] at k1
        cases k1
        rw [hg] at k3
        cases k3
        rw [e, hw] at k4
        cases k4
        rw [ha] at k5
        cases k5
        have nk : k0 ≠ k := fun c => by rw [c, hi] at k6; cases k6; exact ne rfl
        have hk0 : k0 < a.slots.length := (List.getElem?_eq_some_iff.1 k6).1
        have nf : a.received.length + 1 ≠ a.slots.length := fun f => by
          have := nodup_bounded a.first a.slots.length (a.received ++ [a.first + k, a.first + k0]) (by
            rw [List.nodup_append]
            refine ⟨e4, by simp; omega, fun y hy y' hy' e => ?_⟩
            simp only [List.mem_cons, List.not_mem_nil, or_false] at hy'
            rcases hy' with c | c
            · exact hn (c ▸ e ▸ hy)
            · exact k7 (c ▸ e ▸ hy)) (fun n hn' => by
            simp only [List.mem_append, List.mem_cons, List.not_mem_nil, or_false] at hn'
            rcases hn' with c | c | c
            · have := e5 n c; omega
            · omega
            · omega)
          simp at this
          omega
        have z2 := hv.2
        rw [if_neg nf] at z2
        obtain ⟨b, b1, b2, b3, b4⟩ := z2
        refine ⟨q, g, v, b, k0, (bq _).trans (if_pos e), c3.trans k2, c2.trans hg, (bw _).trans (if_pos e), b1, by rw [b3]; exact k6,
          ?_, by rw [b2]; exact k8⟩
        rw [b2, b4, List.mem_append, List.mem_singleton]
        rintro (c | c)
        · exact k7 c
        · omega
      · exact ⟨r0, g0, w0, a0, k0, (bq _).trans ((if_neg e).trans k1), k2, k3, (bw _).trans ((if_neg e).trans k4), k5, k6, k7, k8⟩
    · rintro ⟨r0, g0, w0, a0, k0, k1, k2, k3, k4, k5, k6, k7, k8⟩
      rw [bq] at k1
      rw [bw] at k4
      have old : A.awaits o j y := by
        split at k1
        next e =>
          rw [if_pos e] at k4
          cases k1
          cases k4
          have z2 := hv.2
          split at z2
          · rw [z2] at k5
            cases k5
          · obtain ⟨b, b1, b2, b3, b4⟩ := z2
            rw [b1] at k5
            cases k5
            rw [c2] at k3
            rw [b3] at k6
            rw [b2, b4, List.mem_append] at k7
            rw [b2] at k8
            exact ⟨r, g0, w, a, k0, by rw [e]; exact hr, c3.symm.trans k2, k3, by rw [e]; exact hw, ha, k6, fun c => k7 (.inl c), k8⟩
        next e =>
          rw [if_neg e] at k4
          exact ⟨r0, g0, w0, a0, k0, k1, k2, k3, k4, k5, k6, k7, k8⟩
      obtain ⟨m', hm'⟩ := (h7 j y o).2 old
      refine ⟨m', (bs j).trans ?_⟩
      rw [if_neg, hm']
      intro e
      rw [e, hm] at hm'
      cases hm'
      dsimp only at k1 k4
      rw [if_pos rfl] at k1 k4
      cases k1
      cases k4
      have z2 := hv.2
      split at z2
      · rw [z2] at k5
        cases k5
      · obtain ⟨b, b1, b2, b3, b4⟩ := z2
        rw [b1] at k5
        cases k5
        rw [c2, hg] at k3
        cases k3
        rw [b2, b4, List.mem_append, List.mem_singleton] at k7
        rw [b2] at k8
        exact k7 (.inr (by omega))

/-! ## The reserved slots -/

theorem StageGood.staged {s : State} (h : StageGood s) : Staged s := ⟨h.2.2.2.1, h.2.2.2.2⟩

/-- The owner of a reserved slot is an ACTIVE WRITE whose range has the block. -/
theorem State.awaits.owner {s : State} {o : Owner} {i : SlotNo} {x : Nat} (h : s.awaits o i x) (k : RecordsGood s) :
    ∃ r g, s.request o.tag = some r ∧ r.kind = .write ∧ r.state = .active ∧ r.range = some g ∧ g.has x := by
  obtain ⟨r, g, w, a, n, h1, _, h3, h4, h5, h6, _, rfl⟩ := h
  obtain ⟨r', b1, b2, b3, g', b4, b5, b6⟩ := k.1 o.tag w h4
  rw [h1] at b1
  cases b1
  rw [h3] at b4
  cases b4
  rw [h5] at b6
  have := (List.getElem?_eq_some_iff.1 h6).1
  refine ⟨r, g, h1, b2, b3, h3, ?_, ?_⟩
  · omega
  · dsimp only at b6; omega

/-- No two slots are reserved for one block: two WRITEs that overlap are never both ACTIVE (R32, R76). -/
theorem StageGood.reserved_one {s : State} (h : StageGood s) {o p : Owner} {i j : SlotNo} {x : Nat} (h1 : s.awaits o i x)
    (h2 : s.awaits p j x) : i = j := by
  obtain ⟨_, _, ov, _, rec⟩ := h
  by_cases e : o.tag = p.tag
  · obtain ⟨r, g, w, a, n, a1, _, a3, a4, a5, a6, _, a8⟩ := h1
    obtain ⟨r', g', w', a', n', b1, _, b3, b4, b5, b6, _, b8⟩ := h2
    rw [← e] at b1 b4
    rw [a1] at b1
    cases b1
    rw [a3] at b3
    cases b3
    rw [a4] at b4
    cases b4
    rw [a5] at b5
    cases b5
    have : n = n' := by omega
    rw [this, b6] at a6
    cases a6
    rfl
  · obtain ⟨r, g, a1, a2, a3, a4, a5⟩ := h1.owner rec
    obtain ⟨q, k, b1, b2, b3, b4, b5⟩ := h2.owner rec
    have c : r.conflicts q = true := by
      unfold Request.conflicts
      rw [a4, b4]
      simp only [a2, decide_true, Bool.true_or, Bool.and_true]
      unfold BlockRange.overlaps
      simp only [BlockRange.has] at a5 b5
      simp only [Bool.and_eq_true, decide_eq_true_eq]
      omega
    rcases ov _ _ r q e a1 b1 c with z | z | ⟨z, _⟩ | ⟨z, _⟩
    · rw [a3] at z; cases z
    · rw [b3] at z; cases z
    · rw [a3] at z; cases z
    · rw [b3] at z; cases z

/-- At most one slot to a place and a block (R76). -/
theorem StageGood.place_one {s : State} (h : StageGood s) {i j : SlotNo} {c : CopyPlace × Nat} (h1 : (s.slot i).place = some c)
    (h2 : (s.slot j).place = some c) : i = j := by
  by_cases e : c.1 = .reserved
  · have k : ∀ i, (s.slot i).place = some c → ∃ o m, s.slot i = .filling c.2 o m := by
      intro i hi
      unfold StagingSlot.place at hi
      cases hs : s.slot i with
      | filling x o m =>
        rw [hs] at hi
        cases hi
        exact ⟨o, m, rfl⟩
      | free => rw [hs] at hi; cases hi
      | dirty x m d => rw [hs] at hi; cases hi; cases e
      | draining x m d => rw [hs] at hi; cases hi; cases e
      | stranded x m d r => rw [hs] at hi; cases hi; cases e
    obtain ⟨o, m, hi⟩ := k i h1
    obtain ⟨p, n, hj⟩ := k j h2
    exact h.reserved_one ((h.2.2.2.2.2.2.2 i _ o).1 ⟨m, hi⟩) ((h.2.2.2.2.2.2.2 j _ p).1 ⟨n, hj⟩)
  · exact h.2.2.2.1.2.2 i j c e h1 h2

end Sys2Proof.Machine
end

