-- ==== Sys2Proof/Laws/Calm.lean ====
section
/-! SUPPORT. What the operations inside a step leave alone. `Calm s t` is `Soft s t`, and the staging buffer and the Data
Mover's records stay as `StageGood` says. A request fault keeps that too (`FaultKeeps`), which is proved where the halt is
known; until then each lemma takes it as a premise of its field `good`. -/

namespace Sys2Proof.Machine

/-- A request fault leaves the staging buffer and the Data Mover's records as `StageGood` says. -/
def FaultKeeps : Prop := ∀ t st x c s, StageGood s → StageGood (requestFault t st x c s)

/-- See the head of this file. -/
structure Calm (s t : State) : Prop extends Soft s t where
  good : FaultKeeps → StageGood s → StageGood t

theorem Soft.stageGood {s t : State} (h : Soft s t) (k : StageGood s) (g : Staged t) : StageGood t :=
  ⟨k.1.of_same h.requests h.admissionOrder, h.halt k.1 k.2.1, k.2.2.1.of_kept (fun u => (h.requests u).kept), g⟩

theorem Soft.calm {s t : State} (h : Soft s t) (g : FaultKeeps → StageGood s → Staged t) : Calm s t :=
  { h with good := fun f k => h.stageGood k (g f k) }

/-- Where the slots, the drain-order list, the records and the requests stand. -/
theorem Soft.still {s t : State} (h : Soft s t) (hs : t.staging.slots = s.staging.slots)
    (ho : t.staging.drainOrder = s.staging.drainOrder) (hw : t.mover.writes = s.mover.writes)
    (hf : t.mover.fetches = s.mover.fetches) (ht : t.table.slots = s.table.slots) : Calm s t :=
  h.calm (fun _ k => k.staged.of_same hs ho hw hf ht)

theorem Calm.refl (s : State) : Calm s s := (Soft.refl s).still rfl rfl rfl rfl rfl

theorem Calm.trans {s t u : State} (h : Calm s t) (k : Calm t u) : Calm s u :=
  { h.toSoft.trans k.toSoft with good := fun f g => k.good f (h.good f g) }

/-- Many calm operations in a row are calm. -/
theorem calm_foldl {α : Type} (f : State → α → State) (h : ∀ s a, Calm s (f s a)) (l : List α) (s : State) :
    Calm s (l.foldl f s) := by
  induction l generalizing s with
  | nil => exact Calm.refl s
  | cons a l ih => exact (h s a).trans (ih _)

theorem calm_forAdmitted (f : Tag → State → State) (h : ∀ t s, Calm s (f t s)) (s : State) :
    Calm s (forAdmitted f s) := calm_foldl _ (fun s t => h t s) _ _

/-! ## Updates of one part -/

theorem calm_setReturnSlot (s : State) (r : RetNo) (x : ReturnSlot) : Calm s (s.setReturnSlot r x) :=
  (soft_setReturnSlot s r x).still rfl rfl rfl rfl rfl

theorem calm_setFillOrder (s : State) (o : List RetNo) : Calm s (s.setFillOrder o) :=
  (soft_setFillOrder s o).still rfl rfl rfl rfl rfl

theorem calm_setGrantOrder (s : State) (o : List Tag) : Calm s (s.setGrantOrder o) :=
  (soft_setGrantOrder s o).still rfl rfl rfl rfl rfl

/-- A fetch record is dropped, or is one of an ACTIVE or ABORTING READ or VERIFY. -/
theorem calm_setFetchRecord (s : State) (t : Tag) (x : Option FetchRecord) (h : StageGood s → x.isSome = true →
    ∃ r, s.request t = some r ∧ (r.kind = .read ∨ r.kind = .verify) ∧ (r.state = .active ∨ r.state = .aborting)) :
    Calm s (s.setFetchRecord t x) := (soft_setFetchRecord s t x).calm (fun _ k => k.staged.setFetchRecord t x (h k))

theorem calm_dropFetchRecord (s : State) (t : Tag) : Calm s (s.setFetchRecord t none) :=
  calm_setFetchRecord s t none (fun _ h => by cases h)

/-- A fetch record rewritten. -/
theorem calm_sameFetchRecord (s : State) (t : Tag) (f g : FetchRecord) (h : s.fetchRecord t = some f) :
    Calm s (s.setFetchRecord t (some g)) := calm_setFetchRecord s t _ (fun k _ => k.staged.2.2.1 t f h)

/-- A request rewritten in what no record counts. -/
theorem calm_setRequest (s : State) (t : Tag) (r q : Request) (hr : s.request t = some r) (h : SameRequest (some r) (some q))
    (hc : Counted r q) : Calm s (s.setRequest t q) := by
  refine (soft_setRequest s t q (by rw [hr]; exact h)).calm (fun _ k => ?_)
  refine k.staged.of rfl rfl rfl rfl (fun u => ?_)
  rw [State.request_setRequest]
  split
  next e => exact .inr (.inl ⟨r, q, by rw [e]; exact hr, rfl, hc⟩)
  · exact .inl rfl

/-! ## Notices and entries -/

theorem calm_raise (k : NoticeKey) (d : NoticeDetail) (s : State) (h : k.port.isSome = k.kind.isPortKind) :
    Calm s (raise k d s) := by
  have g := soft_raise k d s h
  obtain ⟨n, hn⟩ := raise_eq k d s
  rw [hn] at g ⊢
  exact g.still rfl rfl rfl rfl rfl

theorem calm_raiseSingle (k : NoticeKind) (d : NoticeDetail) (s : State) (h : false = k.isPortKind := by rfl) :
    Calm s (raiseSingle k d s) := calm_raise ⟨k, none⟩ d s h

theorem calm_raisePort (k : NoticeKind) (p : Port) (d : NoticeDetail) (s : State) (h : true = k.isPortKind := by rfl) :
    Calm s (raisePort k p d s) := calm_raise ⟨k, some p⟩ d s h

theorem calm_addEntry (e : EntryInfo) (s : State) : Calm s (addEntry e s) := by
  have g := soft_addEntry e s
  obtain ⟨n, hn⟩ := addEntry_eq e s
  rw [hn] at g ⊢
  exact g.still rfl rfl rfl rfl rfl

/-! ## Requests -/

/-- A request that no record stands for is over. -/
theorem calm_enterReporting (t : Tag) (st : CompletionStatus) (x : Option Nat) (s : State)
    (h : ∀ r, s.request t = some r → r.state ≠ .reporting)
    (hn : StageGood s → s.writeRecord t = none ∧ s.fetchRecord t = none) : Calm s (enterReporting t st x s) := by
  refine (soft_enterReporting t st x s h).calm (fun _ k => ?_)
  unfold enterReporting
  split
  · exact k.staged
  next r hr =>
    refine k.staged.of rfl rfl rfl rfl (fun u => ?_)
    show (s.setRequest t _).request u = s.request u ∨ (∃ r q, _ ∧ (s.setRequest t _).request u = some q ∧ _) ∨
      Unrecorded s u ((s.setRequest t _).request u)
    rw [State.request_setRequest]
    split
    next e =>
      rw [e]
      refine .inr (.inr ⟨(hn k).1, (hn k).2, fun q hq => ?_⟩)
      cases hq
      exact ⟨fun z => ReqState.noConfusion z, (k.staged.2.2.2.1 t r hr).2⟩
    · exact .inl rfl

/-- The same after calm operations, from what the records were before them. -/
theorem Calm.over {s v : State} (h : Calm s v) (t : Tag) (st : CompletionStatus) (x : Option Nat)
    (hr : ∀ r, v.request t = some r → r.state ≠ .reporting)
    (hn : StageGood s → v.writeRecord t = none ∧ v.fetchRecord t = none) : Calm s (enterReporting t st x v) :=
  (h.toSoft.trans (soft_enterReporting t st x v hr)).calm
    (fun fk k => ((calm_enterReporting t st x v hr (fun _ => hn k)).good fk (h.good fk k)).staged)

/-- No record stands for a slot that is FREE. -/
theorem StageGood.unoccupied {s : State} (k : StageGood s) {t : Tag} (h : s.request t = none) :
    s.writeRecord t = none ∧ s.fetchRecord t = none := by
  refine ⟨?_, ?_⟩
  · cases e : s.writeRecord t with
    | none => rfl
    | some w =>
      obtain ⟨q, h1, _⟩ := k.staged.2.1 t w e
      rw [h] at h1
      cases h1
  · cases e : s.fetchRecord t with
    | none => rfl
    | some f =>
      obtain ⟨q, h1, _⟩ := k.staged.2.2.1 t f e
      rw [h] at h1
      cases h1

/-- No record stands for a FLUSH, or for a request that is SETTLING, HELD or REPORTING. -/
theorem StageGood.unrecorded {s : State} (k : StageGood s) {t : Tag} {r : Request} (hr : s.request t = some r)
    (h : r.kind = .flush ∨ r.state = .settling ∨ r.state = .held ∨ r.state = .reporting) : s.writeRecord t = none ∧ s.fetchRecord t = none := by
  obtain ⟨_, k1, k2, _⟩ := k.staged
  refine ⟨?_, ?_⟩
  · cases e : s.writeRecord t with
    | none => rfl
    | some w =>
      obtain ⟨q, h1, h2, h3, _⟩ := k1 t w e
      rw [hr] at h1
      cases h1
      rw [h2, h3] at h
      rcases h with h | h | h | h <;> cases h
  · cases e : s.fetchRecord t with
    | none => rfl
    | some f =>
      obtain ⟨q, h1, h2, h3⟩ := k2 t f e
      rw [hr] at h1
      cases h1
      rcases h2 with h2 | h2 <;> rcases h3 with h3 | h3 <;> (rw [h2, h3] at h; rcases h with h | h | h | h <;> cases h)

theorem State.request_set (s : State) (t : Tag) (q : Request) : (s.setRequest t q).request t = some q := by
  rw [State.request_setRequest, if_pos rfl]

theorem calm_flushLeave (o : SlotNo) (t : Tag) (s : State) : Calm s (flushLeave o t s) := by
  unfold flushLeave
  split
  · exact Calm.refl s
  next r hr =>
    split
    next h =>
      have hc : Calm s (s.setRequest t { r with flushSet := setRemove o r.flushSet, blocksDone := r.blocksDone + 1 }) :=
        calm_setRequest s t r _ hr (.rewrite ⟨rfl, rfl, rfl, rfl, rfl⟩ rfl rfl (fun k => by simp_all))
          ⟨rfl, rfl, rfl, rfl, .inr ⟨by simp [h.1], by simp [h.2.1]⟩⟩
      dsimp only
      split
      · have hq := s.request_set t { r with flushSet := setRemove o r.flushSet, blocksDone := r.blocksDone + 1 }
        refine hc.trans (calm_enterReporting _ _ _ _ (fun q e => ?_) (fun k => k.unrecorded hq (.inl h.1)))
        rw [hq] at e
        cases e
        simp [h.2.1]
      · exact hc
    · exact Calm.refl s

theorem calm_settleLeave (o : SlotNo) (t : Tag) (s : State) : Calm s (settleLeave o t s) := by
  unfold settleLeave
  split
  · exact Calm.refl s
  next r hr =>
    split
    next h =>
      have hc : Calm s (s.setRequest t { r with settleSet := setRemove o r.settleSet }) :=
        calm_setRequest s t r _ hr (.rewrite ⟨rfl, rfl, rfl, rfl, rfl⟩ rfl rfl (fun _ => ⟨rfl, rfl, rfl⟩))
          ⟨rfl, rfl, rfl, rfl, .inl rfl⟩
      dsimp only
      split
      next h2 =>
        have hq := s.request_set t { r with settleSet := setRemove o r.settleSet }
        refine hc.trans (calm_enterReporting _ _ _ _ (fun q e => ?_) (fun k => k.unrecorded hq (.inr (.inl h2.2))))
        rw [hq] at e
        cases e
        simp [h2.2]
      · exact hc
    · exact Calm.refl s

theorem calm_flushReplace (o n : SlotNo) (t : Tag) (s : State) : Calm s (flushReplace o n t s) := by
  unfold flushReplace
  split
  · exact Calm.refl s
  next r hr =>
    split
    · exact calm_setRequest s t r _ hr (.rewrite ⟨rfl, rfl, rfl, rfl, rfl⟩ rfl rfl (fun _ => ⟨rfl, rfl, rfl⟩))
        ⟨rfl, rfl, rfl, rfl, .inl rfl⟩
    · exact Calm.refl s

theorem calm_releaseReturn (w : Owner) (b : Bool) (r : RetNo) (s : State) : Calm s (releaseReturn w b r s) := by
  unfold releaseReturn
  split
  · exact Calm.refl s
  · exact Calm.refl s
  · split
    · exact calm_setReturnSlot s r .free
    · exact Calm.refl s
  · split
    · exact (calm_setReturnSlot s r .free).trans (calm_setFillOrder _ _)
    · exact Calm.refl s

theorem calm_releaseReturns (w : Owner) (b : Bool) (s : State) : Calm s (releaseReturns w b s) :=
  calm_foldl _ (fun s r => calm_releaseReturn w b r s) _ _

theorem calm_dropFetch (t : Tag) (a : Word32) (s : State) : Calm s (dropFetch t a s) :=
  (calm_dropFetchRecord s t).trans (calm_releaseReturns _ _ _)

theorem calm_requestFault (t : Tag) (st : CompletionStatus) (x : Option Nat) (c : HistoryCause) (s : State) :
    Calm s (requestFault t st x c s) := { soft_requestFault t st x c s with good := fun f => f t st x c s }

end Sys2Proof.Machine
end

