-- ==== Sys2Proof/Laws/Mover.lean ====
section
/-! SUPPORT. The operations of the Staging Buffer and the Data Mover are calm: one lemma for each. -/

namespace Sys2Proof.Machine

/-! ## Grants -/

theorem soft_reserve (w : Owner) (m : Bool) (x : Nat) (is : List SlotNo) (s : State) :
    Soft s (reserve w m x is s) := by
  induction is generalizing x s with
  | nil => exact Soft.refl s
  | cons i is ih => exact (soft_setStaging s i _).trans (ih _ _)

theorem calm_formGrant (t : Tag) (s : State) : Calm s (formGrant t s) := by
  refine Soft.calm ?_ (fun _ k => k.staged.grant t)
  unfold formGrant
  split
  · exact Soft.refl s
  · dsimp only
    split
    · exact Soft.refl s
    · exact ((soft_setWriteRecord s t _).trans (soft_setGrantOrder _ _)).trans (soft_reserve _ _ _ _ _)

theorem calm_formGrants (s : State) : Calm s (formGrants s) := calm_forAdmitted _ calm_formGrant s

/-! ## Data arrival -/

/-- A slot that is neither FILLING nor DIRTY before and after. -/
theorem calm_replace (s : State) (i : SlotNo) (y : StagingSlot) (h1 : (s.slot i).isFilling = false) (h2 : y.isFilling = false)
    (h3 : (s.slot i).isDirty = false) (h4 : y.isDirty = false)
    (hp : ∀ j c, j ≠ i → y.place = some c → (s.slot j).place ≠ some c) : Calm s (s.setStaging i y) :=
  (soft_setStaging s i y).calm (fun _ k => k.staged.replace i y h1 h2 h3 h4 hp)

/-- A slot that leaves the drain-order list. -/
theorem calm_leave (s : State) (i : SlotNo) (y : StagingSlot) (h1 : (s.slot i).isFilling = false) (h2 : y.isFilling = false)
    (h4 : y.isDirty = false) (hp : StageGood s → ∀ j c, j ≠ i → y.place = some c → (s.slot j).place ≠ some c) :
    Calm s ((s.setStaging i y).setDrainOrder (setRemove i s.staging.drainOrder)) :=
  ((soft_setStaging s i y).trans (soft_setDrainOrder _ _)).calm (fun _ k => k.staged.leave i y h1 h2 h4 (hp k))

theorem calm_supersede (i : SlotNo) (x : Nat) (m : Bool) (s : State) : Calm s (supersede i x m s).1 := by
  unfold supersede
  split
  · exact Calm.refl s
  next o ho =>
    have hh := (State.findLbn_some ho).1
    exact ((calm_leave s o .free (StagingSlot.held_filling hh) rfl rfl (fun _ j c _ k => by cases k)).trans
      (calm_forAdmitted _ (calm_flushReplace o i) _)).trans (calm_formGrants _)

/-- A replacement in one flush set touches the flush set of one request alone (R38). -/
theorem flushReplace_spec (o n : SlotNo) (t : Tag) (s : State) : ∃ b, flushReplace o n t s = { s with table := b } ∧
    b.completionOrder = s.table.completionOrder ∧ ∀ u, (flushReplace o n t s).request u = s.request u ∨
      ∃ r fs, s.request u = some r ∧ (flushReplace o n t s).request u = some { r with flushSet := fs } := by
  unfold flushReplace
  split
  · exact ⟨s.table, rfl, rfl, fun _ => .inl rfl⟩
  next r hr =>
    split
    · refine ⟨_, rfl, rfl, fun u => ?_⟩
      by_cases e : u = t
      · subst e; exact .inr ⟨r, setInsert n (setRemove o r.flushSet), hr, by simp⟩
      · left; simp [e]
    · exact ⟨s.table, rfl, rfl, fun _ => .inl rfl⟩

/-- The same in every flush set. -/
theorem flushReplaces (o n : SlotNo) (s : State) : ∃ b, forAdmitted (flushReplace o n) s = { s with table := b } ∧
    b.completionOrder = s.table.completionOrder ∧ ∀ u, (forAdmitted (flushReplace o n) s).request u = s.request u ∨
      ∃ r fs, s.request u = some r ∧ (forAdmitted (flushReplace o n) s).request u = some { r with flushSet := fs } := by
  unfold forAdmitted
  generalize s.table.admissionOrder = l
  induction l generalizing s with
  | nil => exact ⟨s.table, rfl, rfl, fun _ => .inl rfl⟩
  | cons a l ih =>
    obtain ⟨b, e1, e2, e3⟩ := flushReplace_spec o n a s
    obtain ⟨b', f1, f2, f3⟩ := ih (flushReplace o n a s)
    refine ⟨b', by rw [List.foldl_cons, f1, e1], by rw [f2, e1]; exact e2, fun u => ?_⟩
    rw [List.foldl_cons]
    rcases f3 u with h | ⟨r, fs, h1, h2⟩
    · rcases e3 u with k | ⟨r, fs, k1, k2⟩
      · exact .inl (h.trans k)
      · exact .inr ⟨r, fs, k1, h.trans k2⟩
    · rcases e3 u with k | ⟨r', fs', k1, k2⟩
      · exact .inr ⟨r, fs, k ▸ h1, h2⟩
      · rw [k2] at h1; cases h1; exact .inr ⟨r', fs, k1, h2⟩

/-- What freeing the older copy of LBN `x` leaves (R75): `S` comes from `s`, where WRITE `t` holds a grant with the FILLING
slot `n`. -/
structure Superseded (s S : State) (n : SlotNo) (x : Nat) (t : Tag) (r : Request) (w : WriteRecord) : Prop where
  req : ∃ fs, S.request t = some { r with flushSet := fs }
  wr : S.writeRecord t = some w
  slot : S.slot n = s.slot n
  order : S.staging.drainOrder = (match s.newestCopy x with
        | none => s.staging.drainOrder
        | some y => s.staging.drainOrder.filter (fun z => z ≠ y))
  compl : S.table.completionOrder = s.table.completionOrder
  log : S.log = s.log
  calm : Calm s S

theorem supersede_filling {s : State} {t : Tag} {r : Request} {w : WriteRecord} {n : SlotNo} {x : Nat} {m : Bool}
    {o : Owner} (hr : s.request t = some r) (hw : s.writeRecord t = some w) (hg : w.grant ≠ none)
    (hn : ∃ y, s.slot n = .filling y o m) : Superseded s (supersede n x m s).1 n x t r w ∧
      (supersede n x m s).2 = (m || (s.newestCopy x).any (fun y => (s.slot y).isThrough)) := by
  have hc := calm_supersede n x m s
  unfold supersede at hc ⊢
  cases hnc : s.newestCopy x with
  | none => simp; exact ⟨⟨r.flushSet, hr⟩, hw, rfl, by rw [hnc], rfl, rfl, .refl _⟩
  | some y =>
    rw [hnc] at hc
    dsimp only at hc ⊢
    refine ⟨?_, by simp⟩
    have hyn : n ≠ y := by
      rintro rfl
      unfold State.newestCopy State.findLbn at hnc
      have := List.find?_some hnc
      obtain ⟨z, hz⟩ := hn
      simp [hz, StagingSlot.isDirty, StagingSlot.isStranded] at this
    generalize hS1 : (s.setStaging y .free).setDrainOrder (setRemove y s.staging.drainOrder) = S1 at hc ⊢
    obtain ⟨b, e1, e2, e3⟩ := flushReplaces y n S1
    generalize hS2 : forAdmitted (flushReplace y n) S1 = S2 at hc e1 e3 ⊢
    have gg := granted_formGrants S2
    have hS2w : S2.writeRecord t = some w := by rw [e1, ← hS1]; exact hw
    have hnw : ¬ S2.waits t := by
      rintro ⟨_, _, w', _, _, _, _, h5, h6, _⟩
      rw [hS2w] at h5; cases h5; exact hg h6
    have hsl : S2.slot n = s.slot n := by
      rw [e1, ← hS1]
      show ((s.setStaging y .free)).slot n = _
      simp [hyn]
    obtain ⟨⟨wv, oo, v, eg⟩, _⟩ := id gg
    refine ⟨?_, ?_, ?_, ?_, ?_, ?_, hc⟩
    · rw [gg.request]
      have hS1r : S1.request t = some r := by rw [← hS1]; exact hr
      rcases e3 t with h | ⟨r', fs, h1, h2⟩
      · exact ⟨r.flushSet, h.trans hS1r⟩
      · rw [hS1r] at h1; cases h1; exact ⟨fs, h2⟩
    · rw [formGrants_writeRecord _ _ hnw, hS2w]
    · rw [gg.slot n (by rw [hsl]; obtain ⟨z, hz⟩ := hn; rw [hz]; rfl), hsl]
    · rw [eg, e1, ← hS1, hnc]; rfl
    · rw [eg]; show S2.table.completionOrder = _; rw [e1]; show b.completionOrder = _; rw [e2, ← hS1]; rfl
    · rw [eg]; show S2.log = _; rw [e1, ← hS1]; rfl

/-- After supersession no copy of the block is held (R75, R76). -/
theorem supersede_clear {s : State} (h : StagingGood s) (i : SlotNo) (x : Nat) (m : Bool) (j : SlotNo) :
    ((supersede i x m s).1.slot j).place ≠ some (.held, x) := by
  unfold supersede
  split
  next e => exact Staged.no_held e j
  next o ho =>
    intro k
    dsimp only at k
    have hj := StagingSlot.place_held.1 k
    have gg := granted_formGrants (forAdmitted (flushReplace o i) ((s.setStaging o .free).setDrainOrder
      (setRemove o s.staging.drainOrder)))
    obtain ⟨b, e1, _⟩ := flushReplaces o i ((s.setStaging o .free).setDrainOrder (setRemove o s.staging.drainOrder))
    have same : (forAdmitted (flushReplace o i) ((s.setStaging o .free).setDrainOrder (setRemove o s.staging.drainOrder))).slot j =
        if j = o then .free else s.slot j := by
      rw [e1]
      exact State.slot_setStaging s o j .free
    by_cases f : ((forAdmitted (flushReplace o i) ((s.setStaging o .free).setDrainOrder
        (setRemove o s.staging.drainOrder))).slot j).isFree = true
    · have op := formGrants_open _ j (.inl f)
      revert hj op
      cases (formGrants (forAdmitted (flushReplace o i) ((s.setStaging o .free).setDrainOrder
        (setRemove o s.staging.drainOrder)))).slot j <;>
        simp [StagingSlot.isOpen, StagingSlot.isFree, StagingSlot.isFilling, StagingSlot.isDirty, StagingSlot.isStranded]
    · rw [gg.slot j (by simpa using f), same] at k
      split at k
      · cases k
      next ne => exact ne (h.2.2 j o _ (by simp) k (StagingSlot.place_held.2 (State.findLbn_some ho)))

theorem soft_dataArrival (i : SlotNo) (x : Nat) (m : Bool) (d : List Byte) (s : State) :
    Soft s (dataArrival i x m d s).1 := by
  unfold dataArrival
  dsimp only
  split
  · exact (calm_supersede i x m s).toSoft.trans ((soft_setStaging _ _ _).trans (soft_setDrainOrder _ _))
  · exact (calm_supersede i x m s).toSoft.trans (soft_setStaging _ _ _)

theorem calm_promote (x : Nat) (s : State) : Calm s (promote x s) := by
  refine calm_foldl _ (fun s i => (soft_setStaging s i _).calm (fun _ k => ?_)) _ _
  have e : ∀ j, (s.setStaging i ((s.slot i).promoted x)).slot j = s.slot j ∨
      (s.setStaging i ((s.slot i).promoted x)).slot j = (s.slot j).promoted x := fun j => by
    rw [State.slot_setStaging]
    split
    next z => rw [z]; exact .inr rfl
    · exact .inl rfl
  have e1 : ∀ j, ((s.setStaging i ((s.slot i).promoted x)).slot j).isDirty = (s.slot j).isDirty := fun j => by
    rcases e j with z | z <;> rw [z]
    cases s.slot j <;> rfl
  have e2 : ∀ j, ((s.setStaging i ((s.slot i).promoted x)).slot j).place = (s.slot j).place := fun j => by
    rcases e j with z | z <;> rw [z]
    cases s.slot j <;> rfl
  refine k.staged.of_slots rfl rfl k.staged.1.1 (fun j => ?_) (fun j n c hc => ?_) (fun j y o => ?_)
  · rw [e1]
    exact k.staged.1.2.1 j
  · rw [e2, e2]
    exact k.staged.1.2.2 j n c hc
  · rcases e j with z | z <;> rw [z]
    cases s.slot j <;> simp [StagingSlot.promoted]

/-! ## Stranding -/

theorem soft_strandSlot (r : StrandReason) (i : SlotNo) (s : State) : Soft s (strandSlot r i s) := by
  unfold strandSlot
  dsimp only
  split
  · exact Soft.refl s
  · exact (soft_setStaging s i _).trans (soft_setDrainOrder _ _)

theorem soft_strandAll (l : List SlotNo) (s : State) : Soft s (strandAll l s) :=
  soft_foldl _ (fun s i => soft_strandSlot _ i s) _ _

/-- Stranding a slot whose data is the copy held for its block, or being programmed while none is held. -/
theorem calm_strandSlot (r : StrandReason) (i : SlotNo) (s : State)
    (h : (s.slot i).isFilling = false)
    (hp : StageGood s → ∀ j y, j ≠ i → (s.slot i).lbn? = some y → (s.slot j).place ≠ some (.held, y)) :
    Calm s (strandSlot r i s) := by
  unfold strandSlot
  dsimp only
  split
  · exact Calm.refl s
  next y hy =>
    exact calm_leave s i _ h rfl rfl (fun k j c hj hc => by cases hc; exact hp k j y hj hy)

theorem strandSlot_held (r : StrandReason) (i j : SlotNo) (s : State)
    (h : ((s.slot j).isDirty || (s.slot j).isStranded) = true) :
    (((strandSlot r i s).slot j).isDirty || ((strandSlot r i s).slot j).isStranded) = true := by
  unfold strandSlot
  dsimp only
  split
  · exact h
  · rw [State.setDrainOrder_slot, State.slot_setStaging]
    split
    · exact Bool.or_true _
    · exact h

theorem calm_strandAll (l : List SlotNo) (s : State) (h : ∀ i ∈ l, ((s.slot i).isDirty || (s.slot i).isStranded) = true) :
    Calm s (strandAll l s) := by
  unfold strandAll
  induction l generalizing s with
  | nil => exact Calm.refl s
  | cons i l ih =>
    have hi := h i (List.mem_cons_self ..)
    refine (calm_strandSlot _ i s (StagingSlot.held_filling hi) (fun k j y hj hy hc => hj ?_)).trans
      (ih _ (fun j hj => strandSlot_held _ i j s (h j (List.mem_cons_of_mem _ hj))))
    exact k.staged.1.2.2 j i _ (by simp) hc (StagingSlot.place_held.2 ⟨hi, hy⟩)

/-- The DIRTY slots of a port hold copies. -/
theorem dirtyOn_held (p : Port) (s : State) : ∀ i ∈ s.dirtyOn p, ((s.slot i).isDirty || (s.slot i).isStranded) = true := by
  intro i hi
  have := (List.mem_filter.1 hi).2
  cases e : s.slot i with
  | dirty x m d => rfl
  | _ => rw [e] at this; cases this

theorem calm_strandRequest (i : SlotNo) (x : Nat) (c : HistoryCause) (t : Tag) (s : State) :
    Calm s (strandRequest i x c t s) := by
  unfold strandRequest
  split
  · exact Calm.refl s
  · split
    · exact calm_requestFault _ _ _ _ _
    · exact Calm.refl s

theorem calm_strandFetch (x : Nat) (c : HistoryCause) (t : Tag) (s : State) : Calm s (strandFetch x c t s) := by
  unfold strandFetch
  split
  · exact Calm.refl s
  · split
    · exact Calm.refl s
    · split
      · exact calm_requestFault _ _ _ _ _
      · exact Calm.refl s

theorem calm_handOnSlot (i : SlotNo) (s : State) : Calm s (handOnSlot i s) := by
  unfold handOnSlot
  split
  · exact (calm_forAdmitted _ (calm_strandRequest _ _ _) _).trans (calm_forAdmitted _ (calm_strandFetch _ _) _)
  all_goals exact Calm.refl s

theorem calm_handOnWalk (l : List SlotNo) (s : State) : Calm s (handOnWalk l s) :=
  calm_foldl _ (fun s i => calm_handOnSlot i s) _ _

theorem calm_noteStranded (l : List SlotNo) (s : State) : Calm s (noteStranded l s) := by
  unfold noteStranded
  split
  · exact Calm.refl s
  · exact calm_raiseSingle _ _ _

theorem calm_handOn (l : List SlotNo) (s : State) : Calm s (handOn l s) :=
  (calm_handOnWalk l s).trans (calm_noteStranded l _)

/-- An event that strands nothing hands nothing on and notes nothing. -/
@[simp] theorem handOnWalk_nil (s : State) : handOnWalk [] s = s := by
  unfold handOnWalk
  rw [List.filter_eq_nil_iff.mpr (by simp)]
  rfl

@[simp] theorem noteStranded_nil (s : State) : noteStranded [] s = s := rfl

theorem calm_endOfProbeCheck (p : Port) (s : State) : Calm s (endOfProbeCheck p s) :=
  (calm_strandAll _ _ (fun i hi => dirtyOn_held p s i (List.mem_filter.1 hi).1)).trans (calm_handOn _ _)

/-! ## Fetches -/

theorem calm_setFetch (t : Tag) (x : Option Fetch) (s : State) : Calm s (setFetch t x s) := by
  unfold setFetch
  split
  · exact Calm.refl s
  next f hf => exact calm_sameFetchRecord s t f _ hf

theorem calm_advanceCursor (t : Tag) (s : State) : Calm s (advanceCursor t s) := by
  unfold advanceCursor
  split
  · exact Calm.refl s
  next f hf => exact calm_sameFetchRecord s t f _ hf

theorem calm_fillReturn (r : RetNo) (d : List Byte) (s : State) : Calm s (fillReturn r d s) := by
  unfold fillReturn
  split
  · exact (calm_setReturnSlot s r _).trans (calm_setFillOrder _ _)
  all_goals exact Calm.refl s

theorem calm_askMember (t : Tag) (i x : Nat) (r : Option RetNo) (s : State) : Calm s (askMember t i x r s) := by
  unfold askMember
  split
  · exact calm_requestFault _ _ _ _ _
  · split
    · exact calm_setFetch _ _ _
    · exact calm_requestFault _ _ _ _ _

theorem calm_fetchThrough (t : Tag) (i x : Nat) (r : Option RetNo) (s : State) : Calm s (fetchThrough t i x r s) := by
  unfold fetchThrough
  split
  · exact calm_requestFault _ _ _ _ _
  · split
    · exact (calm_promote x s).trans (calm_setFetch _ _ _)
    · exact calm_askMember _ _ _ _ _

theorem calm_startFetch (t : Tag) (r : Option RetNo) (s : State) : Calm s (startFetch t r s) := by
  unfold startFetch
  split
  · split
    · exact Calm.refl s
    · dsimp only
      split
      · split
        · exact (calm_fillReturn _ _ _).trans (calm_advanceCursor _ _)
        · exact calm_askMember _ _ _ _ _
      · exact calm_fetchThrough _ _ _ _ _
  · exact Calm.refl s

theorem calm_assignReturn (t : Tag) (r : RetNo) (s : State) : Calm s (assignReturn t r s) := by
  unfold assignReturn
  split
  · split
    · exact (calm_setReturnSlot s r _).trans (calm_startFetch _ _ _)
    · exact Calm.refl s
  · exact Calm.refl s

theorem calm_assignReturnsUpTo (n : Nat) (s : State) : Calm s (assignReturnsUpTo n s) := by
  induction n generalizing s with
  | zero => exact Calm.refl s
  | succ n ih =>
    unfold assignReturnsUpTo
    split
    · exact (calm_assignReturn _ _ s).trans (ih _)
    · exact Calm.refl s

theorem calm_assignReturns (s : State) : Calm s (assignReturns s) := calm_assignReturnsUpTo 9 s

theorem calm_fetchFailed (t : Tag) (x : Fetch) (e : OpFailure) (s : State) : Calm s (fetchFailed t x e s) := by
  unfold fetchFailed
  split <;> exact (calm_requestFault _ _ _ _ _).trans (calm_assignReturns _)

theorem calm_failWaiting (p : Port) (t : Tag) (s : State) : Calm s (failWaiting p t s) := by
  unfold failWaiting
  split
  · exact Calm.refl s
  · split
    · exact Calm.refl s
    · split
      · exact calm_requestFault _ _ _ _ _
      · exact Calm.refl s

theorem calm_failWaitingAll (p : Port) (s : State) : Calm s (failWaitingAll p s) :=
  (calm_forAdmitted _ (calm_failWaiting p) s).trans (calm_assignReturns _)

/-- Dropping a fetch record touches no request. -/
theorem dropFetch_request (t : Tag) (a : Word32) (s : State) (u : Tag) : (dropFetch t a s).request u = s.request u := by
  have h : ∀ (l : List RetNo) (w : Owner) (b : Bool) (s : State),
      (l.foldl (fun acc r => releaseReturn w b r acc) s).request u = s.request u := by
    intro l w b
    induction l with
    | nil => intro s; rfl
    | cons r l ih =>
      intro s
      rw [List.foldl_cons, ih]
      unfold releaseReturn
      repeat' split
      all_goals simp
  exact (h _ _ _ _).trans (State.setFetchRecord_request s t none u)

/-- It drops one fetch record, and no other record. -/
theorem dropFetch_records (t : Tag) (a : Word32) (s : State) (u : Tag) : (dropFetch t a s).writeRecord u = s.writeRecord u ∧
    (dropFetch t a s).fetchRecord u = if u = t then none else s.fetchRecord u := by
  have h : ∀ (l : List RetNo) (w : Owner) (b : Bool) (s : State),
      (l.foldl (fun acc r => releaseReturn w b r acc) s).writeRecord u = s.writeRecord u ∧
      (l.foldl (fun acc r => releaseReturn w b r acc) s).fetchRecord u = s.fetchRecord u := by
    intro l w b
    induction l with
    | nil => exact fun s => ⟨rfl, rfl⟩
    | cons r l ih =>
      intro s
      rw [List.foldl_cons, (ih _).1, (ih _).2]
      unfold releaseReturn
      repeat' split
      all_goals exact ⟨rfl, rfl⟩
  exact ⟨(h _ _ _ _).1, (h _ _ _ _).2.trans (State.fetchRecord_setFetchRecord s t u none)⟩

theorem advanceCursor_writeRecord (t u : Tag) (s : State) : (advanceCursor t s).writeRecord u = s.writeRecord u := by
  unfold advanceCursor
  split <;> rfl

theorem advanceCursor_request (t u : Tag) (s : State) : (advanceCursor t s).request u = s.request u := by
  unfold advanceCursor
  split <;> simp

/-- A request with a fetch record has no write record. -/
theorem StageGood.fetching {s : State} (k : StageGood s) {t : Tag} {f : FetchRecord} (hf : s.fetchRecord t = some f) :
    s.writeRecord t = none := by
  cases e : s.writeRecord t with
  | none => rfl
  | some w =>
    obtain ⟨q, h1, h2, _⟩ := k.staged.2.1 t w e
    obtain ⟨r, g1, g2, _⟩ := k.staged.2.2.1 t f hf
    rw [h1] at g1
    cases g1
    rw [h2] at g2
    rcases g2 with g2 | g2 <;> cases g2

/-- A fetch obtains its block for an ACTIVE request that its record stands for. -/
theorem calm_fetchObtained (t : Tag) (x : Fetch) (d : List Byte) (s : State) {f : FetchRecord} (hf : s.fetchRecord t = some f)
    (h : ∀ r, s.request t = some r → r.state = .active) : Calm s (fetchObtained t x d s) := by
  unfold fetchObtained
  split
  · exact Calm.refl s
  next r hr =>
    split
    · exact ((calm_fillReturn _ _ _).trans (calm_advanceCursor _ _)).trans (calm_assignReturns _)
    · have ha := h r hr
      have h1 : Calm s (s.setRequest t { r with blocksDone := r.blocksDone + 1 }) := by
        have hs := SameRequest.rewrite (r := r) (q := { r with blocksDone := r.blocksDone + 1 }) ⟨rfl, rfl, rfl, rfl, rfl⟩ rfl rfl
          (fun k => by rw [ha] at k; cases k)
        refine (soft_setRequest s t _ (by rw [hr]; exact hs)).calm (fun fk k => ?_)
        obtain ⟨q, q1, q2, _⟩ := k.staged.2.2.1 t f hf
        rw [hr] at q1
        cases q1
        exact ((calm_setRequest s t r _ hr hs ⟨rfl, rfl, rfl, rfl, .inr ⟨by rcases q2 with e | e <;> simp [e], by simp [ha]⟩⟩).good
          fk k).staged
      have h2 := h1.trans (calm_advanceCursor t _)
      dsimp only
      split
      next g f2 hg hf2 =>
        split
        · exact h2.trans (calm_startFetch _ _ _)
        · have e : Calm _ ((advanceCursor t (s.setRequest t { r with blocksDone := r.blocksDone + 1 })).setFetchRecord t none) :=
            calm_dropFetchRecord _ _
          have hq : (advanceCursor t (s.setRequest t { r with blocksDone := r.blocksDone + 1 })).request t =
              some { r with blocksDone := r.blocksDone + 1 } := by rw [advanceCursor_request, State.request_set]
          refine (h2.trans e).over t .good none (fun q k => ?_)
            (fun k => ⟨(State.setFetchRecord_writeRecord _ _ _ _).trans ?_, by simp⟩)
          · rw [State.setFetchRecord_request, hq] at k
            cases k
            simp [ha]
          · rw [advanceCursor_writeRecord]
            exact k.fetching hf
      · exact h2

theorem calm_endAborting (t : Tag) (a : Word32) (s : State) {f : FetchRecord} (hf : s.fetchRecord t = some f)
    (h : ∀ r, (dropFetch t a s).request t = some r → r.state ≠ .reporting) : Calm s (endAborting t a s) := by
  refine Calm.trans ?_ (calm_assignReturns _)
  refine (calm_dropFetch t a s).over t .aborted none h (fun k => ?_)
  rw [(dropFetch_records t a s t).1, (dropFetch_records t a s t).2, if_pos rfl]
  exact ⟨k.fetching hf, rfl⟩

theorem calm_fetchResult (w : Owner) (o : Except OpFailure (List Byte)) (s : State) : Calm s (fetchResult w o s) := by
  unfold fetchResult
  split
  next r f hr hf =>
    split
    · exact Calm.refl s
    · split
      · split
        next ha => exact calm_fetchObtained _ _ _ _ hf (fun q hq => by simp_all)
        next ha => exact calm_fetchFailed _ _ _ _
        next ha => exact calm_endAborting _ _ _ hf (fun q hq => by rw [dropFetch_request] at hq; simp_all)
        all_goals exact Calm.refl s
      · exact Calm.refl s
  · exact Calm.refl s

/-! ## Going ACTIVE, and holds -/

theorem calm_goActive (t : Tag) (s : State) (h : ∀ r, s.request t = some r → r.state = .held ∧ r.holdList = []) :
    Calm s (goActive t s) := by
  unfold goActive
  split
  · exact Calm.refl s
  next r hr =>
    have hh := (h r hr).1
    have hq := s.request_set t { r with state := .active }
    have h1 : Calm s (s.setRequest t { r with state := .active }) := by
      refine (soft_setRequest s t _ ?_).calm (fun _ k => k.staged.of rfl rfl rfl rfl (fun u => ?_))
      · rw [hr]
        exact .advance ⟨rfl, rfl, rfl, rfl, rfl⟩ (by simp [hh, ReqState.laterStates]) (by simp [hh])
          (fun _ => .inr ⟨(h r hr).2, by simp⟩)
      · rw [State.request_setRequest]
        split
        next e =>
          have n := k.unrecorded hr (.inr (.inr (.inl hh)))
          rw [e]
          refine .inr (.inr ⟨n.1, n.2, fun q z => ?_⟩)
          cases z
          exact ⟨fun z => ReqState.noConfusion z, (k.staged.2.2.2.1 t r hr).2⟩
        · exact .inl rfl
    dsimp only
    split
    next hk => exact h1.trans (calm_setFetchRecord _ _ _ (fun _ _ => ⟨_, hq, .inl hk, .inl rfl⟩))
    next hk => exact (h1.trans (calm_setFetchRecord _ _ _ (fun _ _ => ⟨_, hq, .inr hk, .inl rfl⟩))).trans (calm_startFetch _ _ _)
    next hk =>
      refine (h1.toSoft.trans (soft_setWriteRecord _ _ _)).calm (fun fk k => ?_)
      refine (h1.good fk k).staged.setWriteRecord t _ (fun w hw => ?_) (fun w hw => ?_)
      · rw [State.setRequest_writeRecord, (k.unrecorded hr (.inr (.inr (.inl hh)))).1] at hw
        cases hw
      · cases hw
        obtain ⟨b1, b2⟩ := k.staged.2.2.2.1 t r hr
        obtain ⟨g, hg⟩ := Option.isSome_iff_exists.1 (b2 hk)
        exact ⟨rfl, _, hq, hk, rfl, g, hg, Nat.zero_le _, b1 hh⟩
    · exact h1

theorem calm_releaseHold (t : Tag) (s : State) : Calm s (releaseHold t s) := by
  unfold releaseHold
  split
  · exact Calm.refl s
  next r hr =>
    split
    next h =>
      exact ((calm_goActive t s (fun q hq => by simp_all)).trans (calm_formGrants _)).trans (calm_assignReturns _)
    · exact Calm.refl s

theorem calm_releaseHolds (s : State) : Calm s (releaseHolds s) := calm_forAdmitted _ calm_releaseHold s

/-! ## Drains -/

theorem calm_drainWaitEnd (x : Nat) (t : Tag) (s : State) : Calm s (drainWaitEnd x t s) := by
  unfold drainWaitEnd
  split
  · exact Calm.refl s
  · split
    · exact Calm.refl s
    · split
      · split
        · exact calm_requestFault _ _ _ _ _
        · split
          · exact Calm.refl s
          · exact calm_askMember _ _ _ _ _
      · exact Calm.refl s

theorem calm_drainedFor (o : SlotNo) (x : Nat) (t : Tag) (s : State) : Calm s (drainedFor o x t s) :=
  ((calm_flushLeave o t s).trans (calm_settleLeave o t _)).trans (calm_drainWaitEnd x t _)

/-- A slot that was being programmed goes FREE. -/
theorem calm_endDrain (s : State) (o : SlotNo) {x : Nat} {m : Bool} {d : List Byte} (ho : s.slot o = .draining x m d) :
    Calm s (s.setStaging o .free) :=
  calm_replace s o .free (by rw [ho]; rfl) rfl (by rw [ho]; rfl) rfl (fun j c _ k => by cases k)

theorem calm_drainSuccess (o : SlotNo) (s : State) : Calm s (drainSuccess o s) := by
  unfold drainSuccess
  split
  next ho =>
    exact (((calm_endDrain s o ho).trans (calm_forAdmitted _ (calm_drainedFor o _) _)).trans
      (calm_formGrants _)).trans (calm_assignReturns _)
  all_goals exact Calm.refl s

theorem calm_replacedFor (o n : SlotNo) (x : Nat) (t : Tag) (s : State) : Calm s (replacedFor o n x t s) := by
  unfold replacedFor
  have h1 := (calm_flushReplace o n t s).trans (calm_settleLeave o t _)
  refine Calm.trans ?_ (calm_drainWaitEnd x t _)
  split
  · exact h1.trans (calm_requestFault _ _ _ _ _)
  · exact h1

theorem calm_drainFailure (o : SlotNo) (e : OpFailure) (s : State) : Calm s (drainFailure o e s).1 := by
  unfold drainFailure
  split
  next x m d ho =>
    split
    · exact (((calm_endDrain s o ho).trans (calm_forAdmitted _ (calm_replacedFor o _ _) _)).trans
        (calm_formGrants _)).trans (calm_assignReturns _)
    next hn =>
      refine calm_strandSlot _ _ _ (by rw [ho]; rfl) (fun _ j y _ hy => Staged.no_held ?_ j)
      rw [ho] at hy
      cases hy
      exact hn
  all_goals exact Calm.refl s

end Sys2Proof.Machine
end

