-- ==== Sys2Proof/Laws/Near.lean ====
section
/-! SUPPORT. What every operation inside a step leaves alone, the ports', the commit's and the power's included: the
link, the parameters, the ceiling, the clock, the admission order and counter stand, each request keeps its identity, and
the active generation does not fall. One lemma for each operation. -/

namespace Sys2Proof.Machine

/-- See the head of this file. -/
structure Near (s t : State) : Prop where
  pending : t.pending = s.pending
  resetLow : t.resetLow = s.resetLow
  presence : t.presence = s.presence
  clock : t.clock = s.clock
  params : t.params = s.params
  link : t.link = s.link
  ceiling : t.mapStore.ceiling = s.mapStore.ceiling
  ready : t.mapStore.ready = s.mapStore.ready
  counter : t.table.counter = s.table.counter
  admissionOrder : t.table.admissionOrder = s.table.admissionOrder
  uptime : t.log.uptime = s.log.uptime
  recent : t.log.recent = s.log.recent
  errors : s.log.errorCount ≤ t.log.errorCount
  snapshot : ∀ x, s.table.snapshot = some x → t.table.snapshot = some x
  requests : ∀ u, SameRequest (s.request u) (t.request u)
  maps : CommitGood s → CommitGood t ∧ s.mapStore.active.generation ≤ t.mapStore.active.generation
  noCommit : s.mapStore.commit = none → t.mapStore = s.mapStore
  stats : ∀ p, (s.port p).stats.atMost (t.port p).stats
  halt : TableGood s → HaltGood s → HaltGood t
  notices : NoticesGood s → NoticesGood t
  good : FaultKeeps → StageGood s → StageGood t

theorem PortStats.atMost.refl (x : PortStats) : x.atMost x :=
  ⟨BitVec.le_refl _, BitVec.le_refl _, BitVec.le_refl _, BitVec.le_refl _, BitVec.le_refl _, BitVec.le_refl _⟩

theorem PortStats.atMost.trans {x y z : PortStats} (h : x.atMost y) (k : y.atMost z) : x.atMost z :=
  ⟨BitVec.le_trans h.1 k.1, BitVec.le_trans h.2.1 k.2.1, BitVec.le_trans h.2.2.1 k.2.2.1,
    BitVec.le_trans h.2.2.2.1 k.2.2.2.1, BitVec.le_trans h.2.2.2.2.1 k.2.2.2.2.1, BitVec.le_trans h.2.2.2.2.2 k.2.2.2.2.2⟩

theorem satAdd_le (c : Word32) (n : Nat) : c ≤ satAdd c n := by
  have := c.isLt
  show c.toNat ≤ (satAdd c n).toNat
  simp only [satAdd, BitVec.toNat_ofNat]
  omega

theorem PortStats.atMost_after (x : PortStats) (e : StatEvent) (n : Nat) : x.atMost (x.after e n) := by
  cases e
  all_goals
    refine ⟨?_, ?_, ?_, ?_, ?_, ?_⟩
    all_goals first
      | exact BitVec.le_refl _
      | exact satInc_le _
      | exact satAdd_le _ _

theorem CommitGood.of_mapStore {s t : State} (h : t.mapStore = s.mapStore) (k : CommitGood s) : CommitGood t := by
  intro c hc
  rw [h] at hc ⊢
  exact k c hc

theorem Calm.near {s t : State} (h : Calm s t) : Near s t where
  pending := h.pending
  resetLow := h.resetLow
  presence := h.presence
  clock := h.clock
  params := h.params
  link := h.link
  ceiling := by rw [h.mapStore]
  ready := by rw [h.mapStore]
  counter := h.counter
  admissionOrder := h.admissionOrder
  uptime := h.uptime
  recent := h.recent
  errors := h.errors
  snapshot := h.snapshot
  requests := h.requests
  maps := fun k => ⟨k.of_mapStore h.mapStore, by rw [h.mapStore]; exact BitVec.le_refl _⟩
  noCommit := fun _ => h.mapStore
  stats := fun p => by rw [h.port]; exact .refl _
  halt := h.halt
  notices := h.notices
  good := h.good

theorem Near.refl (s : State) : Near s s := (Calm.refl s).near

theorem Near.trans {s t u : State} (h : Near s t) (k : Near t u) : Near s u where
  pending := k.pending.trans h.pending
  resetLow := k.resetLow.trans h.resetLow
  presence := k.presence.trans h.presence
  clock := k.clock.trans h.clock
  params := k.params.trans h.params
  link := k.link.trans h.link
  ceiling := k.ceiling.trans h.ceiling
  ready := k.ready.trans h.ready
  counter := k.counter.trans h.counter
  admissionOrder := k.admissionOrder.trans h.admissionOrder
  uptime := k.uptime.trans h.uptime
  recent := k.recent.trans h.recent
  errors := BitVec.le_trans h.errors k.errors
  snapshot := fun x hx => k.snapshot x (h.snapshot x hx)
  requests := fun v => (h.requests v).trans (k.requests v)
  maps := fun g => ⟨(k.maps (h.maps g).1).1, BitVec.le_trans (h.maps g).2 (k.maps (h.maps g).1).2⟩
  noCommit := fun hn => (k.noCommit ((congrArg MapStore.commit (h.noCommit hn)).trans hn)).trans (h.noCommit hn)
  stats := fun p => (h.stats p).trans (k.stats p)
  halt := fun a b => k.halt (a.of_same h.requests h.admissionOrder) (h.halt a b)
  notices := fun g => k.notices (h.notices g)
  good := fun f g => k.good f (h.good f g)

theorem near_foldl {α : Type} (f : State → α → State) (h : ∀ s a, Near s (f s a)) (l : List α) (s : State) :
    Near s (l.foldl f s) := by
  induction l generalizing s with
  | nil => exact Near.refl s
  | cons a l ih => exact (h s a).trans (ih _)

/-! ## Updates -/

/-- A change of the power state and the drawn free values. -/
theorem near_parts (s : State) (w : Power) (n : Nat) : Near s { s with power := w, freeDraws := n } :=
  { Near.refl s with }

/-- A change of one port whose statistics do not fall. -/
theorem near_countPort (s : State) (p : Port) (x : PortRecord) (h : (s.port p).stats.atMost x.stats) :
    Near s (s.setPort p x) := by
  refine { Near.refl s with stats := fun q => ?_ }
  rw [State.port_setPort]
  split
  next hq => rw [hq]; exact h
  · exact .refl _

/-- A change of one port that keeps its statistics. -/
theorem near_setPort (s : State) (p : Port) (x : PortRecord) (h : x.stats = (s.port p).stats) :
    Near s (s.setPort p x) := near_countPort s p x (by rw [h]; exact .refl _)

theorem near_setMark (s : State) (p : Port) (m : SleepMark) : Near s (s.setMark p m) :=
  near_parts s _ s.freeDraws

theorem near_clearMarks (s : State) : Near s s.clearMarks := near_parts s _ s.freeDraws

theorem near_setPower (s : State) (x : PowerState) : Near s (s.setPower x) := near_parts s _ s.freeDraws

theorem near_setIdleTimer (s : State) (x : Option Nat) : Near s (s.setIdleTimer x) :=
  near_parts s _ s.freeDraws

theorem near_drawn (s : State) : Near s s.drawn := near_parts s s.power _

/-- A change of the maps, during a commit, that keeps the ceiling and the start-up state. -/
theorem near_setMaps (s : State) (m : MapStore) (c : Commit) (h : s.mapStore.commit = some c)
    (hc : m.ceiling = s.mapStore.ceiling) (hr : m.ready = s.mapStore.ready)
    (hm : CommitGood s → CommitGood (s.setMaps m) ∧ s.mapStore.active.generation ≤ m.active.generation) :
    Near s (s.setMaps m) :=
  { Near.refl s with
    ceiling := hc
    ready := hr
    maps := hm
    noCommit := fun hn => by rw [h] at hn; simp at hn }

theorem near_setCommit (s : State) (c : Option Commit) (d : Commit) (hd : s.mapStore.commit = some d)
    (h : CommitGood s → CommitGood (s.setCommit c)) : Near s (s.setCommit c) :=
  near_setMaps s { s.mapStore with commit := c } d hd rfl rfl (fun k => ⟨h k, BitVec.le_refl _⟩)

/-- A commit record with the same generation and commit point. -/
theorem near_sameCommit (s : State) (c d : Commit) (h : s.mapStore.commit = some c)
    (hg : d.generation = c.generation) (hp : d.pointReached = c.pointReached) : Near s (s.setCommit (some d)) := by
  refine near_setCommit s _ c h (fun k e he => ?_)
  simp only [State.setCommit, Option.some.injEq] at he
  subst he
  have := k c h
  rw [hp, hg]
  exact this

theorem near_noCommit (s : State) (c : Commit) (h : s.mapStore.commit = some c) : Near s (s.setCommit none) :=
  near_setCommit s none c h (fun _ e he => by simp [State.setCommit] at he)

/-! ## Pressure, idle timer and sleep -/

theorem calm_evalPressure (s : State) : Calm s (evalPressure s) := by
  unfold evalPressure
  split
  · split
    · exact (soft_parts s s.mover { s.staging with pressure := false } s.notices id).still rfl rfl rfl rfl rfl
    · exact Calm.refl s
  · split
    · exact ((soft_parts s s.mover { s.staging with pressure := true } s.notices id).still rfl rfl rfl rfl rfl).trans
        (calm_raiseSingle _ _ _)
    · exact Calm.refl s

theorem near_evalIdle (s : State) : Near s (evalIdle s) := by
  unfold evalIdle
  split
  · split
    · exact Near.refl s
    · exact near_setIdleTimer s _
  · exact near_setIdleTimer s _

theorem near_startOp (p : Port) (k : OpKind) (u : OpUser) (s : State) : Near s (startOp p k u s) :=
  near_setPort s p _ rfl

theorem near_setClass (p : Port) (c : PortClass) (s : State) : Near s (setClass p c s) := by
  unfold setClass
  dsimp only
  split
  · refine Near.trans ?_ (near_setMark _ _ _)
    exact near_setPort s p _ rfl
  · exact near_setPort s p _ rfl

theorem near_askSleep (p : Port) (s : State) : Near s (askSleep p s) := by
  unfold askSleep
  split
  · exact near_setMark s p _
  · split
    · exact (near_startOp _ _ _ s).trans (near_setMark _ _ _)
    · exact near_setMark s p _

theorem near_restPort (p : Port) (s : State) : Near s (restPort p s) := by
  unfold restPort
  split
  · exact near_askSleep p s
  · exact Near.refl s

theorem near_restPorts (s : State) : Near s (restPorts s) := near_foldl _ (fun s p => near_restPort p s) _ _

theorem near_sleepAll (s : State) : Near s (sleepAll s) := by
  refine (near_clearMarks s).trans (near_foldl _ (fun s p => ?_) _ _)
  split
  · exact near_askSleep p s
  · exact Near.refl s

theorem near_settle (s : State) : Near s (settle s) := (near_restPorts s).trans (near_evalIdle _)

theorem near_settleStaging (s : State) : Near s (settleStaging s) := (calm_evalPressure s).near.trans (near_settle _)

theorem near_leavePark (s : State) : Near s (leavePark s) := (near_setPower s .active).trans (near_clearMarks _)

/-! ## The arbiter -/

/-- A drain may start: no slot is being programmed for the block of slot `i` (R76, R78). -/
def State.mayStart (s : State) (i : SlotNo) : Prop := ∀ x, (s.slot i).lbn? = some x → s.findLbn StagingSlot.isDraining x = none

theorem near_startDrain (p : Port) (i : SlotNo) (s : State) (h : s.mayStart i) : Near s (startDrain p i s) := by
  unfold startDrain
  split
  next x m d hi =>
    split
    · refine (calm_leave s i _ (by rw [hi]; rfl) rfl rfl (fun _ j c _ hc k => ?_)).near.trans (near_startOp _ _ _ _)
      cases hc
      exact State.findLbn_eq_none (h x (by rw [hi]; rfl)) j (StagingSlot.place_draining.1 k)
    · exact Near.refl s
  all_goals exact Near.refl s

/-- Where a choice comes from (R118, R119). -/
theorem State.chooseUser_cases {s : State} {p : Port} {u : LaneUser} (h : s.chooseUser p = some u) :
    s.probeUser p = some u ∨ s.mapWriteUser p = some u ∨ (∃ b, s.fetchUser p b = some u) ∨
      ∃ i, u = .drain i ∧ s.drainEligible p i = true := by
  have th : ∀ i, s.throughCandidate p = some i → s.drainEligible p i = true := fun i k => by
    have := List.find?_some k
    simp only [Bool.and_eq_true] at this
    exact this.1
  have op : ∀ i, s.openThrough p = some i → s.drainEligible p i = true := fun i k => by
    unfold State.openThrough at k
    split at k
    · exact th i k
    · cases k
  have od : ∀ i, s.openDrain p = some i → s.drainEligible p i = true := fun i k => by
    unfold State.openDrain at k
    split at k
    · unfold State.drainCandidate at k
      split at k
      next j hj => cases k; exact th i hj
      · exact List.find?_some k
    · cases k
  have dr : ∀ o : Option SlotNo, (∀ i, o = some i → s.drainEligible p i = true) → o.map LaneUser.drain = some u →
      ∃ i, u = .drain i ∧ s.drainEligible p i = true := fun o f k => by
    obtain ⟨i, hi, e⟩ := Option.map_eq_some_iff.1 k
    exact ⟨i, e.symm, f i hi⟩
  unfold State.chooseUser at h
  rcases Option.or_eq_some_iff.1 h with h | ⟨_, h⟩
  · exact .inl h
  rcases Option.or_eq_some_iff.1 h with h | ⟨_, h⟩
  · exact .inr (.inl h)
  refine .inr (.inr ?_)
  rcases Option.or_eq_some_iff.1 h with h | ⟨_, h⟩
  · exact .inl ⟨true, h⟩
  rcases Option.or_eq_some_iff.1 h with h | ⟨_, h⟩
  · exact .inr (dr _ op h)
  rcases Option.or_eq_some_iff.1 h with h | ⟨_, h⟩
  · split at h
    · exact .inr (dr _ od h)
    · cases h
  · unfold State.lastClasses at h
    dsimp only at h
    split at h
    all_goals rcases Option.or_eq_some_iff.1 h with h | ⟨_, h⟩
    · exact .inr (dr _ od h)
    · exact .inl ⟨false, h⟩
    · exact .inl ⟨false, h⟩
    · exact .inr (dr _ od h)

/-- The drain that a choice takes may start (R78). -/
theorem State.mayStart_choice {s : State} {p : Port} {i : SlotNo} (h : s.chooseUser p = some (.drain i)) : s.mayStart i := by
  rcases State.chooseUser_cases h with h | h | ⟨b, h⟩ | ⟨j, e, k⟩
  · unfold State.probeUser at h
    repeat' split at h
    all_goals exact absurd h (by simp)
  · unfold State.mapWriteUser at h
    repeat' split at h
    all_goals simp [Option.bind_eq_some_iff] at h
  · unfold State.fetchUser at h
    split at h <;> simp at h
  · cases e
    intro x hx
    unfold State.drainEligible at k
    split at k
    next y m d hy =>
      rw [hy] at hx
      cases hx
      simp only [Bool.and_eq_true, Option.isNone_iff_eq_none] at k
      exact k.2
    all_goals cases k

theorem near_startFetchOp (p : Port) (t : Tag) (s : State) : Near s (startFetchOp p t s) := by
  unfold startFetchOp
  repeat' split
  all_goals first
    | exact Near.refl s
    | exact (calm_setFetch _ _ s).near.trans (near_startOp _ _ _ _)

theorem near_startMapWrite (p : Port) (w : MapWrite) (s : State) : Near s (startMapWrite p w s) := by
  unfold startMapWrite
  split
  · exact Near.refl s
  next c hc =>
    refine Near.trans ?_ (near_startOp _ _ _ _)
    exact near_sameCommit s c _ hc rfl rfl

theorem near_startUser (p : Port) (u : LaneUser) (s : State) (h : ∀ i, u = .drain i → s.mayStart i) :
    Near s (startUser p u s) := by
  unfold startUser
  split
  · exact near_startOp _ _ _ s
  · exact near_startOp _ _ _ s
  · exact near_startOp _ _ _ s
  · exact Near.refl s
  · exact near_startMapWrite _ _ s
  · exact near_startFetchOp _ _ s
  · exact near_startDrain _ _ s (h _ rfl)

theorem near_arbitrate (p : Port) (s : State) : Near s (arbitrate p s) := by
  unfold arbitrate
  split
  · exact Near.refl s
  next u hu =>
    split
    · exact Near.refl s
    · split
      · exact (near_setPort s p { s.port p with fairness := s.fairnessAfter p u } rfl).trans
          (near_startUser p u _ (fun i e => (State.mayStart_choice (e ▸ hu) : s.mayStart i)))
      · exact near_startOp _ _ _ s
      all_goals exact Near.refl s

/-! ## Classification and the commit -/

theorem near_classify (p : Port) (s : State) : Near s (classify p s) := by
  unfold classify
  split
  · exact Near.refl s
  · refine Near.trans ?_ (calm_endOfProbeCheck p _).near
    refine Near.trans ?_ (calm_raisePort _ _ _ _).near
    refine Near.trans ?_ (near_setClass _ _ _)
    exact near_setPort s p _ rfl

theorem near_classifyHeld (s : State) : Near s (classifyHeld s) := by
  refine near_foldl _ (fun s p => ?_) _ _
  split
  · exact near_classify p s
  · exact Near.refl s

theorem near_orphanWrite (p : Port) (s : State) : Near s (orphanWrite p s) := by
  unfold orphanWrite
  repeat' split
  all_goals first
    | exact Near.refl s
    | exact near_setPort s p _ rfl

theorem orphanWrite_mapStore (p : Port) (s : State) : (orphanWrite p s).mapStore = s.mapStore := by
  unfold orphanWrite
  repeat' split
  all_goals rfl

theorem orphanWrites_mapStore (l : List Port) (s : State) :
    (l.foldl (fun acc p => orphanWrite p acc) s).mapStore = s.mapStore := by
  induction l generalizing s with
  | nil => rfl
  | cons p l ih => exact (ih _).trans (orphanWrite_mapStore p s)

theorem near_endCommit (r : CommitResult) (s : State) : Near s (endCommit r s) := by
  unfold endCommit
  split
  · exact Near.refl s
  next c hc =>
    have h := near_noCommit _ c ((congrArg MapStore.commit (orphanWrites_mapStore allPorts s)).trans hc)
    exact (((near_foldl _ (fun s p => near_orphanWrite p s) _ s).trans h).trans
      (near_classifyHeld _)).trans (calm_raiseSingle _ _ _).near

theorem near_finalNext (s : State) : Near s (finalNext s) := by
  unfold finalNext
  split
  · exact Near.refl s
  next c hc =>
    split
    · exact Near.refl s
    · split
      · exact near_sameCommit s c _ hc rfl rfl
      · exact near_endCommit _ s

theorem near_tentativeTest (s : State) : Near s (tentativeTest s) := by
  unfold tentativeTest
  split
  · exact Near.refl s
  next c hc =>
    split
    · refine Near.trans ?_ (near_finalNext _)
      exact near_sameCommit s c _ hc rfl rfl
    · exact Near.refl s

theorem near_dropTarget (p : Port) (f b : Bool) (s : State) : Near s (dropTarget p f b s) := by
  unfold dropTarget
  split
  · exact Near.refl s
  next c hc =>
    split
    · have h1 : Near s (orphanWrite p (s.setCommit (some { c with
          targets := c.targets.filter (fun x => x.port ≠ p)
          failed := if f then setInsert p c.failed else c.failed }))) := by
        refine Near.trans ?_ (near_orphanWrite _ _)
        exact near_sameCommit s c _ hc rfl rfl
      dsimp only
      split
      · exact h1
      · split
        · exact h1.trans (near_endCommit _ _)
        · split
          · exact h1
          · exact h1.trans (near_tentativeTest _)
          · exact h1.trans (near_finalNext _)
    · exact Near.refl s

theorem near_evalQuiesce (s : State) : Near s (evalQuiesce s) := by
  unfold evalQuiesce
  split
  · exact Near.refl s
  next c hc =>
    split
    · split
      · exact near_sameCommit s c _ hc rfl rfl
      · exact Near.refl s
    · exact Near.refl s
    · exact Near.refl s

theorem near_tentativeWritten (p : Port) (s : State) : Near s (tentativeWritten p s) := by
  unfold tentativeWritten
  split
  · exact Near.refl s
  next c hc =>
    split
    · exact Near.refl s
    · refine Near.trans ?_ (near_tentativeTest _)
      exact near_sameCommit s c _ hc rfl rfl

theorem near_reclassify (p : Port) (s : State) : Near s (reclassify p s) := by
  unfold reclassify
  split
  · exact Near.refl s
  · split
    · exact Near.refl s
    · dsimp only
      split
      · exact Near.refl s
      · exact (near_setClass _ _ s).trans (calm_raisePort _ _ _ _).near

/-- The commit point, taken before it has been reached, raises the active generation. -/
theorem near_commitPoint (s : State) (h : ∀ c, s.mapStore.commit = some c → c.pointReached = false) :
    Near s (commitPoint s) := by
  unfold commitPoint
  split
  · exact Near.refl s
  next c hc =>
    refine Near.trans ?_ (near_foldl _ (fun s p => near_reclassify p s) _ _)
    refine near_setMaps s _ c hc rfl rfl (fun k => ⟨fun d hd => ?_, ?_⟩)
    · simp only [State.setMaps, Option.some.injEq] at hd
      subst hd
      rfl
    · have hk := k c hc
      rw [h c hc] at hk
      simp only [Bool.false_eq_true, if_false] at hk
      show s.mapStore.active.generation.toNat ≤ c.generation.toNat
      omega

theorem near_recordFinal (p : Port) (g w : Word32) (s : State) : Near s (recordFinal p g w s) := by
  unfold recordFinal
  split
  · exact near_setPort s p _ rfl
  · exact Near.refl s

theorem near_adopt (p : Port) (s : State) : Near s (adopt p s) := by
  unfold adopt
  split
  · exact Near.refl s
  · exact (near_setClass _ _ s).trans (calm_raisePort _ _ _ _).near

theorem near_finalWritten (p : Port) (s : State) : Near s (finalWritten p s) := by
  unfold finalWritten
  split
  · exact Near.refl s
  next c hc =>
    have h1 : Near s (adopt p (if c.pointReached then s else commitPoint s)) := by
      refine Near.trans ?_ (near_adopt _ _)
      split
      · exact Near.refl s
      next hp => exact near_commitPoint s (fun d hd => by simp_all)
    dsimp only
    split
    · exact h1
    next d hd =>
      split
      · exact h1
      · refine Near.trans (h1.trans ?_) (near_finalNext _)
        exact near_sameCommit _ d _ hd rfl rfl

theorem near_mapWriteDone (p : Port) (w : MapWrite) (g k : Word32) (l : Bool) (s : State) :
    Near s (mapWriteDone p w g k l s) := by
  unfold mapWriteDone
  split
  · split
    · exact near_tentativeWritten _ _
    · exact Near.refl s
  · dsimp only
    split
    · exact (near_recordFinal _ _ _ s).trans (near_finalWritten _ _)
    · exact near_recordFinal _ _ _ s

/-! ## The ports -/

theorem near_closeOp (p : Port) (k : OpKind) (e : Engine) (v : StatEvent) (n : Nat) (s : State) :
    Near s (closeOp p k e v n s) := by
  unfold closeOp
  dsimp only
  split
  · exact (near_countPort s p _ (PortStats.atMost_after _ _ _)).trans (near_setMark _ _ _)
  · exact near_countPort s p _ (PortStats.atMost_after _ _ _)

theorem near_loseOp (p : Port) (s : State) : Near s (loseOp p s).1 := by
  unfold loseOp
  split
  · exact Near.refl s
  next op _ =>
    have h1 : Near s (closeOp p op.kind (s.port p).engine .noStat (attemptsSoFar op s) s.drawn) :=
      (near_drawn s).trans (near_closeOp _ _ _ _ _ _)
    dsimp only
    split
    · exact h1
    · dsimp only
      split
      · exact h1.trans (near_setMark _ _ _)
      · exact h1
    · exact h1.trans ((calm_addEntry _ _).trans (calm_fetchResult _ _ _)).near
    · exact h1.trans ((calm_addEntry _ _).trans (calm_drainFailure _ _ _)).near
    · exact h1.trans (calm_addEntry _ _).near

theorem near_portFailed (p : Port) (c : HistoryCause) (e : List SlotNo) (b : Bool) (s : State) :
    Near s (portFailed p c e b s) := by
  unfold portFailed
  dsimp only
  generalize hX : handOnWalk (e ++ (loseOp p s).2) (loseOp p s).1 = X
  have h0 : Near s X := hX ▸ (near_loseOp p s).trans (calm_handOnWalk _ _).near
  have h2 := (h0.trans (near_setClass p .failed X)).trans (near_setPort (setClass p .failed X) p
    { (setClass p .failed X).port p with engine := .idle, probe := none, debounce := none } rfl)
  refine Near.trans ?_ ((calm_strandAll _ _ (dirtyOn_held p _)).trans (((calm_handOnWalk _ _).trans (calm_noteStranded _ _)).trans
    (calm_raisePort _ _ _ _))).near
  refine Near.trans ?_ (near_dropTarget _ _ _ _)
  split
  · exact h2.trans (calm_failWaitingAll _ _).near
  · exact h2

/-- What entry to EMPTY does after it has ended the operation in flight. -/
theorem loseOp_portEmpty (p : Port) (n : Option PortClass) (e : List SlotNo) (s : State) :
    Near (loseOp p s).1 (portEmpty p n e s) := by
  unfold portEmpty
  dsimp only
  have h2 := (near_setClass p .empty (loseOp p s).1).trans (near_setPort (setClass p .empty (loseOp p s).1) p
    { (setClass p .empty (loseOp p s).1).port p with
      engine := .idle, member := none, probe := none, debounce := none, failures := 0, fairness := 0 } rfl)
  have h3 := fun (i k : List SlotNo) (t : State) =>
    (calm_strandAll (t.dirtyOn p) t (dirtyOn_held p t)).trans ((calm_handOnWalk i _).trans (calm_noteStranded k _))
  split
  · exact h2.trans ((h3 _ _ _).trans (calm_raisePort _ _ _ _)).near
  · exact h2.trans (h3 _ _ _).near

theorem near_portEmpty (p : Port) (n : Option PortClass) (e : List SlotNo) (s : State) :
    Near s (portEmpty p n e s) := (near_loseOp p s).trans (loseOp_portEmpty p n e s)

/-- What entry to PROBE does after it has ended the operation in flight. -/
theorem loseOp_portProbe (p : Port) (e : Engine) (l : List SlotNo) (s : State) :
    Near (loseOp p s).1 (portProbe p e l s) := by
  unfold portProbe
  refine Near.trans ?_ ((calm_handOnWalk _ _).trans (calm_noteStranded _ _)).near
  refine (near_setClass p .probe _).trans ?_
  exact near_setPort _ p _ rfl

theorem near_portProbe (p : Port) (e : Engine) (l : List SlotNo) (s : State) : Near s (portProbe p e l s) :=
  (near_loseOp p s).trans (loseOp_portProbe p e l s)

theorem near_enterDebounce (p : Port) (b : Bool) (s : State) : Near s (enterDebounce p b s) := by
  unfold enterDebounce
  dsimp only
  refine Near.trans ?_ (near_dropTarget _ _ _ _)
  have h0 : Near s (if (s.port p).op.isSome then s.drawn else s) := by
    split
    · exact near_drawn s
    · exact Near.refl s
  have h2 := (h0.trans (near_setClass p .debounce _))
  split
  · refine Near.trans (h2.trans ?_) (calm_failWaitingAll _ _).near
    exact near_setPort _ p _ rfl
  · refine h2.trans ?_
    exact near_setPort _ p _ rfl

theorem near_countSuccess (p : Port) (s : State) : Near s (countSuccess p s) := near_setPort s p _ rfl

theorem near_countFailure (p : Port) (e : OpFailure) (l : List SlotNo) (s : State) :
    Near s (countFailure p e l s) := by
  unfold countFailure
  dsimp only
  split
  · refine Near.trans ?_ (near_portFailed _ _ _ _ _)
    exact near_setPort s p _ rfl
  · refine Near.trans ?_ (calm_handOn _ _).near
    exact near_setPort s p _ rfl

theorem near_probeFailed (p : Port) (x : Option Nat) (n : Nat) (s : State) : Near s (probeFailed p x n s) := by
  unfold probeFailed
  refine Near.trans ?_ (near_portFailed _ _ _ _ _)
  refine Near.trans ?_ (near_setPort (addEntry _ s) p _ rfl)
  exact (calm_addEntry _ s).near

theorem near_setProbe (p : Port) (x : Probe) (s : State) : Near s (setProbe p x s) := near_setPort s p _ rfl

theorem near_probeComplete (p : Port) (s : State) : Near s (probeComplete p s) := by
  unfold probeComplete
  split
  · exact near_classify p s
  · exact Near.refl s

theorem near_probeIdent (p : Port) (o : Except OpFailure (Nat × Word32)) (n : Nat) (s : State) :
    Near s (probeIdent p o n s) := by
  unfold probeIdent
  split
  · split
    · exact near_setProbe _ _ s
    · exact near_probeFailed _ _ _ s
  · exact near_probeFailed _ _ _ s
  · exact Near.refl s

theorem near_probeRead (p : Port) (x : Nat) (o : Except OpFailure (Option (List Byte))) (n : Nat) (s : State) :
    Near s (probeRead p x o n s) := by
  unfold probeRead
  split
  · exact Near.refl s
  · dsimp only
    repeat' split
    all_goals first
      | exact near_probeFailed _ _ _ s
      | exact near_setProbe _ _ s
      | exact (near_setProbe _ _ s).trans (near_probeComplete _ _)
      | exact Near.refl s

theorem near_fetchOpFailed (p : Port) (op : Operation) (w : Owner) (e : OpFailure) (n : Nat) (s : State) :
    Near s (fetchOpFailed p op w e n s) :=
  ((calm_addEntry _ s).trans (calm_fetchResult _ _ _)).near.trans (near_countFailure _ _ _ _)

theorem near_drainOpFailed (p : Port) (op : Operation) (i : SlotNo) (e : OpFailure) (n : Nat) (s : State) :
    Near s (drainOpFailed p op i e n s) :=
  ((calm_addEntry _ s).trans (calm_drainFailure _ _ _)).near.trans (near_countFailure _ _ _ _)

theorem near_mapWriteFailed (p : Port) (op : Operation) (w : MapWrite) (l : Bool) (n : Nat) (s : State) :
    Near s (mapWriteFailed p op w l n s) := by
  unfold mapWriteFailed
  dsimp only
  have h0 := near_setPort (addEntry (s.portEntry p op .mapWriteFailed n) s) p
    { (addEntry (s.portEntry p op .mapWriteFailed n) s).port p with
      failures := min (((addEntry (s.portEntry p op .mapWriteFailed n) s).port p).failures + 1) Config.failureLimit } rfl
  have h := ((calm_addEntry (s.portEntry p op .mapWriteFailed n) s).near.trans h0).trans
    (near_portFailed p .mapWriteFailed [] l _)
  split
  · split
    · exact h.trans (near_endCommit _ _)
    · exact h.trans (near_finalNext _)
  · exact h

theorem near_wakeFailed (p : Port) (op : Operation) (e : OpFailure) (n : Nat) (s : State) :
    Near s (wakeFailed p op e n s) := by
  have h : Near s (match (s.port p).probe with
      | some pr =>
        if pr.wakeFailures + 1 = Config.failureLimit then probeFailed p none n s
        else setProbe p { pr with wakeFailures := pr.wakeFailures + 1 } s
      | none => countFailure p e [] (addEntry (s.portEntry p op e.cause n) s)) := by
    split
    · split
      · exact near_probeFailed _ _ _ s
      · exact near_setProbe _ _ s
    · exact (calm_addEntry _ s).near.trans (near_countFailure _ _ _ _)
  have k : ∀ v, Near s v → Near s (if (v.port p).engine = .asleep then arbitrate p v else v) := by
    intro v hv
    split
    · exact hv.trans (near_arbitrate _ _)
    · exact hv
  exact k _ h

theorem near_sleepEnded (p : Port) (op : Operation) (f : Option OpFailure) (n : Nat) (s : State) :
    Near s (sleepEnded p op f n s) := by
  unfold sleepEnded
  split
  · exact (near_setMark s p _).trans (near_countSuccess _ _)
  · exact ((near_setMark s p _).trans (calm_addEntry _ _).near).trans (near_countFailure _ _ _ _)

theorem near_wakeDone (p : Port) (s : State) : Near s (wakeDone p s) := by
  unfold wakeDone
  split
  · exact near_setProbe _ _ s
  · exact near_countSuccess _ s

theorem near_opFailed (p : Port) (op : Operation) (e : OpFailure) (n : Nat) (s : State) :
    Near s (opFailed p op e n s) := by
  have h := near_closeOp p op.kind (op.kind.engineAfter true) e.stat n s
  unfold opFailed
  dsimp only
  split
  · split
    · exact h.trans (near_probeRead _ _ _ _ _)
    · exact h.trans (near_probeIdent _ _ _ _)
    all_goals exact h
  · exact h.trans (near_fetchOpFailed _ _ _ _ _ _)
  · exact h.trans (near_drainOpFailed _ _ _ _ _ _)
  · exact h.trans (near_mapWriteFailed _ _ _ _ _ _)
  · split
    · exact h.trans (near_sleepEnded _ _ _ _ _)
    · exact h.trans (near_wakeFailed _ _ _ _ _)
    all_goals exact h

theorem near_readDone (p : Port) (op : Operation) (x : Nat) (r : Option (List Byte)) (n : Nat) (s : State) :
    Near s (readDone p op x r n s) := by
  have h := near_closeOp p op.kind .idle .blockRead n s
  unfold readDone
  dsimp only
  split
  · exact h.trans (near_probeRead _ _ _ _ _)
  · exact (h.trans (near_countSuccess _ _)).trans (calm_fetchResult _ _ _).near
  all_goals exact h

theorem near_programDone (p : Port) (op : Operation) (n : Nat) (s : State) : Near s (programDone p op n s) := by
  have h := near_closeOp p op.kind .idle .blockProgrammed n s
  unfold programDone
  dsimp only
  split
  · exact (h.trans (near_countSuccess _ _)).trans (calm_drainSuccess _ _).near
  · exact (h.trans (near_countSuccess _ _)).trans (near_mapWriteDone _ _ _ _ _ _)
  all_goals exact h

/-- What a port reset does after it has ended the operation in flight. -/
theorem loseOp_resetPort (p : Port) (s : State) : Near (loseOp p s).1 (resetPort p s) := by
  unfold resetPort
  dsimp only
  by_cases h : (s.port p).cls = .pooled
  · rw [if_pos h]
    have k : Near (loseOp p s).1 (resetPooled p s).1 := ((calm_handOnWalk _ _).trans (calm_failWaitingAll _ _)).near
    split
    · exact k.trans (near_portProbe _ _ _ _)
    · exact k.trans (near_portEmpty _ _ _ _)
  · rw [if_neg h]
    split
    · exact loseOp_portProbe _ _ _ _
    · exact loseOp_portEmpty _ _ _ _

theorem near_resetPort (p : Port) (s : State) : Near s (resetPort p s) := (near_loseOp p s).trans (loseOp_resetPort p s)

end Sys2Proof.Machine
end

