-- ==== Sys2Proof/Laws/Notices.lean ====
section
/-! SUPPORT. The pending set under each of the Notice Unit's operations: which instance a key has afterwards. -/

namespace Sys2Proof.Machine

theorem find_insertNotice (n : Notice) (ms : List Notice) (k : NoticeKey)
    (h : ms.find? (fun m => m.key = n.key) = none) :
    (insertNotice n ms).find? (fun m => m.key = k) = if k = n.key then some n else ms.find? (fun m => m.key = k) := by
  induction ms with
  | nil => by_cases e : n.key = k <;> simp [insertNotice, e, Ne.symm]
  | cons m ms ih =>
    rw [List.find?_cons] at h
    split at h
    · cases h
    next hm =>
      unfold insertNotice
      split
      · rw [List.find?_cons]
        by_cases e : n.key = k
        · simp [e]
        · simp [e, Ne.symm e]
      · rw [List.find?_cons, ih h]
        by_cases e : k = n.key
        · subst e; simp [hm]
        · simp only [e, if_false]; rw [List.find?_cons]

theorem find_replaceNotice (n : Notice) (ms : List Notice) (k : NoticeKey) :
    (replaceNotice n ms).find? (fun m => m.key = k) =
      if k = n.key then (ms.find? (fun m => m.key = k)).map (fun _ => n) else ms.find? (fun m => m.key = k) := by
  unfold replaceNotice
  induction ms with
  | nil => simp
  | cons m ms ih =>
    rw [List.map_cons, List.find?_cons, ih, List.find?_cons]
    by_cases e : k = n.key
    · subst e
      by_cases hm : m.key = n.key <;> simp [hm]
    · by_cases hm : m.key = n.key
      · simp [hm, e, Ne.symm e]
      · by_cases hk : m.key = k <;> simp [hm, hk, e]

@[simp] theorem joinOrder_pending (k : NoticeKey) (s : State) : (s.joinOrder k).notices.pending = s.notices.pending := by
  unfold State.joinOrder; split <;> rfl

/-- A key joins the tail of the notice-order list exactly where its kind is enabled (R176). -/
theorem joinOrder_order (k : NoticeKey) (s : State) : s.joinOrder k = { s with notices := { s.notices with
    order := s.notices.order ++ (if s.params.noticeEnable.getLsbD (k.kind.code - 1) then [k] else []) } } := by
  unfold State.joinOrder State.noticeEnabled
  split
  · rfl
  · simp

theorem State.notice_key {s : State} {k : NoticeKey} {n : Notice} (h : s.notice k = some n) : n.key = k :=
  of_decide_eq_true (List.find?_some (p := fun m : Notice => decide (m.key = k)) h)

/-- The instance of every key after a raising (R174). -/
theorem raise_notice (k j : NoticeKey) (d : NoticeDetail) (s : State) :
    (raise k d s).notice j = if j = k then some (raisedOnce k d (s.notice k)) else s.notice j := by
  show (raiseTable k d s).notices.pending.find? _ = _
  unfold raiseTable
  cases hn : s.notice k with
  | none =>
    dsimp only
    rw [joinOrder_pending]
    exact find_insertNotice _ _ j hn
  | some n =>
    have hk := State.notice_key hn
    obtain ⟨key, count, detail, report⟩ := n
    subst hk
    have : ∀ m : Notice, m.key = key → (replaceNotice m s.notices.pending).find? (fun x => x.key = j) =
        if j = key then some m else s.notice j := by
      intro m hm
      rw [find_replaceNotice, hm]
      by_cases e : j = key
      · subst e; rw [if_pos rfl, if_pos rfl]
        have : s.notices.pending.find? (fun x => x.key = j) = some ⟨j, count, detail, report⟩ := hn
        rw [this]; rfl
      · rw [if_neg e, if_neg e]; rfl
    cases report with
    | unreported => exact this _ rfl
    | sent q f => exact this _ rfl
    | reported => dsimp only; rw [joinOrder_pending]; exact this _ rfl

/-- ATTN after a raising (R181). -/
theorem raise_attn (k : NoticeKey) (d : NoticeDetail) (s : State) :
    (raise k d s).notices.attn = (s.link.lost || (raise k d s).notices.pending.any
      (fun n => s.noticeEnabled n.key.kind)) := by
  show (raiseTable k d s).attnLevel = _
  obtain ⟨n, h⟩ : ∃ n, raiseTable k d s = { s with notices := n } := by
    unfold raiseTable
    split
    · unfold State.joinOrder; split <;> exact ⟨_, rfl⟩
    · split
      · exact ⟨_, rfl⟩
      · exact ⟨_, rfl⟩
      · unfold State.joinOrder; split <;> exact ⟨_, rfl⟩
  show ((raiseTable k d s).link.lost || (raiseTable k d s).notices.pending.any _) = (s.link.lost || (raiseTable k d s).notices.pending.any _)
  unfold State.noticeEnabled
  rw [h]

/-- What making one history entry changes: the log, and one raising of LOG_ADDED (R190, R191). -/
theorem addEntry_entry (e : EntryInfo) (s : State) :
    ∃ n, addEntry e s = { s with
        log := { s.log with
          ring := (s.makeEntry e :: s.log.ring).take 12
          nextNumber := entryAfter s.log.nextNumber
          errorCount := if e.source = .port then satInc s.log.errorCount else s.log.errorCount }
        notices := n } ∧
      (∀ j, n.pending.find? (fun m => m.key = j) = if j = ⟨.logAdded, none⟩
        then some (raisedOnce j (.number s.log.nextNumber) (s.notice j)) else s.notice j) := by
  obtain ⟨n, h⟩ := raise_eq ⟨.logAdded, none⟩ (.number s.log.nextNumber) { s with
        log := { s.log with
          ring := (s.makeEntry e :: s.log.ring).take 12
          nextNumber := entryAfter s.log.nextNumber
          errorCount := if e.source = .port then satInc s.log.errorCount else s.log.errorCount } }
  refine ⟨n, h, fun j => ?_⟩
  have := raise_notice ⟨.logAdded, none⟩ j (.number s.log.nextNumber) { s with
        log := { s.log with
          ring := (s.makeEntry e :: s.log.ring).take 12
          nextNumber := entryAfter s.log.nextNumber
          errorCount := if e.source = .port then satInc s.log.errorCount else s.log.errorCount } }
  rw [h] at this
  refine Eq.trans this ?_
  by_cases hj : j = ⟨.logAdded, none⟩
  · rw [if_pos hj, if_pos hj, hj]; rfl
  · rw [if_neg hj, if_neg hj]; rfl

/-- The acknowledgment finds the one instance sent under `q` (R177, R178). -/
theorem ackNotice_sent {s : State} {q : Byte} {n : Notice} {f : Nat} (hn : n ∈ s.notices.pending)
    (hr : n.report = .sent q f) (hu : ∀ x ∈ s.notices.pending, ∀ g, x.report = .sent q g → x = n) :
    ackNotice q s = if f = 0 then
        (if s.params.held then evalAttn (s.putNotice { n with report := .reported })
        else evalAttn (s.dropNotices (fun m => m.key = n.key)))
      else evalAttn ((s.putNotice { n with
        count := if s.params.held then n.count else f, report := .unreported }).joinOrder n.key) := by
  unfold ackNotice
  split
  next h =>
    rw [List.find?_eq_none] at h
    have := h n hn
    rw [hr] at this
    simp at this
  next m h =>
    have hm : m = n := by
      have h1 := List.find?_some h
      have h2 := List.mem_of_find?_eq_some h
      cases hx : m.report with
      | unreported => simp [hx] at h1
      | reported => simp [hx] at h1
      | sent r g =>
        simp [hx] at h1
        subst h1
        exact hu m h2 g hx
    subst hm
    rw [hr]
    cases f <;> rfl

/-- Dropping instances and evaluating ATTN leaves the notices without them (R177, R179, R180). -/
theorem dropNotices_eq (s : State) (out : Notice → Bool) :
    evalAttn (s.dropNotices out) = { s with notices := s.noticesWithout out } := by
  have : (evalAttn (s.dropNotices out)).notices = s.noticesWithout out := by
    unfold evalAttn State.dropNotices State.noticesWithout State.attnLevel State.anyEnabled State.noticeEnabled
    dsimp only
    congr 1
    apply List.filter_congr
    intro k _
    congr 1
    rw [Bool.eq_iff_iff]
    simp
    grind
  rw [← this]; rfl

/-- Every instance becomes UNREPORTED (R183). -/
theorem unreportAll_eq (s : State) :
    unreportAll s = { s with notices := {
      pending := s.notices.pending.map (fun n => { n with report := .unreported })
      order := (s.notices.pending.filter (fun n => s.params.noticeEnable.getLsbD (n.key.kind.code - 1))).map (·.key)
      attn := s.link.lost || s.anyEnabled s.notices.pending } } := by
  unfold unreportAll evalAttn State.attnLevel State.anyEnabled State.noticeEnabled
  dsimp only
  rw [List.filter_map, List.map_map, List.any_map]; rfl

/-! ## Pressure -/

/-- The pressure flag after its evaluation (R88). -/
theorem evalPressure_pressure (s : State) :
    (evalPressure s).staging.pressure = pressureAfter s.staging.pressure s.nonFree s.params.highWater := by
  unfold evalPressure pressureAfter
  cases h : s.staging.pressure
  · by_cases k : s.params.highWater ≤ s.nonFree
    · obtain ⟨n, e⟩ := raise_eq ⟨.stagingHigh, none⟩ (.count s.nonFree) { s with staging := { s.staging with pressure := true } }
      simp only [k, Bool.false_eq_true, if_false, if_true, decide_true]
      exact congrArg (·.staging.pressure) e
    · simp [k, h]
  · by_cases k : s.nonFree + 4 ≤ s.params.highWater
    · simp [k]
    · rw [if_pos rfl, if_pos rfl, if_neg k, h]
      exact (decide_eq_true (by omega)).symm

/-- The notices after the evaluation of pressure: STAGING_HIGH is raised exactly where the flag becomes set (R88, R89). -/
theorem evalPressure_notice (s : State) (k : NoticeKey) :
    (evalPressure s).notice k = if k = ⟨.stagingHigh, none⟩ then
      (if (evalPressure s).staging.pressure && !s.staging.pressure then some (raisedOnce k (.count s.nonFree) (s.notice k))
      else s.notice k) else s.notice k := by
  rw [evalPressure_pressure s]
  unfold pressureAfter evalPressure
  cases h : s.staging.pressure
  · by_cases c : s.params.highWater ≤ s.nonFree
    · simp only [c, Bool.false_eq_true, if_false, if_true, decide_true, Bool.not_false, Bool.and_self]
      refine (raise_notice ⟨.stagingHigh, none⟩ k _ _).trans ?_
      by_cases e : k = ⟨.stagingHigh, none⟩
      · rw [if_pos e, if_pos e, e]; rfl
      · rw [if_neg e, if_neg e]; rfl
    · simp [c]
  · by_cases c : s.nonFree + 4 ≤ s.params.highWater <;> simp [c] <;> rfl

end Sys2Proof.Machine
end

