-- ==== Sys2Proof/Laws/Ports.lean ====
section
/-! SUPPORT. The laws of the ports and the Map Store (R5, R100, R152) through each operation on a port or on the commit. -/

namespace Sys2Proof.Machine

/-! ## Classes and targets -/

theorem setClass_port (p q : Port) (c : PortClass) (s : State) :
    (setClass p c s).port q = if q = p then { s.port p with cls := c } else s.port q := by
  unfold setClass
  dsimp only
  split
  · show (s.setPort p _).port q = _
    rw [State.port_setPort]
  · rw [State.port_setPort]

theorem setClass_eq (p : Port) (c : PortClass) (s : State) : ∃ m, setClass p c s =
    { s with ports := s.ports.set p { s.port p with cls := c }, power := { s.power with marks := m } } := by
  unfold setClass
  dsimp only
  split
  · exact ⟨_, rfl⟩
  · exact ⟨s.power.marks, rfl⟩

theorem setClass_self (p : Port) (c : PortClass) (s : State) : (setClass p c s).port p = { s.port p with cls := c } := by
  rw [setClass_port, if_pos rfl]

theorem classFor_eq (m : Map) (n : Option (Word32 × Word32)) : classFor m n = m.classOf n := by
  unfold classFor Map.classOf
  cases n with
  | none => rfl
  | some x => rfl

/-- The port is in the target set. -/
theorem isTarget_true {c : Commit} {p : Port} {x : Target} (h : x ∈ c.targets) (hp : x.port = p) : c.isTarget p = true := by
  unfold Commit.isTarget
  rw [List.any_eq_true]
  exact ⟨x, h, by simpa using hp⟩

theorem isTarget_false {c : Commit} {p : Port} (h : ∀ x ∈ c.targets, x.port ≠ p) : c.isTarget p = false := by
  unfold Commit.isTarget
  rw [List.any_eq_false]
  intro x hx
  simpa using h x hx

/-- Two targets of one port are one. -/
theorem same_target {l : List Target} (h : (l.map (·.port)).Nodup) {a b : Target} (ha : a ∈ l) (hb : b ∈ l)
    (e : a.port = b.port) : a = b := by
  induction l with
  | nil => cases ha
  | cons x l ih =>
    rw [List.map_cons, List.nodup_cons] at h
    have out : ∀ y ∈ l, y.port ≠ x.port := fun y hy c => h.1 (List.mem_map.2 ⟨y, hy, c⟩)
    rcases List.mem_cons.1 ha with e1 | h1 <;> rcases List.mem_cons.1 hb with e2 | h2
    · rw [e1, e2]
    · exact absurd (e1 ▸ e.symm) (out b h2)
    · exact absurd (e2 ▸ e) (out a h1)
    · exact ih h.2 h1 h2

theorem liveWrite_false {s : State} {q : Port} (h : ∀ o m g k, (s.port q).op = some o → o.user ≠ .mapWrite m g k true) :
    s.liveWrite q = false := by
  unfold State.liveWrite
  cases e : (s.port q).op with
  | none => rfl
  | some o =>
    dsimp only
    cases e2 : o.user with
    | mapWrite m g k l =>
      cases l with
      | false => rfl
      | true => exact absurd e2 (h o m g k e)
    | _ => rfl

theorem liveWrite_iff (s : State) (p : Port) : s.liveWrite p = true ↔ (s.port p).live := by
  constructor
  · unfold State.liveWrite PortRecord.live
    intro h
    split at h
    next o e =>
      split at h
      next w g k l e2 => exact ⟨o, w, g, k, e, by rw [e2, h]⟩
      all_goals cases h
    · cases h
  · rintro ⟨o, w, g, k, e, e2⟩
    unfold State.liveWrite
    rw [e]
    dsimp only
    rw [e2]

theorem PortRecord.not_live {x : PortRecord} (h : x.op = none) : ¬ x.live := by
  rintro ⟨o, w, g, k, e, _⟩
  rw [h] at e
  cases e

/-! ## What fits stays -/

theorem State.portsFit.of_same {s t : State} {q : Option Port} (h : s.portsFit q) (hp : ∀ p, t.port p = s.port p)
    (hm : t.mapStore = s.mapStore) : t.portsFit q := by
  unfold State.portsFit State.commitFits at h ⊢
  simpa only [hp, hm] using h

theorem State.startsClear.of_same {s t : State} (h : s.startsClear) (hp : ∀ p, t.port p = s.port p)
    (hm : t.mapStore = s.mapStore) : t.startsClear := by
  unfold State.startsClear at h ⊢
  simpa only [hp, hm] using h

theorem PortsGood.of_same {s t : State} (h : PortsGood s) (hp : ∀ p, t.port p = s.port p)
    (hm : t.mapStore = s.mapStore) : PortsGood t := ⟨h.1.of_same hp hm, h.2.of_same hp hm⟩

theorem State.portsFit.weaken {s : State} (h : s.portsFit none) (q : Option Port) : s.portsFit q :=
  ⟨h.1, h.2.1, fun c hc => ⟨(h.2.2 c hc).1, (h.2.2 c hc).2.1, (h.2.2 c hc).2.2.1, fun x hx =>
    ⟨((h.2.2 c hc).2.2.2 x hx).1, fun _ => ((h.2.2 c hc).2.2.2 x hx).2 (by simp)⟩⟩⟩

/-- The ports fit as they do with port `p` excepted, where `p` is no target. -/
theorem State.portsFit.close {s : State} {p : Port} (h : s.portsFit (some p))
    (hp : ∀ c, s.mapStore.commit = some c → ∀ x ∈ c.targets, x.port ≠ p) : s.portsFit none :=
  ⟨h.1, h.2.1, fun c hc => ⟨(h.2.2 c hc).1, (h.2.2 c hc).2.1, (h.2.2 c hc).2.2.1, fun x hx =>
    ⟨((h.2.2 c hc).2.2.2 x hx).1, fun _ => ((h.2.2 c hc).2.2.2 x hx).2 (by simpa using hp c hc x hx)⟩⟩⟩

/-- A port that has no class of a target is none. -/
theorem State.portsFit.untargeted {s : State} {p : Port} (h : s.portsFit none) (hp : (s.port p).cls.targetable = false) :
    ∀ c, s.mapStore.commit = some c → ∀ x ∈ c.targets, x.port ≠ p := by
  intro c hc x hx e
  have := ((h.2.2 c hc).2.2.2 x hx).2 (by simp)
  rw [e, hp] at this
  cases this

/-- A new record of port `p`, no more live than the old one. -/
theorem State.portsFit.setPort {s : State} {q : Option Port} (h : s.portsFit q) (p : Port) (x : PortRecord)
    (hx : x.fits s.mapStore p) (hl : x.live → (s.port p).live)
    (ht : ∀ c y, s.mapStore.commit = some c → y ∈ c.targets → y.port = p → some p ≠ q → x.cls.targetable = true) :
    (s.setPort p x).portsFit q := by
  refine ⟨h.1, fun r => ?_, fun c hc => ?_⟩
  · show ((s.setPort p x).port r).fits s.mapStore r
    rw [State.port_setPort]
    split
    next e => rw [e]; exact hx
    · exact h.2.1 r
  · obtain ⟨a, b, d, e⟩ := h.2.2 c hc
    refine ⟨a, b, d, fun y hy => ?_⟩
    obtain ⟨⟨f1, f2, f3, f4⟩, g⟩ := e y hy
    rw [State.port_setPort]
    split
    next z =>
      rw [z] at f1 f2 g
      exact ⟨⟨fun w hw => ⟨(f1 w hw).1, fun k => (f1 w hw).2 (hl k)⟩,
        fun u => (f2 u).imp_right (fun v => ⟨v.1, v.2.1, fun k => v.2.2 (hl k)⟩), f3, f4⟩, fun k => ht c y hc hy z (z ▸ k)⟩
    · exact ⟨⟨f1, f2, f3, f4⟩, g⟩

/-- The record `y` has the class, the member, the probe of `x`, and its operation; or its operation has ended, or one that
is no map write has started on a port that is not EMPTY. -/
structure PortRecord.Alike (x y : PortRecord) : Prop where
  cls : y.cls = x.cls
  member : y.member = x.member
  probe : y.probe = x.probe
  op : y.op = x.op ∨ y.op = none ∨ (x.cls ≠ .empty ∧ ∃ o, y.op = some o ∧ ∀ w g k b, o.user ≠ .mapWrite w g k b)

theorem PortRecord.Alike.live {x y : PortRecord} (h : x.Alike y) (k : y.live) : x.live := by
  obtain ⟨o, w, g, b, e, u⟩ := k
  rcases h.op with h | h | ⟨_, z, h, f⟩
  · exact ⟨o, w, g, b, h ▸ e, u⟩
  · rw [h] at e
    cases e
  · rw [h] at e
    cases e
    exact absurd u (f w g b true)

theorem PortRecord.Alike.fits {x y : PortRecord} {m : MapStore} {p : Port} (h : x.Alike y) (k : x.fits m p) : y.fits m p := by
  obtain ⟨k1, k2, k3, k4, k5⟩ := k
  refine ⟨fun e => ?_, ?_, ?_, ?_, fun o e => ?_⟩
  · rw [h.cls] at e
    rcases h.op with a | a | a
    · exact a.trans (k1 e)
    · exact a
    · exact absurd e a.1
  · rw [h.cls, h.member]; exact k2
  · rw [h.cls, h.member]; exact k3
  · rw [h.cls, h.probe]; exact k4
  · rcases h.op with a | a | ⟨_, z, a, f⟩
    · exact k5 o (a ▸ e)
    · rw [a] at e
      cases e
    · rw [a] at e
      cases e
      exact fun w g b l u => absurd u (f w g b l)

theorem State.portsFit.alike {s : State} {q : Option Port} (h : s.portsFit q) (p : Port) (x : PortRecord)
    (k : (s.port p).Alike x) : (s.setPort p x).portsFit q := by
  refine h.setPort p x (k.fits (h.2.1 p)) k.live (fun c y hc hy e n => ?_)
  rw [k.cls, ← e]
  exact ((h.2.2 c hc).2.2.2 y hy).2 (e ▸ n)

theorem PortsGood.alike {s : State} (h : PortsGood s) (p : Port) (x : PortRecord) (k : (s.port p).Alike x) :
    PortsGood (s.setPort p x) := by
  refine ⟨h.1.alike p x k, fun hr => ⟨(h.2 hr).1, fun r => ?_⟩⟩
  rw [State.port_setPort]
  split
  · rw [k.cls]; exact (h.2 hr).2 p
  · exact (h.2 hr).2 r

/-- A new commit record of the same generation and commit point. -/
theorem State.portsFit.rewrite {s : State} {q r : Option Port} {c d : Commit} (h : s.portsFit q)
    (hc : s.mapStore.commit = some c) (hg : d.generation = c.generation) (hp : d.pointReached = c.pointReached)
    (hn : (d.targets.map (·.port)).Nodup) (hf : d.pointReached = true → d.phase = .final)
    (hw : ∀ p, (s.port p).cls = .pooled → c.pointReached = true → (∃ x ∈ c.targets, x.port = p ∧ x.stage = .tentativeWritten) →
      (∃ y, (s.port p).member = some y ∧ y.newest = some (s.mapStore.active.generation, s.mapStore.active.pool)) ∨
        ∃ x ∈ d.targets, x.port = p ∧ x.stage = .tentativeWritten)
    (ho : ∀ p o w g k, (s.port p).op = some o → o.user = .mapWrite w g k true → (∃ x ∈ c.targets, x.port = p) →
      c.writes w.state → (∃ x ∈ d.targets, x.port = p) ∧ d.writes w.state)
    (ht : ∀ x ∈ d.targets, x.fits (s.port x.port) d ∧ (some x.port ≠ r → (s.port x.port).cls.targetable = true)) :
    (s.setCommit (some d)).portsFit r := by
  obtain ⟨a, b, e⟩ := h
  obtain ⟨e1, e2, e3, e4⟩ := e c hc
  refine ⟨a, fun p => ?_, fun z hz => ?_⟩
  · obtain ⟨k1, k2, k3, k4, k5⟩ := b p
    refine ⟨k1, fun hcl => ?_, k3, k4, fun o eo w g k l u => ?_⟩
    · rcases k2 hcl with k2 | ⟨y, ey, yp, yt⟩
      · exact .inl k2
      · rw [hc] at ey
        cases ey
        rcases hw p hcl yp yt with z | z
        · exact .inl z
        · exact .inr ⟨d, rfl, hp.trans yp, z⟩
    · have F := k5 o eo w g k l u
      cases l with
      | false => exact F
      | true =>
        obtain ⟨y, ey, f1, f2, f3, f4⟩ := F
        rw [hc] at ey
        cases ey
        obtain ⟨g1, g2⟩ := ho p o w g k eo u f1 f4
        exact ⟨d, rfl, g1, f2.trans hg.symm, f3, g2⟩
  · cases hz
    refine ⟨e1, hn, fun z => ?_, ht⟩
    rw [hp] at z
    obtain ⟨x1, x2, x3⟩ := e3 z
    exact ⟨hf (hp.trans z), hg.trans x2, x3⟩

theorem Commit.writes.phase {c d : Commit} {r : RecordState} (k : c.writes r) (h : d.phase = c.phase) : d.writes r := by
  cases r <;> exact h.trans k

theorem Target.fits.phase {x : Target} {y : PortRecord} {c d : Commit} (h : x.fits y c) (hp : d.phase = c.phase)
    (hr : d.pointReached = c.pointReached) : x.fits y d :=
  ⟨fun w hw => ⟨(h.1 w hw).1.phase hp, (h.1 w hw).2⟩, fun u => (h.2.1 u).imp hp.trans (fun v => ⟨hp.trans v.1, v.2⟩), fun u => hp ▸ h.2.2.1 u,
    fun u => hr.trans (h.2.2.2 u)⟩

theorem Commit.setTarget_ports (c : Commit) (x : Target) : (c.setTarget x).targets.map (·.port) = c.targets.map (·.port) := by
  show (c.targets.map _).map _ = _
  rw [List.map_map]
  refine List.map_congr_left (fun y _ => ?_)
  show (if y.port = x.port then x else y).port = y.port
  split
  next e => exact e.symm
  · rfl

theorem Commit.mem_setTarget {c : Commit} {x y : Target} (h : y ∈ (c.setTarget x).targets) :
    y = x ∨ (y ∈ c.targets ∧ y.port ≠ x.port) := by
  obtain ⟨z, hz, e⟩ := List.mem_map.1 h
  split at e
  · exact .inl e.symm
  next n => exact .inr (e ▸ ⟨hz, n⟩)

theorem Commit.in_setTarget (c : Commit) (x : Target) {y : Target} (h : y ∈ c.targets) : 
    ∃ z ∈ (c.setTarget x).targets, z.port = y.port ∧ (y.port ≠ x.port → z = y) := by
  refine ⟨_, List.mem_map_of_mem h, ?_, ?_⟩
  · split
    next e => exact e.symm
    · rfl
  · intro n
    rw [if_neg n]

/-! ## The commit -/

theorem mem_allPorts (p : Port) : p ∈ allPorts := by revert p; decide

/-- The record with its map write reaching no target any more. -/
def PortRecord.orphaned (x : PortRecord) : PortRecord :=
  { x with op := x.op.map (fun o => { o with user := o.user.orphaned }) }

theorem orphanWrite_at (p q : Port) (s : State) :
    (orphanWrite p s).port q = if q = p then (s.port p).orphaned else s.port q := by
  have same : ∀ o, (s.port p).op = some o → o.user.orphaned = o.user → 
      s.port q = if q = p then (s.port p).orphaned else s.port q := fun o e u => by
    split
    next h => rw [h, PortRecord.orphaned, e, Option.map_some, u, ← e]
    · rfl
  unfold orphanWrite
  split
  next o e =>
    split
    next w g k l u =>
      rw [State.port_setPort, PortRecord.orphaned, e, Option.map_some, u]
      rfl
    all_goals
      next u => exact same o e (by rw [u]; rfl)
  next e =>
    split
    next h => rw [h, PortRecord.orphaned, e, Option.map_none, ← e]
    · rfl

theorem orphanWrites_at (l : List Port) (hl : l.Nodup) (q : Port) (s : State) :
    (l.foldl (fun acc p => orphanWrite p acc) s).port q = if q ∈ l then (s.port q).orphaned else s.port q := by
  induction l generalizing s with
  | nil => rfl
  | cons p l ih =>
    rw [List.nodup_cons] at hl
    rw [List.foldl_cons, ih hl.2, orphanWrite_at]
    by_cases e : q = p
    · subst e
      rw [if_neg hl.1, if_pos rfl, if_pos (List.mem_cons_self ..)]
    · rw [if_neg e]
      simp [e]

theorem orphanWrite_maps (p : Port) (s : State) : (orphanWrite p s).mapStore = s.mapStore := by
  unfold orphanWrite
  repeat' split
  all_goals rfl

theorem orphanWrites_maps (l : List Port) (s : State) : (l.foldl (fun acc p => orphanWrite p acc) s).mapStore = s.mapStore := by
  induction l generalizing s with
  | nil => rfl
  | cons p l ih => exact (ih _).trans (orphanWrite_maps p s)

theorem PortRecord.orphaned_user {x : PortRecord} {o : Operation} {w : MapWrite} {g k : Word32} {l : Bool}
    (h : x.orphaned.op = some o) (u : o.user = .mapWrite w g k l) :
    l = false ∧ ∃ z b, x.op = some z ∧ z.user = .mapWrite w g k b ∧ z.suspended = o.suspended := by
  obtain ⟨z, hz, rfl⟩ := Option.map_eq_some_iff.1 h
  have u : z.user.orphaned = .mapWrite w g k l := u
  cases e : z.user with
  | mapWrite w1 g1 k1 b =>
    rw [e] at u
    cases u
    exact ⟨rfl, z, b, hz, e, rfl⟩
  | _ => rw [e] at u; cases u

theorem PortRecord.orphaned_not_live (x : PortRecord) : ¬ x.orphaned.live := by
  rintro ⟨o, w, g, k, e, u⟩
  cases (PortRecord.orphaned_user e u).1

/-- A record whose map write is orphaned fits any Map Store with the same active map that awaits no less. -/
theorem PortRecord.fits.orphaned {x : PortRecord} {m n : MapStore} {p : Port} (h : x.fits m p) (ha : n.active = m.active)
    (hw : m.awaitsFinal p → n.awaitsFinal p) (hs : ∀ o w g k, x.op = some o → o.user = .mapWrite w g k true → w.state = .final → o.suspended = true) :
    x.orphaned.fits n p := by
  obtain ⟨k1, k2, k3, k4, k5⟩ := h
  refine ⟨fun e => ?_, fun e => ?_, k3, k4, fun o e w g k l u => ?_⟩
  · show x.op.map _ = none
    rw [k1 e]
    rfl
  · rw [ha]
    exact (k2 e).imp id hw
  · obtain ⟨rfl, z, b, hz, hu, hsus⟩ := PortRecord.orphaned_user e u
    intro f
    rw [← hsus]
    cases b with
    | true => exact hs z w g k hz hu f
    | false => exact k5 z hz w g k false hu f

/-- A commit whose FINAL writes are over and whose targets await none may end (R154). -/
theorem State.portsFit.orphanAll {s : State} (h : s.portsFit none) 
    (hl : ∀ c, s.mapStore.commit = some c → (c.phase = .final → ∀ x ∈ c.targets, ¬ (s.port x.port).live) ∧
      (c.pointReached = true → ∀ x ∈ c.targets, x.stage ≠ .tentativeWritten)) :
    ((allPorts.foldl (fun acc p => orphanWrite p acc) s).setCommit none).portsFit none := by
  have hP : ∀ q, ((allPorts.foldl (fun acc p => orphanWrite p acc) s).setCommit none).port q = (s.port q).orphaned := fun q => by
    refine (orphanWrites_at allPorts (by decide) q s).trans ?_
    rw [if_pos (mem_allPorts q)]
  have hM : ((allPorts.foldl (fun acc p => orphanWrite p acc) s).setCommit none).mapStore = { s.mapStore with commit := none } := by
    show { (allPorts.foldl (fun acc p => orphanWrite p acc) s).mapStore with commit := none } = _
    rw [orphanWrites_maps]
  unfold State.portsFit
  rw [hM]
  refine ⟨h.1, fun q => ?_, fun c hc => by cases hc⟩
  rw [hP]
  refine (h.2.1 q).orphaned rfl (fun ⟨c, hc, hp, x, hx, _, hs⟩ => absurd hs ((hl c hc).2 hp x hx)) (fun o w g k e u f => ?_)
  obtain ⟨c, hc, ⟨x, hx, hxp⟩, _, _, hw⟩ := (h.2.1 q).2.2.2.2 o e w g k true u
  rw [f] at hw
  exact absurd ⟨o, w, g, k, hxp ▸ e, u⟩ ((hl c hc).1 hw x hx)

theorem classFor_pooled {m : Map} {n : Option (Word32 × Word32)} (h : classFor m n = .pooled) :
    n = some (m.generation, m.pool) := by
  unfold classFor at h
  split at h
  · cases h
  · repeat' split at h
    all_goals first
      | cases h; done
      | simp_all

theorem classFor_notEmpty (m : Map) (n : Option (Word32 × Word32)) : classFor m n ≠ .empty := by
  unfold classFor
  repeat' split
  all_goals intro h; cases h

theorem classify_maps (p : Port) (s : State) : (classify p s).mapStore = s.mapStore ∧
    ∀ q, (classify p s).port q = match (s.port p).probe with
      | none => s.port q
      | some pr => if q = p then { s.port p with
          cls := classFor s.mapStore.active (pr.newest.map (fun m => (m.generation, m.pool)))
          probe := none
          member := some ⟨pr.capacity, pr.identity, pr.newest.map (fun m => (m.generation, m.pool))⟩ } else s.port q := by
  unfold classify
  cases (s.port p).probe with
  | none => exact ⟨rfl, fun _ => rfl⟩
  | some pr =>
    dsimp only
    obtain ⟨m, e⟩ := setClass_eq p (classFor s.mapStore.active (pr.newest.map (fun m => (m.generation, m.pool)))) (s.setPort p { s.port p with
      probe := none, member := some ⟨pr.capacity, pr.identity, pr.newest.map (fun m => (m.generation, m.pool))⟩ })
    refine ⟨?_, fun q => ?_⟩
    · refine ((calm_endOfProbeCheck p _).mapStore.trans (calm_raisePort _ _ _ _).mapStore).trans ?_
      rw [e]
      rfl
    · refine (((calm_endOfProbeCheck p _).port q).trans ((calm_raisePort _ _ _ _).port q)).trans ?_
      rw [setClass_port, State.port_setPort, State.port_setPort, if_pos rfl]
      split <;> rfl

theorem State.portsFit.classified {s : State} (h : s.portsFit none) (p : Port) : (classify p s).portsFit none := by
  obtain ⟨hm, hp⟩ := classify_maps p s
  cases e : (s.port p).probe with
  | none =>
    rw [e] at hp
    exact h.of_same hp hm
  | some pr =>
    rw [e] at hp
    have K := (h.2.1 p).2.2.2.1 pr e
    refine State.portsFit.of_same (h.setPort p { s.port p with
      cls := classFor s.mapStore.active (pr.newest.map (fun m => (m.generation, m.pool)))
      probe := none
      member := some ⟨pr.capacity, pr.identity, pr.newest.map (fun m => (m.generation, m.pool))⟩ } ?_ (fun k => k) ?_) 
      (fun q => by rw [hp q, State.port_setPort]) hm
    · refine ⟨fun z => absurd z (classFor_notEmpty _ _), fun z => .inl ⟨_, rfl, classFor_pooled z⟩, fun _ => rfl, ?_, (h.2.1 p).2.2.2.2⟩
      intro pr z
      cases z
    · intro c y hc hy ey _
      exact absurd ey (h.untargeted (by rw [K.1]; rfl) c hc y hy)

theorem PortsGood.classified {s : State} (h : PortsGood s) (p : Port) (hr : s.mapStore.ready = true) : PortsGood (classify p s) :=
  ⟨h.1.classified p, fun e => by rw [(classify_maps p s).1, hr] at e; cases e⟩

theorem State.portsFit.held {s : State} (h : s.portsFit none) :
    (classifyHeld s).portsFit none ∧ (classifyHeld s).mapStore = s.mapStore := by
  have walk : ∀ (l : List Port) (v : State), v.portsFit none →
      (l.foldl (fun acc p => if acc.holdsFindings p then classify p acc else acc) v).portsFit none ∧
      (l.foldl (fun acc p => if acc.holdsFindings p then classify p acc else acc) v).mapStore = v.mapStore := by
    intro l
    induction l with
    | nil => exact fun v k => ⟨k, rfl⟩
    | cons p l ih =>
      intro v k
      rw [List.foldl_cons]
      split
      · obtain ⟨a, b⟩ := ih _ (k.classified p)
        exact ⟨a, b.trans (classify_maps p v).1⟩
      · exact ih v k
  exact walk allPorts s h

theorem State.portsFit.ended {s : State} (h : s.portsFit none) (r : CommitResult)
    (hl : ∀ c, s.mapStore.commit = some c → (c.phase = .final → ∀ x ∈ c.targets, ¬ (s.port x.port).live) ∧
      (c.pointReached = true → ∀ x ∈ c.targets, x.stage ≠ .tentativeWritten)) : (endCommit r s).portsFit none := by
  unfold endCommit
  split
  · exact h
  next c hc =>
    have C := calm_raiseSingle .commitDone (.commit r (classifyHeld ((allPorts.foldl (fun acc p => orphanWrite p acc) s).setCommit
      none)).mapStore.active.generation c.written c.failed) (classifyHeld ((allPorts.foldl (fun acc p => orphanWrite p acc) s).setCommit none))
    exact (h.orphanAll hl).held.1.of_same C.port C.mapStore

/-- No rewrite is asked or in flight: no target is live. -/
theorem State.portsFit.next {s : State} (h : s.portsFit none)
    (hf : ∀ c, s.mapStore.commit = some c → c.phase = .final) : (finalNext s).portsFit none := by
  unfold finalNext
  split
  · exact h
  next c hc =>
    split
    · exact h
    next idle =>
      have idle : ∀ x ∈ c.targets, x.ask = none ∧ ¬ (s.port x.port).live := fun x hx => by
        simp only [List.any_eq_true, Bool.or_eq_true, not_exists, not_and, not_or] at idle
        have := idle x hx
        exact ⟨by simpa using this.1, fun k => this.2 ((liveWrite_iff s x.port).2 k)⟩
      obtain ⟨e1, e2, e3, e4⟩ := h.2.2 c hc
      split
      next x hx =>
        have hm := List.mem_of_find?_eq_some hx
        have hst : x.stage = .tentativeWritten := by simpa using List.find?_some hx
        refine h.rewrite hc (d := c.setTarget { x with ask := some ⟨.final, copySlot c.generation⟩ }) rfl rfl
          (by rw [Commit.setTarget_ports]; exact e2) (fun z => (e3 z).1) (fun p _ _ ⟨y, hy, hyp, hys⟩ => ?_)
          (fun p o w g k _ _ ⟨y, hy, hyp⟩ hw => ?_) (fun y hy => ?_)
        · obtain ⟨z, hz, zp, zy⟩ := c.in_setTarget { x with ask := some ⟨.final, copySlot c.generation⟩ } hy
          refine .inr ⟨z, hz, zp.trans hyp, ?_⟩
          rcases Commit.mem_setTarget hz with e | ⟨_, n⟩
          · rw [e]; exact hst
          · rw [zy (zp ▸ n)]; exact hys
        · obtain ⟨z, hz, zp, _⟩ := c.in_setTarget { x with ask := some ⟨.final, copySlot c.generation⟩ } hy
          exact ⟨⟨z, hz, zp.trans hyp⟩, hw.phase rfl⟩
        · rcases Commit.mem_setTarget hy with e | ⟨hy', _⟩
          · subst e
            obtain ⟨⟨f1, f2, f3, f4⟩, g⟩ := e4 x hm
            refine ⟨⟨fun w hw => ?_, fun _ => .inl (hf c hc), f3, f4⟩, g⟩
            cases hw
            exact ⟨hf c hc, (idle x hm).2⟩
          · exact ⟨(e4 y hy').1.phase rfl rfl, (e4 y hy').2⟩
      next hn =>
        refine h.ended _ (fun d hd => ?_)
        rw [hc] at hd
        cases hd
        refine ⟨fun _ x hx => (idle x hx).2, fun _ x hx e => ?_⟩
        have := List.find?_eq_none.1 hn x hx
        simp [e] at this

/-- The phase of a commit whose targets are all written TENTATIVE becomes FINAL (R148). -/
theorem State.portsFit.test {s : State} (h : s.portsFit none)
    (hf : ∀ c, s.mapStore.commit = some c → c.phase = .tentative) : (tentativeTest s).portsFit none := by
  unfold tentativeTest
  split
  · exact h
  next c hc =>
    split
    next ht =>
      simp only [Bool.and_eq_true, List.all_eq_true, decide_eq_true_eq] at ht
      obtain ⟨e1, e2, e3, e4⟩ := h.2.2 c hc
      have rest : ∀ x ∈ c.targets, x.ask = none ∧ ¬ (s.port x.port).live := fun x hx =>
        (((e4 x hx).1.2.1 (ht.2 x hx)).resolve_left (by rw [hf c hc]; simp)).2
      refine State.portsFit.next (h.rewrite hc (d := { c with phase := .final }) rfl rfl e2 (fun _ => rfl)
        (fun p _ _ z => .inr z) (fun p o w g k e u ⟨y, hy, hyp⟩ _ => ?_) (fun x hx => ?_)) (fun d hd => by cases hd; rfl)
      · exact absurd ⟨o, w, g, k, hyp ▸ e, u⟩ (rest y hy).2
      · obtain ⟨⟨f1, f2, f3, f4⟩, g⟩ := e4 x hx
        refine ⟨⟨fun w hw => ?_, fun _ => .inl rfl, fun z => ?_, f4⟩, g⟩
        · rw [(rest x hx).1] at hw
          cases hw
        · rw [ht.2 x hx] at z
          cases z
    · exact h

/-- During a commit start-up is over. -/
theorem State.startsClear.keep {s t : State} (h : s.startsClear) {c : Commit} (hc : s.mapStore.commit = some c)
    (hr : t.mapStore.ready = s.mapStore.ready) : t.startsClear := by
  intro e
  rw [hr] at e
  rw [(h e).1] at hc
  cases hc

/-- An operation in flight on the port is suspended. -/
def PortRecord.rests (x : PortRecord) : Prop := ∀ o, x.op = some o → o.suspended = true

theorem State.portsFit.orphan {s : State} {q : Option Port} (h : s.portsFit q) (p : Port) (hs : (s.port p).rests) :
    (orphanWrite p s).portsFit q := by
  refine State.portsFit.of_same (h.setPort p (s.port p).orphaned ((h.2.1 p).orphaned rfl id (fun o w g k e _ _ => hs o e))
    (fun k => absurd k (PortRecord.orphaned_not_live _)) (fun c y hc hy e n => ?_)) (fun r => ?_) (orphanWrite_maps p s)
  · have := ((h.2.2 c hc).2.2.2 y hy).2 (e ▸ n)
    rw [e] at this
    exact this
  · rw [orphanWrite_at, State.port_setPort]

theorem orphanWrite_setCommit (p : Port) (s : State) (c : Option Commit) :
    orphanWrite p (s.setCommit c) = (orphanWrite p s).setCommit c := by
  unfold orphanWrite
  rw [State.setCommit_port]
  repeat' split
  all_goals rfl

/-- The target `p` is dropped, whose port has left the classes of a target (R147). -/
theorem State.portsFit.drop {s : State} {p : Port} {c : Commit} (h : s.portsFit (some p)) (hc : s.mapStore.commit = some c)
    (hs : (s.port p).rests) (hk : (s.port p).cls.targetable = false) (failed : List Port) :
    (orphanWrite p (s.setCommit (some { c with targets := c.targets.filter (fun x => x.port ≠ p), failed := failed }))).portsFit none := by
  rw [orphanWrite_setCommit]
  have h1 := h.orphan p hs
  have hc1 : (orphanWrite p s).mapStore.commit = some c := by rw [orphanWrite_maps]; exact hc
  obtain ⟨e1, e2, e3, e4⟩ := h1.2.2 c hc1
  have mem : ∀ x, x ∈ c.targets.filter (fun x => x.port ≠ p) ↔ x ∈ c.targets ∧ x.port ≠ p := fun x => by
    rw [List.mem_filter]
    simp
  refine h1.rewrite hc1 rfl rfl (e2.sublist (List.filter_sublist.map _)) (fun z => (e3 z).1) (fun r hr hp ⟨x, hx, xr, xs⟩ => ?_)
    (fun r o w g k e u ⟨x, hx, xr⟩ hw => ?_) (fun x hx => ?_)
  · by_cases e : r = p
    · subst e
      rw [orphanWrite_at, if_pos rfl] at hr
      have hr : (s.port r).cls = .pooled := hr
      rw [hr] at hk
      cases hk
    · exact .inr ⟨x, (mem x).2 ⟨hx, xr ▸ e⟩, xr, xs⟩
  · by_cases er : r = p
    · subst er
      rw [orphanWrite_at, if_pos rfl] at e
      exact absurd ⟨o, w, g, k, e, u⟩ (PortRecord.orphaned_not_live _)
    · exact ⟨⟨x, (mem x).2 ⟨hx, xr ▸ er⟩, xr⟩, hw.phase rfl⟩
  · obtain ⟨a, b⟩ := (mem x).1 hx
    exact ⟨(e4 x a).1.phase rfl rfl, fun _ => (e4 x a).2 (by simpa using b)⟩

theorem State.portsFit.dropped {s : State} {p : Port} (h : s.portsFit (some p)) (hs : (s.port p).rests)
    (hk : (s.port p).cls.targetable = false) (f b : Bool) : (dropTarget p f b s).portsFit none := by
  unfold dropTarget
  split
  next hc => exact h.close (fun c e => by rw [hc] at e; cases e)
  next c hc =>
    split
    next ht =>
      have K := h.drop hc hs hk (if f then setInsert p c.failed else c.failed)
      have hc1 : ∀ d, (orphanWrite p (s.setCommit (some { c with
          targets := c.targets.filter (fun x => x.port ≠ p), failed := if f then setInsert p c.failed else c.failed }))).mapStore.commit = some d →
          d = { c with targets := c.targets.filter (fun x => x.port ≠ p), failed := if f then setInsert p c.failed else c.failed } := fun d hd => by
        rw [orphanWrite_maps] at hd
        exact (Option.some.inj hd).symm
      dsimp only
      split
      · exact K
      · split
        next hr =>
          refine K.ended _ (fun d hd => ?_)
          rw [hc1 d hd]
          simp only [Bool.and_eq_true, List.isEmpty_iff] at hr
          refine ⟨fun _ x hx => ?_, fun _ x hx => ?_⟩
          all_goals
            have hx : x ∈ c.targets.filter (fun x => x.port ≠ p) := hx
            rw [hr.2] at hx
            cases hx
        · split
          · exact K
          next hp => exact K.test (fun d hd => by rw [hc1 d hd]; exact hp)
          next hp => exact K.next (fun d hd => by rw [hc1 d hd]; exact hp)
    next ht =>
      refine h.close (fun d hd x hx e => ht ?_)
      rw [hc] at hd
      cases hd
      exact isTarget_true hx e

/-- A TENTATIVE map write of target `p` succeeded (R148). -/
theorem State.portsFit.wroteTentative {s : State} {p : Port} (h : s.portsFit none) (hop : (s.port p).op = none)
    (hc : ∀ c, s.mapStore.commit = some c → c.phase = .tentative ∧
      ∀ x ∈ c.targets, x.port = p → x.ask = none ∧ x.stage ≠ .tentativeWritten) :
    (tentativeWritten p s).portsFit none := by
  unfold tentativeWritten
  split
  · exact h
  next c e =>
    split
    · exact h
    next x hx =>
      have hm := List.mem_of_find?_eq_some hx
      have hp : x.port = p := by simpa using List.find?_some hx
      obtain ⟨e1, e2, e3, e4⟩ := h.2.2 c e
      have free : ¬ (s.port x.port).live := PortRecord.not_live (by rw [hp]; exact hop)
      obtain ⟨⟨f1, f2, f3, f4⟩, g⟩ := e4 x hm
      obtain ⟨c1, c2⟩ := hc c e
      dsimp only
      generalize hn : (if 0 < x.owed - 1 then
          ({ x with owed := x.owed - 1, ask := some ⟨.tentative, 1 - copySlot c.generation⟩ } : Target)
        else { x with owed := 0, stage := .tentativeWritten }) = n
      have hnp : n.port = x.port := by rw [← hn]; split <;> rfl
      have nf : n.fits (s.port n.port) (c.setTarget n) := by
        rw [hnp]
        rw [← hn]
        split
        · refine ⟨fun w hw => ?_, fun u => ?_, f3, f4⟩
          · cases hw
            exact ⟨c1, free⟩
          · exact absurd u (c2 x hm hp).2
        · refine ⟨fun w hw => ?_, fun _ => .inr ⟨c1, (c2 x hm hp).1, free⟩, (fun z => by cases z), fun z => by cases z⟩
          rw [show ({ x with owed := 0, stage := .tentativeWritten } : Target).ask = none from (c2 x hm hp).1] at hw
          cases hw
      refine State.portsFit.test (h.rewrite e (d := c.setTarget n) rfl rfl (by rw [Commit.setTarget_ports]; exact e2)
        (fun z => (e3 z).1) (fun r _ _ ⟨y, hy, hyp, hys⟩ => ?_) (fun r o w g k _ _ ⟨y, hy, hyp⟩ hw => ?_) (fun y hy => ?_))
        (fun d hd => by cases hd; exact c1)
      · obtain ⟨z, hz, zp, zy⟩ := c.in_setTarget n hy
        refine .inr ⟨z, hz, zp.trans hyp, ?_⟩
        rcases Commit.mem_setTarget hz with k | ⟨_, k⟩
        · exact absurd hys (c2 y hy (zp.symm.trans ((congrArg Target.port k).trans (hnp.trans hp)))).2
        · rw [zy (zp ▸ k)]; exact hys
      · obtain ⟨z, hz, zp, _⟩ := c.in_setTarget n hy
        exact ⟨⟨z, hz, zp.trans hyp⟩, hw.phase rfl⟩
      · rcases Commit.mem_setTarget hy with k | ⟨hy', _⟩
        · rw [k]
          exact ⟨nf, hnp ▸ g⟩
        · exact ⟨(e4 y hy').1.phase rfl rfl, (e4 y hy').2⟩

/-! ## Quiesce and the start of a map write -/

/-- In QUIESCE no map write is told to a target. -/
theorem State.portsFit.quiet {s : State} {q : Option Port} (h : s.portsFit q) {c : Commit} (hc : s.mapStore.commit = some c)
    {m : Nat} (hm : c.phase = .quiesce m) (p : Port) : ¬ (s.port p).live := by
  rintro ⟨o, w, g, k, e, u⟩
  obtain ⟨d, hd, _, _, _, f⟩ := (h.2.1 p).2.2.2.2 o e w g k true u
  rw [hc] at hd
  cases hd
  unfold Commit.writes at f
  cases z : w.state <;> (rw [z] at f; rw [hm] at f; cases f)

theorem State.portsFit.asks {s : State} (h : s.portsFit none) : (evalQuiesce s).portsFit none := by
  unfold evalQuiesce
  split
  · exact h
  next c hc =>
    split
    next m hm =>
      split
      · obtain ⟨e1, e2, e3, e4⟩ := h.2.2 c hc
        have hr : ¬ c.pointReached = true := fun z => by
          have := (e3 z).1
          rw [hm] at this
          cases this
        refine h.rewrite hc (d := { c with phase := .tentative, targets := _ }) rfl rfl ?_ (fun z => absurd z hr)
          (fun _ _ z => absurd z hr) (fun p o w g k e u _ _ => absurd ⟨o, w, g, k, e, u⟩ (h.quiet hc hm p)) (fun x hx => ?_)
        · rw [List.map_map]
          exact e2
        · obtain ⟨y, hy, rfl⟩ := List.mem_map.1 hx
          obtain ⟨⟨f1, f2, f3, f4⟩, g⟩ := e4 y hy
          refine ⟨⟨fun w hw => ?_, fun z => ?_, (fun _ z => by cases z), f4⟩, g⟩
          · cases hw
            exact ⟨rfl, h.quiet hc hm _⟩
          · have := f2 z
            rw [hm] at this
            rcases this with this | this
            · cases this
            · cases this.1
      · exact h
    · exact h
    · exact h

/-- The map write that target `p` asked starts (R118, R148, R150). -/
theorem State.portsFit.starts {s : State} (h : s.portsFit none) {p : Port} {w : MapWrite} (hu : s.mapWriteUser p = some (.mapWrite w)) :
    (startMapWrite p w s).portsFit none := by
  unfold State.mapWriteUser at hu
  unfold startMapWrite
  split
  · exact h
  next c hc =>
    rw [hc] at hu
    dsimp only at hu
    split at hu
    · obtain ⟨x, hx, hxa⟩ := Option.bind_eq_some_iff.1 hu
      obtain ⟨v, hv, e⟩ := Option.map_eq_some_iff.1 hxa
      cases e
      have hm := List.mem_of_find?_eq_some hx
      have hp : x.port = p := by simpa using List.find?_some hx
      obtain ⟨e1, e2, e3, e4⟩ := h.2.2 c hc
      obtain ⟨⟨f1, f2, f3, f4⟩, g⟩ := e4 x hm
      have hph := (f1 w hv).1
      have hcl : (s.port p).cls.targetable = true := hp ▸ g (by simp)
      dsimp only
      generalize hT : c.targets.map (fun x => if x.port = p then { x with ask := none } else x) = T
      have mem : ∀ y ∈ T, (y.port = p ∧ ∃ z ∈ c.targets, z.port = p ∧ y = { z with ask := none }) ∨ (y.port ≠ p ∧ y ∈ c.targets) := by
        intro y hy
        rw [← hT] at hy
        obtain ⟨z, hz, rfl⟩ := List.mem_map.1 hy
        split
        next k => exact .inl ⟨k, z, hz, k, rfl⟩
        next k => exact .inr ⟨k, hz⟩
      have hpt : ∀ y ∈ c.targets, ∃ z ∈ T, z.port = y.port ∧ z.stage = y.stage := by
        intro y hy
        refine ⟨_, by rw [← hT]; exact List.mem_map_of_mem hy, ?_, ?_⟩
        all_goals split <;> rfl
      have hnd : (T.map (·.port)).Nodup := by
        rw [← hT, List.map_map]
        refine Eq.mp ?_ e2
        congr 1
        refine List.map_congr_left (fun y _ => ?_)
        show y.port = (if y.port = p then { y with ask := none } else y : Target).port
        split <;> rfl
      have h1 : (s.setCommit (some { c with targets := T })).portsFit none := by
        refine h.rewrite hc rfl rfl hnd (fun z => (e3 z).1) (fun r _ _ ⟨y, hy, hyp, hys⟩ => ?_)
          (fun r o w g k _ _ ⟨y, hy, hyp⟩ hw => ?_) (fun y hy => ?_)
        · obtain ⟨z, hz, zp, zs⟩ := hpt y hy
          exact .inr ⟨z, hz, zp.trans hyp, zs.trans hys⟩
        · obtain ⟨z, hz, zp, _⟩ := hpt y hy
          exact ⟨⟨z, hz, zp.trans hyp⟩, hw.phase rfl⟩
        · rcases mem y hy with ⟨k, z, hz, hzp, rfl⟩ | ⟨k, hy'⟩
          · obtain ⟨⟨f1, f2, f3, f4⟩, g⟩ := e4 z hz
            exact ⟨⟨(fun w hw => by cases hw), fun u => (f2 u).imp_right (fun v => ⟨v.1, rfl, v.2.2⟩), f3, f4⟩, g⟩
          · exact ⟨(e4 y hy').1.phase rfl rfl, (e4 y hy').2⟩
      obtain ⟨i1, i2, i3⟩ := h1
      obtain ⟨j1, j2, j3, j4⟩ := i3 _ rfl
      refine ⟨i1, fun r => ?_, fun d hd => ?_⟩
      · show ((State.setPort _ p _).port r).fits _ r
        rw [State.port_setPort]
        split
        next er =>
          obtain ⟨k1, k2, k3, k4, k5⟩ := i2 p
          rw [er]
          refine ⟨fun z => ?_, k2, k3, k4, fun o eo => ?_⟩
          · have z : (s.port p).cls = .empty := z
            rw [z] at hcl
            cases hcl
          · cases eo
            intro w2 g2 k2 l2 u2
            cases u2
            obtain ⟨z, hz, zp, _⟩ := hpt x hm
            exact ⟨_, rfl, ⟨z, hz, zp.trans hp⟩, rfl, rfl, hph.phase rfl⟩
        · exact i2 r
      · cases hd
        refine ⟨j1, j2, j3, fun y hy => ?_⟩
        show y.fits ((State.setPort _ p _).port y.port) _ ∧ (_ → ((State.setPort _ p _).port y.port).cls.targetable = true)
        rw [State.port_setPort]
        rcases mem y hy with ⟨k, z, hz, hzp, rfl⟩ | ⟨k, hy'⟩
        · rw [if_pos k]
          have ez := same_target e2 hz hm (hzp.trans hp.symm)
          refine ⟨⟨(fun w hw => by cases hw), fun u => .inl ?_, (j4 _ hy).1.2.2.1, (j4 _ hy).1.2.2.2⟩, fun _ => hcl⟩
          rw [ez] at u
          rcases f2 u with v | v
          · exact v
          · rw [hv] at v
            cases v.2.1
        · rw [if_neg k]
          exact j4 y hy
    · cases hu

/-! ## The commit point and adoption -/

/-- What the reclassification of port `q` leaves (R105, R151, step 4). -/
theorem reclassify_spec (q : Port) (s : State) {c : Commit} (hc : s.mapStore.commit = some c) :
    (∃ v m n, reclassify q s = { s with ports := v, notices := n, power := { s.power with marks := m } }) ∧
    (∀ p, p ≠ q ∨ c.isTarget q = true ∨ (s.port q).cls.targetable = false → (reclassify q s).port p = s.port p) ∧
    (c.isTarget q = false → (s.port q).cls.targetable = true → (reclassify q s).port q =
      { s.port q with cls := s.mapStore.active.classOf ((s.port q).member.bind (·.newest)) }) ∧
    ∀ k, k ≠ ⟨.portAttached, some q⟩ ∨ c.isTarget q = true → (reclassify q s).notice k = s.notice k := by
  unfold reclassify
  rw [hc]
  dsimp only
  by_cases h : (c.isTarget q || !(s.port q).cls.targetable) = true
  · rw [if_pos h]
    refine ⟨⟨s.ports, s.power.marks, s.notices, rfl⟩, fun _ _ => rfl, fun a b => ?_, fun _ _ => rfl⟩
    rw [a, b] at h
    cases h
  · rw [if_neg h]
    simp only [Bool.or_eq_true, Bool.not_eq_true', not_or, Bool.not_eq_false, Bool.not_eq_true] at h
    generalize hk : classFor s.mapStore.active ((s.port q).member.bind (·.newest)) = k
    rw [classFor_eq] at hk
    by_cases e : (s.port q).cls = k
    · rw [if_pos e]
      refine ⟨⟨s.ports, s.power.marks, s.notices, rfl⟩, fun _ _ => rfl, fun _ _ => ?_, fun _ _ => rfl⟩
      rw [hk, ← e]
    · rw [if_neg e]
      obtain ⟨m, em⟩ := setClass_eq q k s
      obtain ⟨n, en⟩ := raise_eq ⟨.portAttached, some q⟩ (.portClass k) (setClass q k s)
      have N := fun j => raise_notice ⟨.portAttached, some q⟩ j (.portClass k) (setClass q k s)
      refine ⟨⟨s.ports.set q { s.port q with cls := k }, m, n, ?_⟩, fun p hp => ?_, fun _ _ => ?_, fun j hj => ?_⟩
      · refine Eq.trans en ?_
        rw [em]
      · refine ((calm_raisePort _ _ _ _).port p).trans ?_
        rw [setClass_port, if_neg]
        rintro rfl
        rcases hp with hp | hp | hp
        · exact hp rfl
        · rw [h.1] at hp; cases hp
        · rw [h.2] at hp; cases hp
      · refine ((calm_raisePort _ _ _ _).port q).trans ?_
        rw [setClass_self, hk]
      · refine (N j).trans ?_
        rw [if_neg (hj.resolve_right (by rw [h.1]; simp)), em]
        rfl

/-- What the walk of reclassifications leaves. -/
theorem reclassifies_spec (l : List Port) (hl : l.Nodup) (s : State) {c : Commit} (hc : s.mapStore.commit = some c) :
    (∃ v m n, l.foldl (fun acc q => reclassify q acc) s = { s with ports := v, notices := n, power := { s.power with marks := m } }) ∧
    (∀ p, p ∉ l ∨ c.isTarget p = true ∨ (s.port p).cls.targetable = false →
      (l.foldl (fun acc q => reclassify q acc) s).port p = s.port p) ∧
    (∀ p, p ∈ l → c.isTarget p = false → (s.port p).cls.targetable = true →
      (l.foldl (fun acc q => reclassify q acc) s).port p =
        { s.port p with cls := s.mapStore.active.classOf ((s.port p).member.bind (·.newest)) }) ∧
    ∀ k, (∀ q, c.isTarget q = false → k ≠ ⟨.portAttached, some q⟩) →
      (l.foldl (fun acc q => reclassify q acc) s).notice k = s.notice k := by
  induction l generalizing s with
  | nil => exact ⟨⟨s.ports, s.power.marks, s.notices, rfl⟩, fun _ _ => rfl, fun p h _ _ => absurd h (by simp), fun _ _ => rfl⟩
  | cons q l ih =>
    rw [List.nodup_cons] at hl
    obtain ⟨⟨v, m, n, e⟩, a, b, d⟩ := reclassify_spec q s hc
    rw [List.foldl_cons]
    have ec : (reclassify q s).mapStore = s.mapStore := by rw [e]
    obtain ⟨⟨v2, m2, n2, e2⟩, a2, b2, d2⟩ := ih hl.2 (reclassify q s) (by rw [ec]; exact hc)
    refine ⟨⟨v2, m2, n2, by rw [e2, e]⟩, fun p hp => ?_, fun p hp h1 h2 => ?_, fun k hk => ?_⟩
    · have : (reclassify q s).port p = s.port p := by
        refine a p ?_
        by_cases h : p = q
        · subst h
          exact .inr (hp.resolve_left (fun z => z (List.mem_cons_self ..)))
        · exact .inl h
      rw [a2 p (hp.elim (fun z => .inl (fun y => z (List.mem_cons_of_mem _ y))) (fun z => .inr (by rw [this]; exact z))), this]
    · rcases List.mem_cons.1 hp with rfl | h
      · rw [a2 p (.inl hl.1), b h1 h2]
      · have : (reclassify q s).port p = s.port p := a p (.inl (fun z => hl.1 (z ▸ h)))
        rw [b2 p h h1 (by rw [this]; exact h2), this, ec]
    · rw [d2 k hk, d k]
      cases h : c.isTarget q with
      | true => exact .inr rfl
      | false => exact .inl (hk q h)

/-- The Map Store at the commit point (R151, steps 1 and 2). -/
def MapStore.pointed (m : MapStore) (c : Commit) : MapStore :=
  { m with
    active := { m.draft with generation := c.generation }, draft := { m.draft with generation := c.generation }
    commit := some { c with pointReached := true } }

/-- The commit point, port by port. -/
theorem commitPoint_ports {s : State} {c : Commit} (hc : s.mapStore.commit = some c) :
    (commitPoint s).mapStore = s.mapStore.pointed c ∧
    (∀ p, c.isTarget p = true ∨ (s.port p).cls.targetable = false → (commitPoint s).port p = s.port p) ∧
    ∀ p, c.isTarget p = false → (s.port p).cls.targetable = true → (commitPoint s).port p =
      { s.port p with cls := (s.mapStore.pointed c).active.classOf ((s.port p).member.bind (·.newest)) } := by
  have e : commitPoint s = allPorts.foldl (fun acc p => reclassify p acc) (s.setMaps (s.mapStore.pointed c)) := by
    unfold commitPoint
    rw [hc]
    rfl
  obtain ⟨⟨v, m, n, e2⟩, a, b, _⟩ := reclassifies_spec allPorts (by decide) (s.setMaps (s.mapStore.pointed c))
    (c := { c with pointReached := true }) rfl
  rw [e]
  refine ⟨by rw [e2]; rfl, fun p hp => a p (.inr hp), fun p hp hq => b p (mem_allPorts p) hp hq⟩

theorem adopt_ports (p : Port) (s : State) : (adopt p s).mapStore = s.mapStore ∧
    ∀ q, (adopt p s).port q = if q = p then { s.port p with cls := .pooled } else s.port q := by
  unfold adopt
  split
  next h =>
    refine ⟨rfl, fun q => ?_⟩
    split
    next e => rw [e, ← h]
    · rfl
  · obtain ⟨m, e⟩ := setClass_eq p .pooled s
    refine ⟨(calm_raisePort _ _ _ _).mapStore.trans (by rw [e]), fun q => ?_⟩
    rw [(calm_raisePort _ _ _ _).port, setClass_port]

theorem Map.classOf_pooled {m : Map} {n : Option (Word32 × Word32)} (h : m.classOf n = .pooled) :
    n = some (m.generation, m.pool) := classFor_pooled ((classFor_eq m n).trans h)

theorem Map.classOf_notEmpty (m : Map) (n : Option (Word32 × Word32)) : m.classOf n ≠ .empty := by
  rw [← classFor_eq]
  exact classFor_notEmpty m n

/-- A FINAL map write of target `p` succeeded: its member record, the commit point if it is the first, and adoption; then
the next (R105, R150 to R152). -/
theorem State.portsFit.wroteFinal {s : State} (h : s.portsFit none) {p : Port} (hop : (s.port p).op = none) {g k : Word32}
    (hc : ∀ c, s.mapStore.commit = some c → c.phase = .final ∧ g = c.generation ∧ k = s.mapStore.draft.pool ∧
      ∃ x ∈ c.targets, x.port = p ∧ x.ask = none) (hn : s.mapStore.commit ≠ none) :
    (finalWritten p (recordFinal p g k s)).portsFit none := by
  cases hcs : s.mapStore.commit with
  | none => exact absurd hcs hn
  | some c =>
    obtain ⟨hph, hg, hk, x0, hx0, hxp, hxa⟩ := hc c hcs
    obtain ⟨hap, hfit, hcf⟩ := h
    obtain ⟨e1, e2, e3, e4⟩ := hcf c hcs
    have hcl : (s.port p).cls.targetable = true := hxp ▸ (e4 x0 hx0).2 (by simp)
    obtain ⟨mb, hmb⟩ := Option.isSome_iff_exists.1 ((hfit p).2.2.1 hcl)
    -- The Map Store and the ports once the target is adopted.
    have hR : recordFinal p g k s = s.setPort p { s.port p with member := some { mb with newest := some (g, k) } } := by
      unfold recordFinal
      rw [hmb]
    have tp : ∀ r, c.isTarget r = true ↔ ∃ x ∈ c.targets, x.port = r := fun r => by
      constructor
      · intro z
        obtain ⟨x, hx, e⟩ := List.any_eq_true.1 z
        exact ⟨x, hx, by simpa using e⟩
      · rintro ⟨x, hx, e⟩
        exact isTarget_true hx e
    have pt : c.isTarget p = true := (tp p).2 ⟨x0, hx0, hxp⟩
    generalize hA : adopt p (if c.pointReached then recordFinal p g k s else commitPoint (recordFinal p g k s)) = A
    have hM : (A.mapStore.active.apart ∧ A.mapStore.draft.apart ∧ A.mapStore.active.generation = g ∧ A.mapStore.active.pool = k ∧
          A.mapStore.draft.pool = k ∧ A.mapStore.commit = some { c with pointReached := true } ∧
          (c.pointReached = true → A.mapStore.active = s.mapStore.active)) ∧
        A.port p = { s.port p with cls := .pooled, member := some { mb with newest := some (g, k) } } ∧
        (∀ r, r ≠ p → c.isTarget r = true ∨ (s.port r).cls.targetable = false ∨ c.pointReached = true → A.port r = s.port r) ∧
        ∀ r, c.isTarget r = false → (s.port r).cls.targetable = true → c.pointReached = false → ∃ z, z = A.mapStore.active.classOf ((s.port r).member.bind (·.newest)) ∧ A.port r =
          { s.port r with cls := z } := by
      rw [← hA]
      cases hpr : c.pointReached with
      | true =>
        rw [if_pos rfl]
        obtain ⟨m1, m2⟩ := adopt_ports p (recordFinal p g k s)
        obtain ⟨x1, x2, x3⟩ := e3 hpr
        rw [hR] at m1 m2 ⊢
        refine ⟨?_, ?_, fun r hr _ => ?_, fun _ _ _ z => by cases z⟩
        · rw [m1]
          refine ⟨hap, e1, x2.symm.trans hg.symm, x3.symm.trans hk.symm, hk.symm, ?_, fun _ => rfl⟩
          refine hcs.trans (congrArg some ?_)
          rw [← hpr]
        · rw [m2, if_pos rfl, State.port_setPort, if_pos rfl]
        · rw [m2, if_neg hr, State.port_setPort, if_neg hr]
      | false =>
        rw [if_neg (by simp)]
        obtain ⟨m1, m2⟩ := adopt_ports p (commitPoint (recordFinal p g k s))
        rw [hR] at m1 m2 ⊢
        obtain ⟨n1, n2, n3⟩ := commitPoint_ports (s := s.setPort p { s.port p with member := some { mb with newest := some (g, k) } }) hcs
        refine ⟨?_, ?_, fun r hr ho => ?_, fun r ho hq _ => ?_⟩
        · rw [m1, n1]
          exact ⟨e1, e1, hg.symm, hk.symm, hk.symm, rfl, fun z => by cases z⟩
        · rw [m2, if_pos rfl, n2 p (.inl pt), State.port_setPort, if_pos rfl]
        · have hs : (s.setPort p { s.port p with member := some { mb with newest := some (g, k) } }).port r = s.port r := by
            rw [State.port_setPort, if_neg hr]
          rw [m2, if_neg hr, n2 r (by rw [hs]; exact ho.imp_right (fun z => z.resolve_right (by simp))), hs]
        · have hr : r ≠ p := fun z => by rw [z, pt] at ho; cases ho
          have hs : (s.setPort p { s.port p with member := some { mb with newest := some (g, k) } }).port r = s.port r := by
            rw [State.port_setPort, if_neg hr]
          refine ⟨_, rfl, ?_⟩
          rw [m2, if_neg hr, n3 r ho (by rw [hs]; exact hq), hs, m1, n1]
    obtain ⟨⟨a1, a2, a3, a4, a5, a6, a7⟩, b1, b2, b3⟩ := hM
    -- The target is FINAL_WRITTEN.
    unfold finalWritten
    rw [show (recordFinal p g k s).mapStore.commit = some c by rw [hR]; exact hcs]
    dsimp only
    rw [hA, a6]
    dsimp only
    split
    next hnone =>
      have := List.find?_eq_none.1 hnone x0 hx0
      simp [hxp] at this
    next x hx =>
      have hm : x ∈ c.targets := List.mem_of_find?_eq_some hx
      have hp : x.port = p := by simpa using List.find?_some hx
      have exx : x = x0 := same_target e2 hm hx0 (hp.trans hxp.symm)
      generalize hD : ({ { c with pointReached := true } with written := setInsert p c.written } : Commit).setTarget
        { x with stage := .finalWritten } = D
      have dph : D.phase = .final := by rw [← hD]; exact hph
      have dgen : D.generation = c.generation := by rw [← hD]; rfl
      have dpt : D.pointReached = true := by rw [← hD]; rfl
      have dnd : (D.targets.map (·.port)).Nodup := by
        rw [← hD, Commit.setTarget_ports]
        exact e2
      have dmem : ∀ y ∈ D.targets, y = { x with stage := .finalWritten } ∨ (y ∈ c.targets ∧ y.port ≠ p) := fun y hy => by
        rw [← hD] at hy
        exact (Commit.mem_setTarget hy).imp_right (fun z => ⟨z.1, fun q => z.2 (q.trans hp.symm)⟩)
      have din : ∀ y ∈ c.targets, ∃ z ∈ D.targets, z.port = y.port ∧ (y.port ≠ p → z = y) := fun y hy => by
        rw [← hD]
        obtain ⟨z, h1, h2, h3⟩ := Commit.in_setTarget ({ { c with pointReached := true } with written := setInsert p c.written } : Commit)
          { x with stage := .finalWritten } (y := y) hy
        exact ⟨z, h1, h2, fun q => h3 (fun w => q (w.trans hp))⟩
      refine State.portsFit.next ⟨a1, fun r => ?_, fun d hd => ?_⟩ (fun d hd => by cases hd; exact dph)
      · show (A.port r).fits { A.mapStore with commit := some D } r
        by_cases hr : r = p
        · rw [hr, b1]
          refine ⟨(fun z => by cases z), fun _ => .inl ⟨_, rfl, by rw [← a3, ← a4]⟩, fun _ => rfl, fun pr z => ?_, fun o z => ?_⟩
          · have := ((hfit p).2.2.2.1 pr z).1
            rw [this] at hcl
            cases hcl
          · rw [hop] at z
            cases z
        · obtain ⟨k1, k2, k3, k4, k5⟩ := hfit r
          have ops : ∀ o, (s.port r).op = some o → o.fits { A.mapStore with commit := some D } r := fun o eo w g2 k2 l u => by
            have F := k5 o eo w g2 k2 l u
            cases l with
            | false => exact F
            | true =>
              obtain ⟨d, hd, ⟨y, hy, hyr⟩, f2, f3, f4⟩ := F
              rw [hcs] at hd
              cases hd
              obtain ⟨z, hz, zp, _⟩ := din y hy
              exact ⟨D, rfl, ⟨z, hz, zp.trans hyr⟩, f2.trans dgen.symm, f3.trans (hk.symm.trans a5.symm), f4.phase (dph.trans hph.symm)⟩
          by_cases hq : c.isTarget r = false ∧ (s.port r).cls.targetable = true ∧ c.pointReached = false
          · obtain ⟨z, hz, ez⟩ := b3 r hq.1 hq.2.1 hq.2.2
            rw [ez]
            obtain ⟨y, hy⟩ := Option.isSome_iff_exists.1 (k3 hq.2.1)
            refine ⟨fun e => absurd (hz ▸ e) (Map.classOf_notEmpty _ _), fun e => .inl ⟨y, hy, ?_⟩, fun _ => k3 hq.2.1, fun pr e => ?_, ops⟩
            · have := Map.classOf_pooled (hz.symm.trans e)
              rw [hy] at this
              exact this
            · have := (k4 pr e).1
              rw [this] at hq
              cases hq.2.1
          · rw [b2 r hr (by
              rcases Bool.eq_false_or_eq_true (c.isTarget r) with z | z
              · exact .inl z
              · rcases Bool.eq_false_or_eq_true (s.port r).cls.targetable with v | v
                · rcases Bool.eq_false_or_eq_true c.pointReached with w | w
                  · exact .inr (.inr w)
                  · exact absurd ⟨z, v, w⟩ hq
                · exact .inr (.inl v))]
            refine ⟨k1, fun e => ?_, k3, k4, ops⟩
            cases hpr : c.pointReached with
            | true =>
              rcases k2 e with z | ⟨d, hd, _, y, hy, hyr, hys⟩
              · left
                show ∃ y : Member, _ ∧ y.newest = some (A.mapStore.active.generation, A.mapStore.active.pool)
                rw [a7 hpr]
                exact z
              · rw [hcs] at hd
                cases hd
                obtain ⟨z, hz, zp, zy⟩ := din y hy
                exact .inr ⟨D, rfl, dpt, z, hz, zp.trans hyr, by rw [zy (hyr ▸ hr)]; exact hys⟩
            | false =>
              have hT : c.isTarget r = true := by
                rcases Bool.eq_false_or_eq_true (c.isTarget r) with z | z
                · exact z
                · exact absurd ⟨z, by rw [e]; rfl, hpr⟩ hq
              obtain ⟨y, hy, hyr⟩ := (tp r).1 hT
              obtain ⟨z, hz, zp, zy⟩ := din y hy
              refine .inr ⟨D, rfl, dpt, z, hz, zp.trans hyr, ?_⟩
              rw [zy (hyr ▸ hr)]
              obtain ⟨⟨_, _, f3, f4⟩, _⟩ := e4 y hy
              cases hst : y.stage with
              | awaitingTentative => exact absurd hph (f3 hst)
              | tentativeWritten => rfl
              | finalWritten =>
                rw [hpr] at f4
                cases f4 hst
      · cases hd
        refine ⟨a2, dnd, fun _ => ⟨dph, dgen.trans (hg.symm.trans a3.symm), a5.trans a4.symm⟩, fun y hy => ?_⟩
        show y.fits (A.port y.port) D ∧ (_ → (A.port y.port).cls.targetable = true)
        rcases dmem y hy with rfl | ⟨hy', hyp⟩
        · show Target.fits _ (A.port x.port) D ∧ (_ → (A.port x.port).cls.targetable = true)
          rw [hp, b1]
          refine ⟨⟨fun w hw => ?_, (fun z => by cases z), (fun z => by cases z), fun _ => dpt⟩, fun _ => rfl⟩
          have hw : x.ask = some w := hw
          rw [exx, hxa] at hw
          cases hw
        · rw [b2 y.port hyp (.inl ((tp y.port).2 ⟨y, hy', rfl⟩))]
          obtain ⟨⟨f1, f2, f3, f4⟩, g⟩ := e4 y hy'
          exact ⟨⟨fun w hw => ⟨(f1 w hw).1.phase (dph.trans hph.symm), (f1 w hw).2⟩, fun _ => .inl dph,
            fun z => absurd hph (f3 z), fun _ => dpt⟩, g⟩

end Sys2Proof.Machine
end

