-- ==== Sys2Proof/Laws/PortSteps.lean ====
section
/-! SUPPORT. The laws of the ports and the Map Store (`PortsGood`) through every operation inside a step: the arbiter and
SLEEP, the class changes, the outcome of each operation, the commit and start-up (R5, R100, R152). -/

namespace Sys2Proof.Machine

/-! ## The arbiter and SLEEP -/

theorem PortsGood.calm {s t : State} (h : PortsGood s) (k : Calm s t) : PortsGood t := h.of_same k.port k.mapStore

theorem PortsGood.foldl {α : Type} (f : State → α → State) (h : ∀ s a, PortsGood s → PortsGood (f s a)) (l : List α) (s : State)
    (k : PortsGood s) : PortsGood (l.foldl f s) := by
  induction l generalizing s with
  | nil => exact k
  | cons a l ih => exact ih _ (h s a k)

theorem PortsGood.setMark {s : State} (h : PortsGood s) (p : Port) (m : SleepMark) : PortsGood (s.setMark p m) :=
  h.of_same (fun _ => rfl) rfl

/-- An operation that is no map write starts, on a port that is not EMPTY. -/
theorem PortsGood.startOp {s : State} (h : PortsGood s) (p : Port) (k : OpKind) (u : OpUser) (hc : (s.port p).cls ≠ .empty)
    (hu : ∀ w g b l, u ≠ .mapWrite w g b l) : PortsGood (startOp p k u s) :=
  h.alike p _ ⟨rfl, rfl, rfl, .inr (.inr ⟨hc, _, rfl, hu⟩)⟩

theorem PortsGood.askSleep {s : State} (h : PortsGood s) (p : Port) : PortsGood (askSleep p s) := by
  unfold Machine.askSleep
  split
  · exact h.setMark p _
  · split
    next k =>
      refine (h.startOp p .sleep .power (fun e => ?_) (fun _ _ _ _ => by simp)).setMark p _
      rw [e] at k
      cases k.2.2
    · exact h.setMark p _

theorem PortsGood.sleepAll {s : State} (h : PortsGood s) : PortsGood (sleepAll s) := by
  refine PortsGood.foldl _ (fun v p k => ?_) _ _ (h.of_same (t := s.clearMarks) (fun _ => rfl) rfl)
  split
  · exact k.askSleep p
  · exact k

theorem PortsGood.settle {s : State} (h : PortsGood s) : PortsGood (settle s) := by
  have k : PortsGood (restPorts s) := by
    refine PortsGood.foldl _ (fun v p k => ?_) _ _ h
    unfold restPort
    split
    · exact k.askSleep p
    · exact k
  unfold Machine.settle
  generalize restPorts s = v at k
  unfold evalIdle
  repeat' split
  all_goals exact k.of_same (fun _ => rfl) rfl

theorem PortsGood.settleStaging {s : State} (h : PortsGood s) : PortsGood (settleStaging s) := (h.calm (calm_evalPressure s)).settle

/-- A port that serves a fetch or a drain is POOLED. -/
theorem State.drainEligible_pooled {s : State} {p : Port} {i : SlotNo} (h : s.drainEligible p i = true) : (s.port p).cls = .pooled := by
  unfold State.drainEligible at h
  split at h
  next x m d _ =>
    simp only [Bool.and_eq_true] at h
    obtain ⟨⟨h1, h2⟩, _⟩ := h
    unfold State.liesOn at h1
    unfold State.available at h2
    split at h1
    next pl e =>
      rw [e] at h2
      have h2 : s.placeAvailable pl = true := h2
      unfold State.placeAvailable at h2
      simp only [Bool.and_eq_true, decide_eq_true_eq] at h1 h2
      rw [← h1]
      exact h2.1
    · cases h1
  all_goals cases h

/-- What a choice says of its port (R100, R118). -/
theorem State.chooseUser_port {s : State} {p : Port} {u : LaneUser} (h : s.chooseUser p = some u) :
    s.mapWriteUser p = some u ∨ ((s.port p).cls ≠ .empty ∧ ∀ w, u ≠ .mapWrite w) := by
  rcases State.chooseUser_cases h with k | k | ⟨b, k⟩ | ⟨i, rfl, k⟩
  · right
    unfold State.probeUser at k
    split at k
    next e =>
      refine ⟨by rw [e]; simp, fun w z => ?_⟩
      rw [z] at k
      repeat' split at k
      all_goals cases k
    · cases k
  · exact .inl k
  · right
    unfold State.fetchUser at k
    split at k
    next e =>
      refine ⟨by rw [e]; simp, fun w z => ?_⟩
      obtain ⟨t, _, k⟩ := Option.map_eq_some_iff.1 k
      rw [z] at k
      cases k
    · cases k
  · right
    exact ⟨by rw [State.drainEligible_pooled k]; simp, fun w z => by cases z⟩

/-- A user other than a map write takes the lane of a port that is not EMPTY. -/
theorem PortsGood.startUser {s : State} (h : PortsGood s) (p : Port) (u : LaneUser) (hc : (s.port p).cls ≠ .empty)
    (hu : ∀ w, u ≠ .mapWrite w) : PortsGood (startUser p u s) := by
  unfold Machine.startUser
  split
  · exact h.startOp p _ _ hc (fun _ _ _ _ => by simp)
  · exact h.startOp p _ _ hc (fun _ _ _ _ => by simp)
  · exact h.startOp p _ _ hc (fun _ _ _ _ => by simp)
  · exact h
  next w => exact absurd rfl (hu w)
  next t =>
    unfold startFetchOp
    repeat' split
    all_goals first
      | exact h
      | exact (h.calm (calm_setFetch _ _ s)).startOp p _ _ (by rw [(calm_setFetch _ _ s).port]; exact hc) (fun _ _ _ _ => by simp)
  next i =>
    unfold startDrain
    split
    next x m d _ =>
      split
      · exact (h.of_same (t := (s.setStaging i (.draining x m d)).setDrainOrder (setRemove i s.staging.drainOrder))
          (fun _ => rfl) rfl).startOp p _ (.drain i) hc (fun _ _ _ _ e => by cases e)
      · exact h
    all_goals exact h

theorem PortsGood.arbitrate {s : State} (h : PortsGood s) (p : Port) : PortsGood (arbitrate p s) := by
  unfold Machine.arbitrate
  split
  · exact h
  next u hu =>
    split
    · exact h
    next free =>
      have K := State.chooseUser_port hu
      split
      next hi =>
        have h1 : PortsGood (s.setPort p { s.port p with fairness := s.fairnessAfter p u }) := h.alike p _ ⟨rfl, rfl, rfl, .inl rfl⟩
        have cl : ((s.setPort p { s.port p with fairness := s.fairnessAfter p u }).port p).cls = (s.port p).cls := by
          rw [State.port_setPort, if_pos rfl]
        rcases K with k | ⟨k1, k2⟩
        · cases u with
          | mapWrite w =>
            refine ⟨h1.1.starts k, fun e => ?_⟩
            have z : (startMapWrite p w (s.setPort p { s.port p with fairness := s.fairnessAfter p (.mapWrite w) })).mapStore.ready
              = s.mapStore.ready := (near_startMapWrite p w _).ready
            rw [show Machine.startUser p (.mapWrite w) _ = startMapWrite p w _ from rfl, z] at e
            unfold State.mapWriteUser at k
            rw [(h.2 e).1] at k
            cases k
          | _ =>
            unfold State.mapWriteUser at k
            repeat' split at k
            all_goals simp [Option.bind_eq_some_iff] at k
        · exact h1.startUser p u (by rw [cl]; exact k1) k2
      next ha =>
        refine h.startOp p .wake .power (fun e => ?_) (fun _ _ _ _ => by simp)
        rcases K with k | ⟨k, _⟩
        · unfold State.mapWriteUser at k
          split at k
          · cases k
          next c hc =>
            split at k
            · obtain ⟨x, hx, _⟩ := Option.bind_eq_some_iff.1 k
              have hp : x.port = p := by simpa using List.find?_some hx
              have := ((h.1.2.2 c hc).2.2.2 x (List.mem_of_find?_eq_some hx)).2 (by simp)
              rw [hp, e] at this
              cases this
            · cases k
        · exact k e
      · exact h
      · exact h

/-! ## The end of an operation -/

theorem closeOp_port (p : Port) (k : OpKind) (e : Engine) (v : StatEvent) (n : Nat) (s : State) :
    (closeOp p k e v n s).port p = { s.port p with engine := e, op := none, stats := (s.port p).stats.after v n } := by
  unfold closeOp
  dsimp only
  split
  · rw [show ∀ x : State, (x.setMark p .clear).port p = x.port p from fun _ => rfl, State.port_setPort, if_pos rfl]
  · rw [State.port_setPort, if_pos rfl]

/-- With no operation in flight nothing ends. -/
theorem loseOp_none {p : Port} {s : State} (h : (s.port p).op = none) : loseOp p s = (s, []) := by
  unfold loseOp
  rw [h]

/-- An operation in flight ends: the port only loses it and counts its retries. -/
theorem loseOp_port (p : Port) (s : State) :
    ∃ st, (s.port p).stats.atMost st ∧ (loseOp p s).1.port p = { s.port p with op := none, stats := st } := by
  unfold loseOp
  cases h : (s.port p).op with
  | none =>
    refine ⟨_, .refl _, ?_⟩
    show s.port p = _
    rw [← h]
  | some op =>
    dsimp only
    have C := closeOp_port p op.kind (s.port p).engine .noStat (attemptsSoFar op s) s.drawn
    generalize closeOp p op.kind (s.port p).engine .noStat (attemptsSoFar op s) s.drawn = Y at C
    have C : Y.port p = { s.port p with op := none, stats := (s.port p).stats.after .noStat (attemptsSoFar op s) } := C
    refine ⟨_, PortStats.atMost_after _ .noStat (attemptsSoFar op s), ?_⟩
    rw [← C]
    have A : ∀ e, (addEntry e Y).port p = Y.port p := fun e => (calm_addEntry e Y).port p
    cases op.user with
    | probe => rfl
    | power =>
      dsimp only
      split <;> rfl
    | fetch w x => exact ((calm_fetchResult w _ _).port p).trans (A _)
    | drain i => exact ((calm_drainFailure i _ _).port p).trans (A _)
    | mapWrite w g b l => exact A _

theorem loseOp_maps (p : Port) (s : State) : (loseOp p s).1.mapStore = s.mapStore := by
  unfold loseOp
  split
  · rfl
  next op _ =>
    have m : ∀ e n, (closeOp p op.kind e .noStat n s.drawn).mapStore = s.mapStore := fun e n => by
      unfold closeOp
      dsimp only
      split <;> rfl
    dsimp only
    split
    · exact m _ _
    · dsimp only
      split
      · exact m _ _
      · exact m _ _
    · exact ((calm_addEntry _ _).trans (calm_fetchResult _ _ _)).mapStore.trans (m _ _)
    · exact ((calm_addEntry _ _).trans (calm_drainFailure _ _ _)).mapStore.trans (m _ _)
    · exact (calm_addEntry _ _).mapStore.trans (m _ _)

theorem PortsGood.closeOp {s : State} (h : PortsGood s) (p : Port) (k : OpKind) (e : Engine) (v : StatEvent) (n : Nat) :
    PortsGood (closeOp p k e v n s) := by
  have h1 := h.alike p { s.port p with engine := e, op := none, stats := (s.port p).stats.after v n } ⟨rfl, rfl, rfl, .inr (.inl rfl)⟩
  unfold Machine.closeOp
  dsimp only
  split
  · exact h1.setMark p _
  · exact h1

theorem PortsGood.loseOp {s : State} (h : PortsGood s) (p : Port) : PortsGood (loseOp p s).1 ∧ ((loseOp p s).1.port p).op = none := by
  obtain ⟨st, _, e⟩ := loseOp_port p s
  refine ⟨?_, by rw [e]⟩
  unfold Machine.loseOp
  split
  · exact h
  next op _ =>
    have h1 : PortsGood (Machine.closeOp p op.kind (s.port p).engine .noStat (attemptsSoFar op s) s.drawn) :=
      PortsGood.closeOp (h.of_same (t := s.drawn) (fun _ => rfl) rfl) p _ _ _ _
    dsimp only
    split
    · exact h1
    · dsimp only
      split
      · exact h1.setMark p _
      · exact h1
    · exact h1.calm ((calm_addEntry _ _).trans (calm_fetchResult _ _ _))
    · exact h1.calm ((calm_addEntry _ _).trans (calm_drainFailure _ _ _))
    · exact h1.calm (calm_addEntry _ _)

/-! ## Class changes -/

/-- Port `p` leaves the classes of a target, its operation ended or suspended; its target is dropped next. -/
structure State.leaving (s : State) (p : Port) : Prop where
  fit : s.portsFit (some p)
  clear : s.startsClear
  rests : (s.port p).rests
  untargetable : (s.port p).cls.targetable = false

theorem PortsGood.leaves {s : State} (h : PortsGood s) (p : Port) (x : PortRecord) (hk : x.cls.targetable = false)
    (he : x.cls = .empty → x.op = none)
    (hp : ∀ pr, x.probe = some pr → x.cls = .probe ∧ pr.findingA.apart ∧ pr.findingB.apart)
    (ho : x.op = none ∨ ∃ o n, (s.port p).op = some o ∧ x.op = some { o with attempts := n, suspended := true }) :
    (s.setPort p x).leaving p := by
  have at_p : (s.setPort p x).port p = x := by rw [State.port_setPort, if_pos rfl]
  have live : x.live → (s.port p).live := by
    rintro ⟨o, w, g, k, e, u⟩
    rcases ho with z | ⟨y, n, hy, z⟩
    · rw [z] at e
      cases e
    · rw [z] at e
      cases e
      exact ⟨y, w, g, k, hy, u⟩
  refine ⟨(h.1.weaken _).setPort p x ⟨he, fun z => ?_, fun z => ?_, hp, fun o eo w g k l u => ?_⟩ live (fun _ _ _ _ _ n => absurd rfl n),
    fun e => ⟨(h.2 e).1, fun r => ?_⟩, fun o eo => ?_, by rw [at_p]; exact hk⟩
  · rw [z] at hk
    cases hk
  · rw [z] at hk
    cases hk
  · rcases ho with z | ⟨y, n, hy, z⟩
    · rw [z] at eo
      cases eo
    · rw [z] at eo
      cases eo
      have F := (h.1.2.1 p).2.2.2.2 y hy w g k l u
      cases l with
      | true => exact F
      | false => exact fun _ => rfl
  · rw [State.port_setPort]
    split
    · exact hk
    · exact (h.2 e).2 r
  · rw [at_p] at eo
    rcases ho with z | ⟨y, n, hy, z⟩
    · rw [z] at eo
      cases eo
    · rw [z] at eo
      cases eo
      rfl

theorem State.leaving.of_same {s t : State} {p : Port} (h : s.leaving p) (hp : ∀ q, t.port q = s.port q) (hm : t.mapStore = s.mapStore) :
    t.leaving p := ⟨h.fit.of_same hp hm, h.clear.of_same hp hm, by rw [hp]; exact h.rests, by rw [hp]; exact h.untargetable⟩

theorem State.leaving.calm {s t : State} {p : Port} (h : s.leaving p) (k : Calm s t) : t.leaving p := h.of_same k.port k.mapStore

/-- A port that is no target has left. -/
theorem State.leaving.good {s : State} {p : Port} (h : s.leaving p) (hn : ∀ c, s.mapStore.commit = some c → ∀ x ∈ c.targets, x.port ≠ p) :
    PortsGood s := ⟨h.fit.close hn, h.clear⟩

theorem State.leaving.dropTarget {s : State} {p : Port} (h : s.leaving p) (f b : Bool) : PortsGood (dropTarget p f b s) := by
  refine ⟨h.fit.dropped h.rests h.untargetable f b, ?_⟩
  cases hc : s.mapStore.commit with
  | none =>
    have e : Machine.dropTarget p f b s = s := by
      unfold Machine.dropTarget
      rw [hc]
    rw [e]
    exact h.clear
  | some c => exact h.clear.keep hc (near_dropTarget p f b s).ready

/-- The class of port `p` and other fields of its record change at once. -/
theorem setClass_setPort (p : Port) (c : PortClass) (x : PortRecord) (s : State) :
    (∀ q, ((setClass p c s).setPort p x).port q = (s.setPort p x).port q) ∧
      ((setClass p c s).setPort p x).mapStore = (s.setPort p x).mapStore := by
  obtain ⟨m, e⟩ := setClass_eq p c s
  refine ⟨fun q => ?_, by rw [e]; rfl⟩
  rw [State.port_setPort, State.port_setPort, setClass_port]
  split <;> rfl

theorem PortsGood.portFailed {s : State} (h : PortsGood s) (p : Port) (c : HistoryCause) (e : List SlotNo) (b : Bool) :
    PortsGood (portFailed p c e b s) := by
  obtain ⟨g1, g2⟩ := h.loseOp p
  unfold Machine.portFailed
  dsimp only
  have hX := g1.calm (calm_handOnWalk (e ++ (Machine.loseOp p s).2) (Machine.loseOp p s).1)
  have oX : ((handOnWalk (e ++ (Machine.loseOp p s).2) (Machine.loseOp p s).1).port p).op = none := by
    rw [(calm_handOnWalk _ _).port]
    exact g2
  generalize handOnWalk (e ++ (Machine.loseOp p s).2) (Machine.loseOp p s).1 = X at hX oX
  have L : ((setClass p .failed X).setPort p
      { (setClass p .failed X).port p with engine := .idle, probe := none, debounce := none }).leaving p := by
    obtain ⟨k1, k2⟩ := setClass_setPort p .failed { (setClass p .failed X).port p with engine := .idle, probe := none, debounce := none } X
    refine State.leaving.of_same (hX.leaves p _ ?_ (fun _ => ?_) (fun _ z => by cases z) (.inl ?_)) k1 k2
    · rw [setClass_self]
      rfl
    · rw [setClass_self]
      exact oX
    · rw [setClass_self]
      exact oX
  refine PortsGood.calm (PortsGood.calm ?_ (calm_strandAll _ _ (dirtyOn_held p _)))
    (((calm_handOnWalk _ _).trans (calm_noteStranded _ _)).trans (calm_raisePort _ _ _ _))
  refine State.leaving.dropTarget ?_ _ _
  split
  · exact L.calm (calm_failWaitingAll _ _)
  · exact L

theorem PortsGood.enterDebounce {s : State} (h : PortsGood s) (p : Port) (b : Bool) : PortsGood (enterDebounce p b s) := by
  unfold Machine.enterDebounce
  dsimp only
  have h0 : PortsGood (if (s.port p).op.isSome then s.drawn else s) ∧
      (if (s.port p).op.isSome then s.drawn else s).port p = s.port p := by
    split
    · exact ⟨h.of_same (fun _ => rfl) rfl, rfl⟩
    · exact ⟨h, rfl⟩
  generalize (if (s.port p).op.isSome then s.drawn else s) = X at h0
  refine State.leaving.dropTarget ?_ _ _
  have L : ∀ r, ((setClass p .debounce X).setPort p { (setClass p .debounce X).port p with
      op := (s.port p).op.map (fun o => { o with attempts := attemptsSoFar o s, suspended := true })
      debounce := r, probe := none }).leaving p := by
    intro r
    obtain ⟨k1, k2⟩ := setClass_setPort p .debounce { (setClass p .debounce X).port p with
      op := (s.port p).op.map (fun o => { o with attempts := attemptsSoFar o s, suspended := true })
      debounce := r, probe := none } X
    refine State.leaving.of_same (h0.1.leaves p _ ?_ (fun z => ?_) (fun _ z => by cases z) ?_) k1 k2
    · rw [setClass_self]
      rfl
    · rw [setClass_self] at z
      cases z
    · cases e : (s.port p).op with
      | none => exact .inl rfl
      | some o => exact .inr ⟨o, attemptsSoFar o s, by rw [h0.2]; exact e, rfl⟩
  split
  · exact (L _).calm (calm_failWaitingAll _ _)
  · exact L _

/-- Entry to EMPTY, of a port that is no target. -/
theorem PortsGood.portEmpty {s : State} (h : PortsGood s) (p : Port) (n : Option PortClass) (e : List SlotNo)
    (hn : ∀ c, s.mapStore.commit = some c → ∀ x ∈ c.targets, x.port ≠ p) : PortsGood (portEmpty p n e s) := by
  obtain ⟨g1, g2⟩ := h.loseOp p
  have hm := loseOp_maps p s
  unfold Machine.portEmpty
  dsimp only
  generalize (Machine.loseOp p s).1 = X at g1 g2 hm
  have k := setClass_setPort p .empty { (setClass p .empty X).port p with
    engine := .idle, member := none, probe := none, debounce := none, failures := 0, fairness := 0 } X
  have L : PortsGood ((setClass p .empty X).setPort p { (setClass p .empty X).port p with
      engine := .idle, member := none, probe := none, debounce := none, failures := 0, fairness := 0 }) := by
    refine State.leaving.good (State.leaving.of_same (g1.leaves p _ ?_ (fun _ => ?_) (fun _ z => by cases z) (.inl ?_)) k.1 k.2) ?_
    · rw [setClass_self]
      rfl
    · rw [setClass_self]
      exact g2
    · rw [setClass_self]
      exact g2
    · rw [k.2]
      show ∀ c, X.mapStore.commit = some c → _
      rw [hm]
      exact hn
  split
  · exact L.calm ((calm_strandAll _ _ (dirtyOn_held p _)).trans (((calm_handOnWalk _ _).trans (calm_noteStranded _ _)).trans
      (calm_raisePort _ _ _ _)))
  · exact L.calm ((calm_strandAll _ _ (dirtyOn_held p _)).trans ((calm_handOnWalk _ _).trans (calm_noteStranded _ _)))

/-- Entry to PROBE, of a port that is no target. -/
theorem PortsGood.portProbe {s : State} (h : PortsGood s) (p : Port) (g : Engine) (e : List SlotNo)
    (hn : ∀ c, s.mapStore.commit = some c → ∀ x ∈ c.targets, x.port ≠ p) : PortsGood (portProbe p g e s) := by
  obtain ⟨g1, g2⟩ := h.loseOp p
  have hm := loseOp_maps p s
  unfold Machine.portProbe
  dsimp only
  generalize (Machine.loseOp p s).1 = X at g1 g2 hm
  have k := setClass_setPort p .probe { (setClass p .probe X).port p with
    engine := g, member := none, probe := some Probe.start, debounce := none, failures := 0, fairness := 0 } X
  refine PortsGood.calm ?_ ((calm_handOnWalk _ _).trans (calm_noteStranded _ _))
  refine State.leaving.good (State.leaving.of_same (g1.leaves p _ ?_ (fun _ => ?_) (fun _ z => ?_) (.inl ?_)) k.1 k.2) ?_
  · rw [setClass_self]
    rfl
  · rw [setClass_self]
    exact g2
  · cases z
    rw [setClass_self]
    exact ⟨rfl, trivial, trivial⟩
  · rw [setClass_self]
    exact g2
  · rw [k.2]
    show ∀ c, X.mapStore.commit = some c → _
    rw [hm]
    exact hn

/-! ## The commit's operations -/

theorem PortsGood.ended {s : State} (h : PortsGood s) (r : CommitResult)
    (hl : ∀ c, s.mapStore.commit = some c → (c.phase = .final → ∀ x ∈ c.targets, ¬ (s.port x.port).live) ∧
      (c.pointReached = true → ∀ x ∈ c.targets, x.stage ≠ .tentativeWritten)) : PortsGood (endCommit r s) := by
  refine ⟨h.1.ended r hl, ?_⟩
  cases hc : s.mapStore.commit with
  | none =>
    have e : endCommit r s = s := by
      unfold endCommit
      rw [hc]
    rw [e]
    exact h.2
  | some c => exact h.2.keep hc (near_endCommit r s).ready

/-- A commit that has not reached FINAL may end (R146, R149). -/
theorem PortsGood.endedEarly {s : State} (h : PortsGood s) (r : CommitResult)
    (hp : ∀ c, s.mapStore.commit = some c → c.phase ≠ .final) : PortsGood (endCommit r s) :=
  h.ended r (fun c hc => ⟨fun z => absurd z (hp c hc), fun z => absurd ((h.1.2.2 c hc).2.2.1 z).1 (hp c hc)⟩)

theorem PortsGood.next {s : State} (h : PortsGood s) (hf : ∀ c, s.mapStore.commit = some c → c.phase = .final) :
    PortsGood (finalNext s) := by
  refine ⟨h.1.next hf, ?_⟩
  cases hc : s.mapStore.commit with
  | none =>
    have e : finalNext s = s := by
      unfold finalNext
      rw [hc]
    rw [e]
    exact h.2
  | some c => exact h.2.keep hc (near_finalNext s).ready

theorem PortsGood.evalQuiesce {s : State} (h : PortsGood s) : PortsGood (evalQuiesce s) := by
  refine ⟨h.1.asks, ?_⟩
  cases hc : s.mapStore.commit with
  | none =>
    have e : Machine.evalQuiesce s = s := by
      unfold Machine.evalQuiesce
      rw [hc]
    rw [e]
    exact h.2
  | some c => exact h.2.keep hc (near_evalQuiesce s).ready

/-- The write `w` of generation `g` and pool id `k` was told to its target, and its operation has ended. -/
structure State.written (s : State) (p : Port) (w : MapWrite) (g k : Word32) : Prop where
  free : (s.port p).op = none
  fits : ∃ c, s.mapStore.commit = some c ∧ c.writes w.state ∧ g = c.generation ∧ k = s.mapStore.draft.pool ∧
    (∃ x ∈ c.targets, x.port = p) ∧ ∀ x ∈ c.targets, x.port = p → x.ask = none ∧ (x.stage = .tentativeWritten → c.phase = .final)

theorem PortsGood.mapWriteDone {s : State} (h : PortsGood s) (p : Port) (w : MapWrite) (g k : Word32) (k' : s.written p w g k) :
    PortsGood (mapWriteDone p w g k true s) := by
  obtain ⟨hop, c, hc, hw, hg, hk, ⟨x, hx, hxp⟩, hx'⟩ := k'
  refine ⟨?_, h.2.keep hc (near_mapWriteDone p w g k true s).ready⟩
  unfold Machine.mapWriteDone
  cases e : w.state with
  | tentative =>
    rw [e] at hw
    refine h.1.wroteTentative hop (fun d hd => ?_)
    rw [hc] at hd
    cases hd
    refine ⟨hw, fun y hy hyp => ⟨(hx' y hy hyp).1, fun z => ?_⟩⟩
    have := (hx' y hy hyp).2 z
    rw [show c.phase = .tentative from hw] at this
    cases this
  | final =>
    rw [e] at hw
    refine h.1.wroteFinal hop (fun d hd => ?_) (by rw [hc]; simp)
    rw [hc] at hd
    cases hd
    exact ⟨hw, hg, hk, x, hx, hxp, (hx' x hx hxp).1⟩

/-- What an operation in flight for a map write says of its target, once it has ended. -/
theorem PortsGood.writes {s t : State} (h : PortsGood s) {p : Port} {o : Operation} (ho : (s.port p).op = some o) {w : MapWrite}
    {g k : Word32} (hu : o.user = .mapWrite w g k true) (ht : (t.port p).op = none) (hm : t.mapStore = s.mapStore) : t.written p w g k := by
  obtain ⟨c, hc, hx, f2, f3, f4⟩ := (h.1.2.1 p).2.2.2.2 o ho w g k true hu
  refine ⟨ht, c, hm ▸ hc, f4, f2, hm ▸ f3, hx, fun x hx hxp => ?_⟩
  obtain ⟨⟨g1, g2, _, _⟩, _⟩ := (h.1.2.2 c hc).2.2.2 x hx
  have L : (s.port x.port).live := ⟨o, w, g, k, hxp ▸ ho, hu⟩
  refine ⟨?_, fun z => (g2 z).resolve_right (fun v => v.2.2 L)⟩
  cases e : x.ask with
  | none => rfl
  | some v => exact absurd L (g1 v e).2

/-! ## The outcome of each operation -/

theorem PortsGood.setFailures {s : State} (h : PortsGood s) (p : Port) (n : Nat) : PortsGood (setFailures p n s) :=
  h.alike p _ ⟨rfl, rfl, rfl, .inl rfl⟩

theorem PortsGood.countFailure {s : State} (h : PortsGood s) (p : Port) (e : OpFailure) (l : List SlotNo) :
    PortsGood (countFailure p e l s) := by
  unfold Machine.countFailure
  dsimp only
  split
  · exact (h.setFailures p _).portFailed p _ _ _
  · exact (h.setFailures p _).calm (calm_handOn _ _)

/-- The probe record and the member record of a port in PROBE change. -/
theorem PortsGood.probing {s : State} (h : PortsGood s) {p : Port} {pr : Probe} (e : (s.port p).probe = some pr) (x : PortRecord)
    (hc : x.cls = (s.port p).cls) (ho : x.op = (s.port p).op)
    (hp : ∀ q, x.probe = some q → q.findingA.apart ∧ q.findingB.apart) : PortsGood (s.setPort p x) := by
  obtain ⟨k1, k2, k3, k4, k5⟩ := h.1.2.1 p
  have cls : x.cls = .probe := hc.trans (k4 pr e).1
  refine ⟨h.1.setPort p x ⟨fun z => ?_, fun z => ?_, fun z => ?_, fun q z => ⟨cls, hp q z⟩, ho ▸ k5⟩ (fun k => ?_)
    (fun c y hy hm ey _ => ?_), fun z => ⟨(h.2 z).1, fun r => ?_⟩⟩
  · rw [cls] at z
    cases z
  · rw [cls] at z
    cases z
  · rw [cls] at z
    cases z
  · unfold PortRecord.live at k ⊢
    rwa [ho] at k
  · exact absurd ey (h.1.untargeted (by rw [← hc, cls]; rfl) c hy y hm)
  · rw [State.port_setPort]
    split
    · rw [cls]
      rfl
    · exact (h.2 z).2 r

theorem PortsGood.setProbe {s : State} (h : PortsGood s) {p : Port} {pr : Probe} (e : (s.port p).probe = some pr) (x : Probe)
    (ha : x.findingA = pr.findingA ∨ x.findingA.apart) (hb : x.findingB = pr.findingB ∨ x.findingB.apart) :
    PortsGood (setProbe p x s) := by
  obtain ⟨_, k1, k2⟩ := (h.1.2.1 p).2.2.2.1 pr e
  refine h.probing e _ rfl rfl (fun q z => ?_)
  cases z
  exact ⟨ha.elim (fun z => z ▸ k1) id, hb.elim (fun z => z ▸ k2) id⟩

theorem PortsGood.probeFailed {s : State} (h : PortsGood s) {p : Port} {pr : Probe} (e : (s.port p).probe = some pr) (x : Option Nat)
    (n : Nat) : PortsGood (probeFailed p x n s) := by
  have C := calm_addEntry
    { cause := .probeFailed, source := .port, tag := none, lbn := none, port := some p, pbn := x, attempts := n } s
  have e2 : ((addEntry { cause := .probeFailed, source := .port, tag := none, lbn := none, port := some p, pbn := x, attempts := n }
      s).port p).probe = some pr := by rw [C.port]; exact e
  have k := h.calm C
  unfold Machine.probeFailed
  dsimp only
  generalize addEntry { cause := .probeFailed, source := .port, tag := none, lbn := none, port := some p, pbn := x, attempts := n }
    s = X at k e2
  have k2 := k.probing e2 { X.port p with probe := none, member := none } rfl rfl (fun q z => by cases z)
  exact k2.portFailed p .probeFailed [] false

theorem slotFinding_apart (o : Except OpFailure (Option (List Byte))) : (slotFinding o).apart := by
  unfold slotFinding
  split
  next d =>
    cases e : findingOf d with
    | nothing => trivial
    | found st m => exact (findingOf_structural e).1
  · trivial
  · trivial

theorem PortsGood.probeRead {s : State} (h : PortsGood s) (p : Port) (x : Nat) (o : Except OpFailure (Option (List Byte))) (n : Nat) :
    PortsGood (probeRead p x o n s) := by
  unfold Machine.probeRead
  split
  · exact h
  next pr e =>
    have hA := fun o => h.setProbe e { pr with step := .slotB, findingA := slotFinding o } (.inr (slotFinding_apart o)) (.inl rfl)
    have hC : ∀ o, PortsGood (probeComplete p (Machine.setProbe p { pr with step := .complete, findingB := slotFinding o } s)) := fun o => by
      have hB := h.setProbe e { pr with step := .complete, findingB := slotFinding o } (.inl rfl) (.inr (slotFinding_apart o))
      unfold probeComplete
      split
      next k =>
        simp only [Bool.and_eq_true] at k
        exact hB.classified p k.1
      · exact hB
    have hF := h.probeFailed e (some x) n
    have hS : ∀ o, PortsGood (match pr.step with
        | .slotA => Machine.setProbe p { pr with step := .slotB, findingA := slotFinding o } s
        | .slotB => probeComplete p (Machine.setProbe p { pr with step := .complete, findingB := slotFinding o } s)
        | .ident => s
        | .complete => s) := fun o => by
      split
      · exact hA o
      · exact hC o
      · exact h
      · exact h
    dsimp only
    generalize Machine.probeFailed p (some x) n s = F at hF
    cases o with
    | ok d => exact hS (.ok d)
    | error f =>
      cases f with
      | noResponse => exact hF
      | opTimeout => exact hF
      | checkFail => exact hS (.error .checkFail)
      | programFailed => exact hS (.error .programFailed)
      | memberLost => exact hS (.error .memberLost)

theorem PortsGood.probeIdent {s : State} (h : PortsGood s) (p : Port) (o : Except OpFailure (Nat × Word32)) (n : Nat) :
    PortsGood (probeIdent p o n s) := by
  unfold Machine.probeIdent
  split
  next e =>
    split
    · exact h.setProbe e _ (.inl rfl) (.inl rfl)
    · exact h.probeFailed e _ _
  next e => exact h.probeFailed e _ _
  · exact h

theorem dropTarget_phase (p : Port) (f : Bool) (s : State) {d : Commit} (h : (dropTarget p f true s).mapStore.commit = some d) :
    ∃ c, s.mapStore.commit = some c ∧ d.phase = c.phase := by
  unfold dropTarget at h
  split at h
  · exact ⟨d, h, rfl⟩
  next c hc =>
    split at h
    · dsimp only at h
      rw [if_pos rfl, orphanWrite_maps] at h
      cases h
      exact ⟨c, hc, rfl⟩
    · exact ⟨d, h, rfl⟩

/-- A failed map write that takes its port to FAILED leaves the commit in its phase. -/
theorem portFailed_phase (p : Port) (c : HistoryCause) (e : List SlotNo) (s : State) {d : Commit}
    (h : (portFailed p c e true s).mapStore.commit = some d) : ∃ c, s.mapStore.commit = some c ∧ d.phase = c.phase := by
  unfold portFailed at h
  dsimp only at h
  have hM : (handOnWalk (e ++ (loseOp p s).2) (loseOp p s).1).mapStore = s.mapStore := (calm_handOnWalk _ _).mapStore.trans (loseOp_maps p s)
  generalize handOnWalk (e ++ (loseOp p s).2) (loseOp p s).1 = X at h hM
  have hS : ∀ x, ((setClass p .failed X).setPort p x).mapStore = s.mapStore := fun x => by
    rw [(setClass_setPort p .failed x X).2]
    exact hM
  rw [(calm_raisePort _ _ _ _).mapStore, (calm_noteStranded _ _).mapStore, (calm_handOnWalk _ _).mapStore,
    (calm_strandAll _ _ (dirtyOn_held p _)).mapStore] at h
  obtain ⟨c, hc, k⟩ := dropTarget_phase _ _ _ h
  refine ⟨c, ?_, k⟩
  split at hc
  · rw [(calm_failWaitingAll _ _).mapStore, hS] at hc
    exact hc
  · rw [hS] at hc
    exact hc

theorem PortsGood.mapWriteFailed {s : State} (h : PortsGood s) (p : Port) (op : Operation) (w : MapWrite) (l : Bool) (n : Nat)
    (hw : l = true → ∀ c, s.mapStore.commit = some c → c.writes w.state) : PortsGood (mapWriteFailed p op w l n s) := by
  unfold Machine.mapWriteFailed
  dsimp only
  have C := calm_addEntry (s.portEntry p op .mapWriteFailed n) s
  have h2 := (h.calm C).setFailures p
    (min (((addEntry (s.portEntry p op .mapWriteFailed n) s).port p).failures + 1) Config.failureLimit)
  have m2 : (Machine.setFailures p (min (((addEntry (s.portEntry p op .mapWriteFailed n) s).port p).failures + 1) Config.failureLimit)
    (addEntry (s.portEntry p op .mapWriteFailed n) s)).mapStore = s.mapStore := C.mapStore
  generalize Machine.setFailures p _ (addEntry (s.portEntry p op .mapWriteFailed n) s) = Y at h2 m2
  have h3 := h2.portFailed p .mapWriteFailed [] l
  split
  next hl =>
    subst hl
    have ph : ∀ d, (Machine.portFailed p .mapWriteFailed [] true Y).mapStore.commit = some d → d.writes w.state := fun d hd => by
      obtain ⟨c, hc, k⟩ := portFailed_phase _ _ _ _ hd
      rw [m2] at hc
      exact (hw rfl c hc).phase k
    split
    next e =>
      refine h3.endedEarly _ (fun d hd z => ?_)
      have := ph d hd
      rw [e] at this
      rw [show d.phase = .tentative from this] at z
      cases z
    next e =>
      refine h3.next (fun d hd => ?_)
      have := ph d hd
      rw [e] at this
      exact this
  · exact h3

theorem PortsGood.wakeFailed {s : State} (h : PortsGood s) (p : Port) (op : Operation) (e : OpFailure) (n : Nat) :
    PortsGood (wakeFailed p op e n s) := by
  have k : PortsGood (match (s.port p).probe with
      | some pr =>
        if pr.wakeFailures + 1 = Config.failureLimit then Machine.probeFailed p none n s
        else Machine.setProbe p { pr with wakeFailures := pr.wakeFailures + 1 } s
      | none => Machine.countFailure p e [] (addEntry (s.portEntry p op e.cause n) s)) := by
    split
    next pr hpr =>
      split
      · exact h.probeFailed hpr _ _
      · exact h.setProbe hpr _ (.inl rfl) (.inl rfl)
    · exact (h.calm (calm_addEntry _ s)).countFailure p e []
  have k2 : ∀ v, PortsGood v → PortsGood (if (v.port p).engine = .asleep then Machine.arbitrate p v else v) := fun v hv => by
    split
    · exact hv.arbitrate p
    · exact hv
  exact k2 _ k

theorem PortsGood.sleepEnded {s : State} (h : PortsGood s) (p : Port) (op : Operation) (f : Option OpFailure) (n : Nat) :
    PortsGood (sleepEnded p op f n s) := by
  unfold Machine.sleepEnded
  split
  · exact (h.setMark p _).setFailures p 0
  · exact ((h.setMark p _).calm (calm_addEntry _ _)).countFailure p _ _

theorem PortsGood.wakeDone {s : State} (h : PortsGood s) (p : Port) : PortsGood (wakeDone p s) := by
  unfold Machine.wakeDone
  split
  next pr e => exact h.setProbe e _ (.inl rfl) (.inl rfl)
  · exact h.setFailures p 0

theorem closeOp_maps (p : Port) (k : OpKind) (e : Engine) (v : StatEvent) (n : Nat) (s : State) :
    (closeOp p k e v n s).mapStore = s.mapStore := by
  unfold closeOp
  dsimp only
  split <;> rfl

theorem PortsGood.opFailed {s : State} (h : PortsGood s) (p : Port) (op : Operation) (e : OpFailure) (n : Nat)
    (ho : (s.port p).op = some op) : PortsGood (opFailed p op e n s) := by
  have k := h.closeOp p op.kind (op.kind.engineAfter true) e.stat n
  have hm := closeOp_maps p op.kind (op.kind.engineAfter true) e.stat n s
  unfold Machine.opFailed
  dsimp only
  generalize Machine.closeOp p op.kind (op.kind.engineAfter true) e.stat n s = X at k hm
  split
  · split
    · exact k.probeRead _ _ _ _
    · exact k.probeIdent _ _ _
    all_goals exact k
  · exact (k.calm ((calm_addEntry _ _).trans (calm_fetchResult _ _ _))).countFailure p e []
  · exact (k.calm ((calm_addEntry _ _).trans (calm_drainFailure _ _ _))).countFailure p e _
  next w g b l hu =>
    refine k.mapWriteFailed p op w l n (fun hl c hc => ?_)
    subst hl
    obtain ⟨d, hd, _, _, _, f⟩ := (h.1.2.1 p).2.2.2.2 op ho w g b true hu
    rw [hm, hd] at hc
    cases hc
    exact f
  · split
    · exact k.sleepEnded p op (some e) n
    · exact k.wakeFailed p op e n
    all_goals exact k

theorem PortsGood.readDone {s : State} (h : PortsGood s) (p : Port) (op : Operation) (x : Nat) (r : Option (List Byte)) (n : Nat) :
    PortsGood (readDone p op x r n s) := by
  have k := h.closeOp p op.kind .idle .blockRead n
  unfold Machine.readDone
  dsimp only
  split
  · exact k.probeRead _ _ _ _
  · exact (k.setFailures p 0).calm (calm_fetchResult _ _ _)
  all_goals exact k

theorem PortsGood.programDone {s : State} (h : PortsGood s) (p : Port) (op : Operation) (n : Nat)
    (ho : (s.port p).op = some op) (hs : op.suspended = false) : PortsGood (programDone p op n s) := by
  have k := (h.closeOp p op.kind .idle .blockProgrammed n).setFailures p 0
  have hm := closeOp_maps p op.kind .idle .blockProgrammed n s
  have hp := closeOp_port p op.kind .idle .blockProgrammed n s
  unfold Machine.programDone countSuccess
  dsimp only
  split
  next i _ => exact k.calm (calm_drainSuccess i _)
  next w g b l hu =>
    cases l with
    | true =>
      refine k.mapWriteDone p w g b (h.writes ho hu ?_ hm)
      show ((State.setPort _ p _).port p).op = none
      rw [State.port_setPort, if_pos rfl, hp]
    | false =>
      unfold Machine.mapWriteDone
      cases e : w.state with
      | tentative => exact k
      | final =>
        have := (h.1.2.1 p).2.2.2.2 op ho w g b false hu e
        rw [hs] at this
        cases this
  all_goals exact h.closeOp p op.kind .idle .blockProgrammed n

theorem PortsGood.resetPort {s : State} (h : PortsGood s) (p : Port) (hc : s.mapStore.commit = none) : PortsGood (resetPort p s) := by
  unfold Machine.resetPort
  dsimp only
  have k : PortsGood (if (s.port p).cls = .pooled then resetPooled p s else (s, [])).1 ∧
      (if (s.port p).cls = .pooled then resetPooled p s else (s, [])).1.mapStore.commit = none := by
    split
    · refine ⟨(h.loseOp p).1.calm ((calm_handOnWalk _ _).trans (calm_failWaitingAll _ _)), ?_⟩
      exact (congrArg MapStore.commit (((calm_handOnWalk _ _).trans (calm_failWaitingAll _ _)).mapStore.trans (loseOp_maps p s))).trans hc
    · exact ⟨h, hc⟩
  have n : ∀ c, (if (s.port p).cls = .pooled then resetPooled p s else (s, [])).1.mapStore.commit = some c → ∀ x ∈ c.targets, x.port ≠ p :=
    fun c z => by rw [k.2] at z; cases z
  split
  · exact k.1.portProbe p _ _ n
  · exact k.1.portEmpty p _ _ n

/-! ## The draft and start-up -/

theorem PortsGood.setDraft {s : State} (h : PortsGood s) (m : Map) (hc : s.mapStore.commit = none) : PortsGood (s.setDraft m) := by
  refine ⟨⟨h.1.1, fun p => ?_, fun c z => ?_⟩, h.2⟩
  · obtain ⟨k1, k2, k3, k4, k5⟩ := h.1.2.1 p
    refine ⟨k1, k2, k3, k4, fun o e w g k l u => ?_⟩
    have F := k5 o e w g k l u
    cases l with
    | false => exact F
    | true =>
      obtain ⟨c, z, _⟩ := F
      rw [hc] at z
      cases z
  · have z : s.mapStore.commit = some c := z
    rw [hc] at z
    cases z

/-- A commit of a draft that passed validation is accepted (R144). -/
theorem PortsGood.newCommit {s : State} (h : PortsGood s) (hc : s.mapStore.commit = none) (hr : s.mapStore.ready = true)
    (hv : s.mapStore.draft.apart) : PortsGood (s.setCommit (some s.newCommit)) := by
  have dead : ∀ p, ¬ (s.port p).live := fun p ⟨o, w, g, k, e, u⟩ => by
    obtain ⟨c, z, _⟩ := (h.1.2.1 p).2.2.2.2 o e w g k true u
    rw [hc] at z
    cases z
  refine ⟨⟨h.1.1, fun p => ?_, fun c z => ?_⟩, fun z => ?_⟩
  · obtain ⟨k1, k2, k3, k4, k5⟩ := h.1.2.1 p
    refine ⟨k1, fun e => ?_, k3, k4, fun o e w g k l u => ?_⟩
    · rcases k2 e with z | ⟨c, z, _⟩
      · exact .inl z
      · rw [hc] at z
        cases z
    · cases l with
      | false => exact k5 o e w g k false u
      | true => exact absurd ⟨o, w, g, k, e, u⟩ (dead p)
  · cases z
    refine ⟨hv, ?_, (fun z => by cases z), fun x hx => ?_⟩
    · show ((s.targetPorts.map _).map _).Nodup
      rw [List.map_map]
      refine Eq.mp (congrArg List.Nodup (List.map_id _).symm) (List.Pairwise.filter _ (by decide : allPorts.Nodup))
    · obtain ⟨p, hp, rfl⟩ := List.mem_map.1 hx
      refine ⟨⟨(fun w z => by cases z), (fun z => by cases z), (fun _ z => by cases z), fun z => by cases z⟩, fun _ => ?_⟩
      exact (List.mem_filter.1 hp).2
  · rw [show (s.setCommit (some s.newCommit)).mapStore.ready = s.mapStore.ready from rfl, hr] at z
    cases z

theorem Probe.newest_apart {pr : Probe} {m : Map} (ha : pr.findingA.apart) (hb : pr.findingB.apart) (h : pr.newest = some m) : m.apart := by
  have f : ∀ (f : Finding) n, f.apart → f.final? = some n → n.apart := fun f n k e => by
    unfold Finding.final? at e
    split at e
    · cases e
      exact k
    · cases e
    · cases e
  unfold Probe.newest at h
  split at h
  next a b ea eb =>
    repeat' split at h
    all_goals first
      | exact Option.some.inj h ▸ f _ _ ha ea
      | exact Option.some.inj h ▸ f _ _ hb eb
  next a ea _ => exact Option.some.inj h ▸ f _ _ ha ea
  next b _ => exact f _ _ hb h

theorem selected_mem {s : State} {m : Map} (h : s.selected = some m) : ∃ p, s.heldRecord p = some m := by
  have walk : ∀ (l : List Port) (b : Option Map), (∀ n, b = some n → ∃ p, s.heldRecord p = some n) →
      ∀ n, l.foldl (fun best p => match best, s.heldRecord p with
        | none, m => m
        | some b, some m => if b.generation < m.generation then some m else some b
        | some b, none => some b) b = some n → ∃ p, s.heldRecord p = some n := by
    intro l
    induction l with
    | nil => exact fun b hb n e => hb n e
    | cons p l ih =>
      intro b hb n e
      rw [List.foldl_cons] at e
      refine ih _ (fun v hv => ?_) n e
      split at hv
      · exact ⟨p, hv⟩
      next b' m' _ em =>
        split at hv
        · exact ⟨p, em.trans hv⟩
        · exact hb v hv
      · exact hb v hv
  exact walk allPorts none (fun n e => by cases e) m h

theorem PortsGood.endStartup {s : State} (h : PortsGood s) (hr : s.mapStore.ready = false) : PortsGood (endStartup s) := by
  obtain ⟨hc, hn⟩ := h.2 hr
  have ap : (s.selected.getD Map.empty).apart := by
    cases e : s.selected with
    | none => exact Map.apart_empty
    | some m =>
      obtain ⟨p, hp⟩ := selected_mem e
      unfold State.heldRecord at hp
      split at hp
      · obtain ⟨pr, hpr, k⟩ := Option.bind_eq_some_iff.1 hp
        obtain ⟨_, f⟩ := (h.1.2.1 p).2.2.2.1 pr hpr
        exact Probe.newest_apart f.1 f.2 k
      · cases hp
  have k : (s.setMaps { s.mapStore with active := s.selected.getD Map.empty, draft := s.selected.getD Map.empty }).portsFit none := by
    refine ⟨ap, fun p => ?_, fun c z => ?_⟩
    · obtain ⟨k1, k2, k3, k4, k5⟩ := h.1.2.1 p
      refine ⟨k1, fun e => ?_, k3, k4, fun o e w g k l u => ?_⟩
      · have := hn p
        rw [show (s.port p).cls = .pooled from e] at this
        cases this
      · have F := k5 o e w g k l u
        cases l with
        | false => exact F
        | true =>
          obtain ⟨c, z, _⟩ := F
          rw [hc] at z
          cases z
    · have z : s.mapStore.commit = some c := z
      rw [hc] at z
      cases z
  unfold Machine.endStartup
  dsimp only
  obtain ⟨c1, c2⟩ := k.held
  generalize classifyHeld (s.setMaps { s.mapStore with active := s.selected.getD Map.empty, draft := s.selected.getD Map.empty }) = X at c1 c2
  refine PortsGood.calm (s := X.setMaps { X.mapStore with ready := true }) ⟨⟨c1.1, c1.2.1, c1.2.2⟩, fun z => ?_⟩ (calm_raiseSingle _ _ _)
  cases z

end Sys2Proof.Machine
end

