-- ==== Sys2Proof/Laws/Inner.lean ====
section
/-! SUPPORT. What every operation inside a step leaves alone or keeps good: `Near`, and the laws of the ports and the Map
Store. -/

namespace Sys2Proof.Machine

/-- See the head of this file. -/
structure Inner (s t : State) : Prop extends Near s t where
  ports : PortsGood s → PortsGood t

theorem Near.inner {s t : State} (h : Near s t) (k : PortsGood s → PortsGood t) : Inner s t := { h with ports := k }

theorem Calm.inner {s t : State} (h : Calm s t) : Inner s t := h.near.inner (fun k => k.calm h)

theorem Inner.refl (s : State) : Inner s s := (Calm.refl s).inner

theorem Inner.trans {s t u : State} (h : Inner s t) (k : Inner t u) : Inner s u :=
  (h.toNear.trans k.toNear).inner (fun g => k.ports (h.ports g))

/-- A change of the power state and the drawn free values. -/
theorem inner_parts (s : State) (w : Power) (n : Nat) : Inner s { s with power := w, freeDraws := n } :=
  (near_parts s w n).inner (fun k => k.of_same (fun _ => rfl) rfl)

theorem inner_setPower (s : State) (x : PowerState) : Inner s (s.setPower x) := inner_parts s _ s.freeDraws

theorem inner_setIdleTimer (s : State) (x : Option Nat) : Inner s (s.setIdleTimer x) := inner_parts s _ s.freeDraws

theorem inner_setDebounce (s : State) (p : Port) (d : Option Debounce) : Inner s (s.setPort p { s.port p with debounce := d }) :=
  (near_setPort s p { s.port p with debounce := d } rfl).inner (fun k => k.alike p { s.port p with debounce := d } ⟨rfl, rfl, rfl, .inl rfl⟩)

theorem inner_leavePark (s : State) : Inner s (leavePark s) := (near_leavePark s).inner (fun k => k.of_same (fun _ => rfl) rfl)

theorem inner_sleepAll (s : State) : Inner s (sleepAll s) := (near_sleepAll s).inner (·.sleepAll)

theorem inner_settle (s : State) : Inner s (settle s) := (near_settle s).inner (·.settle)

theorem inner_settleStaging (s : State) : Inner s (settleStaging s) := (near_settleStaging s).inner (·.settleStaging)

theorem inner_arbitrate (p : Port) (s : State) : Inner s (arbitrate p s) := (near_arbitrate p s).inner (·.arbitrate p)

theorem inner_evalQuiesce (s : State) : Inner s (evalQuiesce s) := (near_evalQuiesce s).inner (·.evalQuiesce)

theorem inner_closeOp (p : Port) (k : OpKind) (e : Engine) (v : StatEvent) (n : Nat) (s : State) :
    Inner s (closeOp p k e v n s) := (near_closeOp p k e v n s).inner (·.closeOp p k e v n)

theorem inner_enterDebounce (p : Port) (b : Bool) (s : State) : Inner s (enterDebounce p b s) :=
  (near_enterDebounce p b s).inner (·.enterDebounce p b)

/-- Entry to PROBE, of a port that is no target. -/
theorem inner_portProbe (p : Port) (e : Engine) (l : List SlotNo) (s : State)
    (h : PortsGood s → ∀ c, s.mapStore.commit = some c → ∀ x ∈ c.targets, x.port ≠ p) : Inner s (portProbe p e l s) :=
  (near_portProbe p e l s).inner (fun k => k.portProbe p e l (h k))

/-- Entry to EMPTY, of a port that is no target. -/
theorem inner_portEmpty (p : Port) (n : Option PortClass) (l : List SlotNo) (s : State)
    (h : PortsGood s → ∀ c, s.mapStore.commit = some c → ∀ x ∈ c.targets, x.port ≠ p) : Inner s (portEmpty p n l s) :=
  (near_portEmpty p n l s).inner (fun k => k.portEmpty p n l (h k))

theorem inner_probeIdent (p : Port) (o : Except OpFailure (Nat × Word32)) (n : Nat) (s : State) :
    Inner s (probeIdent p o n s) := (near_probeIdent p o n s).inner (·.probeIdent p o n)

theorem inner_sleepEnded (p : Port) (op : Operation) (f : Option OpFailure) (n : Nat) (s : State) :
    Inner s (sleepEnded p op f n s) := (near_sleepEnded p op f n s).inner (·.sleepEnded p op f n)

theorem inner_wakeDone (p : Port) (s : State) : Inner s (wakeDone p s) := (near_wakeDone p s).inner (·.wakeDone p)

theorem inner_opFailed (p : Port) (op : Operation) (e : OpFailure) (n : Nat) (s : State) (h : (s.port p).op = some op) :
    Inner s (opFailed p op e n s) := (near_opFailed p op e n s).inner (·.opFailed p op e n h)

theorem inner_readDone (p : Port) (op : Operation) (x : Nat) (r : Option (List Byte)) (n : Nat) (s : State) :
    Inner s (readDone p op x r n s) := (near_readDone p op x r n s).inner (·.readDone p op x r n)

theorem inner_programDone (p : Port) (op : Operation) (n : Nat) (s : State) (h : (s.port p).op = some op)
    (k : op.suspended = false) : Inner s (programDone p op n s) := (near_programDone p op n s).inner (·.programDone p op n h k)

theorem inner_resetPort (p : Port) (s : State) (h : s.mapStore.commit = none) : Inner s (resetPort p s) :=
  (near_resetPort p s).inner (·.resetPort p h)

/-- The end of a commit before FINAL. -/
theorem inner_endCommit (r : CommitResult) (s : State) (h : ∀ c, s.mapStore.commit = some c → c.phase ≠ .final) :
    Inner s (endCommit r s) := (near_endCommit r s).inner (·.endedEarly r h)

end Sys2Proof.Machine
end

