-- ==== Sys2Proof/Laws/Steady.lean ====
section
/-! SUPPORT. What no message, no link event and no lane event changes, and what each can change in one direction alone:
the queue, the pins, the clock and the uptime stand, the ceiling does not rise, the device error count and the active
generation do not fall, conflicting requests stay apart, and the window keeps its form. What only some of them do (free a
slot, take a request in, clear counters) is told by `May`. -/

namespace Sys2Proof.Machine

/-- What an operation may do: free a request slot, take a request in, clear counters. -/
structure May where
  frees : Bool
  admits : Bool
  clears : Bool

/-- See the head of this file. -/
structure Steady (m : May) (s t : State) : Prop where
  pending : t.pending = s.pending
  resetLow : t.resetLow = s.resetLow
  presence : t.presence = s.presence
  clock : t.clock = s.clock
  uptime : t.log.uptime = s.log.uptime
  ceiling : t.mapStore.ceiling ≤ s.mapStore.ceiling
  errors : s.log.errorCount ≤ t.log.errorCount
  window : WindowGood s → WindowGood t
  maps : MapsGood s → MapsGood t ∧ s.mapStore.active.generation ≤ t.mapStore.active.generation
  overlap : OverlapGood s → OverlapGood t
  frees : m.frees = false → ∀ u, (s.request u).isSome → (t.request u).isSome
  admits : m.admits = false → ∀ u, s.request u = none → t.request u = none
  counters : m.clears = false → s.link.counters.atMost t.link.counters
  stats : m.clears = false → ∀ p, (s.port p).stats.atMost (t.port p).stats
  table : TableGood s → TableGood t
  halt : TableGood s → HaltGood s → HaltGood t
  notices : NoticesGood s → NoticesGood t
  staged : FaultKeeps → StageGood s → Staged t
  ports : PortsGood s → PortsGood t

theorem Steady.stageGood {m : May} {s t : State} (h : Steady m s t) (f : FaultKeeps) (k : StageGood s) : StageGood t :=
  ⟨h.table k.1, h.halt k.1 k.2.1, h.overlap k.2.2.1, h.staged f k⟩

theorem MapsGood.of_mapStore {s t : State} (h : t.mapStore = s.mapStore) (k : MapsGood s) : MapsGood t :=
  ⟨k.1.of_mapStore h, fun hr => by rw [h] at hr ⊢; exact k.2 hr⟩

theorem WindowGood.of_window {s t : State} (h : t.link.window = s.link.window) (k : WindowGood s) : WindowGood t := by
  unfold WindowGood at k ⊢
  rw [h]
  exact k

theorem LinkCounters.atMost.refl (x : LinkCounters) : x.atMost x := by
  refine ⟨?_, ?_, ?_, ?_, ?_, ?_, ?_, ?_, ?_, ?_⟩
  all_goals exact BitVec.le_refl _

theorem LinkCounters.atMost.trans {x y z : LinkCounters} (h : x.atMost y) (k : y.atMost z) : x.atMost z := by
  obtain ⟨h1, h2, h3, h4, h5, h6, h7, h8, h9, h10⟩ := h
  obtain ⟨k1, k2, k3, k4, k5, k6, k7, k8, k9, k10⟩ := k
  exact ⟨BitVec.le_trans h1 k1, BitVec.le_trans h2 k2, BitVec.le_trans h3 k3, BitVec.le_trans h4 k4,
    BitVec.le_trans h5 k5, BitVec.le_trans h6 k6, BitVec.le_trans h7 k7, BitVec.le_trans h8 k8, BitVec.le_trans h9 k9,
    BitVec.le_trans h10 k10⟩

variable {m : May}

/-- No request slot is entered or freed. -/
theorem Near.occupied {s t : State} (h : Near s t) (u : Tag) : (t.request u).isSome = (s.request u).isSome := by
  have := h.requests u
  cases hs : s.request u <;> cases ht : t.request u <;> simp_all [SameRequest]

theorem Inner.steady {s t : State} (h : Inner s t) : Steady m s t where
  pending := h.pending
  resetLow := h.resetLow
  presence := h.presence
  clock := h.clock
  uptime := h.uptime
  ceiling := Nat.le_of_eq h.ceiling
  errors := h.errors
  window := WindowGood.of_window (by rw [h.link])
  maps := fun k => by
    refine ⟨⟨(h.maps k.1).1, fun hr => ?_⟩, (h.maps k.1).2⟩
    have hr' : s.mapStore.ready = false := by rw [← h.ready]; exact hr
    have hn := k.2 hr'
    rw [h.noCommit hn.1]
    exact hn
  overlap := OverlapGood.of_kept (fun u => (h.requests u).kept)
  frees := fun _ u hu => by rwa [h.occupied u]
  admits := fun _ u hu => by rw [← Option.isNone_iff_eq_none, ← Option.not_isSome, h.occupied u, hu]; rfl
  counters := fun _ => by rw [h.link]; exact .refl _
  stats := fun _ => h.stats
  table := fun k => k.of_same h.requests h.admissionOrder
  halt := h.halt
  notices := h.notices
  staged := fun f k => (h.good f k).staged
  ports := h.ports

theorem Calm.steady {s t : State} (h : Calm s t) : Steady m s t := h.inner.steady

theorem Steady.refl (s : State) : Steady m s s := (Calm.refl s).steady

theorem Steady.trans {s t u : State} (h : Steady m s t) (k : Steady m t u) : Steady m s u where
  pending := k.pending.trans h.pending
  resetLow := k.resetLow.trans h.resetLow
  presence := k.presence.trans h.presence
  clock := k.clock.trans h.clock
  uptime := k.uptime.trans h.uptime
  ceiling := Nat.le_trans k.ceiling h.ceiling
  errors := BitVec.le_trans h.errors k.errors
  window := fun w => k.window (h.window w)
  maps := fun g => ⟨(k.maps (h.maps g).1).1, BitVec.le_trans (h.maps g).2 (k.maps (h.maps g).1).2⟩
  overlap := fun w => k.overlap (h.overlap w)
  frees := fun e v hv => k.frees e v (h.frees e v hv)
  admits := fun e v hv => k.admits e v (h.admits e v hv)
  counters := fun e => (h.counters e).trans (k.counters e)
  stats := fun e p => (h.stats e p).trans (k.stats e p)
  table := fun a => k.table (h.table a)
  halt := fun a b => k.halt (h.table a) (h.halt a b)
  notices := fun g => k.notices (h.notices g)
  staged := fun f g => k.staged f (h.stageGood f g)
  ports := fun g => k.ports (h.ports g)

theorem steady_foldl {α : Type} (f : State → α → State) (h : ∀ s a, Steady m s (f s a)) (l : List α) (s : State) :
    Steady m s (l.foldl f s) := by
  induction l generalizing s with
  | nil => exact Steady.refl s
  | cons a l ih => exact (h s a).trans (ih _)

/-! ## Updates -/

/-- A change of the link that keeps the window's form and lets no counter fall. -/
theorem steady_link (s : State) (l : Link) (h : WindowGood s → WindowGood { s with link := l })
    (hc : s.link.counters.atMost l.counters) : Steady m s { s with link := l } :=
  { Steady.refl s with
    window := h
    counters := fun _ => hc }

theorem steady_sameWindow (s : State) (l : Link) (h : l.window = s.link.window) (hc : l.counters = s.link.counters) :
    Steady m s { s with link := l } :=
  steady_link s l (WindowGood.of_window (t := { s with link := l }) h) (by rw [hc]; exact .refl _)

/-- A change of the parameters, the requests, the data, the power and the notices. -/
theorem steady_parts (s : State) (q : Params) (a : Table) (mo : Mover) (g : Staging) (w : Power) (n : Notices) (d : Nat)
    (hk : ∀ u, Kept (s.request u) (a.slots[u]))
    (hf : m.frees = false → ∀ u : Tag, (s.request u).isSome → (a.slots[u]).isSome)
    (ht : TableGood s → TableGood { s with table := a })
    (hh : TableGood s → HaltGood s → HaltGood { s with table := a })
    (hn : NoticesGood s → NoticesGood { s with params := q, notices := n })
    (hs : StageGood s → Staged { s with table := a, mover := mo, staging := g }) :
    Steady m s { s with params := q, table := a, mover := mo, staging := g, power := w, notices := n, freeDraws := d } :=
  { Steady.refl s with
    staged := fun _ k => hs k
    overlap := fun k => k.of_kept hk
    frees := hf
    admits := fun _ u h => by
      have := hk u
      rw [h] at this
      show a.slots[u] = none
      cases e : a.slots[u] <;> simp_all [Kept]
    table := ht
    halt := hh
    notices := hn }

/-- The same, with every request slot as it was, and the data too. -/
theorem steady_sameSlots (s : State) (q : Params) (a : Table) (mo : Mover) (g : Staging) (w : Power) (n : Notices) (d : Nat)
    (ha : a.slots = s.table.slots) (ho : a.admissionOrder = s.table.admissionOrder)
    (hs : a.snapshot = s.table.snapshot ∨ a.snapshot = none)
    (hn : NoticesGood s → NoticesGood { s with params := q, notices := n })
    (hd : StageGood s → Staged { s with mover := mo, staging := g } := by exact StageGood.staged) :
    Steady m s { s with params := q, table := a, mover := mo, staging := g, power := w, notices := n, freeDraws := d } := by
  have hr : ∀ u, ({ s with table := a } : State).request u = s.request u := fun u => by
    show a.slots[u] = s.table.slots[u]
    rw [ha]
  have hsame : ∀ u, SameRequest (s.request u) (({ s with table := a } : State).request u) := fun u => by
    rw [hr u]
    exact .refl _
  refine steady_parts s q a mo g w n d (fun u => by rw [ha]; exact .refl _) (fun _ u h => by rw [ha]; exact h)
    (fun k => k.of_same hsame ho) (fun _ k => k.of_same hsame (fun e => ?_)) hn
    (fun k => (hd k).of_same rfl rfl rfl rfl ha)
  have e' : a.snapshot.isSome = true := e
  rcases hs with h | h
  · rw [h] at e'
    exact e'
  · rw [h] at e'
    simp at e'

/-- A change of the draft map, outside a commit. -/
theorem steady_draft (s : State) (x : Map) (h : s.draftRefusal = none) : Steady m s (s.setDraft x) :=
  { Steady.refl s with
    maps := fun k => ⟨⟨fun c hc => k.1 c hc, fun hr => k.2 hr⟩, BitVec.le_refl _⟩
    ports := fun k => k.setDraft x (by
      unfold State.draftRefusal at h
      repeat' split at h
      · cases h
      · cases h
      · simp_all) }

theorem steady_evalAttn (s : State) : Steady m s (evalAttn s) :=
  steady_sameSlots s s.params s.table s.mover s.staging s.power _ s.freeDraws rfl rfl (.inl rfl)
    (noticesGood_evalAttn s)

theorem steady_settle (s : State) : Steady m s (settle s) := (inner_settle s).steady

theorem steady_settleStaging (s : State) : Steady m s (settleStaging s) := (inner_settleStaging s).steady

theorem steady_leavePark (s : State) : Steady m s (leavePark s) := (inner_leavePark s).steady

theorem steady_releaseHold (t : Tag) (s : State) : Steady m s (releaseHold t s) := (calm_releaseHold t s).steady

/-! ## The messages' owners -/

@[simp] theorem answer_state (st : ReplyStatus) (f : List Byte) (s : State) : (answer st f s).state = s := rfl

@[simp] theorem taggedReply_state (st : ReplyStatus) (t : Byte) (d : Nat) (x : Byte) (s : State) :
    (taggedReply st t d x s).state = s := rfl

@[simp] theorem commitReply_state (st : ReplyStatus) (a b : Byte) (g : Word32) (ps : List Port) (s : State) :
    (commitReply st a b g ps s).state = s := rfl


/-- The request just entered is offered: a FLUSH is in SETTLING. -/
theorem calm_offer (t : Tag) (r : Request) (s : State) (h : r.kind = .flush → ∀ q, s.request t = some q → q.state ≠ .reporting)
    (hf : r.kind = .flush → ∀ q, s.request t = some q → q.kind = .flush) : Calm s (offer t r s) := by
  unfold offer
  split
  next hk =>
    split
    · refine calm_enterReporting _ _ _ s (h hk) (fun k => ?_)
      cases hq : s.request t with
      | none => exact k.unoccupied hq
      | some q => exact k.unrecorded hq (.inl (hf hk q hq))
    · exact Calm.refl s
  all_goals exact calm_releaseHold _ s

theorem steady_addHeader (h : Header) (s : State) : Steady m s (addHeader h s) := { Steady.refl s with }

theorem BlockRange.overlaps_comm (a b : BlockRange) : a.overlaps b = b.overlaps a := by
  unfold BlockRange.overlaps
  rw [Bool.and_comm]

theorem mem_allTags (t : Tag) : t ∈ allTags := by revert t; decide

/-- A request asked conflicts with an occupied slot just when its hold list names the slot. -/
theorem mem_holdListOf {s : State} {a : Ask} {u : Tag} {b : Request} (hb : s.request u = some b)
    (h : (s.newRequest a).conflicts b = true) : u ∈ s.holdListOf a := by
  unfold State.holdListOf
  rw [List.mem_filter]
  refine ⟨mem_allTags u, ?_⟩
  rw [hb]
  unfold Request.conflicts at h
  unfold Request.holds
  dsimp only [State.newRequest] at h
  cases hr : a.range with
  | none => rw [hr] at h; simp at h
  | some g =>
    cases hg : b.range with
    | none => rw [hr, hg] at h; simp at h
    | some k =>
      rw [hr, hg] at h
      dsimp only at h ⊢
      rw [hg]
      dsimp only
      rw [BlockRange.overlaps_comm, Bool.or_comm]
      exact h

theorem Request.conflicts_comm (a b : Request) : a.conflicts b = b.conflicts a := by
  unfold Request.conflicts
  cases a.range with
  | none => cases b.range <;> rfl
  | some g =>
    cases b.range with
    | none => rfl
    | some h =>
      dsimp only
      rw [BlockRange.overlaps_comm, Bool.or_comm]

/-- A request entered in a FREE slot, with the hold list of R31. -/
theorem steady_enterSlot (a : Ask) (s : State) (hm : m.admits = true) (hq : s.request a.tag = none)
    (hh : s.halted = false)
    (hf : a.kind = .flush → a.range = none) (hw : a.kind = .write → a.range.isSome = true) :
    Steady m s (s.enterSlot a.tag (s.newRequest a)) := by
  have hk : ∀ u, (s.enterSlot a.tag (s.newRequest a)).request u = if u = a.tag then some (s.newRequest a) else s.request u :=
    fun u => State.request_setRequest s a.tag u _
  refine { Steady.refl s with
    overlap := fun k => ?_
    frees := fun _ u hu => ?_
    admits := fun e => ?_
    table := fun k => ⟨?_, fun u => ?_⟩
    halt := fun _ _ e => ?_
    staged := fun _ k => k.staged.of rfl rfl rfl rfl (fun u => ?_) }
  · have main : ∀ u b, s.request u = some b → (s.newRequest a).conflicts b = true →
        (s.newRequest a).state = .held ∧ u ∈ (s.newRequest a).holdList := by
      intro u b hb hc
      refine ⟨?_, mem_holdListOf hb hc⟩
      have : a.kind ≠ .flush := by
        intro e
        unfold Request.conflicts at hc
        simp [State.newRequest, hf e] at hc
      simp [State.newRequest, this]
    intro x y p q hxy hp hq hc
    rw [hk] at hp hq
    split at hp
    next ex =>
      rw [if_neg (fun e => hxy (ex.trans e.symm))] at hq
      simp only [Option.some.injEq] at hp
      subst hp
      exact .inr (.inr (.inl (main y q hq hc)))
    next ex =>
      split at hq
      next ey =>
        simp only [Option.some.injEq] at hq
        subst hq
        rw [Request.conflicts_comm] at hc
        exact .inr (.inr (.inr (main x p hp hc)))
      · exact k x y p q hxy hp hq hc
  · rw [hk]
    split
    · rfl
    · exact hu
  · rw [hm] at e
    simp at e
  · show (s.table.admissionOrder ++ [a.tag]).Nodup
    rw [List.nodup_append]
    refine ⟨k.1, by simp, fun x hx y hy e => ?_⟩
    simp only [List.mem_singleton] at hy
    rw [e, hy] at hx
    have := (k.2 a.tag).mp hx
    rw [hq] at this
    simp at this
  · show u ∈ s.table.admissionOrder ++ [a.tag] ↔ _
    rw [hk, List.mem_append, k.2 u, List.mem_singleton]
    split
    next e => simp [e]
    next e => simp [e]
  · have e' : s.halted = true := e
    rw [hh] at e'
    simp at e'
  · rw [hk]
    split
    next e =>
      have n := k.unoccupied hq
      rw [e]
      refine .inr (.inr ⟨n.1, n.2, fun q z => ?_⟩)
      cases z
      exact ⟨fun _ => rfl, hw⟩
    · exact .inl rfl

theorem wakePower_request (s : State) (u : Tag) : (wakePower s).request u = s.request u := by
  unfold wakePower
  dsimp only
  split
  all_goals rfl

theorem inner_wakePower (s : State) : Inner s (wakePower s) := by
  unfold wakePower
  dsimp only
  split
  · exact inner_setIdleTimer s none
  · exact (inner_setIdleTimer s none).trans (inner_leavePark _)

theorem steady_admit (a : Ask) (s : State) (hm : m.admits = true) (hq : s.request a.tag = none) (hh : s.halted = false)
    (hf : a.kind = .flush → a.range = none) (hw : a.kind = .write → a.range.isSome = true) : Steady m s (takeIn a s) := by
  unfold takeIn
  dsimp only
  refine Steady.trans ?_ (steady_settleStaging _)
  have new : ∀ q, (wakePower (addHeader ⟨a.tag, a.kind, a.range, a.urgent, (s.newRequest a).through⟩
      (s.enterSlot a.tag (s.newRequest a)))).request a.tag = some q → q = s.newRequest a := fun q hq' => by
    rw [wakePower_request] at hq'
    have e : (s.setRequest a.tag (s.newRequest a)).request a.tag = some q := hq'
    rw [State.request_set] at e
    cases e
    rfl
  refine Steady.trans ?_ (calm_offer _ _ _ (fun hk q hq' => ?_) (fun hk q hq' => ?_)).steady
  · exact ((steady_enterSlot a s hm hq hh hf hw).trans (steady_addHeader _ _)).trans (inner_wakePower _).steady
  · have hk' : a.kind = .flush := hk
    rw [new q hq']
    simp [State.newRequest, hk']
  · rw [new q hq']
    exact hk

/-- An admitted request finds its slot FREE and the queue RUNNING. -/
theorem refusal_none {s : State} {a : Ask} (h : s.refusal a = none) :
    s.request a.tag = none ∧ s.halted = false ∧ s.mapStore.ready = true ∧ s.mapStore.commit = none := by
  unfold State.refusal at h
  split at h
  · simp at h
  next hr =>
    split at h
    · simp at h
    next hs =>
      split at h
      · simp at h
      next hc =>
        split at h
        · simp at h
        next hq =>
          refine ⟨hq, by simp [State.halted, hs], by simpa using hr, ?_⟩
          simpa using hc

theorem readAsk_write {k : ReqKind} {b : List Byte} {a : Ask} (h : readAsk k b = some a) :
    a.kind = .write → a.range.isSome = true := by
  unfold readAsk at h
  split at h
  all_goals
    simp only [Option.map_eq_some_iff] at h
    obtain ⟨f, _, rfl⟩ := h
    simp

theorem readAsk_flush {k : ReqKind} {b : List Byte} {a : Ask} (h : readAsk k b = some a) :
    a.kind = .flush → a.range = none := by
  unfold readAsk at h
  split at h
  all_goals
    simp only [Option.map_eq_some_iff] at h
    obtain ⟨f, _, rfl⟩ := h
    simp

theorem steady_takeTagged (k : ReqKind) (b : List Byte) (s : State) (hm : m.admits = true ∨ s.halted = true) :
    Steady m s (takeTagged k b s).state := by
  unfold takeTagged
  split
  · exact Steady.refl s
  next a ha =>
    split
    · exact Steady.refl s
    next hr =>
      rw [taggedReply_state]
      obtain ⟨h1, h2, _⟩ := refusal_none hr
      exact steady_admit _ s (hm.resolve_right (by rw [h2]; simp)) h1 h2 (readAsk_flush ha) (readAsk_write ha)

theorem steady_takeFetchSnapshot (b : List Byte) (s : State) : Steady m s (takeFetchSnapshot b s).state := by
  unfold takeFetchSnapshot
  split
  · split
    · exact Steady.refl s
    · exact steady_sameSlots s s.params _ s.mover s.staging s.power s.notices s.freeDraws rfl rfl (.inr rfl) id
  · exact Steady.refl s

theorem dropHold_request (t u : Tag) (s : State) (v : Tag) :
    ∀ r, (match s.request u with
      | some q => s.setRequest u { q with holdList := setRemove t q.holdList }
      | none => s).request v = some r →
      ∃ q, s.request v = some q ∧ r.kind = q.kind ∧ r.range = q.range ∧ r.state = q.state ∧
        ∀ x, x ≠ t → x ∈ q.holdList → x ∈ r.holdList := by
  intro r hr
  split at hr
  next q hq =>
    rw [State.request_setRequest] at hr
    split at hr
    next e =>
      simp only [Option.some.injEq] at hr
      subst hr
      exact ⟨q, by rw [e]; exact hq, rfl, rfl, rfl, fun x hx hm => by simp [setRemove, hx, hm]⟩
    · exact ⟨r, hr, rfl, rfl, rfl, fun x _ hm => hm⟩
  · exact ⟨r, hr, rfl, rfl, rfl, fun x _ hm => hm⟩

/-- A freed tag leaves the hold lists: nothing else of a request changes. -/
theorem steady_dropHolds (t : Tag) (s : State) (ht : s.request t = none) : Steady m s (dropHolds t s) := by
  have step : ∀ (u : Tag) (s : State), s.request t = none →
      Steady m s (match s.request u with
        | some q => s.setRequest u { q with holdList := setRemove t q.holdList }
        | none => s) ∧
      (match s.request u with
        | some q => s.setRequest u { q with holdList := setRemove t q.holdList }
        | none => s).request t = none := by
    intro u s ht
    cases hq : s.request u with
    | none => exact ⟨Steady.refl s, ht⟩
    | some q =>
      have hr := dropHold_request t u s
      rw [hq] at hr
      dsimp only at hr ⊢
      have hne : u ≠ t := fun e => by rw [e, ht] at hq; simp at hq
      refine ⟨{ Steady.refl s with
        overlap := fun k => ?_
        frees := fun _ v hv => ?_
        admits := fun _ v hv => ?_
        table := fun k => ⟨k.1, fun v => ?_⟩
        halt := fun _ k e v r hv => ?_
        staged := fun _ k => k.staged.of rfl rfl rfl rfl (fun v => ?_) }, ?_⟩
      · intro x y a b hxy ha hb hc
        obtain ⟨a', ha', a1, a2, a3, a4⟩ := hr x a ha
        obtain ⟨b', hb', b1, b2, b3, b4⟩ := hr y b hb
        have hx : x ≠ t := fun e => by rw [e, ht] at ha'; simp at ha'
        have hy : y ≠ t := fun e => by rw [e, ht] at hb'; simp at hb'
        have hc' : a'.conflicts b' = true := by
          unfold Request.conflicts at hc ⊢
          rw [← a1, ← a2, ← b1, ← b2]
          exact hc
        rw [a3, b3]
        rcases k x y a' b' hxy ha' hb' hc' with g | g | ⟨g, gm⟩ | ⟨g, gm⟩
        · exact .inl g
        · exact .inr (.inl g)
        · exact .inr (.inr (.inl ⟨g, a4 y hy gm⟩))
        · exact .inr (.inr (.inr ⟨g, b4 x hx gm⟩))
      · rw [State.request_setRequest]
        split
        · rfl
        · exact hv
      · rw [State.request_setRequest]
        split
        next e => rw [e, hq] at hv; simp at hv
        · exact hv
      · show v ∈ s.table.admissionOrder ↔ _
        rw [k.2 v, State.request_setRequest]
        split
        next e => rw [e, hq]; simp
        · rfl
      · obtain ⟨q', h1, _, _, h4, _⟩ := hr v r hv
        rw [h4]
        exact k e v q' h1
      · rw [State.request_setRequest]
        split
        next e => exact .inr (.inl ⟨q, _, e ▸ hq, rfl, rfl, rfl, rfl, rfl, .inl rfl⟩)
        · exact .inl rfl
      · rw [State.request_setRequest, if_neg (fun e => hne e.symm)]
        exact ht
  unfold dropHolds
  generalize allTags = l
  induction l generalizing s with
  | nil => exact Steady.refl s
  | cons u l ih => exact (step u s ht).1.trans (ih _ (step u s ht).2)

theorem steady_ackCompletion (t : Tag) (s : State) (hm : m.frees = true) : Steady m s (ackCompletion t s) := by
  unfold ackCompletion
  split
  next hst =>
    dsimp only
    refine Steady.trans ?_ ((steady_dropHolds t _ ?_).trans (calm_releaseHolds _).steady)
    · have hk : ∀ u, (s.setSlot t none).request u = if u = t then none else s.request u := fun u =>
        State.request_setSlot s t u none
      refine steady_parts s s.params _ s.mover s.staging s.power s.notices s.freeDraws (fun u => ?_) (fun e => ?_)
        (fun k => ⟨?_, fun u => ?_⟩) (fun _ k e u r hu => ?_) id (fun k => ?_)
      · show Kept _ ((s.setSlot t none).request u)
        rw [hk]
        split
        · cases s.request u <;> exact trivial
        · exact .refl _
      · rw [hm] at e
        simp at e
      · show (setRemove t s.table.admissionOrder).Nodup
        exact k.1.filter _
      · show u ∈ setRemove t s.table.admissionOrder ↔ ((s.setSlot t none).request u).isSome = true
        rw [hk, setRemove, List.mem_filter, k.2 u]
        split
        next e => simp [e]
        next e => simp [e]
      · have hu' : (s.setSlot t none).request u = some r := hu
        rw [hk] at hu'
        split at hu'
        · simp at hu'
        · exact k e u r hu'
      · refine k.staged.of rfl rfl rfl rfl (fun u => ?_)
        show (s.setSlot t none).request u = s.request u ∨ (∃ r q, _ ∧ (s.setSlot t none).request u = some q ∧ _) ∨
          Unrecorded s u ((s.setSlot t none).request u)
        rw [hk]
        split
        next e =>
          unfold State.inState at hst
          cases hr : s.request t with
          | none => rw [hr] at hst; cases hst
          | some r =>
            rw [hr] at hst
            have n := k.unrecorded hr (.inr (.inr (.inr (by simpa using hst))))
            rw [e]
            exact .inr (.inr ⟨n.1, n.2, fun q z => by cases z⟩)
        · exact .inl rfl
    · show (s.setSlot t none).request t = none
      rw [State.request_setSlot, if_pos rfl]
  · exact Steady.refl s

/-- Counting a block of an ACTIVE request. -/
theorem soft_countReceived (t : Tag) (i : SlotNo) (s : State) (h : ∀ r, s.request t = some r → r.state = .active) :
    Soft s (countReceived t i s) := by
  unfold countReceived
  split
  · exact Soft.refl s
  next r hr =>
    refine soft_setRequest s t _ ?_
    rw [hr]
    exact .rewrite ⟨rfl, rfl, rfl, rfl, rfl⟩ rfl rfl (fun e => by rw [h r hr] at e; simp at e)

theorem soft_advanceGrant (t : Tag) (q : Solicited) (i : Nat) (s : State) : Soft s (advanceGrant t q i s) := by
  unfold advanceGrant
  dsimp only
  split
  · exact ((soft_setWriteRecord _ _ _).trans (soft_setGrantOrder _ _)).trans (calm_formGrants _).toSoft
  · exact soft_setWriteRecord _ _ _

/-- The last block of an ACTIVE write: its record has no current grant any more. -/
theorem calm_finishWrite (t : Tag) (s : State) (h : ∀ r, s.request t = some r → r.kind = .write ∧ r.state = .active) :
    Calm s (finishWrite t s) := by
  unfold finishWrite
  split
  · exact Calm.refl s
  next r hr =>
    obtain ⟨hk, ha⟩ := h r hr
    split
    next hc =>
      have h1 : Calm s (s.setWriteRecord t none) := by
        refine (soft_setWriteRecord s t none).calm (fun _ k => k.staged.setWriteRecord t none (fun w hw => ?_) (fun w e => by cases e))
        obtain ⟨q, q1, q2, q3, g, q4, q5, q6⟩ := k.staged.2.1 t w hw
        rw [hr] at q1
        cases q1
        rw [q4] at hc
        simp only [Option.any_some, decide_eq_true_eq] at hc
        cases e : w.grant with
        | none => rfl
        | some a =>
          rw [e] at q6
          dsimp only at q6
          omega
      have gone : StageGood s → (s.setWriteRecord t none).writeRecord t = none ∧ (s.setWriteRecord t none).fetchRecord t = none :=
        fun k => ⟨by simp, by
          rw [State.setWriteRecord_fetchRecord]
          cases e : s.fetchRecord t with
          | none => rfl
          | some f =>
            obtain ⟨q, q1, q2, _⟩ := k.staged.2.2.1 t f e
            rw [hr] at q1
            cases q1
            rw [hk] at q2
            rcases q2 with q2 | q2 <;> cases q2⟩
      have hq : (s.setWriteRecord t none).request t = some r := (State.setWriteRecord_request _ _ _ _).trans hr
      dsimp only
      split
      · exact h1.over t .good none (fun q e => by rw [hq] at e; cases e; simp [ha]) gone
      · refine (h1.toSoft.trans (soft_setRequest _ t _ ?_)).calm
          (fun f k => (h1.good f k).staged.of rfl rfl rfl rfl (fun u => ?_))
        · rw [hq]
          exact .advance ⟨rfl, rfl, rfl, rfl, rfl⟩ (by simp [ha, ReqState.laterStates]) (by simp [ha]) (by simp [ha])
        · rw [State.request_setRequest]
          split
          next e =>
            rw [e]
            refine .inr (.inr ⟨(gone k).1, (gone k).2, fun q z => ?_⟩)
            cases z
            exact ⟨fun z => ReqState.noConfusion z, (k.staged.2.2.2.1 t r hr).2⟩
          · exact .inl rfl
    · exact Calm.refl s

/-- A request's state is the same after. -/
def SameState (s t : State) : Prop := ∀ u, (t.request u).map (·.state) = (s.request u).map (·.state)

theorem SameState.trans {s t u : State} (h : SameState s t) (k : SameState t u) : SameState s u :=
  fun x => (k x).trans (h x)

theorem reserve_request (w : Owner) (b : Bool) (x : Nat) (is : List SlotNo) (s : State) (u : Tag) :
    (reserve w b x is s).request u = s.request u := by
  induction is generalizing x s with
  | nil => rfl
  | cons i is ih => exact (ih _ _).trans rfl

theorem formGrant_request (t : Tag) (s : State) (u : Tag) : (formGrant t s).request u = s.request u := by
  unfold formGrant
  split
  · rfl
  · dsimp only
    split
    · rfl
    · exact (reserve_request _ _ _ _ _ u).trans rfl

theorem formGrants_request (s : State) (u : Tag) : (formGrants s).request u = s.request u := by
  unfold formGrants forAdmitted
  generalize s.table.admissionOrder = l
  induction l generalizing s with
  | nil => rfl
  | cons t l ih => exact (ih _).trans (formGrant_request t s u)

theorem sameState_flushReplaces (o n : SlotNo) (s : State) : SameState s (forAdmitted (flushReplace o n) s) := by
  unfold forAdmitted
  generalize s.table.admissionOrder = l
  induction l generalizing s with
  | nil => exact fun _ => rfl
  | cons t l ih =>
    refine SameState.trans (fun u => ?_) (ih _)
    show ((flushReplace o n t s).request u).map _ = _
    unfold flushReplace
    split
    · rfl
    next r hr =>
      split
      · rw [State.request_setRequest]
        split
        next e => rw [e, hr]; rfl
        · rfl
      · rfl

theorem sameState_dataArrival (i : SlotNo) (x : Nat) (b : Bool) (d : List Byte) (s : State) :
    SameState s (dataArrival i x b d s).1 := by
  have h : SameState s (supersede i x b s).1 := by
    unfold supersede
    split
    · exact fun _ => rfl
    next o _ =>
      intro u
      show ((formGrants _).request u).map _ = _
      rw [formGrants_request]
      exact (sameState_flushReplaces o i _ u).trans rfl
  unfold dataArrival
  dsimp only
  split
  · exact fun u => h u
  · exact fun u => h u

theorem sameState_countReceived (t : Tag) (i : SlotNo) (s : State) : SameState s (countReceived t i s) := by
  intro u
  unfold countReceived
  split
  · rfl
  next r hr =>
    rw [State.request_setRequest]
    split
    next e => rw [e, hr]; rfl
    · rfl

theorem sameState_advanceGrant (t : Tag) (q : Solicited) (i : Nat) (s : State) : SameState s (advanceGrant t q i s) := by
  intro u
  unfold advanceGrant
  dsimp only
  split
  · rw [formGrants_request]
    rfl
  · rfl

/-- A solicited block falls to an ACTIVE WRITE, and to a slot that its current grant waits for (R55). -/
theorem solicited_spec {s : State} {f : DataFields} {q : Solicited} (h : s.solicited f = some q) :
    s.request f.tag = some q.request ∧ q.request.range = some q.range ∧ s.writeRecord f.tag = some q.record ∧
      q.record.grant = some q.grant ∧ q.request.kind = .write ∧ q.request.state = .active ∧ q.grant.first ≤ f.index ∧
      f.index ∉ q.grant.received ∧ q.grant.slots[f.index - q.grant.first]? = some q.slot := by
  unfold State.solicited at h
  split at h
  next x w hx hw =>
    split at h
    next g a hg ha =>
      split at h
      next k =>
        obtain ⟨i, hi, rfl⟩ := Option.map_eq_some_iff.1 h
        exact ⟨hx, hg, hw, ha, k.1, k.2.1, k.2.2.1, k.2.2.2, hi⟩
      · cases h
    · cases h
  · cases h

/-- The block takes its place, and its record counts it. -/
theorem calm_takesPlace {f : DataFields} {q : Solicited} {s : State} (h : s.solicited f = some q) :
    Calm s (advanceGrant f.tag q f.index (countReceived f.tag q.slot
      (dataArrival q.slot (q.range.first + f.index) (s.slot q.slot).isThrough f.data s).1)) ∧
    ∀ r, (advanceGrant f.tag q f.index (countReceived f.tag q.slot
      (dataArrival q.slot (q.range.first + f.index) (s.slot q.slot).isThrough f.data s).1)).request f.tag = some r →
      r.kind = .write ∧ r.state = .active := by
  obtain ⟨hr, hg, hw, ha, hk, hs, hf, hn, hi⟩ := solicited_spec h
  have same : ∀ t, SameState s t → ∀ r, t.request f.tag = some r → r.state = .active := by
    intro t hs' r hr'
    have e := hs' f.tag
    rw [hr', hr] at e
    simp only [Option.map_some, Option.some.injEq] at e
    rw [e]
    exact hs
  have h1 := sameState_dataArrival q.slot (q.range.first + f.index) (s.slot q.slot).isThrough f.data s
  have h3 := (h1.trans (sameState_countReceived f.tag q.slot _)).trans (sameState_advanceGrant f.tag q f.index _)
  have sc := (soft_dataArrival q.slot (q.range.first + f.index) (s.slot q.slot).isThrough f.data s).trans
    (soft_countReceived f.tag q.slot _ (same _ h1))
  have so := sc.trans (soft_advanceGrant f.tag q f.index _)
  refine ⟨so.calm (fun fk k => ?_), fun r hr' => ⟨?_, same _ h3 r hr'⟩⟩
  · have hfill := (k.staged.2.2.2.2 q.slot (q.range.first + f.index) ⟨f.tag, q.request.admission⟩).2
      ⟨q.request, q.range, q.record, q.grant, f.index - q.grant.first, hr, rfl, hg, hw, ha, hi,
        by rw [Nat.add_sub_cancel' hf]; exact hn, by rw [Nat.add_sub_cancel' hf]⟩
    obtain ⟨m, hm⟩ := hfill
    generalize hx : q.range.first + f.index = x at hm so sc h1 h3 ⊢
    generalize hth : (s.slot q.slot).isThrough = th at so sc h1 h3 ⊢
    have hth' : th = m := by rw [← hth, hm]; rfl
    obtain ⟨sp, _⟩ := supersede_filling (x := x) (m := th) (n := q.slot) (o := ⟨f.tag, q.request.admission⟩) hr hw
      (by rw [ha]; simp) ⟨x, by rw [hm, hth']⟩
    have gA := sp.calm.good fk k
    have cl := supersede_clear k.staged.1 q.slot x th
    obtain ⟨fs, rA⟩ := sp.req
    generalize hA : supersede q.slot x th s = A at sp gA cl rA
    have finish : ∀ (z : StagingSlot) (X : State), z.place = some (.held, x) →
        (dataArrival q.slot x th f.data s).1 = X →
        X = (if z.isDirty then (A.1.setStaging q.slot z).setDrainOrder (A.1.staging.drainOrder ++ [q.slot])
          else A.1.setStaging q.slot z) → Staged (advanceGrant f.tag q f.index (countReceived f.tag q.slot X)) := by
      intro z X hz eX hX
      have xr : ∀ u, X.request u = A.1.request u := fun u => by rw [hX]; split <;> rfl
      have xw : ∀ u, X.writeRecord u = A.1.writeRecord u := fun u => by rw [hX]; split <;> rfl
      have xf : ∀ u, X.fetchRecord u = A.1.fetchRecord u := fun u => by rw [hX]; split <;> rfl
      have xs : ∀ j, X.slot j = if j = q.slot then z else A.1.slot j := fun j => by
        rw [hX]
        split <;> exact State.slot_setStaging A.1 q.slot j z
      have xd : X.staging.drainOrder = if z.isDirty then A.1.staging.drainOrder ++ [q.slot] else A.1.staging.drainOrder := by
        rw [hX]
        split <;> rfl
      have ec : countReceived f.tag q.slot X = X.setRequest f.tag { q.request with flushSet := fs, blocksDone := q.request.blocksDone + 1, settleSet := if q.request.through then setInsert q.slot q.request.settleSet else q.request.settleSet } := by
        unfold countReceived
        rw [xr, rA]
      rw [eX] at so sc
      have arr := fun (v : WriteRecord) (hv) (B : State) (hB : ∀ u, B.request u = (countReceived f.tag q.slot X).request u)
          (hB2 : B.staging = X.staging) (hB3 : ∀ u, B.writeRecord u = if u = f.tag then some v else X.writeRecord u)
          (hB4 : ∀ u, B.fetchRecord u = X.fetchRecord u) =>
        gA.staged.arrive (B := B) (t := f.tag) (r := { q.request with flushSet := fs }) (g := q.range) (w := q.record) (v := v)
          (a := q.grant) (k := f.index - q.grant.first) (x := x) (i := q.slot) (z := z)
          (q := { q.request with flushSet := fs, blocksDone := q.request.blocksDone + 1, settleSet := if q.request.through then setInsert q.slot q.request.settleSet else q.request.settleSet })
          rA hg sp.wr ha hi (by rw [Nat.add_sub_cancel' hf]; exact hn) (by rw [Nat.add_sub_cancel' hf]; exact hx.symm) hz cl
          (fun j => by unfold State.slot; rw [hB2]; exact xs j) (by rw [hB2]; exact xd)
          (fun u => by rw [hB, ec, State.request_setRequest, xr]) ⟨rfl, rfl, rfl, rfl, rfl⟩
          (fun u => by rw [hB3, xw]) (fun u => by rw [hB4, xf]) hv
      unfold advanceGrant at so ⊢
      dsimp only at so ⊢
      split
      next e =>
        rw [if_pos e] at so
        rw [List.length_append, List.length_singleton] at e
        have sB := sc.trans ((soft_setWriteRecord (countReceived f.tag q.slot X) f.tag
          (some { q.record with grant := none, timer := none })).trans (soft_setGrantOrder _
            (setRemove f.tag (countReceived f.tag q.slot X).mover.grantOrder)))
        have gB := sB.stageGood k (arr { q.record with grant := none, timer := none } ⟨rfl, by rw [if_pos e]⟩ _ (fun _ => rfl)
          (by rw [ec]; rfl) (fun u => by
            rw [ec]
            exact State.writeRecord_setWriteRecord _ _ _ _) (fun u => by rw [ec]; rfl))
        exact ((calm_formGrants _).good fk gB).staged
      next e =>
        rw [List.length_append, List.length_singleton] at e
        refine arr ⟨q.record.admission, q.record.next, some { q.grant with received := q.grant.received ++ [f.index] },
          some (countReceived f.tag q.slot X).dataExpiry⟩ ⟨rfl, ?_⟩ _ (fun _ => rfl) (by rw [ec]; rfl) (fun u => ?_) (fun u => ?_)
        · rw [if_neg e, Nat.add_sub_cancel' hf]
          exact ⟨_, rfl, rfl, rfl, rfl⟩
        · rw [ec]
          exact State.writeRecord_setWriteRecord _ _ _ _
        · rw [ec]
          rfl
    by_cases av : A.1.available x = true
    · refine finish (.dirty x A.2 f.data) _ rfl rfl ?_
      unfold dataArrival
      dsimp only
      rw [hA, if_pos av]
      rfl
    · refine finish (.stranded x A.2 f.data .memberLost) _ rfl rfl ?_
      unfold dataArrival
      dsimp only
      rw [hA, if_neg av]
      rfl
  · have := so.requests f.tag
    rw [hr, hr'] at this
    rw [this.1.1]
    exact hk

theorem steady_takeBlock {f : DataFields} {q : Solicited} {s : State} (h : s.solicited f = some q) :
    Steady m s (takeBlock f q s) := by
  obtain ⟨h1, h2⟩ := calm_takesPlace h
  unfold takeBlock
  refine Steady.trans ?_ (steady_settleStaging _)
  exact ((h1.trans (calm_finishWrite _ _ h2)).trans (calm_handOn _ _)).steady

theorem steady_takeWriteData (b : List Byte) (s : State) : Steady m s (takeWriteData b s).state := by
  unfold takeWriteData
  split
  · exact Steady.refl s
  · split
    · exact Steady.refl s
    next hq =>
      rw [answer_state]
      exact steady_takeBlock hq

/-- A grant rewritten in its report state, and its timer. -/
theorem calm_sameGrant (t : Tag) (w v : WriteRecord) (a b : Grant) (s : State) (hw : s.writeRecord t = some w) (ha : w.grant = some a)
    (hv : v.next = w.next ∧ v.grant = some b) (hb : b.first = a.first ∧ b.slots = a.slots ∧ b.received = a.received) :
    Calm s (s.setWriteRecord t (some v)) :=
  (soft_setWriteRecord s t _).calm (fun _ k => k.staged.sameGrant hw ha hv hb)

theorem calm_ackGrant (t : Tag) (n : Byte) (s : State) : Calm s (ackGrant t n s) := by
  unfold ackGrant
  split
  · exact Calm.refl s
  next w hw =>
    split
    · exact Calm.refl s
    next g hg =>
      split
      · exact calm_sameGrant t w _ g _ s hw hg ⟨rfl, rfl⟩ ⟨rfl, rfl, rfl⟩
      · exact Calm.refl s

theorem calm_countDelivered (w : Owner) (s : State) : Calm s (countDelivered w s) := by
  unfold countDelivered
  split
  · exact Calm.refl s
  next r hr =>
    split
    next h =>
      have h1 : Calm s (s.setRequest w.tag { r with blocksDone := r.blocksDone + 1 }) :=
        calm_setRequest s _ r _ hr
          (.rewrite ⟨rfl, rfl, rfl, rfl, rfl⟩ rfl rfl (fun e => by rw [h.2.2] at e; simp at e))
          ⟨rfl, rfl, rfl, rfl, .inr ⟨by simp [h.2.1], by simp [h.2.2]⟩⟩
      dsimp only
      split
      · refine (h1.trans (calm_dropFetchRecord _ _)).over w.tag .good none (fun q hq => ?_) (fun k => ⟨?_, by simp⟩)
        · rw [State.setFetchRecord_request, State.request_set] at hq
          cases hq
          simp [h.2.2]
        · rw [State.setFetchRecord_writeRecord, State.setRequest_writeRecord]
          cases e : s.writeRecord w.tag with
          | none => rfl
          | some v =>
            obtain ⟨q, q1, q2, _⟩ := k.staged.2.1 _ v e
            rw [hr] at q1
            cases q1
            rw [h.2.1] at q2
            cases q2
      · exact h1
    · exact Calm.refl s

theorem steady_ackReadData (i : RetNo) (s : State) : Steady m s (ackReadData i s) := by
  unfold ackReadData
  split
  · exact (((calm_setReturnSlot _ _ _).trans (calm_countDelivered _ _)).trans (calm_assignReturns _)).steady
  all_goals exact Steady.refl s

theorem steady_dataTimerExpires (t : Tag) (s : State) : Steady m s (dataTimerExpires t s) := by
  unfold dataTimerExpires
  split
  · exact Steady.refl s
  · split
    · refine Steady.trans ?_ (steady_settleStaging _)
      exact ((calm_requestFault _ _ _ _ s).trans (calm_formGrants _)).steady
    · exact Steady.refl s

theorem calm_retrySlot (i : SlotNo) (s : State) : Calm s (retrySlot i s) := by
  unfold retrySlot
  split
  next x m d r hi =>
    split
    · refine ((soft_setStaging s i _).trans (soft_setDrainOrder _ _)).calm (fun _ k => ?_)
      refine k.staged.join i (.dirty x m d) (by rw [hi]; rfl) rfl (by rw [hi]; rfl) rfl (fun j c hj hc hk => hj ?_)
      cases hc
      exact k.staged.1.2.2 j i _ (by simp) hk (by rw [hi]; rfl)
    · exact Calm.refl s
  all_goals exact Calm.refl s

theorem steady_takeStrandedRetry (b : List Byte) (s : State) : Steady m s (takeStrandedRetry b s).state := by
  unfold takeStrandedRetry
  split
  · exact Steady.refl s
  · split
    · exact Steady.refl s
    · split
      · exact Steady.refl s
      · rw [answer_state]
        refine Steady.trans ?_ (steady_settle _)
        exact (calm_foldl _ (fun s i => calm_retrySlot i s) _ s).steady

theorem calm_discardSlot (i : SlotNo) (s : State) (h : (s.slot i).isStranded = true) : Calm s (discardSlot i s) := by
  have h1 : (s.slot i).isFilling = false ∧ (s.slot i).isDirty = false := by
    revert h
    cases s.slot i <;> simp [StagingSlot.isStranded, StagingSlot.isFilling, StagingSlot.isDirty]
  exact ((calm_replace s i .free h1.1 rfl h1.2 rfl (fun _ _ _ k => by cases k)).trans (calm_addEntry _ _)).trans
    (calm_formGrants _)

theorem discardSlot_stranded (i j : SlotNo) (s : State) (hj : j ≠ i) (h : (s.slot j).isStranded = true) :
    ((discardSlot i s).slot j).isStranded = true := by
  unfold discardSlot
  obtain ⟨n, e⟩ := addEntry_eq
    { cause := .dataDiscarded, source := .staging, tag := none, lbn := (s.slot i).lbn?, port := none, pbn := none, attempts := 0 }
    (s.setStaging i .free)
  have same : (addEntry
      { cause := .dataDiscarded, source := .staging, tag := none, lbn := (s.slot i).lbn?, port := none, pbn := none, attempts := 0 }
      (s.setStaging i .free)).slot j = s.slot j := by
    rw [e]
    exact (State.slot_setStaging s i j .free).trans (if_neg hj)
  rw [(granted_formGrants _).slot j, same]
  · exact h
  · rw [same]
    revert h
    cases s.slot j <;> simp [StagingSlot.isStranded, StagingSlot.isFree]

/-- Each of some STRANDED slots is discarded in turn. -/
theorem calm_discards (l : List SlotNo) (hn : l.Nodup) (s : State) (h : ∀ i ∈ l, (s.slot i).isStranded = true) :
    Calm s (l.foldl (fun acc i => discardSlot i acc) s) := by
  induction l generalizing s with
  | nil => exact Calm.refl s
  | cons i l ih =>
    rw [List.nodup_cons] at hn
    exact (calm_discardSlot i s (h i (List.mem_cons_self ..))).trans (ih hn.2 _ (fun j hj =>
      discardSlot_stranded i j s (fun e => hn.1 (e ▸ hj)) (h j (List.mem_cons_of_mem _ hj))))

theorem steady_takeStrandedDiscard (b : List Byte) (s : State) : Steady m s (takeStrandedDiscard b s).state := by
  unfold takeStrandedDiscard
  split
  · exact Steady.refl s
  · split
    · exact Steady.refl s
    · rw [answer_state]
      refine Steady.trans ?_ (steady_settleStaging _)
      refine (calm_discards _ (allSlots_nodup.filter _) s (fun i hi => ?_)).steady
      have := (List.mem_filter.1 hi).2
      rw [Bool.and_eq_true] at this
      exact this.1

theorem steady_takeMapRead (b : List Byte) (s : State) : Steady m s (takeMapRead b s).state := by
  unfold takeMapRead
  repeat' split
  all_goals exact Steady.refl s

theorem steady_takeMapEdit (b : List Byte) (s : State) : Steady m s (takeMapEdit b s).state := by
  unfold takeMapEdit
  repeat' split
  all_goals first
    | exact Steady.refl s
    | exact steady_draft s _ (by assumption)

theorem steady_takeMapEditPool (b : List Byte) (s : State) : Steady m s (takeMapEditPool b s).state := by
  unfold takeMapEditPool
  repeat' split
  all_goals first
    | exact Steady.refl s
    | exact steady_draft s _ (by assumption)

theorem steady_takeMapResetDraft (b : List Byte) (s : State) : Steady m s (takeMapResetDraft b s).state := by
  unfold takeMapResetDraft
  repeat' split
  all_goals first
    | exact Steady.refl s
    | exact steady_draft s _ (by assumption)

theorem steady_acceptCommit (s : State) (hr : s.mapStore.ready ≠ false) (hc : s.mapStore.commit = none)
    (hv : s.validate = none)
    (hg : s.mapStore.active.generation ≠ Config.lastGeneration) : Steady m s (acceptCommit s) := by
  have h1 : Steady m s (s.setCommit (some s.newCommit)) := by
    refine { Steady.refl s with
      maps := fun k => ⟨⟨?_, fun h => ?_⟩, BitVec.le_refl _⟩
      ports := fun k => k.newCommit hc (by simpa using hr) (State.validate_apart hv) }
    · intro c hc
      simp only [State.setCommit, Option.some.injEq] at hc
      subst hc
      simp only [State.newCommit, Bool.false_eq_true, if_false, State.setCommit]
      have hne : s.mapStore.active.generation.toNat ≠ 0xFFFFFFFF := by
        intro he
        exact hg (BitVec.eq_of_toNat_eq (by simpa [Config.lastGeneration] using he))
      have hlt := s.mapStore.active.generation.isLt
      have h1 : (1 : Word32).toNat = 1 := rfl
      rw [BitVec.toNat_add, h1]
      omega
    · exact absurd h hr
  unfold acceptCommit
  dsimp only
  split
  · exact ((h1.trans (steady_leavePark _)).trans (inner_evalQuiesce _).steady).trans (steady_settle _)
  · exact (h1.trans (inner_evalQuiesce _).steady).trans (steady_settle _)

theorem steady_takeMapCommit (b : List Byte) (s : State) : Steady m s (takeMapCommit b s).state := by
  unfold takeMapCommit
  split
  · exact Steady.refl s
  · split
    · exact Steady.refl s
    next hr =>
      split
      · exact Steady.refl s
      next hc =>
        split
        · exact Steady.refl s
        · split
          · exact Steady.refl s
          next hg =>
            split
            · exact Steady.refl s
            next hv =>
              rw [commitReply_state]
              exact steady_acceptCommit s hr (by simpa using hc) hv hg

theorem steady_takeSetCeiling (b : List Byte) (s : State) : Steady m s (takeSetCeiling b s).state := by
  unfold takeSetCeiling
  split
  · exact Steady.refl s
  · split
    next h =>
      exact { Steady.refl s with
        ceiling := h
        maps := fun k => ⟨⟨fun c hc => k.1 c hc, fun hr => k.2 hr⟩, BitVec.le_refl _⟩ }
    · exact Steady.refl s

theorem steady_setParams (q : Params) (s : State) (h : q.noticeEnable = s.params.noticeEnable) :
    Steady m s (s.setParams q) :=
  steady_sameSlots s q s.table s.mover s.staging s.power s.notices s.freeDraws rfl rfl (.inl rfl)
    (fun k => NoticesGood.of_same (s := s) ⟨rfl, rfl⟩ h k)

theorem steady_evalIdleRestart (s : State) : Steady m s (evalIdleRestart s) := by
  unfold evalIdleRestart
  split
  all_goals exact (inner_setIdleTimer s _).steady

theorem steady_changeMode (v : Bool) (s : State) : Steady m s (changeMode v s) := by
  have h := noticesGood_changeMode v s
  unfold changeMode at h ⊢
  dsimp only at h ⊢
  split
  next c =>
    rw [if_pos c] at h
    exact steady_sameSlots s _ s.table s.mover s.staging s.power _ s.freeDraws rfl rfl (.inl rfl) h
  next c =>
    rw [if_neg c] at h
    exact steady_sameSlots s _ s.table s.mover s.staging s.power _ s.freeDraws rfl rfl (.inl rfl) h

theorem steady_changeMask (k : BitVec 16) (s : State) : Steady m s (changeMask k s) :=
  steady_sameSlots s _ s.table s.mover s.staging s.power _ s.freeDraws rfl rfl (.inl rfl) (noticesGood_changeMask k s)

theorem steady_applyParameter (id v : Nat) (s : State) : Steady m s (applyParameter id v s) := by
  unfold applyParameter
  dsimp only
  split
  all_goals first
    | exact Steady.refl s
    | exact steady_setParams _ s (by rfl)
    | exact (steady_setParams _ s (by rfl)).trans (steady_evalIdleRestart _)
    | exact (steady_setParams _ s (by rfl)).trans (calm_evalPressure _).steady
    | exact steady_changeMode _ s
    | exact steady_changeMask _ s

theorem steady_takeSetParameter (b : List Byte) (s : State) : Steady m s (takeSetParameter b s).state := by
  unfold takeSetParameter
  repeat' split
  all_goals first
    | exact Steady.refl s
    | exact steady_applyParameter _ _ s

theorem steady_takeGetParameter (b : List Byte) (s : State) : Steady m s (takeGetParameter b s).state := by
  unfold takeGetParameter
  repeat' split
  all_goals exact Steady.refl s

theorem steady_setPower (x : PowerState) (s : State) : Steady m s (s.setPower x) := (inner_setPower s x).steady

theorem steady_takePark (b : List Byte) (s : State) : Steady m s (takePark b s).state := by
  have h : Steady m s (settle (s.setPower .parking)) := (steady_setPower _ s).trans (steady_settle _)
  unfold takePark
  split
  · exact Steady.refl s
  · split
    · exact Steady.refl s
    · show Steady m s (match s.power.state with
        | .active => settle (s.setPower .parking)
        | .lowPower => settle (s.setPower .parking)
        | .parking => s
        | .parked => s)
      split
      · exact h
      · exact h
      all_goals exact Steady.refl s

theorem steady_takeUnpark (b : List Byte) (s : State) : Steady m s (takeUnpark b s).state := by
  have h : Steady m s (settle (leavePark s)) := (steady_leavePark s).trans (steady_settle _)
  unfold takeUnpark
  split
  · exact Steady.refl s
  · show Steady m s (match s.power.state with
      | .active => s
      | .lowPower => s
      | .parking => settle (leavePark s)
      | .parked => settle (leavePark s))
    split
    · exact Steady.refl s
    · exact Steady.refl s
    all_goals exact h

theorem steady_takePortReset (b : List Byte) (s : State) : Steady m s (takePortReset b s).state := by
  unfold takePortReset
  split
  · exact Steady.refl s
  · split
    · exact Steady.refl s
    · split
      · exact Steady.refl s
      next hc =>
        split
        · exact Steady.refl s
        · rw [answer_state]
          exact (inner_resetPort _ s (by simpa using hc)).steady.trans (steady_settleStaging _)

theorem steady_clearNotices (f : Notice → Bool) (s : State) : Steady m s (clearNotices f s).state :=
  steady_sameSlots s s.params s.table s.mover s.staging s.power _ s.freeDraws rfl rfl (.inl rfl)
    (fun k => noticesGood_evalAttn _ (noticesGood_drop f s k))

theorem steady_takeNoticeClear (b : List Byte) (s : State) : Steady m s (takeNoticeClear b s).state := by
  unfold takeNoticeClear
  repeat' split
  all_goals first
    | exact Steady.refl s
    | exact steady_clearNotices _ s

theorem steady_clearStats (p : Port) (s : State) (hm : m.clears = true) :
    Steady m s (s.setPort p { s.port p with stats := PortStats.zero }) :=
  { Steady.refl s with
    stats := fun e => by rw [hm] at e; simp at e
    ports := fun k => k.alike p _ ⟨rfl, rfl, rfl, .inl rfl⟩ }

theorem steady_clearPage (p : Byte) (s : State) (hm : m.clears = true) : Steady m s (clearPage p s) := by
  unfold clearPage
  split
  · exact { Steady.refl s with counters := fun e => by rw [hm] at e; simp at e }
  · exact steady_foldl _ (fun s p => steady_clearStats p s hm) _ s
  · exact Steady.refl s

theorem steady_takeGetLog (b : List Byte) (s : State) (hm : m.clears = true) : Steady m s (takeGetLog b s).state := by
  unfold takeGetLog
  split
  · exact Steady.refl s
  · split
    · exact Steady.refl s
    · simp only [answer]
      split
      · exact steady_clearPage _ s hm
      · exact Steady.refl s

theorem steady_takeIdentify (b : List Byte) (s : State) : Steady m s (takeIdentify b s).state := by
  unfold takeIdentify
  split
  all_goals exact Steady.refl s

theorem steady_takeStatus (b : List Byte) (s : State) : Steady m s (takeStatus b s).state := by
  unfold takeStatus
  split
  all_goals exact Steady.refl s

theorem steady_takeResetLink (b : List Byte) (s : State) : Steady m s (takeResetLink b s).state := by
  unfold takeResetLink
  split
  · exact steady_sameWindow s { s.link with resetWait := .replyUnsent } rfl rfl
  · exact Steady.refl s

/-- A message of a tagged request. -/
def MsgKind.isTagged : MsgKind → Bool
  | .read => true
  | .write => true
  | .verify => true
  | .flush => true
  | _ => false

/-- A message admits only where admitting is allowed: elsewhere the queue is HALTED, or its kind is not a tagged one. -/
def MayAdmit (m : May) (kind : Byte) (s : State) : Prop :=
  m.admits = true ∨ s.halted = true ∨ ∀ j, MsgKind.ofCode kind = some j → j.isTagged = false

theorem MayAdmit.tagged {kind : Byte} {s : State} (h : MayAdmit m kind s) {j : MsgKind} (hj : MsgKind.ofCode kind = some j)
    (ht : j.isTagged = true) : m.admits = true ∨ s.halted = true := by
  rcases h with h | h | h
  · exact .inl h
  · exact .inr h
  · rw [h j hj] at ht
    simp at ht

theorem steady_dispatch (k : Byte) (b : List Byte) (s : State) (ha : MayAdmit m k s)
    (hc : m.clears = true ∨ MsgKind.ofCode k ≠ some .getLog) : Steady m s (dispatch k b s).state := by
  unfold dispatch
  split
  next j hk =>
    cases j
    case identify => exact steady_takeIdentify b s
    case status => exact steady_takeStatus b s
    case setParameter => exact steady_takeSetParameter b s
    case getParameter => exact steady_takeGetParameter b s
    case resetLink => exact steady_takeResetLink b s
    case linkSync => exact Steady.refl s
    case read => exact steady_takeTagged _ b s (ha.tagged hk rfl)
    case write => exact steady_takeTagged _ b s (ha.tagged hk rfl)
    case verify => exact steady_takeTagged _ b s (ha.tagged hk rfl)
    case flush => exact steady_takeTagged _ b s (ha.tagged hk rfl)
    case writeData => exact steady_takeWriteData b s
    case fetchSnapshot => exact steady_takeFetchSnapshot b s
    case mapRead => exact steady_takeMapRead b s
    case mapEdit => exact steady_takeMapEdit b s
    case mapEditPool => exact steady_takeMapEditPool b s
    case mapResetDraft => exact steady_takeMapResetDraft b s
    case mapCommit => exact steady_takeMapCommit b s
    case setCeiling => exact steady_takeSetCeiling b s
    case park => exact steady_takePark b s
    case unpark => exact steady_takeUnpark b s
    case portReset => exact steady_takePortReset b s
    case strandedRetry => exact steady_takeStrandedRetry b s
    case strandedDiscard => exact steady_takeStrandedDiscard b s
    case noticeClear => exact steady_takeNoticeClear b s
    case getLog => exact steady_takeGetLog b s (hc.resolve_right (fun e => e hk))
  · exact Steady.refl s

end Sys2Proof.Machine
end

