-- ==== Sys2Proof/Laws/Exec.lean ====
section
/-! SUPPORT. Every command but RESET_ASSERT, DEVICE_RESET, PRESENCE_CHANGE and UPTIME_TICK is steady. -/

namespace Sys2Proof.Machine

variable {m : May}

/-! ## Counters that count -/

theorem LinkCounters.atMost_framesAccepted (c : LinkCounters) : c.atMost { c with framesAccepted := satInc c.framesAccepted } := by
  simp [LinkCounters.atMost, satInc_le]

theorem LinkCounters.atMost_crcErrors (c : LinkCounters) : c.atMost { c with crcErrors := satInc c.crcErrors } := by
  simp [LinkCounters.atMost, satInc_le]

theorem LinkCounters.atMost_framingErrors (c : LinkCounters) : c.atMost { c with framingErrors := satInc c.framingErrors } := by
  simp [LinkCounters.atMost, satInc_le]

theorem LinkCounters.atMost_duplicateMessages (c : LinkCounters) : c.atMost { c with duplicateMessages := satInc c.duplicateMessages } := by
  simp [LinkCounters.atMost, satInc_le]

theorem LinkCounters.atMost_sequenceErrors (c : LinkCounters) : c.atMost { c with sequenceErrors := satInc c.sequenceErrors } := by
  simp [LinkCounters.atMost, satInc_le]

theorem LinkCounters.atMost_reportsResent (c : LinkCounters) : c.atMost { c with reportsResent := satInc c.reportsResent } := by
  simp [LinkCounters.atMost, satInc_le]

theorem LinkCounters.atMost_linkLostEvents (c : LinkCounters) : c.atMost { c with linkLostEvents := satInc c.linkLostEvents } := by
  simp [LinkCounters.atMost, satInc_le]

theorem LinkCounters.atMost_linkResets (c : LinkCounters) : c.atMost { c with linkResets := satInc c.linkResets } := by
  simp [LinkCounters.atMost, satInc_le]

theorem LinkCounters.atMost_breaks (c : LinkCounters) : c.atMost { c with breaks := satInc c.breaks } := by
  simp [LinkCounters.atMost, satInc_le]

theorem LinkCounters.atMost_oversizeFrames (c : LinkCounters) : c.atMost { c with oversizeFrames := satInc c.oversizeFrames } := by
  simp [LinkCounters.atMost, satInc_le]

/-- A change of the link that keeps the window and lets no counter fall. -/
theorem steady_counting (s : State) (l : Link) (hc : s.link.counters.atMost l.counters)
    (h : l.window = s.link.window) : Steady m s { s with link := l } :=
  steady_link s l (WindowGood.of_window (t := { s with link := l }) h) hc

/-! ## Messages -/

theorem steady_acceptFrame (s : State) : Steady m s (acceptFrame s) :=
  steady_counting s _ (LinkCounters.atMost_framesAccepted _) rfl

theorem steady_replyPending (s : State) (r : Reply) : Steady m s (s.replyPending r) := steady_sameWindow s _ rfl rfl

theorem steady_setCounters (s : State) (c : LinkCounters) (h : s.link.counters.atMost c) : Steady m s (s.setCounters c) :=
  steady_counting s _ h rfl

theorem steady_processMessage (x : Message) (s : State) (ha : MayAdmit m x.kind s)
    (hc : m.clears = true ∨ MsgKind.ofCode x.kind ≠ some .getLog) : Steady m s (processMessage x s) := by
  unfold processMessage
  refine Steady.trans (steady_dispatch x.kind x.body s ha hc) ?_
  exact steady_sameWindow _ _ rfl rfl

theorem steady_sequenceError (x : Message) (s : State) : Steady m s (sequenceError x s) := by
  unfold sequenceError
  refine Steady.trans ?_ (steady_replyPending _ _)
  exact steady_setCounters s _ (LinkCounters.atMost_sequenceErrors _)

theorem steady_resendReply (r : Reply) (s : State) : Steady m s (resendReply r s) := by
  unfold resendReply
  refine Steady.trans ?_ (steady_replyPending _ _)
  exact steady_setCounters s _ (LinkCounters.atMost_duplicateMessages _)

theorem steady_checkSequence (x : Message) (s : State) (ha : MayAdmit m x.kind s)
    (hc : m.clears = true ∨ MsgKind.ofCode x.kind ≠ some .getLog) : Steady m s (checkSequence x s) := by
  unfold checkSequence
  split
  · exact steady_processMessage _ s ha hc
  · split
    · split
      · exact steady_resendReply _ s
      · exact steady_sequenceError _ s
    · exact steady_sequenceError _ s

/-- A window whose entries keep their sequence numbers keeps its form. -/
theorem WindowGood.of_map {s t : State} (f : WindowEntry → WindowEntry) (hf : ∀ w, (f w).seq = w.seq)
    (h : t.link.window = s.link.window.map f) (k : WindowGood s) : WindowGood t := by
  have he : (s.link.window.map f).map (·.seq) = s.link.window.map (·.seq) := by
    rw [List.map_map]
    exact List.map_congr_left (fun w _ => hf w)
  unfold WindowGood at k ⊢
  rw [h, he, List.length_map]
  exact k

theorem steady_linkSynced (q : Byte) (s : State) : Steady m s (linkSynced q s) := by
  unfold linkSynced
  dsimp only
  refine Steady.trans ?_ (steady_link _ _ (WindowGood.of_map (WindowEntry.synced _) (fun _ => rfl) rfl) (.refl _))
  refine Steady.trans ?_ (steady_evalAttn _)
  exact steady_sameWindow s _ rfl rfl

theorem steady_takeMessage (x : Message) (s : State) (ha : MayAdmit m x.kind s)
    (hc : m.clears = true ∨ MsgKind.ofCode x.kind ≠ some .getLog) : Steady m s (takeMessage x s) := by
  unfold takeMessage
  split
  · unfold takeLinkSync
    split
    · exact steady_linkSynced _ s
    · exact steady_replyPending s _
  · exact steady_checkSequence x s ha hc

theorem steady_routeMessage (x : Message) (s : State) (ha : MayAdmit m x.kind s)
    (hc : m.clears = true ∨ MsgKind.ofCode x.kind ≠ some .getLog) : Steady m s (routeMessage x s) := by
  unfold routeMessage
  split
  · exact Steady.refl s
  · split
    · exact steady_sameWindow s _ rfl rfl
    · exact steady_takeMessage x s ha hc

theorem steady_acceptMessage (k q : Byte) (b : List Byte) (s : State) (ha : MayAdmit m k s)
    (hc : m.clears = true ∨ MsgKind.ofCode k ≠ some .getLog) : Steady m s (acceptMessage k q b s) := by
  unfold acceptMessage
  split
  · exact (steady_acceptFrame s).trans (steady_routeMessage _ _ ha hc)
  · exact Steady.refl s

theorem steady_releaseHeld (s : State) (ha : m.admits = true ∨ s.halted = true) (hc : m.clears = true) :
    Steady m s (releaseHeld s) := by
  unfold releaseHeld
  split
  · exact Steady.refl s
  · split
    · exact Steady.refl s
    · refine Steady.trans ?_ (steady_takeMessage _ _ (ha.imp_right .inl) (.inl hc))
      exact steady_sameWindow s _ rfl rfl

/-! ## Acknowledgments -/

theorem steady_ackNotice (q : Byte) (s : State) : Steady m s (ackNotice q s) := by
  have h : ∃ n, ackNotice q s = { s with notices := n } := by
    unfold ackNotice State.joinOrder State.putNotice State.dropNotices
    dsimp only
    repeat' split
    all_goals exact ⟨_, rfl⟩
  have k := noticesGood_ack q s
  obtain ⟨n, e⟩ := h
  rw [e] at k ⊢
  exact steady_sameSlots s s.params s.table s.mover s.staging s.power n s.freeDraws rfl rfl (.inl rfl) k

theorem steady_ackOwner (w : WindowEntry) (s : State) (hm : m.frees = true) : Steady m s (ackOwner w s) := by
  unfold ackOwner
  split
  · exact (steady_ackCompletion _ s hm).trans (steady_settleStaging _)
  · exact (calm_ackGrant _ _ s).steady
  · exact (steady_ackReadData _ s).trans (steady_settleStaging _)
  · exact steady_ackNotice _ s

theorem WindowGood.of_filter {s t : State} (f : WindowEntry → Bool) (h : t.link.window = s.link.window.filter f)
    (k : WindowGood s) : WindowGood t := by
  unfold WindowGood at k ⊢
  rw [h]
  exact ⟨Nat.le_trans (List.length_filter_le _ _) k.1, (List.filter_sublist.map _).nodup k.2⟩

theorem steady_acceptAck (n : Byte) (s : State) (hm : m.frees = true) : Steady m s (acceptAck n s) := by
  unfold acceptAck takeAck
  split
  · refine (steady_acceptFrame s).trans ?_
    split
    · exact Steady.refl _
    · refine Steady.trans ?_ (steady_ackOwner _ _ hm)
      exact steady_link _ _ (WindowGood.of_filter _ rfl) (.refl _)
  · exact Steady.refl s

/-! ## Timers and the transmitter -/

theorem steady_declareLost (s : State) : Steady m s (declareLost s) := by
  unfold declareLost
  refine Steady.trans ?_ (steady_evalAttn _)
  refine Steady.trans ?_ (calm_addEntry _ _).steady
  exact steady_link s _ (WindowGood.of_map WindowEntry.stopped (fun _ => rfl) rfl) (LinkCounters.atMost_linkLostEvents _)

theorem steady_mapReport (n : Byte) (f : WindowEntry → WindowEntry) (hf : ∀ w, (f w).seq = w.seq) (s : State) :
    Steady m s (mapReport n f s) :=
  steady_link s _ (WindowGood.of_map (fun w => if w.seq = n then f w else w)
    (fun w => by split <;> simp [hf]) rfl) (.refl _)

theorem steady_reportTimerExpires (n : Byte) (s : State) : Steady m s (reportTimerExpires n s) := by
  unfold reportTimerExpires
  split
  · exact Steady.refl s
  · split
    · exact Steady.refl s
    · split
      · split
        · refine steady_mapReport n _ ?_ s
          exact fun _ => rfl
        · exact steady_declareLost s
      · exact Steady.refl s

theorem steady_sendReply (r : Reply) (s : State) : Steady m s (sendReply r s) := steady_sameWindow s _ rfl rfl

theorem steady_transmit (w : Sending) (f : List Byte) (s : State) : Steady m s (transmit w f s) := steady_sameWindow s _ rfl rfl

theorem steady_sendAgain (w : WindowEntry) (s : State) : Steady m s (sendAgain w s) := by
  unfold sendAgain
  dsimp only
  refine Steady.trans ?_ (steady_transmit _ _ _)
  refine Steady.trans (steady_setCounters s _ (LinkCounters.atMost_reportsResent _)) (steady_mapReport _ _ ?_ _)
  exact fun _ => rfl

/-- What a new report's owner changes, and what the choice of a new report keeps. -/
theorem newReport_spec {s t : State} {o : ReportOwner} {b : List Byte} (h : newReport s = some (o, b, t)) :
    Steady m s t ∧ t.link = s.link := by
  have parts : ∀ (a : Table) (mo : Mover) (n : Notices), a.slots = s.table.slots →
      a.admissionOrder = s.table.admissionOrder → a.snapshot = s.table.snapshot →
      (NoticesGood s → NoticesGood { s with notices := n }) →
      (StageGood s → Staged { s with mover := mo, staging := s.staging }) →
      Steady m s { s with table := a, mover := mo, notices := n } ∧
        ({ s with table := a, mover := mo, notices := n } : State).link = s.link := fun a mo n h h1 h2 h3 h4 =>
    ⟨steady_sameSlots s s.params a mo s.staging s.power n s.freeDraws h h1 (.inl h2) h3 h4, rfl⟩
  unfold newReport at h
  rcases Option.or_eq_some_iff.mp h with h1 | ⟨_, h2⟩
  · unfold offerCompletion at h1
    split at h1
    · simp at h1
    · simp only [Option.map_eq_some_iff, Prod.mk.injEq] at h1
      obtain ⟨r, _, _, _, rfl⟩ := h1
      exact parts _ s.mover s.notices rfl rfl rfl id StageGood.staged
  · rcases Option.or_eq_some_iff.mp h2 with h1 | ⟨_, h3⟩
    · unfold offerNotice at h1
      split at h1
      · simp at h1
      · simp only [Option.map_eq_some_iff, Prod.mk.injEq] at h1
        obtain ⟨n, hn, _, _, rfl⟩ := h1
        exact parts s.table s.mover _ rfl rfl rfl (noticesGood_send _ n s (State.notice_mem hn).1) StageGood.staged
    · rcases Option.or_eq_some_iff.mp h3 with h1 | ⟨_, h4⟩
      · unfold offerGrant at h1
        split at h1
        · simp at h1
        · split at h1
          · simp at h1
          next w hw =>
            simp only [Option.map_eq_some_iff, Prod.mk.injEq] at h1
            obtain ⟨g, hg, _, _, rfl⟩ := h1
            exact parts s.table _ s.notices rfl rfl rfl id
              (fun k => (k.staged.sameGrant (v := { w with grant := some { g with report := .inWindow s.link.reportSeq } }) hw hg
                ⟨rfl, rfl⟩ ⟨rfl, rfl, rfl⟩).of_same rfl rfl rfl rfl rfl)
      · unfold offerReadData at h4
        split at h4
        · simp at h4
        · split at h4
          · simp only [Option.some.injEq, Prod.mk.injEq] at h4
            obtain ⟨_, _, rfl⟩ := h4
            exact parts s.table _ s.notices rfl rfl rfl id (fun k => k.staged.of_same rfl rfl rfl rfl rfl)
          all_goals simp at h4

theorem steady_sendReport (o : ReportOwner) (b : List Byte) (s : State) (h : s.windowRoom = true) :
    Steady m s (sendReport o b s) := by
  unfold sendReport
  dsimp only
  refine Steady.trans ?_ (steady_transmit _ _ _)
  refine steady_link s _ (fun k => ?_) (.refl _)
  simp only [State.windowRoom, Bool.and_eq_true, decide_eq_true_eq, List.all_eq_true] at h
  unfold WindowGood at k ⊢
  refine ⟨?_, ?_⟩
  · simp only [List.length_append, List.length_cons, List.length_nil]
    omega
  · simp only [List.map_append, List.map_cons, List.map_nil]
    rw [List.nodup_append]
    refine ⟨k.2, by simp, ?_⟩
    intro a ha b hb
    simp only [List.mem_singleton] at hb
    subst hb
    obtain ⟨w, hw, rfl⟩ := List.mem_map.mp ha
    exact h.2 w hw

theorem steady_chooseOutbound (s : State) : Steady m s (chooseOutbound s) := by
  unfold chooseOutbound
  split
  · exact Steady.refl s
  · split
    · exact steady_sendReply _ s
    · split
      · unfold chooseReport
        split
        · exact steady_sendAgain _ s
        · split
          next hr =>
            split
            next o b t ht =>
              obtain ⟨h1, h2⟩ := newReport_spec (m := m) ht
              refine h1.trans (steady_sendReport o b t ?_)
              unfold State.windowRoom at hr ⊢
              rw [h2]
              exact hr
            · exact Steady.refl s
          · exact Steady.refl s
      · exact Steady.refl s

theorem steady_endTransmission (s : State) : Steady m s (endTransmission s) := by
  unfold endTransmission
  split
  · exact Steady.refl s
  next x _ =>
    have h1 : Steady m s { s with link := { s.link with transmission := none } } := steady_sameWindow s _ rfl rfl
    dsimp only
    split
    · refine h1.trans ?_
      unfold replySent
      split
      · exact Steady.refl _
      all_goals exact steady_sameWindow _ _ rfl rfl
    · refine h1.trans ?_
      unfold reportSent
      split
      · exact Steady.refl _
      · split
        · refine steady_mapReport _ _ ?_ _
          exact fun _ => rfl
        · refine steady_mapReport _ _ ?_ _
          exact fun _ => rfl

/-! ## The link reset -/

theorem steady_unreportAll (s : State) : Steady m s (unreportAll s) :=
  steady_sameSlots s s.params s.table s.mover s.staging s.power _ s.freeDraws rfl rfl (.inl rfl)
    (noticesGood_unreportAll s)

theorem steady_resetConversation (b : Bool) (s : State) : Steady m s (resetConversation b s) := by
  unfold resetConversation
  dsimp only
  exact { Steady.refl s with
    window := fun _ => ⟨Nat.zero_le _, List.nodup_nil⟩
    counters := fun _ => LinkCounters.atMost_linkResets _
    notices := fun k => NoticesGood.of_same (s := s) ⟨rfl, rfl⟩ rfl k }

/-- The FILLING slots go FREE, and every other stands (R93). -/
theorem resetFilling_slots (l : List SlotNo) (s : State) :
    ∃ v, l.foldl (fun acc i => if (acc.slot i).isFilling then acc.setStaging i .free else acc) s =
        { s with staging := { s.staging with slots := v } } ∧
      ∀ i, v[i] = if i ∈ l ∧ (s.slot i).isFilling = true then .free else s.slot i := by
  induction l generalizing s with
  | nil => exact ⟨s.staging.slots, rfl, fun i => by simp [State.slot]⟩
  | cons a l ih =>
    rw [List.foldl_cons]
    split
    next h =>
      obtain ⟨v, e, k⟩ := ih (s.setStaging a .free)
      refine ⟨v, e, fun i => (k i).trans ?_⟩
      rw [State.slot_setStaging]
      by_cases ei : i = a
      · simp [ei, h]
      · simp [ei]
    next h =>
      obtain ⟨v, e, k⟩ := ih s
      refine ⟨v, e, fun i => (k i).trans ?_⟩
      by_cases ei : i = a
      · simp [ei, h]
      · simp [ei]

/-- The table, the Data Mover and the FILLING slots reset together (R46, R67, R93). -/
theorem steady_resetData (s : State) (hm : m.frees = true) : Steady m s (resetFilling (resetMover (resetTable s))) := by
  have hn : ∀ u, (resetTable s).request u = none := fun u => by
    simp only [State.request, resetTable, Table.reset, Fin.getElem_fin, Vector.getElem_replicate]
  obtain ⟨v, ev, kv⟩ := resetFilling_slots allSlots (resetMover (resetTable s))
  have e : resetFilling (resetMover (resetTable s)) = { s with
    table := { Table.reset with counter := s.table.counter }, mover := Mover.reset
    staging := { s.staging with slots := v } } := ev
  rw [e]
  have kv' : ∀ i, v[i] = if (s.slot i).isFilling = true then .free else s.slot i := fun i => by
    rw [kv i]
    have : i ∈ allSlots := by revert i; decide
    simp only [this, true_and]
    rfl
  refine steady_parts s s.params _ _ _ s.power s.notices s.freeDraws (fun u => ?_) (fun e => ?_)
    (fun _ => ⟨List.nodup_nil, fun u => ?_⟩) (fun _ _ _ u r hr => ?_) id (fun k => ?_)
  · show Kept _ ((resetTable s).request u)
    rw [hn u]
    cases s.request u <;> exact trivial
  · rw [hm] at e
    simp at e
  · show u ∈ [] ↔ ((resetTable s).request u).isSome = true
    rw [hn u]
    simp
  · have hr' : (resetTable s).request u = some r := hr
    rw [hn u] at hr'
    simp at hr'
  · obtain ⟨⟨h1, h2, h3⟩, _⟩ := k.staged
    have nf : ∀ i : SlotNo, v[i].isFilling = false := fun i => by
      rw [kv']
      split
      · rfl
      next z => simpa using z
    have nw : ∀ u, (resetMover s).writeRecord u = none := fun u => by
      simp only [State.writeRecord, resetMover, Mover.reset, Fin.getElem_fin, Vector.getElem_replicate]
    have nr : ∀ u, (resetMover s).fetchRecord u = none := fun u => by
      simp only [State.fetchRecord, resetMover, Mover.reset, Fin.getElem_fin, Vector.getElem_replicate]
    refine ⟨⟨h1, fun i => ?_, fun i j c hc hi hj => ?_⟩, fun u w hw => ?_, fun u f hf => ?_, fun u q hq => ?_, fun i x o => ?_⟩
    · show i ∈ s.staging.drainOrder ↔ v[i].isDirty = true
      rw [h2, kv']
      split
      · next z => revert z; cases s.slot i <;> simp [StagingSlot.isFilling, StagingSlot.isDirty]
      · rfl
    · have old : ∀ i : SlotNo, v[i].place = some c → (s.slot i).place = some c := fun i hi => by
        rw [kv'] at hi
        split at hi
        · cases hi
        · exact hi
      exact h3 i j c hc (old i hi) (old j hj)
    · exact absurd (show (resetMover s).writeRecord u = some w from hw) (by rw [nw]; simp)
    · exact absurd (show (resetMover s).fetchRecord u = some f from hf) (by rw [nr]; simp)
    · exact absurd (show (resetTable s).request u = some q from hq) (by rw [hn]; simp)
    · constructor
      · rintro ⟨m', hm'⟩
        have := nf i
        rw [show v[i] = StagingSlot.filling x o m' from hm'] at this
        cases this
      · rintro ⟨r, g, w, a, n, k1, _⟩
        exact absurd (show (resetTable s).request o.tag = some r from k1) (by rw [hn]; simp)

theorem steady_resetPark (s : State) : Steady m s (resetPark s) := by
  unfold resetPark
  split
  · exact steady_leavePark s
  · exact Steady.refl s

theorem steady_resetLink (b : Bool) (s : State) (hm : m.frees = true) : Steady m s (resetLink b s) := by
  unfold resetLink
  refine Steady.trans ?_ (steady_settleStaging _)
  refine Steady.trans ?_ (steady_unreportAll _)
  refine Steady.trans ?_ (steady_resetPark _)
  refine Steady.trans ?_ (steady_resetData _ hm)
  exact steady_resetConversation b s

theorem steady_declareBreak (s : State) (hm : m.frees = true) : Steady m s (declareBreak s) := by
  unfold declareBreak
  split
  · exact Steady.refl s
  · refine Steady.trans ?_ (steady_resetLink _ _ hm)
    exact steady_counting s _ (LinkCounters.atMost_breaks _) rfl

/-! ## The ports, the commit and the rest -/

theorem steady_debounceEnds (p : Port) (s : State) : Steady m s (debounceEnds p s) := by
  unfold debounceEnds
  split
  · split
    · refine Steady.trans ?_ (steady_settleStaging _)
      have out : PortsGood s → ∀ c, s.mapStore.commit = some c → ∀ x ∈ c.targets, x.port ≠ p := fun k =>
        k.1.untargeted (by simp_all [PortClass.targetable])
      split
      · exact (inner_portProbe _ _ _ s out).steady
      · exact (inner_portEmpty _ _ _ s out).steady
    · exact Steady.refl s
  · exact Steady.refl s

theorem runningOp_op {s : State} {p : Port} {o : Operation} (h : s.runningOp p = some o) :
    (s.port p).op = some o ∧ o.suspended = false := by
  unfold State.runningOp at h
  split at h
  · split at h
    · cases h
    · cases h
      exact ⟨by assumption, by simp_all⟩
  · cases h

theorem steady_identEnds (p : Port) (l : List IdentAnswer) (s : State) : Steady m s (identEnds p l s) := by
  unfold identEnds
  split
  · exact Steady.refl s
  · split
    · refine Steady.trans ?_ (steady_settleStaging _)
      exact (inner_closeOp _ _ _ _ _ s).steady.trans (inner_probeIdent _ _ _ _).steady
    · exact (inner_opFailed _ _ _ _ s (runningOp_op ‹_›).1).steady.trans (steady_settleStaging _)
    · exact Steady.refl s

theorem steady_rdblkEnds (p : Port) (l : List ReadAnswer) (s : State) : Steady m s (rdblkEnds p l s) := by
  unfold rdblkEnds
  split
  · exact Steady.refl s
  · split
    · split
      · exact (inner_readDone _ _ _ _ _ s).steady.trans (steady_settleStaging _)
      · exact (inner_opFailed _ _ _ _ s (runningOp_op ‹_›).1).steady.trans (steady_settleStaging _)
      · exact Steady.refl s
    all_goals exact Steady.refl s

theorem steady_pgblkEnds (p : Port) (l : List ProgramAnswer) (s : State) : Steady m s (pgblkEnds p l s) := by
  unfold pgblkEnds
  split
  · exact Steady.refl s
  · split
    · split
      · exact (inner_programDone _ _ _ s (runningOp_op ‹_›).1 (runningOp_op ‹_›).2).steady.trans (steady_settleStaging _)
      · exact (inner_opFailed _ _ _ _ s (runningOp_op ‹_›).1).steady.trans (steady_settleStaging _)
      · exact Steady.refl s
    all_goals exact Steady.refl s

theorem steady_sleepEnds (p : Port) (l : List CommandAnswer) (s : State) : Steady m s (sleepEnds p l s) := by
  unfold sleepEnds
  split
  · exact Steady.refl s
  · split
    · refine Steady.trans ?_ (steady_settleStaging _)
      exact (inner_closeOp _ _ _ _ _ s).steady.trans (inner_sleepEnded _ _ _ _ _).steady
    · exact (inner_opFailed _ _ _ _ s (runningOp_op ‹_›).1).steady.trans (steady_settleStaging _)
    · exact Steady.refl s

theorem steady_wakeEnds (p : Port) (l : List CommandAnswer) (s : State) : Steady m s (wakeEnds p l s) := by
  unfold wakeEnds
  split
  · exact Steady.refl s
  · split
    · split
      · refine Steady.trans ?_ (steady_settleStaging _)
        exact (inner_closeOp _ _ _ _ _ s).steady.trans (inner_wakeDone _ _).steady
      · exact Steady.refl s
    · exact (inner_opFailed _ _ _ _ s (runningOp_op ‹_›).1).steady.trans (steady_settleStaging _)
    · exact Steady.refl s

theorem steady_opTimesOut (p : Port) (n : Nat) (s : State) : Steady m s (opTimesOut p n s) := by
  unfold opTimesOut
  split
  · exact Steady.refl s
  · split
    · exact (inner_opFailed _ _ _ _ s (runningOp_op ‹_›).1).steady.trans (steady_settleStaging _)
    · exact Steady.refl s

theorem steady_quiesceTimesOut (s : State) : Steady m s (quiesceTimesOut s) := by
  unfold quiesceTimesOut
  split
  · exact Steady.refl s
  · split
    · split
      · refine Steady.trans ?_ (steady_settleStaging _)
        refine (calm_addEntry _ s).steady.trans (inner_endCommit _ _ (fun d hd => ?_)).steady
        rw [(calm_addEntry _ s).mapStore] at hd
        simp_all
      · exact Steady.refl s
    all_goals exact Steady.refl s

/-- The last change of the end of start-up: the part is READY, and START_DONE is raised. -/
theorem endStartup_eq (s : State) : ∃ s1 n, s1 = classifyHeld (s.setMaps { s.mapStore with
    active := s.selected.getD Map.empty, draft := s.selected.getD Map.empty }) ∧
    endStartup s = { s1.setMaps { s1.mapStore with ready := true } with notices := n } ∧
      (NoticesGood s1 → NoticesGood { s1 with notices := n }) := by
  unfold endStartup
  dsimp only
  generalize classifyHeld _ = s1
  obtain ⟨n, hn⟩ := raise_eq ⟨.startDone, none⟩
    (.number (s1.setMaps { s1.mapStore with ready := true }).mapStore.active.generation)
    (s1.setMaps { s1.mapStore with ready := true })
  have k := noticesGood_raise ⟨.startDone, none⟩
    (.number (s1.setMaps { s1.mapStore with ready := true }).mapStore.active.generation)
    (s1.setMaps { s1.mapStore with ready := true }) rfl
  rw [hn] at k
  exact ⟨s1, n, rfl, hn, k⟩

/-- The end of start-up, taken while the part is STARTING. -/
theorem steady_endStartup (s : State) (h : s.mapStore.ready = false) : Steady m s (endStartup s) := by
  obtain ⟨s1, n, h1, e, hn⟩ := endStartup_eq s
  have k1 := near_classifyHeld (s.setMaps { s.mapStore with
    active := s.selected.getD Map.empty, draft := s.selected.getD Map.empty })
  rw [← h1] at k1
  have hmaps : MapsGood s → MapsGood (s1.setMaps { s1.mapStore with ready := true }) ∧
      s.mapStore.active.generation ≤ s1.mapStore.active.generation := fun k => by
    obtain ⟨hn, hg⟩ := k.2 h
    have hm := k1.noCommit hn
    refine ⟨⟨fun c hc => ?_, fun hx => ?_⟩, ?_⟩
    · have hc' : s1.mapStore.commit = some c := hc
      rw [hm] at hc'
      have hc2 : s.mapStore.commit = some c := hc'
      rw [hn] at hc2
      simp at hc2
    · exact absurd (show true = false from hx) (by simp)
    · rw [hg]
      exact BitVec.le_def.mpr (Nat.zero_le _)
  rw [e]
  exact {
    pending := k1.pending
    resetLow := k1.resetLow
    presence := k1.presence
    clock := k1.clock
    uptime := k1.uptime
    ceiling := Nat.le_of_eq k1.ceiling
    errors := k1.errors
    window := fun k => k.of_window (congrArg Link.window k1.link)
    maps := fun k => ⟨(hmaps k).1.of_mapStore rfl, (hmaps k).2⟩
    overlap := fun k => k.of_kept (fun u => (k1.requests u).kept)
    frees := fun _ u hu => (k1.occupied u).trans hu
    admits := fun _ u hu => Option.isSome_eq_false_iff.1 ((k1.occupied u).trans (congrArg Option.isSome hu)) |> Option.isNone_iff_eq_none.1
    counters := fun _ => (congrArg Link.counters k1.link).symm ▸ .refl s.link.counters
    stats := fun _ => k1.stats
    table := fun k => k.of_same k1.requests k1.admissionOrder
    halt := k1.halt
    notices := fun k => hn (k1.notices k)
    staged := fun f k => (k1.good f k).staged
    ports := fun k => e ▸ k.endStartup h }

theorem steady_idleTimerExpires (s : State) : Steady m s (idleTimerExpires s) := by
  unfold idleTimerExpires
  split
  · exact Steady.refl s
  · split
    · refine Steady.trans ?_ (steady_settle _)
      exact ((inner_setPower s _).trans (inner_setIdleTimer _ _)).steady.trans (inner_sleepAll _).steady
    · exact Steady.refl s

theorem steady_completePark (s : State) : Steady m s (completePark s) := by
  unfold completePark
  split
  · refine Steady.trans ?_ (steady_settle _)
    refine Steady.trans ?_ (calm_raiseSingle _ _ _).steady
    exact (inner_setPower s _).steady.trans (inner_sleepAll _).steady
  · exact Steady.refl s

/-! ## The commands -/

theorem steady_live (f : State → State) (h : ∀ s, Steady m s (f s)) {s t : State} (e : live f s = .next t) :
    Steady m s t := by
  unfold live at e
  simp only [Host.Outcome.next.injEq] at e
  subst e
  split
  · exact Steady.refl s
  · exact h s

theorem steady_next {s t u : State} (h : Steady m s u) (e : (Host.Outcome.next u : Host.Outcome State Fault Refusal) = .next t) :
    Steady m s t := by
  simp only [Host.Outcome.next.injEq] at e
  subst e
  exact h

/-- The commands that are not steady. -/
def unsteady : Instr → Bool
  | .resetAssert => true
  | .deviceReset => true
  | .presenceChange _ => true
  | .uptimeTick => true
  | _ => false

/-- What a command may do: an acknowledgment, a break and a link reset may free slots, a tagged request may be admitted
unless the queue is HALTED, and a GET-LOG may clear counters. A held message may be any of these. -/
def mayOf : Instr → State → May
  | .read _ _, s => ⟨false, !s.halted, false⟩
  | .write _ _, s => ⟨false, !s.halted, false⟩
  | .verify _ _, s => ⟨false, !s.halted, false⟩
  | .flush _ _, s => ⟨false, !s.halted, false⟩
  | .getLog _ _, _ => ⟨false, false, true⟩
  | .unknownKind k _ _, s => ⟨false, !s.halted, decide (MsgKind.ofCode k = some .getLog)⟩
  | .heldMessageRelease, s => ⟨false, !s.halted, true⟩
  | .reportAck _, _ => ⟨true, false, false⟩
  | .breakDeclared, _ => ⟨true, false, false⟩
  | .linkReset, _ => ⟨true, false, false⟩
  | _, _ => ⟨false, false, false⟩

theorem halted_cases (b : Bool) : (!b) = true ∨ b = true := by cases b <;> simp

/-- Every command but four is steady. -/
theorem steady_exec (c : Instr) (s t : State) (hc : unsteady c = false) (h : exec c s = .next t) :
    Steady (mayOf c s) s t := by
  have tagged : ∀ k q b, (mayOf c s) = ⟨false, !s.halted, false⟩ → MsgKind.ofCode k ≠ some .getLog →
      Steady (mayOf c s) s (acceptMessage k q b s) := fun k q b e hk =>
    steady_acceptMessage k q b s (.imp_right .inl (by rw [e]; exact halted_cases _)) (.inr hk)
  have plain : ∀ k q b, (∀ j, MsgKind.ofCode k = some j → j.isTagged = false) → MsgKind.ofCode k ≠ some .getLog →
      Steady (mayOf c s) s (acceptMessage k q b s) := fun k q b hj hk =>
    steady_acceptMessage k q b s (.inr (.inr hj)) (.inr hk)
  cases c <;> simp only [unsteady, Bool.true_eq_false] at hc
  case read q b => exact steady_next (tagged _ q b rfl (by decide)) h
  case write q b => exact steady_next (tagged _ q b rfl (by decide)) h
  case verify q b => exact steady_next (tagged _ q b rfl (by decide)) h
  case flush q b => exact steady_next (tagged _ q b rfl (by decide)) h
  case getLog q b =>
    exact steady_next (steady_acceptMessage _ q b s (.inr (.inr (by decide))) (.inl rfl)) h
  case unknownKind k q b =>
    refine steady_next (steady_acceptMessage k q b s (.imp_right .inl (halted_cases _)) ?_) h
    by_cases e : MsgKind.ofCode k = some .getLog
    · exact .inl (by simp [mayOf, e])
    · exact .inr e
  case frameCrcError =>
    simp only [exec, execFrameCrcError, Host.Outcome.next.injEq] at h
    subst h
    split
    · exact steady_counting s _ (LinkCounters.atMost_crcErrors _) rfl
    · exact Steady.refl s
  case framingError =>
    simp only [exec, execFramingError, Host.Outcome.next.injEq] at h
    subst h
    split
    · exact steady_counting s _ (LinkCounters.atMost_framingErrors _) rfl
    · exact Steady.refl s
  case oversizeFrame =>
    simp only [exec, execOversizeFrame, Host.Outcome.next.injEq] at h
    subst h
    split
    · exact steady_counting s _ (LinkCounters.atMost_oversizeFrames _) rfl
    · exact Steady.refl s
  case heldMessageRelease =>
    simp only [exec, execHeldMessageRelease, live, Host.Outcome.next.injEq] at h
    subst h
    split
    · exact Steady.refl s
    · exact steady_releaseHeld s (halted_cases _) rfl
  case reportAck n => exact steady_next (steady_acceptAck n s rfl) h
  case breakDeclared => exact steady_live _ (fun s => steady_declareBreak s rfl) h
  case linkReset =>
    simp only [exec, execLinkReset] at h
    refine steady_live _ ?_ h
    intro s
    split
    · exact steady_resetLink _ s rfl
    · exact Steady.refl s
  case outboundChoice => exact steady_live _ steady_chooseOutbound h
  case transmissionEnd => exact steady_live _ steady_endTransmission h
  case reportTimerExpiry n => exact steady_live _ (steady_reportTimerExpires n) h
  case debounceExpiry p => exact steady_live _ (steady_debounceEnds p) h
  case arbiterChoice p => exact steady_live _ (fun s => (inner_arbitrate p s).steady.trans (steady_settle _)) h
  case identEnd p l => exact steady_live _ (steady_identEnds p l) h
  case rdblkEnd p l => exact steady_live _ (steady_rdblkEnds p l) h
  case pgblkEnd p l => exact steady_live _ (steady_pgblkEnds p l) h
  case sleepEnd p l => exact steady_live _ (steady_sleepEnds p l) h
  case wakeEnd p l => exact steady_live _ (steady_wakeEnds p l) h
  case opTimeout p n => exact steady_live _ (steady_opTimesOut p n) h
  case quiesceEvaluation => exact steady_live _ (fun s => (inner_evalQuiesce s).steady.trans (steady_settle _)) h
  case quiesceTimeout => exact steady_live _ steady_quiesceTimesOut h
  case startupEnd =>
    simp only [exec, execStartupEnd] at h
    refine steady_live _ ?_ h
    intro s
    split
    next k => exact (steady_endStartup s k.1).trans (steady_settleStaging _)
    · exact Steady.refl s
  case dataTimerExpiry t => exact steady_live _ (steady_dataTimerExpires t) h
  case grantFormation => exact steady_live _ (fun s => (calm_formGrants s).steady.trans (steady_settleStaging _)) h
  case returnSlotAssignment => exact steady_live _ (fun s => (calm_assignReturns s).steady.trans (steady_settleStaging _)) h
  case holdRelease => exact steady_live _ (fun s => (calm_releaseHolds s).steady.trans (steady_settleStaging _)) h
  case idleTimerExpiry => exact steady_live _ steady_idleTimerExpires h
  case parkComplete => exact steady_live _ steady_completePark h
  case breakEnd =>
    simp only [exec, execBreakEnd] at h
    refine steady_live _ ?_ h
    intro s
    split
    · exact steady_sameWindow s _ rfl rfl
    · exact Steady.refl s
  case skippingEnd =>
    simp only [exec, execSkippingEnd] at h
    refine steady_live _ ?_ h
    intro s
    split
    · exact steady_sameWindow s _ rfl rfl
    · exact Steady.refl s
  all_goals exact steady_next (plain _ _ _ (by decide) (by decide)) h

/-! ## The other four -/

theorem steady_presenceChanged (p : Port) (b : Bool) (s : State) : Steady m s (presenceChanged p b s) := by
  unfold presenceChanged
  split
  · refine Inner.steady ?_
    exact inner_setDebounce s p _
  · exact (inner_enterDebounce p b s).steady.trans (steady_settleStaging _)

/-- What a command other than DEVICE_RESET cannot do, whichever it is: the laws of the device (R13, R22, R27, R31, R192,
R211, R217) hold across it. -/
structure Lawful (m : May) (s t : State) : Prop where
  pending : t.pending = s.pending
  ceiling : t.mapStore.ceiling ≤ s.mapStore.ceiling
  errors : s.log.errorCount ≤ t.log.errorCount
  window : WindowGood s → WindowGood t
  maps : MapsGood s → MapsGood t ∧ s.mapStore.active.generation ≤ t.mapStore.active.generation
  overlap : OverlapGood s → OverlapGood t
  frees : m.frees = false → ∀ u, (s.request u).isSome → (t.request u).isSome
  admits : m.admits = false → ∀ u, s.request u = none → t.request u = none
  counters : m.clears = false → s.link.counters.atMost t.link.counters
  stats : m.clears = false → ∀ p, (s.port p).stats.atMost (t.port p).stats
  table : TableGood s → TableGood t
  halt : TableGood s → HaltGood s → HaltGood t
  notices : NoticesGood s → NoticesGood t
  staged : FaultKeeps → StageGood s → Staged t
  ports : PortsGood s → PortsGood t

theorem Steady.lawful {s t : State} (h : Steady m s t) : Lawful m s t where
  pending := h.pending
  ceiling := h.ceiling
  errors := h.errors
  window := h.window
  maps := h.maps
  overlap := h.overlap
  frees := h.frees
  admits := h.admits
  counters := h.counters
  stats := h.stats
  table := h.table
  halt := h.halt
  notices := h.notices
  staged := h.staged
  ports := h.ports

theorem Lawful.stageGood {s t : State} (h : Lawful m s t) (f : FaultKeeps) (k : StageGood s) : StageGood t :=
  ⟨h.table k.1, h.halt k.1 k.2.1, h.overlap k.2.2.1, h.staged f k⟩

theorem cutOffs_spec (l : List Port) (s : State) :
    (∃ v, l.foldl (fun acc p => cutOff p acc) s = { s with ports := v }) ∧
      ∀ q, ((l.foldl (fun acc p => cutOff p acc) s).port q).stats = (s.port q).stats := by
  induction l generalizing s with
  | nil => exact ⟨⟨s.ports, rfl⟩, fun _ => rfl⟩
  | cons p l ih =>
    obtain ⟨⟨v, hv⟩, hs⟩ := ih (cutOff p s)
    refine ⟨⟨v, hv⟩, fun q => (hs q).trans ?_⟩
    unfold cutOff
    rw [State.port_setPort]
    split
    next e => rw [e]
    · rfl

/-- Every command but DEVICE_RESET is lawful. -/
theorem lawful_exec (c : Instr) (s t : State) (hc : c ≠ .deviceReset) (h : exec c s = .next t) :
    Lawful (mayOf c s) s t := by
  by_cases hu : unsteady c = false
  · exact (steady_exec c s t hu h).lawful
  · cases c <;> simp only [unsteady, not_true_eq_false, ne_eq, reduceCtorEq, not_false_eq_true] at hu hc
    case resetAssert =>
      simp only [exec, execResetAssert, Host.Outcome.next.injEq] at h
      obtain ⟨⟨v, hv⟩, hs⟩ := cutOffs_spec allPorts { s with
        resetLow := true, notices := { s.notices with attn := false }, link := { s.link with transmission := none } }
      have hp := PortsGood.foldl (fun acc p => cutOff p acc) (fun v p k => k.alike p _ ⟨rfl, rfl, rfl, .inr (.inl rfl)⟩) allPorts
        { s with resetLow := true, notices := { s.notices with attn := false }, link := { s.link with transmission := none } }
      rw [h] at hv hs hp
      subst hv
      exact { (Steady.refl s).lawful with
        stats := fun _ p => by rw [hs p]; exact .refl _
        ports := fun k => hp (k.of_same (fun _ => rfl) rfl) }
    case presenceChange p =>
      simp only [exec, execPresenceChange, Host.Outcome.next.injEq] at h
      subst h
      split
      · exact { (Steady.refl s).lawful with }
      · exact { (steady_presenceChanged (m := mayOf (.presenceChange p) s) p (!s.presence[p])
          { s with presence := s.presence.set p (!s.presence[p]) }).lawful with }
    case uptimeTick =>
      simp only [exec, execUptimeTick, live, Host.Outcome.next.injEq] at h
      subst h
      split
      all_goals exact { (Steady.refl s).lawful with }

end Sys2Proof.Machine
end

