-- ==== Sys2Proof/Laws/Message.lean ====
section
/-! SUPPORT. A message that is taken at once: what it comes to, once its owner's answer is known. -/

namespace Sys2Proof.Machine

theorem MsgKind.ofCode_code (k : MsgKind) : MsgKind.ofCode k.code = some k := by cases k <;> decide

/-- A message taken at once is processed on the state with the frame counted (R206, R208). -/
theorem acceptMessage_takes {s : State} {q : Byte} (h : s.takes q) (kind : Byte) (body : List Byte)
    (hk : MsgKind.ofCode kind ≠ some .linkSync) :
    acceptMessage kind q body s = processMessage ⟨kind, q, body⟩ (acceptFrame s) := by
  obtain ⟨h1, h2, h3, h4, h5⟩ := h
  have e2 : (acceptFrame s).link.resetWait = .noReset := h2
  have e3 : (acceptFrame s).link.heldMessage = none := h3
  have e4 : (acceptFrame s).link.pendingReply = none := h4
  have e5 : q = (acceptFrame s).link.expected := h5
  unfold acceptMessage routeMessage takeMessage checkSequence
  rw [if_pos h1, if_neg (by simp [e2, e3]), if_neg (by simp [e4]), if_neg hk, if_pos e5]

/-- What the processing comes to when the owner leaves the link alone. -/
theorem processMessage_replied {s : State} {q : Byte} (kind : Byte) (body : List Byte) {a : Answer}
    (ha : dispatch kind body (acceptFrame s) = a) (hl : a.state.link = (acceptFrame s).link) :
    processMessage ⟨kind, q, body⟩ (acceptFrame s) =
      { a.state with link := s.link.replied q (kind :: a.fields) a.effect } := by
  unfold processMessage
  dsimp only
  rw [ha, hl]
  rfl

/-- A message of kind `k`, taken at once, whose owner leaves the link alone. -/
theorem acceptMessage_replied {s : State} {q : Byte} (h : s.takes q) (k : MsgKind) (hk : k ≠ .linkSync) (body : List Byte)
    {a : Answer} (ha : takeKind k body (acceptFrame s) = a) (hl : a.state.link = (acceptFrame s).link) :
    acceptMessage k.code q body s = { a.state with link := s.link.replied q (k.code :: a.fields) a.effect } := by
  rw [acceptMessage_takes h _ _ (by rw [MsgKind.ofCode_code]; simpa using hk)]
  refine processMessage_replied _ _ ?_ hl
  unfold dispatch
  rw [MsgKind.ofCode_code]
  exact ha

end Sys2Proof.Machine
end

