-- ==== Sys2Proof/Laws/Link.lean ====
section
/-! SUPPORT. A message on its way to the sequence check, and the parts of a link reset. -/

namespace Sys2Proof.Machine

/-- A command that brings a message passes it to `acceptMessage`. -/
theorem exec_carries {c : Instr} {k q : Byte} {body : List Byte} (h : carries c k q body) (s : State) :
    exec c s = .next (acceptMessage k q body s) := by
  rcases h with ⟨m, rfl, rfl⟩ | ⟨_, rfl⟩
  · cases m <;> rfl
  · rfl

theorem acceptMessage_receives {s : State} (h : s.receives = true) (k q : Byte) (body : List Byte) :
    acceptMessage k q body s = routeMessage ⟨k, q, body⟩ (acceptFrame s) := by unfold acceptMessage; rw [if_pos h]

theorem takeMessage_check {s : State} (m : Message) (hk : m.kind ≠ 0x15) : takeMessage m s = checkSequence m s := by
  unfold takeMessage
  rw [if_neg]
  intro h
  have := of_decide_eq_true <| List.find?_some (p := fun k => MsgKind.code k = m.kind) h
  exact hk this.symm

/-- A message taken at once: the command's outcome, once its owner's answer is known. -/
theorem exec_message {s : State} {q : Byte} (hs : s.takes q) (k : MsgKind) (hk : k ≠ .linkSync) (body fs : List Byte)
    (e : ReplyEffect) (t : State) (ha : takeKind k body (acceptFrame s) = ⟨fs, e, t⟩)
    (hl : t.link = (acceptFrame s).link) :
    exec (k.command q body) s = .next { t with link := s.link.replied q (k.code :: fs) e } := by
  rw [exec_carries (.inl ⟨k, rfl, rfl⟩), acceptMessage_replied hs k hk body ha hl]

/-- The window has room (R211). -/
theorem State.windowRoom_iff (s : State) :
    s.windowRoom = true ↔ s.link.window.length < 4 ∧ ∀ x ∈ s.link.window, x.seq ≠ s.link.reportSeq := by
  unfold State.windowRoom
  rw [Bool.and_eq_true, decide_eq_true_iff, List.all_eq_true]
  simp only [decide_eq_true_eq]
  exact Iff.rfl

theorem resetPark_eq (s : State) : resetPark s = { s with
    power := if s.power.state = .parking ∨ s.power.state = .parked then
      { s.power with state := .active, marks := Vector.replicate 4 .clear } else s.power } := by
  unfold resetPark; split <;> rfl

theorem mem_allSlots (i : SlotNo) : i ∈ allSlots := by revert i; decide

theorem resetFilling_eq (s : State) : resetFilling s = { s with
    staging := { s.staging with slots := s.staging.slots.map (fun x => if x.isFilling then .free else x) } } := by
  have F : ∀ (l : List SlotNo) (t : State), l.Nodup → ∃ v,
      l.foldl (fun acc i => if (acc.slot i).isFilling then acc.setStaging i .free else acc) t =
        { t with staging := { t.staging with slots := v } } ∧
      ∀ j : SlotNo, v[j] = if j ∈ l then (if (t.slot j).isFilling then .free else t.slot j) else t.slot j := by
    intro l
    induction l with
    | nil => intro t _; exact ⟨t.staging.slots, rfl, fun j => by simp; rfl⟩
    | cons a l ih =>
      intro t hn
      rw [List.nodup_cons] at hn
      rw [List.foldl_cons]
      split
      next h =>
        obtain ⟨v, h1, h2⟩ := ih (t.setStaging a .free) hn.2
        refine ⟨v, by rw [h1]; rfl, fun j => ?_⟩
        rw [h2]
        by_cases hj : j = a
        · subst hj; simp [hn.1, h]
        · simp [hj]
      next h =>
        obtain ⟨v, h1, h2⟩ := ih t hn.2
        refine ⟨v, h1, fun j => ?_⟩
        rw [h2]
        by_cases hj : j = a
        · subst hj; simp [hn.1, h]
        · simp [hj]
  obtain ⟨v, h1, h2⟩ := F allSlots s (by decide)
  unfold resetFilling
  rw [h1]
  have : v = s.staging.slots.map (fun x => if x.isFilling then .free else x) := by
    apply Vector.ext
    intro i hi
    have := h2 ⟨i, hi⟩
    rw [if_pos (mem_allSlots _)] at this
    rw [Vector.getElem_map]
    exact this
  rw [this]

end Sys2Proof.Machine
end

