-- ==== Sys2Proof/Laws/Settle.lean ====
section
/-! SUPPORT. What the end of an event does: `settle` and `settleStaging` answer to `restsAs` and `endsAs`, which do not
look at the link but for its LOST mark. -/

namespace Sys2Proof.Machine

/-! ## SLEEP asked of resting ports -/

/-- Ports and sleep marks after some ports were asked for SLEEP. -/
structure Rested (s t : State) : Prop where
  eq : ∃ v m, t = { s with ports := v, power := { s.power with marks := m } }
  port : ∀ p, t.port p = { s.port p with engine := (t.port p).engine, op := (t.port p).op }
  still : ∀ p, s.resting = false ∨ s.laneIdle p = false → t.port p = s.port p ∧ t.mark p = s.mark p

theorem Rested.refl (s : State) : Rested s s := ⟨⟨s.ports, s.power.marks, rfl⟩, fun _ => rfl, fun _ _ => ⟨rfl, rfl⟩⟩

theorem Rested.trans {s t u : State} (h : Rested s t) (k : Rested t u) : Rested s u := by
  obtain ⟨⟨v, m, e⟩, hp, hs⟩ := h
  obtain ⟨⟨v', m', e'⟩, kp, ks⟩ := k
  refine ⟨⟨v', m', by rw [e', e]⟩, fun p => ?_, fun p hh => ?_⟩
  · rw [kp p, hp p]
  · have h1 := hs p hh
    have h2 : t.resting = false ∨ t.laneIdle p = false := by
      rcases hh with hh | hh
      · left
        rw [e]
        exact hh
      · right
        unfold State.laneIdle
        rw [h1.1]
        exact hh
    have h3 := ks p h2
    exact ⟨h3.1.trans h1.1, h3.2.trans h1.2⟩

theorem rested_askSleep (p : Port) (s : State) (hr : s.resting = true) (hi : s.laneIdle p = true) :
    Rested s (askSleep p s) := by
  have other : ∀ q, s.resting = false ∨ s.laneIdle q = false → q ≠ p := by
    rintro q (h | h) rfl
    · rw [hr] at h
      cases h
    · rw [hi] at h
      cases h
  unfold askSleep
  split
  · refine ⟨⟨s.ports, _, rfl⟩, fun q => by simp, fun q hq => ?_⟩
    simp [other q hq]
  · split
    · refine ⟨⟨_, _, rfl⟩, fun q => ?_, fun q hq => ?_⟩
      · by_cases e : q = p
        · subst e
          simp [startOp]
        · simp [startOp, e]
      · simp [startOp, other q hq]
    · refine ⟨⟨s.ports, _, rfl⟩, fun q => by simp, fun q hq => ?_⟩
      simp [other q hq]

theorem rested_restPort (p : Port) (s : State) : Rested s (restPort p s) := by
  unfold restPort
  split
  next h =>
    simp only [Bool.and_eq_true] at h
    exact rested_askSleep p s h.1.1.1 h.1.1.2
  · exact Rested.refl s

theorem rested_restPorts (s : State) : Rested s (restPorts s) := by
  unfold restPorts
  generalize allPorts = l
  induction l generalizing s with
  | nil => exact Rested.refl s
  | cons p l ih => exact (rested_restPort p s).trans (ih _)

/-! ## The end of an event -/

/-- The conditions that are evaluated are the seven of R161. -/
theorem State.idleConditions_iff (s : State) : s.idleConditions = true ↔ s.idleAllows s.params.idleCode := by
  have tags : ∀ t, t ∈ allTags := by decide
  have ports : ∀ p, p ∈ allPorts := by decide
  have slots : ∀ i, i ∈ allSlots := by decide
  unfold State.idleConditions State.idleAllows State.allFree State.quiet State.opInFlight
  simp [tags, ports, slots, and_assoc]

theorem idleConditions_setIdleTimer (s : State) (x : Option Nat) : (s.setIdleTimer x).idleConditions = s.idleConditions :=
  rfl

theorem restsAs_settle (s : State) : s.restsAs (settle s) := by
  obtain ⟨⟨v, m, e⟩, hp, hs⟩ := rested_restPorts s
  unfold settle
  generalize restPorts s = t at e hp hs
  have hi : ∃ x, evalIdle t = t.setIdleTimer x ∧ x = (if t.idleConditions then s.power.idleTimer.or s.idleExpiry else none) := by
    unfold evalIdle
    split
    next h =>
      split
      next y hy =>
        have hs : s.power.idleTimer = some y := by rw [e] at hy; exact hy
        refine ⟨some y, ?_, by rw [hs]; rfl⟩
        rw [← hy]
        rfl
      next hy =>
        have hs : s.power.idleTimer = none := by rw [e] at hy; exact hy
        refine ⟨_, rfl, ?_⟩
        rw [hs, e]
        rfl
    · exact ⟨none, rfl, rfl⟩
  obtain ⟨x, hx, hv⟩ := hi
  rw [hx]
  subst e
  exact ⟨rfl, rfl, rfl, rfl, rfl, rfl, rfl, rfl, rfl, by rw [idleConditions_setIdleTimer]; exact hv, hp, hs⟩

theorem endsAs_settleStaging (s : State) : s.endsAs (settleStaging s) := restsAs_settle _

theorem settle_link (s : State) : (settle s).link = s.link := by
  obtain ⟨⟨v, m, e⟩, _, _⟩ := rested_restPorts s
  unfold settle evalIdle
  rw [e]
  split
  · split <;> rfl
  · rfl

theorem settleStaging_link (s : State) : (settleStaging s).link = s.link :=
  (settle_link _).trans (calm_evalPressure s).link

/-! ## What the end of an event can change at all -/

theorem settle_eq (s : State) : ∃ v m i, settle s = { s with ports := v, power := { s.power with marks := m, idleTimer := i } } := by
  obtain ⟨⟨v, m, e⟩, _, _⟩ := rested_restPorts s
  unfold settle evalIdle
  rw [e]
  split
  · split
    · exact ⟨v, m, s.power.idleTimer, rfl⟩
    · exact ⟨v, m, _, rfl⟩
  · exact ⟨v, m, none, rfl⟩

theorem evalPressure_eq (s : State) :
    ∃ n b, evalPressure s = { s with notices := n, staging := { s.staging with pressure := b } } := by
  unfold evalPressure
  split
  · split
    · exact ⟨_, _, rfl⟩
    · exact ⟨s.notices, s.staging.pressure, rfl⟩
  · split
    · obtain ⟨n, e⟩ := raise_eq ⟨.stagingHigh, none⟩ (.count s.nonFree)
        { s with staging := { s.staging with pressure := true } }
      exact ⟨n, true, e⟩
    · exact ⟨s.notices, s.staging.pressure, rfl⟩

theorem settleStaging_eq (s : State) : ∃ n b v m i, settleStaging s = { s with
    notices := n, staging := { s.staging with pressure := b }
    ports := v, power := { s.power with marks := m, idleTimer := i } } := by
  obtain ⟨n, b, e⟩ := evalPressure_eq s
  obtain ⟨v, m, i, h⟩ := settle_eq (evalPressure s)
  refine ⟨n, b, v, m, i, ?_⟩
  unfold settleStaging
  rw [h, e]

theorem settleStaging_table (s : State) : (settleStaging s).table = s.table := by
  obtain ⟨n, b, v, m, i, e⟩ := settleStaging_eq s
  rw [e]

theorem settleStaging_mover (s : State) : (settleStaging s).mover = s.mover := by
  obtain ⟨n, b, v, m, i, e⟩ := settleStaging_eq s
  rw [e]

theorem settleStaging_slots (s : State) : (settleStaging s).staging.slots = s.staging.slots := by
  obtain ⟨n, b, v, m, i, e⟩ := settleStaging_eq s
  rw [e]

theorem settleStaging_drainOrder (s : State) : (settleStaging s).staging.drainOrder = s.staging.drainOrder := by
  obtain ⟨n, b, v, m, i, e⟩ := settleStaging_eq s
  rw [e]

theorem settleStaging_mapStore (s : State) : (settleStaging s).mapStore = s.mapStore := by
  obtain ⟨n, b, v, m, i, e⟩ := settleStaging_eq s
  rw [e]

theorem settleStaging_log (s : State) : (settleStaging s).log = s.log := by
  obtain ⟨n, b, v, m, i, e⟩ := settleStaging_eq s
  rw [e]

theorem settleStaging_params (s : State) : (settleStaging s).params = s.params := by
  obtain ⟨n, b, v, m, i, e⟩ := settleStaging_eq s
  rw [e]

theorem settleStaging_powerState (s : State) : (settleStaging s).power.state = s.power.state := by
  obtain ⟨n, b, v, m, i, e⟩ := settleStaging_eq s
  rw [e]

theorem settleStaging_request (s : State) (t : Tag) : (settleStaging s).request t = s.request t := by
  unfold State.request
  rw [settleStaging_table]

theorem settleStaging_slot (s : State) (i : SlotNo) : (settleStaging s).slot i = s.slot i := by
  unfold State.slot
  rw [settleStaging_slots]

theorem settleStaging_writeRecord (s : State) (t : Tag) : (settleStaging s).writeRecord t = s.writeRecord t := by
  unfold State.writeRecord
  rw [settleStaging_mover]

theorem settleStaging_fetchRecord (s : State) (t : Tag) : (settleStaging s).fetchRecord t = s.fetchRecord t := by
  unfold State.fetchRecord
  rw [settleStaging_mover]

theorem settleStaging_returnSlot (s : State) (r : RetNo) : (settleStaging s).returnSlot r = s.returnSlot r := by
  unfold State.returnSlot
  rw [settleStaging_mover]

/-! ## The link does not matter -/

theorem joinOrder_setLink (k : NoticeKey) (s : State) (l : Link) :
    State.joinOrder { s with link := l } k = { s.joinOrder k with link := l } := by
  unfold State.joinOrder State.noticeEnabled
  dsimp only
  by_cases e : s.params.noticeEnable.getLsbD (k.kind.code - 1) = true
  · rw [if_pos e, if_pos e]
  · rw [if_neg e, if_neg e]

theorem raiseTable_setLink (k : NoticeKey) (d : NoticeDetail) (s : State) (l : Link) :
    raiseTable k d { s with link := l } = { raiseTable k d s with link := l } := by
  have hn : State.notice { s with link := l } k = s.notice k := rfl
  unfold raiseTable
  rw [hn]
  cases s.notice k with
  | none =>
    exact joinOrder_setLink k
      { s with notices := { s.notices with pending := insertNotice ⟨k, 1, d, .unreported⟩ s.notices.pending } } l
  | some n =>
    dsimp only
    cases n.report
    · rfl
    · rfl
    · exact joinOrder_setLink _ (s.putNotice _) l

theorem raiseTable_link (k : NoticeKey) (d : NoticeDetail) (s : State) : (raiseTable k d s).link = s.link := by
  obtain ⟨n, e⟩ := raise_eq k d s
  exact (congrArg State.link e : (evalAttn (raiseTable k d s)).link = _)

theorem evalAttn_setLink (s : State) (l : Link) (h : l.lost = s.link.lost) :
    evalAttn { s with link := l } = { evalAttn s with link := l } := by
  unfold evalAttn State.attnLevel State.noticeEnabled
  dsimp only
  rw [h]

theorem raise_setLink (k : NoticeKey) (d : NoticeDetail) (s : State) (l : Link) (h : l.lost = s.link.lost) :
    raise k d { s with link := l } = { raise k d s with link := l } := by
  unfold raise
  rw [raiseTable_setLink]
  exact evalAttn_setLink _ l (by rw [raiseTable_link]; exact h)

theorem evalPressure_setLink (s : State) (l : Link) (h : l.lost = s.link.lost) :
    evalPressure { s with link := l } = { evalPressure s with link := l } := by
  have hn : State.nonFree { s with link := l } = s.nonFree := rfl
  unfold evalPressure
  rw [hn]
  dsimp only
  split
  · split <;> rfl
  · split
    · exact raise_setLink _ _ { s with staging := { s.staging with pressure := true } } l h
    · rfl

/-- What ends an event does not look at the link but for LOST, on either side. -/
theorem State.endsAs_setLink (s t : State) (l m : Link) (h : l.lost = s.link.lost) :
    State.endsAs { s with link := l } { t with link := m } ↔ s.endsAs t := by
  unfold State.endsAs
  rw [evalPressure_setLink s l h]
  exact Iff.rfl

theorem State.restsAs_setLink (s t : State) (l m : Link) : State.restsAs { s with link := l } { t with link := m } ↔ s.restsAs t :=
  Iff.rfl

/-- The form in which it is used of a message: the event ran with the frame counted, and the reply joined the link. -/
theorem State.endsAs_message {s t : State} (l m : Link) (h : l.lost = s.link.lost)
    (k : State.endsAs { s with link := l } t) : s.endsAs { t with link := m } := by
  unfold State.endsAs at k ⊢
  rw [evalPressure_setLink s l h] at k
  exact k

theorem State.restsAs_message {s t : State} (l m : Link) (k : State.restsAs { s with link := l } t) :
    s.restsAs { t with link := m } := k

end Sys2Proof.Machine
end

