-- ==== Sys2Proof/Laws/Arbiter.lean ====
section
/-! SUPPORT. The users of a lane and the arbiter's choice among them, said once (R78, R118, R119, R120). -/

namespace Sys2Proof.Machine

/-! ## The first of a list -/

theorem find_firstOf {α : Type} {l : List α} {f : α → Bool} {P : α → Prop} (h : ∀ y, f y = true ↔ P y) (y : α) :
    l.find? f = some y ↔ firstOf l P y := by
  rw [List.find?_eq_some_iff_append]
  unfold firstOf
  constructor
  · rintro ⟨hy, a, b, e, hz⟩
    exact ⟨a, b, e, (h y).1 hy, fun z hm c => by have := hz z hm; rw [(h z).2 c] at this; cases this⟩
  · rintro ⟨a, b, e, hy, hz⟩
    refine ⟨(h y).2 hy, a, b, e, fun z hm => ?_⟩
    have := hz z hm
    rw [← h z] at this
    simpa using this

theorem firstOf_exists {α : Type} {l : List α} {P : α → Prop} (y : α) (hm : y ∈ l) (hp : P y) : ∃ z, firstOf l P z := by
  classical
  have : (l.find? (fun z => decide (P z))).isSome = true := by
    rw [List.find?_isSome]
    exact ⟨y, hm, by simpa using hp⟩
  obtain ⟨z, hz⟩ := Option.isSome_iff_exists.1 this
  exact ⟨z, (find_firstOf (fun y => by simp) z).1 hz⟩

theorem firstOf_unique {α : Type} {l : List α} {P : α → Prop} {y z : α} (h : firstOf l P y) (k : firstOf l P z) : y = z := by
  classical
  have a := (find_firstOf (f := fun v => decide (P v)) (fun y => by simp) y).2 h
  have b := (find_firstOf (f := fun v => decide (P v)) (fun y => by simp) z).2 k
  rw [a] at b
  exact Option.some.inj b

/-! ## Candidates -/

theorem State.drainEligible_iff (s : State) (p : Port) (i : SlotNo) : s.drainEligible p i = true ↔ s.mayDrain p i := by
  unfold State.drainEligible State.mayDrain
  cases h : s.slot i with
  | dirty x m d =>
    dsimp only
    simp only [Bool.and_eq_true, Option.isNone_iff_eq_none]
    have : s.findLbn StagingSlot.isDraining x = none ↔ ∀ j y n e, s.slot j = .draining y n e → y ≠ x := by
      unfold State.findLbn
      rw [List.find?_eq_none]
      constructor
      · intro c j y n e hj hy
        have := c j (mem_allSlots j)
        rw [hj] at this
        simp [StagingSlot.isDraining, StagingSlot.lbn?, hy] at this
      · intro c j _ hc
        simp only [Bool.and_eq_true, decide_eq_true_eq] at hc
        cases hj : s.slot j with
        | draining y n e =>
          rw [hj] at hc
          exact c j y n e hj (by simpa [StagingSlot.lbn?] using hc.2)
        | _ => rw [hj] at hc; simp [StagingSlot.isDraining] at hc
    rw [this]
    constructor
    · rintro ⟨⟨a, b⟩, c⟩
      exact ⟨x, m, d, rfl, a, b, c⟩
    · rintro ⟨x', m', d', e, a, b, c⟩
      cases e
      exact ⟨⟨a, b⟩, c⟩
  | _ =>
    constructor
    · intro c; cases c
    · rintro ⟨x', m', d', e, _⟩; cases e

theorem State.drainsOpen_iff (s : State) : s.drainsOpen = true ↔ (s.power.state = .active ∨ s.power.state = .lowPower) := by
  unfold State.drainsOpen
  simp

theorem State.openThrough_iff (s : State) (p : Port) (i : SlotNo) : s.openThrough p = some i ↔ s.isThroughCandidate p i := by
  unfold State.openThrough State.isThroughCandidate State.throughCandidate
  rw [← s.drainsOpen_iff]
  by_cases h : s.drainsOpen = true
  · rw [if_pos h, find_firstOf (P := fun j => s.mayDrain p j ∧ (s.slot j).isThrough = true)
      (fun y => by rw [Bool.and_eq_true, s.drainEligible_iff])]
    exact ⟨fun c => ⟨h, c⟩, fun c => c.2⟩
  · rw [if_neg h]
    exact ⟨fun c => (by cases c), fun c => absurd c.1 h⟩

theorem State.openDrain_iff (s : State) (p : Port) (i : SlotNo) : s.openDrain p = some i ↔ s.isDrainCandidate p i := by
  unfold State.isDrainCandidate
  have T := s.openThrough_iff p
  unfold State.openDrain State.drainCandidate
  unfold State.openThrough at T
  rw [← s.drainsOpen_iff]
  by_cases h : s.drainsOpen = true
  · simp only [if_pos h] at T ⊢
    cases e : s.throughCandidate p with
    | some j =>
      dsimp only
      rw [e] at T
      constructor
      · intro c; cases c; exact .inl ((T i).1 rfl)
      · rintro (c | c)
        · exact (T i).2 c
        · exact absurd ((T j).1 rfl) (c.1 j)
    | none =>
      dsimp only
      rw [e] at T
      rw [find_firstOf (P := s.mayDrain p) (fun y => s.drainEligible_iff p y)]
      constructor
      · intro c; exact .inr ⟨fun j hj => (by have := (T j).2 hj; cases this), h, c⟩
      · rintro (c | c)
        · have := (T i).2 c; cases this
        · exact c.2.2
  · simp only [if_neg h] at T ⊢
    constructor
    · intro c; cases c
    · rintro (c | c)
      · have := (T i).2 c; cases this
      · exact absurd c.2.1 h

/-! ## Classes -/

/-- The user of class `n` of R119, as the arbiter reads it. -/
def State.classUser (s : State) (p : Port) : Nat → Option LaneUser
  | 1 => s.probeUser p
  | 2 => s.mapWriteUser p
  | 3 => s.fetchUser p true
  | 4 => (s.openThrough p).map LaneUser.drain
  | 5 => if s.staging.pressure then (s.openDrain p).map LaneUser.drain else none
  | 6 => s.fetchUser p false
  | 7 => (s.openDrain p).map LaneUser.drain
  | _ => none

theorem State.fetchUser_iff (s : State) (p : Port) (b : Bool) (t : Tag) :
    s.fetchUser p b = some (.fetch t) ↔ s.isOldestFetch p b t := by
  unfold State.fetchUser State.isOldestFetch
  by_cases h : (s.port p).cls = .pooled
  · rw [if_pos h]
    have := find_firstOf (l := s.table.admissionOrder) (f := fun t => s.waitsOn p t && decide (s.isUrgent t = b))
      (P := fun v => s.waitsOn p v = true ∧ s.isUrgent v = b) (fun y => by simp) t
    rw [← this, Option.map_eq_some_iff]
    constructor
    · rintro ⟨a, e, c⟩; cases c; exact ⟨h, e⟩
    · rintro ⟨_, e⟩; exact ⟨t, e, rfl⟩
  · rw [if_neg h]
    exact ⟨fun c => (by cases c), fun c => absurd c.1 h⟩

theorem State.fetchUser_form (s : State) (p : Port) (b : Bool) (u : LaneUser) (h : s.fetchUser p b = some u) : ∃ t, u = .fetch t := by
  unfold State.fetchUser at h
  split at h
  · obtain ⟨t, _, e⟩ := Option.map_eq_some_iff.1 h
    exact ⟨t, e.symm⟩
  · cases h

theorem State.isUser_iff (s : State) (p : Port) (n : Nat) (u : LaneUser) : s.isUser p n u ↔ s.classUser p n = some u := by
  have fetch : ∀ b, (s.fetchUser p b = some u ↔ ∃ t, u = .fetch t ∧ s.isOldestFetch p b t) := by
    intro b
    constructor
    · intro h
      obtain ⟨t, e⟩ := s.fetchUser_form p b u h
      exact ⟨t, e, (s.fetchUser_iff p b t).1 (e ▸ h)⟩
    · rintro ⟨t, e, h⟩
      rw [e]
      exact (s.fetchUser_iff p b t).2 h
  have drain : (((s.openDrain p).map LaneUser.drain) = some u ↔ ∃ i, u = .drain i ∧ s.isDrainCandidate p i) := by
    rw [Option.map_eq_some_iff]
    constructor
    · rintro ⟨i, a, b⟩; exact ⟨i, b.symm, (s.openDrain_iff p i).1 a⟩
    · rintro ⟨i, a, b⟩; exact ⟨i, (s.openDrain_iff p i).2 b, a.symm⟩
  match n with
  | 0 => cases u <;> simp [State.isUser, State.classUser]
  | 1 =>
    show _ ↔ s.probeUser p = some u
    unfold State.probeUser
    by_cases h : (s.port p).cls = .probe
    · rw [if_pos h]
      cases e : (s.port p).probe with
      | none =>
        cases u <;> simp [State.isUser, e]
      | some pr =>
        cases u with
        | probe step =>
          show (_ ∧ _ ∧ ∃ pr, _) ↔ _
          dsimp only
          cases hs : pr.step <;> cases step <;> simp [h, e, hs]
        | _ =>
          dsimp only
          cases hs : pr.step <;> simp [State.isUser]
    · rw [if_neg h]
      cases u <;> simp [State.isUser, h]
  | 2 =>
    show _ ↔ s.mapWriteUser p = some u
    unfold State.mapWriteUser
    cases e : s.mapStore.commit with
    | none => cases u <;> simp [State.isUser, e]
    | some c =>
      dsimp only
      have W : s.writingPhase = true ↔ ∀ m, c.phase ≠ .quiesce m := by
        unfold State.writingPhase
        rw [e]
        dsimp only
        cases hp : c.phase <;> simp
      by_cases hw : s.writingPhase = true
      · rw [if_pos hw]
        cases u with
        | mapWrite w =>
          show (∃ d x, _) ↔ _
          have F := fun x => find_firstOf (l := c.targets) (f := fun x => decide (x.port = p)) (P := fun z => z.port = p)
            (fun y => by simp) x
          rw [Option.bind_eq_some_iff]
          constructor
          · rintro ⟨d, x, e2, _, a, b⟩
            rw [e] at e2; cases e2
            exact ⟨x, (F x).2 a, by rw [b]; rfl⟩
          · rintro ⟨x, a, b⟩
            obtain ⟨w2, b, d⟩ := Option.map_eq_some_iff.1 b
            cases d
            exact ⟨c, x, e, W.1 hw, (F x).1 a, b⟩
        | _ =>
          refine ⟨fun h => absurd h (by simp [State.isUser]), fun h => ?_⟩
          obtain ⟨x, _, b⟩ := Option.bind_eq_some_iff.1 h
          obtain ⟨w, _, d⟩ := Option.map_eq_some_iff.1 b
          cases d
      · rw [if_neg hw]
        refine ⟨fun h => ?_, fun h => by cases h⟩
        cases u with
        | mapWrite w =>
          obtain ⟨d, x, e2, b, _⟩ := h
          rw [e] at e2; cases e2
          exact absurd (W.2 b) hw
        | _ => exact absurd h (by simp [State.isUser])
  | 3 =>
    show _ ↔ s.fetchUser p true = some u
    rw [fetch]
    cases u <;> simp [State.isUser]
  | 4 =>
    show _ ↔ (s.openThrough p).map LaneUser.drain = some u
    rw [Option.map_eq_some_iff]
    cases u <;> simp [State.isUser, s.openThrough_iff]
  | 5 =>
    show _ ↔ (if s.staging.pressure then (s.openDrain p).map LaneUser.drain else none) = some u
    by_cases h : s.staging.pressure = true
    · rw [if_pos h, drain]
      cases u <;> simp [State.isUser, h]
    · rw [if_neg h]
      cases u <;> simp [State.isUser, h]
  | 6 =>
    show _ ↔ s.fetchUser p false = some u
    rw [fetch]
    cases u <;> simp [State.isUser]
  | 7 =>
    show _ ↔ (s.openDrain p).map LaneUser.drain = some u
    rw [drain]
    cases u <;> simp [State.isUser]
  | n + 8 => cases u <;> simp [State.isUser, State.classUser]

/-- With no user in any class there is none to take. -/
theorem State.chooseUser_none {s : State} {p : Port} (h : ∀ n u, ¬ s.isUser p n u) : s.chooseUser p = none := by
  have c : ∀ n, s.classUser p n = none := by
    intro n
    cases e : s.classUser p n with
    | none => rfl
    | some u => exact absurd ((s.isUser_iff p n u).2 e) (h n u)
  have c1 : s.probeUser p = none := c 1
  have c2 : s.mapWriteUser p = none := c 2
  have c3 : s.fetchUser p true = none := c 3
  have c4 : (s.openThrough p).map LaneUser.drain = none := c 4
  have c5 : (if s.staging.pressure then (s.openDrain p).map LaneUser.drain else none) = none := c 5
  have c6 : s.fetchUser p false = none := c 6
  have c7 : (s.openDrain p).map LaneUser.drain = none := c 7
  unfold State.chooseUser State.lastClasses
  rw [c1, c2, c3, c4, c5, c6, c7]
  simp

/-- The user of the class first in place is the one taken. -/
theorem State.chooseUser_first {s : State} {p : Port} {n : Nat} {u : LaneUser} (h : s.isUser p n u)
    (k : ∀ m v, s.isUser p m v → s.classPlace p n ≤ s.classPlace p m) : s.chooseUser p = some u := by
  have c : ∀ m, s.classPlace p m < s.classPlace p n → s.classUser p m = none := by
    intro m hm
    cases e : s.classUser p m with
    | none => rfl
    | some v => exact absurd (k m v ((s.isUser_iff p m v).2 e)) (by omega)
  have hn := (s.isUser_iff p n u).1 h
  unfold State.classPlace at c
  have c1 : 1 < (if n = 6 ∧ s.params.drainFairness ≤ (s.port p).fairness then 8 else n) → s.probeUser p = none := fun x => c 1 (by simpa using x)
  have c2 : 2 < (if n = 6 ∧ s.params.drainFairness ≤ (s.port p).fairness then 8 else n) → s.mapWriteUser p = none := fun x => c 2 (by simpa using x)
  have c3 : 3 < (if n = 6 ∧ s.params.drainFairness ≤ (s.port p).fairness then 8 else n) → s.fetchUser p true = none := fun x => c 3 (by simpa using x)
  have c4 : 4 < (if n = 6 ∧ s.params.drainFairness ≤ (s.port p).fairness then 8 else n) → (s.openThrough p).map LaneUser.drain = none := fun x => c 4 (by simpa using x)
  have c5 : 5 < (if n = 6 ∧ s.params.drainFairness ≤ (s.port p).fairness then 8 else n) →
    (if s.staging.pressure then (s.openDrain p).map LaneUser.drain else none) = none := fun x => c 5 (by simpa using x)
  have c6 := c 6
  have c7 : 7 < (if n = 6 ∧ s.params.drainFairness ≤ (s.port p).fairness then 8 else n) → (s.openDrain p).map LaneUser.drain = none := fun x => c 7 (by simpa using x)
  clear c
  unfold State.chooseUser State.lastClasses
  match n with
  | 0 => simp [State.classUser] at hn
  | 1 => have hn : s.probeUser p = some u := hn; rw [hn]; rfl
  | 2 => have hn : s.mapWriteUser p = some u := hn; rw [c1 (by simp), hn]; rfl
  | 3 => have hn : s.fetchUser p true = some u := hn; rw [c1 (by simp), c2 (by simp), hn]; rfl
  | 4 =>
    have hn : (s.openThrough p).map LaneUser.drain = some u := hn
    rw [c1 (by simp), c2 (by simp), c3 (by simp), hn]; rfl
  | 5 =>
    have hn : (if s.staging.pressure then (s.openDrain p).map LaneUser.drain else none) = some u := hn
    rw [c1 (by simp), c2 (by simp), c3 (by simp), c4 (by simp), hn]; rfl
  | 6 =>
    have hn : s.fetchUser p false = some u := hn
    have w : ∀ m, m < 6 → m < (if (6 : Nat) = 6 ∧ s.params.drainFairness ≤ (s.port p).fairness then 8 else 6) := by
      intro m hm; split <;> omega
    rw [c1 (w 1 (by omega)), c2 (w 2 (by omega)), c3 (w 3 (by omega)), c4 (w 4 (by omega)), c5 (w 5 (by omega)), hn]
    by_cases hf : s.params.drainFairness ≤ (s.port p).fairness
    · rw [c7 (by rw [if_pos ⟨rfl, hf⟩]; omega)]
      dsimp only
      rw [if_pos hf]; rfl
    · dsimp only
      rw [if_neg hf]; rfl
  | 7 =>
    have hn : (s.openDrain p).map LaneUser.drain = some u := hn
    rw [c1 (by simp), c2 (by simp), c3 (by simp), c4 (by simp), c5 (by simp), hn]
    by_cases hf : s.params.drainFairness ≤ (s.port p).fairness
    · dsimp only
      rw [if_pos hf]; rfl
    · have c6 : s.fetchUser p false = none := c6 (by rw [if_neg (fun x => hf x.2)]; simp)
      rw [c6]
      dsimp only
      rw [if_neg hf]; rfl
  | n + 8 => simp [State.classUser] at hn

/-- With a user in some class there is one to take. -/
theorem State.chooseUser_some {s : State} {p : Port} {n : Nat} {u : LaneUser} (h : s.isUser p n u) : ∃ v, s.chooseUser p = some v := by
  have hc := (s.isUser_iff p n u).1 h
  cases hv : s.chooseUser p with
  | some v => exact ⟨v, rfl⟩
  | none =>
    exfalso
    unfold State.chooseUser State.lastClasses at hv
    simp only [Option.or_eq_none_iff] at hv
    obtain ⟨a1, a2, a3, a4, a5, a67⟩ := hv
    have a67 : s.fetchUser p false = none ∧ (s.openDrain p).map LaneUser.drain = none := by
      split at a67
      · rw [Option.or_eq_none_iff] at a67; exact ⟨a67.2, a67.1⟩
      · rw [Option.or_eq_none_iff] at a67; exact a67
    match n with
    | 0 => cases hc
    | 1 => rw [State.classUser, a1] at hc; cases hc
    | 2 => rw [State.classUser, a2] at hc; cases hc
    | 3 => rw [State.classUser, a3] at hc; cases hc
    | 4 => rw [State.classUser, a4] at hc; cases hc
    | 5 => rw [State.classUser, a5] at hc; cases hc
    | 6 => rw [State.classUser, a67.1] at hc; cases hc
    | 7 => rw [State.classUser, a67.2] at hc; cases hc
    | n + 8 => cases hc

theorem available_congr {s t : State} (h : ∀ q, (t.port q).cls = (s.port q).cls ∧ (t.port q).member = (s.port q).member)
    (hm : t.mapStore = s.mapStore) (x : Nat) : t.available x = s.available x := by
  unfold State.available State.translate State.placeAvailable State.capacity
  rw [hm]
  cases s.mapStore.active.translate x with
  | none => rfl
  | some pl =>
    dsimp only
    rw [(h pl.port).1, (h pl.port).2]

/-- Who waits for a lane does not depend on the log, the notices, the counts or the lanes themselves. -/
theorem isUser_congr {s t : State} {p : Port}
    (h : ∀ q, (t.port q).cls = (s.port q).cls ∧ (t.port q).probe.map (·.step) = (s.port q).probe.map (·.step) ∧
      (t.port q).member = (s.port q).member)
    (ht : t.table = s.table) (hf : t.mover = s.mover) (hs : t.staging = s.staging) (hm : t.mapStore = s.mapStore)
    (hp : t.power.state = s.power.state) (n : Nat) (u : LaneUser) : t.isUser p n u ↔ s.isUser p n u := by
  have av : ∀ x, t.available x = s.available x := available_congr (fun q => ⟨(h q).1, (h q).2.2⟩) hm
  have sl : ∀ i, t.slot i = s.slot i := fun i => by unfold State.slot; rw [hs]
  have lo : ∀ x, t.liesOn p x = s.liesOn p x := fun x => by unfold State.liesOn State.translate; rw [hm]
  have md : t.mayDrain p = s.mayDrain p := by
    funext i
    unfold State.mayDrain
    simp only [sl, lo, av]
  have tc : ∀ i, t.isThroughCandidate p i ↔ s.isThroughCandidate p i := by
    intro i
    unfold State.isThroughCandidate
    rw [hp, hs, md]
    simp only [sl]
  have dc : ∀ i, t.isDrainCandidate p i ↔ s.isDrainCandidate p i := by
    intro i
    unfold State.isDrainCandidate
    rw [tc, hp, hs, md]
    simp only [tc]
  have of : ∀ b v, t.isOldestFetch p b v ↔ s.isOldestFetch p b v := by
    intro b v
    have w : ∀ v, t.waitsOn p v = s.waitsOn p v := fun v => by unfold State.waitsOn State.fetchRecord; rw [hf]
    have g : ∀ v, t.isUrgent v = s.isUrgent v := fun v => by unfold State.isUrgent State.request; rw [ht]
    unfold State.isOldestFetch
    rw [(h p).1, ht]
    simp only [w, g]
  unfold State.isUser
  split
  · have probing : ∀ (x : PortRecord) k, (∃ pr, x.probe = some pr ∧ pr.step = k) ↔ x.probe.map (·.step) = some k := by
      intro x k
      rw [Option.map_eq_some_iff]
    rw [(h p).1, probing, probing, (h p).2.1]
  · rw [hm]
  · exact of true _
  · exact tc _
  · rw [hs, dc]
  · exact of false _
  · exact dc _
  · exact Iff.rfl

end Sys2Proof.Machine
end

