-- ==== Sys2Proof/Laws/Fault.lean ====
section
/-! SUPPORT. What a request fault leaves of the request that faults and of its write record, while the others are ended. -/

namespace Sys2Proof.Machine

theorem enterReporting_eq (t : Tag) (st : CompletionStatus) (x : Option Nat) (s : State) :
    ∃ b, enterReporting t st x s = { s with table := b } ∧ b.snapshot = s.table.snapshot := by
  unfold enterReporting
  split
  · exact ⟨s.table, rfl, rfl⟩
  · exact ⟨_, rfl, rfl⟩

theorem enterReporting_request (t : Tag) (st : CompletionStatus) (x : Option Nat) (s : State) (u : Tag) :
    (enterReporting t st x s).request u = if u = t then (s.request t).map (fun r => { r with
      state := .reporting, status := some st, failingLbn := x, holdList := [], flushSet := [], settleSet := [] })
      else s.request u := by
  unfold enterReporting
  split
  next h =>
    rw [h]
    split
    next e => rw [e, h]; rfl
    · rfl
  next r h =>
    rw [h]
    show ((s.setRequest t _).request u) = _
    rw [State.request_setRequest]
    rfl

theorem flushLeave_eq (o : SlotNo) (t : Tag) (s : State) :
    ∃ b, flushLeave o t s = { s with table := b } ∧ b.snapshot = s.table.snapshot := by
  unfold flushLeave
  split
  · exact ⟨s.table, rfl, rfl⟩
  · split
    · dsimp only
      split
      · obtain ⟨b, e, h⟩ := enterReporting_eq t .good none (s.setRequest t _)
        exact ⟨b, e, h⟩
      · exact ⟨_, rfl, rfl⟩
    · exact ⟨s.table, rfl, rfl⟩

/-- A slot that leaves the flush sets does not touch a request that is no FLUSH. -/
theorem flushLeave_request (o : SlotNo) (t u : Tag) (s : State) (h : ∀ r, s.request u = some r → r.kind ≠ .flush) :
    (flushLeave o t s).request u = s.request u := by
  unfold flushLeave
  split
  · rfl
  next r hr =>
    split
    next hk =>
      have hne : u ≠ t := by
        rintro rfl
        exact h r hr hk.1
      dsimp only
      split
      · rw [enterReporting_request, if_neg hne, State.request_setRequest, if_neg hne]
      · rw [State.request_setRequest, if_neg hne]
    · rfl

theorem forAdmitted_flushLeave_request (o : SlotNo) (u : Tag) (s : State)
    (h : ∀ r, s.request u = some r → r.kind ≠ .flush) : (forAdmitted (flushLeave o) s).request u = s.request u := by
  unfold forAdmitted
  generalize s.table.admissionOrder = l
  induction l generalizing s with
  | nil => rfl
  | cons a l ih =>
    have e := flushLeave_request o a u s h
    rw [List.foldl_cons, ih _ (by rw [e]; exact h), e]

theorem forAdmitted_flushLeave_eq (o : SlotNo) (s : State) :
    ∃ b, forAdmitted (flushLeave o) s = { s with table := b } ∧ b.snapshot = s.table.snapshot := by
  unfold forAdmitted
  generalize s.table.admissionOrder = l
  induction l generalizing s with
  | nil => exact ⟨s.table, rfl, rfl⟩
  | cons a l ih =>
    obtain ⟨b, e, h⟩ := flushLeave_eq o a s
    obtain ⟨b', e', h'⟩ := ih (flushLeave o a s)
    exact ⟨b', by rw [List.foldl_cons, e', e], by rw [h', e]; exact h⟩

theorem freeFillings (l : List SlotNo) (s : State) (u : Tag) (h : ∀ r, s.request u = some r → r.kind ≠ .flush) :
    (l.foldl (fun acc o => freeFilling o acc) s).request u = s.request u ∧
      (l.foldl (fun acc o => freeFilling o acc) s).mover = s.mover ∧
      (l.foldl (fun acc o => freeFilling o acc) s).log = s.log ∧
      (l.foldl (fun acc o => freeFilling o acc) s).table.snapshot = s.table.snapshot := by
  induction l generalizing s with
  | nil => exact ⟨rfl, rfl, rfl, rfl⟩
  | cons a l ih =>
    have e : (freeFilling a s).request u = s.request u := forAdmitted_flushLeave_request a u (s.setStaging a .free) h
    obtain ⟨b, hb, hs⟩ := forAdmitted_flushLeave_eq a (s.setStaging a .free)
    have e2 : (freeFilling a s).mover = s.mover ∧ (freeFilling a s).log = s.log ∧
        (freeFilling a s).table.snapshot = s.table.snapshot := by
      unfold freeFilling
      rw [hb]
      exact ⟨rfl, rfl, hs⟩
    obtain ⟨i1, i2, i3, i4⟩ := ih (freeFilling a s) (by rw [e]; exact h)
    exact ⟨i1.trans e, i2.trans e2.1, i3.trans e2.2.1, i4.trans e2.2.2⟩

/-- What dropping a write record leaves of another request, of the write records and of the log. -/
theorem dropWrite_spec (t : Tag) (a : Word32) (s : State) (u : Tag) (h : ∀ r, s.request u = some r → r.kind ≠ .flush) :
    (dropWrite t a s).request u = s.request u ∧
      (∀ v, (dropWrite t a s).writeRecord v = if v = t then none else s.writeRecord v) ∧
      (dropWrite t a s).log = s.log ∧ (dropWrite t a s).table.snapshot = s.table.snapshot := by
  unfold dropWrite
  dsimp only
  obtain ⟨h1, h2, h3, h4⟩ := freeFillings
    ((((s.setWriteRecord t none).setGrantOrder (setRemove t s.mover.grantOrder))).fillingOf ⟨t, a⟩)
    ((s.setWriteRecord t none).setGrantOrder (setRemove t s.mover.grantOrder)) u h
  refine ⟨h1, fun v => ?_, h3, h4⟩
  have e : ∀ x y : State, x.mover = y.mover → x.writeRecord v = y.writeRecord v := fun x y hxy => by
    unfold State.writeRecord
    rw [hxy]
  rw [e _ _ h2]
  simp

theorem releaseReturns_eq (w : Owner) (b : Bool) (s : State) :
    ∃ v o, releaseReturns w b s = { s with mover := { s.mover with returns := v, fillOrder := o } } := by
  unfold releaseReturns
  generalize allReturns = l
  induction l generalizing s with
  | nil => exact ⟨s.mover.returns, s.mover.fillOrder, rfl⟩
  | cons r l ih =>
    have h : ∃ v o, releaseReturn w b r s = { s with mover := { s.mover with returns := v, fillOrder := o } } := by
      have same : ∃ v o, s = { s with mover := { s.mover with returns := v, fillOrder := o } } := ⟨_, _, rfl⟩
      unfold releaseReturn
      cases s.returnSlot r <;> dsimp only
      case fetching =>
        split
        · exact ⟨_, s.mover.fillOrder, rfl⟩
        · exact same
      case filled =>
        split
        · exact ⟨_, _, rfl⟩
        · exact same
      all_goals exact same
    obtain ⟨v, o, e⟩ := h
    obtain ⟨v', o', e'⟩ := ih (releaseReturn w b r s)
    exact ⟨v', o', by rw [List.foldl_cons, e', e]⟩

/-- What the end of another request's work leaves of a request that is no FLUSH, of absent write records and of the log. -/
theorem leaveWork_spec (b : State) (t : Tag) (s : State) (u : Tag) (h : ∀ r, s.request u = some r → r.kind ≠ .flush) :
    (leaveWork b t s).request u = s.request u ∧ (s.writeRecord u = none → (leaveWork b t s).writeRecord u = none) ∧
      (leaveWork b t s).log = s.log := by
  unfold leaveWork
  split
  · exact ⟨rfl, id, rfl⟩
  next r hr =>
    split
    · split
      · obtain ⟨v, o, e⟩ := releaseReturns_eq ⟨t, r.admission⟩ true s
        rw [e]
        exact ⟨rfl, id, rfl⟩
      · unfold dropWork
        split
        · obtain ⟨h1, h2, h3, _⟩ := dropWrite_spec t r.admission s u h
          refine ⟨h1, fun hn => ?_, h3⟩
          rw [h2]
          split
          · rfl
          · exact hn
        · unfold dropFetch
          obtain ⟨v, o, e⟩ := releaseReturns_eq ⟨t, r.admission⟩ false (s.setFetchRecord t none)
          rw [e]
          exact ⟨rfl, id, rfl⟩
        · unfold dropFetch
          obtain ⟨v, o, e⟩ := releaseReturns_eq ⟨t, r.admission⟩ false (s.setFetchRecord t none)
          rw [e]
          exact ⟨rfl, id, rfl⟩
        · exact ⟨rfl, id, rfl⟩
    · exact ⟨rfl, id, rfl⟩

theorem leaveWorks_spec (b : State) (l : List Tag) (s : State) (u : Tag)
    (h : ∀ r, s.request u = some r → r.kind ≠ .flush) :
    (l.foldl (fun acc t => leaveWork b t acc) s).request u = s.request u ∧
      (s.writeRecord u = none → (l.foldl (fun acc t => leaveWork b t acc) s).writeRecord u = none) ∧
      (l.foldl (fun acc t => leaveWork b t acc) s).log = s.log := by
  induction l generalizing s with
  | nil => exact ⟨rfl, id, rfl⟩
  | cons a l ih =>
    obtain ⟨e1, e2, e3⟩ := leaveWork_spec b a s u h
    obtain ⟨i1, i2, i3⟩ := ih (leaveWork b a s) (by rw [e1]; exact h)
    exact ⟨i1.trans e1, fun hn => i2 (e2 hn), i3.trans e3⟩

theorem endRequest_eq (acc : State × Nat) (t : Tag) : ∃ b, (endRequest acc t).1 = { acc.1 with table := b } := by
  have hr : ∀ st x, ∃ b, enterReporting t st x acc.1 = { acc.1 with table := b } := fun st x => by
    obtain ⟨b, e, _⟩ := enterReporting_eq t st x acc.1
    exact ⟨b, e⟩
  have same : ∃ b, acc.1 = { acc.1 with table := b } := ⟨acc.1.table, rfl⟩
  unfold endRequest
  cases acc.1.request t with
  | none => exact same
  | some r =>
    dsimp only
    cases r.state <;> dsimp only
    case active =>
      split
      · exact ⟨_, rfl⟩
      · exact hr _ _
    case held | settling => exact hr _ _
    all_goals exact same

theorem endRequest_request (acc : State × Nat) (t u : Tag) (h : u ≠ t) : (endRequest acc t).1.request u = acc.1.request u := by
  unfold endRequest
  split
  · rfl
  · split
    · dsimp only
      rw [enterReporting_request, if_neg h]
    · dsimp only
      rw [enterReporting_request, if_neg h]
    · split
      · simp [h]
      · dsimp only
        rw [enterReporting_request, if_neg h]
    · rfl
    · rfl

/-- Ending the others leaves request `u` and everything outside the table. -/
theorem endRequests_spec (l : List Tag) (acc : State × Nat) (u : Tag) (h : u ∉ l) :
    (l.foldl endRequest acc).1.request u = acc.1.request u ∧ ∃ b, (l.foldl endRequest acc).1 = { acc.1 with table := b } := by
  induction l generalizing acc with
  | nil => exact ⟨rfl, acc.1.table, rfl⟩
  | cons a l ih =>
    rw [List.mem_cons, not_or] at h
    obtain ⟨i1, b, i2⟩ := ih (endRequest acc a) h.2
    obtain ⟨b', e⟩ := endRequest_eq acc a
    refine ⟨i1.trans (endRequest_request acc a u h.1), b, ?_⟩
    rw [List.foldl_cons, i2, e]

/-- The halt on request `t`: `t` stands as it was, the snapshot is of it, and the log stands. -/
theorem haltQueue_spec (t : Tag) (st : CompletionStatus) (s : State) (r : Request) (hr : s.request t = some r)
    (hk : r.kind ≠ .flush) :
    (haltQueue t st s).request t = some r ∧ (s.writeRecord t = none → (haltQueue t st s).writeRecord t = none) ∧
      (haltQueue t st s).log = s.log ∧
      ∃ n, (haltQueue t st s).table.snapshot = some (s.makeSnapshot t r st n s.newestEntry) := by
  obtain ⟨e1, b, e2⟩ := endRequests_spec (s.table.admissionOrder.filter (fun u => u ≠ t)) (s, 0) t (by simp)
  obtain ⟨l1, l2, l3⟩ := leaveWorks_spec s (s.table.admissionOrder.filter (fun u => u ≠ t))
    ((s.table.admissionOrder.filter (fun u => u ≠ t)).foldl endRequest (s, 0)).1 t
    (by rw [e1, hr]; rintro x ⟨⟩; exact hk)
  have kc := (soft_endRequests (s.table.admissionOrder.filter (fun u => u ≠ t)) (s, 0)).trans
    (soft_foldl (fun acc u => leaveWork s u acc) (fun a u => soft_leaveWork s u a)
      (s.table.admissionOrder.filter (fun u => u ≠ t)) _)
  unfold haltQueue
  dsimp only
  generalize hE : (s.table.admissionOrder.filter (fun u => u ≠ t)).foldl endRequest (s, 0) = E at e1 e2 l1 l2 l3 kc
  generalize hL : (s.table.admissionOrder.filter (fun u => u ≠ t)).foldl (fun acc u => leaveWork s u acc) E.1 = L at l1 l2 l3 kc
  have hq : L.request t = some r := by rw [l1, e1, hr]
  rw [hq]
  dsimp only
  obtain ⟨n, hn⟩ := raise_eq ⟨.queueHalted, none⟩ (.tag t)
    { L with table := { L.table with snapshot := some (L.makeSnapshot t r st E.2 s.newestEntry) } }
  unfold raiseSingle
  rw [hn]
  refine ⟨hq, fun hw => l2 (by rw [e2]; exact hw), ?_, E.2, ?_⟩
  · show L.log = s.log
    rw [l3, e2]
  · show some (L.makeSnapshot t r st E.2 s.newestEntry) = _
    unfold State.makeSnapshot State.failingPort State.translate
    rw [kc.mapStore]

/-- The fault of an ACTIVE WRITE while the queue is RUNNING: its slot enters REPORTING, its record is dropped, its entry
is made, and the queue halts on it. -/
theorem requestFault_write {s : State} {t : Tag} {r : Request} (hr : s.request t = some r) (hk : r.kind = .write)
    (ha : r.state = .active) (hn : s.table.snapshot = none) (st : CompletionStatus) (x : Option Nat) (c : HistoryCause) :
    ∃ e : EntryInfo, e = ⟨c, .request, some t, x, s.failingPort x, none, 0⟩ ∧
      requestFault t st x c s = haltQueue t st (addEntry e (enterReporting t st x (dropWrite t r.admission s))) ∧
      (addEntry e (enterReporting t st x (dropWrite t r.admission s))).request t = some { r with
        state := .reporting, status := some st, failingLbn := x, holdList := [], flushSet := [], settleSet := [] } ∧
      (addEntry e (enterReporting t st x (dropWrite t r.admission s))).writeRecord t = none ∧
      (∃ h : HistoryEntry, h = s.makeEntry e ∧
        (addEntry e (enterReporting t st x (dropWrite t r.admission s))).log = { s.log with
          ring := (h :: s.log.ring).take Config.ringSize, nextNumber := entryAfter s.log.nextNumber }) ∧
      (addEntry e (enterReporting t st x (dropWrite t r.admission s))).mapStore = s.mapStore := by
  have hkf : ∀ y, s.request t = some y → y.kind ≠ .flush := by
    rw [hr]
    rintro y ⟨⟩
    rw [hk]
    decide
  obtain ⟨d1, d2, d3, d4⟩ := dropWrite_spec t r.admission s t hkf
  have km := (soft_dropWrite t r.admission s).mapStore
  obtain ⟨b, e1, e2⟩ := enterReporting_eq t st x (dropWrite t r.admission s)
  refine ⟨_, rfl, ?_⟩
  obtain ⟨n, hn'⟩ := addEntry_eq ⟨c, .request, some t, x, s.failingPort x, none, 0⟩
    (enterReporting t st x (dropWrite t r.admission s))
  have hreq : (enterReporting t st x (dropWrite t r.admission s)).request t = some { r with
      state := .reporting, status := some st, failingLbn := x, holdList := [], flushSet := [], settleSet := [] } := by
    rw [enterReporting_request, if_pos rfl, d1, hr]
    rfl
  have hfp : (enterReporting t st x (dropWrite t r.admission s)).failingPort x = s.failingPort x := by
    unfold State.failingPort State.translate
    rw [e1]
    dsimp only
    rw [km]
  refine ⟨?_, ?_, ?_, ⟨_, rfl, ?_⟩, ?_⟩
  · unfold requestFault
    rw [hr]
    dsimp only
    rw [if_pos (Or.inl ha)]
    have hd : dropWork t r s = dropWrite t r.admission s := by
      unfold dropWork
      rw [hk]
    rw [hd, hfp, if_neg]
    rw [hn', e1]
    simp [State.halted, e2, d4, hn]
  · rw [hn']
    exact hreq
  · rw [hn', e1]
    show (dropWrite t r.admission s).writeRecord t = none
    rw [d2, if_pos rfl]
  · rw [hn', e1]
    simp only [State.makeEntry, d3]
    simp
  · rw [hn', e1]
    exact km

end Sys2Proof.Machine
end

