-- ==== Sys2Proof/Laws/Request.lean ====
section
/-! SUPPORT. A tagged request taken at once: what its payload asks, and what its refusal or admission comes to. -/

namespace Sys2Proof.Machine

theorem tagOfByte_byte (t : Tag) : tagOfByte (byte t.val) = some t := by revert t; decide

/-- The request that six well-formed payload bytes ask. -/
theorem readAsk_range (k : ReqKind) (hk : k ≠ .flush) (t : Tag) (f a b c n : Byte) (hf : f.toNat < 4) :
    readAsk k [byte t.val, f, a, b, c, n] =
      some ⟨k, t, some ⟨leVal [a, b, c], n.toNat⟩, f.getLsbD 0, f.getLsbD 1⟩ := by
  have h : rangeFields [byte t.val, f, a, b, c, n] =
      some ⟨t, f.getLsbD 0, f.getLsbD 1, leVal [a, b, c], n.toNat⟩ := by
    simp only [rangeFields, tagOfByte_byte, if_pos hf]
  cases k
  all_goals first
    | exact absurd rfl hk
    | simp only [readAsk, h, Option.map_some]

theorem readAsk_flushByte (t : Tag) : readAsk .flush [byte t.val] = some ⟨.flush, t, none, false, false⟩ := by
  simp only [readAsk, flushFields, tagOfByte_byte, Option.map_some]

/-- The command of a tagged request, once its owner's answer is known. -/
theorem exec_tagged {s : State} {q : Byte} (h : s.takes q) (k : ReqKind) (body : List Byte) {a : Answer}
    (ha : takeTagged k body (acceptFrame s) = a) (hl : a.state.link = (acceptFrame s).link) :
    exec (k.command q body) s = .next { a.state with link := s.link.replied q (k.code :: a.fields) a.effect } := by
  cases k
  · exact congrArg Host.Outcome.next (acceptMessage_replied h .read (by decide) body ha hl)
  · exact congrArg Host.Outcome.next (acceptMessage_replied h .write (by decide) body ha hl)
  · exact congrArg Host.Outcome.next (acceptMessage_replied h .verify (by decide) body ha hl)
  · exact congrArg Host.Outcome.next (acceptMessage_replied h .flush (by decide) body ha hl)

theorem exec_malformed {s : State} {q : Byte} (h : s.takes q) (k : ReqKind) (body : List Byte) (hr : readAsk k body = none) :
    exec (k.command q body) s = .next (s.replied q (refusedPayload k 0x01 (body.headD 0xFF) 0)) := by
  have ha : takeTagged k body (acceptFrame s) = taggedReply .malformed (body.headD 0xFF) 0 0xFF (acceptFrame s) := by
    unfold takeTagged
    rw [hr]
  rw [exec_tagged h k body ha rfl]
  rfl

theorem exec_refused {s : State} {q : Byte} (h : s.takes q) (k : ReqKind) (body : List Byte) {a : Ask} {st : ReplyStatus}
    {d : Nat} (hr : readAsk k body = some a) (hd : s.refusal a = some (st, d)) :
    exec (k.command q body) s = .next (s.replied q (refusedPayload k st.code (byte a.tag.val) d)) := by
  have hd' : (acceptFrame s).refusal a = some (st, d) := hd
  have ha : takeTagged k body (acceptFrame s) = taggedReply st (byte a.tag.val) d 0xFF (acceptFrame s) := by
    unfold takeTagged
    rw [hr]
    dsimp only
    rw [hd']
  rw [exec_tagged h k body ha rfl]
  rfl

/-- The link stands through an admission. -/
theorem takeIn_link (a : Ask) (s : State) : (takeIn a s).link = s.link := by
  unfold takeIn
  dsimp only
  rw [settleStaging_link]
  have hw : ∀ x : State, (wakePower x).link = x.link := by
    intro x
    unfold wakePower
    dsimp only
    split <;> rfl
  unfold offer
  cases (s.newRequest a).kind
  all_goals dsimp only
  · rw [(calm_releaseHold _ _).link, hw]
    rfl
  · rw [(calm_releaseHold _ _).link, hw]
    rfl
  · rw [(calm_releaseHold _ _).link, hw]
    rfl
  · split
    · unfold enterReporting
      split
      · rw [hw]
        rfl
      · dsimp only [State.setRequest, State.setSlot]
        rw [hw]
        rfl
    · rw [hw]
      rfl

theorem exec_admitted {s : State} {q : Byte} (h : s.takes q) (k : ReqKind) (body : List Byte) {a : Ask}
    (hr : readAsk k body = some a) (hd : s.refusal a = none) :
    exec (k.command q body) s = .next { takeIn a (acceptFrame s) with
      link := s.link.replied q (acceptedPayload k a.tag s.table.counter (s.newRequest a).admittedState.code) .nothing } := by
  have hd' : (acceptFrame s).refusal a = none := hd
  have ha : takeTagged k body (acceptFrame s) = taggedReply .ok (byte a.tag.val) s.table.counter.toNat
      (s.newRequest a).admittedState.code (takeIn a (acceptFrame s)) := by
    unfold takeTagged
    rw [hr]
    dsimp only
    rw [hd']
    rfl
  rw [exec_tagged h k body ha (takeIn_link a _)]
  rfl

/-! ## The blocks of a range -/

theorem BlockRange.mem_lbns (g : BlockRange) (x : Nat) : x ∈ g.lbns ↔ g.has x := by
  unfold BlockRange.lbns BlockRange.has
  simp only [List.mem_map, List.mem_range]
  refine ⟨fun ⟨i, h, e⟩ => by omega, fun h => ⟨x - g.first, by omega, by omega⟩⟩

theorem BlockRange.find_none (g : BlockRange) (p : Nat → Bool) :
    g.lbns.find? p = none ↔ ∀ x, g.has x → p x = false := by
  simp only [List.find?_eq_none, g.mem_lbns, Bool.not_eq_true]

theorem BlockRange.find_some (g : BlockRange) (p : Nat → Bool) (y : Nat) (h : g.lowest (fun x => p x = true) y) :
    g.lbns.find? p = some y := by
  obtain ⟨hy, hp, hl⟩ := h
  unfold BlockRange.has at hy
  have hs : List.range g.count = List.range (y - g.first) ++ List.range' (y - g.first) (g.count - (y - g.first)) := by
    have e := List.range'_append_1 (s := 0) (m := y - g.first) (n := g.count - (y - g.first))
    rw [Nat.zero_add] at e
    rw [List.range_eq_range', List.range_eq_range', e]
    congr 1
    omega
  have hc : List.range' (y - g.first) (g.count - (y - g.first)) =
      (y - g.first) :: List.range' (y - g.first + 1) (g.count - (y - g.first) - 1) := by
    have : g.count - (y - g.first) = (g.count - (y - g.first) - 1) + 1 := by omega
    rw [this, List.range'_succ]
    simp
  unfold BlockRange.lbns
  rw [hs, List.map_append, List.find?_append]
  have h1 : ((List.range (y - g.first)).map (g.first + ·)).find? p = none := by
    rw [List.find?_eq_none]
    intro x hx
    simp only [List.mem_map, List.mem_range] at hx
    obtain ⟨i, hi, rfl⟩ := hx
    exact hl _ (by omega) (by omega)
  have hy' : g.first + (y - g.first) = y := by omega
  rw [h1, hc, List.map_cons, List.find?_cons, hy', hp]
  rfl

/-! ## The refusals of the range checks -/

theorem State.refusal_freeFor {s : State} {t : Tag} (h : s.freeFor t) (k : ReqKind) (g : Option BlockRange) (u th : Bool) :
    s.refusal ⟨k, t, g, u, th⟩ = g.bind (s.rangeRefusal k) := by
  obtain ⟨h1, h2, h3, h4⟩ := h
  unfold State.refusal
  rw [if_neg (by simp [h1]), h2]
  dsimp only
  rw [if_neg (by simp [h3]), h4]

theorem State.rangeRefusal_counts {s : State} {g : BlockRange} (h : s.counts g) (k : ReqKind) :
    s.rangeRefusal k g = match g.lbns.find? (fun x => (s.translate x).isNone) with
      | some x => some (.unmapped, x)
      | none => match if k = .write then g.lbns.find? s.writeProtected else none with
        | some x => some (.writeProtected, x)
        | none => (g.lbns.find? (fun x => !s.available x)).map (fun x => (.memberUnavailable, x)) := by
  obtain ⟨h1, h2, h3⟩ := h
  unfold State.rangeRefusal
  rw [if_neg (by simp only [Config.maxBlocks]; omega), if_neg (by omega)]
  all_goals rfl

theorem State.rangeRefusal_serves {s : State} {g : BlockRange} (h : s.counts g) {k : ReqKind} (hs : s.serves k g) :
    s.rangeRefusal k g = none := by
  rw [rangeRefusal_counts h]
  have h1 : g.lbns.find? (fun x => (s.translate x).isNone) = none := by
    rw [g.find_none]
    intro x hx
    obtain ⟨pl, e, _⟩ := hs x hx
    simp [e]
  have h2 : (if k = .write then g.lbns.find? s.writeProtected else none) = none := by
    split
    next e =>
      rw [g.find_none]
      intro x hx
      obtain ⟨pl, e', _, hw⟩ := hs x hx
      simp [State.writeProtected, e', hw e]
    · rfl
  have h3 : g.lbns.find? (fun x => !s.available x) = none := by
    rw [g.find_none]
    intro x hx
    obtain ⟨pl, e, ha, _⟩ := hs x hx
    simp [State.available, e, ha]
  rw [h1, h2, h3]
  rfl

/-! ## Admission -/

theorem wakePower_eq (s : State) : wakePower s = { s with power := s.power.woken } := by
  unfold wakePower Power.woken leavePark State.clearMarks State.setPower State.setIdleTimer
  by_cases h : s.power.state = .active
  · simp [h]
  · simp [h]

theorem State.holdListOf_eq (s : State) (k : ReqKind) (t : Tag) (g : BlockRange) (u th : Bool) :
    s.holdListOf ⟨k, t, some g, u, th⟩ = s.blockers k g := by
  unfold State.holdListOf State.blockers
  congr 1
  funext x
  cases s.request x with
  | none => rfl
  | some r =>
    dsimp only
    unfold Request.holds
    cases r.range <;> rfl

/-- The record a READ, WRITE or VERIFY is admitted with. -/
theorem State.newRequest_range (s : State) (k : ReqKind) (hk : k ≠ .flush) (t : Tag) (g : BlockRange) (f : Byte) :
    s.newRequest ⟨k, t, some g, f.getLsbD 0, f.getLsbD 1⟩ = ⟨k, some g, f.getLsbD 0, s.throughFor k f, .held,
      s.table.counter, s.blockers k g, 0, none, none, [], []⟩ := by
  have he : s.effectiveThrough ⟨k, t, some g, f.getLsbD 0, f.getLsbD 1⟩ = s.throughFor k f := by
    unfold State.effectiveThrough State.throughFor
    cases k
    all_goals first
      | exact absurd rfl hk
      | simp
  unfold State.newRequest
  rw [s.holdListOf_eq, he]
  simp [hk]

/-- The state an admission leaves before the request is offered. -/
theorem State.enterSlot_admitted (s : State) (t : Tag) (r : Request) :
    wakePower (addHeader ⟨t, r.kind, r.range, r.urgent, r.through⟩ (s.enterSlot t r)) = s.admitted t r := by
  rw [wakePower_eq]
  rfl

theorem State.admitted_request (s : State) (t u : Tag) (r : Request) :
    (s.admitted t r).request u = if u = t then some r else s.request u := by
  simp only [State.request, State.admitted, Fin.getElem_fin, Vector.getElem_set, Fin.val_inj, eq_comm]

/-- Admission of a READ, WRITE or VERIFY: the slot is taken, then a hold list that is empty is released. -/
theorem admit_range (s : State) (k : ReqKind) (hk : k ≠ .flush) (t : Tag) (g : BlockRange) (f : Byte) :
    takeIn ⟨k, t, some g, f.getLsbD 0, f.getLsbD 1⟩ s = settleStaging (releaseHold t (s.admitted t
      ⟨k, some g, f.getLsbD 0, s.throughFor k f, .held, s.table.counter, s.blockers k g, 0, none, none, [], []⟩)) := by
  unfold takeIn
  rw [s.newRequest_range k hk]
  dsimp only
  have e := s.enterSlot_admitted t
    ⟨k, some g, f.getLsbD 0, s.throughFor k f, .held, s.table.counter, s.blockers k g, 0, none, none, [], []⟩
  dsimp only at e
  rw [e]
  cases k
  all_goals first
    | exact absurd rfl hk
    | rfl

/-- A request that stays blocked stays as it is. -/
theorem releaseHold_blocked {s : State} {t : Tag} {r : Request} (hr : s.request t = some r) (h : r.holdList ≠ []) :
    releaseHold t s = s := by
  unfold releaseHold
  rw [hr]
  dsimp only
  rw [if_neg (by simp [h])]

/-- A request that is released goes ACTIVE, and the Data Mover goes on from there. -/
theorem releaseHold_free {s : State} {t : Tag} {r : Request} (hr : s.request t = some r) (h : r.state = .held)
    (hl : r.holdList = []) : releaseHold t s = assignReturns (formGrants (goActive t s)) := by
  unfold releaseHold
  rw [hr]
  dsimp only
  rw [if_pos (by simp [h, hl])]

/-- A request that goes ACTIVE: its slot is ACTIVE first, and nothing but the Data Mover's work follows. -/
theorem goActive_soft {s : State} {t : Tag} {r : Request} (hr : s.request t = some r) :
    Soft (s.setRequest t { r with state := .active }) (goActive t s) := by
  unfold goActive
  rw [hr]
  dsimp only
  split
  · exact soft_setFetchRecord _ _ _
  · exact (soft_setFetchRecord _ _ _).trans (calm_startFetch _ _ _).toSoft
  · exact soft_setWriteRecord _ _ _
  · exact Soft.refl _

end Sys2Proof.Machine
end

