-- ==== Sys2Proof/Laws/Blocks.lean ====
section
/-! SUPPORT. A block that arrives: its fields (R55). -/

namespace Sys2Proof.Machine

/-- The fields of a whole WRITE-DATA (R55). -/
theorem dataFields_whole (t : Tag) (i : Byte) (data : List Byte) (h : data.length = 256) (hi : i.toNat < 64) :
    dataFields (byte t.val :: i :: data) = some ⟨t, i.toNat, data⟩ := by
  simp only [dataFields, tagOfByte_byte]
  rw [if_pos ⟨h, hi⟩]

theorem byte_toNat (b : Byte) : byte b.toNat = b := by simp [byte]

end Sys2Proof.Machine
end

