-- ==== Sys2Proof/Laws/Classify.lean ====
section
/-! SUPPORT. Classification, the end of start-up and the evaluation of pressure, said once (R88, R104, R158, R159). -/

namespace Sys2Proof.Machine

/-! ## One port -/

/-- The record of a port that its probe `pr` classifies. -/
def PortRecord.classified (x : PortRecord) (m : Map) (pr : Probe) : PortRecord :=
  { x with
    cls := classFor m (pr.newest.map (fun n => (n.generation, n.pool)))
    probe := none
    member := some ⟨pr.capacity, pr.identity, pr.newest.map (fun n => (n.generation, n.pool))⟩ }

/-- A classification, before its end-of-probe check. -/
theorem classify_calm {s : State} {p : Port} {pr : Probe} (h : (s.port p).probe = some pr) :
    ∃ X n m, classify p s = endOfProbeCheck p X ∧
      X = { s with
        ports := s.ports.set p ((s.port p).classified s.mapStore.active pr)
        notices := n, power := { s.power with marks := m } } ∧
      ∀ k, n.pending.find? (fun x => x.key = k) = if k = ⟨.portAttached, some p⟩
        then some (raisedOnce k (.portClass ((s.port p).classified s.mapStore.active pr).cls) (s.notice k))
        else s.notice k := by
  unfold classify
  rw [h]
  dsimp only
  obtain ⟨m, e⟩ := setClass_eq p (classFor s.mapStore.active (pr.newest.map (fun m => (m.generation, m.pool))))
    (s.setPort p { s.port p with
      probe := none, member := some ⟨pr.capacity, pr.identity, pr.newest.map (fun m => (m.generation, m.pool))⟩ })
  rw [e]
  unfold raisePort
  generalize hY : ({ (s.setPort p _) with ports := _, power := _ } : State) = Y
  obtain ⟨n, e2⟩ := raise_eq ⟨.portAttached, some p⟩
    (.portClass (classFor s.mapStore.active (pr.newest.map (fun m => (m.generation, m.pool))))) Y
  have N := fun j => raise_notice ⟨.portAttached, some p⟩ j
    (.portClass (classFor s.mapStore.active (pr.newest.map (fun m => (m.generation, m.pool))))) Y
  rw [e2] at N
  refine ⟨_, n, m, rfl, ?_, fun k => ?_⟩
  · rw [e2, ← hY]
    unfold State.setPort State.port PortRecord.classified
    simp
  · have hk : Y.notice k = s.notice k := by rw [← hY]; rfl
    have := N k
    rw [show (⟨NoticeKind.portAttached, some p⟩ : NoticeKey) = ⟨.portAttached, some p⟩ from rfl] at this
    refine Eq.trans this ?_
    by_cases hc : k = ⟨.portAttached, some p⟩
    · rw [if_pos hc, if_pos hc, ← hk, hc]; rfl
    · rw [if_neg hc, if_neg hc, hk]

/-- With no DIRTY slot the end-of-probe check changes nothing. -/
theorem endOfProbeCheck_idle {s : State} (h : ∀ i, (s.slot i).isDirty = false) (p : Port) : endOfProbeCheck p s = s := by
  have hd : s.dirtyOn p = [] := by
    unfold State.dirtyOn
    rw [List.filter_eq_nil_iff]
    intro i _
    have := h i
    cases hs : s.slot i <;> rw [hs] at this <;> simp_all [StagingSlot.isDirty]
  unfold endOfProbeCheck
  rw [hd]
  rfl

/-! ## The walk over the ports -/

/-- The port record after a classification of the ports of `l` that hold findings. -/
def State.classifiedPort (s : State) (l : List Port) (q : Port) : PortRecord :=
  if q ∈ l ∧ s.holdsFindings q = true then
    (s.port q).probe.elim (s.port q) (fun pr => (s.port q).classified s.mapStore.active pr)
  else s.port q

/-- What classifying the ports of `l` that hold findings leaves of `s`. -/
structure Classified (s t : State) (l : List Port) : Prop where
  port : ∀ q, t.port q = s.classifiedPort l q
  mapStore : t.mapStore = s.mapStore
  params : t.params = s.params
  link : t.link = s.link
  slots : (∀ i, (s.slot i).isDirty = false) → ∀ i, t.slot i = s.slot i
  attached : (∀ i, (s.slot i).isDirty = false) → ∀ q, t.notice ⟨.portAttached, some q⟩ =
    if q ∈ l ∧ s.holdsFindings q = true
      then some (raisedOnce ⟨.portAttached, some q⟩ (.portClass (t.port q).cls) (s.notice ⟨.portAttached, some q⟩))
      else s.notice ⟨.portAttached, some q⟩
  others : (∀ i, (s.slot i).isDirty = false) → ∀ k, k.kind ≠ .portAttached → t.notice k = s.notice k
  log : (∀ i, (s.slot i).isDirty = false) → t.log = s.log

theorem State.holdsFindings_probe {s : State} {p : Port} (h : s.holdsFindings p = true) : ∃ pr, (s.port p).probe = some pr := by
  unfold State.holdsFindings at h
  cases e : (s.port p).probe with
  | none => rw [e] at h; simp at h
  | some pr => exact ⟨pr, rfl⟩

theorem State.holdsFindings_port {s t : State} {p : Port} (h : t.port p = s.port p) : t.holdsFindings p = s.holdsFindings p := by
  unfold State.holdsFindings
  rw [h]

/-- One port that holds findings, classified. -/
theorem classified_one {s : State} {p : Port} (h : s.holdsFindings p = true) : Classified s (classify p s) [p] := by
  obtain ⟨pr, hp⟩ := State.holdsFindings_probe h
  obtain ⟨X, n, m, e, eX, hn⟩ := classify_calm hp
  rw [e]
  have C := calm_endOfProbeCheck p X
  have P : ∀ q, (endOfProbeCheck p X).port q = s.classifiedPort [p] q := by
    intro q
    rw [C.port, eX]
    show ({ s with ports := s.ports.set p ((s.port p).classified s.mapStore.active pr) } : State).port q = _
    rw [show ({ s with ports := s.ports.set p ((s.port p).classified s.mapStore.active pr) } : State)
      = s.setPort p ((s.port p).classified s.mapStore.active pr) from rfl, State.port_setPort]
    unfold State.classifiedPort
    by_cases hq : q = p
    · rw [if_pos hq, if_pos ⟨by simp [hq], hq ▸ h⟩, hq, hp]; rfl
    · rw [if_neg hq, if_neg (by simp [hq])]
  have D : (∀ i, (s.slot i).isDirty = false) → endOfProbeCheck p X = X := fun hd =>
    endOfProbeCheck_idle (by rw [eX]; exact hd) p
  refine ⟨P, ?_, ?_, ?_, fun hd i => ?_, fun hd q => ?_, fun hd k hk => ?_, fun hd => by rw [D hd, eX]⟩
  · rw [C.mapStore, eX]
  · rw [C.params, eX]
  · rw [C.link, eX]
  · rw [D hd, eX]; rfl
  · rw [P q, D hd, eX]
    refine Eq.trans (hn _) ?_
    unfold State.classifiedPort
    by_cases hq : q = p
    · rw [hq, if_pos rfl, if_pos (by simp [h]), if_pos (by simp [h]), hp]; rfl
    · rw [if_neg (by simp [hq]), if_neg (by simp [hq])]
  · rw [D hd, eX]
    refine Eq.trans (hn k) ?_
    rw [if_neg (fun hc => hk (by rw [hc]))]

theorem classified_walk (l : List Port) (s : State) (hl : l.Nodup) :
    Classified s (l.foldl (fun acc p => if acc.holdsFindings p then classify p acc else acc) s) l := by
  induction l generalizing s with
  | nil => exact ⟨fun q => by simp [State.classifiedPort], rfl, rfl, rfl, fun _ _ => rfl, fun _ q => by simp, fun _ _ _ => rfl,
      fun _ => rfl⟩
  | cons p l ih =>
    rw [List.foldl_cons]
    rw [List.nodup_cons] at hl
    by_cases h : s.holdsFindings p = true
    · rw [if_pos h]
      have A := classified_one h
      generalize hY : classify p s = Y at A
      have B := ih Y hl.2
      generalize hZ : l.foldl (fun acc p => if acc.holdsFindings p then classify p acc else acc) Y = Z at B
      have K : ∀ q, q ≠ p → Y.port q = s.port q := fun q hq => by
        rw [A.port]; unfold State.classifiedPort; rw [if_neg (by simp [hq])]
      refine ⟨fun q => ?_, B.mapStore.trans A.mapStore, B.params.trans A.params, B.link.trans A.link,
        fun hd i => ?_, fun hd q => ?_, fun hd k hk => ?_,
        fun hd => (B.log (fun j => by rw [A.slots hd]; exact hd j)).trans (A.log hd)⟩
      · rw [B.port]
        unfold State.classifiedPort
        by_cases hq : q = p
        · rw [if_neg (by rw [hq]; exact fun c => hl.1 c.1), A.port]
          unfold State.classifiedPort
          rw [if_pos ⟨by simp [hq], hq ▸ h⟩, if_pos ⟨by simp [hq], hq ▸ h⟩]
        · rw [State.holdsFindings_port (K q hq), K q hq, A.mapStore]
          simp [hq]
      · rw [B.slots (fun j => by rw [A.slots hd]; exact hd j), A.slots hd]
      · have hd2 : ∀ i, (Y.slot i).isDirty = false := fun j => by rw [A.slots hd]; exact hd j
        rw [B.attached hd2]
        by_cases hq : q = p
        · rw [if_neg (by rw [hq]; exact fun c => hl.1 c.1), A.attached hd, if_pos ⟨by simp [hq], hq ▸ h⟩,
            if_pos ⟨by simp [hq], hq ▸ h⟩, B.port]
          unfold State.classifiedPort
          rw [if_neg (by rw [hq]; exact fun c => hl.1 c.1)]
        · have NA : Y.notice ⟨.portAttached, some q⟩ = s.notice ⟨.portAttached, some q⟩ := by
            rw [A.attached hd, if_neg (by simp [hq])]
          rw [State.holdsFindings_port (K q hq), NA]
          simp [hq]
      · rw [B.others (fun j => by rw [A.slots hd]; exact hd j) k hk, A.others hd k hk]
    · rw [if_neg h]
      have B := ih s hl.2
      have M : ∀ q, (q ∈ p :: l ∧ s.holdsFindings q = true) ↔ (q ∈ l ∧ s.holdsFindings q = true) := by
        intro q
        constructor
        · rintro ⟨c, d⟩
          rcases List.mem_cons.1 c with rfl | c
          · exact absurd d h
          · exact ⟨c, d⟩
        · exact fun ⟨c, d⟩ => ⟨List.mem_cons_of_mem _ c, d⟩
      refine ⟨fun q => ?_, B.mapStore, B.params, B.link, B.slots, fun hd q => ?_, B.others, B.log⟩
      · rw [B.port]; unfold State.classifiedPort; simp only [M]
      · rw [B.attached hd]; simp only [M]

/-- Every port that holds findings, classified. -/
theorem classifyHeld_spec (s : State) : Classified s (classifyHeld s) allPorts := classified_walk allPorts s (by decide)

/-- Findings and staged data do not meet: no slot is DIRTY, or no port holds findings. -/
def State.apartFindings (s : State) : Prop := (∀ i, (s.slot i).isDirty = false) ∨ ∀ p, s.holdsFindings p = false

theorem classifyHeld_idle {s : State} (h : ∀ p, s.holdsFindings p = false) : classifyHeld s = s := by
  have k : ∀ l : List Port, l.foldl (fun acc p => if acc.holdsFindings p then classify p acc else acc) s = s := by
    intro l
    induction l with
    | nil => rfl
    | cons p l ih => rw [List.foldl_cons, h p]; exact ih
  exact k allPorts

/-- The classification of held findings keeps the log and every other notice. -/
theorem classifyHeld_keeps {s : State} (h : s.apartFindings) : (classifyHeld s).log = s.log ∧
    (∀ k, k.kind ≠ .portAttached → (classifyHeld s).notice k = s.notice k) ∧
    ∀ q, s.holdsFindings q = false → (classifyHeld s).notice ⟨.portAttached, some q⟩ = s.notice ⟨.portAttached, some q⟩ := by
  rcases h with h | h
  · have C := classifyHeld_spec s
    exact ⟨C.log h, C.others h, fun q hq => by rw [C.attached h q, if_neg (by simp [hq])]⟩
  · rw [classifyHeld_idle h]
    exact ⟨rfl, fun _ _ => rfl, fun _ _ => rfl⟩

/-! ## The selection at start-up -/

theorem selected_keep (s : State) (l : List Port) (m : Map)
    (h : ∀ x n, x ∈ l → s.heldRecord x = some n → n.generation ≤ m.generation) :
    l.foldl (fun best p => match best, s.heldRecord p with
      | none, m => m
      | some b, some m => if b.generation < m.generation then some m else some b
      | some b, none => some b) (some m) = some m := by
  induction l with
  | nil => rfl
  | cons p l ih =>
    rw [List.foldl_cons]
    cases e : s.heldRecord p with
    | none => exact ih (fun x n hx => h x n (List.mem_cons_of_mem _ hx))
    | some n =>
      dsimp only
      rw [if_neg (by have := h p n (by simp) e; simpa using this)]
      exact ih (fun x n hx => h x n (List.mem_cons_of_mem _ hx))

theorem selected_below (s : State) (l : List Port) (b : Option Map) (g : Word32)
    (hb : ∀ m, b = some m → m.generation < g) (h : ∀ x n, x ∈ l → s.heldRecord x = some n → n.generation < g) :
    ∀ m, l.foldl (fun best p => match best, s.heldRecord p with
      | none, m => m
      | some b, some m => if b.generation < m.generation then some m else some b
      | some b, none => some b) b = some m → m.generation < g := by
  induction l generalizing b with
  | nil => exact hb
  | cons p l ih =>
    rw [List.foldl_cons]
    refine ih _ ?_ (fun x n hx => h x n (List.mem_cons_of_mem _ hx))
    cases e : s.heldRecord p with
    | none => cases b with
      | none => intro m hm; cases hm
      | some b => exact hb
    | some n =>
      cases b with
      | none => intro m hm; cases hm; exact h p n (by simp) e
      | some b =>
        dsimp only
        intro m hm
        split at hm
        · cases hm; exact h p n (by simp) e
        · cases hm; exact hb _ rfl

/-- The highest generation, from the lowest-numbered port that carries it (R158). -/
theorem selected_some {s : State} {p : Port} {m : Map} (h1 : s.heldRecord p = some m)
    (h2 : ∀ x n, s.heldRecord x = some n → n.generation ≤ m.generation)
    (h3 : ∀ x n, x < p → s.heldRecord x = some n → n.generation ≠ m.generation) : s.selected = some m := by
  have H : ∃ l k, allPorts = l ++ p :: k ∧ ∀ x, x ∈ l → x < p := by
    revert p; intro p _ _
    have : ∀ p : Port, allPorts = allPorts.take p.val ++ p :: allPorts.drop (p.val + 1) ∧ ∀ x, x ∈ allPorts.take p.val → x < p := by
      decide
    exact ⟨_, _, (this p).1, (this p).2⟩
  obtain ⟨l, k, e, hl⟩ := H
  unfold State.selected
  rw [e, List.foldl_append, List.foldl_cons]
  have B := selected_below s l none m.generation (by intro _ hh; cases hh) (fun x n hx hn => by
    have a := h2 x n hn
    have b := h3 x n (hl x hx) hn
    have : n.generation.toNat ≠ m.generation.toNat := fun c => b (BitVec.eq_of_toNat_eq c)
    have a : n.generation.toNat ≤ m.generation.toNat := a
    show n.generation.toNat < m.generation.toNat
    omega)
  generalize l.foldl _ _ = b at B
  rw [h1]
  have K := selected_keep s k m (fun x n _ hn => h2 x n hn)
  cases b with
  | none => exact K
  | some b =>
    dsimp only
    rw [if_pos (B b rfl)]
    exact K

theorem selected_none {s : State} (h : ∀ p, s.heldRecord p = none) : s.selected = none := by
  unfold State.selected allPorts
  simp [h]

/-! ## The evaluation of pressure -/

/-- The evaluation of pressure raises STAGING_HIGH only (R88). -/
theorem evalPressure_otherNotice (s : State) (k : NoticeKey) (h : k.kind ≠ .stagingHigh) :
    (evalPressure s).notice k = s.notice k := by
  rw [evalPressure_notice, if_neg (fun hc => h (by rw [hc]))]

theorem settleStaging_notice (s : State) (k : NoticeKey) (h : k.kind ≠ .stagingHigh) :
    (settleStaging s).notice k = s.notice k := by
  obtain ⟨v, m, i, e⟩ := settle_eq (evalPressure s)
  unfold settleStaging
  rw [e]
  exact evalPressure_otherNotice s k h

/-- The end of an event keeps each port's record but for its engine and its operation. -/
theorem settleStaging_port (s : State) (p : Port) :
    ∃ e o, (settleStaging s).port p = { s.port p with engine := e, op := o } := by
  obtain ⟨n, b, e⟩ := evalPressure_eq s
  have h := (endsAs_settleStaging s).2.2.2.2.2.2.2.2.2.2.1 p
  rw [e] at h
  exact ⟨((settleStaging s).port p).engine, ((settleStaging s).port p).op, h⟩

end Sys2Proof.Machine
end

