-- ==== Sys2Proof/Laws/PortEvents.lean ====
section
/-! SUPPORT. What the port events leave of the port they are about: the end of an operation by a port event, entry to
EMPTY, to PROBE and to DEBOUNCE, said once (R98 to R101, R122). -/

namespace Sys2Proof.Machine

/-! ## The end of an event, for a port that is not asked for SLEEP -/

theorem askSleep_other (p q : Port) (s : State) (h : q ≠ p) : (askSleep p s).port q = s.port q := by
  unfold askSleep startOp
  split
  · rfl
  · split
    · show ((s.setPort p _).setMark p .pending).port q = _
      rw [show ∀ x : State, (x.setMark p .pending).port q = x.port q from fun _ => rfl, State.port_setPort, if_neg h]
    · rfl

theorem askSleep_declines (p : Port) (s : State) (h : (s.port p).cls.targetable = false) : (askSleep p s).port p = s.port p := by
  unfold askSleep
  split
  · rfl
  · rw [if_neg (by simp [h])]
    rfl

theorem restPort_keeps (p q : Port) (s : State) (h : (s.port p).cls.targetable = false) : (restPort q s).port p = s.port p := by
  unfold restPort
  split
  · by_cases hq : p = q
    · rw [← hq]; exact askSleep_declines p s h
    · exact askSleep_other q p s hq
  · rfl

/-- The end of an event leaves a port that takes no SLEEP as it is. -/
theorem settle_port_keeps (p : Port) (s : State) (h : (s.port p).cls.targetable = false) : (settle s).port p = s.port p := by
  have K : ∀ (l : List Port) (t : State), (t.port p).cls.targetable = false →
      (l.foldl (fun acc q => restPort q acc) t).port p = t.port p := by
    intro l
    induction l with
    | nil => intro t _; rfl
    | cons q l ih =>
      intro t ht
      have e := restPort_keeps p q t ht
      rw [List.foldl_cons, ih _ (by rw [e]; exact ht), e]
  have e : ∀ x : State, (evalIdle x).port p = x.port p := by
    intro x
    unfold evalIdle
    split
    · split <;> rfl
    · rfl
  unfold settle restPorts
  rw [e, K _ _ h]

theorem evalPressure_port (s : State) (p : Port) : (evalPressure s).port p = s.port p := by
  obtain ⟨n, b, e⟩ := evalPressure_eq s
  rw [e]
  rfl

theorem settleStaging_port_keeps (p : Port) (s : State) (h : (s.port p).cls.targetable = false) :
    (settleStaging s).port p = s.port p := by
  unfold settleStaging
  rw [settle_port_keeps _ _ (by rw [evalPressure_port]; exact h), evalPressure_port]

/-! ## The end of an operation by a port event -/

theorem setClass_marks (p : Port) (c : PortClass) (s : State) : setClass p c s =
    { s with ports := s.ports.set p { s.port p with cls := c }, power := { s.power with marks := s.marksAfter p c } } := by
  unfold setClass State.marksAfter
  dsimp only
  by_cases h : (s.port p).cls ≠ c ∧ s.mark p = .declined
  · rw [if_pos h, if_pos h]; rfl
  · rw [if_neg h, if_neg h]; rfl

theorem probeEngine_eq (x : PortRecord) (st : PortStats) :
    x.entered true st = ⟨.probe, none, some Probe.start, probeEngine x, none, none, 0, 0, st⟩ := by
  unfold PortRecord.entered probeEngine Probe.start
  cases x.op with
  | none => rfl
  | some o => cases o with | mk k u a l u => cases k <;> simp

/-- Entry to PROBE (R101). -/
theorem portProbe_port (p : Port) (e : Engine) (earlier : List SlotNo) (s : State) :
    ∃ st, (s.port p).stats.atMost st ∧
      (portProbe p e earlier s).port p = ⟨.probe, none, some Probe.start, e, none, none, 0, 0, st⟩ ∧
      ((s.port p).op = none → st = (s.port p).stats) := by
  obtain ⟨st, h1, h2⟩ := loseOp_port p s
  refine ⟨st, h1, ?_, fun h => ?_⟩
  · unfold portProbe
    dsimp only
    rw [(calm_noteStranded _ _).port p, (calm_handOnWalk _ _).port p, State.port_setPort, if_pos rfl, setClass_self, h2]
  · rw [loseOp_none h] at h2
    exact (congrArg PortRecord.stats h2).symm

/-- Entry to PROBE with no operation in flight. -/
theorem portProbe_idle (p : Port) (e : Engine) (s : State) (h : (s.port p).op = none) :
    portProbe p e [] s = { s with
      ports := s.ports.set p ⟨.probe, none, some Probe.start, e, none, none, 0, 0, (s.port p).stats⟩
      power := { s.power with marks := s.marksAfter p .probe } } := by
  unfold portProbe
  rw [loseOp_none h]
  dsimp only
  rw [setClass_marks]
  show State.setPort _ p _ = _
  unfold State.setPort State.port
  simp only [Fin.getElem_fin, Vector.getElem_set_self, Vector.set_set]
  congr 2
  have : (s.ports[p.val]).op = none := h
  rw [this]

/-- Entry to EMPTY (R100). -/
theorem portEmpty_port (p : Port) (c : Option PortClass) (earlier : List SlotNo) (s : State) :
    ∃ st, (s.port p).stats.atMost st ∧
      (portEmpty p c earlier s).port p = ⟨.empty, none, none, .idle, none, none, 0, 0, st⟩ ∧
      ((s.port p).op = none → st = (s.port p).stats) := by
  obtain ⟨st, h1, h2⟩ := loseOp_port p s
  refine ⟨st, h1, ?_, fun h => ?_⟩
  · have K : ∀ x : State, (match c with | some c => raisePort .portDetached p (.portClass c) x | none => x).port p = x.port p := by
      intro x
      cases c with
      | none => rfl
      | some c => exact (calm_raisePort _ _ _ _).port p
    unfold portEmpty
    dsimp only
    refine (K _).trans ?_
    rw [(calm_noteStranded _ _).port p, (calm_handOnWalk _ _).port p, (soft_strandAll _ _).port p, State.port_setPort, if_pos rfl, setClass_self, h2]
  · rw [loseOp_none h] at h2
    exact (congrArg PortRecord.stats h2).symm

theorem dirtyOn_none {s : State} {p : Port} (h : ∀ i x m d, s.slot i = .dirty x m d → s.liesOn p x = false) : s.dirtyOn p = [] := by
  unfold State.dirtyOn
  rw [List.filter_eq_nil_iff]
  intro i _
  cases e : s.slot i with
  | dirty x m d => simpa using h i x m d e
  | _ => simp

/-- Entry to EMPTY with no operation in flight and no DIRTY slot on the port. -/
theorem portEmpty_idle (p : Port) (c : Option PortClass) (s : State) (h : (s.port p).op = none)
    (hd : ∀ i x m d, s.slot i = .dirty x m d → s.liesOn p x = false) :
    portEmpty p c [] s = (match c with | some c => raisePort .portDetached p (.portClass c) | none => id) { s with
      ports := s.ports.set p ⟨.empty, none, none, .idle, none, none, 0, 0, (s.port p).stats⟩
      power := { s.power with marks := s.marksAfter p .empty } } := by
  unfold portEmpty
  rw [loseOp_none h]
  dsimp only
  rw [setClass_marks]
  generalize hX : State.setPort _ p _ = X
  have e : X = { s with
      ports := s.ports.set p ⟨.empty, none, none, .idle, none, none, 0, 0, (s.port p).stats⟩
      power := { s.power with marks := s.marksAfter p .empty } } := by
    rw [← hX]
    unfold State.setPort State.port
    simp only [Fin.getElem_fin, Vector.getElem_set_self, Vector.set_set]
    congr 2
    have : (s.ports[p.val]).op = none := h
    rw [this]
  rw [dirtyOn_none (by rw [e]; exact hd), e]
  cases c <;> rfl

/-! ## A port that leaves -/

theorem assignReturns_settled {s : State} (h : s.returnsSettled) : assignReturns s = s := by
  rcases h with h | h
  · exact assignReturns_idle h
  · unfold assignReturns assignReturnsUpTo
    have : allReturns.find? (fun r => decide (s.returnSlot r = .free)) = none := by
      rw [List.find?_eq_none]
      intro r _
      simpa using h r
    rw [this]
    cases s.nextRead <;> rfl

theorem failWaitingAll_idle {s : State} {p : Port} (h : s.returnsSettled) (k : ∀ u, s.waitsOn p u = false) :
    failWaitingAll p s = s := by
  unfold failWaitingAll
  rw [forAdmitted_idle, assignReturns_settled h]
  intro t
  unfold failWaiting
  cases s.fetchRecord t with
  | none => rfl
  | some f =>
    dsimp only
    cases f.fetch with
    | none => rfl
    | some x =>
      dsimp only
      rw [if_neg (by simp [k t])]

theorem dropTarget_other {p : Port} {a b : Bool} {s : State}
    (h : ∀ c, s.mapStore.commit = some c → ∀ x ∈ c.targets, x.port ≠ p) : dropTarget p a b s = s := by
  unfold dropTarget
  cases e : s.mapStore.commit with
  | none => rfl
  | some c =>
    dsimp only
    rw [if_neg]
    unfold Commit.isTarget
    rw [List.any_eq_true]
    rintro ⟨x, hx, hp⟩
    exact h c e x hx (by simpa using hp)

/-- A port leaves for DEBOUNCE on a change to `level`, up to the waiting fetches and the commit (R98, R99). -/
theorem enterDebounce_eq (p : Port) (level : Bool) (s : State) :
    ∃ n S, S = ({ s with
        freeDraws := s.freeDraws + (if (s.port p).op.isSome then 1 else 0)
        ports := s.ports.set p { s.port p with
          cls := .debounce, probe := none
          op := (s.port p).op.map (fun o => { o with attempts := n, suspended := true })
          debounce := some ⟨level, s.clock + 25, if (s.port p).cls.classified then some (s.port p).cls else none⟩ }
        power := { s.power with marks := s.marksAfter p .debounce } } : State) ∧
      enterDebounce p level s = dropTarget p false false (if (s.port p).cls = .pooled then failWaitingAll p S else S) := by
  refine ⟨((s.port p).op.map (fun o => attemptsSoFar o s)).getD 0, _, rfl, ?_⟩
  unfold enterDebounce
  dsimp only
  generalize hS : ({ s with
        freeDraws := s.freeDraws + (if (s.port p).op.isSome then 1 else 0), ports := _, power := _ } : State) = S
  have e : State.setPort (setClass p .debounce (if (s.port p).op.isSome then s.drawn else s)) p
      { (setClass p .debounce (if (s.port p).op.isSome then s.drawn else s)).port p with
        op := (s.port p).op.map (fun o => { o with attempts := attemptsSoFar o s, suspended := true })
        debounce := some ⟨level, s.ahead Config.debounceMs, if (s.port p).cls.classified then some (s.port p).cls else none⟩
        probe := none } = S := by
    rw [setClass_marks, ← hS]
    unfold State.setPort State.port
    cases ho : (s.ports[p]).op with
    | none =>
      simp only [Fin.getElem_fin, Vector.getElem_set_self, Vector.set_set, Option.isSome_none, Option.map_none]
      rfl
    | some o =>
      simp only [Fin.getElem_fin, Vector.getElem_set_self, Vector.set_set, Option.isSome_some, Option.map_some, if_true]
      simp only [State.drawn, State.marksAfter, State.port, State.mark, Fin.getElem_fin, Option.getD_some]
      rfl
  rw [e]
  simp only [decide_eq_true_eq]

/-! ## Entry to PROBE or to EMPTY -/

/-- The port event itself: entry to PROBE with its member present, to EMPTY without. -/
def enterPort (p : Port) (present : Bool) (noted : Option PortClass) (e : Engine) (earlier : List SlotNo) (s : State) : State :=
  if present then portProbe p e earlier s else portEmpty p noted earlier s

theorem enterPort_port (p : Port) (present : Bool) (noted : Option PortClass) (earlier : List SlotNo) (s : State) (x : PortRecord) :
    ∃ st, (s.port p).stats.atMost st ∧
      (enterPort p present noted (probeEngine x) earlier s).port p = x.entered present st ∧
      ((s.port p).op = none → st = (s.port p).stats) := by
  unfold enterPort
  cases present with
  | true =>
    obtain ⟨st, a, b, c⟩ := portProbe_port p (probeEngine x) earlier s
    exact ⟨st, a, by rw [if_pos rfl, b, probeEngine_eq], c⟩
  | false => exact portEmpty_port p noted earlier s

theorem entered_targetable (x : PortRecord) (present : Bool) (st : PortStats) : (x.entered present st).cls.targetable = false := by
  cases present <;> rfl

/-- The event and its end. -/
theorem enterPort_settled (p : Port) (present : Bool) (noted : Option PortClass) (earlier : List SlotNo) (s : State) (x : PortRecord) :
    ∃ st, (s.port p).stats.atMost st ∧
      (settleStaging (enterPort p present noted (probeEngine x) earlier s)).port p = x.entered present st ∧
      ((s.port p).op = none → st = (s.port p).stats) := by
  obtain ⟨st, a, b, c⟩ := enterPort_port p present noted earlier s x
  refine ⟨st, a, ?_, c⟩
  rw [settleStaging_port_keeps _ _ (by rw [b]; exact entered_targetable x present st), b]

/-- The whole event where the port has no operation in flight. -/
theorem portEntered_idle {p : Port} {s : State} (present : Bool) (noted : Option PortClass) (h : (s.port p).op = none) :
    s.portEntered (settleStaging (enterPort p present noted (probeEngine (s.port p)) [] s)) p present noted := by
  obtain ⟨st, a, b, c⟩ := enterPort_settled p present noted [] s (s.port p)
  have hst := c h
  refine ⟨st, a, b, fun _ => ⟨hst, fun hd => ?_⟩⟩
  have A := endsAs_settleStaging (enterPort p present noted (probeEngine (s.port p)) [] s)
  generalize settleStaging (enterPort p present noted (probeEngine (s.port p)) [] s) = T at A
  cases present with
  | true =>
    refine ⟨s.notices, ?_, fun _ => rfl, fun _ => rfl, fun _ _ hc => by cases hc⟩
    have e : enterPort p true noted (probeEngine (s.port p)) [] s = portProbe p (probeEngine (s.port p)) [] s := rfl
    rw [e, portProbe_idle p _ s h] at A
    rw [hst, probeEngine_eq]
    exact A
  | false =>
    have e : enterPort p false noted (probeEngine (s.port p)) [] s = portEmpty p noted [] s := rfl
    rw [e, portEmpty_idle p noted s h (hd rfl)] at A
    cases noted with
    | none =>
      refine ⟨s.notices, ?_, fun hc => (by cases hc), fun _ => rfl, fun _ c _ hc => (by cases hc)⟩
      rw [hst]
      exact A
    | some c =>
      rw [hst]
      generalize hX : ({ s with
          ports := s.ports.set p ⟨.empty, none, none, .idle, none, none, 0, 0, (s.port p).stats⟩
          power := { s.power with marks := s.marksAfter p .empty } } : State) = X at A
      obtain ⟨n, e2⟩ := raise_eq ⟨.portDetached, some p⟩ (.portClass c) X
      have N := fun j => raise_notice ⟨.portDetached, some p⟩ j (.portClass c) X
      have A : ({ X with notices := n } : State).endsAs T := by rw [← e2]; exact A
      rw [e2] at N
      refine ⟨n, ?_, fun hc => (by cases hc), fun hc => (by cases hc), fun k c2 _ hc => ?_⟩
      · rw [← hX] at A; exact A
      · cases hc
        have hXn : ∀ j, X.notice j = s.notice j := fun j => by rw [← hX]; rfl
        refine (N k).trans ?_
        by_cases hk : k = ⟨.portDetached, some p⟩
        · rw [if_pos hk, if_pos hk, hXn, hk]
        · rw [if_neg hk, if_neg hk, hXn]

end Sys2Proof.Machine
end

