-- ==== Sys2Proof/Laws/Lane.lean ====
section
/-! SUPPORT. The ends of the lane operations, said once: what the answers come to, the record of the end, and a failure
that counts (R108 to R117, R124). -/

namespace Sys2Proof.Machine

/-! ## The record of the end -/

theorem closeOp_awake (p : Port) (k : OpKind) (hk : k ≠ .sleep) (e : Engine) (v : StatEvent) (n : Nat) (s : State) :
    closeOp p k e v n s = { s with
      ports := s.ports.set p ((s.port p).closed e ((s.port p).stats.after v n))
      power := { s.power with marks := s.marksClosed p } } := by
  unfold closeOp State.marksClosed
  dsimp only
  by_cases h : s.mark p = .declined
  · rw [if_pos ⟨hk, h⟩, if_pos h]; rfl
  · rw [if_neg (fun c => h c.2), if_neg h]; rfl

theorem closeOp_sleep (p : Port) (e : Engine) (v : StatEvent) (n : Nat) (s : State) :
    closeOp p .sleep e v n s = { s with ports := s.ports.set p ((s.port p).closed e ((s.port p).stats.after v n)) } := by
  unfold closeOp
  dsimp only
  rw [if_neg (fun c => c.1 rfl)]
  rfl

theorem State.runningOp_some {s : State} {p : Port} {o : Operation} (h : (s.port p).op = some o) (k : o.suspended = false) :
    s.runningOp p = some o := by
  unfold State.runningOp
  rw [h]
  dsimp only
  rw [if_neg (by simp [k])]

/-- A failure counts and stays below three. -/
theorem countFailure_below {p : Port} {e : OpFailure} {s : State} (h : (s.port p).failures < 2) :
    countFailure p e [] s = s.setPort p { s.port p with failures := (s.port p).failures + 1 } := by
  unfold countFailure setFailures
  dsimp only
  have : min ((s.port p).failures + 1) Config.failureLimit = (s.port p).failures + 1 := by
    have : Config.failureLimit = 3 := rfl
    omega
  rw [this, if_neg (by have : Config.failureLimit = 3 := rfl; omega)]
  rfl

/-- A history entry of a port. -/
theorem addEntry_port (p : Port) (c : HistoryCause) (tag : Option Tag) (lbn pbn : Option Nat) (n : Nat) (s : State) :
    ∃ ns, s.logAddedTo ns ∧ addEntry ⟨c, .port, tag, lbn, some p, pbn, n⟩ s =
      { s with log := s.portLogged p c tag lbn pbn n, notices := ns } := by
  obtain ⟨ns, e, h⟩ := addEntry_entry ⟨c, .port, tag, lbn, some p, pbn, n⟩ s
  exact ⟨ns, h, e⟩

/-- A failed probe of a port in PROBE that has no operation, no mark DECLINED, no target record and no DIRTY slot: the
entry, the class and the notice (R103, R106). -/
theorem probeFailed_idle {p : Port} {pbn : Option Nat} {n : Nat} {s : State} (ho : (s.port p).op = none)
    (hc : (s.port p).cls = .probe) (ht : ∀ c, s.mapStore.commit = some c → ∀ x ∈ c.targets, x.port ≠ p)
    (hd : ∀ i x m d, s.slot i = .dirty x m d → s.liesOn p x = false) (hm : s.mark p ≠ .declined) :
    ∃ ns, (∀ k, ns.pending.find? (fun n => n.key = k) =
        if k = ⟨.portFailed, some p⟩ then some (raisedOnce k (.cause .probeFailed) (s.notice k))
        else if k = ⟨.logAdded, none⟩ then some (raisedOnce k (.number s.log.nextNumber) (s.notice k))
        else s.notice k) ∧
      probeFailed p pbn n s = { s with
        ports := s.ports.set p { s.port p with cls := .failed, engine := .idle, probe := none, member := none, debounce := none }
        log := s.portLogged p .probeFailed none none pbn n, notices := ns } := by
  obtain ⟨n1, a1, a2⟩ := addEntry_port p .probeFailed none none pbn n s
  unfold probeFailed
  dsimp only
  rw [a2]
  generalize hY : ({ s with log := s.portLogged p .probeFailed none none pbn n, notices := n1 } : State) = Y
  have Yp : Y.port p = s.port p := by rw [← hY]; rfl
  unfold portFailed
  generalize hZ : Y.setPort p { Y.port p with probe := none, member := none } = Z
  have Zp : Z.port p = { s.port p with probe := none, member := none } := by
    rw [← hZ, State.port_setPort, if_pos rfl, Yp]
  rw [Zp]
  dsimp only
  rw [loseOp_none (by rw [Zp]; exact ho)]
  dsimp only
  rw [List.append_nil, handOnWalk_nil]
  have hcp : decide ((s.port p).cls = PortClass.pooled) = false := by rw [hc]; rfl
  rw [hcp]
  generalize hW : ({ s with
      ports := s.ports.set p { s.port p with cls := .failed, engine := .idle, probe := none, member := none, debounce := none }
      log := s.portLogged p .probeFailed none none pbn n, notices := n1 } : State) = W
  have hWe : State.setPort (setClass p .failed Z) p
      { (setClass p .failed Z).port p with engine := .idle, probe := none, debounce := none } = W := by
    rw [setClass_self, Zp, setClass_marks]
    have hmk : Z.marksAfter p .failed = s.power.marks := by
      unfold State.marksAfter
      rw [if_neg]
      · rw [← hZ, ← hY]; rfl
      · rintro ⟨_, c⟩
        rw [← hZ, ← hY] at c
        exact hm c
    rw [hmk, Zp, ← hW, ← hZ, ← hY]
    unfold State.setPort
    dsimp only
    rw [Vector.set_set, Vector.set_set]
  rw [hWe]
  have hT : dropTarget p true false W = W := dropTarget_other (by rw [← hW]; exact ht)
  have hD : W.dirtyOn p = [] := dirtyOn_none (by rw [← hW]; exact hd)
  rw [if_neg (by simp), hT, hD]
  obtain ⟨n2, e2⟩ := raise_eq ⟨.portFailed, some p⟩ (.cause .probeFailed) W
  have N := fun j => raise_notice ⟨.portFailed, some p⟩ j (.cause .probeFailed) W
  rw [e2] at N
  refine ⟨n2, fun k => ?_, ?_⟩
  · have hWn : ∀ j, W.notice j = n1.pending.find? (fun n => n.key = j) := fun j => by rw [← hW]; rfl
    refine (N k).trans ?_
    rw [hWn, hWn, a1, a1]
    by_cases hk : k = ⟨.portFailed, some p⟩
    · rw [if_pos hk, if_pos hk, if_neg (by simp), hk]
    · rw [if_neg hk, if_neg hk]
  · show raise ⟨.portFailed, some p⟩ (.cause .probeFailed) W = _
    rw [e2, ← hW]

/-! ## Reading -/

theorem blockReading_bad {b : Nat} {bytes : List Byte} (h1 : bytes ≠ List.replicate 258 0xFF)
    (h2 : ¬ (bytes.length = 258 ∧ bytes = storedBlock b (bytes.take 256))) : blockReading b bytes = none := by
  unfold blockReading
  rw [if_neg h1, if_neg h2]

theorem blockReading_erased (b : Nat) : blockReading b (List.replicate 258 0xFF) = some none := by
  unfold blockReading
  rw [if_pos rfl]

theorem checkValue_length (b : Nat) (d : List Byte) : (checkValue b d).length = 2 := rfl

theorem blockReading_good {b : Nat} {d : List Byte} (h1 : storedBlock b d ≠ List.replicate 258 0xFF) (h2 : d.length = 256) :
    blockReading b (storedBlock b d) = some (some d) := by
  have ht : (storedBlock b d).take 256 = d := by
    unfold storedBlock
    rw [← h2, List.take_left]
  unfold blockReading
  rw [if_neg h1, ht, if_pos ⟨by unfold storedBlock; rw [List.length_append, checkValue_length, h2], rfl⟩]

/-- Answers that do not end the operation are passed over. -/
theorem scanRead_goesOn {b : Nat} (pre : List ReadAnswer) (a : ReadAnswer) (n m k : Nat)
    (h1 : n + (pre.filter (fun a => a = .noAck)).length ≤ 2) (h2 : m + (pre.filter (fun a => a ≠ .noAck)).length ≤ 2)
    (h3 : ∀ bytes, .stored bytes ∈ pre → bytes ≠ List.replicate 258 0xFF ∧
      ¬ (bytes.length = 258 ∧ bytes = storedBlock b (bytes.take 256))) :
    scanRead b n m k (pre ++ [a]) = scanRead b (n + (pre.filter (fun a => a = .noAck)).length)
      (m + (pre.filter (fun a => a ≠ .noAck)).length) (k + pre.length) [a] := by
  induction pre generalizing n m k with
  | nil => rfl
  | cons c pre ih =>
    have limit : Config.attemptBudget = 3 := rfl
    simp only [ne_eq] at h2 ih ⊢
    cases c with
    | noAck =>
      simp only [List.filter_cons, decide_true, if_true, List.length_cons, not_true_eq_false, decide_false,
        Bool.false_eq_true, if_false] at h1 h2 ⊢
      rw [List.cons_append, scanRead, if_neg (by omega),
        ih (n + 1) m (k + 1) (by omega) (by omega) (fun x hx => h3 x (List.mem_cons_of_mem _ hx))]
      congr 1 <;> omega
    | stored bytes =>
      obtain ⟨a1, a2⟩ := h3 bytes (List.mem_cons_self ..)
      simp only [List.filter_cons, reduceCtorEq, decide_false, Bool.false_eq_true, if_false, not_false_eq_true,
        decide_true, if_true, List.length_cons] at h1 h2 ⊢
      rw [List.cons_append, scanRead, blockReading_bad a1 a2]
      dsimp only
      rw [if_neg (by omega),
        ih n (m + 1) (k + 1) (by omega) (by omega) (fun x hx => h3 x (List.mem_cons_of_mem _ hx))]
      congr 1 <;> omega

theorem scanRead_good {b : Nat} {pre : List ReadAnswer} (h : goesOnReading b pre) {bytes : List Byte} {r : Option (List Byte)}
    (hr : blockReading b bytes = some r) : scanRead b 0 0 0 (pre ++ [.stored bytes]) = some (.ok r, pre.length + 1) := by
  rw [scanRead_goesOn pre _ 0 0 0 (by have := h.1; omega) (by have := h.2.1; omega) h.2.2, scanRead, hr]
  show endScan [] _ _ = _
  rw [Nat.zero_add]
  rfl

theorem scanRead_noAck {b : Nat} {pre : List ReadAnswer} (h : goesOnReading b pre)
    (k : (pre.filter (fun a => a = .noAck)).length = 2) :
    scanRead b 0 0 0 (pre ++ [.noAck]) = some (.error .noResponse, pre.length + 1) := by
  have limit : Config.attemptBudget = 3 := rfl
  rw [scanRead_goesOn pre _ 0 0 0 (by have := h.1; omega) (by have := h.2.1; omega) h.2.2, scanRead, if_pos (by omega)]
  show endScan [] _ _ = _
  rw [Nat.zero_add]
  rfl

theorem scanRead_bad {b : Nat} {pre : List ReadAnswer} (h : goesOnReading b pre) {bytes : List Byte}
    (h1 : bytes ≠ List.replicate 258 0xFF) (h2 : ¬ (bytes.length = 258 ∧ bytes = storedBlock b (bytes.take 256)))
    (k : (pre.filter (fun a => a ≠ .noAck)).length = 2) :
    scanRead b 0 0 0 (pre ++ [.stored bytes]) = some (.error .checkFail, pre.length + 1) := by
  have limit : Config.attemptBudget = 3 := rfl
  rw [scanRead_goesOn pre _ 0 0 0 (by have := h.1; omega) (by have := h.2.1; omega) h.2.2, scanRead, blockReading_bad h1 h2]
  dsimp only
  rw [if_pos (by omega)]
  show endScan [] _ _ = _
  rw [Nat.zero_add]
  rfl

end Sys2Proof.Machine
end

