-- ==== Sys2Proof/Laws/Drain.lean ====
section
/-! SUPPORT. The ends of a PGBLK, said once: the polls, what a drained slot leaves of the requests that depend on it, a
drain's failure, and the map writes (R38, R39, R80, R81, R84, R105, R113, R148 to R152). -/

namespace Sys2Proof.Machine

/-! ## The answers -/

theorem scanProgram_starts (k n m : Nat) (rest : List ProgramAnswer) (h : n + k ≤ 2) :
    scanProgram false n m (List.replicate k .noAck ++ .startAck :: rest) = scanProgram true (n + k) (m + k + 1) rest := by
  induction k generalizing n m with
  | zero => rfl
  | succ k ih =>
    have limit : Config.attemptBudget = 3 := rfl
    rw [List.replicate_succ, List.cons_append, scanProgram, if_neg (by omega), ih (n + 1) (m + 1) (by omega)]
    congr 1 <;> omega

theorem scanProgram_polls (polls : List ProgramAnswer) (last : ProgramAnswer) (n m : Nat)
    (h : ∀ a ∈ polls, a = .inProgress ∨ a = .noAck) (k : n + (polls.filter (fun a => a = .noAck)).length ≤ 2) :
    scanProgram true n m (polls ++ [last]) =
      scanProgram true (n + (polls.filter (fun a => a = .noAck)).length) (m + polls.length) [last] := by
  induction polls generalizing n m with
  | nil => rfl
  | cons c polls ih =>
    have limit : Config.attemptBudget = 3 := rfl
    have ht : ∀ a ∈ polls, a = .inProgress ∨ a = .noAck := fun a ha => h a (List.mem_cons_of_mem _ ha)
    rcases h c (List.mem_cons_self ..) with e | e
    · subst e
      simp only [List.filter_cons, reduceCtorEq, decide_false, Bool.false_eq_true, if_false, List.length_cons] at k ⊢
      rw [List.cons_append, scanProgram, if_pos rfl, ih n (m + 1) ht k]
      congr 1
      omega
    · subst e
      simp only [List.filter_cons, decide_true, if_true, List.length_cons] at k ⊢
      rw [List.cons_append, scanProgram, if_neg (by omega), ih (n + 1) (m + 1) ht (by omega)]
      congr 1 <;> omega

theorem scanProgram_run (starts : Nat) (polls : List ProgramAnswer) (last : ProgramAnswer)
    (h : ∀ a ∈ polls, a = .inProgress ∨ a = .noAck) (k : starts + (polls.filter (fun a => a = .noAck)).length ≤ 2) :
    scanProgram false 0 0 (List.replicate starts .noAck ++ .startAck :: (polls ++ [last])) =
      scanProgram true (starts + (polls.filter (fun a => a = .noAck)).length) (starts + 1 + polls.length) [last] := by
  rw [scanProgram_starts starts 0 0 _ (by omega), Nat.zero_add, scanProgram_polls polls last _ _ h k]

/-! ## The requests that depend on a drained slot -/

/-- A request that is over, GOOD. -/
def Request.ended (r : Request) : Request :=
  { r with state := .reporting, status := some .good, failingLbn := none, holdList := [], flushSet := [], settleSet := [] }

/-- A request after slot `i` has left its flush set (R38). -/
def Request.flushed (i : SlotNo) (r : Request) : Request :=
  if r.kind = .flush ∧ r.state = .settling ∧ i ∈ r.flushSet then
    if (setRemove i r.flushSet).isEmpty then
      ({ r with flushSet := setRemove i r.flushSet, blocksDone := r.blocksDone + 1 } : Request).ended
    else { r with flushSet := setRemove i r.flushSet, blocksDone := r.blocksDone + 1 }
  else r

/-- A request after slot `i` has left its settle set (R39). -/
def Request.settled (i : SlotNo) (r : Request) : Request :=
  if i ∈ r.settleSet then
    if (setRemove i r.settleSet).isEmpty ∧ r.state = .settling then
      ({ r with settleSet := setRemove i r.settleSet } : Request).ended
    else { r with settleSet := setRemove i r.settleSet }
  else r

theorem flushLeave_spec (i : SlotNo) (t u : Tag) (s : State) :
    (flushLeave i t s).request u = if u = t then (s.request t).map (Request.flushed i) else s.request u := by
  unfold flushLeave
  cases e : s.request t with
  | none =>
    by_cases hu : u = t
    · rw [if_pos hu, hu]; exact e
    · rw [if_neg hu]
  | some r =>
    dsimp only
    have F : (some r).map (Request.flushed i) = some (r.flushed i) := rfl
    rw [F]
    unfold Request.flushed
    by_cases h : r.kind = .flush ∧ r.state = .settling ∧ i ∈ r.flushSet
    · rw [if_pos h, if_pos h]
      by_cases k : (setRemove i r.flushSet).isEmpty = true
      · rw [if_pos k, if_pos k, enterReporting_request, State.request_setRequest, State.request_setRequest]
        by_cases hu : u = t
        · rw [if_pos hu, if_pos hu, if_pos rfl]; rfl
        · rw [if_neg hu, if_neg hu, if_neg hu]
      · rw [if_neg k, if_neg k, State.request_setRequest]
    · rw [if_neg h, if_neg h]
      by_cases hu : u = t
      · rw [if_pos hu, hu]; exact e
      · rw [if_neg hu]

theorem settleLeave_spec (i : SlotNo) (t u : Tag) (s : State) :
    (settleLeave i t s).request u = if u = t then (s.request t).map (Request.settled i) else s.request u := by
  unfold settleLeave
  cases e : s.request t with
  | none =>
    by_cases hu : u = t
    · rw [if_pos hu, hu]; exact e
    · rw [if_neg hu]
  | some r =>
    dsimp only
    have F : (some r).map (Request.settled i) = some (r.settled i) := rfl
    rw [F]
    unfold Request.settled
    by_cases h : i ∈ r.settleSet
    · rw [if_pos h, if_pos h]
      by_cases k : (setRemove i r.settleSet).isEmpty = true ∧ r.state = .settling
      · rw [if_pos k, if_pos k, enterReporting_request, State.request_setRequest, State.request_setRequest]
        by_cases hu : u = t
        · rw [if_pos hu, if_pos hu, if_pos rfl]; rfl
        · rw [if_neg hu, if_neg hu, if_neg hu]
      · rw [if_neg k, if_neg k, State.request_setRequest]
    · rw [if_neg h, if_neg h]
      by_cases hu : u = t
      · rw [if_pos hu, hu]; exact e
      · rw [if_neg hu]

theorem settleLeave_table (i : SlotNo) (t : Tag) (s : State) : ∃ b, settleLeave i t s = { s with table := b } := by
  unfold settleLeave
  split
  · exact ⟨s.table, rfl⟩
  · split
    · dsimp only
      split
      · obtain ⟨b, e, _⟩ := enterReporting_eq t .good none (s.setRequest t _)
        exact ⟨b, e⟩
      · exact ⟨_, rfl⟩
    · exact ⟨s.table, rfl⟩

/-- No fetch waits for the drain of `z` (R61). -/
def State.noDrainWait (s : State) (z : Nat) : Prop :=
  ∀ u f v, s.fetchRecord u = some f → f.fetch = some v → v.stage = .drainWait → v.lbn ≠ z

theorem drainWaitEnd_idle {s : State} {z : Nat} (h : s.noDrainWait z) (t : Tag) : drainWaitEnd z t s = s := by
  unfold drainWaitEnd
  cases e : s.fetchRecord t with
  | none => rfl
  | some f =>
    dsimp only
    cases e2 : f.fetch with
    | none => rfl
    | some v =>
      dsimp only
      rw [if_neg (fun c => h t f v e e2 c.1 c.2)]

theorem drainedFor_spec (i : SlotNo) (z : Nat) (t : Tag) (s : State) (h : s.noDrainWait z) :
    (∃ b, drainedFor i z t s = { s with table := b }) ∧
      ∀ u, (drainedFor i z t s).request u =
        if u = t then (s.request t).map (fun r => (r.flushed i).settled i) else s.request u := by
  have A : ∃ b, settleLeave i t (flushLeave i t s) = { s with table := b } := by
    obtain ⟨b, e, _⟩ := flushLeave_eq i t s
    obtain ⟨c, e2⟩ := settleLeave_table i t (flushLeave i t s)
    exact ⟨c, by rw [e2, e]⟩
  have B : drainedFor i z t s = settleLeave i t (flushLeave i t s) := by
    unfold drainedFor
    obtain ⟨b, e⟩ := A
    refine drainWaitEnd_idle ?_ t
    rw [e]
    exact h
  refine ⟨by rw [B]; exact A, fun u => ?_⟩
  rw [B, settleLeave_spec, flushLeave_spec, flushLeave_spec, if_pos rfl]
  by_cases hu : u = t
  · rw [if_pos hu, if_pos hu, Option.map_map]; rfl
  · rw [if_neg hu, if_neg hu, if_neg hu]

/-- A walk whose steps each rewrite one request, and nothing else, under a condition that no request bears on. -/
theorem tableWalk {f : Tag → State → State} {g : Request → Request} {P : State → Prop}
    (hP : ∀ s b, P s → P { s with table := b })
    (h : ∀ t s, P s → (∃ b, f t s = { s with table := b }) ∧
      ∀ u, (f t s).request u = if u = t then (s.request t).map g else s.request u)
    (l : List Tag) (hl : l.Nodup) (s : State) (hs : P s) :
    (∃ b, l.foldl (fun acc t => f t acc) s = { s with table := b }) ∧
      ∀ u, (l.foldl (fun acc t => f t acc) s).request u = if u ∈ l then (s.request u).map g else s.request u := by
  induction l generalizing s with
  | nil => exact ⟨⟨s.table, rfl⟩, fun u => by simp⟩
  | cons t l ih =>
    rw [List.nodup_cons] at hl
    obtain ⟨⟨b, e⟩, k⟩ := h t s hs
    rw [List.foldl_cons]
    obtain ⟨⟨c, e2⟩, k2⟩ := ih hl.2 (f t s) (by rw [e]; exact hP s b hs)
    refine ⟨⟨c, by rw [e2, e]⟩, fun u => ?_⟩
    rw [k2, k]
    by_cases hu : u = t
    · rw [if_neg (by rw [hu]; exact hl.1), if_pos hu, if_pos (by simp [hu]), hu]
    · simp [hu]

/-- The same over the admission-order list, which names every request. -/
theorem tableWalk_admitted {f : Tag → State → State} {g : Request → Request} {P : State → Prop}
    (hP : ∀ s b, P s → P { s with table := b })
    (h : ∀ t s, P s → (∃ b, f t s = { s with table := b }) ∧
      ∀ u, (f t s).request u = if u = t then (s.request t).map g else s.request u)
    {s : State} (hs : P s) (ht : TableGood s) :
    (∃ b, forAdmitted f s = { s with table := b }) ∧ ∀ u, (forAdmitted f s).request u = (s.request u).map g := by
  obtain ⟨e, k⟩ := tableWalk hP h s.table.admissionOrder ht.1 s hs
  refine ⟨e, fun u => (k u).trans ?_⟩
  split
  · rfl
  next hu =>
    have : s.request u = none := by
      rw [← Option.not_isSome_iff_eq_none]
      exact fun c => hu ((ht.2 u).2 c)
    rw [this]
    rfl

/-- Requests rewritten so that none comes to wait: no grant is formed and no return slot is taken. -/
theorem rewritten_settles {s Y : State} {b : Table} {g : Request → Request} (e : Y = { s with table := b })
    (K : ∀ u, Y.request u = (s.request u).map g)
    (hg : ∀ r, (g r).kind = r.kind ∧ (g r).range = r.range ∧ ((g r).state = .active → r.state = .active))
    (h1 : ∀ u, ¬ s.waits u) (h2 : s.returnsSettled) : assignReturns (formGrants Y) = Y := by
  have act : ∀ u q, Y.request u = some q → q.state = .active → ∃ r, s.request u = some r ∧ q.kind = r.kind ∧
      q.range = r.range ∧ r.state = .active := by
    intro u q hq ha
    rw [K, Option.map_eq_some_iff] at hq
    obtain ⟨r, hr, rfl⟩ := hq
    obtain ⟨a, b, c⟩ := hg r
    exact ⟨r, hr, a, b, c ha⟩
  have G : formGrants Y = Y := by
    refine formGrants_idle (fun u hu => ?_)
    obtain ⟨q, g, w, c1, c2, c3, c4, c5, c6, c7⟩ := hu
    obtain ⟨r, d1, d2, d3, d4⟩ := act u q c1 c3
    refine h1 u ⟨r, g, w, d1, d2 ▸ c2, d4, d3 ▸ c4, ?_, c6, c7⟩
    rw [e] at c5
    exact c5
  rw [G]
  refine assignReturns_settled ?_
  rcases h2 with h2 | h2
  · left
    intro u hu
    obtain ⟨q, g, w, c1, c2, c3, c4, c5, c6, c7⟩ := hu
    obtain ⟨r, d1, d2, d3, d4⟩ := act u q c1 c3
    refine h2 u ⟨r, g, w, d1, d2 ▸ c2, d4, d3 ▸ c4, ?_, c6, c7⟩
    rw [e] at c5
    exact c5
  · right
    rw [e]
    exact h2

/-- What a request may become keeps it out of the Data Mover's two queues unless it was in them. -/
theorem flushed_settled_keeps (i : SlotNo) (r : Request) :
    ((r.flushed i).settled i).kind = r.kind ∧ ((r.flushed i).settled i).range = r.range ∧
      (((r.flushed i).settled i).state = .active → r.state = .active) ∧
      ((r.flushed i).settled i).admission = r.admission := by
  have A : (r.flushed i).kind = r.kind ∧ (r.flushed i).range = r.range ∧ ((r.flushed i).state = .active → r.state = .active) ∧
      (r.flushed i).admission = r.admission := by
    unfold Request.flushed
    split
    · split
      · exact ⟨rfl, rfl, fun h => (by cases h), rfl⟩
      · exact ⟨rfl, rfl, id, rfl⟩
    · exact ⟨rfl, rfl, id, rfl⟩
  generalize r.flushed i = q at A
  obtain ⟨a, b, c, d⟩ := A
  unfold Request.settled
  split
  · split
    · exact ⟨a, b, fun h => (by cases h), d⟩
    · exact ⟨a, b, c, d⟩
  · exact ⟨a, b, c, d⟩

/-- A drain that succeeds, where no fetch waits for it, no WRITE waits for a grant and no READ can take a return slot
(R80). -/
theorem drainSuccess_spec {i : SlotNo} {z : Nat} {m : Bool} {data : List Byte} {s : State} (hi : s.slot i = .draining z m data)
    (hw : s.noDrainWait z) (h1 : ∀ u, ¬ s.waits u) (h2 : s.returnsSettled) (ht : TableGood s) :
    ∃ b, drainSuccess i s = { s.setStaging i .free with table := b } ∧
      ∀ u, (drainSuccess i s).request u = (s.request u).map (fun r => (r.flushed i).settled i) := by
  unfold drainSuccess
  rw [hi]
  dsimp only
  obtain ⟨⟨b, e⟩, k⟩ := tableWalk_admitted (P := fun s => s.noDrainWait z) (f := drainedFor i z)
    (g := fun r => (r.flushed i).settled i) (fun _ _ h => h) (fun t s h => drainedFor_spec i z t s h)
    (s := s.setStaging i .free) hw ht
  rw [rewritten_settles e k (fun r => ⟨(flushed_settled_keeps i r).1, (flushed_settled_keeps i r).2.1,
    (flushed_settled_keeps i r).2.2.1⟩) h1 h2]
  exact ⟨b, e, k⟩

/-- The same where no request depends on the slot: it goes FREE, and nothing else changes. -/
theorem drainSuccess_alone {i : SlotNo} {z : Nat} {m : Bool} {data : List Byte} {s : State} (hi : s.slot i = .draining z m data)
    (hw : s.noDrainWait z) (h1 : ∀ u, ¬ s.waits u) (h2 : s.returnsSettled)
    (h3 : ∀ u r, s.request u = some r → i ∉ r.flushSet ∧ i ∉ r.settleSet) : drainSuccess i s = s.setStaging i .free := by
  unfold drainSuccess
  rw [hi]
  dsimp only
  have F : ∀ t, drainedFor i z t (s.setStaging i .free) = s.setStaging i .free := by
    intro t
    have f1 : flushLeave i t (s.setStaging i .free) = s.setStaging i .free := by
      unfold flushLeave
      cases e : (s.setStaging i .free).request t with
      | none => rfl
      | some r =>
        dsimp only
        rw [if_neg (fun c => (h3 t r e).1 c.2.2)]
    have f2 : settleLeave i t (s.setStaging i .free) = s.setStaging i .free := by
      unfold settleLeave
      cases e : (s.setStaging i .free).request t with
      | none => rfl
      | some r =>
        dsimp only
        rw [if_neg (h3 t r e).2]
    unfold drainedFor
    rw [f1, f2]
    exact drainWaitEnd_idle (s := s.setStaging i .free) hw t
  rw [forAdmitted_idle _ _ F, formGrants_idle (s := s.setStaging i .free) h1,
    assignReturns_settled (s := s.setStaging i .free) h2]

/-! ## A drain that fails -/

theorem slots_one (i : SlotNo) : allSlots.filter (fun j => [i].contains j) = [i] := by revert i; decide

/-- A stranded slot that nothing depends on reaches nobody (R84). -/
theorem handOn_alone {i : SlotNo} {z : Nat} {m : Bool} {data : List Byte} {reason : StrandReason} {s : State}
    (hi : s.slot i = .stranded z m data reason) (hw : s.noDrainWait z)
    (h3 : ∀ u r, s.request u = some r → i ∉ r.flushSet ∧ i ∉ r.settleSet) :
    handOn [i] s = raiseSingle .slotStranded (.count (s.countSlots StagingSlot.isStranded)) s := by
  have F : handOnSlot i s = s := by
    unfold handOnSlot
    rw [hi]
    dsimp only
    have a : forAdmitted (strandRequest i z reason.cause) s = s := by
      refine forAdmitted_idle _ _ (fun t => ?_)
      unfold strandRequest
      cases e : s.request t with
      | none => rfl
      | some r =>
        dsimp only
        rw [if_neg (fun c => c.elim (h3 t r e).1 (h3 t r e).2)]
    rw [a]
    refine forAdmitted_idle _ _ (fun t => ?_)
    unfold strandFetch
    cases e : s.fetchRecord t with
    | none => rfl
    | some f =>
      dsimp only
      cases e2 : f.fetch with
      | none => rfl
      | some v =>
        dsimp only
        rw [if_neg (fun c => hw t f v e e2 c.1 c.2)]
  have A : allSlots.filter (fun j => [i].contains j) = [i] := slots_one i
  unfold handOn handOnWalk noteStranded
  rw [if_neg (by simp), A]
  dsimp only [List.foldl_cons, List.foldl_nil]
  rw [F]

theorem mem_setInsert {m : Nat} (x k : Fin m) (l : List (Fin m)) : k ∈ setInsert x l ↔ k = x ∨ k ∈ l := by
  induction l with
  | nil => simp [setInsert]
  | cons y l ih =>
    unfold setInsert
    split
    · simp
    · split
      next h => subst h; simp
      · simp only [List.mem_cons, ih]
        exact or_left_comm

/-- A request once the newer slot `n` has taken the place of the given-up slot `i` in its flush set (R38, R81). -/
def Request.replaced (i n : SlotNo) (r : Request) : Request :=
  if i ∈ r.flushSet then { r with flushSet := setInsert n (setRemove i r.flushSet) } else r

theorem flushReplace_frame (i n : SlotNo) (t : Tag) (s : State) : (∃ b, flushReplace i n t s = { s with table := b }) ∧
    ∀ u, (flushReplace i n t s).request u = if u = t then (s.request t).map (Request.replaced i n) else s.request u := by
  unfold flushReplace
  cases e : s.request t with
  | none =>
    refine ⟨⟨s.table, rfl⟩, fun u => ?_⟩
    dsimp only
    split
    next h => rw [h]; exact e
    · rfl
  | some r =>
    dsimp only
    rw [Option.map_some]
    unfold Request.replaced
    split
    · exact ⟨⟨_, rfl⟩, fun u => State.request_setRequest s t u _⟩
    · refine ⟨⟨s.table, rfl⟩, fun u => ?_⟩
      split
      next h => rw [h]; exact e
      · rfl

theorem replacedFor_spec (i n : SlotNo) (z : Nat) (t : Tag) (s : State)
    (h : s.noDrainWait z ∧ (s.slot n).isStranded = false) : (∃ b, replacedFor i n z t s = { s with table := b }) ∧
      ∀ u, (replacedFor i n z t s).request u =
        if u = t then (s.request t).map (fun r => (r.replaced i n).settled i) else s.request u := by
  obtain ⟨⟨b, e⟩, k⟩ := flushReplace_frame i n t s
  obtain ⟨c, e2⟩ := settleLeave_table i t (flushReplace i n t s)
  have e3 : settleLeave i t (flushReplace i n t s) = { s with table := c } := by rw [e2, e]
  have B : replacedFor i n z t s = settleLeave i t (flushReplace i n t s) := by
    unfold replacedFor
    dsimp only
    have hs : (settleLeave i t (flushReplace i n t s)).slot n = s.slot n := by rw [e3]; rfl
    rw [hs]
    split
    next hn =>
      rw [hn] at h
      cases h.2
    · rw [drainWaitEnd_idle]
      rw [e3]
      exact h.1
  refine ⟨⟨c, by rw [B, e3]⟩, fun u => ?_⟩
  rw [B, settleLeave_spec, k, k, if_pos rfl]
  by_cases hu : u = t
  · rw [if_pos hu, if_pos hu, Option.map_map]; rfl
  · rw [if_neg hu, if_neg hu, if_neg hu]

theorem newestCopy_one {s : State} {z : Nat} {n : SlotNo} (h1 : ((s.slot n).isDirty = true ∨ (s.slot n).isStranded = true))
    (h2 : (s.slot n).lbn? = some z)
    (h3 : ∀ j, ((s.slot j).isDirty = true ∨ (s.slot j).isStranded = true) → (s.slot j).lbn? = some z → j = n) :
    s.newestCopy z = some n := by
  have P : ∀ j, (((s.slot j).isDirty || (s.slot j).isStranded) && decide ((s.slot j).lbn? = some z)) = decide (j = n) := by
    intro j
    by_cases hj : j = n
    · subst hj
      rw [h2]
      simpa using h1
    · rw [decide_eq_false hj, ← Bool.not_eq_true, Bool.and_eq_true, Bool.or_eq_true, decide_eq_true_eq]
      exact fun c => hj (h3 j c.1 c.2)
  have F : ∀ n : SlotNo, allSlots.find? (fun j => decide (j = n)) = some n := by decide
  unfold State.newestCopy State.findLbn
  simp only [P]
  exact F n

/-- A drain that fails while a newer DIRTY copy is held, where no fetch waits for it, no WRITE waits for a grant and no READ
can take a return slot: the slot goes FREE, the newer one takes its place in the flush sets (R81). -/
theorem drainFailure_newer {i n : SlotNo} {z : Nat} {m : Bool} {data : List Byte} {s : State} (e : OpFailure)
    (hi : s.slot i = .draining z m data) (hn : s.newestCopy z = some n) (hd : (s.slot n).isStranded = false)
    (hw : s.noDrainWait z) (h1 : ∀ u, ¬ s.waits u) (h2 : s.returnsSettled) (ht : TableGood s) :
    ∃ b, drainFailure i e s = ({ s.setStaging i .free with table := b }, []) ∧
      ∀ u, (drainFailure i e s).1.request u = (s.request u).map (fun r => (r.replaced i n).settled i) := by
  unfold drainFailure
  rw [hi]
  dsimp only
  rw [hn]
  dsimp only
  have hf : ((s.setStaging i .free).slot n).isStranded = false := by
    rw [State.slot_setStaging]
    split
    · rfl
    · exact hd
  obtain ⟨⟨b, e⟩, k⟩ := tableWalk_admitted (P := fun s => s.noDrainWait z ∧ (s.slot n).isStranded = false)
    (f := replacedFor i n z) (g := fun r => (r.replaced i n).settled i) (fun _ _ h => h)
    (fun t s h => replacedFor_spec i n z t s h) (s := s.setStaging i .free) ⟨hw, hf⟩ ht
  rw [rewritten_settles e k (fun r => ?_) h1 h2]
  · exact ⟨b, by rw [e], k⟩
  · have A : (r.replaced i n).kind = r.kind ∧ (r.replaced i n).range = r.range ∧ (r.replaced i n).state = r.state := by
      unfold Request.replaced
      split <;> exact ⟨rfl, rfl, rfl⟩
    generalize r.replaced i n = q at A
    obtain ⟨a1, a2, a3⟩ := A
    unfold Request.settled
    split
    · split
      · exact ⟨a1, a2, fun c => by cases c⟩
      · exact ⟨a1, a2, fun c => a3 ▸ c⟩
    · exact ⟨a1, a2, fun c => a3 ▸ c⟩

theorem filter_one_more {α : Type} [DecidableEq α] (l : List α) (hl : l.Nodup) (i : α) (hi : i ∈ l) (f g : α → Bool) (hf : f i = false)
    (hg : g i = true) (h : ∀ j, j ≠ i → g j = f j) : (l.filter g).length = (l.filter f).length + 1 := by
  induction l with
  | nil => cases hi
  | cons j l ih =>
    rw [List.nodup_cons] at hl
    by_cases hj : j = i
    · subst hj
      have : l.filter g = l.filter f := List.filter_congr (fun k hk => h k (fun c => hl.1 (c ▸ hk)))
      rw [List.filter_cons_of_pos hg, List.filter_cons_of_neg (by rw [hf]; simp), this]
      rfl
    · have m := ih hl.2 ((List.mem_cons.1 hi).resolve_left (fun c => hj c.symm))
      by_cases hf2 : f j = true
      · rw [List.filter_cons_of_pos (by rw [h j hj]; exact hf2), List.filter_cons_of_pos hf2]
        simp [m]
      · rw [List.filter_cons_of_neg (by rw [h j hj]; exact hf2), List.filter_cons_of_neg hf2, m]

theorem newestCopy_none {s : State} {z : Nat}
    (h : ∀ j, ((s.slot j).isDirty = true ∨ (s.slot j).isStranded = true) → (s.slot j).lbn? ≠ some z) : s.newestCopy z = none := by
  unfold State.newestCopy State.findLbn
  rw [List.find?_eq_none]
  intro j _ c
  simp only [Bool.and_eq_true, Bool.or_eq_true, decide_eq_true_eq] at c
  exact h j c.1 c.2

/-! ## Map writes -/

theorem copySlot_eq (g : Word32) : copySlot g = if g.toNat % 2 = 1 then 0 else 1 := by
  unfold copySlot
  have : g.getLsbD 0 = decide (g.toNat % 2 = 1) := by
    rw [BitVec.getLsbD, Nat.testBit_zero]
  rw [this]
  simp

/-- TENTATIVE goes on while some target has not been written (R148). -/
theorem tentativeTest_idle {s : State} {c : Commit} (hc : s.mapStore.commit = some c)
    (h : ∃ v ∈ c.targets, v.stage ≠ .tentativeWritten) : tentativeTest s = s := by
  unfold tentativeTest
  rw [hc]
  dsimp only
  rw [if_neg]
  rw [Bool.and_eq_true, List.all_eq_true]
  rintro ⟨_, k⟩
  obtain ⟨v, hv, hn⟩ := h
  exact hn (by simpa using k v hv)


/-- The record of port `p` and the two maps stand. -/
structure Stands (p : Port) (s t : State) : Prop where
  port : t.port p = s.port p
  active : t.mapStore.active = s.mapStore.active
  draft : t.mapStore.draft = s.mapStore.draft

theorem Stands.refl (p : Port) (s : State) : Stands p s s := ⟨rfl, rfl, rfl⟩

theorem Stands.trans {p : Port} {s t u : State} (h : Stands p s t) (k : Stands p t u) : Stands p s u :=
  ⟨k.port.trans h.port, k.active.trans h.active, k.draft.trans h.draft⟩

theorem Calm.stands {s t : State} (h : Calm s t) (p : Port) : Stands p s t :=
  ⟨h.port p, by rw [h.mapStore], by rw [h.mapStore]⟩

theorem stands_orphanWrite {p q : Port} {s : State} (h : (s.port p).op = none) : Stands p s (orphanWrite q s) := by
  unfold orphanWrite
  cases e : (s.port q).op with
  | none => exact .refl p s
  | some o =>
    dsimp only
    cases e2 : o.user with
    | mapWrite w g b l =>
      refine ⟨?_, rfl, rfl⟩
      rw [State.port_setPort, if_neg]
      rintro rfl
      rw [e] at h
      cases h
    | _ => exact .refl p s

theorem stands_orphanWrites {p : Port} (l : List Port) {s : State} (h : (s.port p).op = none) :
    Stands p s (l.foldl (fun acc q => orphanWrite q acc) s) := by
  induction l generalizing s with
  | nil => exact .refl p s
  | cons q l ih =>
    have a := stands_orphanWrite (q := q) h
    exact a.trans (ih (by rw [a.port]; exact h))

theorem stands_setCommit (p : Port) (s : State) (c : Option Commit) : Stands p s (s.setCommit c) := ⟨rfl, rfl, rfl⟩

theorem stands_classifyHeld {p : Port} {s : State} (h : (s.port p).cls ≠ .probe) : Stands p s (classifyHeld s) := by
  have C := classifyHeld_spec s
  refine ⟨?_, by rw [C.mapStore], by rw [C.mapStore]⟩
  rw [C.port]
  unfold State.classifiedPort
  rw [if_neg]
  rintro ⟨_, c⟩
  unfold State.holdsFindings at c
  simp only [Bool.and_eq_true, decide_eq_true_eq] at c
  exact h c.1

/-- The end of a commit stands a port that is not in PROBE and has no operation in flight (R154). -/
theorem stands_endCommit {p : Port} {r : CommitResult} {s : State} (h : (s.port p).cls ≠ .probe) (k : (s.port p).op = none) :
    Stands p s (endCommit r s) := by
  unfold endCommit
  split
  · exact .refl p s
  · dsimp only
    have a := (stands_orphanWrites allPorts k).trans (stands_setCommit p _ none)
    exact (a.trans (stands_classifyHeld (by rw [a.port]; exact h))).trans ((calm_raiseSingle _ _ _).stands p)

theorem stands_finalNext {p : Port} {s : State} (h : (s.port p).cls ≠ .probe) (k : (s.port p).op = none) :
    Stands p s (finalNext s) := by
  unfold finalNext
  split
  · exact .refl p s
  · split
    · exact .refl p s
    · split
      · exact stands_setCommit p s _
      · exact stands_endCommit h k

theorem stands_tentativeTest {p : Port} {s : State} (h : (s.port p).cls ≠ .probe) (k : (s.port p).op = none) :
    Stands p s (tentativeTest s) := by
  unfold tentativeTest
  split
  · exact .refl p s
  · split
    · exact (stands_setCommit p s _).trans (stands_finalNext h k)
    · exact .refl p s

theorem stands_dropTarget {p q : Port} {a b : Bool} {s : State} (h : (s.port p).cls ≠ .probe) (k : (s.port p).op = none) :
    Stands p s (dropTarget q a b s) := by
  unfold dropTarget
  split
  · exact .refl p s
  next c hc =>
    split
    · dsimp only
      generalize hs : s.setCommit _ = s0
      have a0 : Stands p s s0 := by rw [← hs]; exact stands_setCommit p s _
      have a1 := a0.trans (stands_orphanWrite (q := q) (by rw [a0.port]; exact k))
      have h1 : ((orphanWrite q s0).port p).cls ≠ .probe := by rw [a1.port]; exact h
      have k1 : ((orphanWrite q s0).port p).op = none := by rw [a1.port]; exact k
      split
      · exact a1
      · split
        · exact a1.trans (stands_endCommit h1 k1)
        · split
          · exact a1
          · exact a1.trans (stands_tentativeTest h1 k1)
          · exact a1.trans (stands_finalNext h1 k1)
    · exact .refl p s

/-- A port with no operation in flight goes FAILED (R106). -/
theorem portFailed_port {p : Port} {c : HistoryCause} {l : List SlotNo} {b : Bool} {s : State} (k : (s.port p).op = none) :
    (portFailed p c l b s).port p = { s.port p with cls := .failed, engine := .idle, probe := none, debounce := none } := by
  unfold portFailed
  rw [loseOp_none k]
  dsimp only
  generalize hX : State.setPort (setClass p .failed (handOnWalk (l ++ []) s)) p _ = X
  have PX : X.port p = { s.port p with cls := .failed, engine := .idle, probe := none, debounce := none } := by
    rw [← hX, State.port_setPort, if_pos rfl, setClass_self, (calm_handOnWalk _ _).port p]
  have PY : ∀ w : Bool, (if w then failWaitingAll p X else X).port p = X.port p := by
    intro w
    split
    · exact (calm_failWaitingAll p X).port p
    · rfl
  generalize hY : (if decide ((s.port p).cls = .pooled) = true then failWaitingAll p X else X) = Y
  have PY : Y.port p = X.port p := by rw [← hY]; exact PY _
  have D := stands_dropTarget (p := p) (q := p) (a := true) (b := b) (s := Y) (by rw [PY, PX]; simp) (by rw [PY, PX]; exact k)
  generalize dropTarget p true b Y = Z at D
  refine ((calm_raisePort .portFailed p _ _).port p).trans ?_
  rw [(calm_noteStranded _ _).port p, (calm_handOnWalk _ _).port p, (soft_strandAll _ _).port p, D.port, PY, PX]

theorem stands_reclassify {p q : Port} {s : State} (h : p ≠ q) : Stands p s (reclassify q s) := by
  unfold reclassify
  split
  · exact .refl p s
  · split
    · exact .refl p s
    · dsimp only
      split
      · exact .refl p s
      · refine Stands.trans ?_ ((calm_raisePort _ _ _ _).stands p)
        obtain ⟨m, e⟩ := setClass_eq q (classFor s.mapStore.active ((s.port q).member.bind (·.newest))) s
        rw [e]
        refine ⟨?_, rfl, rfl⟩
        show (s.ports.set q _)[p] = _
        rw [Fin.getElem_fin, Vector.getElem_set_ne _ _ (fun c => h (Fin.ext c.symm))]
        rfl

/-- The commit point reclassifies; a port's member record and operation stand (R151). -/
theorem reclassify_member (p q : Port) (s : State) :
    (∃ c, (reclassify q s).port p = { s.port p with cls := c }) ∧ (reclassify q s).mapStore = s.mapStore := by
  by_cases h : p = q
  · subst h
    unfold reclassify
    split
    · exact ⟨⟨_, rfl⟩, rfl⟩
    · split
      · exact ⟨⟨_, rfl⟩, rfl⟩
      · dsimp only
        split
        · exact ⟨⟨_, rfl⟩, rfl⟩
        · refine ⟨⟨_, ((calm_raisePort _ _ _ _).port p).trans (setClass_self p _ s)⟩, ?_⟩
          refine (calm_raisePort _ _ _ _).mapStore.trans ?_
          obtain ⟨m, e⟩ := setClass_eq p (classFor s.mapStore.active ((s.port p).member.bind (·.newest))) s
          rw [e]
  · refine ⟨⟨_, (stands_reclassify h).port⟩, ?_⟩
    unfold reclassify
    split
    · rfl
    · split
      · rfl
      · dsimp only
        split
        · rfl
        · refine (calm_raisePort _ _ _ _).mapStore.trans ?_
          obtain ⟨m, e⟩ := setClass_eq q (classFor s.mapStore.active ((s.port q).member.bind (·.newest))) s
          rw [e]

theorem reclassifies_member (p : Port) (l : List Port) (s : State) :
    (∃ c, (l.foldl (fun acc q => reclassify q acc) s).port p = { s.port p with cls := c }) ∧
      (l.foldl (fun acc q => reclassify q acc) s).mapStore = s.mapStore := by
  induction l generalizing s with
  | nil => exact ⟨⟨_, rfl⟩, rfl⟩
  | cons q l ih =>
    obtain ⟨⟨c, a⟩, b⟩ := reclassify_member p q s
    obtain ⟨⟨d, e⟩, f⟩ := ih (reclassify q s)
    exact ⟨⟨d, by rw [List.foldl_cons, e, a]⟩, by rw [List.foldl_cons, f, b]⟩

/-- The first FINAL success: the draft's map is active with the commit's generation, and the port is POOLED
(R151, R152). -/
theorem finalWritten_first {p : Port} {s : State} {c : Commit} (hc : s.mapStore.commit = some c) (hp : c.pointReached = false)
    (k : (s.port p).op = none) :
    (finalWritten p s).port p = { s.port p with cls := .pooled } ∧
      (finalWritten p s).mapStore.active = { s.mapStore.draft with generation := c.generation } ∧
      (finalWritten p s).mapStore.draft = (finalWritten p s).mapStore.active := by
  have A : (commitPoint s).mapStore = { s.mapStore with
      active := { s.mapStore.draft with generation := c.generation }
      draft := { s.mapStore.draft with generation := c.generation }, commit := some { c with pointReached := true } } ∧
      ∃ d, (commitPoint s).port p = { s.port p with cls := d } := by
    unfold commitPoint
    rw [hc]
    dsimp only
    generalize hX : s.setMaps _ = X
    obtain ⟨⟨d, a⟩, b⟩ := reclassifies_member p allPorts X
    exact ⟨by rw [b, ← hX]; rfl, d, by rw [a, ← hX]; rfl⟩
  unfold finalWritten
  rw [hc]
  dsimp only
  rw [hp]
  simp only [Bool.false_eq_true, if_false]
  generalize commitPoint s = P at A
  obtain ⟨A, d, B⟩ := A
  have D : (adopt p P).port p = { s.port p with cls := .pooled } ∧ (adopt p P).mapStore = P.mapStore := by
    unfold adopt
    split
    · rename_i h
      refine ⟨?_, rfl⟩
      rw [B] at h ⊢
      have h : d = .pooled := h
      rw [h]
    · refine ⟨((calm_raisePort _ _ _ _).port p).trans ?_, (calm_raisePort _ _ _ _).mapStore.trans ?_⟩
      · rw [setClass_self, B]
      · obtain ⟨m, e⟩ := setClass_eq p .pooled P
        rw [e]
  generalize adopt p P = Q at D
  obtain ⟨D1, D2⟩ := D
  have hq : Q.mapStore.commit = some { c with pointReached := true } := by rw [D2, A]
  rw [hq]
  dsimp only
  have base : Q.mapStore.active = { s.mapStore.draft with generation := c.generation } ∧
      Q.mapStore.draft = Q.mapStore.active := by rw [D2, A]; exact ⟨rfl, rfl⟩
  cases c.targets.find? (fun x => decide (x.port = p)) with
  | none => exact ⟨D1, base.1, base.2⟩
  | some x =>
    dsimp only
    generalize hR : Q.setCommit _ = R
    have R0 : Stands p Q R := by rw [← hR]; exact stands_setCommit p Q _
    have S := R0.trans (stands_finalNext (p := p) (s := R) (by rw [R0.port, D1]; simp) (by rw [R0.port, D1]; exact k))
    exact ⟨S.port.trans D1, S.active.trans base.1, (S.draft.trans base.2).trans S.active.symm⟩

end Sys2Proof.Machine
end

