-- ==== Sys2Proof/Laws/Halt.lean ====
section
/-! SUPPORT. A request fault that halts the queue, as `haltsOn` says it: what freed slots do to the flush sets, how the
other requests end, and what becomes of their work. -/

namespace Sys2Proof.Machine

/-! ## Freed slots and the flush sets -/

/-- A FLUSH once slot `o` has left its flush set (R38). -/
def Request.unflushed (o : SlotNo) (q : Request) : Request :=
  if q.kind = .flush ∧ q.state = .settling ∧ o ∈ q.flushSet then
    if setRemove o q.flushSet = [] then { q with
      blocksDone := q.blocksDone + 1, state := .reporting, status := some .good, failingLbn := none
      holdList := [], flushSet := [], settleSet := [] }
    else { q with flushSet := setRemove o q.flushSet, blocksDone := q.blocksDone + 1 }
  else q

theorem Request.unflushed_other {o : SlotNo} {q : Request} (h : ¬ (q.kind = .flush ∧ q.state = .settling)) : q.unflushed o = q := by
  unfold Request.unflushed
  rw [if_neg (fun c => h ⟨c.1, c.2.1⟩)]

theorem Request.unflushed_twice (o : SlotNo) (q : Request) : (q.unflushed o).unflushed o = q.unflushed o := by
  by_cases h : q.kind = .flush ∧ q.state = .settling ∧ o ∈ q.flushSet
  · by_cases e : setRemove o q.flushSet = []
    · unfold Request.unflushed
      rw [if_pos h, if_pos e]
      simp
    · have : q.unflushed o = { q with flushSet := setRemove o q.flushSet, blocksDone := q.blocksDone + 1 } := by
        unfold Request.unflushed
        rw [if_pos h, if_neg e]
      rw [this]
      unfold Request.unflushed
      rw [if_neg]
      rintro ⟨_, _, c⟩
      simp [setRemove] at c
  · have : q.unflushed o = q := by
      unfold Request.unflushed
      rw [if_neg h]
    rw [this, this]

/-- What stays of a request when a slot leaves its flush set. -/
theorem Request.unflushed_same (o : SlotNo) (q : Request) : (q.unflushed o).kind = q.kind ∧ (q.unflushed o).range = q.range ∧
    (q.unflushed o).urgent = q.urgent ∧ (q.unflushed o).through = q.through ∧ (q.unflushed o).admission = q.admission := by
  unfold Request.unflushed
  split
  · split <;> simp
  · simp

/-- What several slots that leave make of a settling FLUSH: it is GOOD when all of its set has left, and otherwise still
settles. -/
theorem Request.unflushed_all (l : List SlotNo) (q : Request) (hk : q.kind = .flush) (hs : q.state = .settling) :
    ((l.foldl (fun x o => x.unflushed o) q).kind = .flush) ∧
    ((q.flushSet ≠ [] ∧ ∀ o ∈ q.flushSet, o ∈ l) → (l.foldl (fun x o => x.unflushed o) q).state = .reporting ∧
      (l.foldl (fun x o => x.unflushed o) q).status = some .good ∧ (l.foldl (fun x o => x.unflushed o) q).holdList = [] ∧
      (l.foldl (fun x o => x.unflushed o) q).flushSet = [] ∧ (l.foldl (fun x o => x.unflushed o) q).settleSet = []) ∧
    (¬ (q.flushSet ≠ [] ∧ ∀ o ∈ q.flushSet, o ∈ l) → (l.foldl (fun x o => x.unflushed o) q).state = .settling) := by
  induction l generalizing q with
  | nil =>
    refine ⟨hk, fun h => ?_, fun _ => hs⟩
    obtain ⟨a, ha⟩ := List.exists_mem_of_ne_nil _ h.1
    exact absurd (h.2 a ha) (by simp)
  | cons o l ih =>
    rw [List.foldl_cons]
    by_cases hm : o ∈ q.flushSet
    · by_cases he : setRemove o q.flushSet = []
      · have e : q.unflushed o = { q with
            blocksDone := q.blocksDone + 1, state := .reporting, status := some .good, failingLbn := none
            holdList := [], flushSet := [], settleSet := [] } := by
          unfold Request.unflushed
          rw [if_pos ⟨hk, hs, hm⟩, if_pos he]
        have hall : ∀ x ∈ q.flushSet, x ∈ o :: l := fun x hx => by
          by_cases c : x = o
          · simp [c]
          · exfalso
            have : x ∈ setRemove o q.flushSet := by simp [setRemove, hx, c]
            rw [he] at this
            cases this
        have fix : ∀ (l : List SlotNo) (p : Request), p.state = .reporting → l.foldl (fun x o => x.unflushed o) p = p := by
          intro l
          induction l with
          | nil => intros; rfl
          | cons a l ih2 =>
            intro p hp
            rw [List.foldl_cons, Request.unflushed_other (by rw [hp]; simp), ih2 p hp]
        rw [e, fix _ _ rfl]
        exact ⟨hk, fun _ => ⟨rfl, rfl, rfl, rfl, rfl⟩, fun c => absurd ⟨List.ne_nil_of_mem hm, hall⟩ c⟩
      · have e : q.unflushed o = { q with flushSet := setRemove o q.flushSet, blocksDone := q.blocksDone + 1 } := by
          unfold Request.unflushed
          rw [if_pos ⟨hk, hs, hm⟩, if_neg he]
        rw [e]
        obtain ⟨i1, i2, i3⟩ := ih { q with flushSet := setRemove o q.flushSet, blocksDone := q.blocksDone + 1 } hk hs
        have iff : (setRemove o q.flushSet ≠ [] ∧ ∀ x ∈ setRemove o q.flushSet, x ∈ l) ↔
            (q.flushSet ≠ [] ∧ ∀ x ∈ q.flushSet, x ∈ o :: l) := by
          constructor
          · rintro ⟨_, h⟩
            refine ⟨List.ne_nil_of_mem hm, fun x hx => ?_⟩
            by_cases c : x = o
            · simp [c]
            · exact List.mem_cons_of_mem _ (h x (by simp [setRemove, hx, c]))
          · rintro ⟨_, h⟩
            refine ⟨he, fun x hx => ?_⟩
            simp [setRemove] at hx
            exact (List.mem_cons.1 (h x hx.1)).resolve_left hx.2
        exact ⟨i1, fun h => i2 (iff.2 h), fun h => i3 (fun c => h (iff.1 c))⟩
    · have e : q.unflushed o = q := by
        unfold Request.unflushed
        rw [if_neg (fun c => hm c.2.2)]
      rw [e]
      obtain ⟨i1, i2, i3⟩ := ih q hk hs
      have iff : (q.flushSet ≠ [] ∧ ∀ x ∈ q.flushSet, x ∈ l) ↔ (q.flushSet ≠ [] ∧ ∀ x ∈ q.flushSet, x ∈ o :: l) := by
        refine and_congr_right (fun _ => forall₂_congr (fun x hx => ?_))
        rw [List.mem_cons]
        exact ⟨.inr, fun c => c.resolve_left (fun d => hm (d ▸ hx))⟩
      exact ⟨i1, fun h => i2 (iff.2 h), fun h => i3 (fun c => h (iff.1 c))⟩

theorem Request.unflushed_all_other (l : List SlotNo) (q : Request) (h : ¬ (q.kind = .flush ∧ q.state = .settling)) :
    l.foldl (fun x o => x.unflushed o) q = q := by
  induction l with
  | nil => rfl
  | cons o l ih => rw [List.foldl_cons, Request.unflushed_other h, ih]

theorem Request.unflushed_all_same (l : List SlotNo) (q : Request) : let p := l.foldl (fun x o => x.unflushed o) q
    p.kind = q.kind ∧ p.range = q.range ∧ p.urgent = q.urgent ∧ p.through = q.through ∧ p.admission = q.admission := by
  induction l generalizing q with
  | nil => exact ⟨rfl, rfl, rfl, rfl, rfl⟩
  | cons o l ih =>
    have a := Request.unflushed_same o q
    have b := ih (q.unflushed o)
    exact ⟨b.1.trans a.1, b.2.1.trans a.2.1, b.2.2.1.trans a.2.2.1, b.2.2.2.1.trans a.2.2.2.1, b.2.2.2.2.trans a.2.2.2.2⟩

/-- What slots `l` that leave the flush sets make of the table: each request as `unflushed` says, the orders and the
snapshot as they were, and the tags of the FLUSHes that are over at the end of the completion order. -/
structure Leaves (l : List SlotNo) (s t : State) : Prop where
  request : ∀ v, t.request v = (s.request v).map (fun q => l.foldl (fun x o => x.unflushed o) q)
  admissionOrder : t.table.admissionOrder = s.table.admissionOrder
  counter : t.table.counter = s.table.counter
  snapshot : t.table.snapshot = s.table.snapshot
  completed : ∃ good, t.table.completionOrder = s.table.completionOrder ++ good ∧
    ∀ v ∈ good, ∃ q, s.request v = some q ∧ q.kind = .flush ∧ q.state = .settling ∧
      (l.foldl (fun x o => x.unflushed o) q).state = .reporting

theorem Leaves.refl (s : State) : Leaves [] s s :=
  ⟨fun v => by cases s.request v <;> rfl, rfl, rfl, rfl, [], by simp, by simp⟩

theorem Leaves.trans {l k : List SlotNo} {s t u : State} (h : Leaves l s t) (j : Leaves k t u) : Leaves (l ++ k) s u := by
  obtain ⟨g, hg, hgm⟩ := h.completed
  obtain ⟨g', hg', hgm'⟩ := j.completed
  refine ⟨fun v => ?_, j.admissionOrder.trans h.admissionOrder, j.counter.trans h.counter, j.snapshot.trans h.snapshot,
    g ++ g', by rw [hg', hg, List.append_assoc], fun v hv => ?_⟩
  · rw [j.request, h.request, Option.map_map]
    congr 1
    funext q
    simp
  · rcases List.mem_append.1 hv with hv | hv
    · obtain ⟨q, a, b, c, d⟩ := hgm v hv
      refine ⟨q, a, b, c, ?_⟩
      rw [List.foldl_append, Request.unflushed_all_other]
      · exact d
      · rw [d]; simp
    · obtain ⟨q, a, b, c, d⟩ := hgm' v hv
      rw [h.request, Option.map_eq_some_iff] at a
      obtain ⟨p, ha, hp⟩ := a
      subst hp
      have pk : p.kind = .flush := by rw [← b]; exact (Request.unflushed_all_same l p).1.symm
      have ps : p.state = .settling := by
        by_cases e : p.state = .settling
        · exact e
        · rw [Request.unflushed_all_other l p (fun x => e x.2)] at c; exact c
      exact ⟨p, ha, pk, ps, by rw [List.foldl_append]; exact d⟩

/-- One slot leaves the flush set of one tag. -/
theorem flushLeave_full (o : SlotNo) (t : Tag) (s : State) :
    (∃ b, flushLeave o t s = { s with table := b }) ∧
    (∀ v, (flushLeave o t s).request v = if v = t then (s.request t).map (fun q => q.unflushed o) else s.request v) ∧
    (flushLeave o t s).table.admissionOrder = s.table.admissionOrder ∧
    (flushLeave o t s).table.counter = s.table.counter ∧ (flushLeave o t s).table.snapshot = s.table.snapshot ∧
    ∃ good, (flushLeave o t s).table.completionOrder = s.table.completionOrder ++ good ∧
      ∀ v ∈ good, v = t ∧ ∃ q, s.request t = some q ∧ q.kind = .flush ∧ q.state = .settling ∧
        (q.unflushed o).state = .reporting := by
  cases hr : s.request t with
  | none =>
    have e : flushLeave o t s = s := by unfold flushLeave; rw [hr]
    rw [e]
    refine ⟨⟨s.table, rfl⟩, fun v => ?_, rfl, rfl, rfl, [], by simp, by simp⟩
    split
    next h => rw [h, hr]; rfl
    · rfl
  | some q =>
    by_cases h : q.kind = .flush ∧ q.state = .settling ∧ o ∈ q.flushSet
    · have h0 := h
      by_cases he : setRemove o q.flushSet = []
      · have e : flushLeave o t s = enterReporting t .good none
            (s.setRequest t { q with flushSet := setRemove o q.flushSet, blocksDone := q.blocksDone + 1 }) := by
          unfold flushLeave
          rw [hr]
          dsimp only
          rw [if_pos h, if_pos (by rw [he]; rfl)]
        have ef : q.unflushed o = { q with
            blocksDone := q.blocksDone + 1, state := .reporting, status := some .good, failingLbn := none
            holdList := [], flushSet := [], settleSet := [] } := by
          unfold Request.unflushed
          rw [if_pos h, if_pos he]
        obtain ⟨b, e2, _⟩ := enterReporting_eq t .good none
          (s.setRequest t { q with flushSet := setRemove o q.flushSet, blocksDone := q.blocksDone + 1 })
        refine ⟨⟨b, by rw [e, e2]; rfl⟩, fun v => ?_, ?_, ?_, ?_, [t], ?_, fun v hv => ⟨by simpa using hv, q, rfl, h.1, h.2.1, by rw [ef]⟩⟩
        · rw [e, enterReporting_request]
          split
          next c =>
            simp [ef]
          next c => simp [c]
        all_goals
          rw [e]
          unfold enterReporting
          simp
      · have e : flushLeave o t s =
            s.setRequest t { q with flushSet := setRemove o q.flushSet, blocksDone := q.blocksDone + 1 } := by
          unfold flushLeave
          rw [hr]
          dsimp only
          rw [if_pos h, if_neg (by simpa using he)]
        have ef : q.unflushed o = { q with flushSet := setRemove o q.flushSet, blocksDone := q.blocksDone + 1 } := by
          unfold Request.unflushed
          rw [if_pos h, if_neg he]
        rw [e]
        refine ⟨⟨_, rfl⟩, fun v => ?_, rfl, rfl, rfl, [], by rw [List.append_nil]; rfl, by simp⟩
        rw [State.request_setRequest, Option.map_some, ef]
    · have e : flushLeave o t s = s := by
        unfold flushLeave
        rw [hr]
        dsimp only
        rw [if_neg h]
      have ef : q.unflushed o = q := by
        unfold Request.unflushed
        rw [if_neg h]
      rw [e]
      refine ⟨⟨s.table, rfl⟩, fun v => ?_, rfl, rfl, rfl, [], by simp, by simp⟩
      split
      next c => rw [c, hr, Option.map_some, ef]
      · rfl

/-- One slot leaves every flush set of the admission order. -/
theorem forAdmitted_flushLeave_full (o : SlotNo) (s : State) (hg : TableGood s) :
    (∃ b, forAdmitted (flushLeave o) s = { s with table := b }) ∧ Leaves [o] s (forAdmitted (flushLeave o) s) := by
  have key : ∀ (l : List Tag) (s : State),
      (∃ b, l.foldl (fun acc t => flushLeave o t acc) s = { s with table := b }) ∧
      (∀ v, (l.foldl (fun acc t => flushLeave o t acc) s).request v =
        if v ∈ l then (s.request v).map (fun q => q.unflushed o) else s.request v) ∧
      (l.foldl (fun acc t => flushLeave o t acc) s).table.admissionOrder = s.table.admissionOrder ∧
      (l.foldl (fun acc t => flushLeave o t acc) s).table.counter = s.table.counter ∧
      (l.foldl (fun acc t => flushLeave o t acc) s).table.snapshot = s.table.snapshot ∧
      ∃ good, (l.foldl (fun acc t => flushLeave o t acc) s).table.completionOrder = s.table.completionOrder ++ good ∧
        ∀ v ∈ good, ∃ q, s.request v = some q ∧ q.kind = .flush ∧ q.state = .settling ∧
          (q.unflushed o).state = .reporting := by
    intro l
    induction l with
    | nil => exact fun s => ⟨⟨s.table, rfl⟩, fun v => by simp, rfl, rfl, rfl, [], by simp, by simp⟩
    | cons a l ih =>
      intro s
      rw [List.foldl_cons]
      obtain ⟨⟨b, e⟩, r, ao, co, sn, g, hg, hgm⟩ := flushLeave_full o a s
      obtain ⟨⟨b', e'⟩, r', ao', co', sn', g', hg', hgm'⟩ := ih (flushLeave o a s)
      refine ⟨⟨b', by rw [e', e]⟩, fun v => ?_, ao'.trans ao, co'.trans co, sn'.trans sn, g ++ g',
        by rw [hg', hg, List.append_assoc], fun v hv => ?_⟩
      · rw [r', r]
        by_cases c : v = a
        · subst c
          rw [if_pos rfl, if_pos (List.mem_cons_self ..)]
          split
          · rw [Option.map_map]
            congr 1
            funext q
            exact q.unflushed_twice o
          · rfl
        · rw [if_neg c]
          simp [c]
      · rcases List.mem_append.1 hv with hv | hv
        · obtain ⟨rfl, q, h⟩ := hgm v hv
          exact ⟨q, h⟩
        · obtain ⟨q, h1, h2, h3, h4⟩ := hgm' v hv
          rw [r] at h1
          split at h1
          next c =>
            subst c
            rw [Option.map_eq_some_iff] at h1
            obtain ⟨p, hp, rfl⟩ := h1
            rw [p.unflushed_twice] at h4
            rw [h4] at h3
            cases h3
          · exact ⟨q, h1, h2, h3, h4⟩
  obtain ⟨e, r, ao, co, sn, g, hg', hgm⟩ := key s.table.admissionOrder s
  refine ⟨e, ⟨fun v => ?_, ao, co, sn, g, hg', hgm⟩⟩
  show ((s.table.admissionOrder.foldl (fun acc t => flushLeave o t acc) s).request v) = _
  rw [r]
  split
  · rfl
  next c =>
    have : s.request v = none := by
      cases h : s.request v with
      | none => rfl
      | some q => exact absurd ((hg.2 v).2 (by rw [h]; rfl)) c
    rw [this]
    rfl

theorem Leaves.tableGood {l : List SlotNo} {s t : State} (h : Leaves l s t) (hg : TableGood s) : TableGood t := by
  refine ⟨by rw [h.admissionOrder]; exact hg.1, fun v => ?_⟩
  rw [h.admissionOrder, hg.2 v, h.request]
  cases s.request v <;> simp

/-- Slots freed one after the other. -/
theorem freeFillings_full (l : List SlotNo) (s : State) (hg : TableGood s) :
    (∃ b v, l.foldl (fun acc o => freeFilling o acc) s =
      { s with table := b, staging := { s.staging with slots := v } }) ∧
    (∀ i, (l.foldl (fun acc o => freeFilling o acc) s).slot i = if i ∈ l then .free else s.slot i) ∧
    Leaves l s (l.foldl (fun acc o => freeFilling o acc) s) := by
  induction l generalizing s with
  | nil => exact ⟨⟨s.table, s.staging.slots, rfl⟩, fun i => by simp, .refl s⟩
  | cons a l ih =>
    obtain ⟨⟨b, e⟩, lv⟩ := forAdmitted_flushLeave_full a (s.setStaging a .free) hg
    have lv' : Leaves [a] s (freeFilling a s) :=
      ⟨lv.request, lv.admissionOrder, lv.counter, lv.snapshot, lv.completed⟩
    have e' : freeFilling a s = { s.setStaging a .free with table := b } := e
    obtain ⟨⟨b', v', e2⟩, sl, lv2⟩ := ih (freeFilling a s) (lv'.tableGood hg)
    rw [List.foldl_cons]
    refine ⟨⟨b', v', by rw [e2, e']; rfl⟩, fun i => ?_, lv'.trans lv2⟩
    rw [sl]
    by_cases c : i ∈ l
    · simp [c]
    · rw [if_neg c, e']
      show (s.setStaging a .free).slot i = _
      rw [State.slot_setStaging]
      by_cases d : i = a <;> simp [c, d]

/-! ## The work a request leaves -/

/-- One return slot after the fate of all those of owner `w` (R65). -/
def ReturnSlot.released (w : Owner) (inFlight : Bool) : ReturnSlot → ReturnSlot
  | .free => .free
  | .sent o i x d => .sent o i x d
  | .fetching o i x => if o = w ∧ inFlight = false then .free else .fetching o i x
  | .filled o i x d => if o = w then .free else .filled o i x d

theorem releaseReturn_full (w : Owner) (b : Bool) (r n : RetNo) (s : State) :
    (releaseReturn w b r s).returnSlot n = if n = r then (s.returnSlot r).released w b else s.returnSlot n := by
  by_cases c : n = r
  · subst c
    rw [if_pos rfl]
    unfold releaseReturn ReturnSlot.released
    cases e : s.returnSlot n <;> dsimp only
    · exact e
    · split <;> simp [e]
    · split <;> simp [e]
    · exact e
  · rw [if_neg c]
    unfold releaseReturn
    cases e : s.returnSlot r <;> dsimp only
    · split <;> simp [c]
    · split <;> simp [c]

theorem releaseReturns_slot (w : Owner) (b : Bool) (n : RetNo) (s : State) :
    (releaseReturns w b s).returnSlot n = (s.returnSlot n).released w b := by
  have key : ∀ (l : List RetNo), l.Nodup → ∀ s : State,
      (l.foldl (fun acc r => releaseReturn w b r acc) s).returnSlot n =
        if n ∈ l then (s.returnSlot n).released w b else s.returnSlot n := by
    intro l
    induction l with
    | nil => intro _ s; simp
    | cons a l ih =>
      intro hn s
      rw [List.nodup_cons] at hn
      rw [List.foldl_cons, ih hn.2, releaseReturn_full]
      by_cases c : n = a
      · subst c
        simp [hn.1]
      · simp [c]
  have h := key allReturns (by decide) s
  rw [if_pos ((by decide : ∀ n : RetNo, n ∈ allReturns) n)] at h
  exact h

/-- What dropping the work of request `r` of tag `v` comes to. -/
structure Drops (v : Tag) (r : Request) (s t : State) : Prop where
  eq : ∃ b m g, t = { s with table := b, mover := m, staging := { s.staging with slots := g } }
  slots : ∃ l : List SlotNo, (∀ i, i ∈ l ↔ r.kind = .write ∧ ∃ y m, s.slot i = .filling y ⟨v, r.admission⟩ m) ∧
    Leaves l s t ∧ ∀ i, t.slot i = if i ∈ l then .free else s.slot i
  write : ∀ u, t.writeRecord u = if u = v ∧ r.kind = .write then none else s.writeRecord u
  fetch : ∀ u, t.fetchRecord u = if u = v ∧ (r.kind = .read ∨ r.kind = .verify) then none else s.fetchRecord u
  returns : ∀ n, t.returnSlot n =
    if r.kind = .read ∨ r.kind = .verify then (s.returnSlot n).released ⟨v, r.admission⟩ false else s.returnSlot n

theorem drops_fetch (v : Tag) (r : Request) (s : State) (hk : r.kind = .read ∨ r.kind = .verify) :
    Drops v r s (dropFetch v r.admission s) := by
  unfold dropFetch
  obtain ⟨rv, fo, e2⟩ := releaseReturns_eq ⟨v, r.admission⟩ false (s.setFetchRecord v none)
  have hrs := fun n => releaseReturns_slot ⟨v, r.admission⟩ false n (s.setFetchRecord v none)
  have hne : r.kind ≠ .write := by rcases hk with h | h <;> simp [h]
  have lv : Leaves [] s (releaseReturns ⟨v, r.admission⟩ false (s.setFetchRecord v none)) := by
    rw [e2]
    exact ⟨(Leaves.refl s).request, rfl, rfl, rfl, (Leaves.refl s).completed⟩
  refine ⟨⟨s.table, _, s.staging.slots, e2⟩, ⟨[], fun i => by simp [hne], lv, fun i => ?_⟩, fun u => ?_, fun u => ?_,
    fun n => ?_⟩
  · rw [e2]; simp; rfl
  · rw [if_neg (fun c => hne c.2), e2]; rfl
  · rw [e2]
    show (s.setFetchRecord v none).fetchRecord u = _
    rw [State.fetchRecord_setFetchRecord]
    simp [hk]
  · rw [if_pos hk]
    exact hrs n

theorem drops_dropWork (v : Tag) (r : Request) (s : State) (hg : TableGood s) : Drops v r s (dropWork v r s) := by
  cases hk : r.kind with
  | read =>
    have e : dropWork v r s = dropFetch v r.admission s := by unfold dropWork; rw [hk]
    exact e ▸ drops_fetch v r s (.inl hk)
  | verify =>
    have e : dropWork v r s = dropFetch v r.admission s := by unfold dropWork; rw [hk]
    exact e ▸ drops_fetch v r s (.inr hk)
  | flush =>
    have e : dropWork v r s = s := by unfold dropWork; rw [hk]
    rw [e]
    exact ⟨⟨s.table, s.mover, s.staging.slots, rfl⟩, ⟨[], fun i => by simp [hk], .refl s, fun i => by simp⟩,
      fun u => by simp [hk], fun u => by simp [hk], fun n => by simp [hk]⟩
  | write =>
    have e : dropWork v r s = dropWrite v r.admission s := by unfold dropWork; rw [hk]
    rw [e]
    unfold dropWrite
    dsimp only
    generalize hX : (s.setWriteRecord v none).setGrantOrder (setRemove v s.mover.grantOrder) = X
    obtain ⟨⟨b, g, e2⟩, sl, lv⟩ := freeFillings_full (X.fillingOf ⟨v, r.admission⟩) X (by rw [← hX]; exact hg)
    have hXs : ∀ i, X.slot i = s.slot i := fun i => by rw [← hX]; rfl
    refine ⟨⟨b, X.mover, g, by rw [e2, ← hX]; rfl⟩, ⟨X.fillingOf ⟨v, r.admission⟩, fun i => ?_, ?_, fun i => ?_⟩,
      fun u => ?_, fun u => ?_, fun n => ?_⟩
    · unfold State.fillingOf
      rw [List.mem_filter, hXs]
      constructor
      · rintro ⟨_, h⟩
        split at h
        next y o m c => exact ⟨hk, y, m, by rw [c, of_decide_eq_true h]⟩
        all_goals cases h
      · rintro ⟨_, y, m, h⟩
        refine ⟨(by decide : ∀ i : SlotNo, i ∈ allSlots) i, ?_⟩
        rw [h]
        simp
    · rw [← hX] at lv ⊢
      exact ⟨lv.request, lv.admissionOrder, lv.counter, lv.snapshot, lv.completed⟩
    · rw [sl, hXs]
    · rw [e2, ← hX]
      show (s.setWriteRecord v none).writeRecord u = _
      rw [State.writeRecord_setWriteRecord]
      simp [hk]
    · rw [e2, ← hX]
      simp [hk]
      rfl
    · rw [e2, ← hX]
      simp [hk]
      rfl

/-! ## The others end -/

/-- The halt ends the request of tag `v` of state `s`, if it comes to that tag (R130). -/
def State.endable (s : State) (v : Tag) : Bool :=
  (s.request v).any (fun r => decide (r.state = .held ∨ r.state = .active ∨ r.state = .settling))

/-- A request that the halt has come to (R130). -/
def Request.halted (inFlight : Bool) (q : Request) : Request :=
  if q.state = .active ∧ inFlight = true then
    { q with state := .aborting, holdList := [], flushSet := [], settleSet := [] }
  else if q.state = .held ∨ q.state = .active ∨ q.state = .settling then { q with
    state := .reporting, status := some .aborted, failingLbn := none, holdList := [], flushSet := [], settleSet := [] }
  else q

theorem endRequest_full (acc : State × Nat) (t : Tag) :
    (∀ v, (endRequest acc t).1.request v = if v = t
      then (acc.1.request v).map (Request.halted (acc.1.fetchInFlight t)) else acc.1.request v) ∧
    (endRequest acc t).1.table.admissionOrder = acc.1.table.admissionOrder ∧
    (endRequest acc t).1.table.counter = acc.1.table.counter ∧
    (endRequest acc t).1.table.completionOrder = acc.1.table.completionOrder ++
      (if acc.1.endable t && !(acc.1.inState .active t && acc.1.fetchInFlight t) then [t] else []) ∧
    (endRequest acc t).2 = acc.2 + (if acc.1.endable t then 1 else 0) := by
  cases hr : acc.1.request t with
  | none =>
    have e : endRequest acc t = acc := by unfold endRequest; rw [hr]
    rw [e]
    refine ⟨fun v => ?_, rfl, rfl, by simp [State.endable, hr], by simp [State.endable, hr]⟩
    split
    next c => rw [c, hr]; rfl
    · rfl
  | some q =>
    have rep : ∀ (_ : q.state = .held ∨ q.state = .active ∨ q.state = .settling)
        (_ : ¬ (q.state = .active ∧ acc.1.fetchInFlight t = true))
        (_ : endRequest acc t = (enterReporting t .aborted none acc.1, acc.2 + 1)),
        (∀ v, (endRequest acc t).1.request v = if v = t
          then (acc.1.request v).map (Request.halted (acc.1.fetchInFlight t)) else acc.1.request v) ∧
        (endRequest acc t).1.table.admissionOrder = acc.1.table.admissionOrder ∧
        (endRequest acc t).1.table.counter = acc.1.table.counter ∧
        (endRequest acc t).1.table.completionOrder = acc.1.table.completionOrder ++
          (if acc.1.endable t && !(acc.1.inState .active t && acc.1.fetchInFlight t) then [t] else []) ∧
        (endRequest acc t).2 = acc.2 + (if acc.1.endable t then 1 else 0) := by
      intro h1 h2 e
      have he : acc.1.endable t = true := by simp [State.endable, hr, h1]
      have hi : (acc.1.inState .active t && acc.1.fetchInFlight t) = false := by
        rw [← Bool.not_eq_true]
        intro c
        simp [State.inState, hr] at c
        exact h2 c
      rw [e]
      dsimp only
      refine ⟨fun v => ?_, ?_, ?_, ?_, by rw [he]; rfl⟩
      · rw [enterReporting_request]
        split
        next c =>
          rw [c, hr]
          unfold Request.halted
          rw [Option.map_some, Option.map_some, if_neg h2, if_pos h1]
        · rfl
      · unfold enterReporting; rw [hr]; rfl
      · unfold enterReporting; rw [hr]; rfl
      · rw [he, hi]; unfold enterReporting; rw [hr]; rfl
    have same : ∀ (_ : ¬ (q.state = .held ∨ q.state = .active ∨ q.state = .settling)) (_ : endRequest acc t = acc),
        (∀ v, (endRequest acc t).1.request v = if v = t
          then (acc.1.request v).map (Request.halted (acc.1.fetchInFlight t)) else acc.1.request v) ∧
        (endRequest acc t).1.table.admissionOrder = acc.1.table.admissionOrder ∧
        (endRequest acc t).1.table.counter = acc.1.table.counter ∧
        (endRequest acc t).1.table.completionOrder = acc.1.table.completionOrder ++
          (if acc.1.endable t && !(acc.1.inState .active t && acc.1.fetchInFlight t) then [t] else []) ∧
        (endRequest acc t).2 = acc.2 + (if acc.1.endable t then 1 else 0) := by
      intro h1 e
      have he : acc.1.endable t = false := by simp [State.endable, hr]; simpa using h1
      rw [e]
      refine ⟨fun v => ?_, rfl, rfl, by rw [he]; simp, by rw [he]; simp⟩
      split
      next c =>
        rw [c, hr]
        unfold Request.halted
        rw [Option.map_some, if_neg (fun x => h1 (.inr (.inl x.1))), if_neg h1]
      · rfl
    cases hs : q.state with
    | held => exact rep (by simp [hs]) (by simp [hs]) (by unfold endRequest; rw [hr]; dsimp only; rw [hs])
    | settling => exact rep (by simp [hs]) (by simp [hs]) (by unfold endRequest; rw [hr]; dsimp only; rw [hs])
    | aborting => exact same (by simp [hs]) (by unfold endRequest; rw [hr]; dsimp only; rw [hs])
    | reporting => exact same (by simp [hs]) (by unfold endRequest; rw [hr]; dsimp only; rw [hs])
    | active =>
      by_cases hf : acc.1.fetchInFlight t = true
      · have e : endRequest acc t = (acc.1.setRequest t { q with
            state := .aborting, holdList := [], flushSet := [], settleSet := [] }, acc.2 + 1) := by
          unfold endRequest
          rw [hr]
          dsimp only
          rw [hs]
          dsimp only
          rw [if_pos hf]
        have he : acc.1.endable t = true := by simp [State.endable, hr, hs]
        have hi : acc.1.inState .active t = true := by simp [State.inState, hr, hs]
        rw [e]
        dsimp only
        refine ⟨fun v => ?_, rfl, rfl, by rw [hi, hf]; simp, by rw [he]; rfl⟩
        rw [State.request_setRequest]
        split
        next c =>
          rw [c, hr, Option.map_some]
          unfold Request.halted
          rw [if_pos ⟨hs, hf⟩]
        · rfl
      · exact rep (by simp [hs]) (fun c => hf c.2)
          (by unfold endRequest; rw [hr]; dsimp only; rw [hs]; dsimp only; rw [if_neg hf])

/-- What ending a run of distinct tags comes to. -/
theorem endRequests_full (l : List Tag) (hl : l.Nodup) (acc : State × Nat) :
    (∃ b, (l.foldl endRequest acc).1 = { acc.1 with table := b }) ∧
    (∀ v, (l.foldl endRequest acc).1.request v = if v ∈ l
      then (acc.1.request v).map (Request.halted (acc.1.fetchInFlight v)) else acc.1.request v) ∧
    (l.foldl endRequest acc).1.table.admissionOrder = acc.1.table.admissionOrder ∧
    (l.foldl endRequest acc).1.table.counter = acc.1.table.counter ∧
    (l.foldl endRequest acc).1.table.completionOrder = acc.1.table.completionOrder ++
      l.filter (fun t => acc.1.endable t && !(acc.1.inState .active t && acc.1.fetchInFlight t)) ∧
    (l.foldl endRequest acc).2 = acc.2 + (l.filter acc.1.endable).length := by
  induction l generalizing acc with
  | nil => exact ⟨⟨acc.1.table, rfl⟩, fun v => by simp, rfl, rfl, by simp, by simp⟩
  | cons a l ih =>
    rw [List.nodup_cons] at hl
    obtain ⟨b, e⟩ := endRequest_eq acc a
    obtain ⟨r, ao, co, cp, n⟩ := endRequest_full acc a
    obtain ⟨⟨b', e'⟩, r', ao', co', cp', n'⟩ := ih hl.2 (endRequest acc a)
    have hf : ∀ v, (endRequest acc a).1.fetchInFlight v = acc.1.fetchInFlight v := fun v => by rw [e]; rfl
    have hr : ∀ v, v ∈ l → (endRequest acc a).1.request v = acc.1.request v := fun v hv => by
      rw [r, if_neg (fun (c : v = a) => hl.1 (by rw [← c]; exact hv))]
    have hend : ∀ v, v ∈ l → (endRequest acc a).1.endable v = acc.1.endable v := fun v hv => by
      unfold State.endable; rw [hr v hv]
    have hact : ∀ v, v ∈ l → (endRequest acc a).1.inState .active v = acc.1.inState .active v := fun v hv => by
      unfold State.inState; rw [hr v hv]
    rw [List.foldl_cons]
    refine ⟨⟨b', by rw [e', e]⟩, fun v => ?_, ao'.trans ao, co'.trans co, ?_, ?_⟩
    · rw [r', hf]
      by_cases c : v = a
      · subst c
        rw [if_neg hl.1, r, if_pos rfl, if_pos (List.mem_cons_self ..)]
      · by_cases d : v ∈ l
        · rw [if_pos d, hr v d, if_pos (List.mem_cons_of_mem _ d)]
        · rw [if_neg d, r, if_neg c, if_neg (by simp [c, d])]
    · rw [cp', cp, List.append_assoc, List.filter_cons]
      congr 1
      have : l.filter (fun t => (endRequest acc a).1.endable t &&
          !((endRequest acc a).1.inState .active t && (endRequest acc a).1.fetchInFlight t)) =
          l.filter (fun t => acc.1.endable t && !(acc.1.inState .active t && acc.1.fetchInFlight t)) :=
        List.filter_congr (fun v hv => by rw [hend v hv, hact v hv, hf])
      rw [this]
      split <;> simp
    · rw [n', n, List.filter_cons]
      have : l.filter (endRequest acc a).1.endable = l.filter acc.1.endable := List.filter_congr (fun v hv => hend v hv)
      rw [this]
      split <;> simp <;> omega

/-! ## The others' work -/

/-- The request of tag `v` was ACTIVE without a fetch in flight, of the given kinds, and `a` is its admission. -/
def State.leftBy (b : State) (v : Tag) (a : Word32) (write : Bool) : Bool :=
  (b.request v).any (fun r => decide (r.admission = a) && decide (r.state = .active) && !b.fetchInFlight v &&
    (if write then decide (r.kind = .write) else decide (r.kind = .read) || decide (r.kind = .verify)))

/-- It was ACTIVE with a fetch in flight. -/
def State.abortedBy (b : State) (v : Tag) (a : Word32) : Bool :=
  (b.request v).any (fun r => decide (r.admission = a) && decide (r.state = .active) && b.fetchInFlight v)

/-- One staging slot once the works of the tags `l` are dropped. -/
def StagingSlot.leftBy (b : State) (l : List Tag) : StagingSlot → StagingSlot
  | .filling y o m => if decide (o.tag ∈ l) && b.leftBy o.tag o.admission true then .free else .filling y o m
  | z => z

/-- One return slot once the works of the tags `l` are dropped. -/
def ReturnSlot.leftBy (b : State) (l : List Tag) : ReturnSlot → ReturnSlot
  | .fetching o i y => if decide (o.tag ∈ l) && b.leftBy o.tag o.admission false then .free else .fetching o i y
  | .filled o i y d => if decide (o.tag ∈ l) && (b.leftBy o.tag o.admission false || b.abortedBy o.tag o.admission) then .free
    else .filled o i y d
  | z => z

/-- What dropping the works of the tags `l` comes to where no FLUSH settles. -/
structure WorksLeft (b : State) (l : List Tag) (s t : State) : Prop where
  eq : ∃ m g, t = { s with table := t.table, mover := m, staging := { s.staging with slots := g } }
  request : ∀ v, t.request v = s.request v
  orders : t.table.admissionOrder = s.table.admissionOrder ∧ t.table.counter = s.table.counter ∧
    t.table.completionOrder = s.table.completionOrder ∧ t.table.snapshot = s.table.snapshot
  write : ∀ u, t.writeRecord u =
    if decide (u ∈ l) && (b.request u).any (fun r => b.leftBy u r.admission true) then none else s.writeRecord u
  fetch : ∀ u, t.fetchRecord u =
    if decide (u ∈ l) && (b.request u).any (fun r => b.leftBy u r.admission false) then none else s.fetchRecord u
  returns : ∀ n, t.returnSlot n = (s.returnSlot n).leftBy b l
  slot : ∀ i, t.slot i = (s.slot i).leftBy b l

theorem worksLeft_leaveWork (b : State) (v : Tag) (s : State) (hg : TableGood s)
    (hs : ∀ u q, s.request u = some q → q.state ≠ .settling) : WorksLeft b [v] s (leaveWork b v s) := by
  have idle : ∀ (_ : leaveWork b v s = s) (_ : ∀ a w, b.leftBy v a w = false) (_ : ∀ a, b.abortedBy v a = false),
      WorksLeft b [v] s (leaveWork b v s) := by
    intro e h1 h2
    rw [e]
    refine ⟨⟨s.mover, s.staging.slots, rfl⟩, fun _ => rfl, ⟨rfl, rfl, rfl, rfl⟩, fun u => ?_, fun u => ?_, fun n => ?_,
      fun i => ?_⟩
    · by_cases c : u = v
      · subst c; cases b.request u <;> simp [h1]
      · simp [c]
    · by_cases c : u = v
      · subst c; cases b.request u <;> simp [h1]
      · simp [c]
    · cases s.returnSlot n with
      | free => rfl
      | sent => rfl
      | fetching o i x =>
        by_cases c : o.tag = v
        · simp [ReturnSlot.leftBy, c, h1]
        · simp [ReturnSlot.leftBy, c]
      | filled o i x d =>
        by_cases c : o.tag = v
        · simp [ReturnSlot.leftBy, c, h1, h2]
        · simp [ReturnSlot.leftBy, c]
    · cases s.slot i with
      | filling y o m =>
        by_cases c : o.tag = v
        · simp [StagingSlot.leftBy, c, h1]
        · simp [StagingSlot.leftBy, c]
      | _ => rfl
  cases hr : b.request v with
  | none => exact idle (by unfold leaveWork; rw [hr]) (fun a w => by simp [State.leftBy, hr]) (fun a => by simp [State.abortedBy, hr])
  | some r =>
    by_cases ha : r.state = .active
    · by_cases hf : b.fetchInFlight v = true
      · have e : leaveWork b v s = releaseReturns ⟨v, r.admission⟩ true s := by
          unfold leaveWork
          rw [hr]
          dsimp only
          rw [if_pos ha, if_pos hf]
        obtain ⟨rv, fo, e2⟩ := releaseReturns_eq ⟨v, r.admission⟩ true s
        have hrs := fun n => releaseReturns_slot ⟨v, r.admission⟩ true n s
        rw [← e] at hrs
        have e3 := e.trans e2
        have h1 : ∀ a w, b.leftBy v a w = false := fun a w => by simp [State.leftBy, hr, hf]
        have h2 : ∀ a, b.abortedBy v a = decide (r.admission = a) := fun a => by simp [State.abortedBy, hr, hf, ha]
        refine ⟨⟨_, s.staging.slots, by rw [e3]⟩, fun _ => by rw [e3]; rfl, by rw [e3]; exact ⟨rfl, rfl, rfl, rfl⟩, fun u => ?_, fun u => ?_,
          fun n => ?_, fun i => ?_⟩
        · rw [e3]
          by_cases c : u = v
          · subst c; cases b.request u <;> simp [h1] <;> rfl
          · simp [c]; rfl
        · rw [e3]
          by_cases c : u = v
          · subst c; cases b.request u <;> simp [h1] <;> rfl
          · simp [c]; rfl
        · rw [hrs]
          cases s.returnSlot n with
          | free => rfl
          | sent => rfl
          | fetching o i x =>
            by_cases c : o.tag = v
            · simp [ReturnSlot.leftBy, ReturnSlot.released, c, h1]
            · simp [ReturnSlot.leftBy, ReturnSlot.released, c]
          | filled o i x d =>
            obtain ⟨ot, oa⟩ := o
            by_cases c : ot = v
            · subst c
              by_cases d : oa = r.admission
              · simp [ReturnSlot.leftBy, ReturnSlot.released, h2, d]
              · simp [ReturnSlot.leftBy, ReturnSlot.released, h1, h2, d, Ne.symm d]
            · simp [ReturnSlot.leftBy, ReturnSlot.released, c]
        · rw [e3]
          show s.slot i = _
          cases s.slot i with
          | filling y o m =>
            by_cases c : o.tag = v
            · simp [StagingSlot.leftBy, c, h1]
            · simp [StagingSlot.leftBy, c]
          | _ => rfl
      · have e : leaveWork b v s = dropWork v r s := by
          unfold leaveWork
          rw [hr]
          dsimp only
          rw [if_pos ha, if_neg hf]
        obtain ⟨⟨tb, m, g, e2⟩, ⟨l, hl, lv, sl⟩, hw, hfe, hre⟩ := drops_dropWork v r s hg
        rw [← e] at e2 lv sl hw hfe hre
        have h1 : ∀ a w, b.leftBy v a w = (decide (r.admission = a) &&
            (if w then decide (r.kind = .write) else decide (r.kind = .read) || decide (r.kind = .verify))) := fun a w => by
          simp [State.leftBy, hr, hf, ha]
        have h2 : ∀ a, b.abortedBy v a = false := fun a => by simp [State.abortedBy, hf]
        refine ⟨⟨m, g, by rw [e2]⟩, fun u => ?_, ⟨lv.admissionOrder, lv.counter, ?_, lv.snapshot⟩, fun u => ?_, fun u => ?_,
          fun n => ?_, fun i => ?_⟩
        · rw [lv.request]
          cases hq : s.request u with
          | none => rfl
          | some q => rw [Option.map_some, Request.unflushed_all_other l q (fun c => hs u q hq c.2)]
        · obtain ⟨good, hgood, hm⟩ := lv.completed
          rw [hgood]
          cases good with
          | nil => simp
          | cons x _ =>
            obtain ⟨q, hq, _, hq2, _⟩ := hm x (List.mem_cons_self ..)
            exact absurd hq2 (hs x q hq)
        · rw [hw]
          by_cases c : u = v
          · subst c; rw [hr]; simp [h1]
          · simp [c]
        · rw [hfe]
          by_cases c : u = v
          · subst c; rw [hr]; simp [h1]
          · simp [c]
        · rw [hre]
          by_cases hk : r.kind = .read ∨ r.kind = .verify
          · rw [if_pos hk]
            cases s.returnSlot n with
            | free => rfl
            | sent => rfl
            | fetching o i x =>
              obtain ⟨ot, oa⟩ := o
              by_cases c : ot = v
              · subst c
                by_cases d : oa = r.admission
                · simp [ReturnSlot.leftBy, ReturnSlot.released, h1, d, hk]
                · simp [ReturnSlot.leftBy, ReturnSlot.released, h1, d, Ne.symm d]
              · simp [ReturnSlot.leftBy, ReturnSlot.released, c]
            | filled o i x d =>
              obtain ⟨ot, oa⟩ := o
              by_cases c : ot = v
              · subst c
                by_cases d : oa = r.admission
                · simp [ReturnSlot.leftBy, ReturnSlot.released, h1, d, hk]
                · simp [ReturnSlot.leftBy, ReturnSlot.released, h1, h2, d, Ne.symm d]
              · simp [ReturnSlot.leftBy, ReturnSlot.released, c]
          · rw [if_neg hk]
            rw [not_or] at hk
            cases s.returnSlot n with
            | free => rfl
            | sent => rfl
            | fetching o i x =>
              by_cases c : o.tag = v
              · simp [ReturnSlot.leftBy, c, h1, hk]
              · simp [ReturnSlot.leftBy, c]
            | filled o i x d =>
              by_cases c : o.tag = v
              · simp [ReturnSlot.leftBy, c, h1, h2, hk]
              · simp [ReturnSlot.leftBy, c]
        · rw [sl]
          cases hsl : s.slot i with
          | filling y o m =>
            obtain ⟨ot, oa⟩ := o
            have : i ∈ l ↔ r.kind = .write ∧ ot = v ∧ oa = r.admission := by
              rw [hl, hsl]
              constructor
              · rintro ⟨h, y', m', h'⟩; cases h'; exact ⟨h, rfl, rfl⟩
              · rintro ⟨h, rfl, rfl⟩; exact ⟨h, y, m, rfl⟩
            by_cases c : ot = v
            · subst c
              by_cases d : oa = r.admission
              · simp [StagingSlot.leftBy, h1, this, d]
              · simp [StagingSlot.leftBy, h1, this, d, Ne.symm d]
            · simp [StagingSlot.leftBy, this, c]
          | _ =>
            have : i ∉ l := by rw [hl, hsl]; rintro ⟨_, _, _, h⟩; cases h
            rw [if_neg this]
            rfl
    · exact idle (by unfold leaveWork; rw [hr]; dsimp only; rw [if_neg ha]) (fun a w => by simp [State.leftBy, hr, ha])
        (fun a => by simp [State.abortedBy, hr, ha])

theorem worksLeft_all (b : State) (l : List Tag) (s : State) (hg : TableGood s)
    (hs : ∀ u q, s.request u = some q → q.state ≠ .settling) :
    WorksLeft b l s (l.foldl (fun acc u => leaveWork b u acc) s) := by
  induction l generalizing s with
  | nil =>
    refine ⟨⟨s.mover, s.staging.slots, rfl⟩, fun _ => rfl, ⟨rfl, rfl, rfl, rfl⟩, fun u => by simp, fun u => by simp, fun n => ?_,
      fun i => ?_⟩
    · simp only [List.foldl_nil]
      cases s.returnSlot n <;> simp [ReturnSlot.leftBy]
    · simp only [List.foldl_nil]
      cases s.slot i <;> simp [StagingSlot.leftBy]
  | cons a l ih =>
    have h1 := worksLeft_leaveWork b a s hg hs
    rw [List.foldl_cons]
    generalize leaveWork b a s = T at h1
    have hg' : TableGood T := by
      refine ⟨by rw [h1.orders.1]; exact hg.1, fun v => ?_⟩
      rw [h1.orders.1, h1.request]
      exact hg.2 v
    have h2 := ih T hg' (fun u q hq => hs u q (by rw [← h1.request]; exact hq))
    generalize l.foldl (fun acc u => leaveWork b u acc) T = U at h2
    obtain ⟨m, g, e⟩ := h1.eq
    obtain ⟨m', g', e'⟩ := h2.eq
    refine ⟨⟨m', g', by rw [e', e]⟩, fun v => (h2.request v).trans (h1.request v),
      ⟨h2.orders.1.trans h1.orders.1, h2.orders.2.1.trans h1.orders.2.1, h2.orders.2.2.1.trans h1.orders.2.2.1,
        h2.orders.2.2.2.trans h1.orders.2.2.2⟩, fun u => ?_, fun u => ?_, fun n => ?_, fun i => ?_⟩
    all_goals clear e e' ih hs hg hg'
    · rw [h2.write, h1.write]
      by_cases c : u = a <;> by_cases d : u ∈ l <;>
        by_cases k : (b.request u).any (fun r => b.leftBy u r.admission true) = true <;> simp_all
    · rw [h2.fetch, h1.fetch]
      by_cases c : u = a <;> by_cases d : u ∈ l <;>
        by_cases k : (b.request u).any (fun r => b.leftBy u r.admission false) = true <;> simp_all
    · rw [h2.returns, h1.returns]
      cases s.returnSlot n with
      | free => rfl
      | sent => rfl
      | fetching o i x =>
        by_cases c : o.tag = a <;> by_cases d : o.tag ∈ l <;> by_cases k : b.leftBy o.tag o.admission false = true <;>
          simp_all [ReturnSlot.leftBy]
      | filled o i x d =>
        by_cases c : o.tag = a <;> by_cases d : o.tag ∈ l <;>
          by_cases k : (b.leftBy o.tag o.admission false || b.abortedBy o.tag o.admission) = true <;>
          simp_all [ReturnSlot.leftBy]
    · rw [h2.slot, h1.slot]
      cases s.slot i with
      | filling y o m =>
        by_cases c : o.tag = a <;> by_cases d : o.tag ∈ l <;> by_cases k : b.leftBy o.tag o.admission true = true <;>
          simp_all [StagingSlot.leftBy]
      | _ => rfl

/-! ## The fault -/

/-- A request that settles or is ACTIVE faults while the queue is RUNNING: the queue halts on it. -/
theorem requestFault_halts {s : State} {t : Tag} {r : Request} (hg : TableGood s) (hr : s.request t = some r)
    (ha : r.state = .active ∨ r.state = .settling) (hn : s.table.snapshot = none) (st : CompletionStatus)
    (x : Option Nat) (c : HistoryCause) : s.haltsOn (requestFault t st x c s) t st x c := by
  obtain ⟨⟨b0, m0, g0, hD⟩, ⟨l, hl, lv, hDs⟩, hDw, hDf, hDr⟩ := drops_dropWork t r s hg
  generalize hDD : dropWork t r s = D at *
  have hlk : r.kind ≠ .write → l = [] := fun hk => by
    cases l with
    | nil => rfl
    | cons i _ => exact absurd ((hl i).1 (List.mem_cons_self ..)).1 hk
  have hDt : D.request t = some r := by
    rw [lv.request, hr, Option.map_some]
    by_cases hk : r.kind = .write
    · rw [Request.unflushed_all_other l r (by simp [hk])]
    · rw [hlk hk]; rfl
  let r' : Request := { r with
    state := .reporting, status := some st, failingLbn := x, holdList := [], flushSet := [], settleSet := [] }
  have hfp : (enterReporting t st x D).failingPort x = s.failingPort x := by
    obtain ⟨b, e, _⟩ := enterReporting_eq t st x D
    rw [e, hD]; rfl
  have hR : enterReporting t st x D = { D with table := { D.table with
      slots := D.table.slots.set t (some r'), completionOrder := D.table.completionOrder ++ [t] } } := by
    unfold enterReporting
    rw [hDt]
    rfl
  obtain ⟨ns, hA, hAn⟩ := addEntry_entry ⟨c, .request, some t, x, s.failingPort x, none, 0⟩ (enterReporting t st x D)
  have hF : requestFault t st x c s = haltQueue t st
      (addEntry ⟨c, .request, some t, x, s.failingPort x, none, 0⟩ (enterReporting t st x D)) := by
    unfold requestFault
    rw [hr]
    dsimp only
    rw [if_pos ha, hDD, hfp, if_neg]
    rw [hA, hR]
    simp [State.halted, lv.snapshot, hn]
  rw [hF]
  generalize hAA : addEntry ⟨c, .request, some t, x, s.failingPort x, none, 0⟩ (enterReporting t st x D) = A at *
  have hreq : ∀ v, A.request v = if v = t then some r' else (s.request v).map (fun q => l.foldl (fun y o => y.unflushed o) q) := by
    intro v
    have h1 : A.request v = (enterReporting t st x D).request v := by rw [hA]; rfl
    rw [h1, enterReporting_request, hDt, lv.request]
    rfl
  have hAao : A.table.admissionOrder = s.table.admissionOrder := by rw [hA, hR]; exact lv.admissionOrder
  have hgA : TableGood A := by
    refine ⟨by rw [hAao]; exact hg.1, fun v => ?_⟩
    rw [hAao, hg.2 v, hreq]
    split
    next e => subst e; simp [hr]
    · cases s.request v <;> simp
  have hAf : ∀ v, v ≠ t → A.fetchInFlight v = s.fetchInFlight v := fun v hv => by
    have : A.fetchRecord v = s.fetchRecord v := by
      have h1 : A.fetchRecord v = D.fetchRecord v := by rw [hA, hR]; rfl
      rw [h1, hDf, if_neg (fun c => hv c.1)]
    unfold State.fetchInFlight
    rw [this]
  have hAw : ∀ v, A.writeRecord v = D.writeRecord v := fun v => by rw [hA, hR]; rfl
  have hAfr : ∀ v, A.fetchRecord v = D.fetchRecord v := fun v => by rw [hA, hR]; rfl
  have hArs : ∀ v, A.returnSlot v = D.returnSlot v := fun v => by rw [hA, hR]; rfl
  have hAsl : ∀ v, A.slot v = D.slot v := fun v => by rw [hA, hR]; rfl
  have hact : ∀ v, v ≠ t → ∀ (f : Request → Bool), (A.request v).any (fun q => decide (q.state = .active) && f q) =
      (s.request v).any (fun q => decide (q.state = .active) && f q) := by
    intro v hv f
    rw [hreq, if_neg hv]
    cases hq : s.request v with
    | none => rfl
    | some q =>
      rw [Option.map_some]
      by_cases h : q.kind = .flush ∧ q.state = .settling
      · obtain ⟨_, h1, h2⟩ := Request.unflushed_all l q h.1 h.2
        by_cases k : q.flushSet ≠ [] ∧ ∀ o ∈ q.flushSet, o ∈ l
        · simp [(h1 k).1, h.2]
        · simp [h2 k, h.2]
      · rw [Request.unflushed_all_other l q h]
  -- the others
  let others := A.table.admissionOrder.filter (fun u => u ≠ t)
  have hno : others.Nodup := hgA.1.filter _
  have hmo : ∀ v, v ∈ others ↔ v ≠ t ∧ (s.request v).isSome = true := fun v => by
    show v ∈ A.table.admissionOrder.filter (fun u => u ≠ t) ↔ _
    rw [List.mem_filter, hAao, hg.2 v]
    simp [and_comm]
  obtain ⟨⟨b1, hE⟩, hEr, hEao, hEc, hEco, hEn⟩ := endRequests_full others hno (A, 0)
  generalize hEE : others.foldl endRequest (A, 0) = E at *
  dsimp only at hE hEr hEao hEc hEco hEn
  have hEt : E.1.request t = some r' := by
    rw [hEr, if_neg (fun h => ((hmo t).1 h).1 rfl), hreq, if_pos rfl]
  have hEo : ∀ v, v ≠ t → E.1.request v =
      (s.request v).map (fun q => Request.halted (s.fetchInFlight v) (l.foldl (fun y o => y.unflushed o) q)) := by
    intro v hv
    rw [hEr]
    split
    · rw [hreq, if_neg hv, Option.map_map, hAf v hv]; rfl
    next h =>
      rw [hreq, if_neg hv]
      cases hq : s.request v with
      | none => rfl
      | some q => exact absurd ((hmo v).2 ⟨hv, by rw [hq]; rfl⟩) h
  have hEs : ∀ u q, E.1.request u = some q → q.state ≠ .settling := by
    intro u q hq
    by_cases hu : u = t
    · subst hu
      rw [hEt] at hq
      cases hq
      simp [r']
    · rw [hEo u hu, Option.map_eq_some_iff] at hq
      obtain ⟨p, _, rfl⟩ := hq
      generalize l.foldl (fun y o => y.unflushed o) p = z
      unfold Request.halted
      split
      · simp
      · split
        · simp
        next h => exact fun k => h (.inr (.inr k))
  have hgE : TableGood E.1 := by
    refine ⟨by rw [hEao]; exact hgA.1, fun v => ?_⟩
    rw [hEao, hAao, hg.2 v]
    by_cases hv : v = t
    · subst hv; simp [hEt, hr]
    · rw [hEo v hv]; cases s.request v <;> simp
  have hL := worksLeft_all A others E.1 hgE hEs
  generalize hLL : others.foldl (fun acc u => leaveWork A u acc) E.1 = L at *
  obtain ⟨m1, g1, hLe⟩ := hL.eq
  have hLt : L.request t = some r' := by rw [hL.request, hEt]
  have hms : L.mapStore = s.mapStore := by rw [hLe, hE, hA, hR, hD]
  have hsnap : L.makeSnapshot t r' st E.2 A.newestEntry = ⟨t, r.kind, r.range, r.urgent, r.through, st, x, s.failingPort x,
      r.blocksDone, E.2, s.log.nextNumber⟩ := by
    have h1 : A.newestEntry = s.log.nextNumber := by
      unfold State.newestEntry
      rw [hA, hR, hD]
      rfl
    unfold State.makeSnapshot State.failingPort State.translate
    rw [hms, h1]
  have hH : haltQueue t st A = raiseSingle .queueHalted (.tag t) { L with table := { L.table with
      snapshot := some (L.makeSnapshot t r' st E.2 A.newestEntry) } } := by
    unfold haltQueue
    dsimp only
    rw [show (A.table.admissionOrder.filter (fun u => decide (u ≠ t))).foldl endRequest (A, 0) = E from hEE,
      show (A.table.admissionOrder.filter (fun u => decide (u ≠ t))).foldl (fun acc u => leaveWork A u acc) E.1 = L from hLL, hLt]
  rw [hH, hsnap]
  generalize hX : ({ L with table := { L.table with snapshot := some ⟨t, r.kind, r.range, r.urgent, r.through, st, x,
    s.failingPort x, r.blocksDone, E.2, s.log.nextNumber⟩ } } : State) = X
  obtain ⟨n2, hn2⟩ := raise_eq ⟨.queueHalted, none⟩ (.tag t) X
  have hN := fun j => raise_notice ⟨.queueHalted, none⟩ j (.tag t) X
  have hU : raiseSingle .queueHalted (.tag t) X = { X with notices := n2 } := hn2
  rw [hU]
  rw [hn2] at hN
  -- readings of the flush sets that the freed slots empty
  have hmem : ∀ i, i ∈ l ↔ s.fillsFor t i = true := fun i => by
    rw [hl]
    unfold State.fillsFor
    cases s.slot i with
    | filling y o m =>
      rw [hr]
      simp
    | _ => simp
  have hflush : ∀ v q, s.request v = some q → (s.flushedBy t v = true ↔ q.kind = .flush ∧ q.state = .settling ∧
      q.flushSet ≠ [] ∧ ∀ o ∈ q.flushSet, o ∈ l) := fun v q hq => by
    unfold State.flushedBy
    rw [hq]
    simp [hmem]
    grind
  have hnf : s.flushedBy t t = false := by
    rw [← Bool.not_eq_true]
    intro h
    obtain ⟨hk, _, hne, hall⟩ := (hflush t r hr).1 h
    obtain ⟨o, ho⟩ := List.exists_mem_of_ne_nil _ hne
    have := hall o ho
    rw [hl] at this
    rw [this.1] at hk
    cases hk
  have hendable : ∀ v, v ≠ t → A.endable v = s.haltEnds t v := by
    intro v hv
    unfold State.endable State.haltEnds
    rw [hreq, if_neg hv]
    cases hq : s.request v with
    | none => simp
    | some q =>
      rw [Option.map_some]
      by_cases h : q.kind = .flush ∧ q.state = .settling
      · obtain ⟨_, h1, h2⟩ := Request.unflushed_all l q h.1 h.2
        by_cases k : q.flushSet ≠ [] ∧ ∀ o ∈ q.flushSet, o ∈ l
        · have : s.flushedBy t v = true := (hflush v q hq).2 ⟨h.1, h.2, k⟩
          simp [(h1 k).1, this]
        · have : s.flushedBy t v = false := by
            rw [← Bool.not_eq_true, hflush v q hq]; exact fun z => k z.2.2
          simp [h2 k, this, h.2, hv]
      · have : s.flushedBy t v = false := by
          rw [← Bool.not_eq_true, hflush v q hq]; exact fun z => h ⟨z.1, z.2.1⟩
        rw [Request.unflushed_all_other l q h]
        simp [this, hv]
  have hleft : ∀ o : Owner, (decide (o.tag ∈ others) && A.leftBy o.tag o.admission true) =
      ((s.dropsWrite t o.tag && s.droppedBy t o) && decide (o.tag ≠ t)) := by
    intro o
    obtain ⟨v, a⟩ := o
    by_cases hv : v = t
    · subst hv; simp [hmo]
    · have h1 : A.leftBy v a true = (A.request v).any (fun q => decide (q.state = .active) &&
          (decide (q.admission = a) && !s.fetchInFlight v && decide (q.kind = .write))) := by
        unfold State.leftBy
        rw [hAf v hv]
        cases A.request v <;> simp [Bool.and_assoc, Bool.and_comm, Bool.and_left_comm]
      rw [h1, hact v hv]
      unfold State.dropsWrite State.droppedBy
      have hm := hmo v
      cases hq : s.request v with
      | none => simp [hmo, hq]
      | some q =>
        have : v ∈ others := (hmo v).2 ⟨hv, by rw [hq]; rfl⟩
        simp [this, hv, hq]
        grind
  have hleftF : ∀ o : Owner, (decide (o.tag ∈ others) && A.leftBy o.tag o.admission false) =
      ((s.dropsFetch t o.tag && s.droppedBy t o) && decide (o.tag ≠ t)) := by
    intro o
    obtain ⟨v, a⟩ := o
    by_cases hv : v = t
    · subst hv; simp [hmo]
    · have h1 : A.leftBy v a false = (A.request v).any (fun q => decide (q.state = .active) &&
          (decide (q.admission = a) && !s.fetchInFlight v && (decide (q.kind = .read) || decide (q.kind = .verify)))) := by
        unfold State.leftBy
        rw [hAf v hv]
        cases A.request v <;> simp [Bool.and_assoc, Bool.and_comm, Bool.and_left_comm]
      rw [h1, hact v hv]
      unfold State.dropsFetch State.droppedBy
      cases hq : s.request v with
      | none => simp [hmo, hq]
      | some q =>
        have : v ∈ others := (hmo v).2 ⟨hv, by rw [hq]; rfl⟩
        simp [this, hv, hq]
        grind
  have habort : ∀ o : Owner, (decide (o.tag ∈ others) && A.abortedBy o.tag o.admission) = s.abortsOwner t o := by
    intro o
    obtain ⟨v, a⟩ := o
    by_cases hv : v = t
    · subst hv
      unfold State.abortsOwner
      cases s.request v <;> simp [hmo]
    · have h1 : A.abortedBy v a = (A.request v).any (fun q => decide (q.state = .active) &&
          (decide (q.admission = a) && s.fetchInFlight v)) := by
        unfold State.abortedBy
        rw [hAf v hv]
        cases A.request v <;> simp [Bool.and_assoc, Bool.and_comm]
      rw [h1, hact v hv]
      unfold State.abortsOwner
      cases hq : s.request v with
      | none => simp [hmo, hq]
      | some q =>
        have : v ∈ others := (hmo v).2 ⟨hv, by rw [hq]; rfl⟩
        simp [this, hv]
        grind
  have hdt : s.dropsWrite t t = decide (r.kind = .write) := by
    simp [State.dropsWrite, State.droppedBy, hr]
  have hdft : s.dropsFetch t t = (decide (r.kind = .read) || decide (r.kind = .verify)) := by
    simp [State.dropsFetch, State.droppedBy, hr]
  have hdo : ∀ a, s.droppedBy t ⟨t, a⟩ = decide (r.admission = a) := fun a => by
    simp [State.droppedBy, hr]
  have hall : ∀ v : Tag, v ∈ allTags := by decide
  refine ⟨r, hr, ?_, ?_, fun v hv hq => ?_, fun v q hv hq => ?_, ?_, ?_, ?_, fun v => ?_, fun v => ?_, fun n => ?_, fun i => ?_,
    ?_, ?_, fun k hk => ?_, ?_, ?_⟩
  · rw [← hX]; exact hLt
  · rw [← hX]
    show some _ = some _
    congr 2
    rw [hEn, Nat.zero_add]
    refine List.Perm.length_eq ((List.perm_ext_iff_of_nodup (hno.filter _) ((by decide : allTags.Nodup).filter _)).2 (fun v => ?_))
    rw [List.mem_filter, hmo, List.mem_filter]
    constructor
    · rintro ⟨⟨h1, _⟩, h2⟩
      exact ⟨hall v, by rw [← hendable v h1]; exact h2⟩
    · rintro ⟨_, h⟩
      have h1 : v ≠ t := by
        rintro rfl
        simp [State.haltEnds] at h
      refine ⟨⟨h1, ?_⟩, by rw [hendable v h1]; exact h⟩
      unfold State.haltEnds at h
      cases hq : s.request v with
      | none => rw [hq] at h; simp at h
      | some q => rfl
  · rw [← hX]
    show L.request v = none
    rw [hL.request, hEo v hv, hq]
    rfl
  · rw [← hX]
    refine ⟨Request.halted (s.fetchInFlight v) (l.foldl (fun y o => y.unflushed o) q), ?_, ?_⟩
    · show L.request v = _
      rw [hL.request, hEo v hv, hq]
      rfl
    · obtain ⟨k1, k2, k3, k4, k5⟩ := Request.unflushed_all_same l q
      have kh : ∀ p : Request, (p.halted (s.fetchInFlight v)).kind = p.kind ∧
          (p.halted (s.fetchInFlight v)).range = p.range ∧ (p.halted (s.fetchInFlight v)).urgent = p.urgent ∧
          (p.halted (s.fetchInFlight v)).through = p.through ∧
          (p.halted (s.fetchInFlight v)).admission = p.admission := by
        intro p
        unfold Request.halted
        split
        · simp
        · split <;> simp
      obtain ⟨j1, j2, j3, j4, j5⟩ := kh (l.foldl (fun y o => y.unflushed o) q)
      refine ⟨j1.trans k1, j2.trans k2, j3.trans k3, j4.trans k4, j5.trans k5, fun h => ?_, fun h => ?_, fun h => ?_, fun h => ?_⟩
      · rw [Request.unflushed_all_other l q (by rcases h with h | h <;> simp [h])]
        unfold Request.halted
        rw [if_neg (by rcases h with h | h <;> simp [h]), if_neg (by rcases h with h | h <;> simp [h])]
      · have hst : q.state = .held ∨ q.state = .active ∨ q.state = .settling := by
          revert h
          cases q.state <;> decide
        by_cases c : s.flushedBy t v = true
        · obtain ⟨h1, h2, h3⟩ := (hflush v q hq).1 c
          obtain ⟨_, h4, _⟩ := Request.unflushed_all l q h1 h2
          unfold Request.halted
          rw [if_neg (by simp [(h4 h3).1]), if_neg (by simp [(h4 h3).1])]
          exact (h4 h3).2.2
        · have hs2 : (l.foldl (fun y o => y.unflushed o) q).state = q.state := by
            by_cases d : q.kind = .flush ∧ q.state = .settling
            · obtain ⟨_, _, h2⟩ := Request.unflushed_all l q d.1 d.2
              rw [h2 (fun z => c ((hflush v q hq).2 ⟨d.1, d.2, z⟩)), d.2]
            · rw [Request.unflushed_all_other l q d]
          unfold Request.halted
          rw [hs2]
          split
          · exact ⟨rfl, rfl, rfl⟩
          · exact ⟨rfl, rfl, rfl⟩
      · obtain ⟨h1, h2, h3⟩ := (hflush v q hq).1 h
        obtain ⟨_, h4, _⟩ := Request.unflushed_all l q h1 h2
        unfold Request.halted
        rw [if_neg (by simp [(h4 h3).1]), if_neg (by simp [(h4 h3).1])]
        exact ⟨(h4 h3).1, (h4 h3).2.1⟩
      · have hend : q.state = .held ∨ q.state = .active ∨ q.state = .settling := by
          unfold State.haltEnds at h
          rw [hq] at h
          simp at h
          exact h.2
        have hfl : ¬ s.flushedBy t v = true := by
          unfold State.haltEnds at h
          simp at h
          simp [h.1.2]
        have hst : (l.foldl (fun y o => y.unflushed o) q).state = q.state := by
          by_cases c : q.kind = .flush ∧ q.state = .settling
          · obtain ⟨_, _, h2⟩ := Request.unflushed_all l q c.1 c.2
            rw [h2 (fun z => hfl ((hflush v q hq).2 ⟨c.1, c.2, z⟩)), c.2]
          · rw [Request.unflushed_all_other l q c]
        refine ⟨fun hk => ?_, ?_⟩
        · rw [Request.unflushed_all_other l q (fun z => hk z.1)]
          unfold Request.halted
          split
          · rfl
          · rfl
        · unfold Request.halted
          rw [hst]
          split
          · rfl
          · exact ⟨rfl, rfl, rfl⟩
  · obtain ⟨good, hgc, hgm⟩ := lv.completed
    refine ⟨good, fun v hv => ?_, ?_⟩
    · obtain ⟨q, h1, h2, h3, h4⟩ := hgm v hv
      rw [hflush v q h1]
      refine ⟨h2, h3, ?_⟩
      by_cases k : q.flushSet ≠ [] ∧ ∀ o ∈ q.flushSet, o ∈ l
      · exact k
      · obtain ⟨_, _, h5⟩ := Request.unflushed_all l q h2 h3
        rw [h5 k] at h4
        cases h4
    · rw [← hX]
      show L.table.completionOrder = _
      rw [hL.orders.2.2.1, hEco]
      have h1 : A.table.completionOrder = s.table.completionOrder ++ good ++ [t] := by rw [hA, hR, ← hgc]
      rw [h1, List.append_assoc _ [t]]
      congr 1
      show t :: others.filter _ = t :: _
      congr 1
      show (A.table.admissionOrder.filter (fun u => u ≠ t)).filter _ = _
      rw [hAao, List.filter_filter]
      refine List.filter_congr (fun v hv => ?_)
      by_cases c : v = t
      · subst c; simp [State.haltEnds]
      · rw [hendable v c, hAf v c]
        have : A.inState .active v = s.inState .active v := by
          have := hact v c (fun _ => true)
          unfold State.inState
          revert this
          cases A.request v <;> cases s.request v <;> simp
        rw [this]
        simp [c]
  · rw [← hX]; show L.table.admissionOrder = _; rw [hL.orders.1, hEao, hAao]
  · rw [← hX]; show L.table.counter = _; rw [hL.orders.2.1, hEc, hA, hR]; exact lv.counter
  · rw [← hX]
    show L.writeRecord v = _
    rw [hL.write]
    have h1 : E.1.writeRecord v = D.writeRecord v := by rw [hE]; exact hAw v
    rw [h1, hDw]
    by_cases c : v = t
    · subst c
      rw [hdt]
      simp [hmo]
    · rw [if_neg (fun z : v = t ∧ r.kind = .write => c z.1)]
      congr 1
      unfold State.dropsWrite
      cases hq : s.request v with
      | none => simp [hmo, hq]
      | some q =>
        have hv : v ∈ others := (hmo v).2 ⟨c, by rw [hq]; rfl⟩
        have h2 : (A.request v).any (fun r => A.leftBy v r.admission true) =
            (A.request v).any (fun r => decide (r.state = .active) && (!s.fetchInFlight v && decide (r.kind = .write))) := by
          unfold State.leftBy
          rw [hAf v c]
          cases A.request v <;> simp [Bool.and_assoc]
        rw [h2, hact v c, hq]
        simp [hv, State.droppedBy, hq, c]
        grind
  · rw [← hX]
    show L.fetchRecord v = _
    rw [hL.fetch]
    have h1 : E.1.fetchRecord v = D.fetchRecord v := by rw [hE]; exact hAfr v
    rw [h1, hDf]
    by_cases c : v = t
    · subst c
      rw [hdft]
      simp [hmo]
    · rw [if_neg (fun z : v = t ∧ (r.kind = .read ∨ r.kind = .verify) => c z.1)]
      congr 1
      unfold State.dropsFetch
      cases hq : s.request v with
      | none => simp [hmo, hq]
      | some q =>
        have hv : v ∈ others := (hmo v).2 ⟨c, by rw [hq]; rfl⟩
        have h2 : (A.request v).any (fun r => A.leftBy v r.admission false) =
            (A.request v).any (fun r => decide (r.state = .active) &&
              (!s.fetchInFlight v && (decide (r.kind = .read) || decide (r.kind = .verify)))) := by
          unfold State.leftBy
          rw [hAf v c]
          cases A.request v <;> simp [Bool.and_assoc]
        rw [h2, hact v c, hq]
        simp [hv, State.droppedBy, hq, c]
        grind
  · rw [← hX]
    show L.returnSlot n = _
    rw [hL.returns]
    have h1 : E.1.returnSlot n = D.returnSlot n := by rw [hE]; exact hArs n
    rw [h1, hDr]
    cases hs : s.returnSlot n with
    | free => split <;> rfl
    | sent => split <;> rfl
    | fetching o i y =>
      have hl1 := hleftF o
      obtain ⟨v, a⟩ := o
      dsimp only at hl1
      by_cases c : v = t
      · subst c
        have : v ∉ others := fun z => ((hmo v).1 z).1 rfl
        by_cases hk : r.kind = .read ∨ r.kind = .verify
        · rw [if_pos hk]
          by_cases d : a = r.admission
          · subst d
            simp [ReturnSlot.released, ReturnSlot.leftBy, hdft, hdo, hk]
          · simp [ReturnSlot.released, ReturnSlot.leftBy, hdo, d, Ne.symm d, this]
        · rw [if_neg hk]
          rw [not_or] at hk
          simp [ReturnSlot.leftBy, hdft, hk, this]
      · have : ¬ (v = t ∧ a = r.admission) := fun z => c z.1
        have hrel : (if r.kind = .read ∨ r.kind = .verify
            then (ReturnSlot.fetching ⟨v, a⟩ i y).released ⟨t, r.admission⟩ false else .fetching ⟨v, a⟩ i y) = .fetching ⟨v, a⟩ i y := by
          split
          · simp [ReturnSlot.released, c]
          · rfl
        rw [hrel]
        unfold ReturnSlot.leftBy
        dsimp only
        rw [hl1]
        simp [c]
    | filled o i y d =>
      have hl1 := hleftF o
      have hl2 := habort o
      obtain ⟨v, a⟩ := o
      dsimp only at hl1 hl2
      by_cases c : v = t
      · subst c
        have : v ∉ others := fun z => ((hmo v).1 z).1 rfl
        have hna : s.abortsOwner v ⟨v, a⟩ = false := by rw [← hl2]; simp [this]
        by_cases hk : r.kind = .read ∨ r.kind = .verify
        · rw [if_pos hk]
          by_cases d : a = r.admission
          · subst d
            simp [ReturnSlot.released, ReturnSlot.leftBy, hdft, hdo, hk]
          · simp [ReturnSlot.released, ReturnSlot.leftBy, hdo, d, Ne.symm d, this, hna]
        · rw [if_neg hk]
          rw [not_or] at hk
          simp [ReturnSlot.leftBy, hdft, hk, this, hna]
      · have hrel : (if r.kind = .read ∨ r.kind = .verify
            then (ReturnSlot.filled ⟨v, a⟩ i y d).released ⟨t, r.admission⟩ false else .filled ⟨v, a⟩ i y d) = .filled ⟨v, a⟩ i y d := by
          split
          · simp [ReturnSlot.released, c]
          · rfl
        rw [hrel]
        unfold ReturnSlot.leftBy
        dsimp only
        rw [Bool.and_or_distrib_left, hl1, hl2]
        simp [c]
  · rw [← hX]
    show L.slot i = _
    rw [hL.slot]
    have h1 : E.1.slot i = D.slot i := by rw [hE]; exact hAsl i
    rw [h1, hDs]
    cases hs : s.slot i with
    | filling y o m =>
      have hl1 := hleft o
      obtain ⟨v, a⟩ := o
      dsimp only at hl1
      have hi : i ∈ l ↔ r.kind = .write ∧ v = t ∧ a = r.admission := by
        rw [hl, hs]
        constructor
        · rintro ⟨h, _, _, h'⟩; cases h'; exact ⟨h, rfl, rfl⟩
        · rintro ⟨h, rfl, rfl⟩; exact ⟨h, _, _, rfl⟩
      by_cases c : v = t
      · subst c
        have : v ∉ others := fun z => ((hmo v).1 z).1 rfl
        by_cases d : r.kind = .write ∧ a = r.admission
        · rw [if_pos (hi.2 ⟨d.1, rfl, d.2⟩)]
          simp [StagingSlot.leftBy, hdt, hdo, d]
        · rw [if_neg (fun z => d ⟨(hi.1 z).1, (hi.1 z).2.2⟩)]
          have : (decide (r.kind = .write) && decide (r.admission = a)) = false := by
            rw [← Bool.not_eq_true]; intro z; simp at z; exact d ⟨z.1, z.2.symm⟩
          simp only [StagingSlot.leftBy, hdt, hdo, this]
          simp [‹v ∉ others›]
      · rw [if_neg (fun z => c (hi.1 z).2.1)]
        unfold StagingSlot.leftBy
        dsimp only
        rw [hl1]
        simp [c]
    | _ =>
      have : i ∉ l := by rw [hl, hs]; rintro ⟨_, _, _, h⟩; cases h
      rw [if_neg this]
      rfl
  · rw [← hX]
    show L.staging.drainOrder = _
    rw [hLe, hE, hA, hR, hD]
  · rw [← hX]
    show L.log = _
    rw [hLe, hE, hA, hR, hD]
    rfl
  · have h1 : ({ X with notices := n2 } : State).notice k = n2.pending.find? (fun n => n.key = k) := rfl
    refine Eq.trans (hN k) ?_
    have hXn : ∀ j, X.notice j = ns.pending.find? (fun m => m.key = j) := fun j => by
      rw [← hX]
      show L.notice j = _
      rw [hLe, hE, hA]
      rfl
    have hDn : ∀ j, (enterReporting t st x D).notice j = s.notice j := fun j => by rw [hR, hD]; rfl
    have hDl : (enterReporting t st x D).log.nextNumber = s.log.nextNumber := by rw [hR, hD]
    by_cases c : k = ⟨.queueHalted, none⟩
    · rw [if_pos c, if_pos c, c, hXn, hAn, if_neg (by simp), hDn]
    · rw [if_neg c, if_neg c, hXn, hAn, hDl, hDn]
  · rw [← hX]; exact hms
  · rw [← hX]; show L.params = _; rw [hLe, hE, hA, hR, hD]

/-! ## The end of the event -/

/-- A fault that halts the queue, and then the end of the event. -/
theorem State.haltsOn.ends {s t u : State} {x : Tag} {st : CompletionStatus} {y : Option Nat} {c : HistoryCause}
    (h : s.haltsOn t x st y c) (k : t.endsAs u) : s.haltsOn u x st y c := by
  obtain ⟨n, b, e⟩ := evalPressure_eq t
  have hnot : ∀ j, j ≠ ⟨.stagingHigh, none⟩ → (evalPressure t).notice j = t.notice j := by
    intro j hj
    unfold evalPressure
    split
    · split <;> rfl
    · split
      · refine (raise_notice ⟨.stagingHigh, none⟩ j (.count t.nonFree)
          { t with staging := { t.staging with pressure := true } }).trans ?_
        rw [if_neg hj]
        rfl
      · rfl
  obtain ⟨k1, k2, k3, k4, k5, k6, k7, _⟩ := k
  rw [e] at k1 k2 k3 k4 k6 k7
  have hq : ∀ v, u.request v = t.request v := fun v => by unfold State.request; rw [k1]
  have hw : ∀ v, u.writeRecord v = t.writeRecord v := fun v => by unfold State.writeRecord; rw [k2]
  have hf : ∀ v, u.fetchRecord v = t.fetchRecord v := fun v => by unfold State.fetchRecord; rw [k2]
  have hr : ∀ v, u.returnSlot v = t.returnSlot v := fun v => by unfold State.returnSlot; rw [k2]
  have hs : ∀ v, u.slot v = t.slot v := fun v => by unfold State.slot; rw [k3]
  have hn : ∀ j, j ≠ ⟨.stagingHigh, none⟩ → u.notice j = t.notice j := fun j hj => by
    rw [← hnot j hj]
    unfold State.notice
    rw [k5]
  obtain ⟨r, a1, a2, a3, a4, a5, a6, a7, a8, a9, a10, a11, a12, a13, a14, a15, a16, a17⟩ := h
  refine ⟨r, a1, by rw [hq]; exact a2, by rw [k1]; exact a3, fun v => by rw [hq]; exact a4 v, fun v => by rw [hq]; exact a5 v,
    by rw [k1]; exact a6, by rw [k1]; exact a7, by rw [k1]; exact a8, fun v => by rw [hw]; exact a9 v,
    fun v => by rw [hf]; exact a10 v, fun v => by rw [hr]; exact a11 v, fun v => by rw [hs]; exact a12 v,
    by rw [k3]; exact a13, by rw [k6]; exact a14, fun j hj => by rw [hn j hj]; exact a15 j hj, by rw [k4]; exact a16,
    by rw [k7]; exact a17⟩

/-- Every request is over, or ends with its operation. -/
def State.allOver (s : State) : Prop := ∀ v q, s.request v = some q → q.state = .aborting ∨ q.state = .reporting

theorem State.haltsOn.over {s t : State} {x : Tag} {st : CompletionStatus} {y : Option Nat} {c : HistoryCause}
    (h : s.haltsOn t x st y c) : t.allOver := by
  obtain ⟨r, a1, a2, a3, a4, a5, _⟩ := h
  intro v q hq
  by_cases hv : v = x
  · subst hv
    rw [a2] at hq
    cases hq
    simp
  · cases hs : s.request v with
    | none => rw [a4 v hv hs] at hq; cases hq
    | some p =>
      obtain ⟨p', h1, _, _, _, _, _, h2, _, h3, h4⟩ := a5 v p hv hs
      rw [hq] at h1
      cases h1
      by_cases c1 : s.flushedBy x v = true
      · rw [(h3 c1).1]; simp
      · by_cases c2 : p.state = .reporting ∨ p.state = .aborting
        · rw [h2 c2]
          exact c2.symm
        · have hend : s.haltEnds x v = true := by
            unfold State.haltEnds
            rw [hs]
            simp only [Bool.not_eq_true] at c1
            rw [c1]
            simp only [not_or] at c2
            cases e : p.state <;> simp_all
          have := (h4 hend).2
          split at this
          · exact .inl this
          · exact .inr this.1

theorem State.allOver.waits {s : State} (h : s.allOver) (v : Tag) : ¬ s.waits v := by
  rintro ⟨q, _, _, h1, _, h2, _⟩
  rcases h v q h1 with k | k <;> rw [h2] at k <;> cases k

theorem State.allOver.wantsReturn {s : State} (h : s.allOver) (v : Tag) : ¬ s.wantsReturn v := by
  rintro ⟨q, _, _, h1, _, h2, _⟩
  rcases h v q h1 with k | k <;> rw [h2] at k <;> cases k

/-- A request that is over takes no fault (R41, R132, R134). -/
theorem State.allOver.fault {s : State} (h : s.allOver) (t : Tag) (st : CompletionStatus) (x : Option Nat) (c : HistoryCause) :
    requestFault t st x c s = s := by
  unfold requestFault
  cases hr : s.request t with
  | none => rfl
  | some r =>
    dsimp only
    rw [if_neg]
    rcases h t r hr with k | k <;> simp [k]

theorem State.allOver.strandRequest {s : State} (h : s.allOver) (i : SlotNo) (x : Nat) (c : HistoryCause) (t : Tag) :
    Sys2Proof.Machine.strandRequest i x c t s = s := by
  unfold Sys2Proof.Machine.strandRequest
  split
  · rfl
  · split
    · exact h.fault _ _ _ _
    · rfl

theorem State.allOver.strandFetch {s : State} (h : s.allOver) (x : Nat) (c : HistoryCause) (t : Tag) :
    Sys2Proof.Machine.strandFetch x c t s = s := by
  unfold Sys2Proof.Machine.strandFetch
  split
  · rfl
  · split
    · rfl
    · split
      · exact h.fault _ _ _ _
      · rfl

theorem State.allOver.failWaiting {s : State} (h : s.allOver) (p : Port) (t : Tag) :
    Sys2Proof.Machine.failWaiting p t s = s := by
  unfold Sys2Proof.Machine.failWaiting
  split
  · rfl
  · split
    · rfl
    · split
      · exact h.fault _ _ _ _
      · rfl

end Sys2Proof.Machine
end

