-- ==== Sys2Proof/Laws/DrainEnds.lean ====
section
/-! SUPPORT. The end of a drain by a failure while a newer copy of its block is STRANDED: the FLUSH that held the drained slot
faults at once, and the queue halts (R81, R92). -/

namespace Sys2Proof.Machine

theorem replacedFor_idle {i n : SlotNo} {z : Nat} {t : Tag} {s : State} (hw : s.noDrainWait z)
    (h : ∀ q, s.request t = some q → i ∉ q.flushSet ∧ i ∉ q.settleSet) : replacedFor i n z t s = s := by
  have f1 : flushReplace i n t s = s := by
    unfold flushReplace
    split
    · rfl
    next q hq => rw [if_neg (h q hq).1]
  have f2 : settleLeave i t s = s := by
    unfold settleLeave
    split
    · rfl
    next q hq => rw [if_neg (h q hq).2]
  unfold replacedFor
  dsimp only
  rw [f1, f2]
  cases hq : s.request t with
  | none => exact drainWaitEnd_idle hw t
  | some q =>
    dsimp only
    rw [decide_eq_false (h q hq).1]
    exact drainWaitEnd_idle hw t

/-- The sets of every request after a halt, from those before it. -/
theorem State.haltsOn.sets {s t : State} {x : Tag} {st : CompletionStatus} {y : Option Nat} {c : HistoryCause}
    (h : s.haltsOn t x st y c) {v : Tag} {p : Request} (hp : t.request v = some p) :
    (p.flushSet = [] ∧ p.settleSet = []) ∨ (v ≠ x ∧ s.request v = some p) := by
  obtain ⟨r, a1, a2, a3, a4, a5, _⟩ := h
  by_cases hv : v = x
  · subst hv
    rw [a2] at hp
    cases hp
    exact .inl ⟨rfl, rfl⟩
  · cases hq : s.request v with
    | none => rw [a4 v hv hq] at hp; cases hp
    | some q =>
      obtain ⟨p', h1, _, _, _, _, _, h2, h3, _⟩ := a5 v q hv hq
      rw [hp] at h1
      cases h1
      by_cases e : q.state = .reporting ∨ q.state = .aborting
      · exact .inr ⟨hv, by rw [h2 e]⟩
      · exact .inl (h3 e).2

theorem State.haltsOn.noDrainWait {s t : State} {x : Tag} {st : CompletionStatus} {y : Option Nat} {c : HistoryCause}
    (h : s.haltsOn t x st y c) {z : Nat} (hw : s.noDrainWait z) : t.noDrainWait z := by
  obtain ⟨r, _, _, _, _, _, _, _, _, _, h10, _⟩ := h
  intro u f v hf
  rw [h10] at hf
  split at hf
  · cases hf
  · exact hw u f v hf

/-- A drain that fails while a newer STRANDED copy is held, in a part where the FLUSH of tag `u` alone holds the slot. -/
theorem drainFailure_stranded {i n : SlotNo} {z : Nat} {m mk : Bool} {data old : List Byte} {reason : StrandReason} {s : State}
    {u : Tag} {r : Request} (e : OpFailure) (hi : s.slot i = .draining z m data) (hn : s.newestCopy z = some n)
    (hs : s.slot n = .stranded z mk old reason) (hw : s.noDrainWait z) (ht : TableGood s) (hsn : s.table.snapshot = none)
    (hr : s.request u = some r) (hst : r.state = .settling) (hm : i ∈ r.flushSet)
    (ho : ∀ v q, s.request v = some q → (v ≠ u → i ∉ q.flushSet) ∧ i ∉ q.settleSet) :
    ∃ S, drainFailure i e s = (S, []) ∧
      ((s.setStaging i .free).setRequest u { r with flushSet := setInsert n (setRemove i r.flushSet) }).haltsOn S u
        .mediaError (some z) reason.cause := by
  have hni : n ≠ i := by
    rintro rfl
    rw [hi] at hs
    cases hs
  generalize hA : s.setStaging i .free = A
  have hAs : A.slot n = .stranded z mk old reason := by rw [← hA, State.slot_setStaging, if_neg hni, hs]
  have hAr : ∀ v, A.request v = s.request v := fun v => by rw [← hA]; rfl
  have hAw : A.noDrainWait z := by rw [← hA]; exact hw
  generalize hB : A.setRequest u { r with flushSet := setInsert n (setRemove i r.flushSet) } = B
  have hBr : ∀ v, B.request v = if v = u then some { r with flushSet := setInsert n (setRemove i r.flushSet) } else s.request v :=
    fun v => by rw [← hB, State.request_setRequest, hAr]
  have hBt : TableGood B := by
    refine ⟨by rw [← hB, ← hA]; exact ht.1, fun v => ?_⟩
    have : B.table.admissionOrder = s.table.admissionOrder := by rw [← hB, ← hA]; rfl
    rw [this, ht.2 v, hBr]
    split
    next h => rw [h, hr]; simp
    · rfl
  have H := requestFault_halts (r := { r with flushSet := setInsert n (setRemove i r.flushSet) }) hBt (by rw [hBr, if_pos rfl]) (.inr hst) (by rw [← hB, ← hA]; exact hsn) .mediaError (some z)
    reason.cause
  generalize hF : requestFault u .mediaError (some z) reason.cause B = F at H
  have hBw : B.noDrainWait z := by rw [← hB]; exact hAw
  have hFw := H.noDrainWait hBw
  have at_u : replacedFor i n z u A = F := by
    have f1 : flushReplace i n u A = B := by
      unfold flushReplace
      rw [hAr, hr]
      dsimp only
      rw [if_pos hm, hB]
    have f2 : settleLeave i u B = B := by
      unfold settleLeave
      rw [hBr, if_pos rfl]
      dsimp only
      rw [if_neg (ho u r hr).2]
    unfold replacedFor
    dsimp only
    rw [f1, f2, hAr, hr, show B.slot n = .stranded z mk old reason by rw [← hB]; exact hAs]
    dsimp only
    rw [decide_eq_true hm]
    dsimp only
    rw [hF]
    exact drainWaitEnd_idle hFw u
  have after : ∀ v, replacedFor i n z v F = F := by
    intro v
    refine replacedFor_idle hFw (fun q hq => ?_)
    rcases H.sets hq with ⟨h1, h2⟩ | ⟨h1, h2⟩
    · rw [h1, h2]; simp
    · rw [hBr, if_neg h1] at h2
      exact ⟨(ho v q h2).1 h1, (ho v q h2).2⟩
  obtain ⟨pre, post, hsplit⟩ := List.append_of_mem ((ht.2 u).2 (by rw [hr]; rfl))
  have hu : u ∉ pre := by
    have := ht.1
    rw [hsplit, List.nodup_append] at this
    exact fun h => this.2.2 u h u (List.mem_cons_self ..) rfl
  have W : forAdmitted (replacedFor i n z) A = F := by
    refine forAdmitted_first _ (pre := pre) (post := post) (x := u) (by rw [← hA]; exact hsplit) (fun v hv => ?_) at_u after
    refine replacedFor_idle hAw (fun q hq => ?_)
    rw [hAr] at hq
    exact ⟨(ho v q hq).1 (fun c => hu (c ▸ hv)), (ho v q hq).2⟩
  refine ⟨F, ?_, H⟩
  unfold drainFailure
  rw [hi]
  dsimp only
  rw [hn, hA]
  dsimp only
  rw [W, formGrants_idle H.over.waits, assignReturns_idle H.over.wantsReturn]

end Sys2Proof.Machine
end

