-- ==== Sys2Proof/Laws/Sleep.lean ====
section
/-! SUPPORT. SLEEP asked of every idle port: what becomes of each port and its mark (R114, R163, R164, R167). -/

namespace Sys2Proof.Machine

theorem targetable_isTargetPort (s : State) (p : Port) : (s.port p).cls.targetable = s.isTargetPort p := by
  unfold State.isTargetPort; cases (s.port p).cls <;> decide

/-- Port `p` of `s` as `t` has it once it was asked for SLEEP if idle; an idle mark is `m` where it was not asked. -/
def Slept (s t : State) (m : SleepMark) (p : Port) : Prop :=
  (s.laneIdle p = true → s.isTargetPort p = true → t.mark p = .pending ∧
    t.port p = { s.port p with engine := .busy, op := some ⟨.sleep, .power, 1, s.clock + 15, false⟩ }) ∧
  (s.laneIdle p = true → s.isTargetPort p = false → t.mark p = .declined ∧ t.port p = s.port p) ∧
  (s.laneIdle p = false → t.mark p = m ∧ t.port p = s.port p)

/-- One idle port asked for SLEEP. -/
theorem askSleep_port (p q : Port) (s : State) (h : s.laneIdle p = true) :
    (askSleep p s).port q = (if q = p ∧ s.isTargetPort p = true
      then { s.port p with engine := .busy, op := some ⟨.sleep, .power, 1, s.clock + 15, false⟩ } else s.port q) ∧
    (askSleep p s).mark q = (if q = p then (if s.isTargetPort p = true then .pending else .declined) else s.mark q) ∧
    ∃ v m, askSleep p s = { s with ports := v, power := { s.power with marks := m } } := by
  unfold State.laneIdle at h
  simp only [Bool.and_eq_true, decide_eq_true_eq] at h
  unfold askSleep
  rw [if_neg (by rw [h.1]; simp), targetable_isTargetPort]
  by_cases ht : s.isTargetPort p = true
  · rw [if_pos ⟨h.1, h.2, ht⟩]
    refine ⟨?_, ?_, _, _, rfl⟩
    · by_cases e : q = p
      · subst e; simp [startOp, ht]; rfl
      · simp [startOp, e]
    · by_cases e : q = p
      · subst e; simp [startOp, ht]
      · simp [startOp, e]
  · rw [if_neg (by rintro ⟨_, _, x⟩; exact ht x)]
    refine ⟨?_, ?_, s.ports, _, rfl⟩
    · simp [ht]
    · by_cases e : q = p
      · subst e; simp [ht]
      · simp [e]

theorem askSleep_walk (l : List Port) (t : State) (hn : l.Nodup) :
    (∃ v m, l.foldl (fun acc p => if acc.laneIdle p then askSleep p acc else acc) t =
      { t with ports := v, power := { t.power with marks := m } }) ∧
    ∀ p, (p ∉ l → (l.foldl (fun acc p => if acc.laneIdle p then askSleep p acc else acc) t).mark p = t.mark p ∧
        (l.foldl (fun acc p => if acc.laneIdle p then askSleep p acc else acc) t).port p = t.port p) ∧
      (p ∈ l → Slept t (l.foldl (fun acc p => if acc.laneIdle p then askSleep p acc else acc) t) (t.mark p) p) := by
  induction l generalizing t with
  | nil => exact ⟨⟨t.ports, t.power.marks, rfl⟩, fun p => ⟨fun _ => ⟨rfl, rfl⟩, fun h => by cases h⟩⟩
  | cons a l ih =>
    rw [List.nodup_cons] at hn
    rw [List.foldl_cons]
    by_cases ha : t.laneIdle a = true
    · rw [if_pos ha]
      obtain ⟨⟨v, m, e⟩, k⟩ := ih (askSleep a t) hn.2
      obtain ⟨_, _, v', m', e'⟩ := askSleep_port a a t ha
      refine ⟨⟨v, m, by rw [e, e']⟩, fun p => ?_⟩
      obtain ⟨p1, p2, _⟩ := askSleep_port a p t ha
      have k := k p
      generalize List.foldl _ _ _ = T at k ⊢
      by_cases hp : p = a
      · subst hp
        obtain ⟨k1, k2⟩ := k.1 hn.1
        rw [p2] at k1
        rw [p1] at k2
        refine ⟨fun h => absurd List.mem_cons_self h, fun _ => ⟨fun _ h => ?_, fun _ h => ?_, fun h => ?_⟩⟩
        · rw [k1, k2]; simp [h]
        · rw [k1, k2]; simp [h]
        · rw [ha] at h; cases h
      · rw [if_neg hp] at p2
        rw [if_neg (by simp [hp])] at p1
        have l1 : (askSleep a t).laneIdle p = t.laneIdle p := by unfold State.laneIdle; rw [p1]
        have l2 : (askSleep a t).isTargetPort p = t.isTargetPort p := by unfold State.isTargetPort; rw [p1]
        have l3 : (askSleep a t).clock = t.clock := by rw [e']
        unfold Slept at k
        rw [l1, l2, l3, p1, p2] at k
        exact ⟨fun h => k.1 (fun hm => h (List.mem_cons_of_mem _ hm)),
          fun h => k.2 ((List.mem_cons.1 h).resolve_left hp)⟩
    · rw [if_neg ha]
      obtain ⟨e, k⟩ := ih t hn.2
      refine ⟨e, fun p => ?_⟩
      have k := k p
      generalize List.foldl _ _ _ = T at k ⊢
      by_cases hp : p = a
      · subst hp
        exact ⟨fun h => absurd List.mem_cons_self h,
          fun _ => ⟨fun h _ => absurd h ha, fun h _ => absurd h ha, fun _ => k.1 hn.1⟩⟩
      · exact ⟨fun h => k.1 (fun hm => h (List.mem_cons_of_mem _ hm)),
          fun h => k.2 ((List.mem_cons.1 h).resolve_left hp)⟩

/-- SLEEP asked of every idle port, marks cleared first. -/
theorem sleepAll_spec (s : State) :
    (∃ v m, sleepAll s = { s with ports := v, power := { s.power with marks := m } }) ∧
      ∀ p, Slept s (sleepAll s) .clear p := by
  obtain ⟨⟨v, m, e⟩, k⟩ := askSleep_walk allPorts s.clearMarks (by decide)
  refine ⟨⟨v, m, e⟩, fun p => ?_⟩
  have k := (k p).2 (by revert p; decide)
  have hc : s.clearMarks.mark p = .clear := by
    show (Vector.replicate 4 SleepMark.clear)[p] = _
    simp
  rw [hc] at k
  exact k

/-- Once SLEEP was asked of every idle port, the end of the event asks no other and leaves the idle timer stopped. -/
theorem settle_slept {S s : State} (hr : S.resting = true) (h : ∀ p, Slept s S .clear p) :
    settle S = S.setIdleTimer none := by
  have hz : restPorts S = S := by
    unfold restPorts
    refine foldl_idle _ _ _ (fun p _ => ?_)
    unfold restPort
    rw [if_neg]
    intro hc
    simp only [Bool.and_eq_true, decide_eq_true_eq] at hc
    obtain ⟨⟨⟨_, h2⟩, _⟩, h3⟩ := hc
    obtain ⟨a, b, c⟩ := h p
    cases h4 : s.laneIdle p with
    | false =>
      have := (c h4).2
      unfold State.laneIdle at h2 h4
      rw [this] at h2
      rw [h2] at h4
      cases h4
    | true =>
      cases h5 : s.isTargetPort p with
      | true => have := (a h4 h5).1; rw [h3] at this; cases this
      | false => have := (b h4 h5).1; rw [h3] at this; cases this
  unfold settle
  rw [hz]
  unfold evalIdle
  rw [if_neg]
  unfold State.idleConditions
  unfold State.resting at hr
  intro hc
  simp only [Bool.and_eq_true, decide_eq_true_eq, Bool.or_eq_true] at hc hr
  rw [hc.1.1.1.1.1.1] at hr
  simp at hr

end Sys2Proof.Machine
end

