-- ==== Sys2Proof/Laws/Validate.lean ====
section
/-! SUPPORT. Validation of the draft: the walk over the extents finds the lowest failing index and the first check it
fails, as `draftFails` states them (R20). -/

namespace Sys2Proof.Machine

/-- The enabled extents of index below `k`. -/
def lowerExtents (L : List Extent) (k : Nat) : List Extent := (L.take k).filter (·.enabled)

theorem mem_lowerExtents (v : Vector Extent 8) (k : Fin 8) (f : Extent) :
    f ∈ lowerExtents v.toList k.val ↔ ∃ j, j < k ∧ v[j].enabled = true ∧ v[j] = f := by
  unfold lowerExtents
  rw [List.mem_filter, List.mem_take_iff_getElem]
  constructor
  · rintro ⟨⟨j, hj, he⟩, hf⟩
    have h8 : j < 8 := by have := k.isLt; omega
    refine ⟨⟨j, h8⟩, by show j < k.val; omega, ?_, ?_⟩
    · show (v.toList[j]'(by simp; omega)).enabled = true
      rw [he]; exact hf
    · exact he
  · rintro ⟨j, hj, he, hf⟩
    have hj' : j.val < k.val := hj
    refine ⟨⟨j.val, by have := k.isLt; simp; omega, ?_⟩, by rw [← hf]; exact he⟩
    exact hf

/-- The first check an enabled extent fails against the enabled extents of lower index. -/
theorem State.extentFault_spec (s : State) (k : Fin 8) (he : (s.mapStore.draft.extents[k]).enabled = true) :
    (∀ r, s.draftFails k r → (∀ x : InvalidReason, x.code < r.code → ¬ s.draftFails k x) →
      s.extentFault (lowerExtents s.mapStore.draft.extents.toList k.val) s.mapStore.draft.extents[k] = some r) ∧
    ((∀ r, ¬ s.draftFails k r) →
      s.extentFault (lowerExtents s.mapStore.draft.extents.toList k.val) s.mapStore.draft.extents[k] = none) := by
  have z : s.draftFails k .zeroLength ↔ (s.mapStore.draft.extents[k]).length = 0 := by
    refine (and_iff_right he).trans ?_
    show (s.mapStore.draft.extents[k]).length.toNat = 0 ↔ _
    rw [BitVec.toNat_eq]; rfl
  have p : s.draftFails k .portNotTarget ↔ (!(s.port (s.mapStore.draft.extents[k]).port).cls.targetable) = true := by
    refine (and_iff_right he).trans ?_
    rw [targetable_isTargetPort, Bool.not_eq_true']
  have rg : s.draftFails k .range ↔ (0x1000000 < (s.mapStore.draft.extents[k]).first.toNat +
      (s.mapStore.draft.extents[k]).length.toNat ∨ (s.mapStore.draft.extents[k]).base.toNat < Config.firstDataPbn ∨
      s.capacity (s.mapStore.draft.extents[k]).port < (s.mapStore.draft.extents[k]).base.toNat +
        (s.mapStore.draft.extents[k]).length.toNat) := and_iff_right he
  have ol : s.draftFails k .overlapLogical ↔ (lowerExtents s.mapStore.draft.extents.toList k.val).any
      (fun f => f.overlapsLogical s.mapStore.draft.extents[k]) = true := by
    refine (and_iff_right he).trans ?_
    rw [List.any_eq_true]
    simp only [mem_lowerExtents, Extent.overlapsLogical_iff]
    constructor
    · rintro ⟨j, h1, h2, x, h3, h4⟩; exact ⟨_, ⟨j, h1, h2, rfl⟩, x, h3, h4⟩
    · rintro ⟨f, ⟨j, h1, h2, rfl⟩, x, h3, h4⟩; exact ⟨j, h1, h2, x, h3, h4⟩
  have op : s.draftFails k .overlapPhysical ↔ (lowerExtents s.mapStore.draft.extents.toList k.val).any
      (fun f => f.overlapsPhysical s.mapStore.draft.extents[k]) = true := by
    refine (and_iff_right he).trans ?_
    rw [List.any_eq_true]
    simp only [mem_lowerExtents, Extent.overlapsPhysical_iff]
    constructor
    · rintro ⟨j, h1, h2, h3, n, h4⟩; exact ⟨_, ⟨j, h1, h2, rfl⟩, h3, n, h4⟩
    · rintro ⟨f, ⟨j, h1, h2, rfl⟩, h3, n, h4⟩; exact ⟨j, h1, h2, h3, n, h4⟩
  unfold State.extentFault
  refine ⟨fun r h1 h2 => ?_, fun h => ?_⟩
  · have z2 := h2 .zeroLength
    have p2 := h2 .portNotTarget
    have rg2 := h2 .range
    have ol2 := h2 .overlapLogical
    cases r <;> simp only [InvalidReason.code, BitVec.reduceLT, forall_const, false_imp_iff] at z2 p2 rg2 ol2 <;> grind
  · grind

/-- One step of the walk. -/
theorem State.validateFrom_step (s : State) (k : Fin 8) :
    s.validateFrom k.val (lowerExtents s.mapStore.draft.extents.toList k.val) (s.mapStore.draft.extents.toList.drop k.val) =
      match (if (s.mapStore.draft.extents[k]).enabled then
        s.extentFault (lowerExtents s.mapStore.draft.extents.toList k.val) s.mapStore.draft.extents[k] else none) with
      | some r => some (r, k.val)
      | none => s.validateFrom (k.val + 1) (lowerExtents s.mapStore.draft.extents.toList (k.val + 1))
          (s.mapStore.draft.extents.toList.drop (k.val + 1)) := by
  have hk : k.val < s.mapStore.draft.extents.toList.length := by simp
  have hl : lowerExtents s.mapStore.draft.extents.toList (k.val + 1) =
      lowerExtents s.mapStore.draft.extents.toList k.val ++
        (if (s.mapStore.draft.extents[k]).enabled then [s.mapStore.draft.extents[k]] else []) := by
    unfold lowerExtents
    rw [List.take_add_one, List.getElem?_eq_getElem hk, List.filter_append]
    congr 1
    show List.filter _ [s.mapStore.draft.extents[k]] = _
    rw [List.filter_cons]
    all_goals rfl
  rw [List.drop_eq_getElem_cons hk, hl]
  show s.validateFrom k.val _ (s.mapStore.draft.extents[k] :: _) = _
  rw [State.validateFrom]
  by_cases he : (s.mapStore.draft.extents[k]).enabled = true
  · rw [if_pos he, if_pos he, if_pos he]
    all_goals split <;> simp_all
  · rw [if_neg he, if_neg he, if_neg he, List.append_nil]

theorem State.validateFrom_none (s : State) (h : ∀ i r, ¬ s.draftFails i r) (n : Nat) : ∀ k, k + n = 8 →
    s.validateFrom k (lowerExtents s.mapStore.draft.extents.toList k) (s.mapStore.draft.extents.toList.drop k) = none := by
  induction n with
  | zero =>
    intro k hk
    have : s.mapStore.draft.extents.toList.drop k = [] := by rw [List.drop_eq_nil_iff]; simp; omega
    rw [this]
    rfl
  | succ n ih =>
    intro k hk
    have hs := s.validateFrom_step ⟨k, by omega⟩
    refine hs.trans ?_
    have hf : (if (s.mapStore.draft.extents[(⟨k, by omega⟩ : Fin 8)]).enabled then
        s.extentFault (lowerExtents s.mapStore.draft.extents.toList k) s.mapStore.draft.extents[(⟨k, by omega⟩ : Fin 8)]
        else none) = none := by
      split
      next he => exact (s.extentFault_spec ⟨k, by omega⟩ he).2 (h _)
      · rfl
    rw [hf]
    exact ih (k + 1) (by omega)

/-- A draft no check of which fails passes validation (R20). -/
theorem State.validate_none {s : State} (h : ∀ i r, ¬ s.draftFails i r) : s.validate = none :=
  s.validateFrom_none h 8 0 rfl

theorem State.validateFrom_some (s : State) (i : Fin 8) (r : InvalidReason) (h : s.draftFails i r)
    (h1 : ∀ j x, j < i → ¬ s.draftFails j x) (h2 : ∀ x : InvalidReason, x.code < r.code → ¬ s.draftFails i x) (n : Nat) :
    ∀ k, k + n = i.val →
    s.validateFrom k (lowerExtents s.mapStore.draft.extents.toList k) (s.mapStore.draft.extents.toList.drop k) =
      some (r, i.val) := by
  induction n with
  | zero =>
    intro k hk
    obtain rfl : k = i.val := by omega
    refine (s.validateFrom_step i).trans ?_
    rw [if_pos h.1, (s.extentFault_spec i h.1).1 r h h2]
  | succ n ih =>
    intro k hk
    have hlt : k < 8 := by have := i.isLt; omega
    refine (s.validateFrom_step ⟨k, hlt⟩).trans ?_
    have hf : (if (s.mapStore.draft.extents[(⟨k, hlt⟩ : Fin 8)]).enabled then
        s.extentFault (lowerExtents s.mapStore.draft.extents.toList k) s.mapStore.draft.extents[(⟨k, hlt⟩ : Fin 8)]
        else none) = none := by
      split
      next he => exact (s.extentFault_spec ⟨k, hlt⟩ he).2 (fun x => h1 _ x (by show k < i.val; omega))
      · rfl
    rw [hf]
    exact ih (k + 1) (by omega)

/-- The lowest failing index, with the first check it fails, is what validation answers (R20). -/
theorem State.validate_some {s : State} {i : Fin 8} {r : InvalidReason} (h : s.draftFails i r)
    (h1 : ∀ j x, j < i → ¬ s.draftFails j x) (h2 : ∀ x : InvalidReason, x.code < r.code → ¬ s.draftFails i x) :
    s.validate = some (r, i.val) :=
  s.validateFrom_some i r h h1 h2 i.val 0 (Nat.zero_add _)

/-- The ports a commit takes as targets. -/
theorem State.targetPorts_eq (s : State) : s.targetPorts = allPorts.filter s.isTargetPort := by
  unfold State.targetPorts
  congr 1
  funext p
  exact targetable_isTargetPort s p

/-- The quiesce condition, as R145 states it. -/
theorem State.quiesceCondition_iff (s : State) : s.quiesceCondition = true ↔ s.quiesced := by
  unfold State.quiesceCondition State.allFree State.quiet State.quiesced
  rw [Bool.and_eq_true, List.all_eq_true, List.all_eq_true]
  have ht : ∀ t : Tag, t ∈ allTags := by decide
  have hi : ∀ i : SlotNo, i ∈ allSlots := by decide
  simp only [ht, hi, forall_const, Option.isNone_iff_eq_none, Bool.or_eq_true]

/-- A quiesce evaluation in QUIESCE (R145). -/
theorem evalQuiesce_eq {s : State} {c : Commit} {m : Nat} (hc : s.mapStore.commit = some c) (hm : c.phase = .quiesce m) :
    (s.quiesced → evalQuiesce s = s.setCommit (some c.asked)) ∧ (¬ s.quiesced → evalQuiesce s = s) := by
  unfold evalQuiesce
  rw [hc]
  dsimp only
  rw [hm]
  dsimp only
  refine ⟨fun h => ?_, fun h => ?_⟩
  · rw [if_pos (s.quiesceCondition_iff.2 h)]
    have : copySlot c.generation = if c.generation.toNat % 2 = 1 then 0 else 1 := by
      unfold copySlot
      have : c.generation.getLsbD 0 = decide (c.generation.toNat % 2 = 1) := by
        rw [BitVec.getLsbD, Nat.testBit_zero]
      rw [this]
      simp
    rw [this]
    rfl
  · rw [if_neg (mt s.quiesceCondition_iff.1 h)]

/-- In any other state an evaluation changes nothing (R145). -/
theorem evalQuiesce_other {s : State} (h : s.mapStore.commit = none ∨ ¬ s.quiesced ∨
    ∃ c, s.mapStore.commit = some c ∧ ∀ m, c.phase ≠ .quiesce m) : evalQuiesce s = s := by
  unfold evalQuiesce
  rcases h with h | h | ⟨c, h, h2⟩
  · rw [h]
  · split
    · rfl
    · split
      · rw [if_neg (mt s.quiesceCondition_iff.1 h)]
      · rfl
      · rfl
  · rw [h]
    dsimp only
    split
    next m hm => exact absurd hm (h2 m)
    · rfl
    · rfl

end Sys2Proof.Machine
end

