-- ==== Sys2Proof/Laws/Records.lean ====
section
/-! SUPPORT. Map records: the record a map write puts down read back (R102, R139, R223). -/

namespace Sys2Proof.Machine

/-! ## Fields -/

theorem length_le (k n : Nat) : (le k n).length = k := by
  induction k generalizing n with
  | zero => rfl
  | succ k ih => rw [le, List.length_cons, ih]

theorem leVal_le (k n : Nat) (h : n < 256 ^ k) : leVal (le k n) = n := by
  induction k generalizing n with
  | zero =>
    rw [Nat.pow_zero] at h
    have : n = 0 := by omega
    rw [this]
    rfl
  | succ k ih =>
    rw [le, leVal, ih (n / 256) (by rw [Nat.pow_succ] at h; omega)]
    show (BitVec.ofNat 8 n).toNat + 256 * (n / 256) = n
    rw [BitVec.toNat_ofNat]
    omega

/-! ## Extent forms -/

theorem extentForm_length (e : Extent) : (extentForm e).length = 16 := by
  unfold extentForm zeros
  simp [length_le]

theorem portOfByte_byte (p : Port) : portOfByte (byte p.val) = some p := by revert p; decide

theorem field24_le (v : BitVec 24) (l : List Byte) : field24 (le 3 v.toNat ++ l) = v := by
  unfold field24
  rw [List.take_left' (length_le 3 _), leVal_le 3 _ v.isLt, BitVec.ofNat_toNat, BitVec.setWidth_eq]

theorem extentOfRecord_form (e : Extent) : extentOfRecord (extentForm e) = some e := by
  have h4 : (extentForm e).drop 4 = le 3 e.first.toNat ++ (le 3 e.length.toNat ++ (le 3 e.base.toNat ++ zeros 3)) := by
    simp [extentForm]
  have h7 : (extentForm e).drop 7 = le 3 e.length.toNat ++ (le 3 e.base.toNat ++ zeros 3) := by
    rw [show 7 = 4 + 3 from rfl, ← List.drop_drop, h4, List.drop_left' (length_le 3 _)]
  have h10 : (extentForm e).drop 10 = le 3 e.base.toNat ++ zeros 3 := by
    rw [show 10 = 7 + 3 from rfl, ← List.drop_drop, h7, List.drop_left' (length_le 3 _)]
  have ha : accessOfByte e.access.code = some e.access := by cases e.access <;> rfl
  unfold extentOfRecord
  dsimp only
  rw [h4, h7, h10, field24_le, field24_le, field24_le]
  show (if flagByte e.enabled = 1 then match accessOfByte e.access.code, portOfByte (byte e.port.val) with
      | some a, some p => some (⟨true, a, p, e.first, e.length, e.base⟩ : Extent)
      | _, _ => none
    else some ⟨false, (accessOfByte e.access.code).getD _, (portOfByte (byte e.port.val)).getD _, e.first, e.length, e.base⟩) = _
  rw [ha, portOfByte_byte]
  obtain ⟨en, ac, po, f, l, b⟩ := e
  cases en <;> rfl

theorem extentsOfRecord_forms (es : List Extent) (l : List Byte) :
    extentsOfRecord es.length (es.flatMap extentForm ++ l) = some es := by
  induction es with
  | nil => rfl
  | cons e es ih =>
    rw [List.flatMap_cons, List.append_assoc, List.length_cons, extentsOfRecord, List.take_left' (extentForm_length e),
      List.drop_left' (extentForm_length e), extentOfRecord_form, ih]

theorem extentVector_toList (v : Vector Extent 8) : extentVector v.toList = v := by
  refine Vector.ext (fun i h => ?_)
  have g : ∀ j (hj : j < 8), v.toList.getD j Extent.empty = v[j] := fun j hj => by
    rw [List.getD_eq_getElem?_getD, List.getElem?_eq_getElem (by simpa using hj)]
    simp
  match i, h with
  | 0, _ | 1, _ | 2, _ | 3, _ | 4, _ | 5, _ | 6, _ | 7, _ => exact g _ _

/-! ## Records -/

/-- The part of a record that its CRC-32 covers (R223). -/
def recordBody (st : RecordState) (generation pool : Word32) (m : Map) : List Byte :=
  le 4 Config.recordMark ++ ([1, st.code, 0, 0] ++ (le32 generation ++ (le32 pool ++ (extentForms m ++ zeros 108))))

theorem recordBytes_eq (st : RecordState) (g k : Word32) (m : Map) :
    recordBytes st g k m = recordBody st g k m ++ le32 (crc32 (recordBody st g k m)) := by
  unfold recordBytes recordBody
  simp only [List.append_assoc]

theorem extentForms_length (m : Map) : (extentForms m).length = 128 := by
  have : ∀ es : List Extent, (es.flatMap extentForm).length = 16 * es.length := fun es => by
    induction es with
    | nil => rfl
    | cons e es ih => rw [List.flatMap_cons, List.length_append, ih, extentForm_length, List.length_cons]; omega
  unfold extentForms
  rw [this]
  simp

theorem recordBody_length (st : RecordState) (g k : Word32) (m : Map) : (recordBody st g k m).length = 252 := by
  unfold recordBody le32 zeros
  simp only [List.length_append, length_le, extentForms_length, List.length_replicate, List.length_cons, List.length_nil]

/-- What a record gives when every test of its bytes but the structural ones passes. -/
def findingFrom (st : RecordState) (g k : Word32) : Option (List Extent) → Finding
  | none => .nothing
  | some es => if structuralOk (es.filter (·.enabled)) then .found st ⟨k, g, extentVector es⟩ else .nothing

theorem findingOf_record (st : RecordState) (g k : Word32) (m : Map) :
    findingOf (recordBytes st g k m) = if g ≠ 0 then findingFrom st g k (some m.extents.toList) else .nothing := by
  have b := recordBytes_eq st g k m
  have hl := recordBody_length st g k m
  have t252 : (recordBytes st g k m).take 252 = recordBody st g k m := by rw [b, List.take_left' hl]
  have d252 : (recordBytes st g k m).drop 252 = le32 (crc32 (recordBody st g k m)) := by rw [b, List.drop_left' hl]
  have t4 : (recordBytes st g k m).take 4 = le 4 Config.recordMark := by
    rw [b]
    unfold recordBody
    rw [List.append_assoc, List.take_left' (length_le 4 _)]
  have d32 : ∀ (w : Word32) (l : List Byte), (le32 w ++ l).drop 4 = l := fun w l => List.drop_left' (length_le 4 _)
  have d8 : (recordBytes st g k m).drop 8 = le32 g ++ (le32 k ++ (extentForms m ++ (zeros 108 ++ le32 (crc32 (recordBody st g k m))))) := by
    rw [b]
    generalize le32 (crc32 (recordBody st g k m)) = c
    unfold recordBody
    rw [List.append_assoc]
    refine (List.drop_drop (i := 4) (j := 4)).symm.trans ?_
    rw [List.drop_left' (length_le 4 _)]
    simp only [List.append_assoc]
    exact List.drop_left' rfl
  have d12 : (recordBytes st g k m).drop 12 = le32 k ++ (extentForms m ++ (zeros 108 ++ le32 (crc32 (recordBody st g k m)))) := by
    rw [show 12 = 8 + 4 from rfl, ← List.drop_drop, d8, d32]
  have d16 : (recordBytes st g k m).drop 16 = extentForms m ++ (zeros 108 ++ le32 (crc32 (recordBody st g k m))) := by
    rw [show 16 = 12 + 4 from rfl, ← List.drop_drop, d12, d32]
  have g4 : (recordBytes st g k m).getD 4 0 = 1 := by
    rw [b]; rfl
  have g5 : (recordBytes st g k m).getD 5 0 = st.code := by
    rw [b]; rfl
  have hw : ∀ w : Word32, BitVec.ofNat 32 (leVal (le32 w)) = w := fun w => by
    unfold le32
    rw [leVal_le 4 _ w.isLt, BitVec.ofNat_toNat, BitVec.setWidth_eq]
  have t32 : ∀ (w : Word32) (l : List Byte), (le32 w ++ l).take 4 = le32 w := fun w l => List.take_left' (length_le 4 _)
  have hx : extentsOfRecord 8 (extentForms m ++ (zeros 108 ++ le32 (crc32 (recordBody st g k m)))) = some m.extents.toList := by
    have := extentsOfRecord_forms m.extents.toList (zeros 108 ++ le32 (crc32 (recordBody st g k m)))
    rwa [Vector.length_toList] at this
  unfold findingOf
  dsimp only
  rw [t252, d252, t4, d8, d12, d16, g4, g5, t32, t32, hw, hw, hx, List.take_of_length_le (Nat.le_of_eq (show (le32 _).length = 4 from length_le 4 _)), hw]
  by_cases hg : g = 0
  · rw [if_neg (fun c => c.2.2.2.2 hg), if_neg (fun c => c hg)]
  · rw [if_pos ⟨leVal_le 4 _ (by decide), rfl, rfl, by cases st <;> simp [RecordState.code], hg⟩, if_pos hg]
    cases st <;> rfl

/-- The record a map write puts down is read back as itself exactly where its map passes the structural checks. -/
theorem findingOf_recordBytes (st : RecordState) (g k : Word32) (m : Map) :
    (g ≠ 0 → m.structural → findingOf (recordBytes st g k m) = .found st ⟨k, g, m.extents⟩) ∧
      (g = 0 ∨ ¬ m.structural → findingOf (recordBytes st g k m) = .nothing) := by
  rw [findingOf_record]
  unfold findingFrom
  dsimp only
  rw [extentVector_toList]
  refine ⟨fun hg hm => ?_, fun h => ?_⟩
  · rw [if_pos hg, if_pos ((Map.structural_iff m).2 hm)]
  · rcases h with h | h
    · rw [if_neg (fun c => c h)]
    · rw [if_neg (c := structuralOk _ = true) (fun c => h ((Map.structural_iff m).1 c)), ite_self]

end Sys2Proof.Machine
end

