-- ==== Sys2Proof/Laws/FetchEnds.lean ====
section
/-! SUPPORT. The end of a fetch's operation by a failure, the end of an ABORTING request, and the failure that takes a port
to FAILED, each said once (R63, R106, R116, R128, R132). -/

namespace Sys2Proof.Machine

/-- The status a failed fetch ends its request with (R63). -/
def OpFailure.status : OpFailure → CompletionStatus
  | .memberLost => .memberLost
  | .noResponse | .checkFail | .programFailed | .opTimeout => .mediaError

theorem fetchFailed_eq (t : Tag) (x : Fetch) (e : OpFailure) (s : State) :
    fetchFailed t x e s = assignReturns (requestFault t e.status (some x.lbn) e.cause s) := by
  cases e <;> rfl

/-- A request that is REPORTING keeps its outcome. -/
theorem outcome_kept {s t : State} (h : ∀ u, SameRequest (s.request u) (t.request u)) {u : Tag} {r : Request} (hr : s.request u = some r)
    (hs : r.state = .reporting) : ∃ q, t.request u = some q ∧ q.state = .reporting ∧ q.status = r.status ∧
      q.failingLbn = r.failingLbn ∧ q.blocksDone = r.blocksDone := by
  have k := h u
  rw [hr] at k
  cases hq : t.request u with
  | none => rw [hq] at k; exact k.elim
  | some q =>
    rw [hq] at k
    obtain ⟨_, k1, k2, _⟩ := k
    rw [hs] at k1
    exact ⟨q, rfl, by simpa [ReqState.laterStates] using k1, k2 hs⟩

theorem Near.outcome {s t : State} (h : Near s t) {u : Tag} {r : Request} (hr : s.request u = some r)
    (hs : r.state = .reporting) : ∃ q, t.request u = some q ∧ q.state = .reporting ∧ q.status = r.status ∧
      q.failingLbn = r.failingLbn ∧ q.blocksDone = r.blocksDone := outcome_kept h.requests hr hs

/-- A fault ends its request with the status and the block it is given, whether the queue is RUNNING or HALTED (R41). -/
theorem requestFault_outcome {s : State} {t : Tag} {r : Request} (hr : s.request t = some r)
    (ha : r.state = .active ∨ r.state = .settling) (st : CompletionStatus) (x : Option Nat) (c : HistoryCause) :
    ∃ q, (requestFault t st x c s).request t = some q ∧ q.state = .reporting ∧ q.status = some st ∧ q.failingLbn = x ∧
      q.blocksDone = r.blocksDone := by
  have hd : (dropWork t r s).request t = some r := by
    unfold dropWork
    cases hk : r.kind with
    | write => rw [← hr]; exact (dropWrite_spec t r.admission s t (by rw [hr]; rintro y ⟨⟩; rw [hk]; simp)).1
    | read => rw [← hr]; exact dropFetch_request _ _ _ _
    | verify => rw [← hr]; exact dropFetch_request _ _ _ _
    | flush => exact hr
  have h1 := enterReporting_request t st x (dropWork t r s) t
  rw [if_pos rfl, hd] at h1
  unfold requestFault
  rw [hr]
  dsimp only
  rw [if_pos ha]
  generalize enterReporting t st x (dropWork t r s) = X at h1 ⊢
  obtain ⟨q, k1, k2, k3, k4, k5⟩ := (calm_addEntry ⟨c, .request, some t, x, X.failingPort x, none, 0⟩ X).inner.outcome h1 rfl
  generalize addEntry _ X = Y at k1 ⊢
  split
  · exact ⟨q, k1, k2, k3, k4, k5⟩
  next hh =>
    obtain ⟨p, m1, m2, m3, m4, m5⟩ := outcome_kept (soft_haltQueue t st Y (by simpa using hh)
      (fun z hz => by rw [k1] at hz; cases hz; exact k2)).requests k1 k2
    exact ⟨p, m1, m2, m3.trans k3, m4.trans k4, m5.trans k5⟩

/-- A failed operation of an ACTIVE request halts the queue on it. -/
theorem fetchResult_halts {s : State} {w : Owner} {r : Request} {f : FetchRecord} {v : Fetch} (hg : TableGood s)
    (hr : s.request w.tag = some r) (ha : r.state = .active) (hf : s.fetchRecord w.tag = some f)
    (hw : f.admission = w.admission) (hv : f.fetch = some v) (hn : s.table.snapshot = none) (e : OpFailure) :
    s.haltsOn (fetchResult w (.error e) s) w.tag e.status (some v.lbn) e.cause := by
  have h := requestFault_halts hg hr (.inl ha) hn e.status (some v.lbn) e.cause
  unfold fetchResult
  rw [hr, hf]
  dsimp only
  rw [hv]
  dsimp only
  rw [if_pos hw, ha]
  dsimp only
  rw [fetchFailed_eq, assignReturns_idle h.over.wantsReturn]
  exact h

/-- A port is no longer POOLED: the fetch that waits for it first, in admission order, halts the queue (R62, R99, R134). -/
theorem failWaitingAll_halts {s : State} {p : Port} {u : Tag} {r : Request} {f : FetchRecord} {x : Fetch} (hg : TableGood s)
    (hn : s.table.snapshot = none) (hw : firstOf s.table.admissionOrder (fun v => s.waitsOn p v = true) u)
    (hr : s.request u = some r) (ha : r.state = .active) (hf : s.fetchRecord u = some f) (hx : f.fetch = some x) :
    s.haltsOn (failWaitingAll p s) u .memberLost (some x.lbn) .memberLost := by
  have h := requestFault_halts hg hr (.inl ha) hn .memberLost (some x.lbn) .memberLost
  obtain ⟨pre, post, e, h1, h2⟩ := hw
  unfold failWaitingAll
  rw [forAdmitted_first (failWaiting p) e (fun v hv => ?_) ?_ (fun v => h.over.failWaiting p v), assignReturns_idle h.over.wantsReturn]
  · exact h
  · unfold failWaiting
    rw [hf]
    dsimp only
    rw [hx]
    exact if_pos h1
  · unfold failWaiting
    split
    · rfl
    · split
      · rfl
      · exact if_neg (h2 v hv)

/-- The end of an ABORTING request's operation, whatever its outcome, where no READ can take the return slot. -/
theorem fetchResult_aborting {s : State} {w : Owner} {r : Request} {f : FetchRecord} {v : Fetch}
    (hr : s.request w.tag = some r) (ha : r.state = .aborting) (hf : s.fetchRecord w.tag = some f)
    (hw : f.admission = w.admission) (hv : f.fetch = some v) (hn : ∀ u, ¬ s.wantsReturn u)
    (o : Except OpFailure (List Byte)) :
    s.abortEnds (fetchResult w o s) w r ∧ (fetchResult w o s).log = s.log ∧ (fetchResult w o s).notices = s.notices ∧
      (fetchResult w o s).ports = s.ports := by
  have e0 : fetchResult w o s = endAborting w.tag w.admission s := by
    unfold fetchResult
    rw [hr, hf]
    dsimp only
    rw [hv]
    dsimp only
    rw [if_pos hw, ha]
  obtain ⟨rv, fo, e1⟩ := releaseReturns_eq ⟨w.tag, w.admission⟩ false (s.setFetchRecord w.tag none)
  have hs := fun n => releaseReturns_slot ⟨w.tag, w.admission⟩ false n (s.setFetchRecord w.tag none)
  rw [e0]
  unfold endAborting dropFetch
  generalize hD : releaseReturns ⟨w.tag, w.admission⟩ false (s.setFetchRecord w.tag none) = D at e1 hs
  have hDr : ∀ u, D.request u = s.request u := fun u => by rw [e1]; rfl
  have hDf : ∀ u, D.fetchRecord u = if u = w.tag then none else s.fetchRecord u := fun u => by
    rw [e1]
    exact State.fetchRecord_setFetchRecord s w.tag u none
  have e2 : enterReporting w.tag .aborted none D = { D with table := { D.table with
      slots := D.table.slots.set w.tag (some { r with
        state := .reporting, status := some .aborted, failingLbn := none, holdList := [], flushSet := [], settleSet := [] })
      completionOrder := D.table.completionOrder ++ [w.tag] } } := by
    unfold enterReporting
    rw [hDr, hr]
    rfl
  rw [e2]
  generalize hE : ({ D with table := _ } : State) = E
  have hEr : ∀ u, E.request u = if u = w.tag then some { r with
      state := .reporting, status := some .aborted, failingLbn := none, holdList := [], flushSet := [], settleSet := [] }
      else s.request u := fun u => by
    rw [← hE, ← hDr u]
    exact State.request_setRequest D w.tag u _
  have hEf : ∀ u, E.fetchRecord u = D.fetchRecord u := fun u => by rw [← hE]; rfl
  have idle : ∀ u, ¬ E.wantsReturn u := by
    rintro u ⟨q, g, k, h1, h2, h3, h4, h5, h6⟩
    rw [hEr] at h1
    split at h1
    · cases h1
      cases h3
    next hu =>
      rw [hEf, hDf, if_neg hu] at h5
      exact hn u ⟨q, g, k, h1, h2, h3, h4, h5, h6⟩
  rw [assignReturns_idle idle]
  refine ⟨⟨by rw [hEr, if_pos rfl], by rw [hEf, hDf, if_pos rfl], fun u hu => ⟨by rw [hEr, if_neg hu], ?_⟩, ?_, ?_, fun n => ?_,
    ?_, ?_, ?_, ?_, ?_⟩, ?_, ?_, ?_⟩
  · rw [hEf, hDf, if_neg hu]
  · rw [← hE, e1]; rfl
  · rw [← hE, e1]; rfl
  · have : E.returnSlot n = D.returnSlot n := by rw [← hE]; rfl
    rw [this, hs n]
    show (s.returnSlot n).released w false = _
    cases s.returnSlot n <;> simp [ReturnSlot.released]
  all_goals
    rw [← hE, e1]
    rfl

theorem State.abortEnds.ends {s t : State} {w : Owner} {r : Request} (h : s.abortEnds t w r) :
    s.abortEnds (settleStaging t) w r := by
  obtain ⟨h1, h2, h3, h4, h5, h6, h7, h8, h9, h10, h11⟩ := h
  refine ⟨?_, ?_, fun u hu => ?_, ?_, ?_, fun n => ?_, ?_, ?_, ?_, ?_, ?_⟩
  · rw [settleStaging_request, h1]
  · rw [settleStaging_fetchRecord, h2]
  · rw [settleStaging_request, settleStaging_fetchRecord]
    exact h3 u hu
  · rw [settleStaging_table, h4]
  · rw [settleStaging_table, h5]
  · rw [settleStaging_returnSlot, h6]
  · rw [settleStaging_mover, h7]
  · rw [settleStaging_slots, h8]
  · rw [settleStaging_drainOrder, h9]
  · rw [settleStaging_mapStore, h10]
  · rw [settleStaging_params, h11]

/-- A failed operation ends an ACTIVE request with the status and the block, whatever the queue is. -/
theorem fetchResult_faults {s : State} {w : Owner} {r : Request} {f : FetchRecord} {v : Fetch}
    (hr : s.request w.tag = some r) (ha : r.state = .active) (hf : s.fetchRecord w.tag = some f)
    (hw : f.admission = w.admission) (hv : f.fetch = some v) (e : OpFailure) :
    ∃ q, (fetchResult w (.error e) s).request w.tag = some q ∧ q.state = .reporting ∧ q.status = some e.status ∧
      q.failingLbn = some v.lbn ∧ q.blocksDone = r.blocksDone := by
  obtain ⟨q, h1, h2⟩ := requestFault_outcome hr (.inl ha) e.status (some v.lbn) e.cause
  have e0 : fetchResult w (.error e) s = assignReturns (requestFault w.tag e.status (some v.lbn) e.cause s) := by
    unfold fetchResult
    rw [hr, hf]
    dsimp only
    rw [hv]
    dsimp only
    rw [if_pos hw, ha]
    exact fetchFailed_eq _ _ _ _
  obtain ⟨p, k1, k2, k3, k4, k5⟩ := (calm_assignReturns (requestFault w.tag e.status (some v.lbn) e.cause s)).inner.outcome h1 h2.1
  rw [e0]
  exact ⟨p, k1, k2, k3.trans h2.2.1, k4.trans h2.2.2.1, k5.trans h2.2.2.2⟩

/-- A port event ends the operation of a fetch of an ACTIVE request, and the request faults MEMBER_LOST (R63, R122). -/
theorem loseOp_fetch {s : State} {p : Port} {o : Operation} {w : Owner} {z : Nat} {r : Request} {f : FetchRecord} {v : Fetch}
    (ho : (s.port p).op = some o) (hu : o.user = .fetch w z) (hr : s.request w.tag = some r) (ha : r.state = .active)
    (hf : s.fetchRecord w.tag = some f) (hw : f.admission = w.admission) (hv : f.fetch = some v) :
    ∃ q, (loseOp p s).1.request w.tag = some q ∧ q.state = .reporting ∧ q.status = some .memberLost ∧
      q.failingLbn = some v.lbn ∧ q.blocksDone = r.blocksDone := by
  unfold loseOp
  rw [ho]
  dsimp only
  rw [hu]
  dsimp only
  generalize hX : closeOp p o.kind (s.port p).engine .noStat (attemptsSoFar o s) s.drawn = X
  have e1 : X.table = s.table ∧ X.mover = s.mover := by
    rw [← hX]
    unfold closeOp
    dsimp only
    split <;> exact ⟨rfl, rfl⟩
  obtain ⟨n, e2⟩ := addEntry_eq (s.portEntry p o .memberLost (attemptsSoFar o s)) X
  refine fetchResult_faults ?_ ha ?_ hw hv .memberLost <;> rw [e2]
  · rw [← hr]; exact congrArg (fun z => z.slots[w.tag]) e1.1
  · rw [← hf]; exact congrArg (fun z => z.fetches[w.tag]) e1.2

/-- The end of an ABORTING request's operation (R132). -/
theorem fetchResult_aborts {s : State} {w : Owner} {r : Request} {f : FetchRecord} {v : Fetch}
    (hr : s.request w.tag = some r) (ha : r.state = .aborting) (hf : s.fetchRecord w.tag = some f)
    (hw : f.admission = w.admission) (hv : f.fetch = some v) (o : Except OpFailure (List Byte)) :
    ∃ q, (fetchResult w o s).request w.tag = some q ∧ q.state = .reporting ∧ q.status = some .aborted ∧
      q.blocksDone = r.blocksDone := by
  have e0 : fetchResult w o s = assignReturns (enterReporting w.tag .aborted none (dropFetch w.tag w.admission s)) := by
    unfold fetchResult
    rw [hr, hf]
    dsimp only
    rw [hv]
    dsimp only
    rw [if_pos hw, ha]
    rfl
  have h1 := enterReporting_request w.tag .aborted none (dropFetch w.tag w.admission s) w.tag
  rw [if_pos rfl, dropFetch_request, hr] at h1
  obtain ⟨p, k1, k2, k3, _, k5⟩ := (calm_assignReturns _).inner.outcome h1 rfl
  rw [e0]
  exact ⟨p, k1, k2, k3, k5⟩

/-- The third failure in a row takes the port to FAILED (R116). -/
theorem countFailure_third {p : Port} {e : OpFailure} {l : List SlotNo} {s : State} (h : (s.port p).failures = 2) :
    countFailure p e l s = portFailed p e.cause l false (s.setPort p { s.port p with failures := 3 }) := by
  unfold countFailure setFailures
  dsimp only
  rw [h]
  exact if_pos rfl

/-- PORT_FAILED is the last notice of the event that takes a port to FAILED. -/
theorem portFailed_notice (p : Port) (c : HistoryCause) (l : List SlotNo) (b : Bool) (s : State) :
    ∃ n, (portFailed p c l b s).notice ⟨.portFailed, some p⟩ = some n ∧ n.detail = .cause c := by
  unfold portFailed
  dsimp only
  generalize noteStranded _ _ = S
  refine ⟨_, (raise_notice ⟨.portFailed, some p⟩ _ (.cause c) S).trans (if_pos rfl), ?_⟩
  cases S.notice ⟨.portFailed, some p⟩ <;> rfl

/-- Port `p`, with no operation in flight, counts its third failure: FAILED, with the notice; a request that is over keeps
its outcome. -/
theorem countFailure_failed {p : Port} {e : OpFailure} {l : List SlotNo} {s : State} (h : (s.port p).failures = 2)
    (k : (s.port p).op = none) :
    (countFailure p e l s).port p = { s.port p with cls := .failed, engine := .idle, probe := none, debounce := none, failures := 3 } ∧
      (∃ n, (countFailure p e l s).notice ⟨.portFailed, some p⟩ = some n ∧ n.detail = .cause e.cause) := by
  rw [countFailure_third h]
  refine ⟨?_, portFailed_notice _ _ _ _ _⟩
  rw [portFailed_port (by rw [State.port_setPort, if_pos rfl]; exact k), State.port_setPort, if_pos rfl]

end Sys2Proof.Machine
end

