-- ==== Sys2Proof/Laws/Frames.lean ====
section
/-! SUPPORT. Received frames, one lemma for each part of a frame (R204 to R206, R221). -/

namespace Sys2Proof.Machine

theorem dropWhile_noise (noise l : List Byte) (h : ∀ b ∈ noise, b ≠ startByte) :
    (noise ++ l).dropWhile (fun b => b ≠ startByte) = l.dropWhile (fun b => b ≠ startByte) := by
  induction noise with
  | nil => rfl
  | cons b noise ih =>
    rw [List.cons_append, List.dropWhile_cons_of_pos (by simpa using h b (List.mem_cons_self ..))]
    exact ih (fun c hc => h c (List.mem_cons_of_mem _ hc))

/-- Without a start byte no frame begins. -/
theorem receivedCommand_noise {noise : List Byte} (h : ∀ b ∈ noise, b ≠ startByte) : receivedCommand noise = none := by
  have := dropWhile_noise noise [] h
  rw [List.append_nil] at this
  unfold receivedCommand
  rw [this]
  rfl

/-- The bytes before the start byte are passed over. -/
theorem receivedCommand_start {noise : List Byte} (h : ∀ b ∈ noise, b ≠ startByte) (l : List Byte) :
    receivedCommand (noise ++ startByte :: l) = takeFrame l := by
  unfold receivedCommand
  rw [dropWhile_noise noise _ h, List.dropWhile_cons_of_neg (by simp)]

/-- Two bytes spell a CRC-16, low byte first. -/
theorem crc_bytes (x y : Byte) (v : BitVec 16) : [x, y] = le 2 v.toNat ↔ x.toNat + 256 * y.toNat = v.toNat := by
  have hv := v.isLt
  have hx := x.isLt
  have hy := y.isLt
  have e : le 2 v.toNat = [BitVec.ofNat 8 v.toNat, BitVec.ofNat 8 (v.toNat / 256)] := rfl
  rw [e, List.cons.injEq, List.cons.injEq, BitVec.toNat_eq, BitVec.toNat_eq, BitVec.toNat_ofNat, BitVec.toNat_ofNat]
  constructor
  · rintro ⟨a, b, _⟩
    omega
  · intro h
    exact ⟨by omega, by omega, rfl⟩

theorem length_bytes (x y : Byte) : leVal [x, y] = x.toNat + 256 * y.toNat := rfl

/-- The body of a frame that has arrived whole (R206). -/
theorem takeBody_whole (head payload rest : List Byte) (q x y : Byte) {n : Nat} (h : payload.length = n) :
    takeBody head n (q :: (payload ++ x :: y :: rest)) =
      some (if x.toNat + 256 * y.toNat = (crc16 (head ++ q :: payload)).toNat then acceptedCommand q payload else .frameCrcError, rest) := by
  unfold takeBody
  dsimp only
  rw [if_neg (by rw [List.length_append, h, List.length_cons, List.length_cons]; omega)]
  have h1 : (payload ++ x :: y :: rest).take n = payload := List.take_left' h
  have h2 : (payload ++ x :: y :: rest).drop n = x :: y :: rest := List.drop_left' h
  have h3 : (payload ++ x :: y :: rest).drop (n + 2) = rest := by rw [← List.drop_drop, h2]; rfl
  rw [h1, h2, h3]
  have h4 := crc_bytes x y (crc16 (head ++ q :: payload))
  by_cases c : x.toNat + 256 * y.toNat = (crc16 (head ++ q :: payload)).toNat
  · rw [if_pos c, if_pos (show (x :: y :: rest).take 2 = _ from h4.2 c)]
  · rw [if_neg c, if_neg (show ¬ (x :: y :: rest).take 2 = _ from mt h4.1 c)]

theorem takeBody_part (head tail : List Byte) (q : Byte) {n : Nat} (h : tail.length < n + 2) :
    takeBody head n (q :: tail) = none := by
  unfold takeBody
  dsimp only
  rw [if_pos h]

/-- The header test (R205). -/
theorem takeFrame_header (b0 b1 ty : Byte) (l : List Byte) :
    takeFrame (b0 :: b1 :: ty :: l) = match headerFate ty (b0.toNat + 256 * b1.toNat) with
      | .bad => some (.framingError .badHeader, l)
      | .oversize => some (.oversizeFrame (b0.toNat + 256 * b1.toNat), l)
      | .body => takeBody [b0, b1, ty] (b0.toNat + 256 * b1.toNat) l := rfl

end Sys2Proof.Machine
end

