-- ==== Sys2Proof/Laws/Holds.lean ====
section
/-! SUPPORT. The acknowledgment of a COMPLETION report: hold lists lose the freed tag, and the holds it leaves empty
are released (R33, R43). -/

namespace Sys2Proof.Machine

/-- A walk over `l` that releases holds leaves none of `l` HELD with an empty hold list. -/
theorem held_walk (l : List Tag) (s : State) (P : Tag → Prop)
    (hP : ∀ t, P t → ∀ r, s.request t = some r → r.state = .held → r.holdList ≠ []) :
    ∀ t, (t ∈ l ∨ P t) → ∀ r, (l.foldl (fun acc t => releaseHold t acc) s).request t = some r → r.state = .held →
      r.holdList ≠ [] := by
  have keep : ∀ (a b : State) (t : Tag), Calm a b → (∀ r, a.request t = some r → r.state = .held → r.holdList ≠ []) →
      (∀ r, b.request t = some r → r.state = .held → r.holdList ≠ []) := by
    intro a b t k h r hr hh
    have := k.requests t
    rw [hr] at this
    cases ha : a.request t with
    | none => rw [ha] at this; exact this.elim
    | some x =>
      rw [ha] at this
      have hx : x.state = .held := by
        have h2 := this.2.1
        rw [hh] at h2
        cases hs : x.state <;> simp [hs, ReqState.laterStates] at h2
        rfl
      rcases this.2.2.2 hx with e | ⟨_, e⟩ | e
      · rw [hh] at e; cases e
      · rw [e]; exact h x ha hx
      · exact absurd e.1 (h x ha hx)
  induction l generalizing s P with
  | nil => intro t ht; rcases ht with ht | ht; cases ht; exact hP t ht
  | cons a l ih =>
    intro t ht
    rw [List.foldl_cons]
    refine ih (releaseHold a s) (fun t => P t ∨ t = a) ?_ t ?_
    · rintro t (h | rfl)
      · exact keep _ _ t (calm_releaseHold a s) (hP t h)
      · intro r hr hh
        cases hs : s.request t with
        | none =>
          have : releaseHold t s = s := by unfold releaseHold; rw [hs]
          rw [this, hs] at hr; cases hr
        | some x =>
          by_cases hx : x.state = .held ∧ x.holdList = []
          · have k := (goActive_soft hs).trans ((calm_formGrants _).trans (calm_assignReturns _)).toSoft
            rw [← releaseHold_free hs hx.1 hx.2] at k
            have := k.requests t
            rw [hr] at this
            simp at this
            have h2 := this.2.1
            rw [hh] at h2; simp [ReqState.laterStates] at h2
          · have : releaseHold t s = s := by
              unfold releaseHold; rw [hs]; dsimp only; rw [if_neg (by simpa using hx)]
            rw [this, hs] at hr; cases hr
            intro e; exact hx ⟨hh, e⟩
    · rcases ht with ht | ht
      · rcases List.mem_cons.1 ht with e | e
        · exact .inr (.inr e)
        · exact .inl e
      · exact .inr (.inl ht)

/-- After a release no HELD request has an empty hold list. -/
theorem releaseHolds_held {s : State} (h : TableGood s) (t : Tag) (r : Request)
    (hr : (releaseHolds s).request t = some r) (hh : r.state = .held) : r.holdList ≠ [] := by
  have k := calm_releaseHolds s
  have hm : t ∈ s.table.admissionOrder := by
    have := (TableGood.of_same k.requests k.admissionOrder h).2 t
    rw [hr] at this; rw [← k.admissionOrder]; exact this.2 rfl
  exact held_walk _ s (fun _ => False) (fun _ h => h.elim) t (.inl hm) r hr hh

/-- A HELD request after a release is one before it, with its hold list. -/
theorem Calm.held {s t : State} (k : Calm s t) {u : Tag} {q : Request} (h : t.request u = some q) (hq : q.state = .held) :
    ∃ r, s.request u = some r ∧ r.state = .held ∧ q.holdList = r.holdList := by
  have := k.requests u
  rw [h] at this
  cases hr : s.request u with
  | none => rw [hr] at this; exact this.elim
  | some r =>
    rw [hr] at this
    have h2 := this.2.1
    rw [hq] at h2
    have hs : r.state = .held := by
      cases hs : r.state <;> simp [hs, ReqState.laterStates] at h2
      rfl
    refine ⟨r, rfl, hs, ?_⟩
    rcases this.2.2.2 hs with e | ⟨_, e⟩ | e
    · rw [hq] at e; cases e
    · exact e
    · exact absurd hq e.2

/-- A freed tag leaves every hold list, and nothing else changes (R33). -/
theorem dropHolds_eq (t : Tag) (s : State) : ∃ v, dropHolds t s = { s with table := { s.table with slots := v } } ∧
    ∀ u : Tag, v[u] = (s.request u).map (fun r => { r with holdList := setRemove t r.holdList }) := by
  have F : ∀ (l : List Tag) (s : State), l.Nodup → ∃ v, l.foldl (fun acc u =>
      match acc.request u with
      | some r => acc.setRequest u { r with holdList := setRemove t r.holdList }
      | none => acc) s = { s with table := { s.table with slots := v } } ∧
      ∀ u : Tag, v[u] = if u ∈ l then (s.request u).map (fun r => { r with holdList := setRemove t r.holdList })
        else s.request u := by
    intro l
    induction l with
    | nil => intro s _; exact ⟨s.table.slots, rfl, fun u => by simp; rfl⟩
    | cons a l ih =>
      intro s hn
      rw [List.nodup_cons] at hn
      rw [List.foldl_cons]
      cases ha : s.request a with
      | none =>
        obtain ⟨v, h1, h2⟩ := ih s hn.2
        refine ⟨v, h1, fun u => ?_⟩
        rw [h2]
        by_cases hu : u = a
        · subst hu; simp [hn.1, ha]
        · simp [hu]
      | some r =>
        obtain ⟨v, h1, h2⟩ := ih (s.setRequest a { r with holdList := setRemove t r.holdList }) hn.2
        refine ⟨v, by dsimp only; rw [h1]; rfl, fun u => ?_⟩
        rw [h2]
        by_cases hu : u = a
        · subst hu; simp [hn.1, ha]
        · simp [hu]
  obtain ⟨v, h1, h2⟩ := F allTags s (by decide)
  refine ⟨v, h1, fun u => ?_⟩
  rw [h2, if_pos (by revert u; decide)]

end Sys2Proof.Machine
end

