-- ==== Sys2Proof/Laws/Keeps.lean ====
section
/-! SUPPORT. A request fault keeps what `StageGood` says: it halts the queue, and no write record and no FILLING slot
outlives that (R57, R130, R131). -/

namespace Sys2Proof.Machine

/-- An ACTIVE WRITE's record is dropped by a fault that halts the queue, whichever request faults. -/
theorem StageGood.dropsWrite {s : State} (k : StageGood s) {v : Tag} {w : WriteRecord} (hw : s.writeRecord v = some w) (x : Tag) :
    s.dropsWrite x v = true ∧ ∀ r, s.request v = some r → s.droppedBy x ⟨v, r.admission⟩ = true := by
  obtain ⟨r, hr, hk, ha, _⟩ := k.staged.2.1 v w hw
  have nf : s.fetchInFlight v = false := by
    unfold State.fetchInFlight
    cases e : s.fetchRecord v with
    | none => rfl
    | some f => rw [k.fetching e] at hw; cases hw
  have hd : s.droppedBy x ⟨v, r.admission⟩ = true := by
    unfold State.droppedBy
    rw [hr]
    simp [ha, nf]
  refine ⟨?_, fun q hq => ?_⟩
  · unfold State.dropsWrite
    rw [hr]
    simp [hk, hd]
  · rw [hr] at hq
    cases hq
    exact hd

theorem State.haltsOn.staged {s t : State} {x : Tag} {st : CompletionStatus} {y : Option Nat} {c : HistoryCause}
    (h : s.haltsOn t x st y c) (k : StageGood s) : Staged t := by
  have ov := h.over
  obtain ⟨r, a1, a2, a3, a4, a5, a6, a7, a8, a9, a10, a11, a12, a13, _⟩ := h
  obtain ⟨⟨h1, h2, h3⟩, h4, h5, h6, h7⟩ := k.staged
  have same : ∀ v q, t.request v = some q → ∃ p, s.request v = some p ∧ q.kind = p.kind ∧ q.range = p.range ∧
      q.admission = p.admission := by
    intro v q hq
    by_cases e : v = x
    · rw [e, a2] at hq
      cases hq
      exact ⟨r, e ▸ a1, rfl, rfl, rfl⟩
    · cases hs : s.request v with
      | none => rw [a4 v e hs] at hq; cases hq
      | some p =>
        obtain ⟨q', b1, b2, b3, _, _, b4, _⟩ := a5 v p e hs
        rw [hq] at b1
        cases b1
        exact ⟨p, rfl, b2, b3, b4⟩
  have now : ∀ v, t.writeRecord v = none := by
    intro v
    rw [a9]
    cases e : s.writeRecord v with
    | none => simp
    | some w => rw [if_pos (k.dropsWrite e x).1]
  have nof : ∀ i z o m, t.slot i ≠ .filling z o m := by
    intro i z o m hi
    rw [a12] at hi
    cases e : s.slot i with
    | filling y' o' m' =>
      rw [e] at hi
      dsimp only at hi
      obtain ⟨r', g, w, a, n, k1, k2, k3, k4, _⟩ := (h7 i y' o').1 ⟨m', e⟩
      obtain ⟨d1, d2⟩ := k.dropsWrite k4 x
      have d3 : s.droppedBy x o' = true := by
        have := d2 r' k1
        rw [k2] at this
        exact this
      rw [if_pos (by rw [d1, d3]; rfl)] at hi
      cases hi
    | _ => rw [e] at hi; cases hi
  have held : ∀ i, (t.slot i) = s.slot i ∨ (t.slot i = .free ∧ (s.slot i).isFilling = true) := by
    intro i
    have := a12 i
    cases e : s.slot i with
    | filling y' o' m' =>
      right
      rw [e] at this
      dsimp only at this
      split at this
      · exact ⟨this, rfl⟩
      · exact absurd this (nof _ _ _ _)
    | _ => left; rw [e] at this; exact this
  refine ⟨⟨by rw [a13]; exact h1, fun i => ?_, fun i j c hc hi hj => ?_⟩, fun u w hw => ?_, fun u f hf => ?_, fun u q hq => ?_,
    fun i z o => ?_⟩
  · rw [a13, h2]
    rcases held i with e | ⟨e, f⟩
    · rw [e]
    · rw [e]
      revert f
      cases s.slot i <;> simp [StagingSlot.isFilling, StagingSlot.isDirty]
  · rcases held i with e | ⟨e, _⟩
    · rcases held j with e' | ⟨e', _⟩
      · rw [e] at hi
        rw [e'] at hj
        exact h3 i j c hc hi hj
      · rw [e'] at hj
        cases hj
    · rw [e] at hi
      cases hi
  · rw [now] at hw
    cases hw
  · rw [a10] at hf
    split at hf
    · cases hf
    next nd =>
      obtain ⟨p, p1, p2, p3⟩ := h5 u f hf
      have na : p.state = .active → u ≠ x ∧ s.fetchInFlight u = true := by
        intro ha
        refine ⟨fun e => nd ?_, ?_⟩
        · subst e
          unfold State.dropsFetch State.droppedBy
          rw [p1]
          simp [p2, p1]
        · cases e : s.fetchInFlight u with
          | true => rfl
          | false =>
            refine absurd ?_ nd
            unfold State.dropsFetch State.droppedBy
            rw [p1]
            simp [p2, ha, e, p1]
      have nx : u ≠ x := by
        intro e
        subst e
        refine nd ?_
        unfold State.dropsFetch State.droppedBy
        rw [p1]
        simp [p2, p1]
      obtain ⟨q, q1, q2, _, _, _, _, q3, _, q4, q5⟩ := a5 u p nx p1
      refine ⟨q, q1, by rw [q2]; exact p2, ?_⟩
      rcases p3 with ha | ha
      · right
        have he : s.haltEnds x u = true := by
          unfold State.haltEnds State.flushedBy
          rw [p1]
          rcases p2 with z | z <;> simp [nx, ha, z]
        have := (q5 he).2
        rw [if_pos ⟨ha, (na ha).2⟩] at this
        exact this
      · rw [q3 (.inr ha)]
        exact .inr ha
  · obtain ⟨p, p1, p2, p3, _⟩ := same u q hq
    rw [p2, p3]
    refine ⟨fun z => ?_, (h6 u p p1).2⟩
    rcases ov u q hq with e | e <;> rw [e] at z <;> cases z
  · constructor
    · rintro ⟨m, hm⟩
      exact absurd hm (nof _ _ _ _)
    · rintro ⟨_, _, w, _, _, _, _, _, k4, _⟩
      rw [now] at k4
      cases k4

/-- Whatever request faults, for whatever reason, while `StageGood` holds, it holds afterwards. -/
theorem faultKeeps : FaultKeeps := by
  intro t st x c s k
  cases hr : s.request t with
  | none => rw [show requestFault t st x c s = s by unfold requestFault; rw [hr]]; exact k
  | some r =>
    by_cases ha : r.state = .active ∨ r.state = .settling
    · have hn : s.table.snapshot = none := by
        cases e : s.table.snapshot with
        | none => rfl
        | some y =>
          rcases k.2.1 (by unfold State.halted; rw [e]; rfl) t r hr with z | z <;>
            (rw [z] at ha; rcases ha with ha | ha <;> cases ha)
      exact (soft_requestFault t st x c s).stageGood k ((requestFault_halts k.1 hr ha hn st x c).staged k)
    · rw [show requestFault t st x c s = s by unfold requestFault; rw [hr]; exact if_neg ha]
      exact k

/-! ## Every command -/

/-- With no request, no record and every slot FREE, the table and the data are as their rules leave them. -/
theorem stageGood_fresh {t : State} (h1 : t.table = State.reset.table) (h2 : t.mover = State.reset.mover)
    (h3 : t.staging = State.reset.staging) : StageGood t := by
  have hr : ∀ u, t.request u = none := fun u => by
    have e : ∀ u, State.reset.request u = none := by decide
    unfold State.request at e ⊢
    rw [h1]
    exact e u
  have hw : ∀ u, t.writeRecord u = none ∧ t.fetchRecord u = none := fun u => by
    have e : ∀ u, State.reset.writeRecord u = none ∧ State.reset.fetchRecord u = none := by decide
    unfold State.writeRecord State.fetchRecord at e ⊢
    rw [h2]
    exact e u
  have hs : ∀ i, t.slot i = .free := fun i => by
    have e : ∀ i, State.reset.slot i = .free := by decide
    unfold State.slot at e ⊢
    rw [h3]
    exact e i
  refine ⟨⟨?_, fun u => ?_⟩, fun _ u r e => ?_, fun x y a b _ e => ?_, ⟨?_, fun i => ?_, fun i j c _ e => ?_⟩, fun u w e => ?_,
    fun u f e => ?_, fun u r e => ?_, fun i x o => ⟨fun ⟨m, e⟩ => ?_, fun ⟨r, _, _, _, _, e, _⟩ => ?_⟩⟩
  · rw [h1]
    exact List.nodup_nil
  · rw [h1, hr u]
    exact ⟨(fun z => by cases z), fun z => by cases z⟩
  · rw [hr u] at e
    cases e
  · rw [hr x] at e
    cases e
  · rw [h3]
    exact List.nodup_nil
  · rw [h3, hs i]
    exact ⟨(fun z => by cases z), fun z => by cases z⟩
  · rw [hs i] at e
    cases e
  · rw [(hw u).1] at e
    cases e
  · rw [(hw u).2] at e
    cases e
  · rw [hr u] at e
    cases e
  · rw [hs i] at e
    cases e
  · rw [hr o.tag] at e
    cases e

/-- With the empty map, no commit and no port classified, the ports are as their rules leave them. -/
theorem portsGood_fresh {t : State} (h : t.mapStore = State.reset.mapStore)
    (k : ∀ p, (t.port p).op = none ∧ (t.port p).probe = none ∧ (t.port p).cls.targetable = false) : PortsGood t := by
  refine ⟨⟨?_, fun p => ⟨fun _ => (k p).1, fun e => ?_, fun e => ?_, fun pr e => ?_, fun o e => ?_⟩, fun c e => ?_⟩,
    fun _ => ⟨by rw [h]; rfl, fun p => (k p).2.2⟩⟩
  · rw [h]
    exact Map.apart_empty
  · have := (k p).2.2
    rw [e] at this
    cases this
  · rw [(k p).2.2] at e
    cases e
  · rw [(k p).2.1] at e
    cases e
  · rw [(k p).1] at e
    cases e
  · rw [h] at e
    cases e

theorem stageGood_exec {c : Instr} {s t : State} (h : exec c s = .next t) (k : StageGood s) : StageGood t := by
  by_cases hc : c = .deviceReset
  · subst hc
    cases h
    exact stageGood_fresh rfl rfl rfl
  · exact (lawful_exec c s t hc h).stageGood faultKeeps k

theorem portsGood_exec {c : Instr} {s t : State} (h : exec c s = .next t) (k : PortsGood s) : PortsGood t := by
  by_cases hc : c = .deviceReset
  · subst hc
    cases h
    refine portsGood_fresh rfl (fun p => ?_)
    have e : ∀ b, (portAtReset b).op = none ∧ (portAtReset b).probe = none ∧ (portAtReset b).cls.targetable = false := by decide
    match p with
    | 0 | 1 | 2 | 3 => exact e _
  · exact (lawful_exec c s t hc h).ports k

/-! ## What the laws say -/

/-- The five states share the 32 slots out (R71). -/
theorem State.countSlots_sum (s : State) : s.countSlots StagingSlot.isFree + s.countSlots StagingSlot.isFilling +
    s.countSlots StagingSlot.isDirty + s.countSlots StagingSlot.isDraining + s.countSlots StagingSlot.isStranded = 32 := by
  have walk : ∀ l : List SlotNo, (l.filter (fun i => (s.slot i).isFree)).length + (l.filter (fun i => (s.slot i).isFilling)).length +
      (l.filter (fun i => (s.slot i).isDirty)).length + (l.filter (fun i => (s.slot i).isDraining)).length +
      (l.filter (fun i => (s.slot i).isStranded)).length = l.length := by
    intro l
    induction l with
    | nil => rfl
    | cons i l ih =>
      simp only [List.filter_cons, List.length_cons, ← ih]
      cases s.slot i <;> simp [StagingSlot.isFree, StagingSlot.isFilling, StagingSlot.isDirty, StagingSlot.isDraining,
        StagingSlot.isStranded] <;> omega
  exact walk allSlots

/-- At most one enabled extent of a map that obeys R5 covers a block, and the block translates through it (R6). -/
theorem Map.apart.translate {m : Map} (h : m.apart) {i : Fin 8} {x : Nat} (he : m.extents[i].enabled = true)
    (hc : m.extents[i].covers x = true) :
    m.translate x = some ⟨m.extents[i].port, m.extents[i].base.toNat + (x - m.extents[i].first.toNat), m.extents[i].access⟩ := by
  unfold Map.translate Map.enabledExtents
  cases e : (m.extents.toList.filter (·.enabled)).find? (·.covers x) with
  | none =>
    have := List.find?_eq_none.1 e _ ((m.mem_enabled _).2 ⟨i, rfl, he⟩)
    exact absurd hc this
  | some f =>
    obtain ⟨j, rfl, hj⟩ := (m.mem_enabled f).1 (List.mem_of_find?_eq_some e)
    have hx : m.extents[j].covers x = true := by simpa using List.find?_some e
    by_cases ij : i = j
    · subst ij
      rfl
    · exact absurd ⟨hc, hx⟩ ((h.2 i j ij he hj).1 x)

theorem Map.translate_none {m : Map} {x : Nat} (h : ∀ i : Fin 8, m.extents[i].enabled = true → ¬ m.extents[i].covers x = true) :
    m.translate x = none := by
  unfold Map.translate Map.enabledExtents
  cases e : (m.extents.toList.filter (·.enabled)).find? (·.covers x) with
  | none => rfl
  | some f =>
    obtain ⟨j, rfl, hj⟩ := (m.mem_enabled f).1 (List.mem_of_find?_eq_some e)
    exact absurd (by simpa using List.find?_some e) (h j hj)

end Sys2Proof.Machine
end

