-- ==== Sys2Proof/Laws/MapWrites.lean ====
section
/-! SUPPORT. The map writes and the end of a commit, said once: the next FINAL rewrite, the commit point, adoption, the four
ends, and the port that a failed map write takes to FAILED (R105, R106, R148 to R154). -/

namespace Sys2Proof.Machine

/-! ## The end of a commit -/

theorem orphanWrite_port (p q : Port) (s : State) : ∃ o, (orphanWrite p s).port q = { s.port q with op := o } ∧
    ((s.port q).op = none → o = none) := by
  unfold orphanWrite
  cases e : (s.port p).op with
  | none => exact ⟨(s.port q).op, rfl, id⟩
  | some o =>
    dsimp only
    cases o.user with
    | mapWrite w g k l =>
      dsimp only
      rw [State.port_setPort]
      by_cases h : q = p
      · subst h
        exact ⟨_, by rw [if_pos rfl], fun c => by rw [e] at c; cases c⟩
      · exact ⟨(s.port q).op, by rw [if_neg h], id⟩
    | _ => exact ⟨(s.port q).op, rfl, id⟩

theorem orphanWrite_eq (p : Port) (s : State) : ∃ v, orphanWrite p s = { s with ports := v } := by
  unfold orphanWrite
  cases (s.port p).op with
  | none => exact ⟨s.ports, rfl⟩
  | some o =>
    dsimp only
    cases o.user with
    | mapWrite w g k l => exact ⟨_, rfl⟩
    | _ => exact ⟨s.ports, rfl⟩

theorem orphanWrites_spec (l : List Port) (s : State) :
    (∃ v, l.foldl (fun acc q => orphanWrite q acc) s = { s with ports := v }) ∧
      ∀ q, ∃ o, (l.foldl (fun acc q => orphanWrite q acc) s).port q = { s.port q with op := o } := by
  induction l generalizing s with
  | nil => exact ⟨⟨s.ports, rfl⟩, fun q => ⟨(s.port q).op, rfl⟩⟩
  | cons p l ih =>
    obtain ⟨v, e⟩ := orphanWrite_eq p s
    obtain ⟨⟨w, e2⟩, k⟩ := ih (orphanWrite p s)
    refine ⟨⟨w, by rw [List.foldl_cons, e2, e]⟩, fun q => ?_⟩
    obtain ⟨o, a, _⟩ := orphanWrite_port p q s
    obtain ⟨o2, b⟩ := k q
    exact ⟨o2, by rw [List.foldl_cons, b, a]⟩

/-- What the end of a commit does (R154). -/
theorem endCommit_spec {s : State} {c : Commit} (r : CommitResult) (hc : s.mapStore.commit = some c)
    (hd : s.apartFindings) :
    (endCommit r s).mapStore = { s.mapStore with commit := none } ∧ (endCommit r s).log = s.log ∧
    (∀ k, k.kind ≠ .portAttached → (endCommit r s).notice k = if k = ⟨.commitDone, none⟩
      then some (raisedOnce k (.commit r s.mapStore.active.generation c.written c.failed) (s.notice k)) else s.notice k) ∧
    (∀ q, (s.port q).cls ≠ .probe → (endCommit r s).notice ⟨.portAttached, some q⟩ = s.notice ⟨.portAttached, some q⟩ ∧
      ∃ o, (endCommit r s).port q = { s.port q with op := o }) ∧
    ∀ q pr, (s.port q).cls = .probe → (s.port q).probe = some pr → pr.step = .complete →
      let newest := pr.newest.map (fun m => (m.generation, m.pool))
      ((endCommit r s).port q).probe = none ∧ ((endCommit r s).port q).member = some ⟨pr.capacity, pr.identity, newest⟩ ∧
        ((endCommit r s).port q).cls = s.mapStore.active.classOf newest := by
  unfold endCommit
  rw [hc]
  dsimp only
  obtain ⟨⟨v, e⟩, hp⟩ := orphanWrites_spec allPorts s
  generalize allPorts.foldl (fun acc q => orphanWrite q acc) s = A at e hp
  generalize hB : A.setCommit none = B
  have hBp : ∀ q, ∃ o, B.port q = { s.port q with op := o } := fun q => by rw [← hB]; exact hp q
  have hBh : ∀ q, B.holdsFindings q = s.holdsFindings q := fun q => by
    obtain ⟨o, ho⟩ := hBp q
    unfold State.holdsFindings
    rw [ho]
  have hBd : B.apartFindings := by
    rcases hd with h | h
    · left
      rw [← hB, e]
      exact h
    · exact .inr (fun q => by rw [hBh]; exact h q)
  obtain ⟨k1, k2, k3⟩ := classifyHeld_keeps hBd
  have hBm : B.mapStore = { s.mapStore with commit := none } := by rw [← hB, e]; rfl
  have hBl : B.log = s.log := by rw [← hB, e]; rfl
  have hBn : ∀ k, B.notice k = s.notice k := fun k => by rw [← hB, e]; rfl
  have C := classifyHeld_spec B
  generalize classifyHeld B = D at C k1 k2 k3
  obtain ⟨n, en⟩ := raise_eq ⟨.commitDone, none⟩ (.commit r D.mapStore.active.generation c.written c.failed) D
  have N := fun j => raise_notice ⟨.commitDone, none⟩ j (.commit r D.mapStore.active.generation c.written c.failed) D
  have ha : D.mapStore.active = s.mapStore.active := by rw [C.mapStore, hBm]
  refine ⟨?_, ?_, fun k hk => ?_, fun q hq => ?_, fun q pr h1 h2 h3 => ?_⟩
  · rw [(calm_raiseSingle _ _ _).mapStore, C.mapStore, hBm]
  · exact (congrArg State.log en).trans (k1.trans hBl)
  · refine (N k).trans ?_
    rw [ha, k2 _ hk, k2 _ (by simp), hBn, hBn]
    by_cases h : k = ⟨.commitDone, none⟩
    · rw [if_pos h, if_pos h, h]
    · rw [if_neg h, if_neg h]
  · obtain ⟨o, ho⟩ := hBp q
    have nh : ¬ (q ∈ allPorts ∧ B.holdsFindings q = true) := by
      rintro ⟨_, h⟩
      unfold State.holdsFindings at h
      rw [ho] at h
      simp only [Bool.and_eq_true, decide_eq_true_eq] at h
      exact hq h.1
    refine ⟨(N _).trans ?_, o, ((calm_raiseSingle _ _ _).port q).trans ?_⟩
    · rw [if_neg (by simp), k3 q (by simpa [mem_allPorts] using nh), hBn]
    · rw [C.port q]
      unfold State.classifiedPort
      rw [if_neg nh, ho]
  · obtain ⟨o, ho⟩ := hBp q
    have hh : B.holdsFindings q = true := by
      unfold State.holdsFindings
      rw [ho]
      simp [h1, h2, h3]
    have P : (raiseSingle .commitDone (.commit r D.mapStore.active.generation c.written c.failed) D).port q =
        (B.port q).classified B.mapStore.active pr := by
      rw [(calm_raiseSingle _ _ _).port q, C.port q]
      unfold State.classifiedPort
      rw [if_pos ⟨mem_allPorts q, hh⟩, ho, h2]
      rfl
    rw [P, hBm, ← classFor_eq]
    exact ⟨rfl, rfl, rfl⟩

/-- The end of a commit in an event of port `p` that began in `s0` and has left the notice and the findings alone. -/
theorem endCommit_ends {s0 s : State} {c : Commit} {p : Port} (r : CommitResult) (hc : s.mapStore.commit = some c)
    (hd : s.apartFindings) (hn : s.notice ⟨.commitDone, none⟩ = s0.notice ⟨.commitDone, none⟩)
    (hp : ∀ q, q ≠ p → (s0.port q).cls = .probe → s.port q = s0.port q) :
    s0.commitEnds (settleStaging (endCommit r s)) p r c.written c.failed := by
  obtain ⟨h1, _, h3, _, h5⟩ := endCommit_spec r hc hd
  have hm : (settleStaging (endCommit r s)).mapStore = { s.mapStore with commit := none } := by rw [settleStaging_mapStore, h1]
  refine ⟨by rw [hm], ?_, fun q pr hq k1 k2 k3 => ?_⟩
  · rw [settleStaging_notice _ _ (by simp), h3 _ (by simp), if_pos rfl, hn, hm]
  · obtain ⟨e, o, ho⟩ := settleStaging_port (endCommit r s) q
    rw [ho, hm]
    have := hp q hq k1
    exact h5 q pr (by rw [this]; exact k1) (by rw [this]; exact k2) k3

/-! ## FINAL -/

/-- The next FINAL rewrite is asked (R150). -/
theorem finalNext_asks {s : State} {c : Commit} {x : Target} (hc : s.mapStore.commit = some c)
    (hn : ∀ v ∈ c.targets, v.ask = none ∧ s.liveWrite v.port = false)
    (hx : firstOf c.targets (fun v => v.stage = .tentativeWritten) x) :
    finalNext s = s.setCommit (some (c.setTarget { x with ask := some ⟨.final, copySlot c.generation⟩ })) := by
  unfold finalNext
  rw [hc]
  dsimp only
  rw [if_neg, (find_firstOf (l := c.targets) (f := fun v => decide (v.stage = .tentativeWritten))
    (P := fun v => v.stage = .tentativeWritten) (fun v => by simp) x).2 hx]
  rw [List.any_eq_true]
  rintro ⟨v, hv, h⟩
  obtain ⟨a, b⟩ := hn v hv
  simp [a, b] at h

/-- With no rewrite left the commit ends (R150, R153). -/
theorem finalNext_ends {s : State} {c : Commit} (hc : s.mapStore.commit = some c)
    (hn : ∀ v ∈ c.targets, v.ask = none ∧ s.liveWrite v.port = false) (hx : ∀ v ∈ c.targets, v.stage ≠ .tentativeWritten) :
    finalNext s = endCommit (if c.pointReached then .done else .failedWrite) s := by
  unfold finalNext
  rw [hc]
  dsimp only
  rw [if_neg]
  · have : c.targets.find? (fun x => decide (x.stage = .tentativeWritten)) = none := by
      rw [List.find?_eq_none]
      intro v hv
      simpa using hx v hv
    rw [this]
  · rw [List.any_eq_true]
    rintro ⟨v, hv, h⟩
    obtain ⟨a, b⟩ := hn v hv
    simp [a, b] at h

/-- The choice of the next rewrite keeps the log, and of a port outside PROBE the record but for its operation. -/
theorem finalNext_keeps {s : State} (hd : s.apartFindings) : (finalNext s).log = s.log ∧
    ∀ q, (s.port q).cls ≠ .probe → (finalNext s).notice ⟨.portAttached, some q⟩ = s.notice ⟨.portAttached, some q⟩ ∧
      ∃ o, (finalNext s).port q = { s.port q with op := o } := by
  unfold finalNext
  split
  · exact ⟨rfl, fun q _ => ⟨rfl, _, rfl⟩⟩
  next c hc =>
    split
    · exact ⟨rfl, fun q _ => ⟨rfl, _, rfl⟩⟩
    · split
      · exact ⟨rfl, fun q _ => ⟨rfl, _, rfl⟩⟩
      · obtain ⟨_, h2, _, h4, _⟩ := endCommit_spec (if c.pointReached then .done else .failedWrite) hc hd
        exact ⟨h2, h4⟩

/-- When every target of the set is written TENTATIVE, the phase becomes FINAL and the first rewrite is asked (R148, R150). -/
theorem tentativeTest_final {s : State} {c : Commit} {lead : Target} {rest : List Target} (hc : s.mapStore.commit = some c)
    (hl : c.targets = lead :: rest)
    (h : ∀ v ∈ c.targets, v.stage = .tentativeWritten ∧ v.ask = none ∧ s.liveWrite v.port = false) :
    tentativeTest s = s.setCommit (some (({ c with phase := .final } : Commit).setTarget
      { lead with ask := some ⟨.final, copySlot c.generation⟩ })) := by
  unfold tentativeTest
  rw [hc]
  dsimp only
  rw [if_pos]
  · exact finalNext_asks (s := s.setCommit (some { c with phase := .final })) (c := { c with phase := .final }) rfl
      (fun v hv => (h v hv).2) ⟨[], rest, hl, (h lead (by rw [hl]; exact List.mem_cons_self ..)).1, fun z hz => by cases hz⟩
  · rw [Bool.and_eq_true, List.all_eq_true]
    refine ⟨by rw [hl]; rfl, fun v hv => ?_⟩
    simpa using (h v hv).1

theorem firstOf_mem {α : Type} {l : List α} {P : α → Prop} {y : α} (h : firstOf l P y) : y ∈ l ∧ P y := by
  obtain ⟨a, b, e, hy, _⟩ := h
  exact ⟨by rw [e]; simp, hy⟩

/-! ## The commit point -/

/-- A FINAL map write of target `p` has succeeded, up to the choice of the next: the commit point if it is the first
(R151), and adoption (R152). -/
theorem finalWritten_spec {p : Port} {s : State} {c : Commit} {tg : Target} (hc : s.mapStore.commit = some c)
    (ht : firstOf c.targets (fun v => v.port = p) tg) :
    ∃ S : State, finalWritten p s = finalNext (S.setCommit (some { c with
        pointReached := true, written := setInsert p c.written
        targets := c.targets.map (fun v => if v.port = p then { tg with stage := .finalWritten } else v) })) ∧
      S.mapStore = (if c.pointReached then { s.mapStore with commit := some { c with pointReached := true } } else { s.mapStore with
        active := { s.mapStore.draft with generation := c.generation }
        draft := { s.mapStore.draft with generation := c.generation }, commit := some { c with pointReached := true } }) ∧
      (∃ v m n, S = { s with ports := v, mapStore := S.mapStore, notices := n, power := { s.power with marks := m } }) ∧
      S.port p = { s.port p with cls := .pooled } ∧
      (∀ q, q ≠ p → ∃ k, S.port q = { s.port q with cls := k }) ∧
      (∀ q, q ≠ p → (s.port q).cls.targetable = false → S.port q = s.port q) ∧
      (∀ q, c.pointReached = false → (∀ v ∈ c.targets, v.port ≠ q) → (s.port q).cls.targetable = true →
        (S.port q).cls = S.mapStore.active.classOf ((s.port q).member.bind (·.newest))) ∧
      S.notice ⟨.commitDone, none⟩ = s.notice ⟨.commitDone, none⟩ ∧
      S.notice ⟨.portAttached, some p⟩ = if (s.port p).cls = .pooled then s.notice ⟨.portAttached, some p⟩
        else some (raisedOnce ⟨.portAttached, some p⟩ (.portClass .pooled) (s.notice ⟨.portAttached, some p⟩)) := by
  obtain ⟨hm, hp⟩ := firstOf_mem ht
  have fd := (find_firstOf (l := c.targets) (f := fun v => decide (v.port = p)) (P := fun v => v.port = p) (fun v => by simp) tg).2 ht
  have htp : c.isTarget p = true := isTarget_true hm hp
  -- the commit point
  have A : ∃ A : State, (if c.pointReached then s else commitPoint s) = A ∧
      (∃ v m n, A = { s with ports := v, mapStore := A.mapStore, notices := n, power := { s.power with marks := m } }) ∧
      A.mapStore = (if c.pointReached then s.mapStore else { s.mapStore with
        active := { s.mapStore.draft with generation := c.generation }
        draft := { s.mapStore.draft with generation := c.generation }, commit := some { c with pointReached := true } }) ∧
      A.port p = s.port p ∧ (∀ q, ∃ k, A.port q = { s.port q with cls := k }) ∧
      (∀ q, (s.port q).cls.targetable = false → A.port q = s.port q) ∧
      (∀ q, c.pointReached = false → (∀ v ∈ c.targets, v.port ≠ q) → (s.port q).cls.targetable = true →
        (A.port q).cls = A.mapStore.active.classOf ((s.port q).member.bind (·.newest))) ∧
      A.notice ⟨.commitDone, none⟩ = s.notice ⟨.commitDone, none⟩ ∧
      A.notice ⟨.portAttached, some p⟩ = s.notice ⟨.portAttached, some p⟩ := by
    refine ⟨_, rfl, ?_⟩
    cases hr : c.pointReached with
    | true => exact ⟨⟨s.ports, s.power.marks, s.notices, rfl⟩, rfl, rfl, fun q => ⟨_, rfl⟩, fun _ _ => rfl, fun _ h _ _ => absurd h (by simp), rfl, rfl⟩
    | false =>
      simp only [Bool.false_eq_true, if_false]
      unfold commitPoint
      rw [hc]
      dsimp only
      generalize hX : s.setMaps _ = X
      have hXc : X.mapStore.commit = some { c with pointReached := true } := by rw [← hX]; rfl
      have hXp : ∀ q, X.port q = s.port q := fun q => by rw [← hX]; rfl
      obtain ⟨⟨v, m, n, e⟩, a, b, d⟩ := reclassifies_spec allPorts (by decide) X hXc
      have tgt : ∀ q, ({ c with pointReached := true } : Commit).isTarget q = c.isTarget q := fun _ => rfl
      refine ⟨⟨v, m, n, ?_⟩, ?_, ?_, fun q => ?_, fun q h => ?_, fun q _ h1 h2 => ?_, ?_, ?_⟩
      · rw [e, ← hX]; rfl
      · rw [e, ← hX]; rfl
      · rw [a p (.inr (.inl htp)), hXp]
      · obtain ⟨⟨k, h⟩, _⟩ := reclassifies_member q allPorts X
        exact ⟨k, by rw [h, hXp]⟩
      · rw [a q (.inr (.inr (by rw [hXp]; exact h))), hXp]
      · rw [b q (mem_allPorts q) (isTarget_false h1) (by rw [hXp]; exact h2), hXp, e]
      · rw [d _ (fun q _ => by simp), ← hX]; rfl
      · rw [d _ (fun q hq => ?_), ← hX]
        · rfl
        · rintro h
          cases h
          rw [tgt, htp] at hq
          cases hq
  obtain ⟨A, eA, ⟨v, m, n, fA⟩, mA, pA, qA, rA, kA, cA, nA⟩ := A
  -- adoption
  have B : ∃ B : State, adopt p A = B ∧
      (∃ v m n, B = { A with ports := v, notices := n, power := { A.power with marks := m } }) ∧
      (∀ q, B.port q = if q = p then { A.port p with cls := .pooled } else A.port q) ∧
      (B.notice ⟨.commitDone, none⟩ = A.notice ⟨.commitDone, none⟩) ∧
      B.notice ⟨.portAttached, some p⟩ = if (A.port p).cls = .pooled then A.notice ⟨.portAttached, some p⟩
        else some (raisedOnce ⟨.portAttached, some p⟩ (.portClass .pooled) (A.notice ⟨.portAttached, some p⟩)) := by
    refine ⟨_, rfl, ?_⟩
    unfold adopt
    by_cases h : (A.port p).cls = .pooled
    · rw [if_pos h, if_pos h]
      refine ⟨⟨A.ports, A.power.marks, A.notices, rfl⟩, fun q => ?_, rfl, rfl⟩
      by_cases hq : q = p
      · rw [if_pos hq, hq, ← h]
      · rw [if_neg hq]
    · rw [if_neg h, if_neg h]
      obtain ⟨m, em⟩ := setClass_eq p .pooled A
      obtain ⟨n, en⟩ := raise_eq ⟨.portAttached, some p⟩ (.portClass .pooled) (setClass p .pooled A)
      have N := fun j => raise_notice ⟨.portAttached, some p⟩ j (.portClass .pooled) (setClass p .pooled A)
      refine ⟨⟨_, m, n, en.trans (by rw [em])⟩, fun q => ?_, ?_, ?_⟩
      · exact ((calm_raisePort _ _ _ _).port q).trans (setClass_port p q .pooled A)
      · refine (N _).trans ?_
        rw [if_neg (by simp), em]
        rfl
      · refine (N _).trans ?_
        rw [if_pos rfl, em]
        rfl
  obtain ⟨B, eB, ⟨v2, m2, n2, fB⟩, pB, cB, nB⟩ := B
  have mB : B.mapStore = A.mapStore := by rw [fB]
  have hBc : B.mapStore.commit = some { c with pointReached := true } := by
    rw [mB, mA]
    split
    next h => rw [hc, ← h]
    · rfl
  refine ⟨B.setMaps { B.mapStore with commit := some { c with pointReached := true } }, ?_, ?_, ⟨v2, m2, n2, ?_⟩, ?_, fun q hq => ?_, fun q hq h => ?_,
    fun q h1 h2 h3 => ?_, cB.trans cA, ?_⟩
  · unfold finalWritten
    rw [hc]
    dsimp only
    rw [eA, eB, hBc]
    dsimp only
    rw [fd]
    dsimp only
    congr 1
    unfold Commit.setTarget State.setCommit
    rw [show ({ tg with stage := TargetStage.finalWritten } : Target).port = p from hp]
    rfl
  · show ({ B.mapStore with commit := some { c with pointReached := true } } : MapStore) = _
    rw [mB, mA]
    split
    · rfl
    · rfl
  · unfold State.setMaps
    rw [fB, fA]
  · show B.port p = _
    rw [pB, if_pos rfl, pA]
  · obtain ⟨k, h⟩ := qA q
    exact ⟨k, by show B.port q = _; rw [pB, if_neg hq, h]⟩
  · show B.port q = _
    rw [pB, if_neg hq, rA q h]
  · have hq : q ≠ p := fun h => h2 tg hm (h ▸ hp)
    show (B.port q).cls = B.mapStore.active.classOf _
    rw [pB, if_neg hq, kA q h1 h2 h3, mB]
  · refine nB.trans ?_
    rw [pA, nA]

/-! ## A map write that fails -/

theorem requestFault_none {s : State} {t : Tag} (h : s.request t = none) (st : CompletionStatus) (x : Option Nat)
    (c : HistoryCause) : requestFault t st x c s = s := by
  unfold requestFault
  rw [h]

theorem failWaitingAll_quiesced {s : State} (h : s.quiesced) (p : Port) : failWaitingAll p s = s := by
  have k : ∀ u, ¬ s.wantsReturn u := by
    rintro u ⟨r, _, _, e, _⟩
    rw [h.1 u] at e
    cases e
  unfold failWaitingAll
  rw [forAdmitted_idle, assignReturns_idle k]
  intro t
  unfold failWaiting
  cases s.fetchRecord t with
  | none => rfl
  | some f =>
    dsimp only
    cases f.fetch with
    | none => rfl
    | some v =>
      dsimp only
      rw [requestFault_none (h.1 t)]
      exact ite_self _

theorem State.quiesced.apartFindings {s : State} (h : s.quiesced) : s.apartFindings := by
  refine .inl (fun i => ?_)
  rcases h.2 i with e | e <;> cases k : s.slot i <;> rw [k] at e <;> first | rfl | cases e

theorem State.quiesced.noDirty {s : State} (h : s.quiesced) (i : SlotNo) : (s.slot i).isDirty = false := by
  rcases h.2 i with e | e <;> cases k : s.slot i <;> rw [k] at e <;> first | rfl | cases e

/-- A port with no operation in flight goes FAILED in a part with nothing under way, its target record aside. -/
theorem portFailed_quiesced {p : Port} {c : HistoryCause} {b : Bool} {s : State} {m : MapStore} (h : s.quiesced) (k : (s.port p).op = none)
    (hm : ∀ S, S.mapStore = s.mapStore → (S.port p).op = none → dropTarget p true b S = { S with mapStore := m }) :
    ∃ ns, (∀ j, ns.pending.find? (fun n => n.key = j) =
        if j = ⟨.portFailed, some p⟩ then some (raisedOnce j (.cause c) (s.notice j)) else s.notice j) ∧
      portFailed p c [] b s = { s with
        ports := s.ports.set p { s.port p with cls := .failed, engine := .idle, probe := none, debounce := none }
        power := { s.power with marks := s.marksAfter p .failed }, mapStore := m, notices := ns } := by
  unfold portFailed
  rw [loseOp_none k]
  dsimp only
  rw [List.append_nil, handOnWalk_nil]
  generalize hW : ({ s with
      ports := s.ports.set p { s.port p with cls := .failed, engine := .idle, probe := none, debounce := none }
      power := { s.power with marks := s.marksAfter p .failed } } : State) = W
  have hWe : State.setPort (setClass p .failed s) p
      { (setClass p .failed s).port p with engine := .idle, probe := none, debounce := none } = W := by
    rw [setClass_self, setClass_marks, ← hW]
    unfold State.setPort
    dsimp only
    rw [Vector.set_set]
  rw [hWe]
  have qW : W.quiesced := by rw [← hW]; exact h
  have hF : (if decide ((s.port p).cls = .pooled) = true then failWaitingAll p W else W) = W := by
    rw [failWaitingAll_quiesced qW]
    exact ite_self _
  rw [hF, hm W (by rw [← hW]) (by
    rw [← hW]
    exact (congrArg PortRecord.op (Vector.getElem_set_self (xs := s.ports) p.isLt)).trans k)]
  have hD : ({ W with mapStore := m } : State).dirtyOn p = [] := dirtyOn_none (fun i x mk d e => by
    have := qW.noDirty i
    rw [show W.slot i = .dirty x mk d from e] at this
    cases this)
  rw [hD]
  obtain ⟨n2, e2⟩ := raise_eq ⟨.portFailed, some p⟩ (.cause c) { W with mapStore := m }
  have N := fun j => raise_notice ⟨.portFailed, some p⟩ j (.cause c) { W with mapStore := m }
  rw [e2] at N
  refine ⟨n2, fun j => ?_, ?_⟩
  · refine (N j).trans ?_
    have : ∀ j, ({ W with mapStore := m } : State).notice j = s.notice j := fun j => by rw [← hW]; rfl
    rw [this, this]
    by_cases hj : j = ⟨.portFailed, some p⟩
    · rw [if_pos hj, if_pos hj, hj]
    · rw [if_neg hj, if_neg hj]
  · exact e2.trans (by rw [← hW])

/-- After another operation's end no mark is DECLINED (R164). -/
theorem marksClosed_ne (s : State) (p : Port) : (s.marksClosed p)[p] ≠ .declined := by
  unfold State.marksClosed
  split
  · rw [Fin.getElem_fin, Vector.getElem_set_self]
    simp
  next h => exact h

/-- The history entry of a failed map write names no tag and no LBN (R117). -/
theorem portEntry_mapWrite {s : State} {p : Port} {o : Operation} {w : MapWrite} {g k : Word32} {l : Bool} {b : Nat} {d : List Byte}
    (hu : o.user = .mapWrite w g k l) (hk : o.kind = .pgblk b d) (c : HistoryCause) (n : Nat) :
    s.portEntry p o c n = ⟨c, .port, none, none, some p, some b, n⟩ := by
  unfold State.portEntry
  rw [hu, hk]
  rfl

/-- A map write fails in a part with nothing under way, up to what its commit does: the entry, the count, FAILED, and
PORT_FAILED (R105, R106, R116). -/
theorem mapWriteFailed_quiesced {p : Port} {b : Bool} {n : Nat} {pbn : Option Nat} {s : State} {m : MapStore} (h : s.quiesced)
    (k : (s.port p).op = none) (hk : s.mark p ≠ .declined)
    (hm : ∀ S, S.mapStore = s.mapStore → (S.port p).op = none → dropTarget p true b S = { S with mapStore := m }) :
    ∃ ns, (∀ j, ns.pending.find? (fun n => n.key = j) =
        if j = ⟨.portFailed, some p⟩ then some (raisedOnce j (.cause .mapWriteFailed) (s.notice j))
        else if j = ⟨.logAdded, none⟩ then some (raisedOnce j (.number s.log.nextNumber) (s.notice j))
        else s.notice j) ∧
      portFailed p .mapWriteFailed [] b (setFailures p (min ((s.port p).failures + 1) Config.failureLimit)
          (addEntry ⟨.mapWriteFailed, .port, none, none, some p, pbn, n⟩ s)) = { s with
        ports := s.ports.set p { s.port p with
          cls := .failed, engine := .idle, probe := none, debounce := none, failures := min ((s.port p).failures + 1) 3 }
        mapStore := m, log := s.portLogged p .mapWriteFailed none none pbn n, notices := ns } := by
  obtain ⟨n1, a1, a2⟩ := addEntry_port p .mapWriteFailed none none pbn n s
  rw [a2]
  generalize hX : setFailures p (min ((s.port p).failures + 1) Config.failureLimit)
    { s with log := s.portLogged p .mapWriteFailed none none pbn n, notices := n1 } = X
  have lim : Config.failureLimit = 3 := rfl
  have XP : X.port p = { s.port p with failures := min ((s.port p).failures + 1) 3 } := by
    rw [← hX]
    unfold setFailures
    rw [State.port_setPort, if_pos rfl, lim]
    rfl
  have XM : X.mapStore = s.mapStore := by rw [← hX]; rfl
  obtain ⟨ns, b1, b2⟩ := portFailed_quiesced (p := p) (c := .mapWriteFailed) (b := b) (s := X) (m := m) (by rw [← hX]; exact h)
    (by rw [XP]; exact k) (fun S h1 h2 => hm S (h1.trans XM) h2)
  refine ⟨ns, fun j => ?_, ?_⟩
  · have : ∀ j, X.notice j = n1.pending.find? (fun n => n.key = j) := fun j => by rw [← hX]; rfl
    rw [b1, this, a1]
    by_cases hj : j = ⟨.portFailed, some p⟩
    · rw [if_pos hj, if_pos hj, if_neg (by rw [hj]; simp)]
    · rw [if_neg hj, if_neg hj]
  · have mk : X.marksAfter p .failed = s.power.marks := by
      unfold State.marksAfter
      rw [if_neg]
      · rw [← hX]; rfl
      · rintro ⟨_, c⟩
        rw [← hX] at c
        exact hk c
    rw [b2, mk, XP, ← hX]
    unfold setFailures State.setPort
    dsimp only
    rw [Vector.set_set]

/-! ## A target dropped on a change of presence -/

/-- The drop of a target that left its class otherwise than by a failed map write (R147). -/
theorem dropTarget_left {p : Port} {s : State} {c : Commit} (hc : s.mapStore.commit = some c) (ht : c.isTarget p = true) :
    let rest := c.targets.filter (fun v => v.port ≠ p)
    ∃ X o, X = { s with
        ports := s.ports.set p { s.port p with op := o }
        mapStore := { s.mapStore with commit := some { c with targets := rest } } } ∧
      o = (s.port p).op.map (fun q => { q with user := q.user.orphaned }) ∧
      dropTarget p false false s = if !c.pointReached && rest.isEmpty then endCommit .failedNoTarget X
        else match c.phase with
          | .quiesce _ => X
          | .tentative => tentativeTest X
          | .final => finalNext X := by
  intro rest
  refine ⟨orphanWrite p (s.setCommit (some { c with targets := rest })), _, ?_, rfl, ?_⟩
  · unfold orphanWrite
    have hp : (s.setCommit (some { c with targets := rest })).port p = s.port p := rfl
    rw [hp]
    cases e : (s.port p).op with
    | none =>
      dsimp only [Option.map_none]
      rw [← e]
      have : s.ports.set p (s.port p) = s.ports := Vector.set_getElem_self p.isLt
      show _ = ({ s with ports := s.ports.set p (s.port p), mapStore := _ } : State)
      rw [this]
      rfl
    | some q =>
      dsimp only [Option.map_some]
      have same : q.user.orphaned = q.user → s.setCommit (some { c with targets := rest }) =
          { s with
            ports := s.ports.set p { s.port p with op := some { q with user := q.user.orphaned } }
            mapStore := { s.mapStore with commit := some { c with targets := rest } } } := by
        intro h
        rw [h, show ({ s.port p with op := some { q with user := q.user } } : PortRecord) = s.port p by rw [← e]]
        show _ = ({ s with ports := s.ports.set p s.ports[p], mapStore := _ } : State)
        rw [show s.ports.set p s.ports[p] = s.ports from Vector.set_getElem_self p.isLt]
        rfl
      cases e2 : q.user with
      | mapWrite w g k l => rfl
      | _ => exact (same (by rw [e2]; rfl)).trans (by rw [e2])
  · unfold dropTarget
    rw [hc]
    dsimp only
    rw [if_pos ht]
    rfl

/-- A failed map write of a live target leaves the target set, and nothing more yet (R149, R153). -/
theorem dropTarget_byWrite {p : Port} {s : State} {c : Commit} (hc : s.mapStore.commit = some c) (ht : c.isTarget p = true)
    (k : (s.port p).op = none) : dropTarget p true true s = { s with mapStore := { s.mapStore with
      commit := some { c with targets := c.targets.filter (fun v => v.port ≠ p), failed := setInsert p c.failed } } } := by
  unfold dropTarget
  rw [hc]
  dsimp only
  rw [if_pos ht]
  have idle : ∀ x, ((s.setCommit x).port p).op = none := fun _ => k
  unfold orphanWrite
  rw [idle]
  rfl

end Sys2Proof.Machine
end

