-- ==== Sys2Proof/Laws/Returns.lean ====
section
/-! SUPPORT. The assignment of one return slot: which READ is served, which slot it takes, when the event ends with it, and
what the start of a THROUGH fetch does to the staged copies (R60, R61, R86). -/

namespace Sys2Proof.Machine

/-- The lowest-numbered FREE return slot is the one found. -/
theorem State.find_return {s : State} {n : RetNo} (h : s.returnSlot n = .free)
    (hl : ∀ m, m < n → s.returnSlot m ≠ .free) : allReturns.find? (fun r => s.returnSlot r = .free) = some n := by
  have key : ∀ (p : RetNo → Bool) (n : RetNo), p n = true → (∀ m, m < n → p m = false) → allReturns.find? p = some n := by
    intro p n hp hm
    have all : ∀ n : RetNo, n = 0 ∨ n = 1 ∨ n = 2 ∨ n = 3 ∨ n = 4 ∨ n = 5 ∨ n = 6 ∨ n = 7 := by decide
    rcases all n with rfl | rfl | rfl | rfl | rfl | rfl | rfl | rfl <;> simp [allReturns, hp, hm]
  exact key _ n (by simp [h]) (fun m hm => by simp [hl m hm])

/-- No return slot is FREE any more, and none is assigned. -/
theorem assignReturnsUpTo_full (k : Nat) {s : State} (h : ∀ r, s.returnSlot r ≠ .free) : assignReturnsUpTo k s = s := by
  cases k with
  | zero => rfl
  | succ k =>
    unfold assignReturnsUpTo
    rw [List.find?_eq_none.2 (fun r _ => by simpa using h r)]
    cases s.nextRead <;> rfl

/-- The READ served next: the first URGENT one, and with none the first (R60). -/
theorem State.nextRead_first {s : State} {t : Tag}
    (h : firstOf s.table.admissionOrder (fun u => s.wantsReturn u ∧ ∃ q, s.request u = some q ∧ q.urgent = true) t ∨
      ((∀ u, s.wantsReturn u → ¬ ∃ q, s.request u = some q ∧ q.urgent = true) ∧
        firstOf s.table.admissionOrder s.wantsReturn t)) : s.nextRead = some t := by
  have hu : ∀ u, s.isUrgent u = true ↔ ∃ q, s.request u = some q ∧ q.urgent = true := by
    intro u
    unfold State.isUrgent
    cases s.request u <;> simp
  have hb : ∀ u, (s.eligibleRead u && s.isUrgent u) = true ↔ s.wantsReturn u ∧ ∃ q, s.request u = some q ∧ q.urgent = true :=
    fun u => by rw [Bool.and_eq_true, s.eligibleRead_iff, hu]
  unfold State.nextRead
  rcases h with h | ⟨h, k⟩
  · rw [(find_firstOf hb t).2 h]
  · rw [List.find?_eq_none.2 (fun u _ e => h u ((hb u).1 e).1 ((hb u).1 e).2)]
    exact (find_firstOf (fun u => s.eligibleRead_iff u) t).2 k

/-- The first assignment gives slot `n` to the READ of tag `t` and starts its fetch. -/
theorem assignReturns_first {s : State} {t : Tag} {r : Request} {g : BlockRange} {f : FetchRecord} {n : RetNo}
    (hn : s.nextRead = some t) (hr : s.request t = some r) (hg : r.range = some g) (hf : s.fetchRecord t = some f)
    (h1 : s.returnSlot n = .free) (h2 : ∀ m, m < n → s.returnSlot m ≠ .free) :
    assignReturns s = assignReturnsUpTo 8 (startFetch t (some n) (s.setReturnSlot n
      (.fetching ⟨t, r.admission⟩ f.cursor (g.first + f.cursor)))) := by
  unfold assignReturns
  rw [assignReturnsUpTo, hn, s.find_return h1 h2]
  dsimp only
  unfold assignReturn
  rw [hr, hf]
  dsimp only
  rw [hg]

/-- The event ends with the assignment of slot `n` to tag `t`: no other slot was FREE, or no other READ wants one. -/
theorem assignReturnsUpTo_last {s S : State} {t : Tag} {n : RetNo} {m : Mover} {v : Staging} (k : Nat)
    (e : S = { s with mover := m, staging := v }) (hm : ∀ u, u ≠ t → m.fetches[u] = s.mover.fetches[u])
    (hr : ∀ i, i ≠ n → m.returns[i] = s.mover.returns[i]) (hn : m.returns[n] ≠ .free)
    (h : (∀ i, i ≠ n → s.returnSlot i ≠ .free) ∨ ((∀ u, u ≠ t → ¬ s.wantsReturn u) ∧ ¬ S.wantsReturn t)) :
    assignReturnsUpTo k S = S := by
  subst e
  rcases h with h | ⟨h, h0⟩
  · refine assignReturnsUpTo_full k (fun i => ?_)
    by_cases e : i = n
    · rw [e]; exact hn
    · exact fun z => h i e ((hr i e).symm.trans z)
  · refine assignReturnsUpTo_idle k (fun u => ?_)
    by_cases e : u = t
    · rw [e]; exact h0
    · rintro ⟨r, g, f, x1, x2, x3, x4, x5, x6⟩
      exact h u e ⟨r, g, f, x1, x2, x3, x4, (hm u e).symm.trans x5, x6⟩

/-- Promotion marks every DIRTY and every DRAINING slot that holds `x` and touches nothing else (R86). -/
theorem promote_eq (x : Nat) (s : State) : ∃ v : Vector StagingSlot 32,
    promote x s = { s with staging := { s.staging with slots := v } } ∧ ∀ i, v[i] = (s.slot i).promoted x := by
  have key : ∀ (l : List SlotNo) (S : State), ∃ v : Vector StagingSlot 32,
      l.foldl (fun acc i => acc.setStaging i ((acc.slot i).promoted x)) S = { S with staging := { S.staging with slots := v } } ∧
      ∀ i, v[i] = if i ∈ l then (S.slot i).promoted x else S.slot i := by
    intro l
    induction l with
    | nil => exact fun S => ⟨S.staging.slots, rfl, fun i => rfl⟩
    | cons j l ih =>
      intro S
      obtain ⟨v, e, k⟩ := ih (S.setStaging j ((S.slot j).promoted x))
      refine ⟨v, e, fun i => ?_⟩
      rw [k i, State.slot_setStaging]
      by_cases h1 : i = j
      · subst h1
        rw [if_pos rfl, if_pos (List.mem_cons_self ..)]
        have : ((S.slot i).promoted x).promoted x = (S.slot i).promoted x := by
          cases S.slot i <;> simp [StagingSlot.promoted]
        rw [this, ite_self]
      · rw [if_neg h1]
        by_cases h2 : i ∈ l
        · rw [if_pos h2, if_pos (List.mem_cons_of_mem _ h2)]
        · rw [if_neg h2, if_neg (by simp [h1, h2])]
  obtain ⟨v, e, k⟩ := key allSlots s
  exact ⟨v, e, fun i => (k i).trans (if_pos (mem_allSlots i))⟩

/-- No slot that `p` picks holds `x`. -/
theorem State.findLbn_none {s : State} {p : StagingSlot → Bool} {x : Nat}
    (h : ∀ i, p (s.slot i) = true → (s.slot i).lbn? ≠ some x) : s.findLbn p x = none :=
  List.find?_eq_none.2 (fun i _ => by simpa using h i)

/-- One slot that `p` picks holds `x`. -/
theorem State.findLbn_one {s : State} {p : StagingSlot → Bool} {x : Nat} {i : SlotNo} (h1 : p (s.slot i) = true)
    (h2 : (s.slot i).lbn? = some x) (h : ∀ j, p (s.slot j) = true → (s.slot j).lbn? = some x → j = i) :
    s.findLbn p x = some i := by
  unfold State.findLbn
  cases e : allSlots.find? (fun j => p (s.slot j) && decide ((s.slot j).lbn? = some x)) with
  | none =>
    rw [List.find?_eq_none] at e
    exact absurd (by simp [h1, h2]) (e i (mem_allSlots i))
  | some j =>
    have := List.find?_some e
    simp only [Bool.and_eq_true, decide_eq_true_eq] at this
    rw [h j this.1 this.2]

end Sys2Proof.Machine
end

