-- ==== Sys2Proof/Laws/Stranded.lean ====
section
/-! SUPPORT. STRANDED-RETRY and STRANDED-DISCARD, said once over the slots they name (R90, R91). -/

namespace Sys2Proof.Machine

/-! ## Retry -/

/-- The slot that a retry leaves of `z`. -/
def StagingSlot.retried (ok : Nat → Bool) : StagingSlot → StagingSlot
  | .stranded x m d r => if ok x then .dirty x m d else .stranded x m d r
  | .free => .free
  | .filling x o m => .filling x o m
  | .dirty x m d => .dirty x m d
  | .draining x m d => .draining x m d

/-- A retry of one slot. -/
theorem retrySlot_spec (i : SlotNo) (s : State) :
    retrySlot i s = { s with staging := { s.staging with
      slots := s.staging.slots.set i ((s.slot i).retried s.available)
      drainOrder := s.staging.drainOrder ++
        if (s.slot i).isStranded && (s.slot i).lbn?.any s.available then [i] else [] } } := by
  unfold retrySlot
  have K : ∀ z, s.slot i = z → s.staging.slots.set i z = s.staging.slots := by
    intro z hz
    rw [← hz]
    unfold State.slot
    simp
  split
  · rename_i x m d r e
    rw [e]
    by_cases h : s.available x
    · simp [h, StagingSlot.retried, StagingSlot.isStranded, StagingSlot.lbn?, State.setStaging, State.setDrainOrder]
    · simp [h, StagingSlot.retried, StagingSlot.isStranded, StagingSlot.lbn?, K _ e]
  all_goals
    rename_i e
    rw [e]
    simp [StagingSlot.retried, StagingSlot.isStranded, StagingSlot.lbn?, K _ e]

/-- Some slots retried, one after the other. -/
theorem retrySlots_spec (l : List SlotNo) (hl : l.Nodup) (s : State) :
    ∃ v : Vector StagingSlot 32, l.foldl (fun acc i => retrySlot i acc) s = { s with staging := { s.staging with
        slots := v
        drainOrder := s.staging.drainOrder ++ l.filter (fun i => (s.slot i).isStranded && (s.slot i).lbn?.any s.available) } } ∧
      ∀ i : SlotNo, v[i] = if i ∈ l then (s.slot i).retried s.available else s.slot i := by
  induction l generalizing s with
  | nil => exact ⟨s.staging.slots, by simp, fun i => by simp [State.slot]⟩
  | cons i l ih =>
    rw [List.nodup_cons] at hl
    rw [List.foldl_cons, retrySlot_spec]
    generalize hY : ({ s with staging := _ } : State) = Y
    obtain ⟨v, e, hv⟩ := ih hl.2 Y
    have hs : ∀ j, j ≠ i → Y.slot j = s.slot j := by
      intro j hj
      rw [← hY]
      show (s.staging.slots.set i _)[j] = _
      rw [Fin.getElem_fin, Vector.getElem_set_ne _ _ (fun c => hj (Fin.ext c.symm))]
      rfl
    have ha : Y.available = s.available := by rw [← hY]; rfl
    refine ⟨v, ?_, fun j => ?_⟩
    · rw [e, ← hY]
      simp only [List.filter_cons]
      have : l.filter (fun j => (Y.slot j).isStranded && (Y.slot j).lbn?.any Y.available) =
          l.filter (fun j => (s.slot j).isStranded && (s.slot j).lbn?.any s.available) := by
        refine List.filter_congr (fun j hj => ?_)
        rw [ha, hs j (fun c => hl.1 (c ▸ hj))]
      rw [hY, this]
      congr 2
      split <;> simp
    · rw [hv, ha]
      by_cases hj : j = i
      · rw [if_neg (by rw [hj]; exact hl.1), if_pos (by simp [hj]), ← hY, hj]
        show (s.staging.slots.set i _)[i] = _
        simp
      · rw [hs j hj]
        simp [hj]

/-! ## Discard -/

/-- The history entry of a discarded slot, with its place among the discards (R91, R190). -/
def State.discardEntry (s : State) (z : SlotNo × Nat) : HistoryEntry :=
  ⟨laterNumber z.2 s.log.nextNumber, s.log.uptime, .dataDiscarded, .staging, none, (s.slot z.1).lbn?, none, none, 0,
    s.log.recent⟩

/-- What discarding the STRANDED slots of `l` leaves of `s`. -/
structure Discarded (s t : State) (l : List SlotNo) : Prop where
  parts : t.link = s.link ∧ t.table = s.table ∧ t.mapStore = s.mapStore ∧ t.params = s.params
  drainOrder : t.staging.drainOrder = s.staging.drainOrder
  pressure : t.staging.pressure = s.staging.pressure
  fetches : t.mover.fetches = s.mover.fetches ∧ t.mover.returns = s.mover.returns ∧ t.mover.fillOrder = s.mover.fillOrder
  errors : t.log.errorCount = s.log.errorCount
  stamp : t.log.uptime = s.log.uptime ∧ t.log.recent = s.log.recent
  freed : ∀ i, i ∈ l → (t.slot i).isFree = true ∨ (t.slot i).isFilling = true
  kept : ∀ i, i ∉ l → (s.slot i).isFree = false → t.slot i = s.slot i
  filled : ∀ i, (s.slot i).isFree = true → (t.slot i).isFree = true ∨ (t.slot i).isFilling = true
  idle : (∀ u, ¬ s.waits u) → (∀ i, t.slot i = if i ∈ l then .free else s.slot i) ∧ t.mover = s.mover
  number : t.log.nextNumber = laterNumber l.length s.log.nextNumber
  noRing : l = [] → t.log = s.log
  ring : l ≠ [] → t.log.ring = ((l.zipIdx.map s.discardEntry).reverse ++ s.log.ring).take 12
  notice : ∀ k, t.notice k = if k = ⟨.logAdded, none⟩ then
    raisedEach k ((List.range l.length).map (fun j => .number (laterNumber j s.log.nextNumber))) (s.notice k)
    else s.notice k

theorem take_append_take {α : Type} (a b : List α) (n : Nat) : (a ++ b.take n).take n = (a ++ b).take n := by
  rw [List.take_append, List.take_append, List.take_take, Nat.min_eq_left (Nat.sub_le n a.length)]

theorem entryAfter_number (x : Word32) : entryAfter x = laterNumber 1 x := rfl

theorem State.discardEntry_stamp {s t : State} {z : SlotNo × Nat} (hn : t.log.nextNumber = laterNumber 1 s.log.nextNumber)
    (hu : t.log.uptime = s.log.uptime ∧ t.log.recent = s.log.recent) (hs : t.slot z.1 = s.slot z.1) :
    t.discardEntry z = s.discardEntry (z.1, z.2 + 1) := by
  unfold State.discardEntry
  rw [hn, hu.1, hu.2, hs]
  rfl

/-- One discard, before the grants: the slot is FREE and its entry is made. -/
theorem discard_entry (i : SlotNo) (s : State) : ∃ X, discardSlot i s = formGrants X ∧
    (∃ n, X = { s.setStaging i .free with notices := n, log := { s.log with
      ring := (s.discardEntry (i, 0) :: s.log.ring).take 12, nextNumber := laterNumber 1 s.log.nextNumber } }) ∧
    (∀ j, X.slot j = if j = i then .free else s.slot j) ∧
    ∀ k, X.notice k = if k = ⟨.logAdded, none⟩ then some (raisedOnce k (.number s.log.nextNumber) (s.notice k))
      else s.notice k := by
  obtain ⟨n, e, hn⟩ := addEntry_entry { cause := .dataDiscarded, source := .staging, tag := none, lbn := (s.slot i).lbn?
                                        port := none, pbn := none, attempts := 0 } (s.setStaging i .free)
  exact ⟨_, congrArg formGrants e, ⟨n, rfl⟩, fun j => State.slot_setStaging s i j .free, hn⟩

theorem granted_discard (i : SlotNo) (s : State) : ∃ X, Granted X (discardSlot i s) ∧ discardSlot i s = formGrants X ∧
    (∃ n, X = { s.setStaging i .free with notices := n, log := { s.log with
      ring := (s.discardEntry (i, 0) :: s.log.ring).take 12, nextNumber := laterNumber 1 s.log.nextNumber } }) ∧
    (∀ j, X.slot j = if j = i then .free else s.slot j) ∧
    ∀ k, X.notice k = if k = ⟨.logAdded, none⟩ then some (raisedOnce k (.number s.log.nextNumber) (s.notice k))
      else s.notice k := by
  obtain ⟨X, e, h⟩ := discard_entry i s
  exact ⟨X, e ▸ granted_formGrants X, e, h⟩

/-- One discard. -/
theorem discardSlot_spec (i : SlotNo) (s : State) : Discarded s (discardSlot i s) [i] := by
  obtain ⟨X, ⟨⟨w, o, v, eG⟩, hG⟩, e, ⟨n, hX⟩, hs, hn⟩ := granted_discard i s
  have O : ∀ j, (X.slot j).isOpen → ((discardSlot i s).slot j).isOpen := by
    rw [e]
    exact formGrants_open X
  have W : (∀ u, ¬ s.waits u) → discardSlot i s = X := by
    intro h
    rw [e, formGrants_idle]
    rw [hX]
    exact h
  have free : (X.slot i).isOpen := by
    rw [hs, if_pos rfl]
    exact .inl rfl
  have L : (discardSlot i s).log = X.log ∧ (discardSlot i s).notices = X.notices := by
    rw [eG]
    exact ⟨rfl, rfl⟩
  constructor
  case freed =>
    intro j hj
    rw [List.mem_singleton.1 hj]
    exact O i free
  case kept =>
    intro j hj hf
    have hji : j ≠ i := by simpa using hj
    rw [hG j (by rw [hs, if_neg hji]; exact hf), hs, if_neg hji]
  case filled =>
    intro j hf
    refine O j ?_
    rw [hs]
    split
    · exact .inl rfl
    · exact .inl hf
  case idle =>
    intro h
    rw [W h]
    refine ⟨by simpa using hs, ?_⟩
    rw [hX]
    rfl
  case noRing => simp
  case ring => intro _; rw [L.1, hX]; rfl
  case notice =>
    intro k
    refine (show _ = X.notice k from ?_).trans (hn k)
    unfold State.notice
    rw [L.2]
  all_goals
    simp [eG, hX, State.setStaging]

theorem Discarded.refl (s : State) : Discarded s s [] := by
  constructor
  case parts => exact ⟨rfl, rfl, rfl, rfl⟩
  case kept => exact fun _ _ _ => rfl
  case filled => exact fun _ h => .inl h
  case ring => exact fun h => absurd rfl h
  all_goals simp [raisedEach, laterNumber]

/-- Some slots discarded, one after the other. -/
theorem discardSlots_spec (l : List SlotNo) (hl : l.Nodup) (s : State) (h : ∀ i, i ∈ l → (s.slot i).isStranded = true) :
    Discarded s (l.foldl (fun acc i => discardSlot i acc) s) l := by
  induction l generalizing s with
  | nil => exact .refl s
  | cons i l ih =>
    rw [List.nodup_cons] at hl
    rw [List.foldl_cons]
    have A := discardSlot_spec i s
    generalize discardSlot i s = Y at A
    have nf : ∀ j, (s.slot j).isStranded = true → (s.slot j).isFree = false := by
      intro j hj; cases hz : s.slot j <;> rw [hz] at hj <;> first | rfl | cases hj
    have K : ∀ j, j ∈ l → Y.slot j = s.slot j := fun j hj =>
      A.kept j (by simp; exact fun c => hl.1 (c ▸ hj)) (nf j (h j (by simp [hj])))
    have B := ih hl.2 Y (fun j hj => by rw [K j hj]; exact h j (by simp [hj]))
    generalize l.foldl (fun acc i => discardSlot i acc) Y = Z at B
    have keepOpen : ∀ j, j ∉ l → (Y.slot j).isOpen → (Z.slot j).isOpen := by
      intro j hj hc
      rcases hc with c | c
      · exact B.filled j c
      · rw [B.kept j hj (by cases hz : Y.slot j <;> rw [hz] at c <;> first | rfl | cases c)]
        exact .inr c
    have waits : (∀ u, ¬ s.waits u) → ∀ u, ¬ Y.waits u := by
      intro hw u ⟨r, g, w, h1, h2, h3, h4, h5, h6⟩
      refine hw u ⟨r, g, w, ?_, h2, h3, h4, ?_, h6⟩
      · unfold State.request at h1 ⊢
        rw [A.parts.2.1] at h1
        exact h1
      · unfold State.writeRecord at h5 ⊢
        rw [(A.idle hw).2] at h5
        exact h5
    have later : ∀ j, laterNumber j Y.log.nextNumber = laterNumber (j + 1) s.log.nextNumber := fun j => by rw [A.number]; rfl
    constructor
    case parts => rw [B.parts.1, B.parts.2.1, B.parts.2.2.1, B.parts.2.2.2]; exact A.parts
    case fetches => rw [B.fetches.1, B.fetches.2.1, B.fetches.2.2]; exact A.fetches
    case stamp => rw [B.stamp.1, B.stamp.2]; exact A.stamp
    case freed =>
      intro j hj
      by_cases hc : j ∈ l
      · exact B.freed j hc
      · have : j = i := (List.mem_cons.1 hj).resolve_right hc
        exact keepOpen j hc (A.freed j (by simp [this]))
    case kept =>
      intro j hj hf
      have e := A.kept j (by simpa using fun c => hj (by simp [c])) hf
      rw [B.kept j (fun c => hj (by simp [c])) (by rw [e]; exact hf), e]
    case filled =>
      intro j hf
      by_cases hc : j ∈ l
      · exact B.freed j hc
      · exact keepOpen j hc (A.filled j hf)
    case idle =>
      intro hw
      have b := B.idle (waits hw)
      refine ⟨fun j => ?_, b.2.trans (A.idle hw).2⟩
      rw [b.1, (A.idle hw).1]
      by_cases hc : j = i
      · simp [hc]
      · simp [hc]
    case number => rw [B.number, later]; rfl
    case ring =>
      intro _
      have a := A.ring (by simp)
      have e : l.zipIdx.map Y.discardEntry = (l.zipIdx 1).map s.discardEntry := by
        rw [List.zipIdx_succ, List.map_map]
        refine List.map_congr_left (fun z hz => ?_)
        exact State.discardEntry_stamp A.number A.stamp (K z.1 (List.fst_mem_of_mem_zipIdx hz))
      by_cases hc : l = []
      · subst hc
        rw [B.noRing rfl]
        exact a
      · rw [B.ring hc, a, e, take_append_take, List.zipIdx_cons (as := l), List.map_cons (l := l.zipIdx _), List.reverse_cons,
          List.append_assoc]
        rfl
    case notice =>
      intro k
      rw [B.notice k, A.notice k]
      split
      · simp only [later]
        rw [List.length_cons (as := l), List.range_succ_eq_map, List.map_cons, List.map_map]
        rfl
      · rfl
    case noRing => intro c; cases c
    all_goals first | exact B.drainOrder.trans A.drainOrder | exact B.pressure.trans A.pressure | exact B.errors.trans A.errors

/-! ## The grants that the freed slots form -/

/-- The tags that wait for a grant, in admission order. -/
def State.waitingTags (s : State) : List Tag := s.table.admissionOrder.filter (fun t => (s.waitingWrite t).isSome)

theorem State.waitingWrite_iff (s : State) (t : Tag) : (s.waitingWrite t).isSome = true ↔ s.waits t := by
  constructor
  · exact fun h => Classical.byContradiction (fun c => by rw [State.waitingWrite_none c] at h; cases h)
  · rintro ⟨r, g, w, hr, hk, ha, hg, hw, hn, hl⟩
    rw [State.waitingWrite_some hr hk ha hg hw hn hl]
    rfl

/-- A part of a list without repeats that holds exactly its elements with a property is the list filtered by it. -/
theorem sublist_eq_filter {α : Type} (p : α → Bool) {a b : List α} (h : a.Sublist b) (nd : b.Nodup)
    (hm : ∀ x, x ∈ a ↔ x ∈ b ∧ p x = true) : a = b.filter p := by
  induction h with
  | slnil => rfl
  | @cons a b x h ih =>
    rw [List.nodup_cons] at nd
    have hx : p x = false := Bool.eq_false_iff.2 (fun c => nd.1 (h.subset ((hm x).2 ⟨by simp, c⟩)))
    rw [List.filter_cons, hx]
    refine ih nd.2 (fun y => ⟨fun hy => ⟨h.subset hy, ((hm y).1 hy).2⟩, fun hy => (hm y).2 ⟨by simp [hy.1], hy.2⟩⟩)
  | @cons_cons a b x h ih =>
    rw [List.nodup_cons] at nd
    rw [List.filter_cons, ((hm x).1 (by simp)).2, if_pos rfl, ih nd.2 (fun y => ⟨fun hy => ?_, fun hy => ?_⟩)]
    · exact ⟨h.subset hy, ((hm y).1 (by simp [hy])).2⟩
    · exact ((hm y).2 ⟨by simp [hy.1], hy.2⟩ |> List.mem_cons.1).resolve_left (fun c => nd.1 (c ▸ hy.1))

/-- The grants formed from `s` to `t`, each of one slot: `ws` pairs each WRITE with the slot it got. -/
structure GrantedOne (s t : State) (ws : List (Tag × SlotNo)) : Prop where
  slot : ∀ u i r g w, (u, i) ∈ ws → s.request u = some r → r.range = some g → s.writeRecord u = some w →
    t.slot i = .filling (g.first + w.next) ⟨u, r.admission⟩ r.through ∧
      t.writeRecord u = some ⟨w.admission, w.next + 1, some ⟨w.next, [i], [], .unsent⟩, none⟩
  write : ∀ u, u ∉ ws.map (·.1) → t.writeRecord u = s.writeRecord u
  order : t.mover.grantOrder = s.mover.grantOrder ++ ws.map (·.1)

theorem filter_one {i : SlotNo} {p : SlotNo → Bool} (h : ∀ j, p j = decide (j = i)) : allSlots.filter p = [i] := by
  rw [show p = fun j => decide (j = i) from funext h]
  exact (by decide : ∀ i : SlotNo, allSlots.filter (fun j => decide (j = i)) = [i]) i

/-- Discarding one STRANDED slot where no slot is FREE gives it to the first WRITE that waits. -/
theorem discardSlot_grant {s : State} {i : SlotNo} {u : Tag} {us : List Tag} (full : ∀ j, (s.slot j).isFree = false)
    (hw : s.waitingTags = u :: us) (nd : s.table.admissionOrder.Nodup) :
    (discardSlot i s).waitingTags = us ∧ (∀ j, ((discardSlot i s).slot j).isFree = false) ∧
      (∀ j, j ≠ i → (discardSlot i s).slot j = s.slot j) ∧ GrantedOne s (discardSlot i s) [(u, i)] := by
  obtain ⟨X, e, ⟨n, hX⟩, hs, _⟩ := discard_entry i s
  have hf : X.freeSlots = [i] := filter_one (fun j => by
    rw [hs]
    by_cases h : j = i
    · simp [h, StagingSlot.isFree]
    · simp [h, full j])
  have hq : ∀ v, X.request v = s.request v := fun v => by rw [hX]; rfl
  have hr : ∀ v, X.writeRecord v = s.writeRecord v := fun v => by rw [hX]; rfl
  have hm : X.mover = s.mover := by rw [hX]; rfl
  have ha : X.table = s.table := by rw [hX]; rfl
  have hww : ∀ v, X.waitingWrite v = s.waitingWrite v := fun v => by unfold State.waitingWrite; rw [hq, hr]
  have wt : X.waitingTags = u :: us := by unfold State.waitingTags at hw ⊢; simpa [hww, ha] using hw
  obtain ⟨pre, post, h1, h2, h3, h4⟩ := List.filter_eq_cons_iff.1 wt
  obtain ⟨r, g, w, k1, k2, k3, k4, k5, k6, k7⟩ := (X.waitingWrite_iff u).1 h3
  have F := formGrant_waits k1 k2 k3 k4 k5 k6 k7 [i] (by
    rw [hf]
    have : 0 < min (g.count - w.next) 8 := by omega
    cases hn : min (g.count - w.next) 8 with
    | zero => omega
    | succ n => simp) (by simp)
  have hgs : ∀ j, (formGrant u X).slot j = if j = i then .filling (g.first + w.next) ⟨u, r.admission⟩ r.through else X.slot j := by
    intro j
    rw [F, reserve, reserve, State.slot_setStaging]
    rfl
  have free : (formGrant u X).freeSlots = [] := by
    unfold State.freeSlots
    rw [List.filter_eq_nil_iff]
    intro j _
    rw [hgs]
    by_cases h : j = i
    · simp [h, StagingSlot.isFree]
    · rw [if_neg h, hs, if_neg h, full j]; simp
  have E : discardSlot i s = formGrant u X := by
    rw [e]
    refine forAdmitted_first formGrant h1 (fun v hv => formGrant_idle (fun c => h2 v hv ((X.waitingWrite_iff v).2 c))) rfl
      (fun v => formGrant_noSlots free)
  rw [E]
  have hreq : ∀ v, (formGrant u X).request v = X.request v := (granted_formGrant u X).request
  have hrec : (formGrant u X).writeRecord u = some ⟨w.admission, w.next + 1, some ⟨w.next, [i], [], .unsent⟩, none⟩ := by
    rw [F, reserve_writeRecord]
    simp
  have gone : (formGrant u X).waitingWrite u = none := by
    refine State.waitingWrite_none (fun ⟨_, _, _, _, _, _, _, c, cn, _⟩ => ?_)
    rw [hrec] at c
    cases c
    cases cn
  have keep : ∀ v, v ≠ u → (formGrant u X).waitingWrite v = X.waitingWrite v := by
    intro v hv
    unfold State.waitingWrite
    rw [hreq, formGrant_writeRecord u v X hv]
  have hta : (formGrant u X).table = X.table := by rw [F]; rfl
  refine ⟨?_, fun j => ?_, fun j hj => by rw [hgs, if_neg hj, hs, if_neg hj], ?_⟩
  · unfold State.waitingTags
    rw [hta, h1, List.filter_append, List.filter_cons, gone, if_neg (by simp)]
    have np : ∀ v, v ∈ pre ∨ v ∈ post → v ≠ u := by
      rintro v hv rfl
      rw [ha] at h1
      rw [h1, List.nodup_append] at nd
      rcases hv with hv | hv
      · exact nd.2.2 v hv v (by simp) rfl
      · exact (List.nodup_cons.1 nd.2.1).1 hv
    rw [List.filter_eq_nil_iff.2 (fun v hv => by rw [keep v (np v (.inl hv))]; exact h2 v hv), List.nil_append, ← h4]
    exact List.filter_congr (fun v hv => by rw [keep v (np v (.inr hv))])
  · have := List.filter_eq_nil_iff.1 free j (mem_allSlots j)
    simpa using this
  · refine ⟨fun v j r' g' w' hm hr1 hg1 hw1 => ?_, fun v hv => ?_, ?_⟩
    · obtain ⟨rfl, rfl⟩ : v = u ∧ j = i := by simpa using hm
      rw [hq, hr1] at k1
      rw [hr, hw1] at k5
      cases k1
      cases k5
      rw [hg1] at k4
      cases k4
      exact ⟨by rw [hgs, if_pos rfl], hrec⟩
    · rw [formGrant_writeRecord u v X (by simpa using hv), hr]
    · rw [F]
      show X.mover.grantOrder ++ [u] = _
      rw [hm]
      rfl

/-- The freed slots go to the waiting WRITES, one each, where no slot was FREE or no WRITE waits. -/
theorem discardSlots_grants (l : List SlotNo) (hl : l.Nodup) (s : State) (h : ∀ i, i ∈ l → (s.slot i).isStranded = true)
    (nd : s.table.admissionOrder.Nodup) (ht : ∀ u, s.waits u → u ∈ s.table.admissionOrder)
    (full : (∀ i, (s.slot i).isFree = false) ∨ s.waitingTags = []) :
    GrantedOne s (l.foldl (fun acc i => discardSlot i acc) s) (s.waitingTags.zip l) ∧
      ∀ i, i ∈ l → i ∉ (s.waitingTags.zip l).map (·.2) → (l.foldl (fun acc i => discardSlot i acc) s).slot i = .free := by
  induction l generalizing s with
  | nil => exact ⟨⟨by simp, fun _ _ => rfl, by simp⟩, by simp⟩
  | cons i l ih =>
    rw [List.nodup_cons] at hl
    have D := discardSlots_spec (i :: l) (List.nodup_cons.2 hl) s h
    cases hw : s.waitingTags with
    | nil =>
      have nw : ∀ u, ¬ s.waits u := fun u c => by
        have : u ∈ s.waitingTags := List.mem_filter.2 ⟨ht u c, (s.waitingWrite_iff u).2 c⟩
        rw [hw] at this
        cases this
      obtain ⟨d1, d2⟩ := D.idle nw
      refine ⟨⟨by simp, fun u _ => by unfold State.writeRecord; rw [d2], by rw [d2]; simp⟩, fun j hj _ => by rw [d1, if_pos hj]⟩
    | cons u us =>
      have full := full.resolve_right (by rw [hw]; simp)
      obtain ⟨a1, a2, a3, a4⟩ := discardSlot_grant (i := i) full hw nd
      have A := discardSlot_spec i s
      rw [List.foldl_cons]
      generalize discardSlot i s = Y at a1 a2 a3 a4 A
      have hne : ∀ j, j ∈ l → j ≠ i := fun j hj c => hl.1 (c ▸ hj)
      have hreq : ∀ v, Y.request v = s.request v := fun v => by unfold State.request; rw [A.parts.2.1]
      have uu : u ∉ us := by
        have := nd.filter (fun t => (s.waitingWrite t).isSome)
        rw [show s.table.admissionOrder.filter (fun t => (s.waitingWrite t).isSome) = _ from hw] at this
        exact (List.nodup_cons.1 this).1
      have hwait : s.waits u := by
        have : u ∈ s.waitingTags := by rw [hw]; simp
        exact (s.waitingWrite_iff u).1 (List.mem_filter.1 this).2
      obtain ⟨B, bf⟩ := ih hl.2 Y (fun j hj => by rw [a3 j (hne j hj)]; exact h j (by simp [hj])) (by rw [A.parts.2.1]; exact nd)
        (fun v hv => by
          rw [A.parts.2.1]
          by_cases c : v = u
          · rw [c]; exact ht u hwait
          · refine ht v ?_
            unfold State.waits at hv ⊢
            rwa [hreq, a4.write v (by simpa using c)] at hv) (.inl a2)
      have K := discardSlots_spec l hl.2 Y (fun j hj => by rw [a3 j (hne j hj)]; exact h j (by simp [hj]))
      rw [a1] at B bf
      generalize l.foldl (fun acc i => discardSlot i acc) Y = Z at B bf K
      have nz : ∀ v, v ∉ us → v ∉ (us.zip l).map (·.1) := fun v hv c => by
        obtain ⟨z, hz, rfl⟩ := List.mem_map.1 c
        exact hv (List.of_mem_zip hz).1
      rw [List.zip_cons_cons]
      refine ⟨⟨fun v j r g w hm hr hg hr2 => ?_, fun v hv => ?_, ?_⟩, fun j hj hn => ?_⟩
      · rcases List.mem_cons.1 hm with hm | hm
        · cases hm
          obtain ⟨c1, c2⟩ := a4.slot u i r g w (by simp) hr hg hr2
          exact ⟨(K.kept i hl.1 (a2 i)).trans c1, (B.write u (nz u uu)).trans c2⟩
        · have hv : v ≠ u := fun c => uu (c ▸ (List.of_mem_zip hm).1)
          exact B.slot v j r g w hm (by rw [hreq]; exact hr) hg (by rw [a4.write v (by simpa using hv)]; exact hr2)
      · simp only [List.map_cons, List.mem_cons, not_or] at hv
        rw [B.write v hv.2, a4.write v (by simpa using hv.1)]
      · rw [B.order, a4.order]; simp
      · simp only [List.map_cons, List.mem_cons, not_or] at hn
        exact bf j ((List.mem_cons.1 hj).resolve_left hn.1) hn.2

end Sys2Proof.Machine
end

