-- ==== Sys2Proof/Tests/Slice0.lean ====
section
/-! SUPPORT. The model's own tests: the well-formedness checks, the code tables against the spec's own examples, one
small step of each command, and a state and operands that meet the hypotheses of each statement. -/

set_option Elab.async false

namespace Sys2Proof.Tests

open Sys2Proof.Machine

/-! ## The states the tests start from -/

/-- What a command leaves. -/
def act (i : Instr) (s : State) : State := match exec i s with | .next t => t | .fault f => nomatch f | .refused _ => s

/-- The state with its reply taken, so that the next message is taken at once. -/
def heard (s : State) : State := { s with link := { s.link with pendingReply := none } }

/-- A message is carried out and its reply is taken. -/
def say (i : Instr) (s : State) : State := heard (act i s)

/-- LBN 0 to 99 on port 0 from PBN 2, LBN 200 to 209 read-only on port 0, LBN 300 to 309 on port 1. -/
def someMap : Map :=
  ⟨7, 1, #v[⟨true, .readWrite, 0, 0, 100, 2⟩, ⟨true, .readOnly, 0, 200, 10, 110⟩, ⟨true, .readWrite, 1, 300, 10, 2⟩,
    Extent.empty, Extent.empty, Extent.empty, Extent.empty, Extent.empty]⟩

/-- A POOLED port with a member of 1000 blocks. -/
def pooled : PortRecord := { PortRecord.emptyAtReset with cls := .pooled, member := some ⟨1000, 5, some (1, 7)⟩ }

/-- The part READY with one POOLED member on port 0. -/
def base : State :=
  { State.reset with
    ports := #v[pooled, PortRecord.emptyAtReset, PortRecord.emptyAtReset, PortRecord.emptyAtReset]
    mapStore := ⟨someMap, someMap, 0x1000000, true, none⟩ }

/-- `base` with the record of port 0 changed. -/
def onPort0 (f : PortRecord → PortRecord) : State := base.setPort 0 (f pooled)

/-- `base` with an operation in flight on port 0. -/
def busyWith (k : OpKind) (u : OpUser) : State := onPort0 (fun x => { x with engine := .busy, op := some ⟨k, u, 1, 15, false⟩ })

def zeroBlock : List Byte := List.replicate 256 0

/-- An ACTIVE request of one block at LBN `x`. -/
def one (k : ReqKind) (x : Nat) : Request := ⟨k, some ⟨x, 1⟩, false, false, .active, 0, [], 0, none, none, [], []⟩

/-- `s` with the slot of tag `t` taken by `r`. -/
def withRequest (t : Tag) (r : Request) (s : State) : State :=
  { s.setRequest t r with table := { (s.setRequest t r).table with admissionOrder := s.table.admissionOrder ++ [t] } }

/-- A commit in phase `ph` with port 0 as its one target. -/
def commitIn (ph : CommitPhase) (tg : Target) : Commit := ⟨ph, 2, [tg], false, [], []⟩

/-- A port that probes, at a step. -/
def probing (st : ProbeStep) : PortRecord :=
  { PortRecord.emptyAtReset with cls := .probe, probe := some ⟨st, 1000, 5, .nothing, .nothing, 0⟩ }

/-! ## Well-formed commands: one ill-formed command for each check -/

theorem test_wf_payload : (Instr.read 0 (List.replicate 300 0)).wellFormed = false ∧
    (Instr.read 0 (List.replicate 299 0)).wellFormed = true := by decide +kernel
theorem test_wf_unknown_payload : (Instr.unknownKind 0xEE 0 (List.replicate 300 0)).wellFormed = false ∧
    (Instr.unknownKind 0xEE 0 []).wellFormed = true := by decide +kernel
theorem test_wf_unknown_known : (Instr.unknownKind 0x20 0 []).wellFormed = false := by decide +kernel
theorem test_wf_oversize_low : (Instr.oversizeFrame 300).wellFormed = false ∧ (Instr.oversizeFrame 301).wellFormed = true := by
  decide +kernel
theorem test_wf_oversize_high : (Instr.oversizeFrame 65536).wellFormed = false := by decide +kernel
theorem test_wf_ident : (Instr.identEnd 0 [.noAck]).wellFormed = false ∧
    (Instr.identEnd 0 [.noAck, .ack 64 0]).wellFormed = true := by decide +kernel
theorem test_wf_read_length : (Instr.rdblkEnd 0 [.stored [0]]).wellFormed = false := by decide +kernel
theorem test_wf_read_none : (Instr.rdblkEnd 0 []).wellFormed = false := by decide +kernel
theorem test_wf_read_many : (Instr.rdblkEnd 0 [.noAck, .noAck, .noAck, .noAck, .noAck, .noAck]).wellFormed = false ∧
    (Instr.rdblkEnd 0 [.noAck, .noAck, .noAck]).wellFormed = true := by decide +kernel
theorem test_wf_program : (Instr.pgblkEnd 0 [.ready]).wellFormed = false ∧
    (Instr.pgblkEnd 0 [.startAck, .inProgress, .ready]).wellFormed = true := by decide +kernel
theorem test_wf_sleep : (Instr.sleepEnd 0 [.ack, .ack]).wellFormed = false ∧ (Instr.sleepEnd 0 [.ack]).wellFormed = true := by
  decide +kernel
theorem test_wf_wake : (Instr.wakeEnd 0 []).wellFormed = false ∧ (Instr.wakeEnd 0 [.ack]).wellFormed = true := by
  decide +kernel
theorem test_wf_timeout : (Instr.opTimeout 0 0).wellFormed = false ∧ (Instr.opTimeout 0 1).wellFormed = true := by
  decide +kernel

/-! ## The spec's own examples of its codes -/

/-- 31H to 39H end at 29B1H (R222). -/
theorem test_crc16 : crc16 [0x31, 0x32, 0x33, 0x34, 0x35, 0x36, 0x37, 0x38, 0x39] = 0x29B1 := by decide +kernel
/-- 31H to 39H end at 0CBF43926H (R223). -/
theorem test_crc32 : crc32 [0x31, 0x32, 0x33, 0x34, 0x35, 0x36, 0x37, 0x38, 0x39] = 0xCBF43926 := by decide +kernel
/-- A frame: start, length, type, sequence, payload, and the CRC from the length on, low byte first (R221). -/
theorem test_frame : frameBytes 0x02 5 [0x10, 0x01] =
    [0xC7, 2, 0, 2, 5, 0x10, 1] ++ le 2 (crc16 [2, 0, 2, 5, 0x10, 1]).toNat := by decide +kernel
/-- Little-endian fields (R221). -/
theorem test_fields : le 3 0x123456 = [0x56, 0x34, 0x12] ∧ leVal [0x56, 0x34, 0x12] = 0x123456 := by decide +kernel
set_option maxRecDepth 20000 in
/-- A map record reads back as what it was written from, in both states (R102, R139, R223). -/
theorem test_record : findingOf (recordBytes .final 9 7 someMap) = .found .final { someMap with generation := 9 } ∧
    findingOf (recordBytes .tentative 9 7 someMap) = .found .tentative { someMap with generation := 9 } := by
  decide +kernel
set_option maxRecDepth 20000 in
/-- A record of generation 0 and one with a bad mark give no finding (R102). -/
theorem test_record_bad : findingOf (recordBytes .final 0 7 someMap) = .nothing ∧
    findingOf (List.replicate 256 0) = .nothing := by decide +kernel
/-- The extent form (R223). -/
theorem test_extent : extentForm ⟨true, .readOnly, 2, 0x010203, 4, 5⟩ = [1, 1, 2, 0, 3, 2, 1, 4, 0, 0, 5, 0, 0, 0, 0, 0] := by
  decide +kernel

/-! ## One small step of each command -/

/-- READ: the block comes from the port, so the fetch waits for it (R60, R61). -/
theorem test_read : (act (.read 0 [3, 0, 5, 0, 0, 1]) base).fetchRecord 3 = some ⟨0, 0, some ⟨0, 5, .portWait 0 7, some 0⟩⟩ ∧
    (act (.read 0 [3, 0, 5, 0, 0, 1]) base).returnSlot 0 = .fetching ⟨3, 0⟩ 0 5 := by decide +kernel
/-- WRITE: the lowest FREE slots turn FILLING (R51). -/
theorem test_write : (act (.write 0 [3, 2, 5, 0, 0, 2]) base).writeRecord 3 = some ⟨0, 2, some ⟨0, [0, 1], [], .unsent⟩, none⟩ ∧
    (act (.write 0 [3, 2, 5, 0, 0, 2]) base).slot 1 = .filling 6 ⟨3, 0⟩ true := by decide +kernel
/-- A READ over a WRITE under way is HELD (R31). -/
theorem test_read_held : ((act (.read 1 [4, 0, 5, 0, 0, 1]) (say (.write 0 [3, 0, 5, 0, 0, 1]) base)).request 4).map (·.state) = some .held ∧
    ((act (.read 1 [4, 0, 5, 0, 0, 1]) (say (.write 0 [3, 0, 5, 0, 0, 1]) base)).request 4).map (·.holdList) = some [3] := by
  decide +kernel
/-- VERIFY takes no return slot (R60). -/
theorem test_verify : (act (.verify 0 [3, 0, 5, 0, 0, 1]) base).fetchRecord 3 = some ⟨0, 0, some ⟨0, 5, .portWait 0 7, none⟩⟩ := by
  decide +kernel
/-- FLUSH of an empty buffer completes GOOD (R37). -/
theorem test_flush : (act (.flush 0 [9]) base).table.completionOrder = [9] := by decide +kernel
/-- WRITE-DATA fills the slot of its index (R56). -/
theorem test_writeData : (act (.writeData 1 (3 :: 0 :: zeroBlock)) (say (.write 0 [3, 0, 5, 0, 0, 1]) base)).slot 0 =
    .dirty 5 false zeroBlock := by decide +kernel
/-- IDENTIFY answers OK (R218). -/
theorem test_identify : (act (.identify 0 []) base).link.pendingReply.map (fun r => r.payload.take 6) =
    some [0x10, 0, 0x46, 0x50, 0x16, 0x04] := by decide +kernel
/-- STATUS carries 75 bytes after kind and status (R226). -/
theorem test_status : (act (.status 0 []) base).link.pendingReply.map (fun r => r.payload.length) = some 77 := by decide +kernel
/-- SET-PARAMETER (R219). -/
theorem test_setParameter : (act (.setParameter 0 [9, 8, 0]) base).params.drainFairness = 8 ∧
    (act (.setParameter 0 [9, 9, 0]) base).params.drainFairness = 3 := by decide +kernel
/-- GET-PARAMETER (R220). -/
theorem test_getParameter : (act (.getParameter 0 [7]) base).link.pendingReply.map (·.payload) = some [0x13, 0, 7, 0xFF, 2] := by
  decide +kernel
/-- RESET-LINK is answered and awaits its reset (R216). -/
theorem test_resetLink : (act (.resetLink 0 []) base).link.resetWait = .replyUnsent := by decide +kernel
/-- LINK-SYNC sets E to one above its own number (R210). -/
theorem test_linkSync : (act (.linkSync 0xFF []) base).link.expected = 0 ∧ (act (.linkSync 7 []) base).link.expected = 8 := by
  decide +kernel
/-- FETCH-SNAPSHOT with no halt is refused NO_SNAPSHOT (R136). -/
theorem test_fetchSnapshot : (act (.fetchSnapshot 0 []) base).link.pendingReply.map (·.payload) = some [0x28, 0x11] := by
  decide +kernel
/-- MAP-READ (R15). -/
theorem test_mapRead : (act (.mapRead 0 [0]) base).link.pendingReply.map (fun r => r.payload.take 11) =
    some [0x30, 0, 0, 7, 0, 0, 0, 1, 0, 0, 0] := by decide +kernel
/-- MAP-EDIT stores every field as given (R17). -/
theorem test_mapEdit : (act (.mapEdit 0 [7, 1, 1, 3, 9, 1, 0, 0, 2, 0, 0, 3, 0, 0, 9, 9, 9]) base).mapStore.draft.extents[7] =
    ⟨true, .readOnly, 3, 1, 2, 3⟩ := by decide +kernel
/-- MAP-EDIT-POOL (R18). -/
theorem test_mapEditPool : (act (.mapEditPool 0 [1, 2, 0, 0]) base).mapStore.draft.pool = 0x201 := by decide +kernel
/-- MAP-RESET-DRAFT undoes an edit (R19). -/
theorem test_mapResetDraft : (act (.mapResetDraft 1 []) (say (.mapEditPool 0 [1, 2, 0, 0]) base)).mapStore.draft = someMap := by
  decide +kernel
/-- MAP-COMMIT of a draft on an absent port is refused (R20). -/
theorem test_mapCommit_invalid : (act (.mapCommit 0 []) base).link.pendingReply.map (·.payload) =
    some [0x34, 0x0F, 0x02, 2, 0, 0, 0, 0, 0] := by decide +kernel
/-- SET-CEILING (R14). -/
theorem test_setCeiling : (act (.setCeiling 0 [4, 0, 0, 0]) base).mapStore.ceiling = 4 ∧
    (act (.setCeiling 0 [1, 0, 0, 1]) base).mapStore.ceiling = 0x1000000 := by decide +kernel
/-- PARK, then UNPARK (R166, R169). -/
theorem test_park : (act (.park 0 []) base).power.state = .parking := by decide +kernel
theorem test_unpark : (act (.unpark 1 []) (say (.park 0 []) base)).power.state = .active := by decide +kernel
/-- PORT-RESET of a port whose presence input is inactive (R123). -/
theorem test_portReset : ((act (.portReset 0 [0]) base).port 0).cls = .empty := by decide +kernel
/-- STRANDED-RETRY and STRANDED-DISCARD (R90, R91). -/
theorem test_strandedRetry : (act (.strandedRetry 0 [0, 0, 0, 0, 0]) (base.setStaging 5 (.stranded 9 true zeroBlock .memberLost))).slot 5 =
    .dirty 9 true zeroBlock := by decide +kernel
theorem test_strandedDiscard : (act (.strandedDiscard 0 [1, 9, 0, 0, 0]) (base.setStaging 5 (.stranded 9 true zeroBlock .memberLost))).slot 5 =
    .free := by decide +kernel
/-- NOTICE-CLEAR of an empty set removes nothing (R180). -/
theorem test_noticeClear : (act (.noticeClear 0 [0, 0, 0]) base).link.pendingReply.map (·.payload) = some [0x58, 0, 0, 0] := by
  decide +kernel
/-- GET-LOG of page 04H with nothing stranded: count 0, and the bytes of the page add up to 0 (R194, R199). -/
theorem test_getLog : (act (.getLog 0 [4, 0]) base).link.pendingReply.map (·.payload) = some [0x60, 0, 4, 0, 4, 1, 0, 0, 0xFB] := by
  decide +kernel
/-- An unknown kind (R209). -/
theorem test_unknownKind : (act (.unknownKind 0xEE 0 []) base).link.pendingReply.map (·.payload) = some [0xEE, 2] := by
  decide +kernel
/-- A message that comes while a reply is pending is held, and released once the reply is in transmission (R206). -/
theorem test_heldMessageRelease :
    ((act .heldMessageRelease (act .outboundChoice (act (.park 1 []) (act (.identify 0 []) base)))).power.state) = .parking := by
  decide +kernel
/-- REPORT_ACK frees the slot of the COMPLETION it names (R43, R212). -/
theorem test_reportAck :
    ((act (.reportAck 0) (act .outboundChoice (say (.flush 0 [9]) base))).request 9) = none := by decide +kernel
/-- Damaged frames are counted (R204 to R206). -/
theorem test_frameCrcError : (act .frameCrcError base).link.counters.crcErrors = 1 := by decide +kernel
theorem test_framingError : (act (.framingError .gap) base).link.counters.framingErrors = 1 := by decide +kernel
theorem test_oversizeFrame : (act (.oversizeFrame 301) base).link.receiver = .skipping 304 := by decide +kernel
theorem test_skippingEnd : (act .skippingEnd (act (.oversizeFrame 301) base)).link.receiver = .hunting := by decide +kernel
/-- A break resets the link and sets the rate to 0 (R207, R216). -/
theorem test_break : (act .breakDeclared (say (.setParameter 0 [8, 3, 0]) base)).params.linkRate = 0 ∧
    (act .breakDeclared base).link.counters.breaks = 1 := by decide +kernel
theorem test_breakEnd : (act .breakEnd (act .breakDeclared base)).link.rxdLow = false := by decide +kernel
/-- The link reset follows the reply to a RESET-LINK (R216). -/
theorem test_linkReset :
    (act .linkReset (act .transmissionEnd (act .outboundChoice (act (.resetLink 0 []) base)))).link.expected = 0 := by
  decide +kernel
/-- OUTBOUND_CHOICE sends the reply (R215). -/
theorem test_outboundChoice : (act .outboundChoice (act (.park 0 []) base)).link.transmission.map (fun x => x.frame.take 8) =
    some [0xC7, 3, 0, 2, 0, 0x40, 0, 2] := by decide +kernel
/-- TRANSMISSION_END starts a report's timer (R213). -/
theorem test_transmissionEnd : (act .transmissionEnd (act .outboundChoice (say (.flush 0 [9]) base))).link.window.map (·.timer) =
    [some 40] := by decide +kernel
/-- REPORT_TIMER_EXPIRY marks the report due, once its moment has come (R213). -/
theorem test_reportTimerExpiry :
    (act (.reportTimerExpiry 0) { act .transmissionEnd (act .outboundChoice (say (.flush 0 [9]) base)) with clock := 40 }).link.window.map
      (·.due) = [.byExpiry] := by decide +kernel
/-- RESET_ASSERT and DEVICE_RESET (R230). -/
theorem test_resetAssert : (act .resetAssert (busyWith .ident .probe)).opInFlight = false := by decide +kernel
theorem test_deviceReset : ((act .deviceReset { base with presence := #v[true, false, false, false] }).port 0).cls = .debounce ∧
    ((act .deviceReset base).port 0).cls = .empty := by decide +kernel
/-- PRESENCE_CHANGE and DEBOUNCE_EXPIRY (R98, R101). -/
theorem test_presenceChange : ((act (.presenceChange 2) base).port 2).debounce = some ⟨true, 25, none⟩ := by decide +kernel
theorem test_debounceExpiry : ((act (.debounceExpiry 2) { act (.presenceChange 2) base with clock := 25 }).port 2).cls = .probe := by
  decide +kernel
/-- ARBITER_CHOICE starts the RDBLK of a waiting fetch (R119). -/
theorem test_arbiterChoice : ((act (.arbiterChoice 0) (act (.read 0 [3, 0, 5, 0, 0, 1]) base)).port 0).op =
    some ⟨.rdblk 7, .fetch ⟨3, 0⟩ 5, 1, 15, false⟩ := by decide +kernel
/-- IDENT_END moves the probe on (R101, R111). -/
theorem test_identEnd : ((act (.identEnd 0 [.noAck, .ack 64 5])
    (onPort0 (fun _ => { probing .ident with engine := .busy, op := some ⟨.ident, .probe, 1, 15, false⟩ }))).port 0).probe.map (·.step) =
      some .slotA := by decide +kernel
set_option maxRecDepth 20000 in
/-- RDBLK_END: a block stored for its PBN is good, one stored for another is not (R110, R112). -/
theorem test_rdblkEnd : blockReading 7 (storedBlock 7 zeroBlock) = some (some zeroBlock) ∧
    blockReading 7 (storedBlock 8 zeroBlock) = none ∧ blockReading 7 (List.replicate 258 0xFF) = some none := by decide +kernel
/-- An erased block reads as zeros (R112). -/
theorem test_rdblkEnd_erased :
    (act (.rdblkEnd 0 [.stored (List.replicate 258 0xFF)]) (act (.arbiterChoice 0) (act (.read 0 [3, 0, 5, 0, 0, 1]) base))).returnSlot 0 =
      .filled ⟨3, 0⟩ 0 5 zeroBlock := by decide +kernel
/-- PGBLK_END frees a drained slot, or strands it (R80, R81). -/
theorem test_pgblkEnd : (act (.pgblkEnd 0 [.noAck, .startAck, .inProgress, .ready])
    ((busyWith (.pgblk 7 []) (.drain 4)).setStaging 4 (.draining 5 false zeroBlock))).slot 4 = .free := by decide +kernel
theorem test_pgblkEnd_failed : (act (.pgblkEnd 0 [.startAck, .failed])
    ((busyWith (.pgblk 7 []) (.drain 4)).setStaging 4 (.draining 5 false zeroBlock))).slot 4 =
      .stranded 5 false zeroBlock .programFailed := by decide +kernel
/-- SLEEP_END and WAKE_END (R114, R115). -/
theorem test_sleepEnd : ((act (.sleepEnd 0 [.ack]) (busyWith .sleep .power)).port 0).engine = .asleep := by decide +kernel
theorem test_wakeEnd : ((act (.wakeEnd 0 [.ack]) { busyWith .wake .power with clock := 3 }).port 0).engine = .idle := by decide +kernel
/-- OP_TIMEOUT counts (R109, R124). -/
theorem test_opTimeout : ((act (.opTimeout 0 2) { busyWith .sleep .power with clock := 15 }).port 0).stats.opTimeouts = 1 := by
  decide +kernel
/-- QUIESCE_EVALUATION and QUIESCE_TIMEOUT (R145, R146). -/
theorem test_quiesceEvaluation : ((act .quiesceEvaluation
    (base.setCommit (some (commitIn (.quiesce 5000) ⟨0, .awaitingTentative, 1, none⟩)))).mapStore.commit.map (·.phase)) =
      some .tentative := by decide +kernel
theorem test_quiesceTimeout : (act .quiesceTimeout { base.setCommit (some (commitIn (.quiesce 5000) ⟨0, .awaitingTentative, 1, none⟩)) with
    clock := 5000 }).mapStore.commit = none := by decide +kernel
/-- STARTUP_END with no member: READY with no map (R159). -/
theorem test_startupEnd : (act .startupEnd State.reset).mapStore.ready = true := by decide +kernel
/-- DATA_TIMER_EXPIRY halts the queue (R54). -/
theorem test_dataTimerExpiry : (act (.dataTimerExpiry 3) { (withRequest 3 (one .write 5) base).setWriteRecord 3
    (some ⟨0, 1, some ⟨0, [0], [], .acknowledged⟩, some 200⟩) with clock := 200 }).halted = true := by decide +kernel
/-- GRANT_FORMATION, RETURN_SLOT_ASSIGNMENT and HOLD_RELEASE as steps of their own (R50, R60, R33). -/
theorem test_grantFormation : (act .grantFormation ((withRequest 3 (one .write 5) base).setWriteRecord 3 (some ⟨0, 0, none, none⟩))).slot 0 =
    .filling 5 ⟨3, 0⟩ false := by decide +kernel
theorem test_returnSlotAssignment :
    (act .returnSlotAssignment ((withRequest 3 (one .read 5) base).setFetchRecord 3 (some ⟨0, 0, none⟩))).returnSlot 0 =
      .fetching ⟨3, 0⟩ 0 5 := by decide +kernel
theorem test_holdRelease : ((act .holdRelease (withRequest 3 { one .read 5 with state := .held } base)).request 3).map (·.state) =
    some .active := by decide +kernel
/-- IDLE_TIMER_EXPIRY and PARK_COMPLETE ask SLEEP of an idle member (R163, R167). -/
theorem test_idleTimerExpiry : ((act .idleTimerExpiry { base.setIdleTimer (some 0) with clock := 0 }).port 0).op =
    some ⟨.sleep, .power, 1, 15, false⟩ := by decide +kernel
theorem test_parkComplete : (act .parkComplete (base.setPower .parking)).power.state = .parked := by decide +kernel
/-- UPTIME_TICK wraps (R186). -/
theorem test_uptimeTick : (act .uptimeTick { base with log := { base.log with uptime := 0xFFFFFFFF } }).log.uptime = 0 := by
  decide +kernel

/-! ## Reading the hypotheses of the statements off the model's own functions -/

theorem takes_of {s : State} {q : Byte} (h : (s.receives && decide (s.link.resetWait = .noReset) && s.link.heldMessage.isNone &&
    s.link.pendingReply.isNone && decide (q = s.link.expected)) = true) : s.takes q := by
  simp only [Bool.and_eq_true, decide_eq_true_eq, Option.isNone_iff_eq_none] at h
  exact ⟨h.1.1.1.1, h.1.1.1.2, h.1.1.2, h.1.2, h.2⟩

theorem none_all {α : Type} {o : Option α} (h : o.isNone = true) {P : α → Prop} : ∀ a, o = some a → P a := by
  intro a e; rw [e] at h; cases h

theorem some_all {α : Type} {o : Option α} {b : α} (h : o = some b) {P : α → Prop} (hp : P b) : ∀ a, o = some a → P a := by
  intro a e; rw [h] at e; cases e; exact hp

theorem noWaits {s : State} (h : ∀ u : Tag, (s.waitingWrite u).isNone = true) (u : Tag) : ¬ s.waits u := by
  rintro ⟨r, g, w, a, b, c, d, e, f, l⟩
  have := h u
  rw [State.waitingWrite_some a b c d e f l] at this
  cases this

theorem noReads {s : State} (h : ∀ u : Tag, s.eligibleRead u = false) (u : Tag) : ¬ s.wantsReturn u := by
  rw [← State.eligibleRead_iff, h]; exact Bool.false_ne_true

theorem noUser {s : State} {p : Port} (h : ∀ n : Fin 8, (s.classUser p n).isNone = true) : ∀ n u, ¬ s.isUser p n u := by
  intro n u c
  rw [State.isUser_iff] at c
  by_cases hn : n < 8
  · have := h ⟨n, hn⟩; rw [show s.classUser p (⟨n, hn⟩ : Fin 8) = some u from c] at this; cases this
  · have : s.classUser p n = none := by
      match n, hn with
      | n + 8, _ => rfl
    rw [this] at c; cases c

/-- The user of class `n` is the one of the first place, where the classes before it have none. -/
theorem firstUser {s : State} {p : Port} {n : Nat} {u : LaneUser} (h : s.classUser p n = some u)
    (ho : ∀ m : Fin 8, (s.classUser p m).isNone = true ∨ s.classPlace p n ≤ s.classPlace p m) :
    s.isUser p n u ∧ ∀ m v, s.isUser p m v → s.classPlace p n ≤ s.classPlace p m := by
  refine ⟨(s.isUser_iff p n u).2 h, fun m v c => ?_⟩
  rw [State.isUser_iff] at c
  by_cases hm : m < 8
  · have := ho ⟨m, hm⟩
    rw [show s.classUser p (⟨m, hm⟩ : Fin 8) = some v from c] at this
    exact this.resolve_left (by simp)
  · have : s.classUser p m = none := by
      match m, hm with
      | m + 8, _ => rfl
    rw [this] at c; cases c

theorem noDirty {s : State} {p : Port} (h : ∀ i : SlotNo, (s.slot i).isDirty = false) :
    ∀ i z m d, s.slot i = .dirty z m d → s.liesOn p z = false := by
  intro i z m d e; have := h i; rw [e] at this; cases this

theorem overlapGood_of {s : State} (h : ∀ t u : Tag, t ≠ u → (match s.request t, s.request u with
    | some a, some b => !a.conflicts b || decide (a.state = .reporting) || decide (b.state = .reporting) ||
        (decide (a.state = .held) && decide (u ∈ a.holdList)) || (decide (b.state = .held) && decide (t ∈ b.holdList))
    | _, _ => true) = true) : OverlapGood s := by
  intro t u a b n ha hb hc
  have := h t u n
  rw [ha, hb] at this
  simpa [hc, or_assoc] using this

theorem haltGood_of {s : State} (h : ∀ t : Tag, (match s.request t with
    | some r => decide (r.state = .aborting) || decide (r.state = .reporting)
    | none => true) = true) : HaltGood s := by
  intro _ t r hr
  have := h t
  rw [hr] at this
  simpa using this

theorem tableGood_of {s : State} (h : s.table.admissionOrder.Nodup ∧
    ∀ t : Tag, decide (t ∈ s.table.admissionOrder) = (s.request t).isSome) : TableGood s :=
  ⟨h.1, fun t => by rw [← h.2 t]; simp⟩

/-! ## States that meet the hypotheses of the statements, one theorem for each statement that has some -/

theorem takes_base : base.takes 0 := takes_of (by decide +kernel)
theorem takes_reset : State.reset.takes 0 := takes_of (by decide +kernel)

/-- A commit is in progress. -/
def committing : State := base.setCommit (some (commitIn (.quiesce 5000) ⟨0, .awaitingTentative, 1, none⟩))
theorem takes_committing : committing.takes 0 := takes_of (by decide +kernel)

/-- The snapshot of a WRITE of LBN 5 whose data timer expired. -/
def aSnapshot : Snapshot := ⟨3, .write, some ⟨5, 1⟩, false, false, .dataTimeout, none, none, 0, 0, 1⟩

/-- The queue is HALTED, its request still unacknowledged. -/
def halted : State :=
  let s := withRequest 3 { one .write 5 with state := .reporting, status := some .dataTimeout } base
  { s with table := { s.table with snapshot := some aSnapshot, completionOrder := [3] } }
theorem takes_halted : halted.takes 0 := takes_of (by decide +kernel)

/-- A WRITE of LBN 5 is ACTIVE under tag 3, with its grant. -/
def writing : State := say (.write 0 [3, 0, 5, 0, 0, 1]) base
theorem takes_writing : writing.takes 1 := takes_of (by decide +kernel)

/-- Slot 5 is STRANDED with LBN 9. -/
def stranded : State := base.setStaging 5 (.stranded 9 false zeroBlock .memberLost)
theorem takes_stranded : stranded.takes 0 := takes_of (by decide +kernel)

theorem witness_EmptyQueueIdles : State.reset.pending = [] := rfl

theorem witness_CommandsLeaveQueueAndPins : (∀ p, Instr.linkReset ≠ .presenceChange p) ∧
    (Instr.presenceChange 3 = .presenceChange 3) ∧ Instr.linkReset ≠ .resetAssert ∧ Instr.linkReset ≠ .deviceReset ∧
    Instr.linkReset ≠ .uptimeTick := ⟨nofun, rfl, nofun, nofun, nofun⟩

/-- A READ held by a WRITE of the same block. -/
def overlapping : State :=
  withRequest 4 { one .read 5 with state := .held, holdList := [3] } (withRequest 3 (one .write 5) base)

theorem witness_ConflictingRequestsStayApart : OverlapGood overlapping ∧ step overlapping = .next overlapping ∧
    (3 : Tag) ≠ 4 ∧ overlapping.request 3 = some (one .write 5) ∧
    overlapping.request 4 = some { one .read 5 with state := .held, holdList := [3] } ∧
    (one .write 5).conflicts { one .read 5 with state := .held, holdList := [3] } = true :=
  ⟨overlapGood_of (by decide +kernel), rfl, by decide +kernel⟩

/-- A report of notice kind START_DONE in the window. -/
def entryOf (q : Byte) : WindowEntry := ⟨q, .notice ⟨.startDone, none⟩, [], 0, none, .notDue⟩

theorem witness_WindowKeepsItsForm :
    let s : State := { base with link := { base.link with window := [entryOf 254, entryOf 255, entryOf 0, entryOf 1] } }
    WindowGood s ∧ step s = .next s := by
  refine ⟨?_, rfl⟩
  unfold WindowGood
  decide +kernel

theorem mapsGood_base : MapsGood base := ⟨none_all (by decide +kernel), nofun⟩

theorem witness_ActiveGenerationNeverFalls : MapsGood committing ∧ Instr.uptimeTick ≠ .deviceReset ∧
    exec .uptimeTick committing = .next (act .uptimeTick committing) :=
  ⟨⟨some_all rfl (by decide +kernel), nofun⟩, nofun, rfl⟩

theorem witness_HaltedTableStaysEnded : TableGood halted ∧ HaltGood halted ∧ halted.halted = true ∧ step halted = .next halted :=
  ⟨tableGood_of (by decide +kernel), haltGood_of (by decide +kernel), rfl, rfl⟩

/-- The COMPLETION of tag 9 is in the window under report number 0. -/
def reported : State := act .outboundChoice (say (.flush 0 [9]) base)

theorem witness_SlotsFillAndEmptyByRule : (halted.halted = true ∧ halted.request 5 = none) ∧
    ((reported.request 9).isSome = true ∧ (act (.reportAck 0) reported).request 9 = none ∧
      exec (.reportAck 0) reported = .next (act (.reportAck 0) reported)) :=
  ⟨⟨rfl, by decide +kernel⟩, by decide +kernel, by decide +kernel, rfl⟩

theorem witness_CountersNeverFall : Instr.frameCrcError ≠ .deviceReset ∧ (∀ q b, Instr.frameCrcError ≠ .getLog q b) ∧
    (∀ q b, Instr.frameCrcError ≠ .unknownKind 0x60 q b) ∧ Instr.frameCrcError ≠ .heldMessageRelease ∧
    exec .frameCrcError base = .next (act .frameCrcError base) := ⟨nofun, nofun, nofun, nofun, rfl⟩

theorem witness_ResetAssertResult : (act .resetAssert base).resetLow = true ∧
    (Instr.presenceChange 0 ≠ .deviceReset ∧ Instr.presenceChange 0 ≠ .resetAssert) ∧
    Instr.uptimeTick ≠ .deviceReset ∧ Instr.uptimeTick ≠ .resetAssert := ⟨rfl, ⟨nofun, nofun⟩, nofun, nofun⟩

theorem witness_UptimeTickResult : base.resetLow = false := rfl

/-- At the ceiling, one above it, and a wrong length. -/
theorem witness_SetCeilingResult : base.takes 0 ∧ leVal [0, 0, 0, 1] = base.mapStore.ceiling ∧
    leVal [1, 0, 0, 1] = base.mapStore.ceiling + 1 ∧ ([] : List Byte).length ≠ 4 ∧
    Instr.setCeiling 0 [0, 0, 0, 0] ≠ .deviceReset ∧
    exec (.setCeiling 0 [0, 0, 0, 0]) base = .next (act (.setCeiling 0 [0, 0, 0, 0]) base) :=
  ⟨takes_base, by decide +kernel, by decide +kernel, by decide, nofun, rfl⟩

theorem witness_MapResetDraftResult : (base.takes 0 ∧ base.mapStore.ready = true ∧ base.mapStore.commit = none ∧
      base.mapStore.draft = base.mapStore.active) ∧ ([0] : List Byte) ≠ [] ∧
    (State.reset.takes 0 ∧ State.reset.mapStore.ready = false) ∧
    (committing.takes 0 ∧ committing.mapStore.ready = true ∧ committing.mapStore.commit.isSome = true) :=
  ⟨⟨takes_base, rfl, rfl, rfl⟩, nofun, ⟨takes_reset, rfl⟩, takes_committing, rfl, rfl⟩

theorem witness_MapEditResult : (base.takes 0 ∧ base.mapStore.ready = true ∧ base.mapStore.commit = none) ∧
    (((7 : Byte).toNat < 8 ∧ (3 : Byte).toNat < 4 ∧ ((1 : Byte) = 0 ∨ (1 : Byte) = 1)) ∧
      8 ≤ (8 : Byte).toNat ∧ 4 ≤ (4 : Byte).toNat ∧ ((2 : Byte) ≠ 0 ∧ (2 : Byte) ≠ 1)) ∧
    (zeroBlock.length ≠ 17 ∧ zeroBlock.length ≠ 4) ∧ (State.reset.takes 0 ∧ State.reset.mapStore.ready = false) ∧
    (committing.takes 0 ∧ committing.mapStore.ready = true ∧ committing.mapStore.commit.isSome = true) ∧
    (List.replicate 17 (0 : Byte)).length = 17 ∧ (List.replicate 4 (0 : Byte)).length = 4 :=
  ⟨⟨takes_base, rfl, rfl⟩, by decide +kernel, by decide +kernel, ⟨takes_reset, rfl⟩, ⟨takes_committing, rfl, rfl⟩, rfl, rfl⟩

theorem witness_MapReadResult : base.takes 0 ∧ ([] : List Byte).length ≠ 1 ∧ (State.reset.takes 0 ∧
    State.reset.mapStore.ready = false) ∧ base.mapStore.ready = true ∧ (2 : Byte) ≠ 0 ∧ (2 : Byte) ≠ 1 :=
  ⟨takes_base, by decide, ⟨takes_reset, rfl⟩, by decide +kernel⟩

/-- A wrong length, tag 16 and flags 4 are malformed, for a FLUSH a wrong length and tag 16. -/
theorem witness_MalformedRequestsRefused : State.reset.takes 0 ∧
    (([] : List Byte).length ≠ 6 ∧ 16 ≤ (([16, 0, 0, 0, 0, 1] : List Byte).getD 0 0).toNat ∧
      4 ≤ (([0, 4, 0, 0, 0, 1] : List Byte).getD 1 0).toNat) ∧
    (([] : List Byte).length ≠ 1 ∧ 16 ≤ (([16] : List Byte).getD 0 0).toNat) :=
  ⟨takes_reset, by decide +kernel⟩

theorem witness_RequestsRefusedByState : (3 : Byte).toNat < 4 ∧ (State.reset.takes 0 ∧ State.reset.mapStore.ready = false) ∧
    (halted.takes 0 ∧ halted.mapStore.ready = true ∧ halted.table.snapshot = some aSnapshot) ∧
    (committing.takes 0 ∧ committing.mapStore.ready = true ∧ committing.table.snapshot = none ∧
      committing.mapStore.commit = some (commitIn (.quiesce 5000) ⟨0, .awaitingTentative, 1, none⟩)) ∧
    (writing.takes 1 ∧ writing.mapStore.ready = true ∧ writing.table.snapshot = none ∧ writing.mapStore.commit = none ∧
      writing.request 3 = some (one .write 5)) :=
  ⟨by decide, ⟨takes_reset, rfl⟩, ⟨takes_halted, rfl, rfl⟩, ⟨takes_committing, rfl, rfl, rfl⟩, takes_writing,
    by decide +kernel⟩

theorem freeFor_base (t : Tag) : base.freeFor t := by
  refine ⟨rfl, rfl, rfl, ?_⟩
  have : ∀ t : Tag, base.request t = none := by decide +kernel
  exact this t

/-- A ceiling of 5. -/
def lowered : State := { base with mapStore := { base.mapStore with ceiling := 5 } }

/-- The last block just at a lowered ceiling, and a range that runs past 0FFFFFFH. -/
theorem witness_BeyondCeilingRefused : (base.mapStore.ceiling ≤ 0x1000000 ∧
      exec .uptimeTick base = .next (act .uptimeTick base)) ∧
    (lowered.takes 0 ∧ lowered.freeFor 0 ∧ (3 : Byte).toNat < 4 ∧ ReqKind.read ≠ .flush ∧ 1 ≤ (1 : Byte).toNat ∧
      (1 : Byte).toNat ≤ 64 ∧ lowered.mapStore.ceiling = leVal [5, 0, 0] + (1 : Byte).toNat - 1) ∧
    (base.takes 0 ∧ base.freeFor 0 ∧ (64 : Byte).toNat ≤ 64 ∧ base.mapStore.ceiling ≤ 0x1000000 ∧
      0xFFFFFF < leVal [0xFF, 0xFF, 0xFF] + (2 : Byte).toNat - 1) :=
  ⟨⟨by decide, rfl⟩, ⟨takes_of (by decide +kernel), ⟨rfl, rfl, rfl, by decide +kernel⟩, by decide, nofun, by decide +kernel⟩, takes_base, freeFor_base 0, by decide +kernel⟩

theorem counts_base {g : BlockRange} (h : 1 ≤ g.count ∧ g.count ≤ 64 ∧ g.first + g.count - 1 < base.mapStore.ceiling) : base.counts g := h

/-- The range 98 to 101 is mapped up to 99. -/
theorem witness_UnmappedRefused : base.takes 0 ∧ (0 : Byte).toNat < 4 ∧ ReqKind.verify ≠ .flush ∧ base.freeFor 15 ∧
    base.counts ⟨leVal [98, 0, 0], (4 : Byte).toNat⟩ ∧
    BlockRange.lowest ⟨leVal [98, 0, 0], (4 : Byte).toNat⟩ (fun x => base.translate x = none) 100 := by
  refine ⟨takes_base, by decide, nofun, freeFor_base 15, counts_base (by decide), ⟨by decide, by decide⟩, by decide +kernel, ?_⟩
  intro z h1 h2
  have h1 : 98 ≤ z := h1
  have : z = 98 ∨ z = 99 := by omega
  rcases this with rfl | rfl <;> decide +kernel

theorem serves_one (s : State) (k : ReqKind) (x : Nat) (pl : Place) (h : s.translate x = some pl)
    (h2 : s.placeAvailable pl = true) (h3 : k = .write → pl.access = .readWrite) : s.serves k ⟨x, 1⟩ := by
  rintro y ⟨a, b⟩
  have a : x ≤ y := a
  have b : y < x + 1 := b
  have : y = x := by omega
  subst this
  exact ⟨pl, h, h2, h3⟩

theorem serves_base (k : ReqKind) : base.serves k ⟨5, 1⟩ :=
  serves_one _ _ _ ⟨0, 7, .readWrite⟩ (by decide +kernel) (by decide +kernel) (fun _ => rfl)

/-- LBN 200 is read-only: a WRITE is refused there, a READ is served. -/
theorem witness_WriteProtectedRefused : base.takes 0 ∧ (0 : Byte).toNat < 4 ∧ base.freeFor 0 ∧
    base.counts ⟨leVal [200, 0, 0], (1 : Byte).toNat⟩ ∧
    (∀ x, BlockRange.has ⟨200, 1⟩ x → (base.translate x).isSome = true) ∧
    BlockRange.lowest ⟨200, 1⟩ (fun x => ∃ pl, base.translate x = some pl ∧ pl.access = .readOnly) 200 ∧
    base.serves .read ⟨leVal [200, 0, 0], (1 : Byte).toNat⟩ := by
  refine ⟨takes_base, by decide, freeFor_base 0, counts_base (by decide), ?_, ⟨⟨by decide, by decide⟩, ?_, ?_⟩, ?_⟩
  · rintro x ⟨a, b⟩
    have a : 200 ≤ x := a
    have b : x < 201 := b
    have : x = 200 := by omega
    subst this; decide +kernel
  · exact ⟨⟨0, 110, .readOnly⟩, by decide +kernel, rfl⟩
  · intro z a b; have a : 200 ≤ z := a; omega
  · exact serves_one _ _ _ ⟨0, 110, .readOnly⟩ (by decide +kernel) (by decide +kernel) nofun

/-- Counts 0 and 65, and an LBN on the empty port 1. -/
theorem witness_RangeChecksRefuse : base.takes 0 ∧ (0 : Byte).toNat < 4 ∧ ReqKind.write ≠ .flush ∧ base.freeFor 0 ∧
    (0 : Byte).toNat = 0 ∧ 64 < (65 : Byte).toNat ∧ base.counts ⟨leVal [0x2C, 1, 0], (1 : Byte).toNat⟩ ∧
    (∀ x, BlockRange.has ⟨leVal [0x2C, 1, 0], (1 : Byte).toNat⟩ x →
      ∃ pl, base.translate x = some pl ∧ (ReqKind.write = .write → pl.access = .readWrite)) ∧
    BlockRange.lowest ⟨leVal [0x2C, 1, 0], (1 : Byte).toNat⟩ (fun x => base.available x = false) 300 := by
  refine ⟨takes_base, by decide, nofun, freeFor_base 0, by decide, by decide, counts_base (by decide), ?_, ⟨by decide, by decide⟩,
    by decide +kernel, ?_⟩
  · rintro x ⟨a, b⟩
    have a : 300 ≤ x := a
    have b : x < 301 := b
    have : x = 300 := by omega
    subst this
    exact ⟨⟨1, 2, .readWrite⟩, by decide +kernel, fun _ => rfl⟩
  · intro z a b; have a : 300 ≤ z := a; omega

theorem witness_BlockedRequestIsHeld : writing.takes 1 ∧ (0 : Byte).toNat < 4 ∧ ReqKind.read ≠ .flush ∧ writing.freeFor 4 ∧
    writing.counts ⟨leVal [5, 0, 0], (1 : Byte).toNat⟩ ∧ writing.serves .read ⟨leVal [5, 0, 0], (1 : Byte).toNat⟩ ∧
    writing.blockers .read ⟨leVal [5, 0, 0], (1 : Byte).toNat⟩ ≠ [] := by
  refine ⟨takes_writing, by decide, nofun, ⟨by decide +kernel, by decide +kernel, by decide +kernel, by decide +kernel⟩, ?_, ?_, by decide +kernel⟩
  · unfold State.counts; decide +kernel
  · exact serves_one _ _ _ ⟨0, 7, .readWrite⟩ (by decide +kernel) (by decide +kernel) nofun

theorem witness_UnblockedRequestGoesActive (k : ReqKind) (h : k ≠ .flush) : base.takes 0 ∧ (3 : Byte).toNat < 4 ∧ k ≠ .flush ∧
    base.freeFor 0 ∧ base.counts ⟨leVal [5, 0, 0], (1 : Byte).toNat⟩ ∧ base.serves k ⟨leVal [5, 0, 0], (1 : Byte).toNat⟩ ∧
    base.blockers k ⟨leVal [5, 0, 0], (1 : Byte).toNat⟩ = [] := by
  refine ⟨takes_base, by decide, h, freeFor_base 0, counts_base (by decide), serves_base k, ?_⟩
  cases k <;> decide +kernel

/-- Every staging slot is STRANDED. -/
def full : State := { base with staging := { base.staging with slots := Vector.replicate 32 (.stranded 9 false [] .memberLost), pressure := true } }

/-- With free slots, and with none. -/
theorem witness_WriteTakesItsGrant :
    (base.takes 0 ∧ base.freeFor 0 ∧ base.counts ⟨leVal [5, 0, 0], (1 : Byte).toNat⟩ ∧
      base.serves .write ⟨leVal [5, 0, 0], (1 : Byte).toNat⟩ ∧ base.blockers .write ⟨leVal [5, 0, 0], (1 : Byte).toNat⟩ = [] ∧
      (∀ u, ¬ base.waits u) ∧ (∀ u, ¬ base.wantsReturn u) ∧ allSlots.filter (fun i => (base.slot i).isFree) ≠ []) ∧
    (full.takes 0 ∧ full.freeFor 0 ∧ full.counts ⟨leVal [5, 0, 0], (1 : Byte).toNat⟩ ∧
      full.serves .write ⟨leVal [5, 0, 0], (1 : Byte).toNat⟩ ∧ full.blockers .write ⟨leVal [5, 0, 0], (1 : Byte).toNat⟩ = [] ∧
      (∀ u, ¬ full.waits u) ∧ (∀ u, ¬ full.wantsReturn u) ∧ allSlots.filter (fun i => (full.slot i).isFree) = []) :=
  ⟨⟨takes_base, freeFor_base 0, counts_base (by decide), serves_base _, by decide +kernel, noWaits (by decide +kernel),
      noReads (by decide +kernel), by decide +kernel⟩,
    takes_of (by decide +kernel), ⟨rfl, rfl, rfl, by decide +kernel⟩, counts_base (by decide), serves_base _, by decide +kernel,
    noWaits (by decide +kernel), noReads (by decide +kernel), by decide +kernel⟩

/-- Slot 5 is DIRTY with LBN 9. -/
def dirty : State := (base.setStaging 5 (.dirty 9 false zeroBlock)).setDrainOrder [5]

theorem witness_FlushResult :
    (dirty.takes 0 ∧ dirty.freeFor 0 ∧
      allSlots.filter (fun i => (dirty.slot i).isFilling || (dirty.slot i).isDirty || (dirty.slot i).isDraining) ≠ []) ∧
    (base.takes 0 ∧ base.freeFor 0 ∧
      allSlots.filter (fun i => (base.slot i).isFilling || (base.slot i).isDirty || (base.slot i).isDraining) = []) :=
  ⟨⟨takes_of (by decide +kernel), ⟨rfl, rfl, rfl, by decide +kernel⟩, by decide +kernel⟩, takes_base, freeFor_base 0, by decide +kernel⟩

theorem witness_WriteDataRefused : base.takes 0 ∧ ([] : List Byte).length ≠ 258 ∧
    16 ≤ ((16 :: 0 :: zeroBlock).getD 0 0).toNat ∧ 64 ≤ ((0 :: 64 :: zeroBlock).getD 1 0).toNat ∧ zeroBlock.length = 256 ∧
    (63 : Byte).toNat < 64 ∧
    (¬ ∃ r g w x, base.request 0 = some r ∧ r.kind = .write ∧ r.state = .active ∧ r.range = some g ∧
      base.writeRecord 0 = some w ∧ w.grant = some x ∧ x.first ≤ (63 : Byte).toNat ∧ (63 : Byte).toNat < x.first + x.slots.length ∧
      (63 : Byte).toNat ∉ x.received) := by
  refine ⟨takes_base, by decide, by decide +kernel, by decide +kernel, by decide +kernel, by decide, ?_⟩
  rintro ⟨r, _, _, _, h, _⟩
  have e : base.request 0 = none := by decide +kernel
  rw [e] at h
  cases h

/-- A WRITE of two blocks, one of one block, and a THROUGH one of one block, each with its grant. -/
def writing2 : State := say (.write 0 [3, 0, 5, 0, 0, 2]) base
def writingThrough : State := say (.write 0 [3, 2, 5, 0, 0, 1]) base

/-- The port of the block is lost before the block arrives. -/
def portLost (s : State) : State := s.setPort 0 { s.port 0 with cls := .failed }

/-- No request depends on slot `n` or on block `x`, and no copy of the block is held. -/
def aloneAt (s : State) (n : SlotNo) (x : Nat) : Bool :=
  allTags.all (fun v => (s.request v).all (fun q => !q.flushSet.contains n && !q.settleSet.contains n) &&
    (s.fetchRecord v).isNone) && (s.newestCopy x).isNone

theorem alone_of {s : State} {n : SlotNo} {x : Nat} (h : aloneAt s n x = true) :
    (∀ v q, s.request v = some q → n ∉ q.flushSet ∧ n ∉ q.settleSet ∧ ∀ y, s.newestCopy x = some y → y ∉ q.flushSet) ∧
      ∀ u f v, s.fetchRecord u = some f → f.fetch = some v → v.stage = .drainWait → v.lbn ≠ x := by
  rw [aloneAt, Bool.and_eq_true, List.all_eq_true, Option.isNone_iff_eq_none] at h
  refine ⟨fun v q hq => ?_, fun u f v hf => ?_⟩
  · have k := h.1 v (mem_allTags v)
    rw [hq] at k
    simp only [Option.all_some, Bool.and_eq_true, Bool.not_eq_true', List.contains_eq_mem, decide_eq_false_iff_not] at k
    exact ⟨k.1.1, k.1.2, by rw [h.2]; nofun⟩
  · have k := h.1 u (mem_allTags u)
    rw [hf] at k
    simp at k

theorem witness_WriteDataTaken :
    (writing2.takes 1 ∧ zeroBlock.length = 256 ∧ (1 : Byte).toNat < 64 ∧
      writing2.request 3 = some { one .write 5 with range := some ⟨5, 2⟩ } ∧
      writing2.writeRecord 3 = some ⟨0, 2, some ⟨0, [0, 1], [], .unsent⟩, none⟩ ∧ 0 ≤ (1 : Byte).toNat ∧
      (1 : Byte).toNat ∉ ([] : List Nat) ∧ ([0, 1] : List SlotNo)[(1 : Byte).toNat - 0]? = some 1 ∧
      writing2.slot 1 = .filling (5 + (1 : Byte).toNat) ⟨3, 0⟩ false ∧ writing2.available (5 + (1 : Byte).toNat) = true ∧
      2 ≠ 0 + 1 ∧ ([] : List Nat).length + 1 < ([0, 1] : List SlotNo).length) ∧
    (writing.takes 1 ∧ writing.request 3 = some (one .write 5) ∧
      writing.writeRecord 3 = some ⟨0, 1, some ⟨0, [0], [], .unsent⟩, none⟩ ∧
      writing.slot 0 = .filling (5 + (0 : Byte).toNat) ⟨3, 0⟩ false ∧ writing.available (5 + (0 : Byte).toNat) = true) ∧
    (writingThrough.takes 1 ∧ writingThrough.request 3 = some { one .write 5 with through := true } ∧
      writingThrough.writeRecord 3 = some ⟨0, 1, some ⟨0, [0], [], .unsent⟩, none⟩ ∧
      writingThrough.slot 0 = .filling (5 + (0 : Byte).toNat) ⟨3, 0⟩ true ∧ writingThrough.available (5 + (0 : Byte).toNat) = true) ∧
    (∀ s ∈ [portLost writing, portLost writingThrough], s.takes 1 ∧ s.available (5 + (0 : Byte).toNat) = false ∧
      aloneAt s 0 (5 + (0 : Byte).toNat) = true ∧ TableGood s ∧ s.table.snapshot = none) :=
  ⟨⟨takes_of (by decide +kernel), by decide +kernel⟩,
    ⟨takes_writing, by decide +kernel⟩,
    ⟨takes_of (by decide +kernel), by decide +kernel⟩,
    fun s hs => by
      simp only [List.mem_cons, List.not_mem_nil, or_false] at hs
      rcases hs with rfl | rfl <;>
        exact ⟨takes_of (by decide +kernel), by decide +kernel, by decide +kernel, tableGood_of (by decide +kernel), rfl⟩⟩

/-- A WRITE waits for its first grant. -/
def waiting : State := (withRequest 3 (one .write 5) base).setWriteRecord 3 (some ⟨0, 0, none, none⟩)

theorem witness_GrantFormationResult : (waiting.resetLow = false ∧ waiting.table.admissionOrder = [] ++ 3 :: [] ∧
      (∀ u, u ∈ ([] : List Tag) → ¬ waiting.waits u) ∧ waiting.request 3 = some (one .write 5) ∧
      waiting.writeRecord 3 = some ⟨0, 0, none, none⟩ ∧ 0 < 1 ∧
      (allSlots.filter (fun i => (waiting.slot i).isFree)).take (min (1 - 0) 8) ≠ []) ∧
    (base.resetLow = false ∧ ∀ u, ¬ base.waits u) :=
  ⟨⟨rfl, rfl, nofun, by decide +kernel⟩, rfl, noWaits (by decide +kernel)⟩

/-- A READ of LBN 5 waits for a return slot; the second with the block staged in slot 5. -/
def reading : State := (withRequest 3 (one .read 5) base).setFetchRecord 3 (some ⟨0, 0, none⟩)
def readingStaged : State := reading.setStaging 5 (.dirty 5 false zeroBlock)

theorem onlyReads {s : State} {t : Tag} (h : ∀ u : Tag, u ≠ t → s.eligibleRead u = false) : ∀ u, u ≠ t → ¬ s.wantsReturn u := by
  intro u hu; rw [← State.eligibleRead_iff, h u hu]; exact Bool.false_ne_true

/-- A second READ, URGENT and admitted later, and one return slot FREE; the block's port lost; a THROUGH READ whose block is
STRANDED, DIRTY and DRAINING. -/
def readingUrgent : State :=
  let s := (withRequest 4 { one .read 6 with urgent := true } reading).setFetchRecord 4 (some ⟨0, 0, none⟩)
  allReturns.foldl (fun acc i => if i = 7 then acc else acc.setReturnSlot i (.sent ⟨9, 0⟩ 0 0 zeroBlock)) s
def readingLost : State := portLost reading
def readingThrough (x : StagingSlot) : State :=
  (reading.setRequest 3 { one .read 5 with through := true }).setStaging 31 x

theorem urgentOf {s : State} (h : ∀ u, (s.eligibleRead u && s.isUrgent u) = false) :
    ∀ u, s.wantsReturn u → ¬ ∃ q, s.request u = some q ∧ q.urgent = true := by
  rintro u hw ⟨q, hq, hu⟩
  have := h u
  rw [(s.eligibleRead_iff u).2 hw] at this
  simp [State.isUrgent, hq, hu] at this

theorem witness_ReturnSlotAssignmentResult : (reading.resetLow = false ∧
      reading.request 3 = some (one .read 5) ∧ reading.fetchRecord 3 = some ⟨0, 0, none⟩ ∧ 0 < 1 ∧
      (∀ u, reading.wantsReturn u → ¬ ∃ q, reading.request u = some q ∧ q.urgent = true) ∧
      firstOf reading.table.admissionOrder reading.wantsReturn 3 ∧
      (∀ u, u ≠ 3 → ¬ reading.wantsReturn u) ∧ reading.returnSlot 0 = .free ∧ (∀ m : RetNo, m < 0 → reading.returnSlot m ≠ .free) ∧
      (∀ i, (reading.slot i).isFilling = false → (reading.slot i).lbn? ≠ some (5 + 0)) ∧
      reading.translate (5 + 0) = some ⟨0, 7, .readWrite⟩ ∧ reading.placeAvailable ⟨0, 7, .readWrite⟩ = true) ∧
    (firstOf readingUrgent.table.admissionOrder
        (fun u => readingUrgent.wantsReturn u ∧ ∃ q, readingUrgent.request u = some q ∧ q.urgent = true) 4 ∧
      readingUrgent.eligibleRead 3 = true ∧ readingUrgent.returnSlot 7 = .free ∧
      ∀ m, m ≠ 7 → readingUrgent.returnSlot m ≠ .free) ∧
    (readingLost.available 5 = false ∧ TableGood readingLost ∧ readingLost.table.snapshot = none ∧
      firstOf readingLost.table.admissionOrder readingLost.wantsReturn 3) ∧
    (readingStaged.resetLow = false ∧ readingStaged.request 3 = some (one .read 5) ∧
      readingStaged.fetchRecord 3 = some ⟨0, 0, none⟩ ∧ (∀ u, u ≠ 3 → ¬ readingStaged.wantsReturn u) ∧
      readingStaged.coherent (5 + 0) = some zeroBlock ∧ 0 + 1 = 1) ∧
    (∀ x ∈ [StagingSlot.stranded 5 false zeroBlock .noResponse, .dirty 5 false zeroBlock, .draining 5 false zeroBlock],
      (readingThrough x).request 3 = some { one .read 5 with through := true } ∧ TableGood (readingThrough x) ∧
        (readingThrough x).slot 31 = x ∧ ∀ j, j ≠ 31 → (readingThrough x).slot j = .free) ∧
    (base.resetLow = false ∧ ∀ u, ¬ base.wantsReturn u) := by
  have only : ∀ s : State, s.table.admissionOrder = [3] → s.eligibleRead 3 = true → firstOf s.table.admissionOrder s.wantsReturn 3 :=
    fun s h k => ⟨[], [], h, (s.eligibleRead_iff 3).1 k, nofun⟩
  refine ⟨⟨rfl, by decide +kernel, by decide +kernel, by decide, urgentOf (by decide +kernel),
      only _ (by decide +kernel) (by decide +kernel), onlyReads (by decide +kernel), by decide +kernel⟩,
    ⟨⟨[3], [], by decide +kernel, ⟨(State.eligibleRead_iff _ _).1 (by decide +kernel), _, rfl, rfl⟩, ?_⟩,
      by decide +kernel⟩,
    ⟨by decide +kernel, tableGood_of (by decide +kernel), rfl, only _ (by decide +kernel) (by decide +kernel)⟩,
    ⟨rfl, by decide +kernel, by decide +kernel, onlyReads (by decide +kernel), by decide +kernel, rfl⟩, ?_,
    rfl, noReads (by decide +kernel)⟩
  · rintro u hu ⟨_, q, hq, hx⟩
    rw [List.mem_singleton] at hu
    subst hu
    rw [show readingUrgent.request 3 = some (one .read 5) by decide +kernel] at hq
    cases hq
    cases hx
  · intro x hx
    simp only [List.mem_cons, List.not_mem_nil, or_false] at hx
    rcases hx with rfl | rfl | rfl <;>
      exact ⟨by decide +kernel, tableGood_of (by decide +kernel), by decide +kernel⟩

/-- One HELD request with an empty hold list, one held by tag 3. -/
def holding : State :=
  withRequest 5 { one .read 7 with state := .held } (withRequest 4 { one .read 5 with state := .held, holdList := [3] } (withRequest 3 (one .write 5) base))

theorem witness_HoldReleaseResult : holding.resetLow = false ∧ TableGood holding ∧
    holding.request 5 = some { one .read 7 with state := .held } ∧
    holding.request 4 = some { one .read 5 with state := .held, holdList := [3] } ∧ holding.request 6 = none :=
  ⟨rfl, tableGood_of (by decide +kernel), by decide +kernel⟩

/-- The data timer of tag 3 has run out. -/
def overdue : State :=
  { (withRequest 3 (one .write 5) base).setWriteRecord 3 (some ⟨0, 1, some ⟨0, [0], [], .acknowledged⟩, some 200⟩) with clock := 200 }

theorem witness_DataTimerExpiryResult : overdue.resetLow = false ∧ TableGood overdue ∧ overdue.table.snapshot = none ∧
    overdue.request 3 = some (one .write 5) ∧
    overdue.writeRecord 3 = some ⟨0, 1, some ⟨0, [0], [], .acknowledged⟩, some 200⟩ ∧ 200 ≤ overdue.clock :=
  ⟨rfl, tableGood_of (by decide +kernel), by decide +kernel⟩

theorem witness_FetchSnapshotResult : base.takes 0 ∧ ([0] : List Byte) ≠ [] ∧ base.table.snapshot = none ∧ halted.takes 0 ∧
    halted.table.snapshot = some aSnapshot := ⟨takes_base, nofun, rfl, takes_halted, rfl⟩

/-- A wrong length and selector 2; a commit; LBNs 0FFFFFFH and 1000000H; slots named and none named. -/
theorem witness_StrandedResult : base.takes 0 ∧ ([] : List Byte).length ≠ 5 ∧
    2 ≤ (([2, 0, 0, 0, 0] : List Byte).getD 0 0).toNat ∧ (1 : Byte).toNat < 2 ∧
    (committing.takes 0 ∧ committing.mapStore.commit.isSome = true) ∧ (base.mapStore.commit = none ∧ leVal [0, 0, 0, 1] = 0x1000000) ∧
    leVal [0xFF, 0xFF, 0xFF, 0] < 0x1000000 ∧
    (stranded.takes 0 ∧ stranded.mapStore.commit = none ∧ (∀ u, ¬ stranded.waits u) ∧
      (∃ i, ((stranded.slot i).isStranded && (decide ((1 : Byte) = 0) || decide ((stranded.slot i).lbn? = some 9))) = true)) ∧
    (∀ i, ((base.slot i).isStranded && (decide ((0 : Byte) = 0) || decide ((base.slot i).lbn? = some 9))) = false) :=
  ⟨takes_base, by decide, by decide +kernel, by decide, ⟨takes_committing, rfl⟩, ⟨rfl, by decide⟩, by decide,
    ⟨takes_stranded, rfl, noWaits (by decide +kernel), ⟨5, by decide +kernel⟩⟩, by decide +kernel⟩

/-- Port 2 in DEBOUNCE with a member just fitted, before and at the end of the 25 ms. -/
def debouncing : State := act (.presenceChange 2) base
def debounced : State := { debouncing with clock := 25 }

theorem settled_of {s : State} (h : ∀ u : Tag, s.eligibleRead u = false) : s.returnsSettled := .inl (noReads h)

theorem witness_PresenceResult :
    (debouncing.resetLow = false ∧ (debouncing.port 2).cls = .debounce ∧ (debouncing.port 2).debounce = some ⟨true, 25, none⟩ ∧
      debouncing.clock < 25) ∧
    (debounced.resetLow = false ∧ (debounced.port 2).cls = .debounce ∧ (debounced.port 2).debounce = some ⟨true, 25, none⟩ ∧
      25 ≤ debounced.clock) ∧
    (base.resetLow = false ∧ (base.port 0).cls ≠ .debounce ∧ (base.port 0).cls = .pooled ∧
      (∀ c, base.mapStore.commit = some c → ∀ x ∈ c.targets, x.port ≠ 0) ∧ base.returnsSettled ∧ ∀ u, base.waitsOn 0 u = false) ∧
    (committing.resetLow = false ∧ (committing.port 1).cls ≠ .debounce ∧
      ∀ c, committing.mapStore.commit = some c → ∀ x ∈ c.targets, x.port ≠ 1) :=
  and_assoc.1 ⟨by decide +kernel, ⟨rfl, nofun, rfl, none_all rfl, settled_of (by decide +kernel), by decide +kernel⟩,
    rfl, nofun, some_all rfl (by decide)⟩

/-- Ports 0 and 3 are named, port 4 is not. -/
theorem witness_PortResetResult : base.takes 0 ∧ ([] : List Byte).length ≠ 1 ∧
    (State.reset.takes 0 ∧ State.reset.mapStore.ready = false) ∧
    (committing.takes 0 ∧ committing.mapStore.ready = true ∧ committing.mapStore.commit.isSome = true) ∧
    (base.mapStore.ready = true ∧ base.mapStore.commit = none ∧ 4 ≤ (4 : Byte).toNat) ∧ (3 : Byte) = byte (3 : Port).val ∧
    ((base.port 0).cls = .pooled ∧ base.returnsSettled ∧ ∀ u, base.waitsOn 0 u = false) :=
  ⟨takes_base, by decide, ⟨takes_reset, rfl⟩, ⟨takes_committing, rfl, rfl⟩, ⟨rfl, rfl, by decide⟩, by decide,
    by decide +kernel, settled_of (by decide +kernel), by decide +kernel⟩

/-- A fetch of LBN 5 waits for port 0, URGENT or not. -/
def portWaiting (urgent : Bool) : State :=
  (withRequest 3 { one .read 5 with urgent := urgent } base).setFetchRecord 3 (some ⟨0, 0, some ⟨0, 5, .portWait 0 7, some 0⟩⟩)

/-- A map write is asked of port 0. -/
def asking : State := base.setCommit (some (commitIn .tentative ⟨0, .awaitingTentative, 1, some ⟨.tentative, 1⟩⟩))

/-- An ordinary fetch waits beside the DIRTY slot 5. -/
def bothWaiting : State := ((portWaiting false).setStaging 5 (.dirty 9 false zeroBlock)).setDrainOrder [5]

theorem witness_ArbiterResult :
    ((busyWith .ident .probe).resetLow = false ∧ ((busyWith .ident .probe).port 0).op.isSome = true ∧
      ∀ n u, ¬ base.isUser 0 n u) ∧
    (let s : State := (portWaiting false).setPort 0 { pooled with engine := .asleep };
      (s.port 0).op = none ∧ (s.port 0).engine = .asleep ∧ ∃ n u, s.isUser 0 n u) ∧
    (∀ st : ProbeStep, st ≠ .complete →
      let s : State := onPort0 (fun _ => probing st);
      (s.port 0).op = none ∧ (s.port 0).engine = .idle ∧ s.isUser 0 1 (.probe st) ∧
        ∀ m v, s.isUser 0 m v → s.classPlace 0 1 ≤ s.classPlace 0 m) ∧
    ((asking.port 0).op = none ∧ (asking.port 0).engine = .idle ∧
      asking.mapStore.commit = some (commitIn .tentative ⟨0, .awaitingTentative, 1, some ⟨.tentative, 1⟩⟩) ∧
      asking.isUser 0 2 (.mapWrite ⟨.tentative, 1⟩) ∧ ∀ m v, asking.isUser 0 m v → asking.classPlace 0 2 ≤ asking.classPlace 0 m) ∧
    ((portWaiting true).fetchRecord 3 = some ⟨0, 0, some ⟨0, 5, .portWait 0 7, some 0⟩⟩ ∧ (portWaiting true).isUser 0 3 (.fetch 3) ∧
      ∀ m v, (portWaiting true).isUser 0 m v → (portWaiting true).classPlace 0 3 ≤ (portWaiting true).classPlace 0 m) ∧
    ((portWaiting false).isUser 0 6 (.fetch 3) ∧ (∀ i, ¬ (portWaiting false).isDrainCandidate 0 i) ∧
      ∀ m v, (portWaiting false).isUser 0 m v → (portWaiting false).classPlace 0 6 ≤ (portWaiting false).classPlace 0 m) ∧
    (bothWaiting.isUser 0 6 (.fetch 3) ∧ (∃ i, bothWaiting.isDrainCandidate 0 i) ∧
      ∀ m v, bothWaiting.isUser 0 m v → bothWaiting.classPlace 0 6 ≤ bothWaiting.classPlace 0 m) ∧
    (dirty.slot 5 = .dirty 9 false zeroBlock ∧ dirty.translate 9 = some ⟨0, 11, .readWrite⟩ ∧ dirty.isUser 0 7 (.drain 5) ∧
      ∀ m v, dirty.isUser 0 m v → dirty.classPlace 0 7 ≤ dirty.classPlace 0 m) := by
  have noDrain : ∀ i, ¬ (portWaiting false).isDrainCandidate 0 i := by
    intro i h
    have := (State.openDrain_iff _ _ _).2 h
    rw [show (portWaiting false).openDrain 0 = none by decide +kernel] at this
    cases this
  refine ⟨⟨rfl, by decide +kernel, noUser (by decide +kernel)⟩,
    ⟨by decide +kernel, by decide +kernel, 6, .fetch 3, (State.isUser_iff _ _ _ _).2 (by decide +kernel)⟩, ?_,
    ⟨by decide +kernel, by decide +kernel, rfl, firstUser (by decide +kernel) (by decide +kernel)⟩,
    ⟨by decide +kernel, firstUser (by decide +kernel) (by decide +kernel)⟩, ?_, ?_,
    ⟨by decide +kernel, by decide +kernel, firstUser (by decide +kernel) (by decide +kernel)⟩⟩
  · intro st hst
    cases st
    · exact ⟨by decide +kernel, by decide +kernel, firstUser (by decide +kernel) (by decide +kernel)⟩
    · exact ⟨by decide +kernel, by decide +kernel, firstUser (by decide +kernel) (by decide +kernel)⟩
    · exact ⟨by decide +kernel, by decide +kernel, firstUser (by decide +kernel) (by decide +kernel)⟩
    · exact absurd rfl hst
  · have := firstUser (s := portWaiting false) (p := 0) (n := 6) (u := .fetch 3) (by decide +kernel) (by decide +kernel)
    exact ⟨this.1, noDrain, this.2⟩
  · have := firstUser (s := bothWaiting) (p := 0) (n := 6) (u := .fetch 3) (by decide +kernel) (by decide +kernel)
    exact ⟨this.1, ⟨5, (State.openDrain_iff _ _ _).1 (by decide +kernel)⟩, this.2⟩

/-- An RDBLK of PBN 7 runs for the fetch of tag 3: its request is gone, is a READ of one block, or is a VERIFY. -/
def gone : State := busyWith (.rdblk 7) (.fetch ⟨3, 0⟩ 5)
def fetching (k : ReqKind) (r : Option RetNo) : State :=
  ((withRequest 3 (one k 5) gone).setFetchRecord 3 (some ⟨0, 0, some ⟨0, 5, .inFlight 0 7, r⟩⟩)).setReturnSlot 0 (.fetching ⟨3, 0⟩ 0 5)

/-- A probe of port 0 reads copy slot A or B. -/
def probeReading (st : ProbeStep) (pbn : Nat) : State :=
  onPort0 (fun _ => { probing st with engine := .busy, op := some ⟨.rdblk pbn, .probe, 1, 15, false⟩ })

/-- Two commands unacknowledged and one block bad, then the last answer. -/
def badBlock : List Byte := List.replicate 258 0

set_option maxRecDepth 20000 in
theorem badBlock_bad : badBlock ≠ List.replicate 258 0xFF ∧ ¬ (badBlock.length = 258 ∧ badBlock = storedBlock 7 (badBlock.take 256)) ∧
    ¬ (badBlock.length = 258 ∧ badBlock = storedBlock 0 (badBlock.take 256)) := by
  decide +kernel

theorem goesOn (b : Nat) (h : ¬ (badBlock.length = 258 ∧ badBlock = storedBlock b (badBlock.take 256))) :
    goesOnReading b [.noAck, .stored badBlock, .stored badBlock, .noAck] := by
  refine ⟨by decide +kernel, by decide +kernel, ?_⟩
  intro bytes hb
  simp at hb
  subst hb
  exact ⟨badBlock_bad.1, h⟩

set_option maxRecDepth 20000 in
theorem badBlock_good : storedBlock 7 zeroBlock ≠ List.replicate 258 0xFF := by decide +kernel

theorem fetching_read : (fetching .read (some 0)).request 3 = some (one .read 5) ∧
    (fetching .read (some 0)).fetchRecord 3 = some ⟨0, 0, some ⟨0, 5, .inFlight 0 7, some 0⟩⟩ ∧
    (fetching .read (some 0)).returnSlot 0 = .fetching ⟨3, 0⟩ 0 5 ∧ 0 + 1 = 1 ∧
    ∀ u, u ≠ 3 → ¬ (fetching .read (some 0)).wantsReturn u := by
  refine ⟨?_, ?_, ?_, rfl, onlyReads ?_⟩ <;> decide +kernel

set_option maxRecDepth 20000 in
theorem witness_ReadBlockResult :
    (base.resetLow = false ∧ ∀ o b, (base.port 0).op = some o → o.suspended = false → o.kind ≠ .rdblk b) ∧
    (gone.resetLow = false ∧ (gone.port 0).op = some ⟨.rdblk 7, .fetch ⟨3, 0⟩ 5, 1, 15, false⟩ ∧
      goesOnReading 7 [.noAck, .stored badBlock, .stored badBlock, .noAck] ∧ goesOnReading 7 [] ∧ gone.request 3 = none ∧
      (gone.port 0).failures < 2) ∧
    (zeroBlock.length = 256 ∧ storedBlock 7 zeroBlock ≠ List.replicate 258 0xFF) ∧
    ((fetching .read (some 0)).request 3 = some (one .read 5) ∧
      (fetching .read (some 0)).fetchRecord 3 = some ⟨0, 0, some ⟨0, 5, .inFlight 0 7, some 0⟩⟩ ∧
      (fetching .read (some 0)).returnSlot 0 = .fetching ⟨3, 0⟩ 0 5 ∧ 0 + 1 = 1 ∧
      ∀ u, u ≠ 3 → ¬ (fetching .read (some 0)).wantsReturn u) ∧
    ((fetching .verify none).request 3 = some (one .verify 5) ∧
      (fetching .verify none).fetchRecord 3 = some ⟨0, 0, some ⟨0, 5, .inFlight 0 7, none⟩⟩ ∧ 0 + 1 = 1) ∧
    ((probeReading .slotA 0).port 0).probe = some ⟨.slotA, 1000, 5, .nothing, .nothing, 0⟩ ∧
    (((probeReading .slotB 1).port 0).probe = some ⟨.slotB, 1000, 5, .nothing, .nothing, 0⟩ ∧
      (probeReading .slotB 1).mapStore.ready = true ∧ ∀ c, (probeReading .slotB 1).mapStore.commit = some c → ∃ m, c.phase = .quiesce m) ∧
    ({ probeReading .slotB 1 with mapStore := MapStore.reset } : State).mapStore.ready = false ∧
    (([.noAck, .stored badBlock, .stored badBlock, .noAck] : List ReadAnswer).filter (fun a => a = .noAck)).length = 2 ∧
    (([.noAck, .stored badBlock, .stored badBlock, .noAck] : List ReadAnswer).filter (fun a => a ≠ .noAck)).length = 2 ∧
    (((probeReading .slotA 0).port 0).probe.isSome = true ∧ ((probeReading .slotA 0).port 0).cls = .probe ∧
      goesOnReading 0 [.noAck, .stored badBlock, .stored badBlock, .noAck] ∧
      (∀ c, (probeReading .slotA 0).mapStore.commit = some c → ∀ v ∈ c.targets, v.port ≠ 0) ∧
      ∀ i z m d, (probeReading .slotA 0).slot i = .dirty z m d → (probeReading .slotA 0).liesOn 0 z = false) :=
  ⟨⟨rfl, fun o b e => (by
        have : (base.port 0).op = none := by decide +kernel
        rw [this] at e
        cases e)⟩,
    ⟨rfl, by decide +kernel, goesOn 7 badBlock_bad.2.1, ⟨by decide, by decide, nofun⟩, by decide +kernel⟩,
    ⟨rfl, badBlock_good⟩, fetching_read, by decide +kernel, rfl, ⟨rfl, rfl, none_all rfl⟩, rfl, rfl, rfl,
    ⟨rfl, rfl, goesOn 0 badBlock_bad.2.2, none_all rfl, noDirty (by decide +kernel)⟩⟩

/-- The drain of slot 4 with LBN 5 runs; alone, and with a FLUSH and a THROUGH WRITE that wait for it. -/
def draining : State := (busyWith (.pgblk 7 []) (.drain 4)).setStaging 4 (.draining 5 false zeroBlock)
def awaited : State :=
  withRequest 6 { one .write 5 with through := true, state := .settling, settleSet := [4] }
    (withRequest 3 ⟨.flush, none, false, false, .settling, 0, [], 0, none, none, [4], []⟩ draining)

/-- A map write of port 0 runs for a commit with the target `tg`. -/
def mapWriting (st : RecordState) (ph : CommitPhase) (tgs : List Target) : State :=
  (busyWith (.pgblk 1 []) (.mapWrite ⟨st, 1⟩ 2 7 true)).setCommit (some { commitIn ph ⟨0, .awaitingTentative, 1, none⟩ with targets := tgs })

theorem noWaiters {s : State} {i : SlotNo} (h : ∀ u : Tag, (match s.request u with
    | some r => decide (i ∉ r.flushSet ∧ i ∉ r.settleSet) | none => true) = true) :
    ∀ u r, s.request u = some r → i ∉ r.flushSet ∧ i ∉ r.settleSet := by
  intro u r e; have := h u; rw [e] at this; simpa using this

theorem noDrainWaits {s : State} {z : Nat} (h : ∀ u : Tag, (s.fetchRecord u).isNone = true) :
    ∀ u f v, s.fetchRecord u = some f → f.fetch = some v → v.stage = .drainWait → v.lbn ≠ z := by
  intro u f v e; have := h u; rw [e] at this; cases this

theorem firstOf_head {α : Type} {l rest : List α} {P : α → Prop} {y : α} (h : l = y :: rest) (hp : P y) : firstOf l P y :=
  ⟨[], rest, h, hp, nofun⟩

theorem witness_ProgramBlockResult :
    (base.resetLow = false ∧ ∀ o b d, (base.port 0).op = some o → o.suspended = false → o.kind ≠ .pgblk b d) ∧
    ((∀ a ∈ [ProgramAnswer.inProgress, .noAck, .inProgress], a = .inProgress ∨ a = .noAck) ∧
      1 + ([ProgramAnswer.inProgress, .noAck, .inProgress].filter (fun a => a = .noAck)).length = 2) ∧
    (draining.resetLow = false ∧ (draining.port 0).op = some ⟨.pgblk 7 [], .drain 4, 1, 15, false⟩ ∧
      draining.slot 4 = .draining 5 false zeroBlock ∧
      (∀ u f v, draining.fetchRecord u = some f → f.fetch = some v → v.stage = .drainWait → v.lbn ≠ 5) ∧
      (∀ u, ¬ draining.waits u) ∧ draining.returnsSettled ∧
      (∀ u r, draining.request u = some r → (4 : SlotNo) ∉ r.flushSet ∧ (4 : SlotNo) ∉ r.settleSet) ∧
      (∀ j, ((draining.slot j).isDirty = true ∨ (draining.slot j).isStranded = true) → (draining.slot j).lbn? ≠ some 5) ∧
      (draining.port 0).failures < 2) ∧
    (awaited.slot 4 = .draining 5 false zeroBlock ∧ (∀ u, ¬ awaited.waits u) ∧ awaited.returnsSettled ∧ TableGood awaited ∧
      (∀ u f v, awaited.fetchRecord u = some f → f.fetch = some v → v.stage = .drainWait → v.lbn ≠ 5) ∧
      awaited.request 3 = some ⟨.flush, none, false, false, .settling, 0, [], 0, none, none, [4], []⟩ ∧
      awaited.request 6 = some { one .write 5 with through := true, state := .settling, settleSet := [4] }) ∧
    (let s := mapWriting .tentative .tentative [⟨0, .awaitingTentative, 2, none⟩];
      (s.port 0).op = some ⟨.pgblk 1 [], .mapWrite ⟨.tentative, 1⟩ 2 7 true, 1, 15, false⟩ ∧
      firstOf [(⟨0, .awaitingTentative, 2, none⟩ : Target)] (fun v => v.port = 0) ⟨0, .awaitingTentative, 2, none⟩ ∧
      s.mapStore.commit = some { commitIn .tentative ⟨0, .awaitingTentative, 1, none⟩ with targets := [⟨0, .awaitingTentative, 2, none⟩] }) ∧
    (let two : List Target := [⟨0, .awaitingTentative, 1, none⟩, ⟨1, .awaitingTentative, 1, none⟩];
      firstOf two (fun v => v.port = 0) ⟨0, .awaitingTentative, 1, none⟩ ∧
      ∃ v ∈ two, v.port ≠ 0 ∧ v.stage ≠ .tentativeWritten) ∧
    (let s := mapWriting .final .final [⟨0, .tentativeWritten, 0, none⟩];
      (s.port 0).op = some ⟨.pgblk 1 [], .mapWrite ⟨.final, 1⟩ 2 7 true, 1, 15, false⟩ ∧
      s.mapStore.commit = some { commitIn .final ⟨0, .awaitingTentative, 1, none⟩ with targets := [⟨0, .tentativeWritten, 0, none⟩] } ∧
      (s.port 0).member = some ⟨1000, 5, some (1, 7)⟩) :=
  ⟨⟨rfl, fun o b d e => (by
        have : (base.port 0).op = none := by decide +kernel
        rw [this] at e
        cases e)⟩,
    ⟨by decide, by decide⟩,
    ⟨rfl, by decide +kernel, by decide +kernel, noDrainWaits (by decide +kernel), noWaits (by decide +kernel),
      settled_of (by decide +kernel), noWaiters (by decide +kernel), by decide +kernel⟩,
    ⟨by decide +kernel, noWaits (by decide +kernel), settled_of (by decide +kernel), tableGood_of (by decide +kernel),
      noDrainWaits (by decide +kernel), by decide +kernel⟩,
    ⟨by decide +kernel, firstOf_head rfl rfl, by decide +kernel⟩,
    ⟨firstOf_head rfl rfl, by decide +kernel⟩,
    by decide +kernel⟩

/-- An IDENT runs for the probe of port 0, at its limit. -/
def identing : State :=
  { onPort0 (fun _ => { probing .ident with engine := .busy, op := some ⟨.ident, .probe, 1, 15, false⟩ }) with clock := 15 }

/-- A SLEEP and a WAKE of port 0, before and at the moments they end at; a WAKE for a probe; a WAKE with a user waiting. -/
def sleeping : State := { busyWith .sleep .power with clock := 15 }
def wakingAt (clock : Nat) : State := { onPort0 (fun x => { x with engine := .waking, op := some ⟨.wake, .power, 1, 15, false⟩ }) with clock := clock }
def wakingProbe : State :=
  { onPort0 (fun _ => { probing .ident with engine := .waking, op := some ⟨.wake, .power, 1, 15, false⟩ }) with clock := 3 }
def wakingUser : State :=
  (portWaiting false).setPort 0 { pooled with engine := .waking, op := some ⟨.wake, .power, 1, 15, false⟩ }

theorem witness_LaneCommandsResult :
    (base.resetLow = false ∧ ∀ o, (base.port 0).op = some o → o.suspended = true ∨ o.kind ≠ .ident) ∧
    ((wakingAt 14).resetLow = false ∧ ∀ o, ((wakingAt 14).port 0).op = some o → o.suspended = true ∨ (wakingAt 14).clock < o.limit) ∧
    (identing.resetLow = false ∧ (identing.port 0).op = some ⟨.ident, .probe, 1, 15, false⟩ ∧
      (identing.port 0).probe = some ⟨.ident, 1000, 5, .nothing, .nothing, 0⟩ ∧ 15 ≤ identing.clock ∧ (identing.port 0).cls = .probe ∧
      (∀ c, identing.mapStore.commit = some c → ∀ v ∈ c.targets, v.port ≠ 0) ∧
      ∀ i z m d, identing.slot i = .dirty z m d → identing.liesOn 0 z = false) ∧
    ((64 ≤ 64 ∧ 262144 ≤ 262144) ∧ 63 < 64 ∧ 262144 < 262145) ∧
    (sleeping.resetLow = false ∧ (sleeping.port 0).op = some ⟨.sleep, .power, 1, 15, false⟩ ∧ (sleeping.port 0).failures < 2 ∧
      15 ≤ sleeping.clock) ∧
    (((wakingAt 2).port 0).op = some ⟨.wake, .power, 1, 15, false⟩ ∧ (wakingAt 2).clock < 15 - 15 + 3) ∧
    (((wakingAt 3).port 0).op = some ⟨.wake, .power, 1, 15, false⟩ ∧ 15 - 15 + 3 ≤ (wakingAt 3).clock ∧ ((wakingAt 3).port 0).probe = none ∧
      ((wakingAt 3).port 0).failures < 2 ∧ ∀ n u, ¬ (wakingAt 3).isUser 0 n u) ∧
    ((wakingProbe.port 0).op = some ⟨.wake, .power, 1, 15, false⟩ ∧
      (wakingProbe.port 0).probe = some ⟨.ident, 1000, 5, .nothing, .nothing, 0⟩ ∧ 15 - 15 + 3 ≤ wakingProbe.clock) ∧
    ((wakingUser.port 0).op = some ⟨.wake, .power, 1, 15, false⟩ ∧ (wakingUser.port 0).probe = none ∧ (wakingUser.port 0).failures < 2 ∧
      ∃ n u, wakingUser.isUser 0 n u) ∧
    (let s : State := { gone with clock := 15 };
      (s.port 0).op = some ⟨.rdblk 7, .fetch ⟨3, 0⟩ 5, 1, 15, false⟩ ∧ s.request 3 = none ∧ (s.port 0).failures < 2 ∧ 15 ≤ s.clock) :=
  ⟨⟨rfl, none_all (by decide +kernel)⟩, ⟨rfl, some_all (b := ⟨.wake, .power, 1, 15, false⟩) (by decide +kernel) (by decide)⟩,
    ⟨rfl, by decide +kernel, by decide +kernel, by decide, by decide +kernel, none_all rfl, noDirty (by decide +kernel)⟩,
    by decide, (by decide +kernel), (by decide +kernel), ⟨rfl, by decide, rfl, by decide +kernel, noUser (by decide +kernel)⟩,
    ⟨by decide +kernel, by decide +kernel, by decide⟩,
    ⟨by decide +kernel, by decide +kernel, by decide +kernel, 6, .fetch 3, (State.isUser_iff _ _ _ _).2 (by decide +kernel)⟩,
    by decide +kernel⟩

theorem witness_IdentifyAndStatusResult : base.takes 0 ∧ ([0] : List Byte) ≠ [] := ⟨takes_base, nofun⟩

/-- A wrong length, identifiers 0 and 10, and each identifier with its value. -/
theorem witness_GetParameterResult : base.takes 0 ∧ ([] : List Byte).length ≠ 1 ∧ (0 : Byte).toNat < 1 ∧ 9 < (10 : Byte).toNat ∧
    (1, base.params.idleCode) ∈ ([(1, base.params.idleCode), (2, base.params.dataTimeout)] : List (Nat × Nat)) :=
  ⟨takes_base, by decide, by decide, by decide, .head _⟩

/-- Both ends of each range, and one beyond each. -/
theorem witness_SetParameterResult : base.takes 0 ∧ ([] : List Byte).length ≠ 3 ∧ (0 : Byte).toNat < 1 ∧ 9 < (10 : Byte).toNat ∧
    (251 < leVal [252, 0] ∧ leVal [0, 0] < 1 ∧ 255 < leVal [0, 1] ∧ leVal [4, 0] < 5 ∧ leVal [7, 0] < 8 ∧ 31 < leVal [32, 0] ∧
      1 < leVal [2, 0] ∧ 1023 < leVal [0, 4] ∧ 5 < leVal [6, 0] ∧ 8 < leVal [9, 0]) ∧
    (leVal [251, 0] ≤ 251 ∧ 1 ≤ leVal [1, 0] ∧ leVal [255, 0] ≤ 255 ∧ 5 ≤ leVal [5, 0] ∧ 8 ≤ leVal [8, 0] ∧ leVal [31, 0] ≤ 31 ∧
      leVal [1, 0] ≤ 1 ∧ leVal [255, 3] ≤ 1023 ∧ leVal [5, 0] ≤ 5 ∧ leVal [8, 0] ≤ 8) :=
  ⟨takes_base, by decide +kernel⟩

theorem witness_UnknownKindAndResetLinkResult : base.takes 0 ∧ (0xEE : Byte) ∉ ([0x10, 0x11, 0x12, 0x13, 0x14, 0x15, 0x20, 0x21, 0x22,
    0x23, 0x24, 0x28, 0x30, 0x31, 0x32, 0x33, 0x34, 0x35, 0x40, 0x41, 0x48, 0x50, 0x51, 0x58, 0x60] : List Byte) ∧
    ([0] : List Byte) ≠ [] := ⟨takes_base, by decide, nofun⟩

/-- A wrong length and selector 2; kinds 0 and 11; ports 3 and 4; a port kind and a single kind. -/
theorem witness_NoticeClearResult : base.takes 0 ∧ ([] : List Byte).length ≠ 3 ∧ 2 ≤ (([2, 0, 0] : List Byte).getD 0 0).toNat ∧
    (0 : Byte).toNat < 1 ∧ 10 < (11 : Byte).toNat ∧ NoticeKind.portFailed = .portFailed ∧ 4 ≤ (4 : Byte).toNat ∧ (3 : Byte).toNat < 4 ∧
    (NoticeKind.startDone ≠ .portAttached ∧ NoticeKind.startDone ≠ .portDetached ∧ NoticeKind.startDone ≠ .portFailed) :=
  ⟨takes_base, by decide, by decide, by decide, by decide, rfl, by decide, by decide, nofun, nofun, nofun⟩

/-- A wrong length and flag 2; page 5; pages 4, 2 and 3, with the flag clear and set. -/
theorem witness_GetLogResult : base.takes 0 ∧ ([] : List Byte).length ≠ 2 ∧ 2 ≤ (([0, 2] : List Byte).getD 1 0).toNat ∧
    (4 < (5 : Byte).toNat ∧ (1 : Byte).toNat < 2) ∧ (4 : Byte).toNat ≤ 4 ∧ ((4 : Byte) ≠ 2 ∧ (4 : Byte) ≠ 3) :=
  ⟨takes_base, by decide +kernel⟩

/-- With no transmission, with a reply and with a report in transmission, and with fields. -/
theorem witness_LinkSyncResult : (base.receives = true ∧ base.link.resetWait = .noReset ∧ base.link.heldMessage = none ∧
      base.link.pendingReply = none ∧ base.link.transmission = none) ∧
    (reported.receives = true ∧ reported.link.resetWait = .noReset ∧ reported.link.heldMessage = none ∧
      reported.link.pendingReply = none ∧ reported.link.transmission.map (·.what) = some (.report 0 false)) ∧
    ([0] : List Byte) ≠ [] := ⟨by decide +kernel, by decide +kernel, nofun⟩

/-- A message while RESETn is low, while one is held, while a reply is pending, a duplicate with and without a cached
reply, and one out of sequence; and the release of a held message, before and after the reply has gone. -/
theorem witness_SequenceCheckResult : carries (.park 7 []) 0x40 7 [] ∧ carries (.unknownKind 0xEE 7 []) 0xEE 7 [] ∧
    (act .resetAssert base).receives = false ∧
    (base.receives = true ∧ base.link.resetWait = .noReset ∧ base.link.heldMessage = none ∧ base.link.pendingReply = none ∧
      (0x40 : Byte) ≠ 0x15 ∧ (7 : Byte) ≠ base.link.expected ∧ (7 : Byte) + 1 ≠ base.link.expected ∧ base.link.cache = none) ∧
    (writing.link.pendingReply = none ∧ (0 : Byte) ≠ writing.link.expected ∧ (0 : Byte) + 1 = writing.link.expected ∧
      writing.link.cache.isSome = true) ∧
    (let s := act (.identify 0 []) base; s.receives = true ∧ s.link.resetWait = .noReset ∧ s.link.heldMessage = none ∧
      s.link.pendingReply.isSome = true) ∧
    (let s := act (.park 1 []) (act (.identify 0 []) base); s.receives = true ∧ s.resetLow = false ∧
      s.link.heldMessage = some ⟨0x40, 1, []⟩ ∧ s.link.pendingReply.isSome = true) ∧
    (let s := heard (act (.park 1 []) (act (.identify 0 []) base)); s.resetLow = false ∧ s.link.heldMessage = some ⟨0x40, 1, []⟩ ∧
      s.link.pendingReply = none ∧ s.link.resetWait = .noReset) :=
  ⟨.inl ⟨.park, rfl, rfl⟩, .inr ⟨by decide +kernel, rfl⟩, by decide +kernel⟩

theorem witness_ReceiverEventsResult : (base.receives = true ∧ 300 < 301 ∧ 300 ≤ 300) ∧ (act .breakDeclared base).receives = false ∧
    (let s := act (.oversizeFrame 301) base; s.resetLow = false ∧ s.link.receiver = .skipping 304) ∧
    (base.resetLow = false ∧ base.link.receiver = .hunting ∧ base.link.rxdLow = false) ∧ (act .breakDeclared base).link.rxdLow = true :=
  (by decide +kernel)

/-- The reply to a RESET-LINK has been sent. -/
def resetDue : State := act .transmissionEnd (act .outboundChoice (act (.resetLink 0 []) base))

theorem witness_LinkResetResult : (base.resetLow = false ∧ base.link.rxdLow = false ∧ base.link.resetWait ≠ .due) ∧
    ((act .breakDeclared base).resetLow = false ∧ (act .breakDeclared base).link.rxdLow = true) ∧
    (resetDue.resetLow = false ∧ resetDue.link.resetWait = .due) := ⟨by decide +kernel, by decide +kernel, by decide +kernel⟩

/-- One of each candidate: a due report, a COMPLETION, a NOTICE, a GRANT and a READ-DATA; a full window; nothing. -/
def completed : State := say (.flush 0 [9]) base
def noticed : State := { base with
  notices := ⟨[⟨⟨.startDone, none⟩, 1, .number 1, .unreported⟩], [⟨.startDone, none⟩], true⟩ }
def filled : State := { base with mover := { (base.setReturnSlot 2 (.filled ⟨3, 0⟩ 0 5 zeroBlock)).mover with fillOrder := [2] } }
def dueAgain : State := { base with link := { base.link with window := [entryOf 0, { entryOf 1 with due := .byExpiry }] } }
def windowFull : State := { base with link := { base.link with window := [entryOf 0, entryOf 1, entryOf 2, entryOf 3] } }

/-- The transmitter is free, nothing precedes a report, and none is due. -/
def freeForReport (s : State) : Bool :=
  !s.resetLow && s.link.transmission.isNone && s.link.pendingReply.isNone && decide (s.link.resetWait = .noReset) && !s.link.lost &&
    s.link.window.all (fun x => decide (x.due = .notDue))

theorem witness_OutboundChoiceResult : reported.link.transmission.isSome = true ∧
    (let s := act (.identify 0 []) base; s.resetLow = false ∧ s.link.transmission = none ∧ s.link.pendingReply.isSome = true) ∧
    (let s := heard (act (.resetLink 0 []) base); s.link.transmission = none ∧ s.link.pendingReply = none ∧ s.link.resetWait ≠ .noReset) ∧
    (dueAgain.link.window = [entryOf 0] ++ { entryOf 1 with due := .byExpiry } :: [] ∧ (∀ x ∈ [entryOf 0], x.due = .notDue) ∧
      ({ entryOf 1 with due := .byExpiry } : WindowEntry).due ≠ .notDue ∧ dueAgain.link.pendingReply = none ∧
      dueAgain.link.resetWait = .noReset ∧ dueAgain.link.lost = false ∧ dueAgain.link.transmission = none) ∧
    (freeForReport windowFull = true ∧ ¬ windowFull.link.window.length < 4) ∧
    (freeForReport completed = true ∧ completed.link.window.length < 4 ∧ (∀ x ∈ completed.link.window, x.seq ≠ completed.link.reportSeq) ∧
      completed.table.completionOrder = 9 :: [] ∧ ((completed.request 9).map (·.status)) = some (some .good)) ∧
    (freeForReport noticed = true ∧ noticed.table.completionOrder = [] ∧ noticed.notices.order = ⟨.startDone, none⟩ :: [] ∧
      noticed.notice ⟨.startDone, none⟩ = some ⟨⟨.startDone, none⟩, 1, .number 1, .unreported⟩) ∧
    (freeForReport writing = true ∧ writing.table.completionOrder = [] ∧ writing.notices.order = [] ∧ writing.mover.grantOrder = 3 :: [] ∧
      writing.writeRecord 3 = some ⟨0, 1, some ⟨0, [0], [], .unsent⟩, none⟩) ∧
    (freeForReport filled = true ∧ filled.table.completionOrder = [] ∧ filled.notices.order = [] ∧ filled.mover.grantOrder = [] ∧
      filled.mover.fillOrder = 2 :: [] ∧ filled.returnSlot 2 = .filled ⟨3, 0⟩ 0 5 zeroBlock) ∧
    (freeForReport base = true ∧ base.mover.fillOrder = []) :=
  (by decide +kernel)

/-- A frame of each kind in transmission; a report whose timer stands at 40, before and at it, sent once and four times. -/
def sending (w : Sending) : State := transmit w [] base
def timed (resends clock : Nat) : State :=
  { base with clock := clock, link := { base.link with window := [{ entryOf 0 with timer := some 40, resends := resends }] } }

theorem witness_TransmissionAndTimersResult : base.link.transmission = none ∧
    (sending (.reply .nothing)).link.transmission = some ⟨.reply .nothing, []⟩ ∧
    (sending (.reply (.changeRate 3))).link.transmission = some ⟨.reply (.changeRate 3), []⟩ ∧
    (sending (.reply .resetLink)).link.transmission = some ⟨.reply .resetLink, []⟩ ∧
    (sending (.report 0 true)).link.transmission = some ⟨.report 0 true, []⟩ ∧ (∀ w ∈ base.link.window, w.seq ≠ 0) ∧
    ((timed 2 39).link.window = [] ++ { entryOf 0 with timer := some 40, resends := 2 } :: [] ∧ (timed 2 39).clock < 40) ∧
    ((timed 2 40).link.window = [] ++ { entryOf 0 with timer := some 40, resends := 2 } :: [] ∧ 40 ≤ (timed 2 40).clock ∧ 2 < 3) ∧
    ((timed 3 40).link.window = [] ++ { entryOf 0 with timer := some 40, resends := 3 } :: [] ∧ 40 ≤ (timed 3 40).clock ∧ 3 ≤ 3) :=
  ⟨rfl, rfl, rfl, rfl, rfl, nofun, ⟨rfl, by decide⟩, ⟨rfl, by decide, by decide⟩, by decide +kernel⟩

/-- Report 0 of each owner stands in the window of a state whose owner waits for it, and of one whose owner has gone. -/
def inWindow (o : ReportOwner) (s : State) : State := { s with link := { s.link with window := [⟨0, o, [], 0, none, .notDue⟩] } }
def granted : State := inWindow (.grant 3) (writing.setWriteRecord 3 (some ⟨0, 1, some ⟨0, [0], [], .inWindow 0⟩, none⟩))
def sent (r : Option Request) : State :=
  inWindow (.readData 2) (((match r with | some x => withRequest 3 x base | none => base).setFetchRecord 3 (some ⟨0, 1, none⟩)).setReturnSlot 2
    (.sent ⟨3, 0⟩ 0 5 zeroBlock))
def noticeSent (fresh : Nat) : State := inWindow (.notice ⟨.startDone, none⟩) { base with
  notices := ⟨[⟨⟨.startDone, none⟩, 1, .number 1, .sent 0 fresh⟩], [], true⟩ }

theorem witness_ReportAckResult : (act .resetAssert base).receives = false ∧ (base.receives = true ∧ ∀ w ∈ base.link.window, w.seq ≠ 0) ∧
    ((inWindow (.completion 9) base).link.window = [] ++ ⟨0, .completion 9, [], 0, none, .notDue⟩ :: [] ∧
      (inWindow (.completion 9) base).receives = true ∧ ∀ r, (inWindow (.completion 9) base).request 9 = some r → r.state ≠ .reporting) ∧
    ((inWindow (.completion 3) halted).request 3 = some { one .write 5 with state := .reporting, status := some .dataTimeout }) ∧
    (granted.writeRecord 3 = some ⟨0, 1, some ⟨0, [0], [], .inWindow 0⟩, none⟩) ∧
    (∀ x g, (inWindow (.grant 3) base).writeRecord 3 = some x → x.grant = some g → g.report ≠ .inWindow 0) ∧
    ((sent (some (one .read 5))).returnSlot 2 = .sent ⟨3, 0⟩ 0 5 zeroBlock ∧ (∀ v, ¬ (sent (some (one .read 5))).wantsReturn v) ∧
      (sent (some (one .read 5))).request 3 = some (one .read 5) ∧ 0 + 1 = 1) ∧
    ((∀ v, ¬ (sent (some { one .read 5 with range := some ⟨5, 2⟩, state := .aborting })).wantsReturn v) ∧ 0 + 1 ≠ 2) ∧
    (∀ f : Fin 2, let n : Notice := ⟨⟨.startDone, none⟩, 1, .number 1, .sent 0 f.val⟩;
      n ∈ (noticeSent f.val).notices.pending ∧
        ∀ x ∈ (noticeSent f.val).notices.pending, ∀ g, x.report = .sent 0 g → x = n) ∧
    (base.params.held = false ∧ ({ base.params with held := true } : Params).held = true) :=
  ⟨by decide +kernel, by decide +kernel, ⟨rfl, by decide +kernel, none_all (by decide +kernel)⟩, by decide +kernel, by decide +kernel,
    fun x g e => (by
        have : (inWindow (.grant 3) base).writeRecord 3 = none := by decide +kernel
        rw [this] at e
        cases e),
    ⟨by decide +kernel, noReads (by decide +kernel), by decide +kernel, rfl⟩, ⟨noReads (by decide +kernel), by decide⟩,
    fun f => ⟨.head _, fun x hx g _ => by simpa [noticeSent, inWindow] using hx⟩, rfl, rfl⟩

/-- `base` with another draft and another active generation. -/
def drafted (e : Extent) : State := base.setMaps { base.mapStore with draft := { someMap with extents := (Vector.replicate 8 Extent.empty).set 0 e } }
def lastMap : State := base.setMaps { base.mapStore with active := { someMap with generation := 0xFFFFFFFF } }

theorem drafted_ok : ∀ i r, ¬ (drafted Extent.empty).draftFails i r := by
  intro i r h
  have : ∀ i : Fin 8, ((drafted Extent.empty).mapStore.draft.extents[i]).enabled = false := by decide +kernel
  exact absurd h.1 (by rw [this i]; exact Bool.false_ne_true)

theorem witness_MapCommitResult : base.takes 0 ∧ ([0] : List Byte) ≠ [] ∧ (State.reset.takes 0 ∧ State.reset.mapStore.ready = false) ∧
    (committing.takes 0 ∧ committing.mapStore.ready = true ∧
      committing.mapStore.commit = some (commitIn (.quiesce 5000) ⟨0, .awaitingTentative, 1, none⟩)) ∧
    (let s : State := { State.reset with mapStore := base.mapStore };
      s.takes 0 ∧ s.mapStore.ready = true ∧ s.mapStore.commit = none ∧ ∀ p, s.isTargetPort p = false) ∧
    (lastMap.takes 0 ∧ lastMap.mapStore.ready = true ∧ lastMap.mapStore.commit = none ∧ lastMap.isTargetPort 0 = true ∧
      lastMap.mapStore.active.generation = 0xFFFFFFFF) ∧
    (let s := drafted ⟨true, .readWrite, 1, 0, 0, 0⟩;
      s.takes 0 ∧ s.isTargetPort 0 = true ∧ s.mapStore.active.generation ≠ 0xFFFFFFFF ∧ s.draftFails 0 .zeroLength ∧
      (∀ j x, j < (0 : Fin 8) → ¬ s.draftFails j x) ∧ ∀ x : InvalidReason, x.code < InvalidReason.zeroLength.code → ¬ s.draftFails 0 x) ∧
    ((drafted Extent.empty).takes 0 ∧ (drafted Extent.empty).mapStore.ready = true ∧ (drafted Extent.empty).mapStore.commit = none ∧
      (drafted Extent.empty).isTargetPort 0 = true ∧ (drafted Extent.empty).mapStore.active.generation ≠ 0xFFFFFFFF ∧
      (∀ i r, ¬ (drafted Extent.empty).draftFails i r) ∧ (drafted Extent.empty).quiesced) := by
  refine ⟨takes_base, nofun, ⟨takes_reset, rfl⟩, ⟨takes_committing, rfl, rfl⟩, ⟨takes_of (by decide +kernel), by decide +kernel⟩,
    ⟨takes_of (by decide +kernel), rfl, rfl, by decide +kernel, rfl⟩,
    ⟨takes_of (by decide +kernel), by decide +kernel, by decide +kernel, ⟨by decide +kernel, by decide +kernel⟩, fun j x h => ?_, fun x h => ?_⟩,
    takes_of (by decide +kernel), rfl, rfl, by decide +kernel, by decide +kernel, drafted_ok, (by unfold State.quiesced; decide +kernel)⟩
  · exact absurd h (Fin.not_lt_zero j)
  · cases x <;> exact absurd h (by decide)

/-- A commit in QUIESCE with the condition met, at its limit and before it; one in TENTATIVE; a busy staging buffer. -/
theorem witness_QuiesceResult : (base.resetLow = false ∧ base.mapStore.commit = none) ∧
    (let s := dirty.setCommit committing.mapStore.commit; ¬ s.quiesced) ∧
    (asking.mapStore.commit = some (commitIn .tentative ⟨0, .awaitingTentative, 1, some ⟨.tentative, 1⟩⟩) ∧
      ∀ m, (commitIn .tentative ⟨0, .awaitingTentative, 1, some ⟨.tentative, 1⟩⟩).phase ≠ .quiesce m) ∧
    (committing.resetLow = false ∧
      committing.mapStore.commit = some (commitIn (.quiesce 5000) ⟨0, .awaitingTentative, 1, none⟩) ∧
      (commitIn (.quiesce 5000) ⟨0, .awaitingTentative, 1, none⟩).phase = .quiesce 5000 ∧ committing.quiesced ∧ committing.clock < 5000) ∧
    (let s : State := { committing with clock := 5000 };
      5000 ≤ s.clock ∧ (∀ p, (s.port p).cls ≠ .probe) ∧
        ∀ p o w g y b, (s.port p).op = some o → o.user ≠ .mapWrite w g y b) := by
  refine ⟨⟨rfl, rfl⟩, ?_, ⟨rfl, nofun⟩, ⟨rfl, rfl, rfl, (by unfold State.quiesced; decide +kernel), by decide⟩, by decide, by decide +kernel, ?_⟩
  · intro s
    rintro ⟨_, h⟩
    have := h 5
    revert this
    decide +kernel
  · intro p o w g y b e
    have : ∀ p : Port, (({ committing with clock := 5000 } : State).port p).op = none := by decide +kernel
    rw [this p] at e; cases e

/-- The part is STARTING and port 0 holds the record of generation 1; a port still probes; the part is READY. -/
def starting : State :=
  { State.reset with ports := State.reset.ports.set 0 { probing .complete with probe := some ⟨.complete, 1000, 5, .found .final someMap, .nothing, 0⟩ } }

theorem starting_record (x : Port) (n : Map) (h : starting.heldRecord x = some n) : x = 0 ∧ n = someMap := by
  have : starting.heldRecord 0 = some someMap ∧ ∀ p : Port, p ≠ 0 → starting.heldRecord p = none := by decide +kernel
  by_cases hx : x = 0
  · subst hx; rw [this.1] at h; cases h; exact ⟨rfl, rfl⟩
  · rw [this.2 x hx] at h; cases h

theorem witness_StartupEndResult : (base.resetLow = false ∧ base.mapStore.ready = true) ∧
    (let s : State := { State.reset with ports := State.reset.ports.set 0 (probing .ident) };
      s.resetLow = false ∧ (s.port 0).cls ≠ .empty ∧ (s.port 0).cls ≠ .failed ∧ s.holdsFindings 0 = false) ∧
    (starting.resetLow = false ∧ starting.mapStore.ready = false ∧
      (∀ p, (starting.port p).cls = .empty ∨ (starting.port p).cls = .failed ∨ starting.holdsFindings p = true) ∧
      starting.heldRecord 0 = some someMap ∧ (∀ x n, starting.heldRecord x = some n → n.generation ≤ someMap.generation) ∧
      (∀ x n, x < 0 → starting.heldRecord x = some n → n.generation ≠ someMap.generation) ∧
      ∀ i, (starting.slot i).isDirty = false) ∧
    (State.reset.mapStore.ready = false ∧ (∀ p, (State.reset.port p).cls = .empty) ∧ ∀ p, State.reset.heldRecord p = none) := by
  refine ⟨⟨rfl, rfl⟩, by decide +kernel, ⟨rfl, rfl, by decide +kernel, by decide +kernel, fun x n h => ?_, fun x n h => ?_, by decide +kernel⟩,
    by decide +kernel⟩
  · rw [(starting_record x n h).2]; exact BitVec.le_refl _
  · exact absurd h (Fin.not_lt_zero x)

theorem witness_ParkMessagesResult : base.takes 0 ∧ ([0] : List Byte) ≠ [] ∧ (State.reset.takes 0 ∧ State.reset.mapStore.ready = false) ∧
    (base.mapStore.ready = true ∧ base.power.state = .active) ∧
    (let s := base.setPower .parked; s.takes 0 ∧ s.mapStore.ready = true ∧ s.power.state = .parked) :=
  ⟨takes_base, nofun, ⟨takes_reset, rfl⟩, ⟨rfl, rfl⟩, takes_of (by decide +kernel), rfl, rfl⟩

/-- The idle timer before its moment and at it; PARKING with the condition met and with an operation in flight. -/
theorem witness_PowerEventsResult :
    ((base.setIdleTimer (some 1)).resetLow = false ∧ ∀ m, (base.setIdleTimer (some 1)).power.idleTimer = some m → base.clock < m) ∧
    ((base.setIdleTimer (some 0)).power.idleTimer = some 0 ∧ 0 ≤ base.clock ∧ (base.setIdleTimer (some 0)).power.state = .active) ∧
    (base.power.state ≠ .parking) ∧
    (let s := base.setPower .parking;
      s.resetLow = false ∧ s.power.state = .parking ∧
        (∀ t r, s.request t = some r → r.state ≠ .active ∧ r.state ≠ .settling ∧ r.state ≠ .aborting) ∧
        (∀ p, (s.port p).op = none) ∧ ∀ c, s.mapStore.commit = some c → c.phase ≠ .tentative ∧ c.phase ≠ .final) :=
  ⟨⟨rfl, some_all rfl (by decide)⟩, ⟨rfl, by decide, rfl⟩, nofun, rfl, rfl,
    fun t r e => (by
        have : ∀ t : Tag, (base.setPower .parking).request t = none := by decide +kernel
        rw [this t] at e
        cases e),
    by decide +kernel, none_all rfl⟩

/-! ## Boundary values and further clauses of the widest statements -/

/-- Two pending instances, one of a port kind, in key order, both UNREPORTED and enabled. -/
def twoNotices : State := { base with
  notices := ⟨[⟨⟨.portAttached, some 3⟩, 255, .portClass .pooled, .unreported⟩, ⟨⟨.startDone, none⟩, 1, .number 1, .unreported⟩],
    [⟨.startDone, none⟩, ⟨.portAttached, some 3⟩], true⟩ }

theorem witness_NoticesKeepTheirForm : NoticesGood twoNotices ∧ step twoNotices = .next twoNotices := by
  refine ⟨⟨by decide +kernel, ?_, by decide +kernel, fun k => ?_⟩, rfl⟩
  · intro n hn
    have hn : n ∈ ([_, _] : List Notice) := hn
    simp only [List.mem_cons, List.not_mem_nil, or_false] at hn
    rcases hn with rfl | rfl <;> exact ⟨rfl, by decide, by decide, nofun⟩
  · have e : ∀ b : NoticeKind, twoNotices.params.noticeEnable.getLsbD (b.code - 1) = true ∨ b = .logAdded := by
      intro b; cases b <;> decide +kernel
    constructor
    · intro hk
      have hk : k ∈ ([_, _] : List NoticeKey) := hk
      simp only [List.mem_cons, List.not_mem_nil, or_false] at hk
      rcases hk with rfl | rfl
      · exact ⟨_, .tail _ (.head _), by decide +kernel⟩
      · exact ⟨_, .head _, by decide +kernel⟩
    · rintro ⟨n, hn, rfl, -⟩
      have hn : n ∈ ([_, _] : List Notice) := hn
      simp only [List.mem_cons, List.not_mem_nil, or_false] at hn
      rcases hn with rfl | rfl
      · exact .tail _ (.head _)
      · exact .head _

theorem someMap_apart : someMap.apart :=
  (Map.apart_iff someMap).1 (by unfold ExtentsApart; decide +kernel)

/-- The law of the ports holds with a POOLED member; LBN 99 and 100 are the last block of an extent and the first beyond it. -/
theorem witness_PortsKeepTheirLaws : PortsGood base ∧ step base = .next base ∧
    (base.mapStore.active.extents[(0 : Fin 8)]).enabled = true ∧ base.translate 99 = some ⟨0, 101, .readWrite⟩ ∧
    base.translate 100 = none ∧ (base.port 0).cls = .pooled ∧ (base.port 1).cls = .empty := by
  refine ⟨⟨⟨someMap_apart, fun p => ?_, none_all rfl⟩, nofun⟩, rfl, by decide +kernel⟩
  have h : ∀ p : Port, p = 0 ∧ base.port p = pooled ∨ p ≠ 0 ∧ base.port p = PortRecord.emptyAtReset := by decide +kernel
  rcases h p with ⟨-, e⟩ | ⟨-, e⟩ <;> rw [e]
  · exact ⟨nofun, fun _ => .inl ⟨_, rfl, rfl⟩, fun _ => rfl, nofun, nofun⟩
  · exact ⟨fun _ => rfl, nofun, nofun, nofun, nofun⟩

/-- A block DIRTY in one slot, with the older copy DRAINING in another. -/
def staged : State := (dirty.setStaging 6 (.draining 9 false zeroBlock)).setStaging 7 (.stranded 10 true zeroBlock .noResponse)

theorem witness_StagingKeepsItsLaws : StageGood staged ∧ step staged = .next staged := by
  have no : ∀ u : Tag, staged.request u = none ∧ staged.writeRecord u = none ∧ staged.fetchRecord u = none := by decide +kernel
  refine ⟨⟨tableGood_of (by decide +kernel), haltGood_of (by decide +kernel), overlapGood_of (by decide +kernel),
    ⟨by decide +kernel, by decide +kernel, ?_⟩, fun t w h => ?_, fun t f h => ?_, fun t r h => ?_, fun i x o => ⟨?_, ?_⟩⟩, rfl⟩
  · have h : ∀ i j : SlotNo, (staged.slot i).place.isSome = true → (staged.slot i).place = (staged.slot j).place → i = j := by
      decide +kernel
    intro i j c _ hi hj
    exact h i j (by rw [hi]; rfl) (by rw [hi, hj])
  · rw [(no t).2.1] at h; cases h
  · rw [(no t).2.2] at h; cases h
  · rw [(no t).1] at h; cases h
  · rintro ⟨m, h⟩
    have := (by decide +kernel : ∀ i, (staged.slot i).isFilling = false) i
    rw [h] at this; cases this
  · rintro ⟨r, _, _, _, _, h, _⟩
    rw [(no o.tag).1] at h; cases h

/-- The WRITE of tag 3 waits, and no slot is FREE before the discard. -/
def fullWaiting : State := (withRequest 3 (one .write 5) full).setWriteRecord 3 (some ⟨0, 0, none, none⟩)

theorem witness_DiscardGrants : fullWaiting.takes 0 ∧ leVal [9, 0, 0, 0] < 0x1000000 ∧
    ([3] : List Tag).Sublist fullWaiting.table.admissionOrder ∧
    (∀ u, u ∈ ([3] : List Tag) ↔ u ∈ fullWaiting.table.admissionOrder ∧ fullWaiting.waits u) ∧ TableGood fullWaiting ∧
    (∀ i, (fullWaiting.slot i).isFree = false) ∧ (3, 0) ∈ ([3] : List Tag).zip ([0, 1] : List SlotNo) ∧
    fullWaiting.request 3 = some (one .write 5) ∧ fullWaiting.writeRecord 3 = some ⟨0, 0, none, none⟩ := by
  refine ⟨takes_of (by decide +kernel), by decide, by decide +kernel, fun u => ⟨fun h => ?_, fun h => h.1⟩, tableGood_of (by decide +kernel),
    by decide +kernel⟩
  rw [List.mem_singleton] at h
  subst h
  exact ⟨by decide +kernel, one .write 5, ⟨5, 1⟩, ⟨0, 0, none, none⟩, by decide +kernel⟩

/-- Tag 3 has a slot FILLING, tag 4 another one for its ACTIVE WRITE. -/
def overdueBoth : State :=
  let s := (overdue.setStaging 0 (.filling 5 ⟨3, 0⟩ false)).setStaging 1 (.filling 6 ⟨4, 0⟩ false)
  (withRequest 4 (one .write 6) s).setWriteRecord 4 (some ⟨0, 1, some ⟨0, [1], [], .acknowledged⟩, some 300⟩)

theorem witness_DataTimerFreesSlots : TableGood overdueBoth ∧ overdueBoth.request 3 = some (one .write 5) ∧
    overdueBoth.slot 0 = .filling 5 ⟨3, 0⟩ false ∧ overdueBoth.slot 1 = .filling 6 ⟨4, 0⟩ false ∧
    overdueBoth.request 4 = some (one .write 6) ∧ overdueBoth.fetchInFlight 4 = false ∧ (overdueBoth.slot 2).isFilling = false :=
  ⟨tableGood_of (by decide +kernel), by decide +kernel⟩

theorem waitsFirst {s : State} {p : Port} {u : Tag} (h : s.table.admissionOrder = [u]) (hw : s.waitsOn p u = true) :
    firstOf s.table.admissionOrder (fun v => s.waitsOn p v = true) u := firstOf_head h hw

/-- A commit with two targets, ports 0 and 1. -/
def withTargets (ph : CommitPhase) (point : Bool) (a b : Target) : State := base.setCommit (some ⟨ph, 2, [a, b], point, [], []⟩)

theorem notLive {ph : CommitPhase} {point : Bool} {a b : Target} {v : Target} (h : v.ask = none) :
    ¬ (v.ask.isSome = true ∨ ∃ q m g k, ((withTargets ph point a b).port v.port).op = some q ∧ q.user = .mapWrite m g k true) := by
  have no : ∀ p, ((withTargets ph point a b).port p).op = none := by
    show ∀ p, (base.port p).op = none
    decide +kernel
  rintro (k | ⟨q, _, _, _, e, _⟩)
  · rw [h] at k; cases k
  · rw [no] at e; cases e

/-- The port has a fetch waiting, is the last target, and is the first of two with the other in each stage. -/
theorem witness_PresenceOfTarget :
    (((portWaiting false).port 0).cls = .pooled ∧ TableGood (portWaiting false) ∧ (portWaiting false).table.snapshot = none ∧
      firstOf (portWaiting false).table.admissionOrder (fun v => (portWaiting false).waitsOn 0 v = true) 3 ∧
      (portWaiting false).request 3 = some (one .read 5) ∧
      (portWaiting false).fetchRecord 3 = some ⟨0, 0, some ⟨0, 5, .portWait 0 7, some 0⟩⟩) ∧
    ((∃ v ∈ [(⟨0, .awaitingTentative, 1, none⟩ : Target)], v.port = 0) ∧ committing.returnsSettled ∧
      (∀ u, committing.waitsOn 0 u = false) ∧ (commitIn (.quiesce 5000) ⟨0, .awaitingTentative, 1, none⟩).pointReached = false ∧
      ∀ i, (committing.slot i).isDirty = false) ∧
    (∀ (st : TargetStage) (ask : Option MapWrite), let s := withTargets .tentative false ⟨0, st, 0, ask⟩ ⟨1, .awaitingTentative, 1, none⟩
      (∃ v ∈ [(⟨1, .awaitingTentative, 1, none⟩ : Target)], v.stage ≠ .tentativeWritten) ∧ s.returnsSettled ∧ ∀ u, s.waitsOn 0 u = false) ∧
    (∀ point, let s := withTargets (if point then .final else .tentative) point ⟨0, .tentativeWritten, 0, none⟩ ⟨1, .tentativeWritten, 0, none⟩
      firstOf [(⟨1, .tentativeWritten, 0, none⟩ : Target)] (fun v => v.stage = .tentativeWritten) ⟨1, .tentativeWritten, 0, none⟩ ∧
      ∀ v ∈ [(⟨1, .tentativeWritten, 0, none⟩ : Target)], v.stage = .tentativeWritten ∧
        ¬ (v.ask.isSome = true ∨ ∃ q m g k, (s.port v.port).op = some q ∧ q.user = .mapWrite m g k true)) ∧
    (let s := withTargets .final true ⟨0, .tentativeWritten, 0, none⟩ ⟨1, .finalWritten, 0, none⟩
      ∀ v ∈ [(⟨1, .finalWritten, 0, none⟩ : Target)], v.stage ≠ .tentativeWritten ∧
        ¬ (v.ask.isSome = true ∨ ∃ q m g k, (s.port v.port).op = some q ∧ q.user = .mapWrite m g k true)) := by
  refine ⟨⟨by decide +kernel, tableGood_of (by decide +kernel), rfl, waitsFirst (by decide +kernel) (by decide +kernel), by decide +kernel⟩,
    ⟨⟨_, .head _, rfl⟩, settled_of (by decide +kernel), by decide +kernel⟩,
    fun st ask => ⟨⟨_, .head _, nofun⟩, settled_of (show ∀ u : Tag, base.eligibleRead u = false by decide +kernel),
      show ∀ u : Tag, base.waitsOn 0 u = false by decide +kernel⟩, fun point => ⟨firstOf_head rfl rfl, ?_⟩, ?_⟩
  · intro v hv; rw [List.mem_singleton] at hv; subst hv; exact ⟨rfl, notLive rfl⟩
  · intro s v hv; rw [List.mem_singleton] at hv; subst hv; exact ⟨nofun, notLive rfl⟩

/-- PORT-RESET finds a fetch waiting, and a fetch in flight. -/
theorem witness_PortResetEndsFetches :
    ((portWaiting false).takes 0 ∧ (0 : Byte) = byte (0 : Port).val ∧ (portWaiting false).mapStore.ready = true ∧
      (portWaiting false).mapStore.commit = none ∧ ((portWaiting false).port 0).op = none ∧
      ((portWaiting false).presence[(0 : Port)] = false → ∀ i x m d, (portWaiting false).slot i = .dirty x m d →
        (portWaiting false).liesOn 0 x = false)) ∧
    ((fetching .read (some 0)).takes 0 ∧ ((fetching .read (some 0)).port 0).op = some ⟨.rdblk 7, .fetch ⟨3, 0⟩ 5, 1, 15, false⟩ ∧
      (fetching .read (some 0)).mapStore.ready = true ∧ (fetching .read (some 0)).mapStore.commit = none ∧
      (fetching .read (some 0)).request 3 = some (one .read 5) ∧
      (fetching .read (some 0)).fetchRecord 3 = some ⟨0, 0, some ⟨0, 5, .inFlight 0 7, some 0⟩⟩) :=
  ⟨⟨takes_of (by decide +kernel), by decide, rfl, rfl, by decide +kernel, fun _ => noDirty (by decide +kernel)⟩,
    takes_of (by decide +kernel), by decide +kernel⟩

/-- The record of `someMap` with one byte changed. -/
def recordWith (n : Nat) (b : Byte) : List Byte := (recordBytes .final 9 7 someMap).set n b

set_option maxRecDepth 20000 in
/-- A record in form and one whose map is not; a block that fails each test; the faults of an ACTIVE and an ABORTING fetch, at the
third failure too. -/
theorem witness_ReadBlockFaults :
    ((2 : Word32) ≠ 0 ∧ structuralOk (someMap.extents.toList.filter (·.enabled)) = true ∧
      structuralOk (({ someMap with extents := someMap.extents.set 0 ⟨true, .readWrite, 0, 0, 100, 1⟩ } : Map).extents.toList.filter
        (·.enabled)) = false) ∧
    (leVal ((recordWith 0 0).take 4) ≠ 0x0A35C7E1 ∧ (recordWith 4 2).getD 4 0 ≠ 1 ∧
      (crc32 ((recordWith 252 0).take 252)).toNat ≠ leVal ((recordWith 252 0).drop 252) ∧
      ((recordWith 5 3).getD 5 0 ≠ 1 ∧ (recordWith 5 3).getD 5 0 ≠ 2) ∧ leVal (((recordWith 8 0).drop 8).take 4) = 0 ∧
      (recordWith 16 1).getD (16 + 16 * 0) 0 = 1 ∧ 2 ≤ ((recordWith 17 2).getD (17 + 16 * 0) 0).toNat ∧
      4 ≤ ((recordWith 18 4).getD (18 + 16 * 0) 0).toNat ∧ (recordWith 0 0).length = 256) ∧
    (∀ x ∈ [ReqState.active, .aborting],
      let s : State := { (fetching .read (some 0)).setRequest 3 { one .read 5 with state := x } with clock := 15 }
      s.request 3 = some { one .read 5 with state := x } ∧ TableGood s ∧ s.table.snapshot = none ∧ (s.port 0).failures < 2 ∧
        (∀ u, x = .aborting → ¬ s.wantsReturn u) ∧ 15 ≤ s.clock) ∧
    (let s := (fetching .verify none).setPort 0 { (fetching .verify none).port 0 with failures := 2 };
      (s.port 0).failures = 2 ∧ (s.port 0).op = some ⟨.rdblk 7, .fetch ⟨3, 0⟩ 5, 1, 15, false⟩ ∧ s.request 3 = some (one .verify 5) ∧
      s.fetchRecord 3 = some ⟨0, 0, some ⟨0, 5, .inFlight 0 7, none⟩⟩) ∧
    (let s := (probeReading .slotB 1).setCommit (some (commitIn .tentative ⟨2, .awaitingTentative, 1, none⟩));
      (s.port 0).probe = some ⟨.slotB, 1000, 5, .nothing, .nothing, 0⟩ ∧ ∃ c, s.mapStore.commit = some c ∧ ∀ m, c.phase ≠ .quiesce m) := by
  refine ⟨by decide +kernel, by decide +kernel, fun x hx => ?_, by decide +kernel, by decide +kernel, _, rfl, nofun⟩
  simp only [List.mem_cons, List.not_mem_nil, or_false] at hx
  rcases hx with rfl | rfl
  · exact ⟨by decide +kernel, tableGood_of (by decide +kernel), rfl, by decide +kernel, nofun, by decide⟩
  · exact ⟨by decide +kernel, tableGood_of (by decide +kernel), rfl, by decide +kernel, fun u _ => noReads (by decide +kernel) u, by decide⟩

/-- A newer copy of the block whose drain fails is DIRTY, and STRANDED with a FLUSH that waits. -/
def newerDirty : State := awaited.setStaging 8 (.dirty 5 false zeroBlock)
def newerStranded : State :=
  (withRequest 3 ⟨.flush, none, false, false, .settling, 0, [], 0, none, none, [4], []⟩ draining).setStaging 8
    (.stranded 5 false zeroBlock .noResponse)

theorem witness_DrainFailures :
    (∀ s ∈ [newerDirty, newerStranded], (s.slot 8).lbn? = some 5 ∧ TableGood s ∧ s.slot 4 = .draining 5 false zeroBlock ∧
      (∀ j, ((s.slot j).isDirty = true ∨ (s.slot j).isStranded = true) → (s.slot j).lbn? = some 5 → j = 8) ∧
      (s.port 0).failures < 2) ∧
    ((newerDirty.slot 8).isDirty = true ∧ (∀ u, ¬ newerDirty.waits u) ∧ newerDirty.returnsSettled ∧
      newerDirty.request 6 = some { one .write 5 with through := true, state := .settling, settleSet := [4] }) ∧
    (newerStranded.slot 8 = .stranded 5 false zeroBlock .noResponse ∧ newerStranded.table.snapshot = none ∧
      newerStranded.request 3 = some ⟨.flush, none, false, false, .settling, 0, [], 0, none, none, [4], []⟩ ∧
      ∀ v, v ≠ 3 → newerStranded.request v = none) ∧
    (let s : State := { draining with clock := 15 }; 15 ≤ s.clock ∧ 1 ≤ 1 ∧ 2 + 0 = 2) := by
  refine ⟨fun s hs => ?_, ⟨by decide +kernel, noWaits (by decide +kernel), settled_of (by decide +kernel), by decide +kernel⟩,
    by decide +kernel⟩
  simp only [List.mem_cons, List.not_mem_nil, or_false] at hs
  rcases hs with rfl | rfl <;>
    exact ⟨by decide +kernel, tableGood_of (by decide +kernel), by decide +kernel⟩

/-- Port 0 writes the map for a commit whose other target, port 1, is in each stage that matters. -/
theorem witness_CommitEnds :
    (∀ v : Target, v.port = 1 → v.ask = none → ∀ (st : RecordState) (ph : CommitPhase) (tg : Target),
      let s := mapWriting st ph [tg, v]
      v.port ≠ 0 ∧ ∀ q m h k, (s.port v.port).op = some q → q.user ≠ .mapWrite m h k true) ∧
    (let last : Target := ⟨0, .awaitingTentative, 1, none⟩; let other : Target := ⟨1, .tentativeWritten, 0, none⟩
      last.owed ≤ 1 ∧ other.stage = .tentativeWritten ∧ ([last, other].map (·.port)).Nodup ∧
      (mapWriting .tentative .tentative [last, other]).quiesced) ∧
    (let first : Target := ⟨0, .tentativeWritten, 0, none⟩; let other : Target := ⟨1, .tentativeWritten, 0, none⟩
      firstOf [first, other] (fun v => v.port ≠ 0 ∧ v.stage = .tentativeWritten) other ∧
      (mapWriting .final .final [first, other]).quiesced) ∧
    (let first : Target := ⟨0, .tentativeWritten, 0, none⟩; let other : Target := ⟨1, .finalWritten, 0, none⟩
      ∀ v ∈ [first, other], ¬ (v.port ≠ 0 ∧ v.stage = .tentativeWritten)) ∧
    (let s : State := (busyWith (.pgblk 1 []) (.mapWrite ⟨.final, 1⟩ 2 7 false));
      (s.port 0).op = some ⟨.pgblk 1 [], .mapWrite ⟨.final, 1⟩ 2 7 false, 1, 15, false⟩ ∧ s.quiesced ∧ s.mapStore.commit = none ∧
        (s.port 0).member = some ⟨1000, 5, some (1, 7)⟩) := by
  refine ⟨fun v hv _ st ph tg => ⟨by rw [hv]; decide, fun q m h k e => ?_⟩,
    (by unfold State.quiesced; decide +kernel),
    ⟨⟨[_], [], rfl, ⟨by decide, rfl⟩, ?_⟩, (by unfold State.quiesced; decide +kernel)⟩, ?_,
    ⟨by decide +kernel, ⟨by decide +kernel, by decide +kernel⟩, by decide +kernel⟩⟩
  · rw [hv, show ((mapWriting st ph [tg, v]).port 1).op = none from show ((busyWith (.pgblk 1 []) (.mapWrite ⟨st, 1⟩ 2 7 true)).port 1).op = none
      by cases st <;> decide +kernel] at e
    cases e
  · intro z hz h; rw [List.mem_singleton] at hz; subst hz; exact h.1 rfl
  · intro first other v hv
    simp only [List.mem_cons, List.not_mem_nil, or_false] at hv
    rcases hv with rfl | rfl
    · exact fun h => h.1 rfl
    · exact fun h => nomatch h.2

/-- A WAKE of a port in PROBE fails for the second and for the third time, alone and at its limit. -/
theorem witness_WakeFailures :
    ∀ n ∈ [1, 2], let s : State := { wakingProbe.setPort 0 { wakingProbe.port 0 with
        probe := some ⟨.ident, 1000, 5, .nothing, .nothing, n⟩ } with clock := 15 }
      (s.port 0).op = some ⟨.wake, .power, 1, 15, false⟩ ∧ (s.port 0).cls = .probe ∧ 15 ≤ s.clock ∧ s.isUser 0 1 (.probe .ident) ∧
        (n = 1 → n < 2) ∧ (∀ c, s.mapStore.commit = some c → ∀ v ∈ c.targets, v.port ≠ 0) ∧
        ∀ i z m d, s.slot i = .dirty z m d → s.liesOn 0 z = false := by
  intro n hn
  simp only [List.mem_cons, List.not_mem_nil, or_false] at hn
  rcases hn with rfl | rfl <;>
    exact ⟨by decide +kernel, by decide +kernel, by decide, (State.isUser_iff _ _ _ _).2 (by decide +kernel), by decide, none_all rfl,
      noDirty (by decide +kernel)⟩

/-- `base` with `n` slots STRANDED and the pressure flag as given. -/
def used (n : Nat) (flag : Bool) : State := { base with staging := { base.staging with
  slots := Vector.ofFn (fun i => if i.val < n then .stranded i.val false [] .memberLost else .free), pressure := flag } }

/-- HIGH_WATER 8 against 5, 4, 7 and 8 slots in use; IDLE_CODE at 0, 200, 201, 250 and 251 with the conditions met and, at 0, not;
an event after which the idle timer runs. -/
theorem witness_ParameterBoundaries :
    (leVal [8, 0] < (32 - (used 5 true).countSlots StagingSlot.isFree) + 4 ∧ (used 5 true).staging.pressure = true) ∧
    ((32 - (used 4 true).countSlots StagingSlot.isFree) + 4 ≤ leVal [8, 0] ∧ (used 4 true).staging.pressure = true) ∧
    (32 - (used 7 false).countSlots StagingSlot.isFree < leVal [8, 0] ∧ (used 7 false).staging.pressure = false) ∧
    (leVal [8, 0] ≤ 32 - (used 8 false).countSlots StagingSlot.isFree ∧ (used 8 false).staging.pressure = false) ∧
    (∀ v ∈ [leVal [200, 0], leVal [201, 0], leVal [250, 0], leVal [251, 0]], v ≤ 251 ∧ base.idleAllows v) ∧
    ¬ base.idleAllows (leVal [0, 0]) ∧
    (base.endsAs (settleStaging base) ∧ base.restsAs (settle base) ∧ (settle base).idleAllows base.params.idleCode) := by
  refine ⟨by decide +kernel, by decide +kernel, by decide +kernel, by decide +kernel, fun v hv => ?_, fun h => h.2.2.2.2.2.2 rfl,
    endsAs_settleStaging _, restsAs_settle _, ?_⟩
  · have hv : v ∈ [200, 201, 250, 251] := hv
    simp only [List.mem_cons, List.not_mem_nil, or_false] at hv
    refine ⟨by omega, rfl, rfl, by decide +kernel, by decide +kernel, rfl, by decide +kernel, by omega⟩
  · unfold State.idleAllows
    decide +kernel

/-- Frames of the shortest and the longest payload, and one beyond; each header that is no header of a frame; bytes that
break off. -/
theorem witness_ReceivedFrames :
    (∀ b ∈ ([0x00, 0xC6] : List Byte), b ≠ 0xC7) ∧
    ((1 : Byte).toNat + 256 * (0 : Byte).toNat = 1 ∧ ([] : List Byte).length + 1 = 1) ∧
    ((44 : Byte).toNat + 256 * (1 : Byte).toNat = 300 ∧ (List.replicate 299 (0 : Byte)).length + 1 = 300) ∧
    300 < (45 : Byte).toNat + 256 * (1 : Byte).toNat ∧ (0 : Byte).toNat + 256 * (0 : Byte).toNat = 0 ∧
    (((0x01 : Byte) = 0x01 ∧ (0 : Byte).toNat + 256 * (0 : Byte).toNat = 0) ∧
      ((0x04 : Byte) = 0x04 ∧ (1 : Byte).toNat + 256 * (0 : Byte).toNat ≠ 0) ∧ (0x02 : Byte) ≠ 0x01 ∧ (0x02 : Byte) ≠ 0x04) ∧
    ([] : List Byte).length < 0 + 2 ∧ (List.replicate 301 (0 : Byte)).length < 300 + 2 := by decide +kernel

end Sys2Proof.Tests
end

section
/-! PROOFS. The family '01_the_pool_and_its_extent_map.md': MAP-RESET-DRAFT (R16, R19), and the admission checks of a
READ, WRITE or VERIFY that the ceiling and the active map decide (R9, R10, R11). -/

namespace Sys2Proof.Machine

/-! ## The checks of a draft-changing message (R16) -/

theorem State.draftRefusal_starting {s : State} (h : s.mapStore.ready = false) : s.draftRefusal = some .starting := by
  simp [State.draftRefusal, h]

theorem State.draftRefusal_mapBusy {s : State} (h : s.mapStore.ready = true) (hc : s.mapStore.commit.isSome = true) :
    s.draftRefusal = some .mapBusy := by
  simp [State.draftRefusal, h, hc]

theorem State.draftRefusal_none {s : State} (h : s.mapStore.ready = true) (hc : s.mapStore.commit = none) :
    s.draftRefusal = none := by
  simp [State.draftRefusal, h, hc]

/-- A draft that is replaced by itself. -/
theorem State.setDraft_same {s : State} {m : Map} (h : s.mapStore.draft = m) : s.setDraft m = s := by
  subst h
  rfl

/-! ## MAP-RESET-DRAFT (R19) -/

theorem takeMapResetDraft_fields {body : List Byte} (h : body ≠ []) (s : State) :
    takeMapResetDraft body s = refuse .malformed s := by
  cases body with
  | nil => exact absurd rfl h
  | cons b bs => rfl

theorem takeMapResetDraft_refused {s : State} {st : ReplyStatus} (h : s.draftRefusal = some st) :
    takeMapResetDraft [] s = refuse st s := by
  simp [takeMapResetDraft, h]

theorem takeMapResetDraft_copies {s : State} (h : s.draftRefusal = none) :
    takeMapResetDraft [] s = answer .ok [] (s.setDraft s.mapStore.active) := by
  simp [takeMapResetDraft, h]

/-- A MAP-RESET-DRAFT that its owner refuses changes nothing beyond the link. -/
theorem exec_mapResetDraft_refused {s : State} {q : Byte} (h : s.takes q) {body : List Byte} {st : ReplyStatus}
    (ha : takeMapResetDraft body (acceptFrame s) = refuse st (acceptFrame s)) :
    exec (.mapResetDraft q body) s = .next (s.replied q [0x33, st.code]) :=
  congrArg Host.Outcome.next (acceptMessage_replied h .mapResetDraft (by decide) body ha rfl)

/-- A MAP-RESET-DRAFT that passes the checks of R16 copies the active map into the draft. -/
theorem exec_mapResetDraft_copies {s : State} {q : Byte} (h : s.takes q) (hr : s.mapStore.ready = true)
    (hc : s.mapStore.commit = none) :
    exec (.mapResetDraft q []) s = .next ((s.setDraft s.mapStore.active).replied q [0x33, 0x00]) :=
  congrArg Host.Outcome.next (acceptMessage_replied h .mapResetDraft (by decide) []
    (takeMapResetDraft_copies (s := acceptFrame s) (State.draftRefusal_none hr hc)) rfl)

/-- Settles O16: the reply follows the first check of R16 that fails, and the copy is a `setDraft`. -/
theorem mapResetDraftResult : Obligations.MapResetDraftResult := by
  refine ⟨fun s q h hr hc => ?_, fun s q body h hb => ?_, fun s q h hr => ?_, fun s q h hr hc => ?_⟩
  · have copies := exec_mapResetDraft_copies h hr hc
    refine ⟨copies, fun heq => ?_⟩
    rwa [State.setDraft_same heq] at copies
  · exact exec_mapResetDraft_refused h (takeMapResetDraft_fields hb _)
  · exact exec_mapResetDraft_refused h (takeMapResetDraft_refused (s := acceptFrame s) (State.draftRefusal_starting hr))
  · exact exec_mapResetDraft_refused h (takeMapResetDraft_refused (s := acceptFrame s) (State.draftRefusal_mapBusy hr hc))

/-! ## The range checks of a tagged request -/

/-- A READ, WRITE or VERIFY that passes checks 2 to 5 of R25 and fails one of checks 6 to 10 is refused with what that
check gives, and nothing beyond the link changes. -/
theorem exec_rangeRefused {s : State} {q f a b c n : Byte} {t : Tag} {k : ReqKind} (h : s.takes q) (hf : f.toNat < 4)
    (hk : k ≠ .flush) (ht : s.freeFor t) {st : ReplyStatus} {d : Nat}
    (hr : s.rangeRefusal k ⟨leVal [a, b, c], n.toNat⟩ = some (st, d)) :
    exec (k.command q [byte t.val, f, a, b, c, n]) s = .next (s.replied q (refusedPayload k st.code (byte t.val) d)) :=
  exec_refused h k _ (readAsk_range k hk t f a b c n hf) ((State.refusal_freeFor ht k _ _ _).trans hr)

/-- Check 7 refuses a range whose last block is not below the ceiling (R9). -/
theorem State.rangeRefusal_beyondCeiling {s : State} {g : BlockRange} (h1 : 1 ≤ g.count) (h64 : g.count ≤ 64)
    (h : s.mapStore.ceiling ≤ g.first + g.count - 1) (k : ReqKind) :
    s.rangeRefusal k g = some (.beyondCeiling, s.mapStore.ceiling) := by
  have hcount : ¬ (g.count = 0 ∨ Config.maxBlocks < g.count) := by
    simp only [Config.maxBlocks]
    omega
  unfold State.rangeRefusal
  rw [if_neg hcount, if_pos h]

/-- Check 8 refuses a range with an unmapped block, at the lowest one (R10). -/
theorem State.rangeRefusal_unmapped {s : State} {g : BlockRange} (h : s.counts g) {y : Nat}
    (hy : g.lowest (fun x => s.translate x = none) y) (k : ReqKind) : s.rangeRefusal k g = some (.unmapped, y) := by
  have found : g.lbns.find? (fun x => (s.translate x).isNone) = some y :=
    g.find_some _ y (by simpa only [Option.isNone_iff_eq_none] using hy)
  rw [State.rangeRefusal_counts h, found]

theorem State.writeProtected_iff (s : State) (x : Nat) :
    s.writeProtected x = true ↔ ∃ pl, s.translate x = some pl ∧ pl.access = .readOnly := by
  unfold State.writeProtected
  cases s.translate x with
  | none => simp
  | some pl => simp

/-- Check 9 refuses a WRITE of a mapped range with a block in a READ_ONLY extent, at the lowest one (R11). -/
theorem State.rangeRefusal_writeProtected {s : State} {g : BlockRange} (h : s.counts g) {y : Nat}
    (hm : ∀ x, g.has x → (s.translate x).isSome = true)
    (hy : g.lowest (fun x => ∃ pl, s.translate x = some pl ∧ pl.access = .readOnly) y) :
    s.rangeRefusal .write g = some (.writeProtected, y) := by
  have mapped : g.lbns.find? (fun x => (s.translate x).isNone) = none :=
    (g.find_none _).2 fun x hx => Option.isNone_eq_false_iff.2 (hm x hx)
  have found : g.lbns.find? s.writeProtected = some y :=
    g.find_some _ y (by simpa only [s.writeProtected_iff] using hy)
  rw [State.rangeRefusal_counts h, mapped]
  dsimp only
  rw [if_pos rfl, found]

/-! ## The ceiling (R9, R13) -/

/-- A ceiling at or below its value at reset stays so: DEVICE_RESET sets it there, and no other command raises it. -/
theorem ceiling_le_reset_exec {c : Instr} {s t : State} (h : exec c s = .next t)
    (hs : s.mapStore.ceiling ≤ Config.ceilingAtReset) : t.mapStore.ceiling ≤ Config.ceilingAtReset := by
  by_cases hc : c = .deviceReset
  · subst hc
    cases h
    exact Nat.le_refl Config.ceilingAtReset
  · exact Nat.le_trans (lawful_exec c s t hc h).ceiling hs

/-- Settles O21: check 7 comes before the maps and the ports are looked at, and a range past 0FFFFFFH ends at or above
every ceiling that the steps from reset can leave. -/
theorem beyondCeilingRefused : Obligations.BeyondCeilingRefused := by
  refine ⟨⟨Nat.le_refl _, fun c s t hs h => ceiling_le_reset_exec h hs⟩, ?_⟩
  intro s q f a b c n t k h hf hk ht h1 h64
  have refused : s.mapStore.ceiling ≤ leVal [a, b, c] + n.toNat - 1 →
      exec (k.command q [byte t.val, f, a, b, c, n]) s =
        .next (s.replied q (refusedPayload k 0x08 (byte t.val) s.mapStore.ceiling)) := fun hlast =>
    exec_rangeRefused h hf hk ht (State.rangeRefusal_beyondCeiling h1 h64 hlast k)
  exact ⟨refused, fun hc hlast => refused (by omega)⟩

/-- Settles O22. -/
theorem unmappedRefused : Obligations.UnmappedRefused := by
  intro s q f a b c n t k y h hf hk ht hg hy
  exact exec_rangeRefused h hf hk ht (State.rangeRefusal_unmapped hg hy k)

/-! ## Admission keeps the kind (R29) -/

/-- A request that is offered stays in its slot, as a request of the same kind. -/
theorem releaseHold_request {s : State} {t : Tag} {r : Request} (h : s.request t = some r) :
    ∃ u, (releaseHold t s).request t = some u ∧ u.kind = r.kind := by
  have same := (calm_releaseHold t s).requests t
  rw [h] at same
  cases hu : (releaseHold t s).request t with
  | none =>
    rw [hu] at same
    exact same.elim
  | some u =>
    rw [hu] at same
    obtain ⟨⟨hkind, -⟩, -⟩ := same
    exact ⟨u, rfl, hkind⟩

/-- The slot that an admission takes holds a request of the kind asked, whether it stays HELD or goes ACTIVE. -/
theorem takeIn_request (s : State) (k : ReqKind) (hk : k ≠ .flush) (t : Tag) (g : BlockRange) (f : Byte) :
    ∃ r, (takeIn ⟨k, t, some g, f.getLsbD 0, f.getLsbD 1⟩ s).request t = some r ∧ r.kind = k := by
  rw [admit_range s k hk t g f, settleStaging_request]
  exact releaseHold_request ((s.admitted_request t t _).trans (if_pos rfl))

/-- A READ, WRITE or VERIFY that passes every check is admitted: its slot holds a request of its kind, and the reply
accepts it (R25, R29). -/
theorem exec_range_admitted {s : State} {q f a b c n : Byte} {t : Tag} {k : ReqKind} (h : s.takes q) (hf : f.toNat < 4)
    (hk : k ≠ .flush) (ht : s.freeFor t) (hg : s.counts ⟨leVal [a, b, c], n.toNat⟩)
    (hs : s.serves k ⟨leVal [a, b, c], n.toNat⟩) :
    ∃ u r, exec (k.command q [byte t.val, f, a, b, c, n]) s = .next u ∧ u.request t = some r ∧ r.kind = k ∧
      ∃ st, u.link = s.link.replied q (acceptedPayload k t s.table.counter st) .nothing := by
  obtain ⟨r, hr, hkind⟩ := takeIn_request (acceptFrame s) k hk t ⟨leVal [a, b, c], n.toNat⟩ f
  have hd := (State.refusal_freeFor ht k (some ⟨leVal [a, b, c], n.toNat⟩) (f.getLsbD 0) (f.getLsbD 1)).trans
    (State.rangeRefusal_serves hg hs)
  refine ⟨_, r, exec_admitted h k _ (readAsk_range k hk t f a b c n hf) hd, ?_, hkind, _, rfl⟩
  exact (State.setLink_request _ _ _).trans hr

/-- Settles O23: check 9 looks at WRITEs alone, so a READ or VERIFY that checks 8 and 10 let pass is admitted. -/
theorem writeProtectedRefused : Obligations.WriteProtectedRefused := by
  intro s q f a b c n t h hf ht hg
  refine ⟨fun y hm hy => ?_, fun k hk hs => ?_⟩
  · exact exec_rangeRefused (k := .write) h hf (by decide) ht (State.rangeRefusal_writeProtected hg hm hy)
  · exact exec_range_admitted h hf (by rcases hk with rfl | rfl <;> decide) ht hg hs

end Sys2Proof.Machine
end

section
/-! PROOFS. The family 'other', the laws of the device: the invariants at reset and through every step (R5, R6, R22, R27,
R30 to R32, R43, R71, R76, R77, R100, R130, R151, R152, R172, R176, R211), and the counters (R192, R201). -/

namespace Sys2Proof.Machine

/-! ## One step -/

/-- A step idles, or carries out the front command on the rest of the queue. -/
theorem step_cases {s t : State} (h : step s = .next t) :
    t = s ∨ ∃ c rest, exec c { s with pending := rest } = .next t := by
  unfold step at h
  split at h
  · exact .inl (Host.Outcome.next.inj h).symm
  · exact .inr ⟨_, _, h⟩

/-- What every command keeps every step keeps, when it does not speak of the queue. -/
theorem step_keeps {P : State → Prop} (hq : ∀ s rest, P s → P { s with pending := rest })
    (hc : ∀ c s t, exec c s = .next t → P s → P t) {s t : State} (k : P s) (h : step s = .next t) : P t := by
  obtain rfl | ⟨c, rest, hx⟩ := step_cases h
  · exact k
  · exact hc c _ _ hx (hq s rest k)

/-- Settles O1: the front command of a queue that is not empty runs. -/
theorem stepRunsFrontCommand : Obligations.StepRunsFrontCommand := fun _ _ _ => rfl

/-- Settles O2. -/
theorem emptyQueueIdles : Obligations.EmptyQueueIdles := by
  intro s h
  unfold step
  rw [h]

/-! ## The invariants right after a device reset -/

theorem mapsGood_fresh {t : State} (h : t.mapStore = State.reset.mapStore) : MapsGood t := by
  refine ⟨fun c hc => ?_, fun _ => ?_⟩
  · rw [h] at hc
    cases hc
  · rw [h]
    exact ⟨rfl, rfl⟩

theorem windowGood_fresh {t : State} (h : t.link = State.reset.link) : WindowGood t := by
  unfold WindowGood
  rw [h]
  exact ⟨Nat.zero_le _, List.nodup_nil⟩

theorem noticesGood_fresh {t : State} (h : t.notices = State.reset.notices) : NoticesGood t := by
  unfold NoticesGood
  rw [h]
  exact ⟨.nil, fun n hn => absurd hn List.not_mem_nil, List.nodup_nil, fun k =>
    ⟨fun hk => absurd hk List.not_mem_nil, fun ⟨n, hn, _⟩ => absurd hn List.not_mem_nil⟩⟩

/-- What DEVICE_RESET leaves: the parts the invariants speak of are as at `State.reset`, and no port has an operation, a
probe or a class that a commit targets. -/
theorem exec_deviceReset_fresh {s t : State} (h : exec .deviceReset s = .next t) :
    t.table = State.reset.table ∧ t.mover = State.reset.mover ∧ t.staging = State.reset.staging ∧
      t.mapStore = State.reset.mapStore ∧ t.link = State.reset.link ∧ t.notices = State.reset.notices := by
  cases h
  exact ⟨rfl, rfl, rfl, rfl, rfl, rfl⟩

/-- Settles O4: the reset state is fresh in every part. -/
theorem invariantsHoldAtReset : Obligations.InvariantsHoldAtReset := by
  have stage : StageGood State.reset := stageGood_fresh rfl rfl rfl
  have ⟨table, halt, overlap, _⟩ := stage
  have ports : ∀ p, State.reset.port p = PortRecord.emptyAtReset := fun p =>
    (Fin.getElem_fin ..).trans (Vector.getElem_replicate ..)
  exact ⟨mapsGood_fresh rfl, table, overlap, windowGood_fresh rfl, halt, noticesGood_fresh rfl, stage,
    portsGood_fresh rfl fun p => by rw [ports p]; exact ⟨rfl, rfl, rfl⟩⟩

/-! ## The invariants through every command -/

theorem overlapGood_exec {c : Instr} {s t : State} (h : exec c s = .next t) (k : OverlapGood s) : OverlapGood t := by
  by_cases hc : c = .deviceReset
  · subst hc
    obtain ⟨table, mover, staging, -⟩ := exec_deviceReset_fresh h
    obtain ⟨-, -, overlap, -⟩ := stageGood_fresh table mover staging
    exact overlap
  · exact (lawful_exec c s t hc h).overlap k

theorem windowGood_exec {c : Instr} {s t : State} (h : exec c s = .next t) (k : WindowGood s) : WindowGood t := by
  by_cases hc : c = .deviceReset
  · subst hc
    obtain ⟨-, -, -, -, link, -⟩ := exec_deviceReset_fresh h
    exact windowGood_fresh link
  · exact (lawful_exec c s t hc h).window k

theorem noticesGood_exec {c : Instr} {s t : State} (h : exec c s = .next t) (k : NoticesGood s) : NoticesGood t := by
  by_cases hc : c = .deviceReset
  · subst hc
    obtain ⟨-, -, -, -, -, notices⟩ := exec_deviceReset_fresh h
    exact noticesGood_fresh notices
  · exact (lawful_exec c s t hc h).notices k

theorem mapsGood_exec {c : Instr} {s t : State} (h : exec c s = .next t) (k : MapsGood s) : MapsGood t := by
  by_cases hc : c = .deviceReset
  · subst hc
    obtain ⟨-, -, -, maps, -, -⟩ := exec_deviceReset_fresh h
    exact mapsGood_fresh maps
  · exact ((lawful_exec c s t hc h).maps k).1

theorem tableGood_haltGood_exec {c : Instr} {s t : State} (h : exec c s = .next t) (k : TableGood s ∧ HaltGood s) :
    TableGood t ∧ HaltGood t := by
  by_cases hc : c = .deviceReset
  · subst hc
    obtain ⟨table, mover, staging, -⟩ := exec_deviceReset_fresh h
    obtain ⟨good, halt, -⟩ := stageGood_fresh table mover staging
    exact ⟨good, halt⟩
  · have law := lawful_exec c s t hc h
    exact ⟨law.table k.1, law.halt k.1 k.2⟩

/-! ## Conflicting requests (R32) -/

/-- Settles O5: of two requests that conflict one is REPORTING or HELD, and neither state is among the three. -/
theorem conflictingRequestsStayApart : Obligations.ConflictingRequestsStayApart := by
  refine ⟨fun s t k h => step_keeps (fun _ _ k => k) (fun c s t => overlapGood_exec) k h, ?_⟩
  rintro s x y a b k hxy ha hb hc ⟨under, under'⟩
  rcases k x y a b hxy ha hb hc with e | e | ⟨e, -⟩ | ⟨e, -⟩
  all_goals simp [e] at under under'

/-! ## The window and the notices (R172, R176, R211) -/

/-- Settles O6. -/
theorem windowKeepsItsForm : Obligations.WindowKeepsItsForm :=
  ⟨fun _ _ k h => step_keeps (fun _ _ k => k) (fun _ _ _ => windowGood_exec) k h,
    fun _ _ k h => step_keeps (fun _ _ k => k) (fun _ _ _ => noticesGood_exec) k h,
    fun _ _ _ k hm hn e => k.unique hm hn e⟩

/-! ## The halted table (R22, R130) -/

/-- Settles O8. -/
theorem haltedTableStaysEnded : Obligations.HaltedTableStaysEnded := fun _ _ table halt h =>
  step_keeps (P := fun s => TableGood s ∧ HaltGood s) (fun _ _ k => k) (fun _ _ _ => tableGood_haltGood_exec) ⟨table, halt⟩ h

/-! ## The maps and the ports (R5, R6, R100, R151, R152) -/

theorem PortsGood.apart {s : State} (k : PortsGood s) : s.mapStore.active.apart := k.1.1

theorem PortsGood.port_fits {s : State} (k : PortsGood s) (p : Port) : (s.port p).fits s.mapStore p := k.1.2.1 p

/-- A commit past its commit point is in FINAL (R150, R151). -/
theorem PortsGood.final_of_pointReached {s : State} (k : PortsGood s) {c : Commit} (hc : s.mapStore.commit = some c)
    (hp : c.pointReached = true) : c.phase = .final := by
  obtain ⟨-, -, point, -⟩ := k.1.2.2 c hc
  exact (point hp).1

/-- Settles O7: the laws are parts of `PortsGood`; the exception of R152 waits in FINAL, as a commit past its point does. -/
theorem activeGenerationNeverFalls : Obligations.ActiveGenerationNeverFalls := by
  refine ⟨fun c s t k h => ⟨mapsGood_exec h k, fun hc => ((lawful_exec c s t hc h).maps k).2⟩,
    fun s t k h => step_keeps (fun _ _ k => k) (fun _ _ _ => portsGood_exec) k h, fun s k => ?_⟩
  refine ⟨⟨k.apart.1, k.apart.2, fun i x he h1 h2 => ?_, fun x h => ?_⟩, fun p he => ?_, fun p hp => ?_⟩
  · exact k.apart.translate he ((Extent.covers_iff ..).2 ⟨h1, h2⟩)
  · exact Map.translate_none fun i he hc => h i he ((Extent.covers_iff ..).1 hc)
  · exact (k.port_fits p).1 he
  · refine ((k.port_fits p).2.1 hp).imp_right ?_
    rintro ⟨c, hc, point, waits⟩
    exact ⟨c, hc, k.final_of_pointReached hc point, point, waits⟩

/-! ## The slots (R27, R43, R71, R76, R77) -/

/-- No command admits a request while the queue is HALTED (R27). -/
theorem mayOf_admits_halted {s : State} (h : s.halted = true) (c : Instr) : (mayOf c s).admits = false := by
  cases c <;> simp [mayOf, h]

/-- The commands that free a request slot, DEVICE_RESET apart (R43). -/
theorem mayOf_frees {c : Instr} {s : State} (h : (mayOf c s).frees = true) :
    (∃ n, c = .reportAck n) ∨ c = .breakDeclared ∨ c = .linkReset := by
  cases c <;> simp only [mayOf, Bool.false_eq_true] at h
  case reportAck n => exact .inl ⟨n, rfl⟩
  case breakDeclared => exact .inr (.inl rfl)
  case linkReset => exact .inr (.inr rfl)

/-- While the queue is HALTED a FREE request slot stays FREE (R27). -/
theorem exec_halted_free {c : Instr} {s t : State} {u : Tag} (h : exec c s = .next t) (hh : s.halted = true)
    (hu : s.request u = none) : t.request u = none := by
  by_cases hc : c = .deviceReset
  · subst hc
    obtain ⟨table, -⟩ := exec_deviceReset_fresh h
    unfold State.request
    rw [table]
    exact (Fin.getElem_fin ..).trans (Vector.getElem_replicate ..)
  · exact (lawful_exec c s t hc h).admits (mayOf_admits_halted hh c) u hu

/-- What frees a request slot (R43). -/
theorem exec_frees {c : Instr} {s t : State} {u : Tag} (h : exec c s = .next t) (hu : (s.request u).isSome = true)
    (ht : t.request u = none) : (∃ n, c = .reportAck n) ∨ c = .breakDeclared ∨ c = .linkReset ∨ c = .deviceReset := by
  by_cases hc : c = .deviceReset
  · exact .inr (.inr (.inr hc))
  · have frees : (mayOf c s).frees = true := by
      refine eq_true_of_ne_false fun hf => ?_
      have still := (lawful_exec c s t hc h).frees hf u hu
      rw [ht] at still
      cases still
    obtain e | e | e := mayOf_frees frees
    · exact .inl e
    · exact .inr (.inl e)
    · exact .inr (.inr (.inl e))

theorem StagingSlot.place_reserved {x : StagingSlot} {y : Nat} (h : x.lbn? = some y) (k : x.isFilling = true) :
    x.place = some (.reserved, y) := by
  cases x <;> simp_all [StagingSlot.lbn?, StagingSlot.isFilling, StagingSlot.place]

/-- Settles O9: two copies of one block in one place of R76 are one slot. -/
theorem slotsFillAndEmptyByRule : Obligations.SlotsFillAndEmptyByRule := by
  refine ⟨fun c s t u h => ⟨exec_halted_free h, exec_frees h⟩, State.countSlots_sum,
    fun s t k h => step_keeps (fun _ _ k => k) (fun _ _ _ => stageGood_exec) k h, fun s k => ?_⟩
  have ⟨_, _, _, ⟨nodup, dirty, _⟩, _⟩ := k
  refine ⟨fun i j x hi hj => ⟨fun h1 h2 => ?_, fun h1 h2 => ?_, fun h1 h2 => ?_⟩, nodup, ?_, dirty⟩
  · exact k.place_one (StagingSlot.place_held.2 ⟨by simpa using h1, hi⟩) (StagingSlot.place_held.2 ⟨by simpa using h2, hj⟩)
  · exact k.place_one (StagingSlot.place_reserved hi h1) (StagingSlot.place_reserved hj h2)
  · exact k.place_one (StagingSlot.place_draining.2 ⟨h1, hi⟩) (StagingSlot.place_draining.2 ⟨h2, hj⟩)
  · have bounded := nodup_bounded 0 32 (s.staging.drainOrder.map Fin.val)
      (List.pairwise_map.2 (nodup.imp fun h e => h (Fin.ext e))) fun k hk => by
        obtain ⟨i, -, rfl⟩ := List.mem_map.1 hk
        exact ⟨Nat.zero_le _, by omega⟩
    rw [List.length_map] at bounded
    exact bounded

/-! ## The queue, the pins and the clock -/

/-- No command stops the part. -/
theorem exec_next (c : Instr) (s : State) : ∃ t, exec c s = .next t := by
  cases c <;> exact ⟨_, rfl⟩

/-- Settles O3: the steady commands leave the pins and the clock, and the other four are read off. -/
theorem commandsLeaveQueueAndPins : Obligations.CommandsLeaveQueueAndPins := by
  intro c s
  obtain ⟨t, h⟩ := exec_next c s
  refine ⟨t, h, ?_⟩
  by_cases hc : unsteady c = false
  · have law := steady_exec c s t hc h
    refine ⟨law.pending, fun _ => law.presence, fun p e => ?_, fun _ _ => law.resetLow, fun _ _ => ⟨law.clock, law.uptime⟩⟩
    subst e
    cases hc
  · cases c <;> simp only [unsteady, not_true_eq_false] at hc
    case resetAssert =>
      obtain ⟨⟨v, hv⟩, -⟩ := cutOffs_spec allPorts { s with
        resetLow := true, notices := { s.notices with attn := false }, link := { s.link with transmission := none } }
      cases hv.symm.trans (Host.Outcome.next.inj h)
      exact ⟨rfl, fun _ => rfl, nofun, fun hne => absurd rfl hne, fun _ _ => ⟨rfl, rfl⟩⟩
    case deviceReset =>
      cases h
      exact ⟨rfl, fun _ => rfl, nofun, fun _ hne => absurd rfl hne, fun _ hne => absurd rfl hne⟩
    case presenceChange p =>
      simp only [exec, execPresenceChange, Host.Outcome.next.injEq] at h
      subst h
      have presence : ∀ x : Port, Instr.presenceChange p = .presenceChange x →
          s.presence.set p (!s.presence[p]) = s.presence.set x (!s.presence[x]) := fun x e => by
        cases e
        rfl
      split
      · exact ⟨rfl, fun hne => absurd rfl (hne p), presence, fun _ _ => rfl, fun _ _ => ⟨rfl, rfl⟩⟩
      · have law := steady_presenceChanged (m := mayOf (.presenceChange p) s) p (!s.presence[p])
          { s with presence := s.presence.set p (!s.presence[p]) }
        exact ⟨law.pending, fun hne => absurd rfl (hne p), fun x e => law.presence.trans (presence x e),
          fun _ _ => law.resetLow, fun _ _ => ⟨law.clock, law.uptime⟩⟩
    case uptimeTick =>
      simp only [exec, execUptimeTick, live, Host.Outcome.next.injEq] at h
      subst h
      split
      all_goals exact ⟨rfl, fun _ => rfl, nofun, fun _ _ => rfl, fun hne => absurd rfl hne⟩

/-! ## Counters (R192, R201) -/

theorem MsgKind.eq_code_of_ofCode {b : Byte} {k : MsgKind} (h : MsgKind.ofCode b = some k) : b = k.code := by
  have found := List.find?_some h
  exact (of_decide_eq_true found).symm

/-- The commands that may set counters to 0: a GET-LOG, under its own kind byte, and the release of a held message. -/
theorem mayOf_clears {c : Instr} {s : State} (h : (mayOf c s).clears = true) :
    (∃ q b, c = .getLog q b) ∨ (∃ q b, c = .unknownKind 0x60 q b) ∨ c = .heldMessageRelease := by
  cases c <;> simp only [mayOf, Bool.false_eq_true, decide_eq_true_eq] at h
  case getLog q b => exact .inl ⟨q, b, rfl⟩
  case unknownKind k q b =>
    obtain rfl := MsgKind.eq_code_of_ofCode h
    exact .inr (.inl ⟨q, b, rfl⟩)
  case heldMessageRelease => exact .inr (.inr rfl)

/-- Settles O10. -/
theorem countersNeverFall : Obligations.CountersNeverFall := by
  intro c s t hc h
  have law := lawful_exec c s t hc h
  refine ⟨law.errors, fun h1 h2 h3 => ?_⟩
  have keeps : (mayOf c s).clears = false := by
    refine eq_false_of_ne_true fun hk => ?_
    obtain ⟨q, b, e⟩ | ⟨q, b, e⟩ | e := mayOf_clears hk
    · exact h1 q b e
    · exact h2 q b e
    · exact h3 e
  exact ⟨law.counters keeps, law.stats keeps⟩

end Sys2Proof.Machine
end

section
/-! PROOFS. The family 'other', messages answered from one part of the state: the maps and the ceiling (R14 to R18),
IDENTIFY, STATUS and GET-PARAMETER (R218, R220), FETCH-SNAPSHOT (R136), UNKNOWN_KIND and RESET-LINK (R209, R216). -/

namespace Sys2Proof.Machine

/-! ## A message taken at once -/

/-- A message that its owner answers without touching the link, and what the answer leaves of the other parts. -/
theorem exec_answered {s : State} {q : Byte} (h : s.takes q) (k : MsgKind) (hk : k ≠ .linkSync) (body : List Byte)
    {fs : List Byte} {st : ReplyStatus} {t : State} (ha : takeKind k body (acceptFrame s) = answer st fs t)
    (hl : t.link = (acceptFrame s).link) :
    exec (k.command q body) s = .next { t with link := s.link.replied q (k.code :: st.code :: fs) .nothing } :=
  exec_message h k hk body (st.code :: fs) .nothing t ha hl

/-- A message whose answer changes nothing. -/
theorem exec_reported {s : State} {q : Byte} (h : s.takes q) (k : MsgKind) (hk : k ≠ .linkSync) (body : List Byte)
    {fs : List Byte} {st : ReplyStatus} (ha : takeKind k body (acceptFrame s) = answer st fs (acceptFrame s)) :
    exec (k.command q body) s = .next (s.replied q (k.code :: st.code :: fs)) :=
  exec_answered (t := acceptFrame s) h k hk body ha rfl

/-- A message refused by its status alone. -/
theorem exec_refuse {s : State} {q : Byte} (h : s.takes q) (k : MsgKind) (hk : k ≠ .linkSync) (body : List Byte)
    {st : ReplyStatus} (ha : takeKind k body (acceptFrame s) = refuse st (acceptFrame s)) :
    exec (k.command q body) s = .next (s.replied q [k.code, st.code]) :=
  exec_reported h k hk body ha

/-! ## Fields -/

theorem byte_low (b : Byte) (n : Nat) : byte (b.toNat + 256 * n) = b := by
  apply BitVec.eq_of_toNat_eq
  simp only [byte, BitVec.toNat_ofNat]
  omega

/-- The bytes that spell a number are its fields again. -/
theorem le_leVal (bs : List Byte) : le bs.length (leVal bs) = bs := by
  induction bs with
  | nil => rfl
  | cons b bs ih =>
    have rest : (b.toNat + 256 * leVal bs) / 256 = leVal bs := by omega
    simp only [List.length_cons, le, leVal, rest, byte_low, ih]

theorem field4_none {body : List Byte} (h : body.length ≠ 4) : field4 body = none := by
  match body with
  | [] | [_] | [_, _] | [_, _, _] | _ :: _ :: _ :: _ :: _ :: _ => rfl
  | [_, _, _, _] => exact absurd rfl h

theorem field4_some {body : List Byte} (h : body.length = 4) : ∃ v, field4 body = some v := by
  match body with
  | [a, b, c, d] => exact ⟨leVal [a, b, c, d], rfl⟩

theorem byteField_none {body : List Byte} (h : body.length ≠ 1) : byteField body = none := by
  match body with
  | [] | _ :: _ :: _ => rfl
  | [_] => exact absurd rfl h

/-! ## SET-CEILING (R14) -/

theorem takeSetCeiling_none {body : List Byte} (h : field4 body = none) (s : State) :
    takeSetCeiling body s = refuse .malformed s := by
  simp [takeSetCeiling, h]

theorem takeSetCeiling_lowers {body : List Byte} {v : Nat} (h : field4 body = some v) {s : State}
    (hv : v ≤ s.mapStore.ceiling) : takeSetCeiling body s = answer .ok (le 4 v) (s.setCeilingTo v) := by
  simp [takeSetCeiling, h, hv]

theorem takeSetCeiling_raise {body : List Byte} {v : Nat} (h : field4 body = some v) {s : State}
    (hv : s.mapStore.ceiling < v) : takeSetCeiling body s = answer .ceilingRaise (le 4 s.mapStore.ceiling) s := by
  simp [takeSetCeiling, h, Nat.not_le.2 hv]

/-- Settles O15: the value in the reply is the four bytes of the message again. -/
theorem setCeilingResult : Obligations.SetCeilingResult := by
  refine ⟨fun s q a b c d h => ⟨fun hv => ?_, fun hv => ?_⟩, fun s q body h hb => ?_, fun c s t hc h => ?_⟩
  · have spelled : le 4 (leVal [a, b, c, d]) = [a, b, c, d] := le_leVal [a, b, c, d]
    have lowered := exec_answered h .setCeiling (by decide) [a, b, c, d]
      (takeSetCeiling_lowers (body := [a, b, c, d]) (s := acceptFrame s) rfl hv) rfl
    rw [spelled] at lowered
    exact lowered
  · exact exec_reported h .setCeiling (by decide) [a, b, c, d]
      (takeSetCeiling_raise (body := [a, b, c, d]) (s := acceptFrame s) rfl hv)
  · exact exec_refuse h .setCeiling (by decide) _ (takeSetCeiling_none (field4_none hb) _)
  · exact (lawful_exec c s t hc h).ceiling

/-! ## MAP-EDIT and MAP-EDIT-POOL (R16 to R18) -/

theorem editFields_none {body : List Byte} (h : body.length ≠ 17) : editFields body = none := by
  cases body with
  | nil => rfl
  | cons i form =>
    have hf : form.length ≠ 16 := fun e => h (by simp [e])
    simp [editFields, hf]

theorem editFields_isSome {body : List Byte} (h : body.length = 17) : ∃ e, editFields body = some e := by
  cases body with
  | nil => cases h
  | cons i form =>
    have hf : form.length = 16 := by simpa using h
    simp only [editFields, if_pos hf]
    repeat' split
    all_goals exact ⟨_, rfl⟩

theorem accessOfByte_none {b : Byte} (h0 : b ≠ 0) (h1 : b ≠ 1) : accessOfByte b = none :=
  (if_neg h0).trans (if_neg h1)

theorem accessOfByte_some {b : Byte} (h : b = 0 ∨ b = 1) :
    accessOfByte b = some (if b = 0 then .readWrite else .readOnly) := by
  rcases h with rfl | rfl <;> rfl

theorem portOfByte_none {b : Byte} (h : 4 ≤ b.toNat) : portOfByte b = none := dif_neg (Nat.not_lt.2 h)

theorem portOfByte_some {b : Byte} (h : b.toNat < 4) : portOfByte b = some ⟨b.toNat, h⟩ := dif_pos h

/-- The fields of a MAP-EDIT inside their codes (R17, R223). -/
theorem editFields_good {i en ac po x f0 f1 f2 l0 l1 l2 b0 b1 b2 y0 y1 y2 : Byte} (hi : i.toNat < 8) (hp : po.toNat < 4)
    (he : en = 0 ∨ en = 1) (ha : ac = 0 ∨ ac = 1) :
    editFields [i, en, ac, po, x, f0, f1, f2, l0, l1, l2, b0, b1, b2, y0, y1, y2] =
      some (some (⟨i.toNat, hi⟩, ⟨decide (en = 1), if ac = 0 then .readWrite else .readOnly, ⟨po.toNat, hp⟩,
        BitVec.ofNat 24 (leVal [f0, f1, f2]), BitVec.ofNat 24 (leVal [l0, l1, l2]),
        BitVec.ofNat 24 (leVal [b0, b1, b2])⟩)) := by
  simp only [editFields, List.length_cons, List.length_nil, Nat.reduceAdd, if_pos, dif_pos hi, List.getD_cons_succ,
    List.getD_cons_zero, accessOfByte_some ha, portOfByte_some hp, if_pos he]
  rfl

/-- The fields of a MAP-EDIT outside their codes (R17). -/
theorem editFields_bad {i en ac po x f0 f1 f2 l0 l1 l2 b0 b1 b2 y0 y1 y2 : Byte}
    (h : 8 ≤ i.toNat ∨ 4 ≤ po.toNat ∨ (en ≠ 0 ∧ en ≠ 1) ∨ (ac ≠ 0 ∧ ac ≠ 1)) :
    editFields [i, en, ac, po, x, f0, f1, f2, l0, l1, l2, b0, b1, b2, y0, y1, y2] = some none := by
  simp only [editFields, List.length_cons, List.length_nil, Nat.reduceAdd, if_pos, List.getD_cons_succ,
    List.getD_cons_zero]
  split
  next hi =>
    split
    next a p ha hp =>
      refine if_neg fun he => ?_
      rcases h with h | h | h | h
      · omega
      · cases (portOfByte_none h).symm.trans hp
      · exact he.elim h.1 h.2
      · cases (accessOfByte_none h.1 h.2).symm.trans ha
    · rfl
  · rfl

theorem takeMapEdit_none {body : List Byte} (h : editFields body = none) (s : State) :
    takeMapEdit body s = refuse .malformed s := by
  simp [takeMapEdit, h]

theorem takeMapEdit_refused {body : List Byte} (h : body.length = 17) {s : State} {st : ReplyStatus}
    (hs : s.draftRefusal = some st) : takeMapEdit body s = refuse st s := by
  obtain ⟨e, he⟩ := editFields_isSome h
  simp [takeMapEdit, he, hs]

theorem takeMapEdit_bad {body : List Byte} (h : editFields body = some none) {s : State} (hs : s.draftRefusal = none) :
    takeMapEdit body s = refuse .badParameter s := by
  simp [takeMapEdit, h, hs]

theorem takeMapEdit_good {body : List Byte} {i : Fin 8} {e : Extent} (h : editFields body = some (some (i, e))) {s : State}
    (hs : s.draftRefusal = none) : takeMapEdit body s =
      answer .ok [] (s.setDraft { s.mapStore.draft with extents := s.mapStore.draft.extents.set i e }) := by
  simp [takeMapEdit, h, hs]

theorem takeMapEditPool_none {body : List Byte} (h : field4 body = none) (s : State) :
    takeMapEditPool body s = refuse .malformed s := by
  simp [takeMapEditPool, h]

theorem takeMapEditPool_refused {body : List Byte} (h : body.length = 4) {s : State} {st : ReplyStatus}
    (hs : s.draftRefusal = some st) : takeMapEditPool body s = refuse st s := by
  obtain ⟨v, hv⟩ := field4_some h
  simp [takeMapEditPool, hv, hs]

theorem takeMapEditPool_good {body : List Byte} {v : Nat} (h : field4 body = some v) {s : State}
    (hs : s.draftRefusal = none) : takeMapEditPool body s =
      answer .ok [] (s.setDraft { s.mapStore.draft with pool := BitVec.ofNat 32 v }) := by
  simp [takeMapEditPool, h, hs]

/-- Settles O17: the checks of R16 come before the field checks of R17. -/
theorem mapEditResult : Obligations.MapEditResult := by
  constructor
  · intro s q i en ac po x f0 f1 f2 l0 l1 l2 b0 b1 b2 y0 y1 y2 h hr hc
    have ready : (acceptFrame s).draftRefusal = none := State.draftRefusal_none hr hc
    refine ⟨fun hi hp he ha => ?_, fun hbad => ?_, ?_⟩
    · exact exec_answered h .mapEdit (by decide) _ (takeMapEdit_good (editFields_good hi hp he ha) ready) rfl
    · exact exec_refuse h .mapEdit (by decide) _ (takeMapEdit_bad (editFields_bad hbad) ready)
    · exact exec_answered h .mapEditPool (by decide) _ (takeMapEditPool_good rfl ready) rfl
  · intro s q body h
    refine ⟨fun hb => ?_, fun hb => ?_, fun hr => ?_, fun hr hc => ?_⟩
    · exact exec_refuse h .mapEdit (by decide) _ (takeMapEdit_none (editFields_none hb) _)
    · exact exec_refuse h .mapEditPool (by decide) _ (takeMapEditPool_none (field4_none hb) _)
    · have starting : (acceptFrame s).draftRefusal = some .starting := State.draftRefusal_starting hr
      exact ⟨fun hb => exec_refuse h .mapEdit (by decide) _ (takeMapEdit_refused hb starting),
        fun hb => exec_refuse h .mapEditPool (by decide) _ (takeMapEditPool_refused hb starting)⟩
    · have busy : (acceptFrame s).draftRefusal = some .mapBusy := State.draftRefusal_mapBusy hr hc
      exact ⟨fun hb => exec_refuse h .mapEdit (by decide) _ (takeMapEdit_refused hb busy),
        fun hb => exec_refuse h .mapEditPool (by decide) _ (takeMapEditPool_refused hb busy)⟩

/-! ## MAP-READ (R15) -/

theorem takeMapRead_none {body : List Byte} (h : byteField body = none) (s : State) :
    takeMapRead body s = refuse .malformed s := by
  simp [takeMapRead, h]

theorem takeMapRead_starting {sel : Byte} {s : State} (h : s.mapStore.ready = false) :
    takeMapRead [sel] s = refuse .starting s := by
  simp [takeMapRead, byteField, h]

theorem takeMapRead_bad {sel : Byte} {s : State} (h : s.mapStore.ready = true) (h0 : sel ≠ 0) (h1 : sel ≠ 1) :
    takeMapRead [sel] s = refuse .badParameter s := by
  simp only [takeMapRead, byteField, h, Bool.true_eq_false, if_false]
  exact if_neg fun e => e.elim h0 h1

theorem takeMapRead_active {s : State} (h : s.mapStore.ready = true) : takeMapRead [0] s = answer .ok
    (0 :: (le32 s.mapStore.active.pool ++ le32 s.mapStore.active.generation ++ extentForms s.mapStore.active)) s := by
  simp [takeMapRead, byteField, h]

theorem takeMapRead_draft {s : State} (h : s.mapStore.ready = true) : takeMapRead [1] s = answer .ok
    (1 :: (le32 s.mapStore.draft.pool ++ le32 s.mapStore.draft.generation ++ extentForms s.mapStore.draft)) s := by
  simp [takeMapRead, byteField, h]

/-- Settles O18. -/
theorem mapReadResult : Obligations.MapReadResult := by
  refine fun s q h => ⟨fun body hb => ?_, fun sel hr => ?_, fun sel hr h0 h1 => ?_, fun hr => ⟨?_, ?_⟩⟩
  · exact exec_refuse h .mapRead (by decide) _ (takeMapRead_none (byteField_none hb) _)
  · exact exec_refuse h .mapRead (by decide) [sel] (takeMapRead_starting (s := acceptFrame s) hr)
  · exact exec_refuse h .mapRead (by decide) [sel] (takeMapRead_bad (s := acceptFrame s) hr h0 h1)
  · exact exec_reported h .mapRead (by decide) [0] (takeMapRead_active (s := acceptFrame s) hr)
  · exact exec_reported h .mapRead (by decide) [1] (takeMapRead_draft (s := acceptFrame s) hr)

/-! ## IDENTIFY and STATUS (R218) -/

theorem presenceBits_one (b : Bool) : presenceBits [b] = flagByte b := by cases b <;> rfl

/-- A port in the STATUS reply, its optional fields written out (R226). -/
theorem statusPort_fields (x : PortRecord) : statusPort x =
    [x.cls.code, x.engine.code, flagByte x.member.isSome] ++
      le 3 (match x.member with | some m => m.capacity | none => 0) ++
      le 4 (match x.member with | some m => m.identity.toNat | none => 0) := by
  rw [statusPort, presenceBits_one]
  cases x.member <;> rfl

/-- Settles O43. -/
theorem identifyAndStatusResult : Obligations.IdentifyAndStatusResult := by
  refine fun s q h => ⟨fun body hb => ?_, ?_, ?_⟩
  · obtain ⟨b, bs, rfl⟩ := List.exists_cons_of_ne_nil hb
    exact ⟨exec_refuse h .identify (by decide) (b :: bs) rfl, exec_refuse h .status (by decide) (b :: bs) rfl⟩
  · exact exec_reported h .identify (by decide) [] (fs := identifyBytes) rfl
  · have run := exec_reported h .status (by decide) [] (fs := statusBytes (acceptFrame s)) rfl
    simp only [statusBytes, statusPort_fields] at run
    exact run

/-! ## GET-PARAMETER (R220) -/

theorem Params.get_none {id : Nat} (h : id < 1 ∨ 9 < id) (q : Params) : q.get id = none := by
  unfold Params.get
  split <;> simp at h ⊢

theorem takeGetParameter_none {body : List Byte} (h : byteField body = none) (s : State) :
    takeGetParameter body s = answer .malformed (zeros 3) s := by
  simp [takeGetParameter, h]

theorem takeGetParameter_bad {i : Byte} {s : State} (h : s.params.get i.toNat = none) :
    takeGetParameter [i] s = answer .badParameter (zeros 3) s := by
  simp [takeGetParameter, byteField, h]

theorem takeGetParameter_good {i : Byte} {s : State} {v : Nat} (h : s.params.get i.toNat = some v) :
    takeGetParameter [i] s = answer .ok (i :: le 2 v) s := by
  simp [takeGetParameter, byteField, h]

theorem bool_toNat_ite (b : Bool) : (if b then 1 else 0) = b.toNat := by cases b <;> rfl

/-- Settles O44. -/
theorem getParameterResult : Obligations.GetParameterResult := by
  refine fun s q h => ⟨fun body hb => ?_, fun i hi => ?_, fun i v hv => ?_⟩
  · exact exec_reported h .getParameter (by decide) _ (takeGetParameter_none (byteField_none hb) _)
  · exact exec_reported h .getParameter (by decide) [i]
      (takeGetParameter_bad (s := acceptFrame s) (Params.get_none hi _))
  · have found : s.params.get (byte i).toNat = some v := by
      simp only [bool_toNat_ite, List.mem_cons, Prod.mk.injEq, List.not_mem_nil, or_false] at hv
      rcases hv with ⟨rfl, rfl⟩ | ⟨rfl, rfl⟩ | ⟨rfl, rfl⟩ | ⟨rfl, rfl⟩ | ⟨rfl, rfl⟩ | ⟨rfl, rfl⟩ | ⟨rfl, rfl⟩ |
        ⟨rfl, rfl⟩ | ⟨rfl, rfl⟩
      all_goals rfl
    exact exec_reported h .getParameter (by decide) [byte i] (takeGetParameter_good (s := acceptFrame s) found)

/-! ## FETCH-SNAPSHOT (R136) -/

/-- The bytes of a snapshot, its optional fields written out (R226). -/
theorem snapshotBytes_fields (x : Snapshot) : snapshotBytes x =
    [byte x.tag.val, x.kind.code, byte (x.urgent.toNat + 2 * x.through.toNat),
      byte (x.range.isSome.toNat + 2 * x.failingLbn.isSome.toNat + 4 * x.failingPort.isSome.toNat)] ++
      le 3 (match x.range with | some g => g.first | none => 0) ++
      [byte (match x.range with | some g => g.count | none => 0), x.status.code] ++ le 3 (x.failingLbn.getD 0) ++
      [byte (match x.failingPort with | some p => p.val | none => 0), byte x.blocksDone, byte x.aborted] ++
      le 4 x.entry.toNat := by
  obtain ⟨tag, kind, range, urgent, through, status, lbn, port, done, aborted, entry⟩ := x
  cases range <;> cases lbn <;> cases port <;> rfl

theorem takeFetchSnapshot_none {s : State} (h : s.table.snapshot = none) :
    takeFetchSnapshot [] s = refuse .noSnapshot s := by
  simp [takeFetchSnapshot, h]

theorem takeFetchSnapshot_sent {s : State} {x : Snapshot} (h : s.table.snapshot = some x) :
    takeFetchSnapshot [] s = answer .ok (snapshotBytes x) { s with table := { s.table with snapshot := none } } := by
  simp [takeFetchSnapshot, h]

/-- Settles O35. -/
theorem fetchSnapshotResult : Obligations.FetchSnapshotResult := by
  refine fun s q h => ⟨fun body hb => ?_, fun hs => ?_, fun x hs => ?_⟩
  · obtain ⟨b, bs, rfl⟩ := List.exists_cons_of_ne_nil hb
    exact exec_refuse h .fetchSnapshot (by decide) (b :: bs) rfl
  · exact exec_refuse h .fetchSnapshot (by decide) [] (takeFetchSnapshot_none (s := acceptFrame s) hs)
  · have run := exec_answered h .fetchSnapshot (by decide) [] (takeFetchSnapshot_sent (s := acceptFrame s) hs) rfl
    rw [snapshotBytes_fields] at run
    exact run

/-! ## UNKNOWN_KIND and RESET-LINK (R209, R216) -/

theorem MsgKind.ofCode_none {b : Byte} (h : ∀ k : MsgKind, b ≠ k.code) : MsgKind.ofCode b = none := by
  cases hk : MsgKind.ofCode b with
  | none => rfl
  | some k => exact absurd (MsgKind.eq_code_of_ofCode hk) (h k)

/-- Settles O46. -/
theorem unknownKindAndResetLinkResult : Obligations.UnknownKindAndResetLinkResult := by
  refine fun s q h => ⟨fun k body hk => ?_, fun body hb => ?_, ?_⟩
  · have unknown : MsgKind.ofCode k = none := MsgKind.ofCode_none fun j e => hk (by
      subst e
      cases j <;> decide)
    have refused : dispatch k body (acceptFrame s) = refuse .unknownKind (acceptFrame s) := by
      unfold dispatch
      rw [unknown]
    show Host.Outcome.next (acceptMessage k q body s) = _
    rw [acceptMessage_takes h k body (by rw [unknown]; exact nofun), processMessage_replied k body refused rfl]
    rfl
  · obtain ⟨b, bs, rfl⟩ := List.exists_cons_of_ne_nil hb
    exact exec_refuse h .resetLink (by decide) (b :: bs) rfl
  · have ⟨receives, wait, held, reply, e⟩ := h
    show Host.Outcome.next (acceptMessage _ q [] s) = _
    rw [acceptMessage_takes h _ [] (by decide)]
    rfl

end Sys2Proof.Machine
end

section
/-! PROOFS. The family 'other', tagged requests: the checks of admission (R12, R25 to R28) and what an admission leaves
(R29 to R31, R34, R36, R37, R50, R51, R72, R187). -/

namespace Sys2Proof.Machine

/-! ## The checks of a tagged request -/

theorem tagOfByte_none {b : Byte} (h : 16 ≤ b.toNat) : tagOfByte b = none := dif_neg (Nat.not_lt.2 h)

theorem rangeFields_none {body : List Byte}
    (h : body.length ≠ 6 ∨ 16 ≤ (body.getD 0 0).toNat ∨ 4 ≤ (body.getD 1 0).toNat) : rangeFields body = none := by
  match body with
  | [] | [_] | [_, _] | [_, _, _] | [_, _, _, _] | [_, _, _, _, _] | _ :: _ :: _ :: _ :: _ :: _ :: _ :: _ => rfl
  | [t, f, a, b, c, n] =>
    obtain h | h | h := h
    · exact absurd rfl h
    · have tag : tagOfByte t = none := tagOfByte_none h
      simp only [rangeFields, tag]
    · have flags : ¬ f.toNat < 4 := Nat.not_lt.2 h
      simp only [rangeFields, if_neg flags]
      split <;> rfl

theorem flushFields_none {body : List Byte} (h : body.length ≠ 1 ∨ 16 ≤ (body.getD 0 0).toNat) :
    flushFields body = none := by
  match body with
  | [] | _ :: _ :: _ => rfl
  | [t] => exact tagOfByte_none (h.resolve_left fun e => e rfl)

theorem readAsk_flush_none {body : List Byte} (h : flushFields body = none) : readAsk .flush body = none := by
  simp [readAsk, h]

theorem readAsk_range_none {k : ReqKind} (hk : k ≠ .flush) {body : List Byte} (h : rangeFields body = none) :
    readAsk k body = none := by
  cases k
  case flush => exact absurd rfl hk
  all_goals simp [readAsk, h]

/-- Settles O19. -/
theorem malformedRequestsRefused : Obligations.MalformedRequestsRefused := by
  intro s q k body h hb
  refine exec_malformed h k body ?_
  split at hb
  next e =>
    subst e
    exact readAsk_flush_none (flushFields_none hb)
  next e => exact readAsk_range_none e (rangeFields_none hb)

/-- Check 2 of R25 comes first. -/
theorem State.refusal_starting {s : State} (h : s.mapStore.ready = false) (a : Ask) :
    s.refusal a = some (.starting, 0) := by
  simp [State.refusal, h]

theorem State.refusal_halted {s : State} (hr : s.mapStore.ready = true) {x : Snapshot} (h : s.table.snapshot = some x)
    (a : Ask) : s.refusal a = some (.queueHalted, x.tag.val) := by
  simp [State.refusal, hr, h]

theorem State.refusal_mapBusy {s : State} (hr : s.mapStore.ready = true) (hs : s.table.snapshot = none) {c : Commit}
    (h : s.mapStore.commit = some c) (a : Ask) : s.refusal a = some (.mapBusy, c.phase.code.toNat) := by
  simp [State.refusal, State.phaseCode, hr, hs, h]

theorem State.refusal_tagInUse {s : State} (hr : s.mapStore.ready = true) (hs : s.table.snapshot = none)
    (hc : s.mapStore.commit = none) {a : Ask} {r : Request} (h : s.request a.tag = some r) :
    s.refusal a = some (.tagInUse, r.state.code.toNat) := by
  simp [State.refusal, hr, hs, hc, h]

/-- A well-formed request of any kind names its tag. -/
theorem readAsk_tag (k : ReqKind) (t : Tag) (f a b c n : Byte) (hf : f.toNat < 4) :
    ∃ x, readAsk k (if k = .flush then [byte t.val] else [byte t.val, f, a, b, c, n]) = some x ∧ x.tag = t := by
  by_cases hk : k = .flush
  · subst hk
    exact ⟨_, readAsk_flushByte t, rfl⟩
  · rw [if_neg hk]
    exact ⟨_, readAsk_range k hk t f a b c n hf, rfl⟩

/-- Settles O20: checks 2 to 5 look at the tag alone. -/
theorem requestsRefusedByState : Obligations.RequestsRefusedByState := by
  intro s q f a b c n t k h hf
  obtain ⟨x, hx, rfl⟩ := readAsk_tag k t f a b c n hf
  refine ⟨fun hr => ?_, fun y hr hs => ?_, fun m hr hs hc => ?_, fun r hr hs hc hq => ?_⟩
  · exact exec_refused h k _ hx (State.refusal_starting hr x)
  · exact exec_refused h k _ hx (State.refusal_halted hr hs x)
  · exact exec_refused h k _ hx (State.refusal_mapBusy hr hs hc x)
  · exact exec_refused h k _ hx (State.refusal_tagInUse hr hs hc hq)

/-! ## The range checks (R12, R28) -/

theorem State.rangeRefusal_badCount (s : State) {g : BlockRange} (h : g.count = 0 ∨ 64 < g.count) (k : ReqKind) :
    s.rangeRefusal k g = some (.badCount, g.count) := by
  unfold State.rangeRefusal
  exact if_pos h

/-- Check 10 refuses a range that checks 8 and 9 let pass and that has an unavailable block, at the lowest one (R12). -/
theorem State.rangeRefusal_unavailable {s : State} {g : BlockRange} (h : s.counts g) {k : ReqKind}
    (hm : ∀ x, g.has x → ∃ pl, s.translate x = some pl ∧ (k = .write → pl.access = .readWrite)) {y : Nat}
    (hy : g.lowest (fun x => s.available x = false) y) : s.rangeRefusal k g = some (.memberUnavailable, y) := by
  have mapped : g.lbns.find? (fun x => (s.translate x).isNone) = none := (g.find_none _).2 fun x hx => by
    obtain ⟨pl, hpl, -⟩ := hm x hx
    simp [hpl]
  have writable : (if k = .write then g.lbns.find? s.writeProtected else none) = none := by
    split
    next hk =>
      refine (g.find_none _).2 fun x hx => ?_
      obtain ⟨pl, hpl, access⟩ := hm x hx
      simp [State.writeProtected, hpl, access hk]
    · rfl
  have found : g.lbns.find? (fun x => !s.available x) = some y :=
    g.find_some _ y (by simpa only [Bool.not_eq_true'] using hy)
  rw [State.rangeRefusal_counts h, mapped]
  dsimp only
  rw [writable, found]
  rfl

/-- Settles O24. -/
theorem rangeChecksRefuse : Obligations.RangeChecksRefuse := by
  refine fun s q f a b c n t k h hf hk ht => ⟨fun hn => ?_, fun y hg hm hy => ?_⟩
  · exact exec_rangeRefused h hf hk ht (s.rangeRefusal_badCount (g := ⟨leVal [a, b, c], n.toNat⟩) hn k)
  · exact exec_rangeRefused h hf hk ht (State.rangeRefusal_unavailable hg hm hy)

/-! ## Requests that stay -/

theorem SameRequest.some_left {r : Request} {y : Option Request} (h : SameRequest (some r) y) : ∃ q, y = some q ∧
    q.kind = r.kind ∧ q.range = r.range ∧ q.urgent = r.urgent ∧ q.through = r.through ∧ q.admission = r.admission ∧
      q.state ∈ r.state.laterStates := by
  cases y with
  | none => exact h.elim
  | some q =>
    obtain ⟨⟨h1, h2, h3, h4, h5⟩, h6, -⟩ := h
    exact ⟨q, rfl, h1, h2, h3, h4, h5, h6⟩

theorem SameRequest.none_left {y : Option Request} (h : SameRequest none y) : y = none := by
  cases y with
  | none => rfl
  | some q => exact h.elim

/-- Requests that stay the same request, but for the one of tag `x`. -/
theorem keepsOthers_of_same {s t : State} {x : Tag} (h : ∀ u, u ≠ x → SameRequest (s.request u) (t.request u)) :
    s.keepsOthers t x := by
  refine fun u hu => ⟨fun e => ?_, fun r e => ?_⟩
  · have same := h u hu
    rw [e] at same
    exact same.none_left
  · have same := h u hu
    rw [e] at same
    exact same.some_left

/-! ## Admission of a READ, WRITE or VERIFY (R29 to R31) -/

/-- The record that admission gives a READ, WRITE or VERIFY, before it is offered (R29, R36). -/
def State.heldRequest (s : State) (k : ReqKind) (g : BlockRange) (f : Byte) : Request :=
  ⟨k, some g, f.getLsbD 0, s.throughFor k f, .held, s.table.counter, s.blockers k g, 0, none, none, [], []⟩

/-- A READ, WRITE or VERIFY that passes every check: its slot takes its record, and the record is offered. -/
theorem exec_range_taken {s : State} {q f a b c n : Byte} {t : Tag} {k : ReqKind} (h : s.takes q) (hf : f.toNat < 4)
    (hk : k ≠ .flush) (ht : s.freeFor t) (hg : s.counts ⟨leVal [a, b, c], n.toNat⟩)
    (hs : s.serves k ⟨leVal [a, b, c], n.toNat⟩) :
    exec (k.command q [byte t.val, f, a, b, c, n]) s = .next
      ((settleStaging (releaseHold t
        ((acceptFrame s).admitted t (s.heldRequest k ⟨leVal [a, b, c], n.toNat⟩ f)))).setLink
          (s.link.replied q (acceptedPayload k t s.table.counter
            (if s.blockers k ⟨leVal [a, b, c], n.toNat⟩ = [] then 0x02 else 0x01)) .nothing)) := by
  have passes := (State.refusal_freeFor ht k (some ⟨leVal [a, b, c], n.toNat⟩) (f.getLsbD 0) (f.getLsbD 1)).trans
    (State.rangeRefusal_serves hg hs)
  rw [exec_admitted h k _ (readAsk_range k hk t f a b c n hf) passes, admit_range (acceptFrame s) k hk,
    State.newRequest_range s k hk]
  have code : (s.heldRequest k ⟨leVal [a, b, c], n.toNat⟩ f).admittedState.code =
      if s.blockers k ⟨leVal [a, b, c], n.toNat⟩ = [] then 0x02 else 0x01 := by
    have state : (s.heldRequest k ⟨leVal [a, b, c], n.toNat⟩ f).admittedState =
        if s.blockers k ⟨leVal [a, b, c], n.toNat⟩ = [] then .active else .held := by
      cases k
      case flush => exact absurd rfl hk
      all_goals simp [Request.admittedState, State.heldRequest]
    rw [state]
    split <;> rfl
  rw [← code]
  rfl

/-- Settles O25: with a hold list that is not empty the offer does nothing. -/
theorem blockedRequestIsHeld : Obligations.BlockedRequestIsHeld := by
  intro s q f a b c n t k h hf hk ht hg hs hb
  refine ⟨_, exec_range_taken h hf hk ht hg hs, ?_, ?_⟩
  · rw [State.setLink_puts, if_neg hb]
  · rw [releaseHold_blocked ((State.admitted_request ..).trans (if_pos rfl)) hb]
    exact State.endsAs_message (acceptFrame s).link _ rfl (endsAs_settleStaging _)

/-- An unblocked request that has gone ACTIVE, before grants and return slots are given (R34). -/
def State.begun (s : State) (t : Tag) (r : Request) : State :=
  (s.admitted t r).setRequest t { r with state := .active }

theorem State.begun_request (s : State) (t u : Tag) (r : Request) :
    (s.begun t r).request u = if u = t then some { r with state := .active } else s.request u := by
  unfold State.begun
  rw [State.request_setRequest, State.admitted_request]
  split <;> rfl

/-- What the offer of an unblocked request makes of it: it goes ACTIVE, or further, and nothing else is lost. -/
theorem releaseHold_begun {s : State} {t : Tag} {r : Request} (hs : r.state = .held) (hl : r.holdList = []) :
    Soft (s.begun t r) (releaseHold t (s.admitted t r)) := by
  have held : (s.admitted t r).request t = some r := (State.admitted_request ..).trans (if_pos rfl)
  rw [releaseHold_free held hs hl]
  exact (goActive_soft held).trans ((calm_formGrants _).trans (calm_assignReturns _)).toSoft

/-- Settles O26. -/
theorem unblockedRequestGoesActive : Obligations.UnblockedRequestGoesActive := by
  intro s q f a b c n t k h hf hk ht hg hs hb
  have soft := releaseHold_begun (s := acceptFrame s) (t := t)
    (r := s.heldRequest k ⟨leVal [a, b, c], n.toNat⟩ f) rfl hb
  have own := soft.requests t
  rw [State.begun_request, if_pos rfl] at own
  obtain ⟨r, hr, hkind, hrange, hurgent, hthrough, hadmission, hstate⟩ := own.some_left
  refine ⟨_, r, exec_range_taken h hf hk ht hg hs, ?_⟩
  generalize releaseHold t ((acceptFrame s).admitted t (s.heldRequest k ⟨leVal [a, b, c], n.toNat⟩ f)) = v at soft hr ⊢
  simp only [State.setLink_puts, State.setLink_request, State.setLink_table, State.setLink_log, State.setLink_power,
    State.setLink_mapStore, State.setLink_params, settleStaging_request, settleStaging_table, settleStaging_log,
    settleStaging_powerState, settleStaging_mapStore, settleStaging_params, if_pos hb]
  refine ⟨trivial, hr, hkind, hrange, hurgent, hthrough, hadmission, hstate, soft.counter, soft.admissionOrder, soft.recent,
    congrArg Power.state soft.power, keepsOthers_of_same fun u hu => ?_, soft.mapStore, soft.params⟩
  have same := soft.requests u
  rw [State.begun_request, if_neg hu] at same
  rw [State.setLink_request, settleStaging_request]
  exact same

/-! ## The grant of a WRITE (R50, R51, R72) -/

/-- An unblocked WRITE, once it has gone ACTIVE with its write record. -/
def State.begunWrite (s : State) (t : Tag) (r : Request) : State :=
  (s.begun t r).setWriteRecord t (some ⟨r.admission, 0, none, none⟩)

theorem goActive_write {s : State} {t : Tag} {r : Request} (hk : r.kind = .write) :
    goActive t (s.admitted t r) = s.begunWrite t r := by
  have own : (s.admitted t r).request t = some r := (State.admitted_request ..).trans (if_pos rfl)
  unfold goActive
  rw [own]
  dsimp only
  split <;> rename_i e <;> cases e.symm.trans hk
  rfl

theorem State.begunWrite_request (s : State) (t u : Tag) (r : Request) :
    (s.begunWrite t r).request u = if u = t then some { r with state := .active } else s.request u :=
  s.begun_request t u r

theorem State.begunWrite_writeRecord (s : State) (t u : Tag) (r : Request) :
    (s.begunWrite t r).writeRecord u = if u = t then some ⟨r.admission, 0, none, none⟩ else s.writeRecord u :=
  State.writeRecord_setWriteRecord ..

theorem State.begunWrite_waits {s : State} {t u : Tag} {r : Request} (hu : u ≠ t) :
    (s.begunWrite t r).waits u ↔ s.waits u := by
  unfold State.waits
  rw [State.begunWrite_request, State.begunWrite_writeRecord, if_neg hu, if_neg hu]

/-- A WRITE that goes ACTIVE makes no READ eligible. -/
theorem State.begunWrite_wantsReturn {s : State} {t : Tag} {r : Request} (hk : r.kind = .write)
    (h : ∀ u, ¬ s.wantsReturn u) (u : Tag) : ¬ (s.begunWrite t r).wantsReturn u := by
  rintro ⟨q, g, f, hq, kind, rest⟩
  rw [State.begunWrite_request] at hq
  split at hq
  · cases hq
    cases kind.symm.trans hk
  · exact h u ⟨q, g, f, hq, kind, rest⟩

/-- Grants move no READ: whether one wants a return slot is as before. -/
theorem Granted.wantsReturn {s t : State} (h : Granted s t) (u : Tag) : t.wantsReturn u ↔ s.wantsReturn u := by
  obtain ⟨⟨w, o, v, rfl⟩, -⟩ := h
  exact Iff.rfl

/-- What the offer of an unblocked WRITE comes to where no other WRITE waits and no READ wants a return slot: its grant. -/
theorem releaseHold_write {s : State} {t : Tag} {r : Request} (hk : r.kind = .write) (hs : r.state = .held)
    (hl : r.holdList = []) (hw : ∀ u, ¬ s.waits u) (hr : ∀ u, ¬ s.wantsReturn u) :
    releaseHold t (s.admitted t r) = formGrant t (s.begunWrite t r) := by
  have own : (s.admitted t r).request t = some r := (State.admitted_request ..).trans (if_pos rfl)
  have listed : t ∈ (s.begunWrite t r).table.admissionOrder :=
    List.mem_append_right s.table.admissionOrder (List.mem_singleton.2 rfl)
  have alone : formGrants (s.begunWrite t r) = formGrant t (s.begunWrite t r) :=
    formGrants_one listed fun u hu => (not_congr (State.begunWrite_waits hu)).2 (hw u)
  rw [releaseHold_free own hs hl, goActive_write hk, alone]
  exact assignReturns_idle fun u => (not_congr ((granted_formGrant t _).wantsReturn u)).2 (State.begunWrite_wantsReturn hk hr u)

/-- Settles O27: with no FREE slot the grant is not formed, otherwise it is the first of `formGrant_waits`. -/
theorem writeTakesItsGrant : Obligations.WriteTakesItsGrant := by
  intro s q f a b c n t h hf ht hg hs hb hw hr slots
  refine ⟨_, exec_range_taken (k := .write) h hf (by decide) ht hg hs, ?_⟩
  rw [releaseHold_write (s := acceptFrame s) rfl rfl hb hw hr]
  let r := s.heldRequest .write ⟨leVal [a, b, c], n.toNat⟩ f
  let B := (acceptFrame s).begunWrite t r
  have own : B.request t = some { r with state := .active } := ((acceptFrame s).begunWrite_request t t r).trans (if_pos rfl)
  have record : B.writeRecord t = some ⟨r.admission, 0, none, none⟩ :=
    ((acceptFrame s).begunWrite_writeRecord t t r).trans (if_pos rfl)
  have requests : ∀ x, B.request x = if x = t then some { r with state := .active } else s.request x := fun x =>
    (acceptFrame s).begunWrite_request t x r
  have active : ({ r with state := .active } : Request) = ⟨.write, some ⟨leVal [a, b, c], n.toNat⟩, f.getLsbD 0,
      s.throughFor .write f, .active, s.table.counter, [], 0, none, none, [], []⟩ := by
    rw [← hb]
    rfl
  have free : slots = B.freeSlots.take (min n.toNat 8) := rfl
  simp only [State.setLink_writeRecord, State.setLink_mover, State.setLink_slot, State.setLink_staging,
    State.setLink_request, settleStaging_writeRecord, settleStaging_mover, settleStaging_slot, settleStaging_drainOrder,
    settleStaging_request]
  by_cases hne : slots = []
  · have none_free : B.freeSlots = [] := by
      obtain ⟨h1, -, -⟩ := hg
      rcases List.take_eq_nil_iff.1 (free.symm.trans hne) with e | e
      · simp only at h1
        omega
      · exact e
    rw [formGrant_noSlots none_free, if_pos hne, if_pos hne]
    refine ⟨record, rfl, fun i hi => ?_, fun i _ => rfl, rfl, ?_, rfl, rfl, rfl⟩
    · rw [hne] at hi
      cases hi
    · rw [← active]
      exact requests
  · have formed := formGrant_waits own rfl rfl rfl record rfl (by obtain ⟨h1, -, -⟩ := hg; exact h1) slots free hne
    have nodup : slots.Nodup := B.freeSlots_nodup _
    rw [formed, if_neg hne, if_neg hne]
    let V := (B.setWriteRecord t (some ⟨r.admission, 0 + slots.length, some ⟨0, slots, [], .unsent⟩, none⟩)).setGrantOrder
      (B.mover.grantOrder ++ [t])
    have filled := reserve_slot ⟨t, r.admission⟩ r.through (leVal [a, b, c] + 0) slots nodup V
    have others := reserve_other ⟨t, r.admission⟩ r.through (leVal [a, b, c] + 0) slots V
    obtain ⟨v, hv⟩ := reserve_eq ⟨t, r.admission⟩ r.through (leVal [a, b, c] + 0) slots V
    refine ⟨?_, ?_, filled, others, ?_, ?_, ?_, ?_, ?_⟩
    · rw [reserve_writeRecord, State.setGrantOrder_writeRecord, State.writeRecord_setWriteRecord, if_pos rfl, Nat.zero_add]
      rfl
    all_goals rw [hv]
    · rfl
    · rfl
    · rw [← active]
      exact requests
    all_goals rfl

/-! ## A FLUSH (R26, R29, R37) -/

/-- The record that admission gives a FLUSH, before it is offered (R29, R37). -/
def State.flushRequest (s : State) : Request :=
  ⟨.flush, none, false, false, .settling, s.table.counter, [], 0, none, none, s.flushSetNow, []⟩

theorem State.newRequest_flush (s : State) (t : Tag) : s.newRequest ⟨.flush, t, none, false, false⟩ = s.flushRequest := by
  have unheld : s.holdListOf ⟨.flush, t, none, false, false⟩ = [] := by
    refine List.filter_eq_nil_iff.2 fun u _ => ?_
    split
    next r _ => cases e : r.range <;> simp [Request.holds, e]
    next => simp
  simp only [State.newRequest, State.effectiveThrough, unheld]
  rfl

theorem takeIn_flush (s : State) (t : Tag) : takeIn ⟨.flush, t, none, false, false⟩ s =
    settleStaging (if s.flushSetNow = [] then enterReporting t .good none (s.admitted t s.flushRequest)
      else s.admitted t s.flushRequest) := by
  have entered : takeIn ⟨.flush, t, none, false, false⟩ s = settleStaging (offer t s.flushRequest
      (wakePower (addHeader ⟨t, s.flushRequest.kind, s.flushRequest.range, s.flushRequest.urgent, s.flushRequest.through⟩
        (s.enterSlot t s.flushRequest)))) := by
    unfold takeIn
    rw [State.newRequest_flush]
    rfl
  rw [entered, State.enterSlot_admitted]
  simp only [offer, State.flushRequest, List.isEmpty_iff]

/-- A request that is admitted and completes at once: its slot holds the completed record, and its tag joins the completion
order. -/
theorem enterReporting_admitted (s : State) (t : Tag) (r : Request) (st : CompletionStatus) (x : Option Nat) :
    enterReporting t st x (s.admitted t r) =
      ({ s with table := { s.table with completionOrder := s.table.completionOrder ++ [t] } } : State).admitted t { r with
        state := .reporting, status := some st, failingLbn := x, holdList := [], flushSet := [], settleSet := [] } := by
  have own : (s.admitted t r).request t = some r := (State.admitted_request ..).trans (if_pos rfl)
  unfold enterReporting
  rw [own]
  simp only [State.admitted, State.setRequest, State.setSlot, Vector.set_set]

/-- A FLUSH whose tag is free passes every check. -/
theorem exec_flush_taken {s : State} {q : Byte} {t : Tag} (h : s.takes q) (ht : s.freeFor t) :
    exec (.flush q [byte t.val]) s = .next { takeIn ⟨.flush, t, none, false, false⟩ (acceptFrame s) with
      link := s.link.replied q (acceptedPayload .flush t s.table.counter (if s.flushSetNow = [] then 0x05 else 0x03))
        .nothing } := by
  have code : s.flushRequest.admittedState.code = if s.flushSetNow = [] then 0x05 else 0x03 := by
    simp only [Request.admittedState, State.flushRequest, List.isEmpty_iff]
    split <;> rfl
  rw [← code, ← s.newRequest_flush t]
  exact exec_admitted h .flush _ (readAsk_flushByte t) (State.refusal_freeFor ht .flush none false false)

/-- Settles O28. -/
theorem flushResult : Obligations.FlushResult := by
  intro s q t h ht set
  have now : s.flushSetNow = set := rfl
  rw [exec_flush_taken h ht, takeIn_flush, now]
  refine ⟨fun hs => ⟨_, rfl, ?_, ?_⟩, fun hs => ⟨_, rfl, ?_, ?_⟩⟩
  · rw [if_neg hs]
  · rw [show (acceptFrame s).flushSetNow = set from rfl, if_neg hs]
    exact State.endsAs_message (acceptFrame s).link _ rfl (endsAs_settleStaging _)
  · rw [if_pos hs]
  · rw [show (acceptFrame s).flushSetNow = set from rfl, if_pos hs, enterReporting_admitted]
    exact State.endsAs_message (acceptFrame s).link _ rfl (endsAs_settleStaging _)

end Sys2Proof.Machine
end

section
/-! PROOFS. The family 'other', the resets and the uptime tick (R186, R230), the refusals of WRITE-DATA (R55), NOTICE-CLEAR
(R180), PARK and UNPARK (R166, R169), and GET-LOG (R194 to R201). -/

namespace Sys2Proof.Machine

/-! ## The resets -/

/-- Settles O11. -/
theorem resetValues : Obligations.ResetValues := by
  have replicated {α : Type} {n : Nat} (x : α) (i : Fin n) : (Vector.replicate n x)[i] = x :=
    (Fin.getElem_fin ..).trans (Vector.getElem_replicate ..)
  exact ⟨rfl, replicated none, rfl, rfl, rfl, rfl, fun t => ⟨replicated none t, replicated none t⟩,
    replicated ReturnSlot.free, replicated StagingSlot.free, rfl, rfl, rfl, rfl, rfl, rfl, rfl, rfl, rfl, replicated SleepMark.clear,
    rfl, rfl, rfl, rfl, rfl, rfl, rfl, rfl, rfl, rfl⟩

/-- Settles O12. -/
theorem deviceResetResult : Obligations.DeviceResetResult := by
  refine fun s => ⟨_, rfl, rfl, rfl, rfl, rfl, rfl, rfl, rfl, rfl, rfl, rfl, rfl, fun p => ?_⟩
  have level : ∀ b : Bool, portAtReset b = ⟨if b then .debounce else .empty,
      if b then some ⟨true, 25, none⟩ else none, none, .idle, none, none, 0, 0, ⟨0, 0, 0, 0, 0, 0⟩⟩ := by
    intro b
    cases b <;> rfl
  match p with
  | 0 => exact level s.presence[0]
  | 1 => exact level s.presence[1]
  | 2 => exact level s.presence[2]
  | 3 => exact level s.presence[3]

/-- Cutting off the operations of the ports of `l`: nothing but those ports' engines and operations changes. -/
theorem cutOffs_port (l : List Port) (s : State) (q : Port) : (l.foldl (fun acc p => cutOff p acc) s).port q =
    if q ∈ l then { s.port q with engine := .idle, op := none } else s.port q := by
  induction l generalizing s with
  | nil => rfl
  | cons p l ih =>
    rw [List.foldl_cons, ih, cutOff, State.port_setPort]
    by_cases e : q = p
    · subst e
      simp
    · simp [e]

theorem live_low {s : State} (h : s.resetLow = true) (f : State → State) : live f s = .next s :=
  congrArg Host.Outcome.next (if_pos h)

theorem live_high {s : State} (h : s.resetLow = false) (f : State → State) : live f s = .next (f s) :=
  congrArg Host.Outcome.next (if_neg (by rw [h]; exact Bool.false_ne_true))

theorem State.receives_resetLow {s : State} (h : s.resetLow = true) : s.receives = false := by
  simp [State.receives, h]

/-- While RESETn is low no message is taken. -/
theorem acceptMessage_resetLow {s : State} (h : s.resetLow = true) (k q : Byte) (body : List Byte) :
    acceptMessage k q body s = s :=
  if_neg (by rw [State.receives_resetLow h]; exact Bool.false_ne_true)

/-- Settles O13. -/
theorem resetAssertResult : Obligations.ResetAssertResult := by
  refine ⟨fun s => ?_, fun c s h hd ha => ?_⟩
  · obtain ⟨⟨v, hv⟩, -⟩ := cutOffs_spec allPorts { s with
      resetLow := true, notices := { s.notices with attn := false }, link := { s.link with transmission := none } }
    refine ⟨_, rfl, ?_, ?_, ?_, fun p => (cutOffs_port ..).trans (if_pos (mem_allPorts p)), ?_⟩
    all_goals rw [hv]
    exact ⟨rfl, rfl, rfl, rfl, rfl, rfl, rfl⟩
  · have deaf : s.receives ≠ true := by
      rw [State.receives_resetLow h]
      exact Bool.false_ne_true
    cases c with
    | deviceReset => exact absurd rfl hd
    | resetAssert => exact absurd rfl ha
    | reportAck n => exact congrArg Host.Outcome.next (if_neg deaf)
    | frameCrcError => exact congrArg Host.Outcome.next (if_neg deaf)
    | framingError x => exact congrArg Host.Outcome.next (if_neg deaf)
    | oversizeFrame n => exact congrArg Host.Outcome.next (if_neg fun k => deaf k.1)
    | heldMessageRelease | breakDeclared | linkReset | outboundChoice | transmissionEnd | reportTimerExpiry
    | debounceExpiry | arbiterChoice | identEnd | rdblkEnd | pgblkEnd | sleepEnd | wakeEnd | opTimeout
    | quiesceEvaluation | quiesceTimeout | startupEnd | dataTimerExpiry | grantFormation | returnSlotAssignment
    | holdRelease | idleTimerExpiry | parkComplete | uptimeTick | breakEnd | skippingEnd | presenceChange =>
      exact congrArg Host.Outcome.next (if_pos h)
    | read | write | verify | flush | writeData | identify | status | setParameter | getParameter | resetLink | linkSync
    | fetchSnapshot | mapRead | mapEdit | mapEditPool | mapResetDraft | mapCommit | setCeiling | park | unpark
    | portReset | strandedRetry | strandedDiscard | noticeClear | getLog | unknownKind =>
      exact congrArg Host.Outcome.next (acceptMessage_resetLow h _ _ _)

/-- Settles O14. -/
theorem uptimeTickResult : Obligations.UptimeTickResult := fun _ h =>
  live_high h fun t => { t with clock := t.clock + 1, log := { t.log with uptime := t.log.uptime + 1 } }

/-! ## WRITE-DATA refused (R55) -/

theorem dataFields_none {body : List Byte}
    (h : body.length ≠ 258 ∨ 16 ≤ (body.getD 0 0).toNat ∨ 64 ≤ (body.getD 1 0).toNat) : dataFields body = none := by
  match body with
  | [] | [_] => rfl
  | t :: i :: data =>
    have wrong : ¬ (data.length = 256 ∧ i.toNat < 64) ∨ 16 ≤ t.toNat := by
      obtain h | h | h := h
      · exact .inl fun k => h (congrArg (· + 2) k.1)
      · exact .inr h
      · exact .inl fun k => Nat.not_lt.2 h k.2
    unfold dataFields
    cases e : tagOfByte t with
    | none => simp only [e]
    | some tag =>
      simp only [e]
      refine if_neg (wrong.resolve_right fun k => ?_)
      rw [tagOfByte_none k] at e
      cases e

/-- A block is solicited only by an ACTIVE WRITE whose current grant still misses its index. -/
theorem State.solicited_none {s : State} {f : DataFields}
    (h : ¬ ∃ r g w x, s.request f.tag = some r ∧ r.kind = .write ∧ r.state = .active ∧ r.range = some g ∧
      s.writeRecord f.tag = some w ∧ w.grant = some x ∧ x.first ≤ f.index ∧ f.index < x.first + x.slots.length ∧
      f.index ∉ x.received) : s.solicited f = none := by
  cases e : s.solicited f with
  | none => rfl
  | some q =>
    obtain ⟨hr, hg, hw, ha, hk, hs, hf, hn, hi⟩ := solicited_spec e
    obtain ⟨bound, -⟩ := List.getElem?_eq_some_iff.1 hi
    exact absurd ⟨q.request, q.range, q.record, q.grant, hr, hk, hs, hg, hw, ha, hf, by omega, hn⟩ h

/-- Settles O29. -/
theorem writeDataRefused : Obligations.WriteDataRefused := by
  refine fun s q h => ⟨fun body hb => ?_, fun t i data hl hi hn => ?_⟩
  · refine exec_reported h .writeData (by decide) body (fs := zeros 3) (st := .malformed) ?_
    show takeWriteData body (acceptFrame s) = _
    unfold takeWriteData
    rw [dataFields_none hb]
  · refine exec_reported h .writeData (by decide) _ (fs := [byte t.val, i, 0]) (st := .notSolicited) ?_
    show takeWriteData _ (acceptFrame s) = _
    unfold takeWriteData
    rw [dataFields_whole t i data hl hi]
    dsimp only
    rw [State.solicited_none (s := acceptFrame s) (f := ⟨t, i.toNat, data⟩) hn, byte_toNat]

/-! ## NOTICE-CLEAR (R180) -/

theorem clearFields_none {body : List Byte} (h : body.length ≠ 3 ∨ 2 ≤ (body.getD 0 0).toNat) : clearFields body = none := by
  match body with
  | [] | [_] | [_, _] | _ :: _ :: _ :: _ :: _ => rfl
  | [sel, k, p] =>
    have big : 2 ≤ sel.toNat := h.resolve_left fun e => e rfl
    have h0 : sel ≠ 0 := by
      rintro rfl
      exact absurd big (by decide)
    have h1 : sel ≠ 1 := by
      rintro rfl
      exact absurd big (by decide)
    exact (if_neg h0).trans (if_neg h1)

/-- An accepted NOTICE-CLEAR, by the instances it removes. -/
theorem exec_noticeClear {s : State} {q : Byte} (h : s.takes q) {body : List Byte} {out : Notice → Bool}
    (hb : takeNoticeClear body (acceptFrame s) = clearNotices out (acceptFrame s)) :
    exec (.noticeClear q body) s = .next (({ s with notices := s.noticesWithout out } : State).replied q [0x58, 0x00,
      byte (s.notices.pending.filter out).length, byte (s.notices.pending.filter (fun n => !out n)).length]) := by
  have left : clearNotices out (acceptFrame s) = answer .ok [byte (s.notices.pending.filter out).length,
      byte (s.notices.pending.filter (fun n => !out n)).length]
      { acceptFrame s with notices := (acceptFrame s).noticesWithout out } := by
    unfold clearNotices
    rw [dropNotices_eq]
    rfl
  exact exec_answered h .noticeClear (by decide) body (hb.trans left) rfl

theorem NoticeKind.ofCode_byte (k : NoticeKind) : NoticeKind.ofCode (byte k.code) = some k := by
  cases k <;> rfl

theorem NoticeKind.ofCode_none {k : Byte} (h : k.toNat < 1 ∨ 10 < k.toNat) : NoticeKind.ofCode k = none := by
  refine List.find?_eq_none.2 fun x _ => ?_
  have range : 1 ≤ x.code ∧ x.code ≤ 10 := by cases x <;> decide
  rw [decide_eq_true_eq]
  omega

theorem takeNoticeClear_none {body : List Byte} (h : clearFields body = none) (s : State) :
    takeNoticeClear body s = refuse .malformed s := by
  unfold takeNoticeClear
  rw [h]

theorem takeNoticeClear_badKind {k : Byte} (h : k.toNat < 1 ∨ 10 < k.toNat) (p : Byte) (s : State) :
    takeNoticeClear [1, k, p] s = refuse .badParameter s := by
  have fields : clearFields [1, k, p] = some (true, k, p) := rfl
  unfold takeNoticeClear
  rw [fields]
  dsimp only
  rw [NoticeKind.ofCode_none h]

/-- ONE of a port kind: the port byte names the instance. -/
theorem takeNoticeClear_port {k : NoticeKind} (hk : k = .portAttached ∨ k = .portDetached ∨ k = .portFailed) (p : Byte)
    (s : State) : takeNoticeClear [1, byte k.code, p] s = match portOfByte p with
      | none => refuse .portInvalid s
      | some x => clearNotices (fun n => n.key = ⟨k, some x⟩) s := by
  obtain rfl | rfl | rfl := hk <;> rfl

/-- ONE of a single kind: whatever the port byte. -/
theorem takeNoticeClear_single {k : NoticeKind} (ha : k ≠ .portAttached) (hd : k ≠ .portDetached) (hf : k ≠ .portFailed)
    (p : Byte) (s : State) : takeNoticeClear [1, byte k.code, p] s = clearNotices (fun n => n.key = ⟨k, none⟩) s := by
  cases k
  case portAttached => exact absurd rfl ha
  case portDetached => exact absurd rfl hd
  case portFailed => exact absurd rfl hf
  all_goals rfl

/-- Settles O47. -/
theorem noticeClearResult : Obligations.NoticeClearResult := by
  refine fun s q h => ⟨fun body hb => ?_, fun k p => ?_, fun k p hk => ?_, fun k p hk => ⟨fun hp => ?_, fun hp => ?_⟩,
    fun k p ha hd hf => ?_⟩
  · exact exec_refuse h .noticeClear (by decide) body (takeNoticeClear_none (clearFields_none hb) _)
  · exact exec_noticeClear h rfl
  · exact exec_refuse h .noticeClear (by decide) [1, k, p] (takeNoticeClear_badKind hk p _)
  · refine exec_refuse h .noticeClear (by decide) _ (st := .portInvalid) ?_
    exact (takeNoticeClear_port hk p _).trans (by rw [portOfByte_none hp])
  · exact exec_noticeClear h ((takeNoticeClear_port hk p _).trans (by rw [portOfByte_some hp]))
  · exact exec_noticeClear h (takeNoticeClear_single ha hd hf p _)

/-! ## PARK and UNPARK (R166, R169) -/

theorem takePark_fields {body : List Byte} (h : body ≠ []) (s : State) : takePark body s = refuse .malformed s := by
  cases body with
  | nil => exact absurd rfl h
  | cons b bs => rfl

theorem takeUnpark_fields {body : List Byte} (h : body ≠ []) (s : State) : takeUnpark body s = refuse .malformed s := by
  cases body with
  | nil => exact absurd rfl h
  | cons b bs => rfl

theorem takePark_starting {s : State} (h : s.mapStore.ready = false) : takePark [] s = refuse .starting s := if_pos h

/-- PARK after its two refusals, by the state it leaves. -/
theorem takePark_ready {s : State} (h : s.mapStore.ready = true) {t : State}
    (ht : (match s.power.state with
      | .active => settle (s.setPower .parking)
      | .lowPower => settle (s.setPower .parking)
      | .parking => s
      | .parked => s) = t) : takePark [] s = answer .ok [t.power.state.code] t := by
  subst ht
  exact if_neg (c := s.mapStore.ready = false) (by rw [h]; decide)

/-- PARK from ACTIVE or LOW_POWER. -/
theorem takePark_parks {s : State} (h : s.mapStore.ready = true) (hp : s.power.state = .active ∨ s.power.state = .lowPower) :
    takePark [] s = answer .ok [0x02] (settle (s.setPower .parking)) := by
  have code : (settle (s.setPower .parking)).power.state.code = 0x02 := by
    obtain ⟨v, m, i, e⟩ := settle_eq (s.setPower .parking)
    rw [e]
    rfl
  rw [← code]
  refine takePark_ready h ?_
  obtain e | e := hp <;> rw [e]

/-- PARK from PARKING or PARKED. -/
theorem takePark_stays {s : State} (h : s.mapStore.ready = true) (hp : s.power.state = .parking ∨ s.power.state = .parked) :
    takePark [] s = answer .ok [s.power.state.code] s := by
  refine takePark_ready h ?_
  obtain e | e := hp <;> rw [e]

theorem takeUnpark_stays {s : State} (hp : s.power.state = .active ∨ s.power.state = .lowPower) :
    takeUnpark [] s = answer .ok [s.power.state.code] s := by
  unfold takeUnpark
  obtain e | e := hp <;> simp [e]

theorem takeUnpark_leaves {s : State} (hp : s.power.state = .parking ∨ s.power.state = .parked) :
    takeUnpark [] s = answer .ok [0x00] (settle (leavePark s)) := by
  have code : (settle (leavePark s)).power.state.code = 0x00 := by
    obtain ⟨v, m, i, e⟩ := settle_eq (leavePark s)
    rw [e]
    rfl
  unfold takeUnpark
  obtain e | e := hp <;> simp [e, code]

/-- Settles O59. -/
theorem parkMessagesResult : Obligations.ParkMessagesResult := by
  refine fun s q h => ⟨fun body hb => ⟨?_, ?_⟩, fun hr => ?_, fun hr hp => ?_, fun hr hp => ?_, fun hp => ?_, fun hp => ?_⟩
  · exact exec_refuse h .park (by decide) body (takePark_fields hb _)
  · exact exec_refuse h .unpark (by decide) body (takeUnpark_fields hb _)
  · exact exec_refuse h .park (by decide) [] (takePark_starting hr)
  · exact ⟨_, exec_answered h .park (by decide) [] (takePark_parks hr hp) (settle_link _), rfl,
      State.restsAs_message (acceptFrame s).link _ (restsAs_settle ((acceptFrame s).setPower .parking))⟩
  · exact exec_reported h .park (by decide) [] (takePark_stays hr hp)
  · exact exec_reported h .unpark (by decide) [] (takeUnpark_stays hp)
  · exact ⟨_, exec_answered h .unpark (by decide) [] (takeUnpark_leaves hp) (settle_link _), rfl,
      State.restsAs_message (acceptFrame s).link _ (restsAs_settle (leavePark (acceptFrame s)))⟩

/-! ## GET-LOG (R194 to R201, R228) -/

theorem logFields_none {body : List Byte} (h : body.length ≠ 2 ∨ 2 ≤ (body.getD 1 0).toNat) : logFields body = none := by
  match body with
  | [] | [_] | _ :: _ :: _ :: _ => rfl
  | [p, c] =>
    have big : 2 ≤ c.toNat := h.resolve_left fun e => e rfl
    have h0 : c ≠ 0 := by
      rintro rfl
      exact absurd big (by decide)
    have h1 : c ≠ 1 := by
      rintro rfl
      exact absurd big (by decide)
    exact (if_neg h0).trans (if_neg h1)

/-- The clear flag of a well-formed GET-LOG. -/
theorem logFields_some {c : Byte} (h : c.toNat < 2) (p : Byte) :
    logFields [p, c] = some (p, decide (c = 1)) ∧ flagByte (decide (c = 1)) = c := by
  have flags : c = 0 ∨ c = 1 := by
    obtain e | e : c.toNat = 0 ∨ c.toNat = 1 := by omega
    · exact .inl (BitVec.eq_of_toNat_eq e)
    · exact .inr (BitVec.eq_of_toNat_eq e)
  obtain rfl | rfl := flags <;> exact ⟨rfl, rfl⟩

theorem pageBody_none {p : Byte} (h : 4 < p.toNat) (s : State) : pageBody p s = none := by
  unfold pageBody
  split
  case h_6 => rfl
  all_goals omega

theorem pageBody_isSome {p : Byte} (h : p.toNat ≤ 4) (s : State) : ∃ body, pageBody p s = some body := by
  obtain e | e | e | e | e : p.toNat = 0 ∨ p.toNat = 1 ∨ p.toNat = 2 ∨ p.toNat = 3 ∨ p.toNat = 4 := by omega
  all_goals simp [pageBody, e]

theorem takeGetLog_none {body : List Byte} (h : logFields body = none) (s : State) :
    takeGetLog body s = refuse .malformed s := by
  unfold takeGetLog
  rw [h]

theorem takeGetLog_bad {p c : Byte} (hp : 4 < p.toNat) (hc : c.toNat < 2) (s : State) :
    takeGetLog [p, c] s = refuse .badParameter s := by
  unfold takeGetLog
  rw [(logFields_some hc p).1]
  dsimp only
  rw [pageBody_none hp]

theorem takeGetLog_page {p c : Byte} (hc : c.toNat < 2) {s : State} {body : List Byte} (h : pageBody p s = some body) :
    takeGetLog [p, c] s = answer .ok (p :: c :: wholePage p body) (if c = 1 then clearPage p s else s) := by
  obtain ⟨fields, flag⟩ := logFields_some hc p
  unfold takeGetLog
  rw [fields]
  dsimp only
  rw [h, flag]
  simp only [decide_eq_true_eq]

/-- The bytes of a page with its checksum add up to 0 (R200). -/
theorem foldl_checksum (bs : List Byte) : (bs ++ [checksum bs]).foldl (· + ·) 0 = (0 : Byte) := by
  have cancels : ∀ a : Byte, a + (0 - a) = 0 := fun a => by bv_omega
  rw [List.foldl_append]
  exact cancels _

theorem clearPage_other {p : Byte} (h2 : p ≠ 2) (h3 : p ≠ 3) (s : State) : clearPage p s = s := by
  unfold clearPage
  split
  next e => exact absurd (BitVec.eq_of_toNat_eq e) h2
  next e => exact absurd (BitVec.eq_of_toNat_eq e) h3
  next => rfl

/-- Clearing the statistics of the ports of `l`. -/
theorem clearStats_spec (l : List Port) (s : State) : ∃ v,
    l.foldl (fun acc p => acc.setPort p { acc.port p with stats := PortStats.zero }) s = { s with ports := v } ∧
      ∀ x : Port, v[x] = if x ∈ l then { s.port x with stats := PortStats.zero } else s.port x := by
  induction l generalizing s with
  | nil => exact ⟨s.ports, rfl, fun x => rfl⟩
  | cons p l ih =>
    obtain ⟨v, hv, ports⟩ := ih (s.setPort p { s.port p with stats := PortStats.zero })
    refine ⟨v, hv, fun x => (ports x).trans ?_⟩
    rw [State.port_setPort]
    by_cases e : x = p
    · subst e
      simp
    · simp [e]

theorem headerBytes_length (h : Header) : (headerBytes h).length = 7 := by
  simp [headerBytes, optField, length_le]

theorem headers_length (l : List Header) : (l.flatMap headerBytes).length = 7 * l.length := by
  induction l with
  | nil => rfl
  | cons h l ih =>
    rw [List.flatMap_cons, List.length_append, ih, List.length_cons, headerBytes_length]
    omega

theorem entryBytes_length (e : HistoryEntry) : (entryBytes e).length = 21 + 7 * e.recent.length := by
  simp only [entryBytes, optField, le32, length_le, List.length_append, List.length_cons, List.length_nil, headers_length]

theorem historyBody_length (s : State) :
    pageLength (historyBody s) = 5 + (s.log.ring.map (fun e => 21 + 7 * e.recent.length)).sum := by
  have lengths : s.log.ring.map (fun e => (entryBytes e).length) = s.log.ring.map (fun e => 21 + 7 * e.recent.length) :=
    List.map_congr_left fun e _ => entryBytes_length e
  simp only [pageLength, historyBody, List.length_cons, List.length_flatMap, lengths]
  omega

theorem counterPairs_length (c : LinkCounters) : pageLength (counterPairs 1 c.values) = 54 := by
  simp [pageLength, LinkCounters.values, counterPairs, le32, length_le]

theorem statsBody_length (s : State) : pageLength (statsBody s) = 100 := by
  simp [pageLength, statsBody, allPorts, PortStats.values, le32, length_le]

theorem strandedEntry_length (s : State) (i : SlotNo) :
    (strandedEntry s i).length = if (s.slot i).isStranded then 5 else 0 := by
  unfold strandedEntry
  split
  next e => simp [e, length_le, StagingSlot.isStranded]
  all_goals simp [*, StagingSlot.isStranded]

theorem strandedBody_length (s : State) :
    pageLength (strandedBody s) = 5 + 5 * s.countSlots StagingSlot.isStranded := by
  have total : ∀ l : List SlotNo, ((l.map fun i => (strandedEntry s i).length).sum) =
      5 * l.countP (fun i => (s.slot i).isStranded) := by
    intro l
    induction l with
    | nil => rfl
    | cons i l ih =>
      rw [List.map_cons, List.sum_cons, ih, strandedEntry_length, List.countP_cons]
      split <;> omega
  simp only [pageLength, strandedBody, List.length_cons, List.length_flatMap, total, State.countSlots,
    List.countP_eq_length_filter]
  omega

/-! ## The pages of the log, spelled out (R195 to R199) -/

theorem headerBytes_fields (h : Header) : headerBytes h =
    [byte h.tag.val, h.kind.code, byte (h.urgent.toNat + 2 * h.through.toNat + 4 * h.range.isSome.toNat)] ++
      le 3 (match h.range with | some g => g.first | none => 0) ++
      [byte (match h.range with | some g => g.count | none => 0)] := by
  obtain ⟨t, k, range, u, th⟩ := h
  cases range <;> rfl

theorem entryBytes_fields (e : HistoryEntry) : entryBytes e =
    le 4 e.number.toNat ++ le 4 e.uptime.toNat ++ [e.cause.code, e.source.code,
        byte (e.tag.isSome.toNat + 2 * e.lbn.isSome.toNat + 4 * e.port.isSome.toNat + 8 * e.pbn.isSome.toNat),
        byte (match e.tag with | some t => t.val | none => 0)] ++ le 3 (e.lbn.getD 0) ++
      [byte (match e.port with | some p => p.val | none => 0)] ++ le 3 (e.pbn.getD 0) ++
      [byte e.attempts, byte e.recent.length] ++ e.recent.flatMap headerBytes := by
  have bits (a b c d : Bool) : presenceBits [a, b, c, d] = byte (a.toNat + 2 * b.toNat + 4 * c.toNat + 8 * d.toNat) := by
    unfold presenceBits
    congr 1
    simp only [List.foldr_cons, List.foldr_nil]
    omega
  have tag : optField 1 (e.tag.map (·.val)) = [byte (match e.tag with | some t => t.val | none => 0)] := by
    cases e.tag <;> rfl
  have port : optField 1 (e.port.map (·.val)) = [byte (match e.port with | some p => p.val | none => 0)] := by
    cases e.port <;> rfl
  have wide (n : Option Nat) : optField 3 n = le 3 (n.getD 0) := rfl
  simp only [entryBytes, bits, tag, port, wide, le32, List.append_assoc, List.cons_append, List.nil_append]

theorem pageBody_directory (s : State) : pageBody 0 s = some (0 :: le 2 32 ++
    1 :: le 2 (5 + (s.log.ring.map (fun e => 21 + 7 * e.recent.length)).sum) ++ 2 :: le 2 54 ++ 3 :: le 2 100 ++
    4 :: le 2 (5 + 5 * s.countSlots StagingSlot.isStranded) ++ le 4 s.log.uptime.toNat ++ le 2 s.log.errorCount.toNat ++
    [byte s.log.ring.length, flagByte (decide (s.log.ring ≠ []))] ++
    le 4 (match s.log.ring with | e :: _ => e.number.toNat | [] => 0) ++ [byte (s.countSlots StagingSlot.isStranded)]) := by
  have newest : s.newestEntry.toNat = match s.log.ring with | e :: _ => e.number.toNat | [] => 0 := by
    unfold State.newestEntry
    cases s.log.ring <;> rfl
  have nonempty : (!s.log.ring.isEmpty) = decide (s.log.ring ≠ []) := by
    cases s.log.ring <;> rfl
  show some (directoryBody s) = _
  simp only [directoryBody, historyBody_length, counterPairs_length, statsBody_length, strandedBody_length, le32, newest,
    nonempty, presenceBits_one, directoryLength]

theorem pageBody_history (s : State) : pageBody 1 s = some (byte s.log.ring.length :: s.log.ring.flatMap (fun e =>
    le 4 e.number.toNat ++ le 4 e.uptime.toNat ++ [e.cause.code, e.source.code,
      byte (e.tag.isSome.toNat + 2 * e.lbn.isSome.toNat + 4 * e.port.isSome.toNat + 8 * e.pbn.isSome.toNat),
      byte (match e.tag with | some t => t.val | none => 0)] ++ le 3 (e.lbn.getD 0) ++
    [byte (match e.port with | some p => p.val | none => 0)] ++ le 3 (e.pbn.getD 0) ++
    [byte e.attempts, byte e.recent.length] ++ e.recent.flatMap (fun h =>
      [byte h.tag.val, h.kind.code, byte (h.urgent.toNat + 2 * h.through.toNat + 4 * h.range.isSome.toNat)] ++
        le 3 (match h.range with | some g => g.first | none => 0) ++
        [byte (match h.range with | some g => g.count | none => 0)]))) := by
  rw [← funext headerBytes_fields, ← funext entryBytes_fields]
  rfl

theorem pageBody_stranded (s : State) : pageBody 4 s = some (byte (s.countSlots StagingSlot.isStranded) ::
    allSlots.flatMap (fun i => match s.slot i with
      | .stranded x _ _ r => byte i.val :: (le 3 x ++ [r.code])
      | _ => [])) := by
  have entries : strandedEntry s = fun i => match s.slot i with
      | .stranded x _ _ r => byte i.val :: (le 3 x ++ [r.code])
      | _ => [] := by
    funext i
    unfold strandedEntry
    cases s.slot i <;> rfl
  rw [← entries]
  rfl

/-- Settles O48. -/
theorem getLogResult : Obligations.GetLogResult := by
  refine fun s q h => ⟨fun body hb => ?_, fun p c hp hc => ?_, fun p c hp hc => ?_, pageBody_directory (acceptFrame s),
    pageBody_history (acceptFrame s), rfl, ?_, pageBody_stranded (acceptFrame s)⟩
  · exact exec_refuse h .getLog (by decide) body (takeGetLog_none (logFields_none hb) _)
  · exact exec_refuse h .getLog (by decide) [p, c] (takeGetLog_bad hp hc _)
  · obtain ⟨body, hb⟩ := pageBody_isSome hp (acceptFrame s)
    have taken := takeGetLog_page hc hb
    have whole : wholePage p body = p :: (le 2 body.length ++ body ++ [checksum (p :: (le 2 body.length ++ body))]) := rfl
    refine ⟨body, checksum (p :: (le 2 body.length ++ body)), hb,
      foldl_checksum (p :: (le 2 body.length ++ body)), fun hq => ?_, fun h1 h2 => ?_,
      fun h1 h3 => ?_⟩
    · refine exec_reported h .getLog (by decide) [p, c] (st := .ok) (taken.trans ?_)
      have keeps : (if c = 1 then clearPage p (acceptFrame s) else acceptFrame s) = acceptFrame s := by
        split
        next e =>
          have other : p ≠ 2 ∧ p ≠ 3 := hq.resolve_left (by rw [e]; decide)
          exact clearPage_other other.1 other.2 _
        next => rfl
      rw [keeps, whole]
    · subst h1 h2
      have answered : dispatch 0x60 [2, 1] (acceptFrame s) = answer .ok (2 :: 1 :: wholePage 2 body)
          ((acceptFrame s).setCounters LinkCounters.zero) := taken
      refine congrArg Host.Outcome.next ((acceptMessage_takes h 0x60 [2, 1] (by decide)).trans ?_)
      unfold processMessage
      rw [answered]
      rfl
    · subst h1 h3
      obtain ⟨v, hv, ports⟩ := clearStats_spec allPorts (acceptFrame s)
      refine ⟨v, ?_, fun x => (ports x).trans (if_pos (mem_allPorts x))⟩
      exact exec_answered h .getLog (by decide) [3, 1] (st := .ok) (t := { acceptFrame s with ports := v })
        (taken.trans (congrArg (answer .ok _) hv)) rfl
  · show some (statsBody s) = _
    simp only [statsBody, allPorts, PortStats.values, le32, List.flatMap_cons, List.flatMap_nil, List.append_assoc,
      List.append_nil]

end Sys2Proof.Machine
end

section
/-! PROOFS. The family 'other', SET-PARAMETER and the end of an event (R88, R89, R161, R162, R175, R179, R203, R219). -/

namespace Sys2Proof.Machine

/-! ## The checks of SET-PARAMETER -/

theorem parameterFields_none {body : List Byte} (h : body.length ≠ 3) : parameterFields body = none := by
  match body with
  | [] | [_] | [_, _] | _ :: _ :: _ :: _ :: _ => rfl
  | [_, _, _] => exact absurd rfl h

theorem legalValue_unknown {id : Nat} (h : id < 1 ∨ 9 < id) (v : Nat) : legalValue id v = false := by
  unfold legalValue
  split
  case h_10 => rfl
  all_goals omega

theorem legalValue_outside {i low high v : Nat} (hm : (i, low, high) ∈ ([(1, 0, 251), (2, 1, 255), (3, 5, 255), (4, 8, 31),
    (5, 0, 1), (6, 0, 1), (7, 0, 1023), (8, 0, 5), (9, 1, 8)] : List (Nat × Nat × Nat))) (h : v < low ∨ high < v) :
    legalValue (byte i).toNat v = false := by
  simp only [List.mem_cons, Prod.mk.injEq, List.not_mem_nil, or_false] at hm
  obtain ⟨rfl, rfl, rfl⟩ | ⟨rfl, rfl, rfl⟩ | ⟨rfl, rfl, rfl⟩ | ⟨rfl, rfl, rfl⟩ | ⟨rfl, rfl, rfl⟩ | ⟨rfl, rfl, rfl⟩ |
    ⟨rfl, rfl, rfl⟩ | ⟨rfl, rfl, rfl⟩ | ⟨rfl, rfl, rfl⟩ := hm
  all_goals
    simp only [byte, BitVec.toNat_ofNat, Nat.reducePow, Nat.reduceMod, legalValue, Bool.and_eq_false_iff,
      decide_eq_false_iff_not]
    omega

theorem exec_setParameter_bad {s : State} {q : Byte} (h : s.takes q) {i a b : Byte}
    (hv : legalValue i.toNat (leVal [a, b]) = false) :
    exec (.setParameter q [i, a, b]) s = .next (s.replied q [0x12, 0x0D, 0, 0, 0]) := by
  refine exec_reported h .setParameter (by decide) [i, a, b] (fs := zeros 3) (st := .badParameter) ?_
  exact if_neg (by rw [hv]; exact Bool.false_ne_true)

/-- A SET-PARAMETER that stores its value: what `applyParameter` leaves, and the value in the reply. -/
theorem exec_setParameter {s t : State} {q : Byte} (h : s.takes q) {i a b : Byte}
    (hv : legalValue i.toNat (leVal [a, b]) = true) (ht : applyParameter i.toNat (leVal [a, b]) (acceptFrame s) = t)
    (hl : t.link = (acceptFrame s).link) (hg : t.params.get i.toNat = some (leVal [a, b])) :
    exec (.setParameter q [i, a, b]) s =
      .next { t with link := s.link.replied q [0x12, 0x00, i, a, b] (parameterEffect i.toNat (leVal [a, b]) s) } := by
  subst ht
  have reply : parameterReply i.toNat (applyParameter i.toNat (leVal [a, b]) (acceptFrame s)) = [i, a, b] := by
    unfold parameterReply
    rw [hg, byte_toNat]
    exact congrArg (i :: ·) (le_leVal [a, b])
  have taken := exec_message h .setParameter (by decide) [i, a, b] _ _ _ (if_pos hv) hl
  rw [reply] at taken
  exact taken

/-! ## What the owners make of a new value -/

/-- The table of R162. -/
theorem State.idleExpiry_eq (s : State) : s.idleExpiry = if s.params.idleCode = 0 then none
    else if s.params.idleCode ≤ 200 then some (s.clock + s.params.idleCode * 100)
    else if s.params.idleCode ≤ 250 then some (s.clock + (s.params.idleCode - 200) * 10000)
    else if s.params.idleCode = 251 then some (s.clock + 900000) else none := by
  have carries : ∀ (c : Prop) [Decidable c] (a b : Option Nat),
      (if c then a else b).map s.ahead = if c then a.map s.ahead else b.map s.ahead := fun c _ a b => by
    split
    · rfl
    · rfl
  unfold State.idleExpiry idleDuration
  simp only [carries]
  rfl

theorem evalIdleRestart_runs {s : State} (h : s.idleAllows s.params.idleCode) :
    evalIdleRestart s = s.setIdleTimer s.idleExpiry := if_pos (s.idleConditions_iff.2 h)

theorem evalIdleRestart_stops {s : State} (h : ¬ s.idleAllows s.params.idleCode) :
    evalIdleRestart s = s.setIdleTimer none := if_neg (mt s.idleConditions_iff.1 h)

theorem evalPressure_holds {s : State} (h : s.staging.pressure = true) (hv : s.params.highWater < s.nonFree + 4) :
    evalPressure s = s := by
  unfold evalPressure
  rw [if_pos h, if_neg (by omega)]

theorem evalPressure_clears {s : State} (h : s.staging.pressure = true) (hv : s.nonFree + 4 ≤ s.params.highWater) :
    evalPressure s = { s with staging := { s.staging with pressure := false } } := by
  unfold evalPressure
  rw [if_pos h, if_pos hv]

theorem evalPressure_rests {s : State} (h : s.staging.pressure = false) (hv : s.nonFree < s.params.highWater) :
    evalPressure s = s := by
  unfold evalPressure
  rw [if_neg (by rw [h]; exact Bool.false_ne_true), if_neg (by omega)]

theorem evalPressure_sets {s : State} (h : s.staging.pressure = false) (hv : s.params.highWater ≤ s.nonFree) :
    evalPressure s = raiseSingle .stagingHigh (.count s.nonFree) { s with staging := { s.staging with pressure := true } } := by
  unfold evalPressure
  rw [if_neg (by rw [h]; exact Bool.false_ne_true), if_pos hv]

/-- A raising, by the notices it leaves. -/
theorem raise_spec (k : NoticeKey) (d : NoticeDetail) (s : State) : ∃ ns, raise k d s = { s with notices := ns } ∧
    ∀ j, ns.pending.find? (fun n => n.key = j) = if j = k then some (raisedOnce j d (s.notice j)) else s.notice j := by
  obtain ⟨ns, e⟩ := raise_eq k d s
  refine ⟨ns, e, fun j => ?_⟩
  have found := raise_notice k j d s
  rw [e] at found
  refine Eq.trans found ?_
  by_cases same : j = k
  · rw [same]
  · rw [if_neg same, if_neg same]

theorem evalAttn_eq (s : State) : evalAttn s = { s with notices := s.noticesWithout (fun _ => false) } := by
  have keeps : s.dropNotices (fun _ => false) = s := by
    have all : ∀ {α : Type} (l : List α), l.filter (fun _ => true) = l := fun l => List.filter_eq_self.2 fun _ _ => rfl
    have empty : s.notices.pending.filter (fun _ => false) = [] := List.filter_eq_nil_iff.2 fun _ _ k => by cases k
    simp only [State.dropNotices, empty, List.map_nil, List.contains_nil, Bool.not_false, all]
  rw [← dropNotices_eq, keeps]

theorem changeMode_eq (held : Bool) (s : State) : changeMode held s = { s with
    params := { s.params with held := held }
    notices := s.noticesWithout (fun n => s.params.held && !held && decide (n.report = .reported)) } := by
  unfold changeMode
  cases s.params.held && !held
  · exact evalAttn_eq _
  · exact dropNotices_eq _ _

/-! ## The end of an event -/

/-- Pressure at the end of an event. -/
theorem State.endsAs_pressure {s t : State} (h : s.endsAs t) :
    t.staging.pressure = pressureAfter s.staging.pressure (32 - s.countSlots StagingSlot.isFree) s.params.highWater := by
  obtain ⟨-, -, staging, -⟩ := h
  rw [staging]
  exact evalPressure_pressure s

theorem State.endsAs_notice {s t : State} (h : s.endsAs t) (k : NoticeKey) :
    t.notice k = if k = ⟨.stagingHigh, none⟩ ∧ s.staging.pressure = false ∧ t.staging.pressure = true
      then some (raisedOnce k (.count (32 - s.countSlots StagingSlot.isFree)) (s.notice k)) else s.notice k := by
  obtain ⟨-, -, staging, -, notices, -⟩ := h
  have found : t.notice k = (evalPressure s).notice k := by
    unfold State.notice
    rw [notices]
  rw [found, evalPressure_notice, staging]
  by_cases e : k = ⟨.stagingHigh, none⟩
  · have used : s.nonFree = 32 - s.countSlots StagingSlot.isFree := rfl
    cases hp : s.staging.pressure <;> simp [e, used]
  · simp [e]

theorem State.restsAs_idle {s t : State} (h : s.restsAs t) :
    (¬ t.idleAllows s.params.idleCode → t.power.idleTimer = none) ∧
      (t.idleAllows s.params.idleCode → t.power.idleTimer = s.power.idleTimer.or s.idleExpiry) := by
  obtain ⟨-, -, -, -, -, -, params, -, -, timer, -⟩ := h
  have allows : t.idleConditions = true ↔ t.idleAllows s.params.idleCode := by
    rw [← params]
    exact t.idleConditions_iff
  rw [timer]
  exact ⟨fun k => if_neg (mt allows.1 k), fun k => if_pos (allows.2 k)⟩

/-! ## SET-PARAMETER -/

/-- IDLE_CODE: the idle timer starts anew, or stops. -/
theorem exec_setIdleCode {s : State} {q a b : Byte} (h : s.takes q) (hv : leVal [a, b] ≤ 251) {e : Option Nat}
    (ht : evalIdleRestart ((acceptFrame s).setParams { s.params with idleCode := leVal [a, b] }) =
      ((acceptFrame s).setParams { s.params with idleCode := leVal [a, b] }).setIdleTimer e) :
    exec (.setParameter q [1, a, b]) s = .next (({ s with
      params := { s.params with idleCode := leVal [a, b] }
      power := { s.power with idleTimer := e } } : State).replied q [0x12, 0x00, 1, a, b]) :=
  (exec_setParameter h (i := 1) (decide_eq_true hv) ht rfl rfl).trans rfl

/-- HIGH_WATER: pressure is evaluated by the new value. -/
theorem exec_setHighWater {s : State} {q a b : Byte} (h : s.takes q) (h1 : 8 ≤ leVal [a, b]) (h2 : leVal [a, b] ≤ 31)
    {n : Notices} {p : Bool}
    (ht : evalPressure ((acceptFrame s).setParams { s.params with highWater := leVal [a, b] }) =
      { (acceptFrame s).setParams { s.params with highWater := leVal [a, b] } with
        notices := n, staging := { s.staging with pressure := p } }) :
    exec (.setParameter q [4, a, b]) s = .next (({ s with
      params := { s.params with highWater := leVal [a, b] }, staging := { s.staging with pressure := p }
      notices := n } : State).replied q [0x12, 0x00, 4, a, b]) :=
  (exec_setParameter h (i := 4) (by simp [legalValue, h1, h2]) ht rfl rfl).trans rfl

theorem toNat_decide_one {v : Nat} (h : v ≤ 1) : (decide (v = 1)).toNat = v := by
  obtain rfl | rfl : v = 0 ∨ v = 1 := by omega
  all_goals rfl

/-- NOTICE_ENABLE: the new mask. -/
theorem changeMask_eq (m : BitVec 16) (s : State) : changeMask m s = { s with
    params := { s.params with noticeEnable := m }
    notices := {
      pending := s.notices.pending
      order := s.notices.order.filter (fun k => m.getLsbD (k.kind.code - 1)) ++
        (s.notices.pending.filter (fun n => decide (n.report = .unreported) && m.getLsbD (n.key.kind.code - 1) &&
          !s.params.noticeEnable.getLsbD (n.key.kind.code - 1))).map (·.key)
      attn := s.link.lost || s.notices.pending.any (fun n => m.getLsbD (n.key.kind.code - 1)) } } := rfl

/-- Settles O45; the values inside the table come in the order of the table. -/
theorem setParameterResult : Obligations.SetParameterResult := by
  refine ⟨fun s q h => ⟨fun body hb => ?_, fun i a b hi => ?_, fun i low high a b hm hv => ?_, ?_⟩,
    fun s t e => ⟨s.endsAs_pressure e, s.endsAs_notice e⟩, fun s t e => ?_⟩
  · refine exec_reported h .setParameter (by decide) body (fs := zeros 3) (st := .malformed) ?_
    show takeSetParameter body (acceptFrame s) = _
    unfold takeSetParameter
    rw [parameterFields_none hb]
  · exact exec_setParameter_bad h (legalValue_unknown hi _)
  · exact exec_setParameter_bad h (legalValue_outside hm hv)
  · intro a b v with1 mode on
    refine ⟨fun hv e he => ⟨fun hk => ?_, fun hk => ?_⟩, fun h1 h2 => ?_, fun h1 h2 => ?_, fun h1 h2 => ?_, fun hv => ?_,
      fun hv => ?_, fun hv => ?_, fun hv => ?_, fun h1 h2 => ?_⟩
    · refine exec_setIdleCode h hv ((evalIdleRestart_runs hk).trans (congrArg _ ?_))
      refine (State.idleExpiry_eq _).trans (Eq.trans ?_ he.symm)
      show (if v = 0 then none else if v ≤ 200 then _ else if v ≤ 250 then _ else if v = 251 then _ else _) = _
      by_cases last : v = 251
      · rw [if_pos last]
        rfl
      · have small : v ≤ 250 := by omega
        rw [if_pos small, if_pos small]
        rfl
    · exact exec_setIdleCode h hv (evalIdleRestart_stops hk)
    · exact (exec_setParameter h (i := 2) (by simp [legalValue, v, h1, h2]) rfl rfl rfl).trans rfl
    · exact (exec_setParameter h (i := 3) (by simp [legalValue, v, h1, h2]) rfl rfl rfl).trans rfl
    · intro used marked
      let stored := (acceptFrame s).setParams { s.params with highWater := v }
      refine ⟨fun hp hu => ?_, fun hp hu => ?_, fun hp hu => ?_, fun hp hu => ?_⟩
      · have same : marked true = marked s.staging.pressure := congrArg marked hp.symm
        rw [same]
        exact exec_setHighWater h h1 h2 (evalPressure_holds (s := stored) hp hu)
      · exact exec_setHighWater h h1 h2 (evalPressure_clears (s := stored) hp hu)
      · have same : marked false = marked s.staging.pressure := congrArg marked hp.symm
        rw [same]
        exact exec_setHighWater h h1 h2 (evalPressure_rests (s := stored) hp hu)
      · obtain ⟨ns, raised, found⟩ := raise_spec ⟨.stagingHigh, none⟩ (.count used)
          { stored with staging := { s.staging with pressure := true } }
        exact ⟨ns, exec_setHighWater h h1 h2 ((evalPressure_sets (s := stored) hp hu).trans raised), found⟩
    · exact (exec_setParameter h (i := 5) (decide_eq_true hv) rfl rfl (congrArg some (toNat_decide_one hv))).trans rfl
    · exact (exec_setParameter h (i := 6) (decide_eq_true hv) (changeMode_eq _ _) rfl
        (congrArg some (toNat_decide_one hv))).trans rfl
    · exact (exec_setParameter h (i := 7) (decide_eq_true (Nat.lt_succ_of_le hv)) (changeMask_eq _ _) rfl
        (congrArg some (Nat.mod_eq_of_lt (by omega)))).trans rfl
    · refine (exec_setParameter h (i := 8) (decide_eq_true hv) rfl rfl rfl).trans ?_
      have effect : parameterEffect 8 v s = if v = s.params.linkRate then .nothing else .changeRate v := by
        simp [parameterEffect, ite_not]
      rw [← effect]
      rfl
    · exact (exec_setParameter h (i := 9) (by simp [legalValue, v, h1, h2]) rfl rfl rfl).trans rfl
  · obtain ⟨stops, runs⟩ := s.restsAs_idle e
    refine ⟨stops, fun k => ⟨fun m hm => ?_, fun hn => ?_⟩⟩
    · rw [runs k, hm]
      rfl
    · have nonzero : s.params.idleCode ≠ 0 := by
        obtain ⟨-, -, -, -, -, -, code⟩ := k
        exact code
      rw [runs k, hn, Option.none_or, s.idleExpiry_eq, if_neg nonzero]

end Sys2Proof.Machine
end

section
/-! PROOFS. The family 'other', the Link Controller: LINK-SYNC and the sequence check (R206, R208, R210), the receiver
(R204 to R207, R221, R222), the link reset (R216), the transmitter (R211, R215) and the resend timers (R213, R214). -/

namespace Sys2Proof.Machine

/-! ## A message after its CRC check (R206) -/

theorem routeMessage_discards {s : State} (h : s.link.resetWait ≠ .noReset ∨ s.link.heldMessage.isSome = true)
    (m : Message) : routeMessage m s = s := if_pos h

theorem routeMessage_holds {s : State} (hr : s.link.resetWait = .noReset) (hh : s.link.heldMessage = none)
    (hp : s.link.pendingReply.isSome = true) (m : Message) :
    routeMessage m s = { s with link := { s.link with heldMessage := some m } } := by
  unfold routeMessage
  rw [if_neg (by simp [hr, hh]), if_pos hp]

theorem routeMessage_takes {s : State} (hr : s.link.resetWait = .noReset) (hh : s.link.heldMessage = none)
    (hp : s.link.pendingReply = none) (m : Message) : routeMessage m s = takeMessage m s := by
  unfold routeMessage
  rw [if_neg (by simp [hr, hh]), if_neg (by simp [hp])]

/-! ## LINK-SYNC (R210) -/

theorem WindowEntry.synced_seq (x : Option Byte) (w : WindowEntry) : (w.synced x).seq = w.seq := rfl

theorem any_synced (x : Option Byte) (ws : List WindowEntry) (n : Byte) :
    (ws.map (WindowEntry.synced x)).any (fun w => w.seq = n) = ws.any (fun w => w.seq = n) := by
  rw [List.any_map]
  rfl

theorem Transmission.synced_map (y : Option Byte) (ws : List WindowEntry) (x : Transmission) :
    x.synced (ws.map (WindowEntry.synced y)) = x.synced ws := by
  obtain ⟨what, f⟩ := x
  cases what with
  | reply e => rfl
  | report n due => simp only [Transmission.synced, any_synced]

/-- What a well-formed LINK-SYNC leaves. -/
theorem linkSynced_eq (q : Byte) (s : State) : linkSynced q s = { s with
    notices := { s.notices with attn := s.anyEnabled s.notices.pending }
    link := { s.link with
      expected := q + 1, lost := false
      cache := some ⟨q, [0x15, 0x00, q + 1, byte s.link.window.length], .nothing⟩
      pendingReply := some ⟨q, [0x15, 0x00, q + 1, byte s.link.window.length], .nothing⟩
      window := s.link.window.map (WindowEntry.synced s.sendingReport)
      transmission := s.link.transmission.map (Transmission.synced s.link.window) } } := by
  have frames : s.link.transmission.map (Transmission.synced (s.link.window.map (WindowEntry.synced s.sendingReport))) =
      s.link.transmission.map (Transmission.synced s.link.window) := by
    rw [funext (Transmission.synced_map s.sendingReport s.link.window)]
  rw [← frames, ← List.length_map (as := s.link.window) (WindowEntry.synced s.sendingReport)]
  rfl

/-- Settles O49; the three forms of what the transmitter holds are the cases. -/
theorem linkSyncResult : Obligations.LinkSyncResult := by
  intro s q hs hr hh hp
  have routed : ∀ body, exec (.linkSync q body) s = .next (takeLinkSync ⟨0x15, q, body⟩ (acceptFrame s)) := fun body =>
    congrArg Host.Outcome.next ((acceptMessage_receives hs 0x15 q body).trans (routeMessage_takes (s := acceptFrame s) hr hh hp _))
  refine ⟨fun body hb => (routed body).trans ?_, ?_⟩
  · cases body with
    | nil => exact absurd rfl hb
    | cons b bs => rfl
  · intro sending reply
    have report : (acceptFrame s).sendingReport = sending := by
      show s.sendingReport = _
      unfold State.sendingReport sending
      obtain _ | ⟨_ | _, _⟩ := s.link.transmission <;> rfl
    have frame : (acceptFrame s).link.transmission.map (Transmission.synced s.link.window) =
        match s.link.transmission with
          | some ⟨.report n _, f⟩ => some ⟨.report n (s.link.window.any (fun w => w.seq = n)), f⟩
          | x => x := by
      show s.link.transmission.map _ = _
      obtain _ | ⟨_ | _, _⟩ := s.link.transmission <;> rfl
    refine (routed []).trans (congrArg Host.Outcome.next ((linkSynced_eq q (acceptFrame s)).trans ?_))
    rw [report, show (acceptFrame s).link.window = s.link.window from rfl, frame]
    rfl

/-! ## The sequence check (R208) -/

theorem takeMessage_repeats {s : State} {m : Message} (hk : m.kind ≠ 0x15) (he : m.seq ≠ s.link.expected)
    (hn : m.seq + 1 = s.link.expected) {r : Reply} (hr : s.link.cache = some r) : takeMessage m s = resendReply r s := by
  rw [takeMessage_check m hk]
  unfold checkSequence
  rw [if_neg he, if_pos hn, hr]

theorem takeMessage_sequenceError {s : State} {m : Message} (hk : m.kind ≠ 0x15) (he : m.seq ≠ s.link.expected)
    (hn : m.seq + 1 ≠ s.link.expected ∨ s.link.cache = none) : takeMessage m s = sequenceError m s := by
  rw [takeMessage_check m hk]
  unfold checkSequence
  rw [if_neg he]
  split
  next e =>
    have empty : s.link.cache = none := hn.resolve_left fun k => k e
    rw [empty]
  next => rfl

theorem releaseHeld_none {s : State} (h : s.link.heldMessage = none) : releaseHeld s = s := by
  unfold releaseHeld
  rw [h]

theorem releaseHeld_waits {s : State} {m : Message} (h : s.link.heldMessage = some m)
    (hw : s.link.pendingReply.isSome = true ∨ s.link.resetWait ≠ .noReset) : releaseHeld s = s := by
  unfold releaseHeld
  rw [h]
  exact if_pos hw

theorem releaseHeld_takes {s : State} {m : Message} (h : s.link.heldMessage = some m) (hp : s.link.pendingReply = none)
    (hr : s.link.resetWait = .noReset) :
    releaseHeld s = takeMessage m { s with link := { s.link with heldMessage := none } } := by
  unfold releaseHeld
  rw [h]
  exact if_neg (by simp [hp, hr])

/-- Settles O50. -/
theorem sequenceCheckResult : Obligations.SequenceCheckResult := by
  intro s c k q body hc
  have deaf : s.receives = false → exec c s = .next s := fun h =>
    (exec_carries hc s).trans (congrArg Host.Outcome.next (if_neg (by rw [h]; exact Bool.false_ne_true)))
  have routed : s.receives = true → exec c s = .next (routeMessage ⟨k, q, body⟩ (acceptFrame s)) := fun h =>
    (exec_carries hc s).trans (congrArg Host.Outcome.next (acceptMessage_receives h k q body))
  refine ⟨deaf, fun h => ⟨fun hd => ?_, fun hr hh => ⟨fun hp => ?_, fun hp => ?_, fun hp hk hq => ⟨fun r hn hc => ?_,
    fun hn => ?_⟩⟩⟩, fun hl => ⟨fun h => ?_, fun m h hw => ?_, fun h hp hr => ?_⟩⟩
  · exact (routed h).trans (congrArg Host.Outcome.next (routeMessage_discards (s := acceptFrame s) hd _))
  · exact (routed h).trans (congrArg Host.Outcome.next (routeMessage_holds (s := acceptFrame s) hr hh hp _))
  · exact (routed h).trans (congrArg Host.Outcome.next (routeMessage_takes (s := acceptFrame s) hr hh hp _))
  · rw [routed h, routeMessage_takes (s := acceptFrame s) hr hh hp,
      takeMessage_repeats (s := acceptFrame s) (m := ⟨k, q, body⟩) hk hq hn hc]
    rfl
  · rw [routed h, routeMessage_takes (s := acceptFrame s) hr hh hp,
      takeMessage_sequenceError (s := acceptFrame s) (m := ⟨k, q, body⟩) hk hq hn]
    rfl
  · exact (live_high hl releaseHeld).trans (congrArg Host.Outcome.next (releaseHeld_none h))
  · exact (live_high hl releaseHeld).trans (congrArg Host.Outcome.next (releaseHeld_waits h hw))
  · exact (live_high hl releaseHeld).trans (congrArg Host.Outcome.next (releaseHeld_takes h hp hr))

/-! ## The receiver (R204 to R207, R221, R222) -/

/-- The command of a MESSAGE whose CRC matches carries its kind, sequence byte and body. -/
theorem acceptedCommand_carries (k q : Byte) (body : List Byte) : carries (acceptedCommand q (k :: body)) k q body := by
  unfold acceptedCommand messageCommand
  dsimp only
  cases e : MsgKind.ofCode k with
  | none => exact .inr ⟨e, rfl⟩
  | some m => exact .inl ⟨m, MsgKind.eq_code_of_ofCode e, rfl⟩

theorem headerFate_message {n : Nat} (h1 : 1 ≤ n) (h2 : n ≤ 300) : headerFate 0x01 n = .body := by
  unfold headerFate
  rw [if_pos (show (0x01 : Byte) = messageType from rfl), if_neg (by omega),
    if_neg (show ¬ Config.maxMessage < n from Nat.not_lt.2 h2)]

theorem headerFate_oversize {n : Nat} (h : 300 < n) : headerFate 0x01 n = .oversize := by
  unfold headerFate
  rw [if_pos (show (0x01 : Byte) = messageType from rfl), if_neg (by omega), if_pos (show Config.maxMessage < n from h)]

theorem headerFate_bad {ty : Byte} {n : Nat} (h : (ty = 0x01 ∧ n = 0) ∨ (ty = 0x04 ∧ n ≠ 0) ∨ (ty ≠ 0x01 ∧ ty ≠ 0x04)) :
    headerFate ty n = .bad := by
  unfold headerFate
  obtain ⟨rfl, rfl⟩ | ⟨rfl, hn⟩ | ⟨h1, h4⟩ := h
  · rfl
  · rw [if_neg (by decide), if_neg fun k => hn k.2]
  · rw [if_neg (show ty ≠ messageType from h1), if_neg fun k => h4 k.1]

/-- What the receiver makes of a frame, after noise. -/
theorem receivedCommand_frame {noise : List Byte} (h : ∀ b ∈ noise, b ≠ 0xC7) (b0 b1 ty : Byte) (l : List Byte) :
    receivedCommand (noise ++ 0xC7 :: b0 :: b1 :: ty :: l) = match headerFate ty (b0.toNat + 256 * b1.toNat) with
      | .bad => some (.framingError .badHeader, l)
      | .oversize => some (.oversizeFrame (b0.toNat + 256 * b1.toNat), l)
      | .body => takeBody [b0, b1, ty] (b0.toNat + 256 * b1.toNat) l :=
  (receivedCommand_start h _).trans (takeFrame_header b0 b1 ty l)

theorem exec_skippingEnd {s : State} (h : s.resetLow = false) : exec .skippingEnd s = .next
    (if s.link.receiver.isSkipping then { s with link := { s.link with receiver := .hunting } } else s) :=
  live_high h fun t => if t.link.receiver.isSkipping then { t with link := { t.link with receiver := .hunting } } else t

theorem exec_breakEnd {s : State} (h : s.resetLow = false) : exec .breakEnd s = .next
    (if s.link.rxdLow then { s with link := { s.link with rxdLow := false, receiver := .hunting } } else s) :=
  live_high h fun t =>
    if t.link.rxdLow then { t with link := { t.link with rxdLow := false, receiver := .hunting } } else t

theorem Receiver.isSkipping_false {r : Receiver} (h : ∀ n, r ≠ .skipping n) : r.isSkipping = false := by
  cases r with
  | skipping n => exact absurd rfl (h n)
  | hunting | header | body => rfl

/-- Settles O51. -/
theorem receiverEventsResult : Obligations.ReceiverEventsResult := by
  refine ⟨fun s => ⟨fun h => ⟨?_, fun cause => ?_, fun n hn => ?_, fun n hn => ?_⟩, fun h => ?_, fun h => ⟨fun n hn => ?_,
    fun hn => ?_, fun hl => ?_, fun hl => ?_⟩⟩, by decide +kernel, fun noise rest b0 b1 q hnoise => ?_⟩
  · exact congrArg Host.Outcome.next (if_pos h)
  · exact congrArg Host.Outcome.next (if_pos h)
  · exact congrArg Host.Outcome.next (if_pos ⟨h, hn⟩)
  · exact congrArg Host.Outcome.next (if_neg fun k => Nat.not_lt.2 hn k.2)
  · have deaf : s.receives ≠ true := by
      rw [h]
      exact Bool.false_ne_true
    exact ⟨congrArg Host.Outcome.next (if_neg deaf), fun _ => congrArg Host.Outcome.next (if_neg deaf),
      fun _ => congrArg Host.Outcome.next (if_neg fun k => deaf k.1)⟩
  · rw [exec_skippingEnd h, hn]
    rfl
  · rw [exec_skippingEnd h, Receiver.isSkipping_false hn]
    rfl
  · rw [exec_breakEnd h, hl]
    rfl
  · rw [exec_breakEnd h, hl]
    rfl
  · intro n
    refine ⟨receivedCommand_noise hnoise, fun kind x y body h300 hl => ?_, fun x y hn => ?_, fun hn => ?_, fun ty hty => ?_,
      fun ty tail hty ht => ?_⟩
    · intro crc
      have brought : receivedCommand (noise ++ 0xC7 :: b0 :: b1 :: 0x01 :: q :: kind :: (body ++ x :: y :: rest)) =
          some (if x.toNat + 256 * y.toNat = crc.toNat then acceptedCommand q (kind :: body) else .frameCrcError, rest) := by
        rw [receivedCommand_frame hnoise, headerFate_message (by omega) h300]
        exact takeBody_whole [b0, b1, 0x01] (kind :: body) rest q x y hl
      refine ⟨_, brought, fun e => ?_, fun e => if_neg e⟩
      rw [if_pos e]
      exact acceptedCommand_carries kind q body
    · rw [receivedCommand_frame hnoise, show b0.toNat + 256 * b1.toNat = 0 from hn]
      exact takeBody_whole [b0, b1, 0x04] [] rest q x y rfl
    · rw [receivedCommand_frame hnoise, headerFate_oversize hn]
    · rw [receivedCommand_frame hnoise, headerFate_bad hty]
    · rw [receivedCommand_frame hnoise]
      obtain ⟨rfl, h1, h2⟩ | ⟨rfl, hn⟩ := hty
      · rw [headerFate_message h1 h2]
        exact takeBody_part [b0, b1, 0x01] tail q ht
      · rw [show headerFate 0x04 (b0.toNat + 256 * b1.toNat) = .body by rw [show b0.toNat + 256 * b1.toNat = 0 from hn]; rfl]
        exact takeBody_part [b0, b1, 0x04] tail q ht

end Sys2Proof.Machine
end

section
/-! PROOFS. The family 'other', the link reset (R216), the transmitter (R211, R215) and the resend timers (R213, R214). -/

namespace Sys2Proof.Machine

/-! ## The link reset (R216) -/

/-- The five parts of a link reset and the notices, before pressure and the idle timer are evaluated. -/
theorem resetParts_eq (b : Bool) (s : State) :
    unreportAll (resetPark (resetFilling (resetMover (resetTable (resetConversation b s))))) = { s with
      params := { s.params with linkRate := if b then 0 else s.params.linkRate }
      link := ⟨.hunting, s.link.rxdLow, if b then 0 else s.params.linkRate, 0, none, none, none, none, .noReset, 0, [], false,
        { s.link.counters with linkResets := satInc s.link.counters.linkResets }⟩
      table := ⟨Vector.replicate 16 none, [], [], s.table.counter, none⟩
      mover := ⟨Vector.replicate 16 none, Vector.replicate 16 none, Vector.replicate 8 .free, [], []⟩
      staging := { s.staging with slots := s.staging.slots.map (fun x => if x.isFilling then .free else x) }
      power := if s.power.state = .parking ∨ s.power.state = .parked then
        { s.power with state := .active, marks := Vector.replicate 4 .clear } else s.power
      notices := {
        pending := s.notices.pending.map (fun n => { n with report := .unreported })
        order := (s.notices.pending.filter (fun n => s.params.noticeEnable.getLsbD (n.key.kind.code - 1))).map (·.key)
        attn := s.anyEnabled s.notices.pending } } := by
  rw [unreportAll_eq, resetPark_eq, resetFilling_eq]
  rfl

/-- The Link Controller after a link reset of a state whose RXD is low as `low` says. -/
theorem resetLink_link (b : Bool) (s : State) : (resetLink b s).link = ⟨.hunting, s.link.rxdLow,
    if b then 0 else s.params.linkRate, 0, none, none, none, none, .noReset, 0, [], false,
    { s.link.counters with linkResets := satInc s.link.counters.linkResets }⟩ := by
  unfold resetLink
  rw [settleStaging_link, resetParts_eq]

/-- A link reset ends the event of its five parts. -/
theorem resetLink_ends (b : Bool) (s : State) : ({ s with
    params := { s.params with linkRate := if b then 0 else s.params.linkRate }
    link := (resetLink b s).link
    table := ⟨Vector.replicate 16 none, [], [], s.table.counter, none⟩
    mover := ⟨Vector.replicate 16 none, Vector.replicate 16 none, Vector.replicate 8 .free, [], []⟩
    staging := { s.staging with slots := s.staging.slots.map (fun x => if x.isFilling then .free else x) }
    power := if s.power.state = .parking ∨ s.power.state = .parked then
      { s.power with state := .active, marks := Vector.replicate 4 .clear } else s.power
    notices := {
      pending := s.notices.pending.map (fun n => { n with report := .unreported })
      order := (s.notices.pending.filter (fun n => s.params.noticeEnable.getLsbD (n.key.kind.code - 1))).map (·.key)
      attn := s.anyEnabled s.notices.pending } } : State).endsAs (resetLink b s) := by
  rw [resetLink_link]
  unfold resetLink
  rw [resetParts_eq]
  exact endsAs_settleStaging _

/-- Settles O52. -/
theorem linkResetResult : Obligations.LinkResetResult := by
  intro s h after
  have broken (f : State → State) (t : State) (e : f s = t) : live f s = .next t :=
    (live_high h f).trans (congrArg Host.Outcome.next e)
  refine ⟨fun hl => ⟨_, broken declareBreak _ (if_neg (by rw [hl]; decide)), ?_, ?_⟩,
    fun hl => broken declareBreak s (if_pos hl),
    fun hd => ⟨_, broken (fun t => if t.link.resetWait = .due then resetLink false t else t) _ (if_pos hd), ?_, ?_⟩,
    fun hd => broken (fun t => if t.link.resetWait = .due then resetLink false t else t) s (if_neg hd)⟩
  · rw [resetLink_link, Bool.or_true]
    rfl
  · exact resetLink_ends true { s with link := { s.link with
      rxdLow := true, counters := { s.link.counters with breaks := satInc s.link.counters.breaks } } }
  · rw [resetLink_link, Bool.or_false]
    rfl
  · exact resetLink_ends false s

/-! ## The outbound arbiter (R211, R215) -/

theorem chooseOutbound_busy {s : State} (h : s.link.transmission.isSome = true) : chooseOutbound s = s := if_pos h

theorem chooseOutbound_reply {s : State} (h : s.link.transmission = none) {r : Reply} (hr : s.link.pendingReply = some r) :
    chooseOutbound s = sendReply r s := by
  unfold chooseOutbound
  rw [if_neg (by simp [h]), hr]

theorem chooseOutbound_quiet {s : State} (hp : s.link.pendingReply = none)
    (hq : s.link.resetWait ≠ .noReset ∨ s.link.lost = true) : chooseOutbound s = s := by
  unfold chooseOutbound
  split
  next => rfl
  next =>
    rw [hp]
    refine if_neg fun k => hq.elim (fun r => r k.1) fun l => ?_
    rw [k.2] at l
    cases l

theorem chooseOutbound_report {s : State} (h : s.link.transmission = none) (hp : s.link.pendingReply = none)
    (hr : s.link.resetWait = .noReset) (hl : s.link.lost = false) : chooseOutbound s = chooseReport s := by
  unfold chooseOutbound
  rw [if_neg (by simp [h]), hp]
  exact if_pos ⟨hr, hl⟩

theorem chooseReport_again {s : State} {w : WindowEntry} (h : s.dueReport = some w) : chooseReport s = sendAgain w s := by
  unfold chooseReport
  rw [h]

theorem chooseReport_full {s : State} (h : s.dueReport = none) (hr : s.windowRoom = false) : chooseReport s = s := by
  unfold chooseReport
  rw [h]
  exact if_neg (by rw [hr]; decide)

theorem chooseReport_new {s : State} (h : s.dueReport = none) (hr : s.windowRoom = true) {o : ReportOwner} {b : List Byte}
    {t : State} (hn : newReport s = some (o, b, t)) : chooseReport s = sendReport o b t := by
  unfold chooseReport
  rw [h]
  dsimp only
  rw [if_pos hr, hn]

theorem chooseReport_nothing {s : State} (h : s.dueReport = none) (hn : newReport s = none) : chooseReport s = s := by
  unfold chooseReport
  rw [h]
  dsimp only
  rw [hn]
  split <;> rfl

theorem newReport_completion {s : State} {t : Tag} {rest : List Tag} {r : Request}
    (h : s.table.completionOrder = t :: rest) (hr : s.request t = some r) :
    newReport s = some (.completion t, completionPayload t r,
      { s with table := { s.table with completionOrder := rest } }) := by
  simp only [newReport, offerCompletion, h, hr, Option.map_some, Option.some_or]

theorem newReport_notice {s : State} (hc : s.table.completionOrder = []) {k : NoticeKey} {rest : List NoticeKey}
    (h : s.notices.order = k :: rest) {n : Notice} (hn : s.notice k = some n) :
    newReport s = some (.notice k, noticePayload n, sendNotice s.link.reportSeq n s) := by
  simp only [newReport, offerCompletion, hc, offerNotice, h, hn, Option.map_some, Option.none_or, Option.some_or]

theorem newReport_grant {s : State} (hc : s.table.completionOrder = []) (ho : s.notices.order = []) {t : Tag}
    {rest : List Tag} (h : s.mover.grantOrder = t :: rest) {w : WriteRecord} (hw : s.writeRecord t = some w) {g : Grant}
    (hg : w.grant = some g) : newReport s = some (.grant t, grantPayload t g, (s.setWriteRecord t (some { w with
      grant := some { g with report := .inWindow s.link.reportSeq } })).setGrantOrder rest) := by
  simp only [newReport, offerCompletion, hc, offerNotice, ho, offerGrant, h, hw, hg, Option.map_some, Option.none_or,
    Option.some_or]

/-- With no completion, notice or grant to report, the READ-DATA candidate is the new report. -/
theorem newReport_readData {s : State} (hc : s.table.completionOrder = []) (ho : s.notices.order = [])
    (hg : s.mover.grantOrder = []) : newReport s = offerReadData s := by
  simp only [newReport, offerCompletion, hc, offerNotice, ho, offerGrant, hg, Option.none_or]

theorem newReport_filled {s : State} (hc : s.table.completionOrder = []) (ho : s.notices.order = [])
    (hg : s.mover.grantOrder = []) {r : RetNo} {rest : List RetNo} (hf : s.mover.fillOrder = r :: rest) {o : Owner}
    {i x : Nat} {d : List Byte} (hr : s.returnSlot r = .filled o i x d) : newReport s =
      some (.readData r, readDataPayload o i d, (s.setReturnSlot r (.sent o i x d)).setFillOrder rest) := by
  rw [newReport_readData hc ho hg]
  unfold offerReadData
  rw [hf]
  dsimp only
  rw [hr]

theorem completionPayload_eq (t : Tag) {r : Request} {st : CompletionStatus} (h : r.status = some st) :
    completionPayload t r = 0x80 :: byte t.val :: st.code :: byte r.blocksDone :: flagByte r.failingLbn.isSome ::
      le 3 (r.failingLbn.getD 0) := by
  simp only [completionPayload, h, presenceBits_one, optField]
  rfl

theorem noticePayload_eq (n : Notice) : noticePayload n =
    0x83 :: byte n.key.kind.code :: (match n.key.port with | some p => byte p.val | none => 0xFF) ::
      byte n.count :: detailBytes n.detail := by
  unfold noticePayload
  cases n.key.port <;> rfl

theorem State.dueReport_first {s : State} {older newer : List WindowEntry} {w : WindowEntry}
    (h : s.link.window = older ++ w :: newer) (ho : ∀ x ∈ older, x.due = .notDue) (hw : w.due ≠ .notDue) :
    s.dueReport = some w := by
  have first : firstOf s.link.window (fun x => x.due ≠ .notDue) w := ⟨older, newer, h, hw, fun x hx k => k (ho x hx)⟩
  exact (find_firstOf (f := fun x => decide (x.due ≠ .notDue)) (fun x => decide_eq_true_iff) w).2 first

theorem State.dueReport_none {s : State} (h : ∀ x ∈ s.link.window, x.due = .notDue) : s.dueReport = none :=
  List.find?_eq_none.2 fun x hx => by simp [h x hx]

/-- Settles O53. -/
theorem outboundChoiceResult : Obligations.OutboundChoiceResult := by
  intro s h
  have chosen : ∀ t, chooseOutbound s = t → exec .outboundChoice s = .next t := fun t e =>
    (live_high h chooseOutbound).trans (congrArg Host.Outcome.next e)
  refine ⟨fun hb => chosen _ (chooseOutbound_busy hb), fun ht => ⟨fun r hr => chosen _ (chooseOutbound_reply ht hr),
    fun hp hq => chosen _ (chooseOutbound_quiet hp hq), fun hp hr hl => ?_⟩⟩
  have report : ∀ t, chooseReport s = t → exec .outboundChoice s = .next t := fun t e =>
    chosen t ((chooseOutbound_report ht hp hr hl).trans e)
  refine ⟨fun older w newer hw ho hd => report _ (chooseReport_again (State.dueReport_first hw ho hd)), fun hd => ?_⟩
  have none_due := State.dueReport_none hd
  intro room sent
  have roomy : s.windowRoom = true ↔ room := s.windowRoom_iff
  refine ⟨fun hn => report _ (chooseReport_full none_due (by rwa [← Bool.not_eq_true, roomy])), fun hroom => ?_⟩
  have fresh : ∀ o b t, newReport s = some (o, b, t) → exec .outboundChoice s = .next (sendReport o b t) := fun o b t e =>
    report _ (chooseReport_new none_due (roomy.2 hroom) e)
  refine ⟨fun t rest r st hc hr hst => ?_, fun hc => ⟨fun k rest n hk hn => ?_, fun ho => ⟨fun t rest w g hg hw hwg => ?_,
    fun hg => ⟨fun r rest o i x d hf hr => ?_, fun hf => report _ (chooseReport_nothing none_due ?_)⟩⟩⟩⟩
  · rw [fresh _ _ _ (newReport_completion hc hr), completionPayload_eq t hst]
    rfl
  · obtain rfl := State.notice_key hn
    rw [fresh _ _ _ (newReport_notice hc hk hn), noticePayload_eq]
    rfl
  · exact fresh _ _ _ (newReport_grant hc ho hg hw hwg)
  · exact fresh _ _ _ (newReport_filled hc ho hg hf hr)
  · refine (newReport_readData hc ho hg).trans ?_
    unfold offerReadData
    rw [hf]

/-! ## The end of a transmission (R203, R210, R213) -/

theorem endTransmission_none {s : State} (h : s.link.transmission = none) : endTransmission s = s := by
  unfold endTransmission
  rw [h]

theorem endTransmission_reply {s : State} {e : ReplyEffect} {f : List Byte} (h : s.link.transmission = some ⟨.reply e, f⟩) :
    endTransmission s = replySent e { s with link := { s.link with transmission := none } } := by
  unfold endTransmission
  rw [h]

theorem endTransmission_report {s : State} {n : Byte} {due : Bool} {f : List Byte}
    (h : s.link.transmission = some ⟨.report n due, f⟩) : endTransmission s = { s with link := { s.link with
      transmission := none
      window := if s.link.lost then s.link.window else s.link.window.map (fun w => if w.seq = n then
          (if due then { w with due := .bySync } else { w with timer := some (s.clock + s.params.reportTimeout) })
        else w) } } := by
  unfold endTransmission
  rw [h]
  dsimp only
  unfold reportSent
  cases s.link.lost <;> cases due <;> rfl

/-! ## The resend timers (R213, R214) -/

theorem State.report_none {s : State} {n : Byte} (h : ∀ w ∈ s.link.window, w.seq ≠ n) : s.report n = none :=
  List.find?_eq_none.2 fun w hw => by simp [h w hw]

theorem State.report_first {s : State} {older newer : List WindowEntry} {w : WindowEntry}
    (h : s.link.window = older ++ w :: newer) (ho : ∀ x ∈ older, x.seq ≠ w.seq) : s.report w.seq = some w := by
  have first : firstOf s.link.window (fun x => x.seq = w.seq) w := ⟨older, newer, h, rfl, ho⟩
  exact (find_firstOf (f := fun x => decide (x.seq = w.seq)) (fun x => decide_eq_true_iff) w).2 first

theorem reportTimerExpires_none {s : State} {n : Byte} (h : s.report n = none) : reportTimerExpires n s = s := by
  unfold reportTimerExpires
  rw [h]

/-- A report whose timer does not run, or has not reached its moment. -/
theorem reportTimerExpires_early {s : State} {n : Byte} {w : WindowEntry} (h : s.report n = some w)
    (ht : ∀ m, w.timer = some m → s.clock < m) : reportTimerExpires n s = s := by
  unfold reportTimerExpires
  rw [h]
  dsimp only
  split
  next => rfl
  next m e =>
    refine if_neg ?_
    rw [State.reached, decide_eq_true_eq]
    exact Nat.not_le.2 (ht m e)

theorem reportTimerExpires_due {s : State} {n : Byte} {w : WindowEntry} (h : s.report n = some w) {m : Nat}
    (ht : w.timer = some m) (hm : m ≤ s.clock) : reportTimerExpires n s =
      if w.resends < 3 then mapReport n (fun x => { x with timer := none, due := .byExpiry }) s else declareLost s := by
  unfold reportTimerExpires
  rw [h]
  dsimp only
  rw [ht]
  exact if_pos (decide_eq_true hm)

/-- LOST: the link, the history entry, the notice and ATTN. -/
theorem declareLost_spec (s : State) : ∃ ns, declareLost s = { s with
      link := { s.link with
        lost := true
        window := s.link.window.map (fun x => { x with timer := none, due := .notDue })
        counters := { s.link.counters with linkLostEvents := satInc s.link.counters.linkLostEvents } }
      log := { s.log with
        ring := (⟨s.log.nextNumber, s.log.uptime, .linkLost, .link, none, none, none, none, 4, s.log.recent⟩ ::
          s.log.ring).take 12
        nextNumber := if s.log.nextNumber = 0xFFFFFFFF then 1 else s.log.nextNumber + 1 }
      notices := ns } ∧ ns.attn = true ∧
    (∀ k, ns.pending.find? (fun x => x.key = k) = if k = ⟨.logAdded, none⟩
      then some (raisedOnce k (.number s.log.nextNumber) (s.notice k)) else s.notice k) := by
  obtain ⟨n, entry, found⟩ := addEntry_entry ⟨.linkLost, .link, none, none, none, none, 4⟩ { s with link := { s.link with
    lost := true, window := s.link.window.map WindowEntry.stopped
    counters := { s.link.counters with linkLostEvents := satInc s.link.counters.linkLostEvents } } }
  refine ⟨{ n with attn := true }, ?_, rfl, found⟩
  exact (congrArg evalAttn entry).trans rfl

/-- Settles O54. -/
theorem transmissionAndTimersResult : Obligations.TransmissionAndTimersResult := by
  intro s h
  have ended : ∀ t, endTransmission s = t → exec .transmissionEnd s = .next t := fun t e =>
    (live_high h endTransmission).trans (congrArg Host.Outcome.next e)
  have expired : ∀ n t, reportTimerExpires n s = t → exec (.reportTimerExpiry n) s = .next t := fun n t e =>
    (live_high h (reportTimerExpires n)).trans (congrArg Host.Outcome.next e)
  refine ⟨fun ht => ended _ (endTransmission_none ht), fun f ht => ended _ (endTransmission_reply ht),
    fun f rate ht => ended _ (endTransmission_reply ht), fun f ht => ended _ (endTransmission_reply ht),
    fun n due f ht => ended _ (endTransmission_report ht),
    fun n hn => expired _ _ (reportTimerExpires_none (State.report_none hn)), fun older w newer hw ho => ?_⟩
  have first := State.report_first hw ho
  refine ⟨fun ht => expired _ _ (reportTimerExpires_early first ht), fun m ht hm => ⟨fun hr => ?_, fun hr => ?_⟩⟩
  · exact expired _ _ ((reportTimerExpires_due first ht hm).trans (if_pos hr))
  · obtain ⟨ns, lost, attn, found⟩ := declareLost_spec s
    exact ⟨ns, expired _ _ ((reportTimerExpires_due first ht hm).trans ((if_neg (Nat.not_lt.2 hr)).trans lost)), attn, found⟩

end Sys2Proof.Machine
end

section
/-! PROOFS. The family 'other', holds released (R33, R34) and the acknowledgment of a report (R43, R52, R53, R59, R64, R177,
R178, R212). -/

namespace Sys2Proof.Machine

/-! ## HOLD_RELEASE (R33, R34) -/

/-- What stays of a request, and what a HELD one comes to. -/
theorem SameRequest.held_left {r : Request} {y : Option Request} (h : SameRequest (some r) y) (hs : r.state = .held) :
    ∃ q, y = some q ∧ (q.state = .reporting ∨ (q.state = .held ∧ q.holdList = r.holdList) ∨
      (r.holdList = [] ∧ q.state ≠ .held)) := by
  cases y with
  | none => exact h.elim
  | some q => exact ⟨q, rfl, h.2.2.2 hs⟩

theorem ReqState.laterStates_of_left {a : ReqState} (h : a ∈ ReqState.held.laterStates) (hn : a ≠ .held) :
    a ∈ ReqState.active.laterStates := by
  cases a with
  | held => exact absurd rfl hn
  | active | settling | aborting | reporting => decide

/-- Settles O33. -/
theorem holdReleaseResult : Obligations.HoldReleaseResult := by
  intro s h table
  have calm := calm_releaseHolds s
  have nonempty := fun t r => releaseHolds_held table t r
  refine ⟨_, live_high h fun t => settleStaging (releaseHolds t), ?_, ?_, ?_, ?_, ?_, ?_⟩
  · simpa only [settleStaging_request] using nonempty
  · intro t r hr
    have same := calm.requests t
    rw [hr] at same
    obtain ⟨q, hq, kind, range, -, -, admission, state⟩ := same.some_left
    refine ⟨q, (settleStaging_request _ t).trans hq, kind, range, admission, fun hs hl => ?_, fun hs hl => ?_⟩
    · rw [hs] at state
      refine ReqState.laterStates_of_left state fun held => ?_
      obtain ⟨p, hp, ended | ⟨-, list⟩ | ⟨-, left⟩⟩ := same.held_left hs
      all_goals obtain rfl : q = p := Option.some.inj (hq.symm.trans hp)
      · rw [held] at ended
        cases ended
      · exact nonempty t q hq held (list.trans hl)
      · exact left held
    · obtain ⟨p, hp, ended | stays | ⟨empty, -⟩⟩ := same.held_left hs
      all_goals obtain rfl : q = p := Option.some.inj (hq.symm.trans hp)
      · exact .inl ended
      · exact .inr stays
      · exact absurd empty hl
  · intro t ht
    have same := calm.requests t
    rw [ht] at same
    exact (settleStaging_request _ t).trans same.none_left
  · exact (settleStaging_link _).trans calm.link
  · exact (settleStaging_mapStore _).trans calm.mapStore
  · exact (settleStaging_params _).trans calm.params

/-! ## The owners of an acknowledged report -/

theorem State.inState_iff (s : State) (st : ReqState) (t : Tag) :
    s.inState st t = true ↔ ∃ r, s.request t = some r ∧ r.state = st := by
  unfold State.inState
  cases s.request t <;> simp

theorem ackCompletion_other {s : State} {t : Tag} (h : ∀ r, s.request t = some r → r.state ≠ .reporting) :
    ackCompletion t s = s :=
  if_neg fun k => by
    obtain ⟨r, hr, hs⟩ := (s.inState_iff .reporting t).1 k
    exact h r hr hs

/-- The state in which a slot has gone FREE and every hold list has lost its tag, before holds are released (R33, R43). -/
structure Freed (s X : State) (t : Tag) : Prop where
  eq : ∃ v, X = { s with table := { s.table with
    slots := v, admissionOrder := s.table.admissionOrder.filter (fun x => x ≠ t) } }
  own : X.request t = none
  others : ∀ u, u ≠ t → X.request u = (s.request u).map (fun r => { r with holdList := setRemove t r.holdList })

theorem ackCompletion_frees {s : State} {t : Tag} {r : Request} (hr : s.request t = some r) (hs : r.state = .reporting) :
    ∃ X, ackCompletion t s = releaseHolds X ∧ Freed s X t := by
  have freed : ∀ F : State, F = { s.setSlot t none with table := { (s.setSlot t none).table with
      admissionOrder := setRemove t s.table.admissionOrder } } → Freed s (dropHolds t F) t := by
    intro F eF
    obtain ⟨v, hv, slots⟩ := dropHolds_eq t F
    have vacated : ∀ u, F.request u = if u = t then none else s.request u := by
      rw [eF]
      exact fun u => s.request_setSlot t u none
    have requests : ∀ u, (dropHolds t F).request u =
        (F.request u).map (fun r => { r with holdList := setRemove t r.holdList }) := by
      rw [hv]
      exact slots
    refine ⟨⟨v, ?_⟩, ?_, fun u hu => ?_⟩
    · rw [hv, eF]
      rfl
    · rw [requests, vacated, if_pos rfl]
      rfl
    · rw [requests, vacated, if_neg hu]
  exact ⟨_, if_pos ((s.inState_iff .reporting t).2 ⟨r, hr, hs⟩), freed _ rfl⟩

theorem Freed.tableGood {s X : State} {t : Tag} (h : Freed s X t) (k : TableGood s) : TableGood X := by
  obtain ⟨⟨v, e⟩, own, others⟩ := h
  obtain ⟨nodup, listed⟩ := k
  have order : X.table.admissionOrder = s.table.admissionOrder.filter (fun x => x ≠ t) := by rw [e]
  refine ⟨by rw [order]; exact nodup.filter _, fun u => ?_⟩
  rw [order, List.mem_filter, decide_eq_true_eq, listed u]
  by_cases hu : u = t
  · subst hu
    simp [own]
  · rw [others u hu]
    simp [hu]

/-- What the acknowledgment of a COMPLETION report comes to. -/
theorem ackCompletion_spec {s : State} {t : Tag} {r : Request} (hr : s.request t = some r) (hs : r.state = .reporting)
    {u : State} (hu : u = ackCompletion t s) : u.request t = none ∧
      u.table.admissionOrder = s.table.admissionOrder.filter (fun x => x ≠ t) ∧
      (∀ v q, u.request v = some q → q.state = .held → t ∉ q.holdList ∧ (TableGood s → q.holdList ≠ [])) ∧
      s.keepsOthers u t ∧ u.mapStore = s.mapStore ∧ u.params = s.params ∧ u.log.recent = s.log.recent ∧ u.link = s.link := by
  subst hu
  obtain ⟨X, e, freed⟩ := ackCompletion_frees hr hs
  have calm := calm_releaseHolds X
  rw [e]
  obtain ⟨v, eX⟩ := freed.eq
  refine ⟨?_, ?_, fun v q hq hh => ⟨?_, fun k => releaseHolds_held (freed.tableGood k) v q hq hh⟩, fun v hv => ?_, ?_, ?_, ?_, ?_⟩
  · have same := calm.requests t
    rw [freed.own] at same
    exact same.none_left
  · rw [calm.admissionOrder, eX]
  · obtain ⟨p, hp, -, list⟩ := calm.held hq hh
    have held : v ≠ t := by
      rintro rfl
      rw [freed.own] at hp
      cases hp
    rw [freed.others v held] at hp
    obtain ⟨x, -, rfl⟩ := Option.map_eq_some_iff.1 hp
    rw [list]
    exact fun m => by simp [setRemove] at m
  · have same := calm.requests v
    rw [freed.others v hv] at same
    refine ⟨fun e => ?_, fun p e => ?_⟩
    · rw [e] at same
      exact same.none_left
    · rw [e] at same
      exact same.some_left
  · exact calm.mapStore.trans (by rw [eX])
  · exact calm.params.trans (by rw [eX])
  · exact calm.recent.trans (by rw [eX])
  · exact calm.link.trans (by rw [eX])

theorem ackGrant_current {s : State} {t : Tag} {n : Byte} {x : WriteRecord} {g : Grant} (hx : s.writeRecord t = some x)
    (hg : x.grant = some g) (hr : g.report = .inWindow n) : ackGrant t n s = s.setWriteRecord t (some { x with
      grant := some { g with report := .acknowledged }, timer := some s.dataExpiry }) := by
  unfold ackGrant
  rw [hx]
  dsimp only
  rw [hg]
  exact if_pos hr

theorem ackGrant_other {s : State} {t : Tag} {n : Byte}
    (h : ∀ x g, s.writeRecord t = some x → x.grant = some g → g.report ≠ .inWindow n) : ackGrant t n s = s := by
  unfold ackGrant
  split
  next => rfl
  next x hx =>
    split
    next => rfl
    next g hg => exact if_neg (h x g hx hg)

/-- A block delivered counts for the ACTIVE READ it belongs to (R64). -/
theorem countDelivered_active {s : State} {w : Owner} {r : Request} (hr : s.request w.tag = some r)
    (ha : r.admission = w.admission) (hk : r.kind = .read) (hs : r.state = .active) : countDelivered w s =
      if r.range.any (fun g => g.count = r.blocksDone + 1) then
        enterReporting w.tag .good none
          ((s.setRequest w.tag { r with blocksDone := r.blocksDone + 1 }).setFetchRecord w.tag none)
      else s.setRequest w.tag { r with blocksDone := r.blocksDone + 1 } := by
  unfold countDelivered
  rw [hr]
  exact if_pos ⟨ha, hk, hs⟩

theorem countDelivered_other {s : State} {w : Owner} (h : ∀ r, s.request w.tag = some r →
    ¬ (r.admission = w.admission ∧ r.kind = .read ∧ r.state = .active)) : countDelivered w s = s := by
  unfold countDelivered
  split
  next => rfl
  next r hr => exact if_neg (h r hr)

theorem ackReadData_sent {s : State} {i : RetNo} {o : Owner} {j x : Nat} {d : List Byte}
    (h : s.returnSlot i = .sent o j x d) :
    ackReadData i s = assignReturns (countDelivered o (s.setReturnSlot i .free)) := by
  unfold ackReadData
  rw [h]

/-- The three ways of a delivered block: it counts for no READ, it is the last of its READ, or one before the last. -/
theorem countDelivered_cases (w : Owner) (s : State) :
    (countDelivered w s = s ∧ ∀ r, s.request w.tag = some r →
      ¬ (r.admission = w.admission ∧ r.kind = .read ∧ r.state = .active)) ∨
    ∃ r, s.request w.tag = some r ∧ r.kind = .read ∧ r.state = .active ∧
      ((r.range.any (fun g => g.count = r.blocksDone + 1) = true ∧ countDelivered w s = enterReporting w.tag .good none
        ((s.setRequest w.tag { r with blocksDone := r.blocksDone + 1 }).setFetchRecord w.tag none)) ∨
      (r.range.any (fun g => g.count = r.blocksDone + 1) = false ∧
        countDelivered w s = s.setRequest w.tag { r with blocksDone := r.blocksDone + 1 })) := by
  by_cases h : ∃ r, s.request w.tag = some r ∧ r.admission = w.admission ∧ r.kind = .read ∧ r.state = .active
  · obtain ⟨r, hr, ha, hk, hs⟩ := h
    refine .inr ⟨r, hr, hk, hs, ?_⟩
    rw [countDelivered_active hr ha hk hs]
    cases r.range.any (fun g => g.count = r.blocksDone + 1)
    · exact .inr ⟨rfl, rfl⟩
    · exact .inl ⟨rfl, rfl⟩
  · have other : ∀ r, s.request w.tag = some r → ¬ (r.admission = w.admission ∧ r.kind = .read ∧ r.state = .active) :=
      fun r hr k => h ⟨r, hr, k⟩
    exact .inl ⟨countDelivered_other other, other⟩

theorem enterReporting_completionOrder {s : State} {t : Tag} {r : Request} (hr : s.request t = some r)
    (st : CompletionStatus) (x : Option Nat) :
    (enterReporting t st x s).table.completionOrder = s.table.completionOrder ++ [t] := by
  unfold enterReporting
  rw [hr]
  rfl

/-- A block delivered touches the table and the fetch records alone. -/
theorem countDelivered_eq (w : Owner) (s : State) :
    ∃ b f, countDelivered w s = { s with table := b, mover := { s.mover with fetches := f } } := by
  obtain ⟨e, -⟩ | ⟨r, -, -, -, ⟨-, e⟩ | ⟨-, e⟩⟩ := countDelivered_cases w s
  all_goals rw [e]
  · exact ⟨s.table, s.mover.fetches, rfl⟩
  · obtain ⟨b, e, -⟩ := enterReporting_eq w.tag .good none
      ((s.setRequest w.tag { r with blocksDone := r.blocksDone + 1 }).setFetchRecord w.tag none)
    exact ⟨b, _, e⟩
  · exact ⟨_, s.mover.fetches, rfl⟩

theorem countDelivered_request (w : Owner) (s : State) {u : Tag} {r : Request} (hr : s.request u = some r)
    (h : u ≠ w.tag ∨ r.admission ≠ w.admission ∨ r.kind ≠ .read ∨ r.state ≠ .active) :
    (countDelivered w s).request u = some r := by
  by_cases hu : u = w.tag
  · subst hu
    rw [countDelivered_other fun x hx => ?_, hr]
    rw [hr] at hx
    cases hx
    rintro ⟨ha, hk, hs⟩
    exact h.elim (fun k => k rfl) fun k => k.elim (fun k => k ha) fun k => k.elim (fun k => k hk) fun k => k hs
  · obtain ⟨e, -⟩ | ⟨x, -, -, -, ⟨-, e⟩ | ⟨-, e⟩⟩ := countDelivered_cases w s
    all_goals rw [e]
    · exact hr
    · rw [enterReporting_request, if_neg hu, State.setFetchRecord_request, State.request_setRequest, if_neg hu, hr]
    · rw [State.request_setRequest, if_neg hu, hr]

/-- A block delivered makes no READ eligible. -/
theorem countDelivered_wantsReturn {w : Owner} {s : State} {u : Tag} (h : (countDelivered w s).wantsReturn u) :
    s.wantsReturn u := by
  obtain ⟨e, -⟩ | ⟨x, hx, hk, hs, ⟨-, e⟩ | ⟨-, e⟩⟩ := countDelivered_cases w s
  all_goals rw [e] at h
  · exact h
  · obtain ⟨r, g, f, hr, kind, active, hg, hf, idle, more⟩ := h
    rw [enterReporting_request] at hr
    have other : u ≠ w.tag := by
      rintro rfl
      rw [if_pos rfl] at hr
      obtain ⟨y, -, rfl⟩ := Option.map_eq_some_iff.1 hr
      cases active
    rw [if_neg other, State.setFetchRecord_request, State.request_setRequest, if_neg other] at hr
    obtain ⟨b, eb, -⟩ := enterReporting_eq w.tag .good none
      ((s.setRequest w.tag { x with blocksDone := x.blocksDone + 1 }).setFetchRecord w.tag none)
    rw [eb] at hf
    have same : s.fetchRecord u = some f :=
      ((((s.setRequest w.tag _).fetchRecord_setFetchRecord w.tag u none).trans (if_neg other)).symm.trans hf)
    exact ⟨r, g, f, hr, kind, active, hg, same, idle, more⟩
  · obtain ⟨r, g, f, hr, kind, active, hg, hf, idle, more⟩ := h
    rw [State.request_setRequest] at hr
    split at hr
    next eu =>
      cases hr
      exact ⟨x, g, f, eu ▸ hx, hk, hs, hg, hf, idle, more⟩
    next => exact ⟨r, g, f, hr, kind, active, hg, hf, idle, more⟩

/-! ## REPORT_ACK (R212) -/

/-- The state in which the report has left the window, before its owner goes on. -/
def State.acked (s : State) (q : Byte) : State :=
  s.setLink { s.link.accepted with window := s.link.window.filter (fun x => x.seq ≠ q) }

theorem exec_reportAck_none {s : State} {n : Byte} (h : s.receives = true) (hn : ∀ w ∈ s.link.window, w.seq ≠ n) :
    exec (.reportAck n) s = .next { s with link := s.link.accepted } := by
  refine congrArg Host.Outcome.next ((if_pos h).trans ?_)
  unfold takeAck
  rw [State.report_none (s := acceptFrame s) hn]
  rfl

theorem exec_reportAck {s : State} (h : s.receives = true) {older newer : List WindowEntry} {w : WindowEntry}
    (hw : s.link.window = older ++ w :: newer) (ho : ∀ x ∈ older, x.seq ≠ w.seq) :
    exec (.reportAck w.seq) s = .next (ackOwner w (s.acked w.seq)) := by
  refine congrArg Host.Outcome.next ((if_pos h).trans ?_)
  unfold takeAck
  rw [State.report_first (s := acceptFrame s) hw ho]
  rfl

theorem keepsOthers_settleStaging {s u : State} {t : Tag} (h : s.keepsOthers u t) : s.keepsOthers (settleStaging u) t := by
  intro v hv
  rw [settleStaging_request]
  exact h v hv

/-- The acknowledgment of a READ-DATA report where no READ waits for the slot it frees. -/
theorem ackReadData_idle {s : State} {i : RetNo} {o : Owner} {j x : Nat} {d : List Byte}
    (h : s.returnSlot i = .sent o j x d) (hw : ∀ v, ¬ s.wantsReturn v) :
    ackReadData i s = countDelivered o (s.setReturnSlot i .free) :=
  (ackReadData_sent h).trans (assignReturns_idle fun v k => hw v (countDelivered_wantsReturn (s := s.setReturnSlot i .free) k))

/-- A block that counts for its READ: the READ goes on, or is GOOD (R40, R64). -/
theorem countDelivered_counts {s : State} {w : Owner} {r : Request} {g : BlockRange} (hr : s.request w.tag = some r)
    (ha : r.admission = w.admission) (hk : r.kind = .read) (hs : r.state = .active) (hg : r.range = some g) :
    (r.blocksDone + 1 ≠ g.count →
      (countDelivered w s).request w.tag = some { r with blocksDone := r.blocksDone + 1 }) ∧
    (r.blocksDone + 1 = g.count → (countDelivered w s).request w.tag = some { r with
        blocksDone := r.blocksDone + 1, state := .reporting, status := some .good, failingLbn := none
        holdList := [], flushSet := [], settleSet := [] } ∧
      (countDelivered w s).fetchRecord w.tag = none ∧
      (countDelivered w s).table.completionOrder = s.table.completionOrder ++ [w.tag]) := by
  have last : r.range.any (fun g => g.count = r.blocksDone + 1) = decide (g.count = r.blocksDone + 1) := by
    rw [hg]
    rfl
  rw [countDelivered_active hr ha hk hs, last]
  have counted : ((s.setRequest w.tag { r with blocksDone := r.blocksDone + 1 }).setFetchRecord w.tag none).request w.tag =
      some { r with blocksDone := r.blocksDone + 1 } := by
    rw [State.setFetchRecord_request, State.request_setRequest, if_pos rfl]
  refine ⟨fun hn => ?_, fun hn => ?_⟩
  · rw [if_neg (by simpa using Ne.symm hn), State.request_setRequest, if_pos rfl]
  · obtain ⟨b, eb, -⟩ := enterReporting_eq w.tag .good none
      ((s.setRequest w.tag { r with blocksDone := r.blocksDone + 1 }).setFetchRecord w.tag none)
    rw [if_pos (by simpa using hn.symm)]
    refine ⟨?_, ?_, enterReporting_completionOrder counted _ _⟩
    · rw [enterReporting_request, if_pos rfl, counted]
      rfl
    · rw [eb]
      exact ((s.setRequest w.tag _).fetchRecord_setFetchRecord w.tag w.tag none).trans (if_pos rfl)

/-- Settles O55; the four owners of a report are the cases. -/
theorem reportAckResult : Obligations.ReportAckResult := by
  refine fun s => ⟨fun h n => congrArg Host.Outcome.next (if_neg (by rw [h]; decide)), fun h =>
    ⟨fun n hn => exec_reportAck_none h hn, fun older w newer hw ho => ?_⟩⟩
  have acked := exec_reportAck h hw ho
  obtain ⟨q, owner, payload, resends, timer, due⟩ := w
  intro left
  refine ⟨fun t e hn => ?_, fun t r e hr hs => ?_, fun t e => ⟨fun x g hx hg hi => ?_, fun hn => ?_⟩,
    fun i o j x d e hi hwant => ?_, fun k n fresh e hn hi hu => ?_⟩
  all_goals subst e
  · have other : ackCompletion t (s.acked q) = s.acked q := ackCompletion_other hn
    refine ⟨_, acked.trans (congrArg (fun v => Host.Outcome.next (settleStaging v)) other), settleStaging_link _, ?_⟩
    exact State.endsAs_message left _ rfl (endsAs_settleStaging (s.acked q))
  · obtain ⟨u, hu⟩ : ∃ u, u = ackCompletion t (s.acked q) := ⟨_, rfl⟩
    have ends : exec (.reportAck q) s = .next (settleStaging u) := by
      rw [hu]
      exact acked
    obtain ⟨own, order, held, others, maps, params, recent, link⟩ := ackCompletion_spec (s := s.acked q) hr hs hu
    refine ⟨_, ends, (settleStaging_link _).trans link, ?_, ?_, ?_, keepsOthers_settleStaging others, ?_, ?_, ?_⟩
    · rw [settleStaging_request, own]
    · rw [settleStaging_table, order]
      rfl
    · intro v p hv
      rw [settleStaging_request] at hv
      exact held v p hv
    · rw [settleStaging_mapStore, maps]
      rfl
    · rw [settleStaging_params, params]
      rfl
    · rw [settleStaging_log, recent]
      rfl
  · refine acked.trans (congrArg Host.Outcome.next ((ackGrant_current (s := s.acked q) hx hg hi).trans ?_))
    rw [Nat.mul_comm]
    rfl
  · exact acked.trans (congrArg Host.Outcome.next (ackGrant_other (s := s.acked q) hn))
  · have idle := ackReadData_idle (s := s.acked q) hi hwant
    let A := (s.acked q).setReturnSlot i .free
    obtain ⟨b, f, e⟩ := countDelivered_eq o A
    have requests : ∀ v, A.request v = s.request v := fun v => rfl
    refine ⟨_, acked.trans (congrArg (fun v => Host.Outcome.next (settleStaging v)) idle), ?_, fun k => ?_, fun v r hr ho => ?_,
      fun r g hr ha hk hs hg => ⟨fun hc => ?_, fun hc => ?_⟩, ?_, ?_, ?_, fun k => ?_⟩
    · rw [settleStaging_link, e]
      rfl
    · rw [settleStaging_returnSlot, e]
      exact (s.acked q).returnSlot_setReturnSlot i k .free
    · rw [settleStaging_request]
      exact countDelivered_request o A hr ho
    · rw [settleStaging_request]
      exact (countDelivered_counts (s := A) hr ha hk hs hg).1 hc
    · obtain ⟨own, fetch, order⟩ := (countDelivered_counts (s := A) hr ha hk hs hg).2 hc
      exact ⟨(settleStaging_request _ _).trans own, (settleStaging_fetchRecord _ _).trans fetch,
        (congrArg Table.completionOrder (settleStaging_table _)).trans order⟩
    · rw [settleStaging_mapStore, e]
      rfl
    · rw [settleStaging_params, e]
      rfl
    · rw [settleStaging_log, e]
      rfl
    · rw [settleStaging_slot, e]
      rfl
  · have acks := acked.trans (congrArg Host.Outcome.next (ackNotice_sent (s := s.acked q) hn hi hu))
    have params : (s.acked q).params = s.params := rfl
    intro put ends again
    refine ⟨fun hf hm => ?_, fun hf hm => ?_, fun hf hm => ?_, fun hf hm => ?_⟩
    · rw [if_pos hf, params, hm, dropNotices_eq] at acks
      exact acks
    · rw [if_pos hf, params, hm] at acks
      exact acks
    · rw [if_neg hf, params, hm, joinOrder_order] at acks
      exact acks
    · rw [if_neg hf, params, hm, joinOrder_order] at acks
      exact acks

end Sys2Proof.Machine
end

section
/-! PROOFS. The family 'other', the Data Mover's own events: the data timer (R54), grants (R50 to R52) and return slots
(R60 to R62, R85, R86). -/

namespace Sys2Proof.Machine

/-! ## DATA_TIMER_EXPIRY (R54, R126 to R131) -/

/-- The data timer of an ACTIVE WRITE runs out: the WRITE faults, and with the queue HALTED no grant is left to form. -/
theorem dataTimerExpires_faults {s : State} {t : Tag} {r : Request} {w : WriteRecord} {m : Nat} (hg : TableGood s)
    (hn : s.table.snapshot = none) (hr : s.request t = some r) (ha : r.state = .active) (hw : s.writeRecord t = some w)
    (ht : w.timer = some m) (hm : m ≤ s.clock) :
    dataTimerExpires t s = settleStaging (requestFault t .dataTimeout none .dataTimeout s) := by
  have halts := requestFault_halts hg hr (.inl ha) hn .dataTimeout none .dataTimeout
  unfold dataTimerExpires
  rw [hw, Option.bind_some, ht]
  dsimp only
  rw [if_pos (show s.reached m = true from decide_eq_true hm), formGrants_idle halts.over.waits]

theorem State.droppedBy_own (s : State) (t : Tag) {r : Request} (hr : s.request t = some r) :
    s.droppedBy t ⟨t, r.admission⟩ = true := by
  simp [State.droppedBy, hr]

theorem State.droppedBy_active {s : State} {t : Tag} {o : Owner} {q : Request} (hq : s.request o.tag = some q)
    (ha : q.admission = o.admission) (hs : q.state = .active) (hf : s.fetchInFlight o.tag = false) :
    s.droppedBy t o = true := by
  simp [State.droppedBy, hq, ha, hs, hf]

/-- The WRITE's record is dropped with the work of its owner. -/
theorem State.dropsWrite_of {s : State} {t : Tag} {o : Owner} {q : Request} (hq : s.request o.tag = some q)
    (ha : q.admission = o.admission) (hk : q.kind = .write) (hd : s.droppedBy t o = true) :
    s.dropsWrite t o.tag = true := by
  unfold State.dropsWrite
  rw [hq, Option.any_some, hk, ha, hd]
  rfl

/-- Settles O34: what `haltsOn` says, read off for the data timer. -/
theorem dataTimerExpiryResult : Obligations.DataTimerExpiryResult := by
  intro s t r w m hl hg hn hr hk ha hw ht hm
  have fault := requestFault_halts hg hr (.inl ha) hn .dataTimeout none .dataTimeout
  have link := (calm_requestFault t .dataTimeout none .dataTimeout s).link
  have ended := (live_high hl (dataTimerExpires t)).trans
    (congrArg Host.Outcome.next (dataTimerExpires_faults hg hn hr ha hw ht hm))
  generalize requestFault t .dataTimeout none .dataTimeout s = F at fault link ended
  have halts := fault.ends (endsAs_settleStaging F)
  have ends := halts.over
  have keeps : (settleStaging F).link = s.link := (settleStaging_link F).trans link
  generalize settleStaging F = u at ended halts ends keeps
  have said := halts
  obtain ⟨r', hr', own, snapshot, free, -, -, -, -, write, -, -, slot, -, log, -, maps, params⟩ := halts
  obtain rfl : r = r' := Option.some.inj (hr.symm.trans hr')
  refine ⟨u, _, _, said, fun i x b hi => ?_, fun i x o b q hi hq had hkq hsq hf => ?_, fun i hi => ?_, rfl, ended, own, rfl, rfl, rfl, rfl, hk,
    rfl, ?_, snapshot, rfl, hk, rfl, rfl, rfl, rfl, rfl, rfl, ends, fun v hv => ?_, ?_, ?_, maps, params, keeps⟩
  · have dropped := s.droppedBy_own t hr
    rw [slot i, hi]
    exact if_pos (Bool.and_eq_true_iff.2 ⟨State.dropsWrite_of hr rfl hk dropped, dropped⟩)
  · have dropped := State.droppedBy_active (t := t) hq had hsq hf
    rw [slot i, hi]
    exact if_pos (Bool.and_eq_true_iff.2 ⟨State.dropsWrite_of hq had hkq dropped, dropped⟩)
  · rw [slot i]
    cases e : s.slot i with
    | filling x o b =>
      rw [e] at hi
      cases hi
    | free | dirty | draining | stranded => rfl
  · rw [write t]
    exact if_pos (State.dropsWrite_of (o := ⟨t, r.admission⟩) hr rfl hk (s.droppedBy_own t hr))
  · by_cases e : v = t
    · subst e
      rw [hr] at hv
      cases hv
    · exact free v e hv
  · rw [log]
    exact ⟨_, _, rfl, rfl, rfl, rfl, rfl, rfl, rfl, rfl, rfl⟩
  · rw [log]

/-! ## GRANT_FORMATION (R50 to R52, R72) -/

/-- The walk over the admission order forms the grant of the first waiting WRITE, and then those of the rest. -/
theorem formGrants_first {s : State} {t : Tag} {pre post : List Tag} (h : s.table.admissionOrder = pre ++ t :: post)
    (hp : ∀ u, u ∈ pre → ¬ s.waits u) :
    formGrants s = post.foldl (fun acc u => formGrant u acc) (formGrant t s) := by
  show s.table.admissionOrder.foldl _ s = _
  rw [h, List.foldl_append, foldl_idle _ pre s fun u hu => formGrant_idle (hp u hu)]
  rfl

/-- Settles O31. -/
theorem grantFormationResult : Obligations.GrantFormationResult := by
  refine ⟨?_, fun s hl hp => ?_⟩
  · intro s t r g w pre post hl ho hp hr hk ha hg hw hn hlt slots hne
    have formed := formGrant_waits hr hk ha hg hw hn hlt slots rfl hne
    have nodup : slots.Nodup := s.freeSlots_nodup _
    have walk := granted_walk post (formGrant t s)
    have whole := (granted_formGrant t s).trans walk
    have ended := (live_high hl fun v => settleStaging (formGrants v)).trans
      (congrArg (fun v => Host.Outcome.next (settleStaging v)) (formGrants_first ho hp))
    have record : (formGrant t s).writeRecord t =
        some ⟨w.admission, w.next + slots.length, some ⟨w.next, slots, [], .unsent⟩, none⟩ := by
      rw [formed, reserve_writeRecord, State.setGrantOrder_writeRecord, State.writeRecord_setWriteRecord, if_pos rfl]
    have settled : ¬ (formGrant t s).waits t := by
      rintro ⟨-, -, x, -, -, -, -, hx, empty, -⟩
      rw [record] at hx
      cases hx
      cases empty
    have filled : ∀ (i : Nat) (h : i < slots.length),
        (formGrant t s).slot slots[i] = .filling (g.first + w.next + i) ⟨t, r.admission⟩ r.through := by
      rw [formed]
      exact fun i h => reserve_slot _ _ _ slots nodup _ i h
    have recorded := (walk_writeRecord post (formGrant t s) t settled).trans record
    refine ⟨_, ended, (settleStaging_writeRecord _ t).trans recorded, fun i h => ?_, fun i hi => ?_, ?_⟩
    · rw [settleStaging_slot, walk.slot _ (by rw [filled i h]; rfl), filled i h]
    · rw [settleStaging_slot, whole.slot i hi]
    · obtain ⟨x, y, z, e⟩ := whole.eq
      rw [e]
      simp only [settleStaging_table, settleStaging_link, settleStaging_mover, settleStaging_drainOrder,
        settleStaging_mapStore, settleStaging_log, settleStaging_params]
      trivial
  · refine ⟨_, (live_high hl fun v => settleStaging (formGrants v)).trans
      (congrArg (fun v => Host.Outcome.next (settleStaging v)) (formGrants_idle hp)), settleStaging_link s,
      endsAs_settleStaging s⟩

end Sys2Proof.Machine
end

section
/-! PROOFS. The family 'other', the assignment of a return slot and the start of its fetch (R60 to R62, R85, R86). -/

namespace Sys2Proof.Machine

/-! ## The start of a fetch (R61, R62, R85) -/

theorem setFetch_some {s : State} {t : Tag} {f : FetchRecord} (h : s.fetchRecord t = some f) (y : Option Fetch) :
    setFetch t y s = s.setFetchRecord t (some { f with fetch := y }) := by
  unfold setFetch
  rw [h]

theorem advanceCursor_some {s : State} {t : Tag} {f : FetchRecord} (h : s.fetchRecord t = some f) :
    advanceCursor t s = s.setFetchRecord t (some { f with cursor := f.cursor + 1, fetch := none }) := by
  unfold advanceCursor
  rw [h]

theorem fillReturn_fetching {s : State} {n : RetNo} {o : Owner} {i x : Nat} (h : s.returnSlot n = .fetching o i x)
    (d : List Byte) :
    fillReturn n d s = (s.setReturnSlot n (.filled o i x d)).setFillOrder (s.mover.fillOrder ++ [n]) := by
  unfold fillReturn
  rw [h]

/-- A fetch without THROUGH of a READ takes the coherent copy. -/
theorem startFetch_staged {s : State} {t : Tag} {r : Request} {g : BlockRange} {f : FetchRecord}
    (hr : s.request t = some r) (hf : s.fetchRecord t = some f) (hg : r.range = some g) (hk : r.kind = .read)
    (ht : r.through = false) {d : List Byte} (hd : s.coherent (g.first + f.cursor) = some d) (n : RetNo) :
    startFetch t (some n) s = advanceCursor t (fillReturn n d s) := by
  unfold startFetch
  rw [hr, hf]
  dsimp only
  rw [hg]
  dsimp only
  rw [if_pos ⟨hk, ht⟩, hd]

theorem startFetch_through {s : State} {t : Tag} {r : Request} {g : BlockRange} {f : FetchRecord}
    (hr : s.request t = some r) (hf : s.fetchRecord t = some f) (hg : r.range = some g) (ht : r.through = true)
    (n : Option RetNo) : startFetch t n s = fetchThrough t f.cursor (g.first + f.cursor) n s := by
  unfold startFetch
  rw [hr, hf]
  dsimp only
  rw [hg]
  exact if_neg fun k => by
    rw [ht] at k
    cases k.2

/-- No staging slot but a FILLING one is for the block. -/
def State.unstaged (s : State) (x : Nat) : Prop := ∀ i, (s.slot i).isFilling = false → (s.slot i).lbn? ≠ some x

theorem State.unstaged.findLbn {s : State} {x : Nat} (h : s.unstaged x) {p : StagingSlot → Bool}
    (hp : ∀ z, p z = true → z.isFilling = false) : s.findLbn p x = none :=
  State.findLbn_none fun i hi => h i (hp _ hi)

theorem StagingSlot.isStranded_isFilling (z : StagingSlot) (h : z.isStranded = true) : z.isFilling = false := by
  cases z with
  | filling => cases h
  | free | dirty | draining | stranded => rfl

theorem StagingSlot.isDirty_or_isDraining_isFilling (z : StagingSlot) (h : (z.isDirty || z.isDraining) = true) :
    z.isFilling = false := by
  cases z with
  | filling => cases h
  | free | dirty | draining | stranded => rfl

theorem StagingSlot.isDirty_or_isStranded_isFilling (z : StagingSlot) (h : (z.isDirty || z.isStranded) = true) :
    z.isFilling = false := by
  cases z with
  | filling => cases h
  | free | dirty | draining | stranded => rfl

theorem StagingSlot.isDraining_isFilling (z : StagingSlot) (h : z.isDraining = true) : z.isFilling = false := by
  cases z with
  | filling => cases h
  | free | dirty | draining | stranded => rfl

theorem State.unstaged.coherent {s : State} {x : Nat} (h : s.unstaged x) : s.coherent x = none := by
  have newest : s.newestCopy x = none := h.findLbn StagingSlot.isDirty_or_isStranded_isFilling
  unfold State.coherent
  rw [newest, h.findLbn StagingSlot.isDraining_isFilling]
  rfl

/-- Without a staged copy a fetch asks the member, THROUGH or not. -/
theorem startFetch_unstaged {s : State} {t : Tag} {r : Request} {g : BlockRange} {f : FetchRecord}
    (hr : s.request t = some r) (hf : s.fetchRecord t = some f) (hg : r.range = some g)
    (hx : s.unstaged (g.first + f.cursor)) (n : Option RetNo) :
    startFetch t n s = askMember t f.cursor (g.first + f.cursor) n s := by
  unfold startFetch
  rw [hr, hf]
  dsimp only
  rw [hg]
  dsimp only
  rw [hx.coherent]
  unfold fetchThrough
  rw [hx.findLbn StagingSlot.isStranded_isFilling, hx.findLbn StagingSlot.isDirty_or_isDraining_isFilling]
  exact ite_self _

theorem askMember_waits {s : State} {t : Tag} {x : Nat} {pl : Place} (h : s.translate x = some pl)
    (ha : s.placeAvailable pl = true) (i : Nat) (n : Option RetNo) :
    askMember t i x n s = setFetch t (some ⟨i, x, .portWait pl.port pl.pbn, n⟩) s := by
  unfold askMember
  rw [h]
  exact if_pos ha

theorem askMember_lost {s : State} {x : Nat} (h : s.available x = false) (t : Tag) (i : Nat) (n : Option RetNo) :
    askMember t i x n s = requestFault t .memberLost (some x) .memberLost s := by
  unfold askMember
  split
  next => rfl
  next pl e =>
    simp only [State.available, e] at h
    exact if_neg (by rw [h]; exact Bool.false_ne_true)

theorem fetchThrough_stranded {s : State} {x : Nat} {i : SlotNo} {m : Bool} {d : List Byte} {why : StrandReason}
    (hi : s.slot i = .stranded x m d why) (hu : ∀ j m d why, s.slot j = .stranded x m d why → j = i) (t : Tag) (k : Nat)
    (n : Option RetNo) : fetchThrough t k x n s = requestFault t .mediaError (some x) why.cause s := by
  have found : s.findLbn StagingSlot.isStranded x = some i := by
    refine State.findLbn_one (by rw [hi]; rfl) (by rw [hi]; rfl) fun j hj hx => ?_
    cases e : s.slot j with
    | stranded y m d why =>
      rw [e] at hx
      cases hx
      exact hu j m d why e
    | free | filling | dirty | draining =>
      rw [e] at hj
      cases hj
  unfold fetchThrough
  rw [found]
  dsimp only
  rw [hi]
  rfl

theorem fetchThrough_promotes {s : State} {x : Nat} (hs : ∀ i m d why, s.slot i ≠ .stranded x m d why)
    (hd : ∃ i m d, s.slot i = .dirty x m d ∨ s.slot i = .draining x m d) (t : Tag) (k : Nat) (n : Option RetNo) :
    fetchThrough t k x n s = setFetch t (some ⟨k, x, .drainWait, n⟩) (promote x s) := by
  have unstranded : s.findLbn StagingSlot.isStranded x = none := by
    refine State.findLbn_none fun i hi hx => ?_
    cases e : s.slot i with
    | stranded y m d why =>
      rw [e] at hx
      cases hx
      exact hs i m d why e
    | free | filling | dirty | draining =>
      rw [e] at hi
      cases hi
  have staged : (s.findLbn (fun d => d.isDirty || d.isDraining) x).isSome = true := by
    obtain ⟨i, m, d, hi⟩ := hd
    refine List.find?_isSome.2 ⟨i, mem_allSlots i, ?_⟩
    obtain e | e := hi <;> simp [e, StagingSlot.isDirty, StagingSlot.isDraining, StagingSlot.lbn?]
  unfold fetchThrough
  rw [unstranded]
  exact if_pos staged

/-! ## RETURN_SLOT_ASSIGNMENT (R60) -/

/-- An assignment that comes to `S`. -/
theorem exec_returnSlotAssignment {s S : State} (h : s.resetLow = false) (hS : assignReturns s = S) :
    exec .returnSlotAssignment s = .next (settleStaging S) :=
  (live_high h fun t => settleStaging (assignReturns t)).trans
    (congrArg (fun v => Host.Outcome.next (settleStaging v)) hS)

/-- An event that ends with its assignment. -/
theorem exec_returnSlotAssignment_ends {s S : State} (h : s.resetLow = false) (hS : assignReturns s = S)
    (hl : S.link = s.link) : ∃ u, exec .returnSlotAssignment s = .next u ∧ u.link = s.link ∧ S.endsAs u :=
  ⟨_, exec_returnSlotAssignment h hS, (settleStaging_link S).trans hl, endsAs_settleStaging S⟩

/-- An assignment whose fetch faults its READ halts the queue, and no READ is left to serve. -/
theorem exec_returnSlotAssignment_faults {s C : State} (h : s.resetLow = false) {t : Tag} {r : Request}
    {st : CompletionStatus} {x : Option Nat} {c : HistoryCause} (hg : TableGood C) (hn : C.table.snapshot = none)
    (hr : C.request t = some r) (ha : r.state = .active) (hl : C.link = s.link) {k : Nat}
    (hS : assignReturns s = assignReturnsUpTo k (requestFault t st x c C)) :
    ∃ u, exec .returnSlotAssignment s = .next u ∧ u.link = s.link ∧ C.haltsOn u t st x c := by
  have halts := requestFault_halts hg hr (.inl ha) hn st x c
  have ended := hS.trans (assignReturnsUpTo_idle k halts.over.wantsReturn)
  exact ⟨_, exec_returnSlotAssignment h ended,
    (settleStaging_link _).trans ((calm_requestFault t st x c C).link.trans hl), halts.ends (endsAs_settleStaging _)⟩

/-- A READ whose fetch is under way, or whose cursor has reached its count, wants no return slot. -/
theorem State.not_wantsReturn {s : State} {t : Tag} {r : Request} {g : BlockRange} {f : FetchRecord}
    (hr : s.request t = some r) (hg : r.range = some g) (hf : s.fetchRecord t = some f)
    (h : f.fetch ≠ none ∨ g.count ≤ f.cursor) : ¬ s.wantsReturn t := by
  rintro ⟨r', g', f', hr', -, -, hg', hf', idle, more⟩
  obtain rfl : r = r' := Option.some.inj (hr.symm.trans hr')
  obtain rfl : g = g' := Option.some.inj (hg.symm.trans hg')
  obtain rfl : f = f' := Option.some.inj (hf.symm.trans hf')
  exact h.elim (fun k => k idle) fun k => Nat.not_lt.2 k more

/-- Settles O32. -/
theorem returnSlotAssignmentResult : Obligations.ReturnSlotAssignmentResult := by
  refine ⟨?_, fun s hl hw => exec_returnSlotAssignment_ends hl (assignReturns_idle hw) rfl⟩
  intro s t r g f n hl hr hk ha hg hf hidle hlt hfirst hn hlow x full last fetching claimed waiting ends faults
  let C := s.setReturnSlot n fetching
  have assigned : assignReturns s = assignReturnsUpTo 8 (startFetch t (some n) C) :=
    assignReturns_first (State.nextRead_first hfirst) hr hg hf hn hlow
  have request : C.request t = some r := hr
  have record : C.fetchRecord t = some f := hf
  have claim : C.returnSlot n = fetching := (s.returnSlot_setReturnSlot n n fetching).trans (if_pos rfl)
  -- The event ends with an assignment that leaves the other fetches and the other return slots alone.
  have one : ∀ (S : State) (m : Mover) (v : Staging), startFetch t (some n) C = S → S = { s with mover := m, staging := v } →
      (∀ u, u ≠ t → m.fetches[u] = s.mover.fetches[u]) → (∀ i, i ≠ n → m.returns[i] = s.mover.returns[i]) →
      m.returns[n] ≠ .free → full ∨ ((∀ u, u ≠ t → ¬ s.wantsReturn u) ∧ ¬ S.wantsReturn t) → ends S := by
    intro S m v hS e hm hi hfree hend
    refine exec_returnSlotAssignment_ends hl ?_ (by rw [e])
    rw [assigned, hS]
    exact assignReturnsUpTo_last 8 e hm hi hfree hend
  -- A fetch that waits keeps its slot, and its READ wants no other.
  have parked : ∀ (stage : FetchStage) (v : Staging) {S : State}, startFetch t (some n) C = S →
      S = { s with mover := waiting stage, staging := v } → last → ends { s with mover := waiting stage, staging := v } := by
    intro stage v S hS e hlast
    rw [← e]
    refine one S (waiting stage) v hS e (fun u hu => ?_) (fun i hi => ?_) (fun k => ?_) (hlast.imp_right fun k => ⟨k, ?_⟩)
    · exact (s.fetchRecord_setFetchRecord t u _).trans (if_neg hu)
    · exact (s.returnSlot_setReturnSlot n i fetching).trans (if_neg hi)
    · exact ReturnSlot.noConfusion (claim.symm.trans k : fetching = .free)
    · rw [e]
      exact State.not_wantsReturn (f := ⟨f.admission, f.cursor, some ⟨f.cursor, x, stage, some n⟩⟩) hr hg
        ((s.fetchRecord_setFetchRecord t t _).trans (if_pos rfl)) (.inl nofun)
  refine ⟨fun hx => ⟨fun hlast pl hpl hav => ?_, fun hav => ?_⟩, fun d ht hd hend => ?_, fun ht => ⟨fun i m d why hi hu => ?_,
    fun hs hd hlast v hv => ?_⟩⟩
  · have fetched := (startFetch_unstaged request record hg hx (some n)).trans
      ((askMember_waits (s := C) hpl hav f.cursor (some n)).trans (setFetch_some record _))
    exact parked _ s.staging fetched rfl hlast
  · intro hgood hnone
    exact exec_returnSlotAssignment_faults (C := C) hl hgood hnone request ha rfl (assigned.trans (congrArg
      (assignReturnsUpTo 8) ((startFetch_unstaged request record hg hx (some n)).trans (askMember_lost (s := C) hav _ _ _))))
  · have filled := (startFetch_staged request record hg hk ht hd n).trans
      ((congrArg (advanceCursor t) (fillReturn_fetching claim d)).trans (advanceCursor_some record))
    have slots : (s.mover.returns.set n fetching).set n (.filled ⟨t, r.admission⟩ f.cursor x d) =
        s.mover.returns.set n (.filled ⟨t, r.admission⟩ f.cursor x d) := Vector.set_set ..
    rw [← slots]
    refine one _ _ s.staging filled rfl (fun u hu => ?_) (fun i hi => ?_) (fun k => ?_)
      (hend.elim .inl fun k => k.1.imp_right fun w => ⟨w, ?_⟩)
    · exact (s.fetchRecord_setFetchRecord t u _).trans (if_neg hu)
    · exact ((C.returnSlot_setReturnSlot n i _).trans (if_neg hi)).trans
        ((s.returnSlot_setReturnSlot n i fetching).trans (if_neg hi))
    · exact ReturnSlot.noConfusion (((C.returnSlot_setReturnSlot n n _).trans (if_pos rfl)).symm.trans k)
    · exact State.not_wantsReturn (f := ⟨f.admission, f.cursor + 1, none⟩) hr hg
        ((s.fetchRecord_setFetchRecord t t _).trans (if_pos rfl)) (.inr (Nat.le_of_eq k.2.symm))
  · intro hgood hnone
    exact exec_returnSlotAssignment_faults (C := C) hl hgood hnone request ha rfl (assigned.trans (congrArg
      (assignReturnsUpTo 8) ((startFetch_through request record hg ht (some n)).trans
        (fetchThrough_stranded (s := C) hi hu t f.cursor (some n)))))
  · obtain ⟨v', hp, hv'⟩ := promote_eq x C
    have marks : ∀ i : SlotNo, v[i] = v'[i] := by
      intro i
      rw [hv i, hv' i, show C.slot i = s.slot i from rfl]
      cases s.slot i <;> rfl
    obtain rfl : v = v' := Vector.ext fun i hi => marks ⟨i, hi⟩
    let P : State := { C with staging := { C.staging with slots := v } }
    have fetched := (startFetch_through request record hg ht (some n)).trans
      ((fetchThrough_promotes (s := C) hs hd t f.cursor (some n)).trans
        ((congrArg (setFetch t _) hp).trans (setFetch_some (s := P) record _)))
    exact parked _ _ fetched rfl hlast

end Sys2Proof.Machine
end

section
/-! PROOFS. The family 'other', STRANDED-RETRY and STRANDED-DISCARD (R90, R91). -/

namespace Sys2Proof.Machine

/-- A filter and its complement share out a list. -/
theorem length_filter_split {α : Type} (f : α → Bool) (l : List α) :
    l.length = (l.filter f).length + (l.filter (fun x => !f x)).length := by
  induction l with
  | nil => rfl
  | cons x l ih =>
    cases h : f x with
    | true =>
      rw [List.filter_cons_of_pos h, List.filter_cons_of_neg (by rw [h]; decide), List.length_cons, List.length_cons, ih]
      omega
    | false =>
      rw [List.filter_cons_of_neg (by rw [h]; decide), List.filter_cons_of_pos (by rw [h]; rfl), List.length_cons,
        List.length_cons, ih]
      omega

/-! ## The fields of the STRANDED messages -/

theorem strandedFields_none {body : List Byte} (h : body.length ≠ 5 ∨ 2 ≤ (body.getD 0 0).toNat) :
    strandedFields body = none := by
  match body with
  | [] | [_] | [_, _] | [_, _, _] | [_, _, _, _] | _ :: _ :: _ :: _ :: _ :: _ :: _ => rfl
  | [sel, a, b, c, d] =>
    have large : 2 ≤ sel.toNat := h.resolve_left fun k => k rfl
    have not0 : sel ≠ 0 := by
      rintro rfl
      exact absurd large (by decide)
    have not1 : sel ≠ 1 := by
      rintro rfl
      exact absurd large (by decide)
    exact (if_neg not0).trans (if_neg not1)

theorem strandedFields_some {sel : Byte} (h : sel.toNat < 2) (a b c d : Byte) :
    strandedFields [sel, a, b, c, d] = some (decide (sel = 1), leVal [a, b, c, d]) := by
  have cases : sel = 0 ∨ sel = 1 := by bv_omega
  obtain rfl | rfl := cases
  all_goals rfl

/-- The slots that a selector names, as the statement says them. -/
theorem namedStranded_eq {sel : Byte} (h : sel.toNat < 2) (s : State) (x : Nat) :
    s.namedStranded (decide (sel = 1)) x =
      allSlots.filter (fun i => (s.slot i).isStranded && (decide (sel = 0) || decide ((s.slot i).lbn? = some x))) := by
  have cases : sel = 0 ∨ sel = 1 := by bv_omega
  obtain rfl | rfl := cases
  all_goals rfl

theorem StagingSlot.retried_isStranded (ok : Nat → Bool) (z : StagingSlot) :
    (z.retried ok).isStranded = (z.isStranded && !z.lbn?.any ok) := by
  cases z with
  | stranded x m d r =>
    show (if ok x then StagingSlot.dirty x m d else .stranded x m d r).isStranded = !ok x
    cases ok x
    all_goals rfl
  | free | filling | dirty | draining => rfl

/-- The slots that `f` picks and a retry moves: those whose block is available. -/
def State.retries (s : State) (f : SlotNo → Bool) (i : SlotNo) : Bool := f i && (s.slot i).lbn?.any s.available

/-- A retry of the STRANDED slots that `f` picks: what it moves and what it leaves. -/
theorem retryNamed_spec (s : State) (f : SlotNo → Bool) (hf : ∀ i, f i = true → (s.slot i).isStranded = true) :
    ∃ v : Vector StagingSlot 32, (allSlots.filter f).foldl (fun acc i => retrySlot i acc) s =
        { s with staging := { s.staging with slots := v, drainOrder := s.staging.drainOrder ++ allSlots.filter (s.retries f) } } ∧
      (∀ i : SlotNo, v[i] = if f i then (s.slot i).retried s.available else s.slot i) ∧
      ∀ i : SlotNo, v[i].isStranded = ((s.slot i).isStranded && !s.retries f i) := by
  obtain ⟨v, e, hv⟩ := retrySlots_spec (allSlots.filter f) (allSlots_nodup.filter f) s
  have picked : ∀ i, i ∈ allSlots.filter f ↔ f i = true := fun i => by simp [mem_allSlots i]
  refine ⟨v, ?_, fun i => ?_, fun i => ?_⟩
  · rw [e, List.filter_filter]
    have moved : (fun i => ((s.slot i).isStranded && (s.slot i).lbn?.any s.available) && f i) = s.retries f := by
      funext i
      unfold State.retries
      cases hi : f i
      · simp
      · simp [hf i hi]
    rw [moved]
  · rw [hv i]
    simp only [picked]
  · rw [hv i]
    unfold State.retries
    cases hi : f i
    · rw [if_neg fun k => by cases hi.symm.trans ((picked i).1 k)]
      simp
    · rw [if_pos ((picked i).2 hi), StagingSlot.retried_isStranded]
      simp

/-- The reply of a STRANDED-RETRY that is not refused, and what its event leaves. -/
theorem takeStrandedRetry_retries {s : State} {body : List Byte} {one : Bool} {x : Nat}
    (hb : strandedFields body = some (one, x)) (hc : s.mapStore.commit = none) (hx : one = false ∨ x < 0x1000000)
    {f : SlotNo → Bool} (hf : ∀ i, f i = true → (s.slot i).isStranded = true) (hn : s.namedStranded one x = allSlots.filter f)
    {v : Vector StagingSlot 32} (hv : ∀ i : SlotNo, v[i] = if f i then (s.slot i).retried s.available else s.slot i) :
    takeStrandedRetry body s = answer .ok [byte (allSlots.filter (s.retries f)).length,
        byte (allSlots.filter (fun i => f i && !s.retries f i)).length,
        byte (allSlots.filter (fun i => (s.slot i).isStranded && !s.retries f i)).length]
      (settle { s with staging := { s.staging with
        slots := v, drainOrder := s.staging.drainOrder ++ allSlots.filter (s.retries f) } }) := by
  obtain ⟨w, e, hw, stays⟩ := retryNamed_spec s f hf
  have same : w = v := Vector.ext fun i hi => (hw ⟨i, hi⟩).trans (hv ⟨i, hi⟩).symm
  subst same
  have large : ¬ (one = true ∧ 0xFFFFFF < x) := fun ⟨k1, k2⟩ => hx.elim (fun k => by cases k.symm.trans k1) (by omega)
  unfold takeStrandedRetry
  rw [hb]
  dsimp only
  rw [hc, if_neg (by decide), if_neg large, hn, e]
  have left : (allSlots.filter f).filter (fun i => w[i].isStranded) = allSlots.filter (fun i => f i && !s.retries f i) := by
    rw [List.filter_filter]
    refine List.filter_congr fun i _ => ?_
    rw [stays i]
    cases hi : f i
    · simp
    · simp [hf i hi]
  have total : (allSlots.filter f).length - (allSlots.filter (fun i => f i && !s.retries f i)).length =
      (allSlots.filter (s.retries f)).length := by
    have parts := length_filter_split (s.retries f) (allSlots.filter f)
    rw [List.filter_filter, List.filter_filter] at parts
    have moved : (fun i => s.retries f i && f i) = s.retries f := by
      funext i
      unfold State.retries
      cases f i
      all_goals simp
    have others : (fun i => !s.retries f i && f i) = fun i => f i && !s.retries f i := funext fun i => Bool.and_comm _ _
    rw [moved, others] at parts
    omega
  refine congrArg (fun a => answer .ok a _) ?_
  show [byte ((allSlots.filter f).length - ((allSlots.filter f).filter (fun i => w[i].isStranded)).length),
    byte ((allSlots.filter f).filter (fun i => w[i].isStranded)).length,
    byte (allSlots.filter (fun i => w[i].isStranded)).length] = _
  rw [left, total]
  simp only [stays]

/-! ## Discard -/

/-- No slot is STRANDED after a discard but those it does not name. -/
theorem Discarded.isStranded {s t : State} {f : SlotNo → Bool} (D : Discarded s t (allSlots.filter f)) (i : SlotNo) :
    (t.slot i).isStranded = ((s.slot i).isStranded && !f i) := by
  have picked : i ∈ allSlots.filter f ↔ f i = true := by simp [mem_allSlots i]
  have opened : (t.slot i).isFree = true ∨ (t.slot i).isFilling = true → (t.slot i).isStranded = false := by
    cases t.slot i with
    | stranded => exact fun k => k.elim (fun c => by cases c) fun c => by cases c
    | free | filling | dirty | draining => exact fun _ => rfl
  cases hi : f i
  · have out : i ∉ allSlots.filter f := fun k => by cases hi.symm.trans (picked.1 k)
    cases free : (s.slot i).isFree
    · rw [D.kept i out free]
      simp
    · rw [opened (D.filled i free)]
      cases hs : s.slot i with
      | free => rfl
      | filling | dirty | draining | stranded => rw [hs] at free; cases free
  · rw [opened (D.freed i (picked.2 hi))]
    simp

theorem takeStrandedDiscard_discards {s : State} {body : List Byte} {one : Bool} {x : Nat}
    (hb : strandedFields body = some (one, x)) (hx : x < 0x1000000) {f : SlotNo → Bool}
    (hn : s.namedStranded one x = allSlots.filter f) {t : State}
    (ht : (allSlots.filter f).foldl (fun acc i => discardSlot i acc) s = t) (D : Discarded s t (allSlots.filter f)) :
    takeStrandedDiscard body s = answer .ok [byte (allSlots.filter f).length,
      byte (allSlots.filter (fun i => (s.slot i).isStranded && !f i)).length] (settleStaging t) := by
  unfold takeStrandedDiscard
  rw [hb]
  dsimp only
  rw [if_neg (by omega), hn, ht]
  unfold State.countSlots
  simp only [D.isStranded]

theorem takeStrandedDiscard_large {s : State} {body : List Byte} {one : Bool} {x : Nat}
    (hb : strandedFields body = some (one, x)) (hx : 0x1000000 ≤ x) :
    takeStrandedDiscard body s = refuse .badParameter s := by
  unfold takeStrandedDiscard
  rw [hb]
  exact if_pos (by omega)

theorem takeStrandedRetry_busy {s : State} {body : List Byte} {z : Bool × Nat} (hb : strandedFields body = some z)
    (hc : s.mapStore.commit.isSome = true) : takeStrandedRetry body s = refuse .mapBusy s := by
  unfold takeStrandedRetry
  rw [hb]
  exact if_pos hc

theorem takeStrandedRetry_large {s : State} {body : List Byte} {x : Nat} (hb : strandedFields body = some (true, x))
    (hc : s.mapStore.commit = none) (hx : 0x1000000 ≤ x) : takeStrandedRetry body s = refuse .badParameter s := by
  unfold takeStrandedRetry
  rw [hb]
  dsimp only
  rw [hc, if_neg (by decide)]
  exact if_pos ⟨rfl, by omega⟩

theorem State.countSlots_slots {s t : State} (h : s.staging.slots = t.staging.slots) (p : StagingSlot → Bool) :
    s.countSlots p = t.countSlots p := by
  unfold State.countSlots State.slot
  rw [h]

/-- The notices at the end of an event, as a message's statement says them. -/
theorem State.endsAs_notices {s t : State} (h : s.endsAs t) (hs : s.staging.slots = t.staging.slots) (k : NoticeKey) :
    t.notice k = if k = ⟨.stagingHigh, none⟩ then
      (if t.staging.pressure && !s.staging.pressure then
        some (raisedOnce k (.count (32 - t.countSlots StagingSlot.isFree)) (s.notice k)) else s.notice k)
      else s.notice k := by
  rw [State.endsAs_notice h k, State.countSlots_slots hs]
  by_cases hk : k = ⟨.stagingHigh, none⟩
  · cases s.staging.pressure
    all_goals cases t.staging.pressure
    all_goals simp [hk]
  · simp [hk]

theorem StagingSlot.retried_named (s : State) (i : SlotNo) (f : SlotNo → Bool)
    (hf : ∀ i, f i = true → (s.slot i).isStranded = true) :
    (match s.slot i with
      | .stranded y m data r => if (f i && (s.slot i).lbn?.any s.available) = true then StagingSlot.dirty y m data
        else .stranded y m data r
      | z => z) = if f i then (s.slot i).retried s.available else s.slot i := by
  have picked := hf i
  revert picked
  generalize s.slot i = z
  cases hi : f i
  · cases z with
    | stranded | free | filling | dirty | draining => exact fun _ => rfl
  · cases z with
    | stranded => exact fun _ => rfl
    | free | filling | dirty | draining => exact fun k => Bool.noConfusion (k rfl)

/-- Settles O36; the parts of the discarded state come from `Discarded`, its grants from `GrantedOne`. -/
theorem strandedResult : Obligations.StrandedResult := by
  refine fun s q h => ⟨fun body hb => ⟨?_, ?_⟩, fun sel a b c d hsel => ?_⟩
  · refine exec_refuse h .strandedRetry (by decide) body (st := .malformed) ?_
    show takeStrandedRetry body (acceptFrame s) = _
    unfold takeStrandedRetry
    rw [strandedFields_none hb]
  · refine exec_refuse h .strandedDiscard (by decide) body (st := .malformed) ?_
    show takeStrandedDiscard body (acceptFrame s) = _
    unfold takeStrandedDiscard
    rw [strandedFields_none hb]
  · intro x named moved count slots number retry discard
    have fields : strandedFields [sel, a, b, c, d] = some (decide (sel = 1), x) := strandedFields_some hsel a b c d
    have picks : (acceptFrame s).namedStranded (decide (sel = 1)) x = allSlots.filter named :=
      namedStranded_eq hsel (acceptFrame s) x
    have stranded : ∀ i, named i = true → ((acceptFrame s).slot i).isStranded = true :=
      fun i hi => (Bool.and_eq_true_iff.1 hi).1
    refine ⟨fun hc => ?_, fun hc hs hx => ?_, fun hc hx => ?_, fun hx => ?_, fun hx => ?_⟩
    · exact exec_refuse h .strandedRetry (by decide) _ (takeStrandedRetry_busy fields hc)
    · subst hs
      exact exec_refuse h .strandedRetry (by decide) _ (takeStrandedRetry_large fields hc hx)
    · obtain ⟨v, -, hv, -⟩ := retryNamed_spec (acceptFrame s) named stranded
      have small : decide (sel = 1) = false ∨ x < 0x1000000 := hx.imp (fun k => by rw [k]; rfl) id
      have answered := takeStrandedRetry_retries (s := acceptFrame s) fields hc small stranded picks hv
      refine ⟨_, exec_answered h .strandedRetry (by decide) _ answered (settle_link _), rfl, fun w hw => ?_⟩
      have same : w = v := by
        refine Vector.ext fun i hi => (hw ⟨i, hi⟩).trans (Eq.trans ?_ (hv ⟨i, hi⟩).symm)
        exact StagingSlot.retried_named s ⟨i, hi⟩ named stranded
      subst same
      exact State.restsAs_message (acceptFrame s).link _ (restsAs_settle _)
    · exact exec_refuse h .strandedDiscard (by decide) _ (takeStrandedDiscard_large fields hx)
    · obtain ⟨Y, hY⟩ : ∃ Y, (allSlots.filter named).foldl (fun acc i => discardSlot i acc) (acceptFrame s) = Y := ⟨_, rfl⟩
      have inNamed : ∀ i, i ∈ slots ↔ named i = true := fun i => by simp [slots, mem_allSlots i]
      have listed : ∀ i, i ∈ allSlots.filter named → ((acceptFrame s).slot i).isStranded = true :=
        fun i hi => stranded i ((inNamed i).1 hi)
      have D := discardSlots_spec (allSlots.filter named) (allSlots_nodup.filter named) (acceptFrame s) listed
      rw [hY] at D
      have ends := endsAs_settleStaging Y
      have answered := takeStrandedDiscard_discards fields hx picks hY D
      obtain ⟨link, table, maps, params⟩ := D.parts
      obtain ⟨fetches, returns, fills⟩ := D.fetches
      have hlink := settleStaging_link Y
      have hslots := settleStaging_slots Y
      have hslot := settleStaging_slot Y
      have hmover := settleStaging_mover Y
      have hlog := settleStaging_log Y
      have hwrite := settleStaging_writeRecord Y
      have htable := settleStaging_table Y
      have hmaps := settleStaging_mapStore Y
      have hparams := settleStaging_params Y
      have hdrain := settleStaging_drainOrder Y
      generalize settleStaging Y = t at *
      refine ⟨_, exec_answered h .strandedDiscard (by decide) _ answered (hlink.trans link), rfl,
        fun i hi => ?_, fun i hi hf => ?_, fun hw => ⟨fun i => ?_, ?_⟩, fun hn => ?_, fun hn => ⟨?_, ?_⟩,
        fun waiting sub mem good full => ?_, ?_, ?_, ?_, ⟨?_, fun k => ?_⟩, ?_, ?_, ?_, ?_, ?_⟩
      · show (t.slot i).isFree = true ∨ (t.slot i).isFilling = true
        rw [hslot i]
        exact D.freed i ((inNamed i).2 hi)
      · exact (hslot i).trans (D.kept i (fun k => by cases hi.symm.trans ((inNamed i).1 k)) hf)
      · refine (hslot i).trans (((D.idle hw).1 i).trans ?_)
        simp only [show i ∈ allSlots.filter named ↔ named i = true from inNamed i]
        rfl
      · exact hmover.trans (D.idle hw).2
      · refine hlog.trans (D.noRing (List.filter_eq_nil_iff.2 fun i _ => ?_))
        rw [hn i]
        decide
      · exact (congrArg LogUnit.nextNumber hlog).trans D.number
      · obtain ⟨i, hi⟩ := hn
        exact (congrArg LogUnit.ring hlog).trans (D.ring (List.ne_nil_of_mem ((inNamed i).2 hi)))
      · obtain ⟨nd, listedTags⟩ := good
        have tags : waiting = (acceptFrame s).waitingTags := by
          refine sublist_eq_filter _ sub nd fun u => (mem u).trans (and_congr_right fun _ => ?_)
          exact ((acceptFrame s).waitingWrite_iff u).symm
        have occupied : ∀ u, (acceptFrame s).waits u → u ∈ s.table.admissionOrder := by
          rintro u ⟨r, -, -, hr, -⟩
          exact (listedTags u).2 (Option.isSome_iff_exists.2 ⟨r, hr⟩)
        rw [tags] at full ⊢
        obtain ⟨granted, free⟩ := discardSlots_grants (allSlots.filter named) (allSlots_nodup.filter named) (acceptFrame s)
          listed nd occupied full
        rw [hY] at granted free
        refine ⟨fun u i r g w hu hr hg hw => ?_, fun i hi ho => ?_, fun u hu => ?_, ?_⟩
        · obtain ⟨slot, write⟩ := granted.slot u i r g w hu hr hg hw
          exact ⟨(hslot i).trans slot, (hwrite u).trans write⟩
        · exact (hslot i).trans (free i ((inNamed i).2 hi) ho)
        · exact (hwrite u).trans (granted.write u hu)
        · exact (congrArg Mover.grantOrder hmover).trans granted.order
      · exact (congrArg Mover.fetches hmover).trans fetches
      · exact (congrArg Mover.returns hmover).trans returns
      · exact (congrArg Mover.fillOrder hmover).trans fills
      · have pressed := State.endsAs_pressure ends
        rw [D.pressure, params] at pressed
        refine pressed.trans ?_
        rw [State.countSlots_slots hslots.symm]
        rfl
      · have raised := State.endsAs_notices ends hslots.symm k
        rw [D.pressure, D.notice k] at raised
        refine raised.trans ?_
        by_cases hk : k = ⟨.stagingHigh, none⟩
        · subst hk
          rfl
        · rw [if_neg hk, if_neg hk]
          rfl
      · exact (congrArg LogUnit.errorCount hlog).trans D.errors
      · exact hdrain.trans D.drainOrder
      · exact htable.trans table
      · exact hmaps.trans maps
      · exact hparams.trans params

end Sys2Proof.Machine
end

section
/-! PROOFS. The family 'other', the arbiter's choice (R79, R115, R118 to R120). -/

namespace Sys2Proof.Machine

/-! ## What the arbiter starts -/

theorem startOp_setPort {s : State} {p : Port} {k : OpKind} (hk : k ≠ .wake) (u : OpUser) (x : PortRecord) :
    startOp p k u (s.setPort p x) =
      s.setPort p { x with engine := .busy, op := some ⟨k, u, 1, s.clock + 15, false⟩ } := by
  have port : (s.setPort p x).port p = x := by simp
  have same : (s.setPort p x).setPort p { x with engine := .busy, op := some ⟨k, u, 1, s.clock + 15, false⟩ } =
      s.setPort p { x with engine := .busy, op := some ⟨k, u, 1, s.clock + 15, false⟩ } := by
    unfold State.setPort
    rw [Vector.set_set]
  refine Eq.trans ?_ same
  unfold startOp
  rw [port]
  cases k with
  | wake => exact absurd rfl hk
  | ident | rdblk | pgblk | sleep => rfl

theorem arbitrate_rests {s : State} {p : Port} (h : (s.port p).op.isSome = true ∨ (s.port p).engine = .busy ∨
    (s.port p).engine = .waking ∨ ∀ n u, ¬ s.isUser p n u) : arbitrate p s = s := by
  unfold arbitrate
  split
  next => rfl
  next u hu =>
    split
    next => rfl
    next hop =>
      obtain c | c | c | c := h
      · exact absurd c hop
      · rw [c]
      · rw [c]
      · cases (State.chooseUser_none c).symm.trans hu

theorem arbitrate_wakes {s : State} {p : Port} (hop : (s.port p).op = none) (he : (s.port p).engine = .asleep)
    {n : Nat} {u : LaneUser} (hu : s.isUser p n u) : arbitrate p s = startOp p .wake .power s := by
  obtain ⟨v, hv⟩ := State.chooseUser_some hu
  unfold arbitrate
  rw [hv]
  dsimp only
  rw [hop, if_neg (by decide), he]

theorem arbitrate_starts {s : State} {p : Port} (hop : (s.port p).op = none) (he : (s.port p).engine = .idle)
    {n : Nat} {u : LaneUser} (hu : s.isUser p n u)
    (first : ∀ m v, s.isUser p m v → s.classPlace p n ≤ s.classPlace p m) :
    arbitrate p s = startUser p u (s.setPort p { s.port p with fairness := s.fairnessAfter p u }) := by
  unfold arbitrate
  rw [State.chooseUser_first hu first]
  dsimp only
  rw [hop, if_neg (by decide), he]

theorem State.isUser_fetch {s : State} {p : Port} {n : Nat} {t : Tag} (h : s.isUser p n (.fetch t)) :
    (n = 3 ∧ s.isUrgent t = true) ∨ (n = 6 ∧ s.isUrgent t = false) := by
  unfold State.isUser at h
  split at h
  case h_3 =>
    rename_i eu
    cases eu
    obtain ⟨-, a, b, -, ⟨-, urgent⟩, -⟩ := h
    exact .inl ⟨rfl, urgent⟩
  case h_6 =>
    rename_i eu
    cases eu
    obtain ⟨-, a, b, -, ⟨-, urgent⟩, -⟩ := h
    exact .inr ⟨rfl, urgent⟩
  case h_8 => exact h.elim
  all_goals
    rename_i eu
    cases eu

theorem startMapWrite_setPort {s : State} {c : Commit} (hc : s.mapStore.commit = some c) (w : MapWrite) (p : Port)
    (x : PortRecord) : startMapWrite p w (s.setPort p x) = startOp p
      (.pgblk w.pbn (storedBlock w.pbn (recordBytes w.state c.generation s.mapStore.draft.pool s.mapStore.draft)))
      (.mapWrite w c.generation s.mapStore.draft.pool true)
      ((s.setCommit (some { c with targets := c.targets.map (fun z => if z.port = p then { z with ask := none } else z) })).setPort
        p x) := by
  unfold startMapWrite
  rw [State.setPort_mapStore, hc]
  rfl

theorem startFetchOp_setPort {s : State} {t : Tag} {f : FetchRecord} {y : Fetch} {p q : Port} {b : Nat}
    (hf : s.fetchRecord t = some f) (hy : f.fetch = some y) (hs : y.stage = .portWait q b) (x : PortRecord) :
    startFetchOp p t (s.setPort p x) = startOp p (.rdblk b) (.fetch ⟨t, f.admission⟩ y.lbn)
      ((s.setFetchRecord t (some { f with fetch := some { y with stage := .inFlight q b } })).setPort p x) := by
  have found : (s.setPort p x).fetchRecord t = some f := hf
  unfold startFetchOp
  rw [found]
  dsimp only
  rw [hy]
  dsimp only
  rw [hs]
  dsimp only
  rw [setFetch_some found]
  rfl

theorem startDrain_setPort {s : State} {i : SlotNo} {z : Nat} {m : Bool} {d : List Byte} {pl : Place} {p : Port}
    (hi : s.slot i = .dirty z m d) (hz : s.translate z = some pl) (x : PortRecord) :
    startDrain p i (s.setPort p x) = startOp p (.pgblk pl.pbn (storedBlock pl.pbn d)) (.drain i)
      (((s.setStaging i (.draining z m d)).setDrainOrder (s.staging.drainOrder.filter (fun j => j ≠ i))).setPort p x) := by
  have found : (s.setPort p x).slot i = .dirty z m d := hi
  have lies : (s.setPort p x).translate z = some pl := hz
  unfold startDrain
  rw [found]
  dsimp only
  rw [lies]
  rfl

/-- The arbiter starts the operation of the user it takes: the lane's record with the fairness count that follows. -/
theorem arbiter_starts {s S : State} {p : Port} {u : LaneUser} {k : OpKind} {v : OpUser} (hk : k ≠ .wake) {fair : Nat}
    (hf : s.fairnessAfter p u = fair)
    (hu : startUser p u (s.setPort p { s.port p with fairness := fair }) =
      startOp p k v (S.setPort p { s.port p with fairness := fair }))
    (hc : S.clock = s.clock) {n : Nat} (hop : (s.port p).op = none) (he : (s.port p).engine = .idle)
    (hn : s.isUser p n u) (first : ∀ m w, s.isUser p m w → s.classPlace p n ≤ s.classPlace p m) :
    arbitrate p s = S.setPort p { s.port p with
      engine := .busy, op := some ⟨k, v, 1, s.clock + 15, false⟩, fairness := fair } := by
  rw [arbitrate_starts hop he hn first, hf, hu, startOp_setPort hk, hc]

/-- Settles O39; `arbiter_starts` says what each user's operation leaves. -/
theorem arbiterResult : Obligations.ArbiterResult := by
  intro s p h x leaves started
  have ends : ∀ S : State, S.link = s.link → arbitrate p s = S → leaves S := by
    rintro S hl e
    refine ⟨settle (arbitrate p s), live_high h fun v => settle (arbitrate p v), ?_, ?_⟩
    · rw [settle_link, e, hl]
    · rw [e]
      exact restsAs_settle S
  refine ⟨fun c => ends s rfl (arbitrate_rests c), fun hop he hu => ?_,
    fun hop he n u hu first => ⟨fun e => ?_, fun e => ?_, fun e => ?_, fun w c e hc => ?_,
      fun t f y b e hf hy hs fair h3 h6 h6' => ?_, fun i z m d pl e hi hz => ?_⟩⟩
  · obtain ⟨n, u, hu⟩ := hu
    exact ends _ rfl ((arbitrate_wakes hop he hu).trans rfl)
  all_goals subst e
  · exact ends _ rfl (arbiter_starts (S := s) (k := .ident) (v := .probe) (by decide) rfl rfl rfl hop he hu first)
  · exact ends _ rfl (arbiter_starts (S := s) (k := .rdblk 0) (v := .probe) (by decide) rfl rfl rfl hop he hu first)
  · exact ends _ rfl (arbiter_starts (S := s) (k := .rdblk 1) (v := .probe) (by decide) rfl rfl rfl hop he hu first)
  · exact ends _ rfl (arbiter_starts (u := .mapWrite w) (by simp) rfl (startMapWrite_setPort hc w p _) rfl hop he hu first)
  · have fairness : s.fairnessAfter p (.fetch t) = fair := by
      obtain ⟨rfl, urgent⟩ | ⟨rfl, urgent⟩ := State.isUser_fetch hu
      · rw [h3 rfl]
        exact if_pos urgent
      · refine (if_neg (by rw [urgent]; decide)).trans ?_
        by_cases waits : ∃ i, s.isDrainCandidate p i
        · obtain ⟨i, hi⟩ := waits
          rw [h6' rfl ⟨i, hi⟩, (s.openDrain_iff p i).2 hi]
          rfl
        · rw [h6 rfl fun i hi => waits ⟨i, hi⟩, Option.eq_none_iff_forall_ne_some.2 fun i hi =>
            waits ⟨i, (s.openDrain_iff p i).1 hi⟩]
          rfl
    exact ends _ rfl (arbiter_starts (u := .fetch t) (by simp) fairness (startFetchOp_setPort hf hy hs _) rfl hop he hu first)
  · exact ends _ rfl (arbiter_starts (u := .drain i) (by simp) rfl (startDrain_setPort hi hz _) rfl hop he hu first)

end Sys2Proof.Machine
end

section
/-! PROOFS. The family 'other', the idle timer's expiry and the end of PARKING (R114, R163, R164, R167). -/

namespace Sys2Proof.Machine

/-! ## SLEEP asked at an expiry and at the end of PARKING (R163, R167) -/

theorem State.writingPhase_iff (s : State) :
    s.writingPhase = true ↔ ∃ c, s.mapStore.commit = some c ∧ (c.phase = .tentative ∨ c.phase = .final) := by
  unfold State.writingPhase
  cases hc : s.mapStore.commit with
  | none => simp
  | some c =>
    dsimp only
    cases hp : c.phase with
    | quiesce m => simp [hp]
    | tentative | final => simp [hp]

theorem State.opInFlight_iff (s : State) : s.opInFlight = true ↔ ∃ p, (s.port p).op ≠ none := by
  unfold State.opInFlight
  simp [List.any_eq_true, mem_allPorts, Option.isSome_iff_ne_none]

theorem State.parkCondition_iff (s : State) : s.parkCondition = true ↔ s.power.state = .parking ∧
    (∀ t r, s.request t = some r → r.state ≠ .active ∧ r.state ≠ .settling ∧ r.state ≠ .aborting) ∧
    (∀ p, (s.port p).op = none) ∧ ∀ c, s.mapStore.commit = some c → c.phase ≠ .tentative ∧ c.phase ≠ .final := by
  have requests : (allTags.all fun t => !(s.inState .active t || s.inState .settling t || s.inState .aborting t)) = true ↔
      ∀ t r, s.request t = some r → r.state ≠ .active ∧ r.state ≠ .settling ∧ r.state ≠ .aborting := by
    simp only [List.all_eq_true, mem_allTags, forall_const, Bool.not_eq_true', Bool.or_eq_false_iff]
    refine forall_congr' fun t => ?_
    unfold State.inState
    cases s.request t with
    | none => simp
    | some r => simp [and_assoc]
  have lanes : (!s.opInFlight) = true ↔ ∀ p, (s.port p).op = none := by
    rw [Bool.not_eq_true', ← Bool.not_eq_true, s.opInFlight_iff]
    exact ⟨fun h p => Classical.byContradiction fun k => h ⟨p, k⟩, fun h ⟨p, k⟩ => k (h p)⟩
  have maps : (!s.writingPhase) = true ↔
      ∀ c, s.mapStore.commit = some c → c.phase ≠ .tentative ∧ c.phase ≠ .final := by
    rw [Bool.not_eq_true', ← Bool.not_eq_true, s.writingPhase_iff]
    exact ⟨fun h c hc => ⟨fun k => h ⟨c, hc, .inl k⟩, fun k => h ⟨c, hc, .inr k⟩⟩,
      fun h ⟨c, hc, k⟩ => k.elim (h c hc).1 (h c hc).2⟩
  unfold State.parkCondition
  rw [Bool.and_eq_true, Bool.and_eq_true, Bool.and_eq_true, decide_eq_true_iff, requests, lanes, maps, and_assoc, and_assoc]

/-- The two events that ask SLEEP: what they leave, of the state `A` in which every idle port has been asked. -/
theorem sleepAll_rests {s A : State} {n : Notices} (hA : sleepAll s = A) (hr : s.resting = true) :
    settle { A with notices := n } = ({ A with notices := n } : State).setIdleTimer none ∧
      ∃ v m, A = { s with ports := v, power := { s.power with marks := m } } := by
  obtain ⟨⟨v, m, e⟩, slept⟩ := sleepAll_spec s
  rw [hA] at e slept
  have asks : ∀ p, Slept s { A with notices := n } .clear p := slept
  have still : ({ A with notices := n } : State).resting = true := by
    rw [e]
    exact hr
  exact ⟨settle_slept still asks, v, m, e⟩

theorem idleTimerExpires_rests {s : State} (h : (∀ m, s.power.idleTimer = some m → s.clock < m) ∨ s.power.state ≠ .active) :
    idleTimerExpires s = s := by
  unfold idleTimerExpires
  split
  next => rfl
  next m hm =>
    refine if_neg fun ⟨hr, ha⟩ => ?_
    have late : m ≤ s.clock := of_decide_eq_true hr
    exact h.elim (fun k => absurd (k m hm) (by omega)) fun k => k ha

theorem idleTimerExpires_reached {s : State} {m : Nat} (hm : s.power.idleTimer = some m) (hc : m ≤ s.clock)
    (ha : s.power.state = .active) :
    idleTimerExpires s = settle (sleepAll ((s.setPower .lowPower).setIdleTimer none)) := by
  unfold idleTimerExpires
  rw [hm]
  exact if_pos ⟨decide_eq_true hc, ha⟩

/-- Settles O60; `sleepAll_spec` says what becomes of each port. -/
theorem powerEventsResult : Obligations.PowerEventsResult := by
  intro s h asked stands ready
  refine ⟨fun k => (live_high h idleTimerExpires).trans (congrArg _ (idleTimerExpires_rests k)), fun m hm hc ha => ?_,
    fun k => (live_high h completePark).trans (congrArg _ (if_neg (mt s.parkCondition_iff.1 k))), fun k => ?_⟩
  · obtain ⟨A, hA⟩ : ∃ A, sleepAll ((s.setPower .lowPower).setIdleTimer none) = A := ⟨_, rfl⟩
    have slept := (sleepAll_spec ((s.setPower .lowPower).setIdleTimer none)).2
    obtain ⟨rests, v, marks, e⟩ := sleepAll_rests (n := A.notices) hA rfl
    have expires := (live_high h idleTimerExpires).trans (congrArg _ (idleTimerExpires_reached hm hc ha))
    rw [hA] at expires slept
    refine ⟨_, expires.trans (congrArg _ rests), ?_, ?_, fun p => slept p, ?_⟩
    all_goals rw [e]
    · exact ⟨rfl, rfl, rfl, rfl, rfl, rfl, rfl, rfl⟩
    all_goals rfl
  · obtain ⟨A, hA⟩ : ∃ A, sleepAll (s.setPower .parked) = A := ⟨_, rfl⟩
    have slept := (sleepAll_spec (s.setPower .parked)).2
    obtain ⟨n, raised⟩ := raise_eq ⟨.parked, none⟩ (.count A.nonFree) A
    obtain ⟨rests, v, marks, e⟩ := sleepAll_rests (n := n) hA rfl
    have completes : completePark s = settle (raise ⟨.parked, none⟩ (.count A.nonFree) A) := by
      rw [← hA]
      exact if_pos (s.parkCondition_iff.2 k)
    rw [raised, rests] at completes
    rw [hA] at slept
    refine ⟨_, (live_high h completePark).trans (congrArg _ completes), ?_, ?_, fun p => slept p, fun j => ?_⟩
    · rw [e]
      exact ⟨rfl, rfl, rfl, rfl, rfl, rfl, rfl, rfl⟩
    · rw [e]
      rfl
    · have found := raise_notice ⟨.parked, none⟩ j (.count A.nonFree) A
      rw [raised] at found
      refine Eq.trans found ?_
      rw [e]
      by_cases hj : j = ⟨.parked, none⟩
      · rw [hj]
        rfl
      · rw [if_neg hj, if_neg hj]
        rfl

end Sys2Proof.Machine
end

section
/-! PROOFS. The family 'other', the end of start-up (R3, R104, R157 to R159). -/

namespace Sys2Proof.Machine

/-! ## The start-up condition (R157) -/

theorem State.startupCondition_iff (s : State) : s.startupCondition = true ↔
    ∀ p, (s.port p).cls = .empty ∨ (s.port p).cls = .failed ∨ s.holdsFindings p = true := by
  unfold State.startupCondition
  simp [List.all_eq_true, mem_allPorts, or_assoc]

/-- The record that start-up selects, as the statement says it (R3, R158). -/
theorem State.selected_getD {s : State} {m : Map} (h : ((∀ p, s.heldRecord p = none) ∧ m = Map.empty) ∨
    ∃ p, s.heldRecord p = some m ∧ (∀ x n, s.heldRecord x = some n → n.generation ≤ m.generation) ∧
      ∀ x n, x < p → s.heldRecord x = some n → n.generation ≠ m.generation) : s.selected.getD Map.empty = m := by
  obtain ⟨none, rfl⟩ | ⟨p, held, newest, first⟩ := h
  · rw [selected_none none]
    rfl
  · rw [selected_some held newest first]
    rfl

theorem State.heldRecord_probe {s : State} {p : Port} {pr : Probe} (h : s.holdsFindings p = true)
    (hp : (s.port p).probe = some pr) : s.heldRecord p = pr.newest := by
  unfold State.heldRecord
  rw [if_pos h, hp]
  rfl

theorem classFor_held (m : Map) (o : Option Map) : classFor m (o.map (fun n => (n.generation, n.pool))) = match o with
    | none => .blank
    | some n => if n.pool ≠ m.pool then .foreign
      else if n.generation = m.generation then .pooled
      else if n.generation < m.generation then .stale else .foreign := by
  cases o
  all_goals rfl

/-- The end of start-up: the maps it installs, the ports it classifies and the notices it raises. -/
structure Started (s t : State) (m : Map) : Prop where
  link : t.link = s.link
  params : t.params = s.params
  maps : t.mapStore = ⟨m, m, s.mapStore.ceiling, true, s.mapStore.commit⟩
  port : ∀ p, (t.port p).cls = (if s.holdsFindings p
      then classFor m ((s.heldRecord p).map (fun n => (n.generation, n.pool))) else (s.port p).cls) ∧
    ∀ pr, s.holdsFindings p = true → (s.port p).probe = some pr → (t.port p).probe = none ∧
      (t.port p).member = some ⟨pr.capacity, pr.identity, (s.heldRecord p).map (fun n => (n.generation, n.pool))⟩
  done : (∀ i, (s.slot i).isDirty = false) → t.notice ⟨.startDone, none⟩ =
    some (raisedOnce ⟨.startDone, none⟩ (.number m.generation) (s.notice ⟨.startDone, none⟩))
  attached : (∀ i, (s.slot i).isDirty = false) → ∀ p, t.notice ⟨.portAttached, some p⟩ = if s.holdsFindings p
    then some (raisedOnce ⟨.portAttached, some p⟩ (.portClass (t.port p).cls) (s.notice ⟨.portAttached, some p⟩))
    else s.notice ⟨.portAttached, some p⟩

/-- What classification makes of one port. -/
theorem State.classifiedPort_spec {s : State} {l : List Port} {p : Port} (hp : p ∈ l) :
    (s.classifiedPort l p).cls = (if s.holdsFindings p
      then classFor s.mapStore.active ((s.heldRecord p).map (fun n => (n.generation, n.pool))) else (s.port p).cls) ∧
    ∀ pr, s.holdsFindings p = true → (s.port p).probe = some pr → (s.classifiedPort l p).probe = none ∧
      (s.classifiedPort l p).member =
        some ⟨pr.capacity, pr.identity, (s.heldRecord p).map (fun n => (n.generation, n.pool))⟩ := by
  unfold State.classifiedPort
  cases held : s.holdsFindings p
  · exact ⟨by simp, fun _ k => by cases k⟩
  · obtain ⟨pr, hpr⟩ := State.holdsFindings_probe held
    rw [if_pos ⟨hp, rfl⟩, if_pos rfl, hpr, State.heldRecord_probe held hpr]
    refine ⟨rfl, fun pr' _ e => ?_⟩
    cases e
    exact ⟨rfl, rfl⟩

theorem endStartup_started {s : State} {m : Map} (h : s.selected.getD Map.empty = m) : Started s (endStartup s) m := by
  obtain ⟨A, hA⟩ : ∃ A, s.setMaps { s.mapStore with active := m, draft := m } = A := ⟨_, rfl⟩
  obtain ⟨C, hC⟩ : ∃ C, classifyHeld A = C := ⟨_, rfl⟩
  have held : ∀ p, A.holdsFindings p = s.holdsFindings p := fun p => by
    rw [← hA]
    rfl
  have record : ∀ p, A.heldRecord p = s.heldRecord p := fun p => by
    rw [← hA]
    rfl
  have ports : ∀ p, A.port p = s.port p := fun p => by
    rw [← hA]
    rfl
  have notices : ∀ k, A.notice k = s.notice k := fun k => by
    rw [← hA]
    rfl
  have slots : ∀ i, A.slot i = s.slot i := fun i => by
    rw [← hA]
    rfl
  have K := classifyHeld_spec A
  rw [hC] at K
  have maps : C.mapStore = ⟨m, m, s.mapStore.ceiling, s.mapStore.ready, s.mapStore.commit⟩ := by
    rw [K.mapStore, ← hA]
    rfl
  have ends : endStartup s = raise ⟨.startDone, none⟩ (.number m.generation)
      (C.setMaps ⟨m, m, s.mapStore.ceiling, true, s.mapStore.commit⟩) := by
    unfold endStartup
    rw [h]
    dsimp only
    rw [hA, hC, maps]
    rfl
  obtain ⟨n, raised⟩ := raise_eq ⟨.startDone, none⟩ (.number m.generation)
    (C.setMaps ⟨m, m, s.mapStore.ceiling, true, s.mapStore.commit⟩)
  have found := fun j => raise_notice ⟨.startDone, none⟩ j (.number m.generation)
    (C.setMaps ⟨m, m, s.mapStore.ceiling, true, s.mapStore.commit⟩)
  rw [← ends] at raised found
  have active : A.mapStore.active = m := by
    rw [← hA]
    rfl
  have port : ∀ p, (endStartup s).port p = A.classifiedPort allPorts p := fun p => by
    rw [raised]
    exact K.port p
  constructor
  case link =>
    rw [raised]
    exact K.link.trans (by rw [← hA]; rfl)
  case params =>
    rw [raised]
    exact K.params.trans (by rw [← hA]; rfl)
  case maps =>
    rw [raised]
    rfl
  case port =>
    intro p
    have spec := A.classifiedPort_spec (mem_allPorts p)
    rw [active, held, record, ports] at spec
    rw [port]
    exact spec
  case done =>
    intro clean
    rw [found, if_pos rfl]
    have before := K.others (fun i => by rw [slots]; exact clean i) ⟨.startDone, none⟩ (by decide)
    rw [notices] at before
    exact congrArg (fun o => some (raisedOnce ⟨.startDone, none⟩ (.number m.generation) o)) before
  case attached =>
    intro clean p
    rw [found, if_neg (by simp)]
    have before := K.attached (fun i => by rw [slots]; exact clean i) p
    rw [held, notices, K.port p, ← port p] at before
    refine Eq.trans before ?_
    simp only [mem_allPorts p, true_and]

/-- Settles O58; `Started` is the end of start-up before the end of its event. -/
theorem startupEndResult : Obligations.StartupEndResult := by
  refine fun s h => ⟨fun hr => ?_, fun ⟨p, h1, h2, h3⟩ => ?_, fun hr hp m hm => ?_⟩
  · refine congrArg Host.Outcome.next ((if_neg (by rw [h]; decide)).trans (if_neg ?_))
    rintro ⟨k, -⟩
    cases hr.symm.trans k
  · refine congrArg Host.Outcome.next ((if_neg (by rw [h]; decide)).trans (if_neg ?_))
    rintro ⟨-, k⟩
    obtain c | c | c := s.startupCondition_iff.1 k p
    · exact h1 c
    · exact h2 c
    · cases h3.symm.trans c
  · have S := endStartup_started (State.selected_getD hm)
    have taken : exec .startupEnd s = .next (settleStaging (endStartup s)) := congrArg Host.Outcome.next
      ((if_neg (by rw [h]; decide)).trans (if_pos ⟨hr, s.startupCondition_iff.2 hp⟩))
    generalize endStartup s = t at S taken
    obtain ⟨u, hu⟩ : ∃ u, u = settleStaging t := ⟨_, rfl⟩
    have ports : ∀ p, ∃ e o, u.port p = { t.port p with engine := e, op := o } := fun p => by
      rw [hu]
      exact settleStaging_port t p
    have classes : ∀ p, (u.port p).cls = (t.port p).cls := fun p => by
      obtain ⟨e, o, k⟩ := ports p
      rw [k]
    have notices : ∀ k, k.kind ≠ .stagingHigh → u.notice k = t.notice k := fun k hk => by
      rw [hu]
      exact settleStaging_notice t k hk
    refine ⟨u, by rw [hu]; exact taken, by rw [hu, settleStaging_link, S.link],
      by rw [hu, settleStaging_params, S.params], by rw [hu, settleStaging_mapStore, S.maps], fun p => ?_,
      fun p pr hf hpr => ?_, fun clean => ⟨?_, fun p => ?_⟩⟩
    · refine (classes p).trans ((S.port p).1.trans ?_)
      exact congrArg (fun c => if s.holdsFindings p then c else (s.port p).cls) (classFor_held m (s.heldRecord p))
    · obtain ⟨probe, member⟩ := (S.port p).2 pr hf hpr
      obtain ⟨e, o, k⟩ := ports p
      rw [k]
      exact ⟨probe, member⟩
    · rw [notices _ (by decide)]
      exact S.done clean
    · rw [notices _ (by simp), classes]
      exact S.attached clean p

end Sys2Proof.Machine
end

section
/-! PROOFS. The family 'other', MAP-COMMIT, the quiesce evaluation and its limit (R20, R21, R143 to R146, R154). -/

namespace Sys2Proof.Machine

/-! ## MAP-COMMIT (R20, R21, R143, R144) -/

theorem State.targetPorts_isEmpty (s : State) : s.targetPorts.isEmpty = true ↔ ∀ p, s.isTargetPort p = false := by
  rw [s.targetPorts_eq, List.isEmpty_iff, List.filter_eq_nil_iff]
  simp [mem_allPorts]

/-- A port set as a byte, bit p for port p (R224). -/
theorem portSet_filter (f : Port → Bool) : portSet (allPorts.filter f) =
    byte ((f 0).toNat + 2 * (f 1).toNat + 4 * (f 2).toNat + 8 * (f 3).toNat) := by
  have four : ∀ a b c d : Bool, portSet (allPorts.filter (fun p => [a, b, c, d][p])) =
      byte (a.toNat + 2 * b.toNat + 4 * c.toNat + 8 * d.toNat) := by decide
  have same : f = fun p => [f 0, f 1, f 2, f 3][p] := by
    funext p
    match p with
    | 0 | 1 | 2 | 3 => rfl
  exact (congrArg (fun g => portSet (allPorts.filter g)) same).trans (four (f 0) (f 1) (f 2) (f 3))

/-- The state in which a commit has begun, before the first quiesce evaluation. -/
def State.committing (s : State) (c : Commit) : State := { s with
  mapStore := { s.mapStore with commit := some c }
  power := if s.power.state = .parking ∨ s.power.state = .parked then
    { s.power with state := .active, marks := Vector.replicate 4 .clear } else s.power }

theorem acceptCommit_eq (s : State) : acceptCommit s = settle (evalQuiesce (s.committing s.newCommit)) := by
  unfold acceptCommit State.committing
  by_cases h : s.power.state = .parking ∨ s.power.state = .parked
  · rw [if_pos h]
    exact congrArg (fun v => settle (evalQuiesce v)) (if_pos h)
  · rw [if_neg h]
    exact congrArg (fun v => settle (evalQuiesce v)) (if_neg h)

theorem evalQuiesce_committing {s : State} {c k : Commit} {m : Nat} (hm : c.phase = .quiesce m)
    (h1 : s.quiesced → k = c.asked) (h2 : ¬ s.quiesced → k = c) :
    evalQuiesce (s.committing c) = s.committing k := by
  obtain ⟨asks, waits⟩ := evalQuiesce_eq (s := s.committing c) rfl hm
  by_cases h : s.quiesced
  · rw [h1 h]
    exact asks h
  · rw [h2 h]
    exact waits h

/-- The branches of a MAP-COMMIT without a payload, past the first two checks. -/
theorem takeMapCommit_ready {s : State} (hr : s.mapStore.ready = true) (hc : s.mapStore.commit = none) :
    takeMapCommit [] s =
      if s.targetPorts.isEmpty then commitReply .noTarget 0 0 0 [] s
      else if s.mapStore.active.generation = Config.lastGeneration then
        commitReply .mapInvalid InvalidReason.range.code 8 0 [] s
      else match s.validate with
        | some (reason, i) => commitReply .mapInvalid reason.code (byte i) 0 [] s
        | none => commitReply .commitStarted 0 0 (s.mapStore.active.generation + 1) s.targetPorts (acceptCommit s) := by
  unfold takeMapCommit
  rw [hr, hc]
  rfl

theorem takeMapCommit_busy {s : State} {c : Commit} (hr : s.mapStore.ready = true) (hc : s.mapStore.commit = some c) :
    takeMapCommit [] s = commitReply .mapBusy c.phase.code 0 0 [] s := by
  have code : s.phaseCode = c.phase.code := by
    unfold State.phaseCode
    rw [hc]
  unfold takeMapCommit
  rw [hr, hc, code]
  rfl

/-- Settles O56; `State.committing` is the state before the first quiesce evaluation. -/
theorem mapCommitResult : Obligations.MapCommitResult := by
  intro s q h refused
  have refuse : ∀ (st : ReplyStatus) (a b : Byte) (body : List Byte),
      takeMapCommit body (acceptFrame s) = commitReply st a b 0 [] (acceptFrame s) →
      exec (.mapCommit q body) s = refused st.code a b := fun st a b body ha =>
    exec_reported h .mapCommit (by decide) body (fs := [a, b, 0, 0, 0, 0, 0]) ha
  refine ⟨fun body hb => refuse .malformed 0 0 body ?_, fun hr => refuse .starting 0 0 [] ?_,
    fun c hr hc => refuse .mapBusy _ 0 [] ?_, fun hr hc => ?_⟩
  · unfold takeMapCommit
    rw [if_pos (by cases body with | nil => exact absurd rfl hb | cons => rfl)]
  · unfold takeMapCommit
    rw [if_neg (by decide)]
    exact if_pos hr
  · exact takeMapCommit_busy (s := acceptFrame s) hr hc
  · have ready := takeMapCommit_ready (s := acceptFrame s) hr hc
    refine ⟨fun none => refuse .noTarget 0 0 [] (ready.trans (if_pos ((acceptFrame s).targetPorts_isEmpty.2 none))),
      fun p hp => ?_⟩
    have targets : ¬ (acceptFrame s).targetPorts.isEmpty = true := fun k => by
      cases hp.symm.trans ((acceptFrame s).targetPorts_isEmpty.1 k p)
    rw [if_neg targets] at ready
    refine ⟨fun last => refuse .mapInvalid 0x03 8 [] (ready.trans (if_pos last)), fun last => ?_⟩
    replace ready := ready.trans (if_neg last)
    refine ⟨fun i r hi lower first => refuse .mapInvalid r.code (byte i.val) [] ?_, fun good => ?_⟩
    · rw [ready, State.validate_some (s := acceptFrame s) hi lower first]
    · rw [State.validate_none (s := acceptFrame s) good, acceptCommit_eq] at ready
      intro g record
      have new : (acceptFrame s).newCommit = record := by
        unfold State.newCommit
        rw [State.targetPorts_eq]
        rfl
      have first : ∃ k, (s.quiesced → k = record.asked) ∧ (¬ s.quiesced → k = record) := by
        by_cases hs : s.quiesced
        · exact ⟨record.asked, fun _ => rfl, fun c => absurd hs c⟩
        · exact ⟨record, fun c => absurd c hs, fun _ => rfl⟩
      obtain ⟨k, h1, h2⟩ := first
      rw [new, evalQuiesce_committing (s := acceptFrame s) rfl h1 h2, State.targetPorts_eq] at ready
      refine ⟨_, exec_answered h .mapCommit (by decide) [] ready ((settle_link _).trans rfl), ?_, fun k' h1' h2' => ?_⟩
      · refine congrArg (fun b => s.link.replied q ([0x34, 0x14, 0, 0] ++ (le 4 g.toNat ++ [b])) .nothing) ?_
        exact portSet_filter (acceptFrame s).isTargetPort
      · have same : k' = k := by
          by_cases hs : s.quiesced
          · rw [h1 hs, h1' hs]
          · rw [h2 hs, h2' hs]
        rw [same]
        exact State.restsAs_message (acceptFrame s).link _ (restsAs_settle ((acceptFrame s).committing k))
/-! ## The quiesce evaluation and its limit (R145, R146, R154) -/

theorem orphanWrite_idle {p : Port} {s : State} (h : ∀ o w g y b, (s.port p).op = some o → o.user ≠ .mapWrite w g y b) :
    orphanWrite p s = s := by
  unfold orphanWrite
  split
  next o ho =>
    split
    next w g y b hu => exact absurd hu (h o w g y b ho)
    all_goals rfl
  next => rfl

/-- The end of a commit where no port holds findings and no map write is in flight. -/
theorem endCommit_still {s : State} {c : Commit} (r : CommitResult) (hc : s.mapStore.commit = some c)
    (hp : ∀ p, s.holdsFindings p = false)
    (ho : ∀ p o w g y b, (s.port p).op = some o → o.user ≠ .mapWrite w g y b) :
    endCommit r s = raise ⟨.commitDone, none⟩ (.commit r s.mapStore.active.generation c.written c.failed)
      (s.setCommit none) := by
  have writes : allPorts.foldl (fun acc p => orphanWrite p acc) s = s :=
    foldl_idle _ _ _ fun p _ => orphanWrite_idle (ho p)
  have held : classifyHeld (s.setCommit none) = s.setCommit none := classifyHeld_idle (s := s.setCommit none) hp
  unfold endCommit
  rw [hc]
  dsimp only
  rw [writes, held]
  rfl

theorem State.holdsFindings_other {s : State} {p : Port} (h : (s.port p).cls ≠ .probe) : s.holdsFindings p = false := by
  unfold State.holdsFindings
  rw [decide_eq_false h, Bool.false_and]

theorem quiesceTimesOut_other {s : State}
    (h : s.mapStore.commit = none ∨ ∃ c, s.mapStore.commit = some c ∧ ∀ m, c.phase = .quiesce m → s.clock < m) :
    quiesceTimesOut s = s := by
  unfold quiesceTimesOut
  obtain none | ⟨c, hc, hm⟩ := h
  · rw [none]
  · rw [hc]
    dsimp only
    split
    next m hq =>
      have early := hm m hq
      exact if_neg fun k => absurd (of_decide_eq_true k) (by omega)
    next => rfl
    next => rfl

theorem quiesceTimesOut_reached {s : State} {c : Commit} {m : Nat} (hc : s.mapStore.commit = some c)
    (hm : c.phase = .quiesce m) (h : m ≤ s.clock) :
    quiesceTimesOut s = settleStaging (endCommit .failedQuiesce
      (addEntry ⟨.quiesceTimeout, .map, none, none, none, none, 0⟩ s)) := by
  unfold quiesceTimesOut
  rw [hc]
  dsimp only
  rw [hm]
  exact if_pos (decide_eq_true h)

theorem exec_quiesceEvaluation {s S : State} (h : s.resetLow = false) (e : evalQuiesce s = S) (hl : S.link = s.link) :
    ∃ t, exec .quiesceEvaluation s = .next t ∧ S.restsAs t ∧ t.link = s.link := by
  refine ⟨settle (evalQuiesce s), live_high h fun v => settle (evalQuiesce v), ?_, ?_⟩
  · rw [e]
    exact restsAs_settle S
  · rw [settle_link, e, hl]

/-- Settles O57; the expired limit is `quiesceTimesOut_reached`, the end of its commit `endCommit_still`. -/
theorem quiesceResult : Obligations.QuiesceResult := by
  refine fun s h => ⟨fun k => exec_quiesceEvaluation h (evalQuiesce_other k) rfl, fun c m hc hm => ⟨fun hs => ?_,
    fun early => ?_, fun late hp ho => ?_⟩, fun k => ?_⟩
  · obtain ⟨t, taken, rests, link⟩ := exec_quiesceEvaluation h ((evalQuiesce_eq hc hm).1 hs) rfl
    exact ⟨t, taken, link, rests⟩
  · refine (live_high h quiesceTimesOut).trans (congrArg _ (quiesceTimesOut_other (.inr ⟨c, hc, fun n hn => ?_⟩)))
    cases hm.symm.trans hn
    exact early
  · obtain ⟨n, entered, found⟩ := addEntry_entry ⟨.quiesceTimeout, .map, none, none, none, none, 0⟩ s
    have times := quiesceTimesOut_reached hc hm late
    obtain ⟨X, hX⟩ : ∃ X, addEntry ⟨.quiesceTimeout, .map, none, none, none, none, 0⟩ s = X := ⟨_, rfl⟩
    rw [hX] at entered times
    have commit : X.mapStore.commit = some c := by
      rw [entered]
      exact hc
    have findings : ∀ p, X.holdsFindings p = false := fun p => by
      rw [entered]
      exact State.holdsFindings_other (s := s) (hp p)
    have writes : ∀ p o w g y b, (X.port p).op = some o → o.user ≠ .mapWrite w g y b := by
      rw [entered]
      exact ho
    have active : X.mapStore.active = s.mapStore.active := by
      rw [entered]
    rw [endCommit_still .failedQuiesce commit findings writes, active] at times
    obtain ⟨ns, raised, pending⟩ := raise_spec ⟨.commitDone, none⟩
      (.commit .failedQuiesce s.mapStore.active.generation c.written c.failed) (X.setCommit none)
    rw [raised] at times
    refine ⟨_, ns, (live_high h quiesceTimesOut).trans (congrArg _ times), ?_, ?_, fun k => ?_⟩
    · rw [settleStaging_link, entered]
      rfl
    · have ends := endsAs_settleStaging { X.setCommit none with notices := ns }
      rw [entered] at ends ⊢
      exact ends
    · have before : (X.setCommit none).notice k = if k = ⟨.logAdded, none⟩
          then some (raisedOnce k (.number s.log.nextNumber) (s.notice k)) else s.notice k := by
        rw [entered]
        exact found k
      rw [pending k, before]
      by_cases hk : k = ⟨.commitDone, none⟩
      · subst hk
        rfl
      · rw [if_neg hk, if_neg hk]
  · refine (live_high h quiesceTimesOut).trans (congrArg _ (quiesceTimesOut_other ?_))
    exact k.imp id fun ⟨c, hc, hm⟩ => ⟨c, hc, fun m hq => absurd hq (hm m)⟩

end Sys2Proof.Machine
end

section
/-! PROOFS. The family 'other', PORT-RESET (R122, R123, R134). -/

namespace Sys2Proof.Machine

/-! ## What a fault that halts the queue leaves to the rest of its event -/

/-- A halt does not read the notices it finds, nor the ports and sleep marks after it. -/
theorem State.haltsOn.around {s t : State} {u : Tag} {st : CompletionStatus} {y : Option Nat} {c : HistoryCause}
    (h : s.haltsOn t u st y c) {ns ms : Notices} {v : Vector PortRecord 4} {w : Power}
    (hn : ∀ k, k ≠ ⟨.stagingHigh, none⟩ → ms.pending.find? (fun n => n.key = k) =
      if k = ⟨.queueHalted, none⟩ then some (raisedOnce k (.tag u) (ns.pending.find? (fun n => n.key = k)))
      else if k = ⟨.logAdded, none⟩ then some (raisedOnce k (.number s.log.nextNumber) (ns.pending.find? (fun n => n.key = k)))
      else ns.pending.find? (fun n => n.key = k)) :
    State.haltsOn { s with notices := ns } { t with notices := ms, ports := v, power := w } u st y c := by
  obtain ⟨r, own, after, snapshot, absent, others, completed, order, counter, writes, fetches, returns, slots, drains, log,
    -, rest⟩ := h
  exact ⟨r, own, after, snapshot, absent, others, completed, order, counter, writes, fetches, returns, slots, drains, log,
    hn, rest⟩

/-- The notices of a halt. -/
theorem State.haltsOn.notices {s t : State} {u : Tag} {st : CompletionStatus} {y : Option Nat} {c : HistoryCause}
    (h : s.haltsOn t u st y c) (k : NoticeKey) (hk : k ≠ ⟨.stagingHigh, none⟩) : t.notice k =
      if k = ⟨.queueHalted, none⟩ then some (raisedOnce k (.tag u) (s.notice k))
      else if k = ⟨.logAdded, none⟩ then some (raisedOnce k (.number s.log.nextNumber) (s.notice k))
      else s.notice k := by
  obtain ⟨_, -, -, -, -, -, -, -, -, -, -, -, -, -, -, notices, -⟩ := h
  exact notices k hk

/-- A halt makes no slot DIRTY. -/
theorem State.haltsOn.dirty {s t : State} {u : Tag} {st : CompletionStatus} {y : Option Nat} {c : HistoryCause}
    (h : s.haltsOn t u st y c) {i : SlotNo} {x : Nat} {m : Bool} {d : List Byte} (hi : t.slot i = .dirty x m d) :
    s.slot i = .dirty x m d := by
  obtain ⟨_, -, -, -, -, -, -, -, -, -, -, -, slots, -⟩ := h
  have found := (slots i).symm.trans hi
  cases hs : s.slot i with
  | filling y o m' =>
    rw [hs] at found
    dsimp only at found
    split at found
    next => cases found
    next => cases found
  | free | dirty | draining | stranded =>
    rw [hs] at found
    exact found

theorem State.haltsOn.mapStore {s t : State} {u : Tag} {st : CompletionStatus} {y : Option Nat} {c : HistoryCause}
    (h : s.haltsOn t u st y c) : t.mapStore = s.mapStore := by
  obtain ⟨_, -, -, -, -, -, -, -, -, -, -, -, -, -, -, -, maps, -⟩ := h
  exact maps

/-! ## The reset of a port (R123) -/

theorem PortRecord.noted_eq (x : PortRecord) : x.noted = match x.cls with
    | .empty | .probe | .debounce => x.debounce.bind (fun d => d.noted)
    | c => some c := by
  unfold PortRecord.noted
  cases x.cls
  all_goals rfl

/-- A reset is the entry to PROBE or EMPTY, after the users of a POOLED port have heard. -/
theorem resetPort_eq (p : Port) (s : State) : resetPort p s = enterPort p s.presence[p] (s.port p).noted
    (probeEngine (s.port p)) (if (s.port p).cls = .pooled then resetPooled p s else (s, [])).2
    (if (s.port p).cls = .pooled then resetPooled p s else (s, [])).1 := rfl

theorem resetPooled_idle {p : Port} {s : State} (h : (s.port p).op = none) : resetPooled p s = (failWaitingAll p s, []) := by
  unfold resetPooled
  rw [loseOp_none h]
  dsimp only
  rw [handOnWalk_nil]

theorem resetPort_settled (p : Port) (s : State) : ∃ st, (s.port p).stats.atMost st ∧
    (settleStaging (resetPort p s)).port p = (s.port p).entered s.presence[p] st := by
  rw [resetPort_eq]
  split
  next =>
    obtain ⟨st, more, port⟩ := loseOp_port p s
    have kept : (resetPooled p s).1.port p = (loseOp p s).1.port p := by
      unfold resetPooled
      dsimp only
      rw [(calm_failWaitingAll p _).port p, (calm_handOnWalk _ _).port p]
    obtain ⟨st', more', entered, -⟩ := enterPort_settled p s.presence[p] (s.port p).noted (resetPooled p s).2
      (resetPooled p s).1 (s.port p)
    rw [kept, port] at more'
    exact ⟨st', more.trans more', entered⟩
  next =>
    obtain ⟨st, more, entered, -⟩ := enterPort_settled p s.presence[p] (s.port p).noted [] s (s.port p)
    exact ⟨st, more, entered⟩

theorem resetPort_idle {p : Port} {s : State} (h : (s.port p).op = none)
    (hw : (s.port p).cls = .pooled → s.returnsSettled ∧ ∀ u, s.waitsOn p u = false) : resetPort p s =
      enterPort p s.presence[p] (s.port p).noted (probeEngine (s.port p)) [] s := by
  rw [resetPort_eq]
  split
  next pooled =>
    obtain ⟨settled, none⟩ := hw pooled
    rw [resetPooled_idle h, failWaitingAll_idle settled none]
  next => rfl

theorem resetPort_entered {p : Port} {s : State}
    (hw : (s.port p).cls = .pooled → s.returnsSettled ∧ ∀ u, s.waitsOn p u = false) :
    s.portEntered (settleStaging (resetPort p s)) p s.presence[p] (s.port p).noted := by
  cases ho : (s.port p).op with
  | none =>
    rw [resetPort_idle ho hw]
    exact portEntered_idle s.presence[p] (s.port p).noted ho
  | some o =>
    obtain ⟨st, more, entered⟩ := resetPort_settled p s
    exact ⟨st, more, entered, fun k => by cases ho.symm.trans k⟩

/-- The halt of a reset, where the first waiting fetch fails. -/
theorem resetPort_halts {p : Port} {s : State} {u : Tag} {r : Request} {f : FetchRecord} {v : Fetch}
    (hc : (s.port p).cls = .pooled) (ho : (s.port p).op = none)
    (hd : s.presence[p] = false → ∀ i x m d, s.slot i = .dirty x m d → s.liesOn p x = false) (hg : TableGood s)
    (hn : s.table.snapshot = none) (hw : firstOf s.table.admissionOrder (fun w => s.waitsOn p w = true) u)
    (hr : s.request u = some r) (ha : r.state = .active) (hf : s.fetchRecord u = some f) (hv : f.fetch = some v) :
    ∃ ns : Notices, (∀ k, ns.pending.find? (fun n => n.key = k) = if s.presence[p] = false ∧ k = ⟨.portDetached, some p⟩ then
        some (raisedOnce k (.portClass .pooled) (s.notice k)) else s.notice k) ∧
      ({ s with notices := ns } : State).haltsOn (settleStaging (resetPort p s)) u .memberLost (some v.lbn) .memberLost := by
  obtain ⟨F, hF⟩ : ∃ F, failWaitingAll p s = F := ⟨_, rfl⟩
  have halts := failWaitingAll_halts hg hn hw hr ha hf hv
  have port : F.port p = s.port p := by
    rw [← hF]
    exact (calm_failWaitingAll p s).port p
  rw [hF] at halts
  have noted : (s.port p).noted = some .pooled := by
    unfold PortRecord.noted
    rw [hc]
    rfl
  have op : (F.port p).op = none := by rw [port, ho]
  have reset : resetPort p s = enterPort p s.presence[p] (some .pooled) (probeEngine (s.port p)) [] F := by
    rw [resetPort_eq, if_pos hc, resetPooled_idle ho, hF, noted]
  rw [reset]
  unfold enterPort
  cases present : s.presence[p]
  · have clean : ∀ i x m d, F.slot i = .dirty x m d → F.liesOn p x = false := by
      intro i x m d hi
      have lies : F.liesOn p x = s.liesOn p x := by
        unfold State.liesOn State.translate
        rw [halts.mapStore]
      rw [lies]
      exact hd present i x m d (halts.dirty hi)
    rw [if_neg (by decide), portEmpty_idle p (some .pooled) F op clean]
    obtain ⟨ns, -, after⟩ := raise_spec ⟨.portDetached, some p⟩ (.portClass .pooled) s
    obtain ⟨ms, raised, found⟩ := raise_spec ⟨.portDetached, some p⟩ (.portClass .pooled) { F with
      ports := F.ports.set p ⟨.empty, none, none, .idle, none, none, 0, 0, (F.port p).stats⟩
      power := { F.power with marks := F.marksAfter p .empty } }
    refine ⟨ns, fun k => ?_, State.haltsOn.ends (t := { F with
      ports := F.ports.set p ⟨.empty, none, none, .idle, none, none, 0, 0, (F.port p).stats⟩
      power := { F.power with marks := F.marksAfter p .empty }
      notices := ms }) (halts.around fun k hk => ?_) ?_⟩
    · rw [after k]
      simp
    · rw [found k, after k]
      by_cases hp : k = ⟨.portDetached, some p⟩
      · subst hp
        rw [if_pos rfl, if_pos rfl, if_neg (by simp), if_neg (by simp)]
        have before := halts.notices ⟨.portDetached, some p⟩ (by simp)
        rw [if_neg (by simp), if_neg (by simp)] at before
        exact congrArg (fun o => some (raisedOnce ⟨.portDetached, some p⟩ (.portClass .pooled) o)) before
      · rw [if_neg hp, if_neg hp]
        exact halts.notices k hk
    · rw [← raised]
      exact endsAs_settleStaging _
  · rw [if_pos rfl, portProbe_idle p _ F op]
    refine ⟨s.notices, fun k => ?_, State.haltsOn.ends (t := { F with
      ports := F.ports.set p ⟨.probe, none, some Probe.start, probeEngine (s.port p), none, none, 0, 0, (F.port p).stats⟩
      power := { F.power with marks := F.marksAfter p .probe }
      notices := F.notices }) (halts.around fun k hk => halts.notices k hk) (endsAs_settleStaging _)⟩
    simp
    rfl
/-- The request that the operation in flight served ends MEMBER_LOST. -/
theorem resetPort_outcome {p : Port} {s : State} {o : Operation} {w : Owner} {z : Nat} {r : Request} {f : FetchRecord}
    {v : Fetch} (ho : (s.port p).op = some o) (hu : o.user = .fetch w z) (hr : s.request w.tag = some r)
    (ha : r.state = .active) (hf : s.fetchRecord w.tag = some f) (hw : f.admission = w.admission) (hv : f.fetch = some v) :
    ∃ q, (settleStaging (resetPort p s)).request w.tag = some q ∧ q.state = .reporting ∧ q.status = some .memberLost ∧
      q.failingLbn = some v.lbn ∧ q.blocksDone = r.blocksDone := by
  obtain ⟨q, lost, state, status, failing, done⟩ := loseOp_fetch ho hu hr ha hf hw hv
  obtain ⟨q', after, state', status', failing', done'⟩ := (loseOp_resetPort p s).outcome lost state
  exact ⟨q', (settleStaging_request _ _).trans after, state', status'.trans status, failing'.trans failing, done'.trans done⟩

/-- The form in which `portEntered` is used of a message. -/
theorem State.portEntered_message {s t : State} {p : Port} {present : Bool} {noted : Option PortClass} (l m : Link)
    (h : l.lost = s.link.lost) (k : State.portEntered { s with link := l } t p present noted) :
    s.portEntered { t with link := m } p present noted := by
  obtain ⟨st, more, port, idle⟩ := k
  refine ⟨st, more, port, fun ho => ⟨(idle ho).1, fun hd => ?_⟩⟩
  obtain ⟨ns, ends, notices⟩ := (idle ho).2 hd
  exact ⟨ns, State.endsAs_message l m h ends, notices⟩

/-- The checks of a PORT-RESET, and the reset that passes them. -/
theorem takePortReset_cases (b : Byte) (s : State) :
    (s.mapStore.ready = false → takePortReset [b] s = refuse .starting s) ∧
    (s.mapStore.ready = true → s.mapStore.commit.isSome = true → takePortReset [b] s = refuse .mapBusy s) ∧
    (s.mapStore.ready = true → s.mapStore.commit = none → 4 ≤ b.toNat → takePortReset [b] s = refuse .portInvalid s) ∧
    ∀ p : Port, b = byte p.val → s.mapStore.ready = true → s.mapStore.commit = none → takePortReset [b] s =
      answer .ok [b, if s.presence[p] then PortClass.probe.code else PortClass.empty.code] (settleStaging (resetPort p s)) := by
  have fields : takePortReset [b] s = if s.mapStore.ready = false then refuse .starting s
    else if s.mapStore.commit.isSome then refuse .mapBusy s
    else match portOfByte b with
      | none => refuse .portInvalid s
      | some p => answer .ok [b, if s.presence[p] then PortClass.probe.code else PortClass.empty.code]
        (settleStaging (resetPort p s)) := rfl
  refine ⟨fun hr => fields.trans (if_pos hr), fun hr hc => ?_, fun hr hc hb => ?_, fun p hb hr hc => ?_⟩
  · rw [fields, hr, if_neg (by decide), if_pos hc]
  · rw [fields, hr, hc, if_neg (by decide), if_neg (by decide), portOfByte_none hb]
  · have code : (byte p.val).toNat = p.val := by
      simp only [byte, BitVec.toNat_ofNat]
      omega
    have port : portOfByte b = some p := by
      rw [hb, portOfByte_some (by omega)]
      exact congrArg some (Fin.ext code)
    rw [fields, hr, hc, if_neg (by decide), if_neg (by decide), port]

/-- Settles O38; the three sorts of a port's users are `resetPort_entered`, `resetPort_outcome` and `resetPort_halts`. -/
theorem portResetResult : Obligations.PortResetResult := by
  refine fun s q h => ⟨fun body hb => ?_, fun b => ?_⟩
  · refine exec_refuse h .portReset (by decide) body (st := .malformed) ?_
    show takePortReset body (acceptFrame s) = _
    unfold takePortReset
    rw [byteField_none hb]
  · obtain ⟨starting, busy, invalid, resets⟩ := takePortReset_cases b (acceptFrame s)
    refine ⟨fun hr => exec_refuse h .portReset (by decide) [b] (starting hr),
      fun hr hc => exec_refuse h .portReset (by decide) [b] (busy hr hc),
      fun hr hc hb => exec_refuse h .portReset (by decide) [b] (invalid hr hc hb), fun p hb hr hc => ?_⟩
    have answered := resets p hb hr hc
    have near := (near_resetPort p (acceptFrame s)).trans (near_settleStaging _)
    have settled := resetPort_settled p (acceptFrame s)
    have entered := fun hw => resetPort_entered (s := acceptFrame s) (p := p) hw
    have outcome := fun o w z r f v ho hu hreq ha hf hadm hv =>
      resetPort_outcome (p := p) (s := acceptFrame s) (o := o) (w := w) (z := z) (r := r) (f := f) (v := v) ho hu hreq ha hf
        hadm hv
    have halts := fun u r f v hcls ho hd hg hn hw hreq ha hf hv =>
      resetPort_halts (p := p) (s := acceptFrame s) (u := u) (r := r) (f := f) (v := v) hcls ho hd hg hn hw hreq ha hf hv
    generalize settleStaging (resetPort p (acceptFrame s)) = T at answered near settled entered outcome halts
    have maps := near.noCommit hc
    have taken := exec_answered h .portReset (by decide) [b] answered near.link
    refine ⟨_, taken, ?_, maps, fun hw => ?_, outcome, halts, settled⟩
    · rfl
    · have enters := entered hw
      rw [PortRecord.noted_eq] at enters
      exact State.portEntered_message (acceptFrame s).link _ rfl enters

end Sys2Proof.Machine
end

section
/-! PROOFS. The family 'other', IDENT_END, SLEEP_END, WAKE_END and OP_TIMEOUT (R101, R103, R109 to R117, R124). -/

namespace Sys2Proof.Machine

/-! ## The end of a lane operation, of the port it is about -/

/-- An event that ends as it should: the form in which each end of an operation is stated. -/
theorem exec_settles {s S X : State} {c : Instr} (h : s.resetLow = false) (f : State → State) (hc : exec c s = live f s)
    (hf : f s = settleStaging X) (hX : X = S) (hl : S.link = s.link) :
    ∃ t, exec c s = .next t ∧ t.link = s.link ∧ S.endsAs t := by
  subst hX
  exact ⟨_, hc.trans ((live_high h f).trans (congrArg _ hf)), (settleStaging_link X).trans hl, endsAs_settleStaging X⟩

/-- `s` with the record of port `p` and the sleep marks rewritten. -/
def State.ported (s : State) (p : Port) (y : PortRecord) (m : Vector SleepMark 4) : State :=
  { s with ports := s.ports.set p y, power := { s.power with marks := m } }

@[simp] theorem State.ported_port (s : State) (p : Port) (y : PortRecord) (m : Vector SleepMark 4) :
    (s.ported p y m).port p = y := (s.port_setPort p p y).trans (if_pos rfl)

theorem State.ported_setPort (s : State) (p : Port) (y z : PortRecord) (m : Vector SleepMark 4) :
    (s.ported p y m).setPort p z = s.ported p z m := by
  unfold State.ported State.setPort
  rw [Vector.set_set]

theorem State.ported_other (s : State) {p q : Port} (h : q ≠ p) (y : PortRecord) (m : Vector SleepMark 4) :
    (s.ported p y m).port q = s.port q := (s.port_setPort p q y).trans (if_neg h)

theorem closeOp_ported (p : Port) {k : OpKind} (hk : k ≠ .sleep) (e : Engine) (v : StatEvent) (n : Nat) (s : State) :
    closeOp p k e v n s = s.ported p ((s.port p).closed e ((s.port p).stats.after v n)) (s.marksClosed p) :=
  closeOp_awake p k hk e v n s

theorem State.marksClosed_declined (s : State) (p : Port) (y : PortRecord) :
    (s.ported p y (s.marksClosed p)).mark p ≠ .declined := by
  show (s.marksClosed p)[p] ≠ .declined
  unfold State.marksClosed
  split
  next =>
    rw [Fin.getElem_fin, Vector.getElem_set_self]
    exact fun k => by cases k
  next h => exact h

/-- The answers of a command acknowledged after at most two that were not. -/
theorem scanCommand_acked {n : Nat} (h : n ≤ 2) :
    scanCommand 0 0 (List.replicate n .noAck ++ [.ack]) = some (.ok (), n + 1) := by
  match n, h with
  | 0, _ | 1, _ | 2, _ => rfl

theorem scanIdent_acked {n : Nat} (h : n ≤ 2) (cap : Nat) (id : Word32) :
    scanIdent 0 0 (List.replicate n .noAck ++ [.ack cap id]) = some (.ok (cap, id), n + 1) := by
  match n, h with
  | 0, _ | 1, _ | 2, _ => rfl

/-! ## The ends, case by case -/

theorem State.runningOp_cases (s : State) (p : Port) : s.runningOp p = none ∨
    ∃ o, s.runningOp p = some o ∧ (s.port p).op = some o ∧ o.suspended = false := by
  unfold State.runningOp
  cases (s.port p).op with
  | none => exact .inl rfl
  | some o =>
    cases hs : o.suspended
    · exact .inr ⟨o, by simp [hs], rfl, hs⟩
    · exact .inl (by simp [hs])

/-- The operation of kind `k` is not in flight on the port. -/
def State.lacks (s : State) (p : Port) (k : OpKind) : Prop :=
  ∀ o, (s.port p).op = some o → o.suspended = true ∨ o.kind ≠ k

theorem State.lacks.running {s : State} {p : Port} {k : OpKind} (h : s.lacks p k) :
    s.runningOp p = none ∨ ∃ o, s.runningOp p = some o ∧ o.kind ≠ k := by
  obtain e | ⟨o, e, ho, hs⟩ := s.runningOp_cases p
  · exact .inl e
  · exact .inr ⟨o, e, (h o ho).resolve_left fun k => by cases hs.symm.trans k⟩

theorem identEnds_idle {s : State} {p : Port} (h : s.lacks p .ident) (answers : List IdentAnswer) :
    identEnds p answers s = s := by
  unfold identEnds
  obtain e | ⟨o, e, hk⟩ := h.running
  · rw [e]
  · rw [e]
    dsimp only
    split
    next k _ => exact absurd k hk
    next k _ => exact absurd k hk
    next => rfl

theorem sleepEnds_idle {s : State} {p : Port} (h : s.lacks p .sleep) (answers : List CommandAnswer) :
    sleepEnds p answers s = s := by
  unfold sleepEnds
  obtain e | ⟨o, e, hk⟩ := h.running
  · rw [e]
  · rw [e]
    dsimp only
    split
    next k _ => exact absurd k hk
    next k _ => exact absurd k hk
    next => rfl

theorem wakeEnds_idle {s : State} {p : Port} (h : s.lacks p .wake) (answers : List CommandAnswer) :
    wakeEnds p answers s = s := by
  unfold wakeEnds
  obtain e | ⟨o, e, hk⟩ := h.running
  · rw [e]
  · rw [e]
    dsimp only
    split
    next k _ => exact absurd k hk
    next k _ => exact absurd k hk
    next => rfl

theorem opTimesOut_idle {s : State} {p : Port}
    (h : ∀ o, (s.port p).op = some o → o.suspended = true ∨ s.clock < o.limit) (n : Nat) : opTimesOut p n s = s := by
  unfold opTimesOut
  obtain e | ⟨o, e, ho, hs⟩ := s.runningOp_cases p
  · rw [e]
  · rw [e]
    have early := (h o ho).resolve_left fun k => by cases hs.symm.trans k
    exact if_neg fun k => absurd (of_decide_eq_true k) (by omega)

theorem identEnds_done {s : State} {p : Port} {o : Operation} (h : s.runningOp p = some o) (hk : o.kind = .ident)
    {answers : List IdentAnswer} {found : Nat × Word32} {sent : Nat}
    (ha : scanIdent 0 0 answers = some (.ok found, sent)) : identEnds p answers s =
      settleStaging (probeIdent p (.ok found) sent (closeOp p .ident .idle .noStat sent s)) := by
  unfold identEnds
  rw [h]
  dsimp only
  rw [hk, ha]

theorem identEnds_failed {s : State} {p : Port} {o : Operation} (h : s.runningOp p = some o) (hk : o.kind = .ident)
    {answers : List IdentAnswer} {e : OpFailure} {sent : Nat} (ha : scanIdent 0 0 answers = some (.error e, sent)) :
    identEnds p answers s = settleStaging (opFailed p o e sent s) := by
  unfold identEnds
  rw [h]
  dsimp only
  rw [hk, ha]

theorem sleepEnds_done {s : State} {p : Port} {o : Operation} (h : s.runningOp p = some o) (hk : o.kind = .sleep)
    {answers : List CommandAnswer} {sent : Nat} (ha : scanCommand 0 0 answers = some (.ok (), sent)) :
    sleepEnds p answers s = settleStaging (sleepEnded p o none sent (closeOp p .sleep .asleep .noStat sent s)) := by
  unfold sleepEnds
  rw [h]
  dsimp only
  rw [hk, ha]

theorem sleepEnds_failed {s : State} {p : Port} {o : Operation} (h : s.runningOp p = some o) (hk : o.kind = .sleep)
    {answers : List CommandAnswer} {e : OpFailure} {sent : Nat} (ha : scanCommand 0 0 answers = some (.error e, sent)) :
    sleepEnds p answers s = settleStaging (opFailed p o e sent s) := by
  unfold sleepEnds
  rw [h]
  dsimp only
  rw [hk, ha]

theorem wakeEnds_done {s : State} {p : Port} {o : Operation} (h : s.runningOp p = some o) (hk : o.kind = .wake)
    {answers : List CommandAnswer} {sent : Nat} (ha : scanCommand 0 0 answers = some (.ok (), sent)) :
    wakeEnds p answers s = if o.limit - 15 + 3 ≤ s.clock then
      settleStaging (wakeDone p (closeOp p .wake .idle .noStat sent s)) else s := by
  unfold wakeEnds
  rw [h]
  dsimp only
  rw [hk, ha]
  dsimp only
  have moment : s.reached (wakeMoment o) = decide (o.limit - 15 + 3 ≤ s.clock) := rfl
  rw [moment]
  by_cases late : o.limit - 15 + 3 ≤ s.clock
  · rw [if_pos late, if_pos (decide_eq_true late)]
  · rw [if_neg late, if_neg (fun k => late (of_decide_eq_true k))]

theorem wakeEnds_failed {s : State} {p : Port} {o : Operation} (h : s.runningOp p = some o) (hk : o.kind = .wake)
    {answers : List CommandAnswer} {e : OpFailure} {sent : Nat} (ha : scanCommand 0 0 answers = some (.error e, sent)) :
    wakeEnds p answers s = settleStaging (opFailed p o e sent s) := by
  unfold wakeEnds
  rw [h]
  dsimp only
  rw [hk, ha]

theorem opTimesOut_reached {s : State} {p : Port} {o : Operation} (h : s.runningOp p = some o) (hl : o.limit ≤ s.clock)
    (n : Nat) : opTimesOut p n s = settleStaging (opFailed p o .opTimeout n s) := by
  unfold opTimesOut
  rw [h]
  exact if_pos (decide_eq_true hl)

/-! ## What a failure comes to -/

/-- A probe that fails once its operation has ended, whichever engine the end left. -/
theorem probeFailed_ported {s : State} {p : Port} (e : Engine) (st : PortStats) (hc : (s.port p).cls = .probe)
    (ht : ∀ c, s.mapStore.commit = some c → ∀ v ∈ c.targets, v.port ≠ p)
    (hd : ∀ i z m d, s.slot i = .dirty z m d → s.liesOn p z = false) (pbn : Option Nat) (n : Nat) :
    ∃ ns : Notices,
      (∀ k, ns.pending.find? (fun n => n.key = k) =
        if k = ⟨.portFailed, some p⟩ then some (raisedOnce k (.cause .probeFailed) (s.notice k))
        else if k = ⟨.logAdded, none⟩ then some (raisedOnce k (.number s.log.nextNumber) (s.notice k))
        else s.notice k) ∧
      probeFailed p pbn n (s.ported p ((s.port p).closed e st) (s.marksClosed p)) =
        { s.ported p { (s.port p).closed .idle st with
            cls := .failed, probe := none, member := none, debounce := none } (s.marksClosed p) with
          log := s.portLogged p .probeFailed none none pbn n, notices := ns } := by
  obtain ⟨C, hC⟩ : ∃ C, s.ported p ((s.port p).closed e st) (s.marksClosed p) = C := ⟨_, rfl⟩
  have port : C.port p = (s.port p).closed e st := by
    rw [← hC, State.ported_port]
  obtain ⟨ns, found, failed⟩ := probeFailed_idle (pbn := pbn) (n := n) (s := C) (p := p) (by rw [port]; rfl)
    (by rw [port]; exact hc) (by rw [← hC]; exact ht) (by rw [← hC]; exact hd)
    (by rw [← hC]; exact s.marksClosed_declined p _)
  refine ⟨ns, fun k => (found k).trans (by rw [← hC]; rfl), ?_⟩
  rw [hC, failed, port, ← hC]
  unfold State.ported
  rw [Vector.set_set]
  rfl

/-- A failure that counts and stays below three: its entry, and the count (R116, R117). -/
theorem countFailure_ported {s : State} {p : Port} {y : PortRecord} (hy : y.failures < 2) (m : Vector SleepMark 4)
    (e : OpFailure) (c : HistoryCause) (tag : Option Tag) (lbn pbn : Option Nat) (n : Nat) :
    ∃ ns, s.logAddedTo ns ∧
      countFailure p e [] (addEntry ⟨c, .port, tag, lbn, some p, pbn, n⟩ (s.ported p y m)) =
        { s.ported p { y with failures := y.failures + 1 } m with
          log := s.portLogged p c tag lbn pbn n, notices := ns } := by
  obtain ⟨ns, added, entered⟩ := addEntry_port p c tag lbn pbn n (s.ported p y m)
  refine ⟨ns, added, ?_⟩
  rw [entered]
  obtain ⟨D, hD⟩ : ∃ D, D = ({ s.ported p y m with log := (s.ported p y m).portLogged p c tag lbn pbn n, notices := ns } : State) :=
    ⟨_, rfl⟩
  have port : D.port p = y := by
    rw [hD]
    exact s.ported_port p y m
  rw [← hD, countFailure_below (by rw [port]; exact hy), port, hD]
  unfold State.ported State.setPort
  dsimp only
  rw [Vector.set_set]
  rfl
/-- Who waits for a lane does not depend on how the lane of port `p` ended its operation. -/
theorem isUser_ported {s : State} {p : Port} {y : PortRecord} {m : Vector SleepMark 4} {l : LogUnit} {ns : Notices}
    (hc : y.cls = (s.port p).cls) (hp : y.probe.map (·.step) = (s.port p).probe.map (·.step))
    (hm : y.member = (s.port p).member) (q : Port) (n : Nat) (u : LaneUser) :
    State.isUser { s.ported p y m with log := l, notices := ns } q n u ↔ s.isUser q n u := by
  refine isUser_congr (s := s) (t := { s.ported p y m with log := l, notices := ns }) (fun x => ?_) rfl rfl rfl rfl rfl n u
  by_cases hx : x = p
  · subst hx
    have port : State.port { s.ported x y m with log := l, notices := ns } x = y := s.ported_port x y m
    rw [port]
    exact ⟨hc, hp, hm⟩
  · have port : State.port { s.ported p y m with log := l, notices := ns } x = s.port x := s.ported_other hx y m
    rw [port]
    exact ⟨rfl, rfl, rfl⟩

/-- A WAKE asked again where a user waits (R115). -/
theorem arbitrate_again {s : State} {p : Port} {y : PortRecord} {m : Vector SleepMark 4} {l : LogUnit} {ns : Notices}
    (hc : y.cls = (s.port p).cls) (hp : y.probe.map (·.step) = (s.port p).probe.map (·.step))
    (hm : y.member = (s.port p).member) (he : y.engine = .asleep) (ho : y.op = none) :
    ((∀ n u, ¬ s.isUser p n u) → arbitrate p { s.ported p y m with log := l, notices := ns } =
      { s.ported p y m with log := l, notices := ns }) ∧
    ((∃ n u, s.isUser p n u) → arbitrate p { s.ported p y m with log := l, notices := ns } =
      { s.ported p { y with engine := .waking, op := some ⟨.wake, .power, 1, s.clock + 15, false⟩ } m with
        log := l, notices := ns }) := by
  have users := isUser_ported (m := m) (l := l) (ns := ns) hc hp hm p
  have port : State.port { s.ported p y m with log := l, notices := ns } p = y := s.ported_port p y m
  refine ⟨fun none => arbitrate_rests (.inr (.inr (.inr fun n u k => none n u ((users n u).1 k)))), fun ⟨n, u, hu⟩ => ?_⟩
  rw [arbitrate_wakes (by rw [port, ho]) (by rw [port, he]) ((users n u).2 hu)]
  unfold startOp
  rw [port]
  exact congrArg (fun v : State => { v with log := l, notices := ns }) (s.ported_setPort p y _ m)

/-- An ASLEEP port is looked at again after its WAKE has failed (R115). -/
def State.rewoken (s : State) (p : Port) : State := if (s.port p).engine = .asleep then arbitrate p s else s

theorem State.rewoken_asleep {s : State} {p : Port} (h : (s.port p).engine = .asleep) : s.rewoken p = arbitrate p s := if_pos h

theorem State.rewoken_awake {s : State} {p : Port} (h : (s.port p).engine ≠ .asleep) : s.rewoken p = s := if_neg h

theorem wakeFailed_none {s : State} {p : Port} (h : (s.port p).probe = none) (o : Operation) (e : OpFailure) (n : Nat) :
    wakeFailed p o e n s = (countFailure p e [] (addEntry (s.portEntry p o e.cause n) s)).rewoken p := by
  show State.rewoken (match (s.port p).probe with | some pr => _ | none => _) p = _
  rw [h]

theorem wakeFailed_some {s : State} {p : Port} {pr : Probe} (h : (s.port p).probe = some pr) (o : Operation) (e : OpFailure)
    (n : Nat) : wakeFailed p o e n s = (if pr.wakeFailures + 1 = Config.failureLimit then probeFailed p none n s
      else setProbe p { pr with wakeFailures := pr.wakeFailures + 1 } s).rewoken p := by
  show State.rewoken (match (s.port p).probe with | some pr => _ | none => _) p = _
  rw [h]

/-- The three ways of a WAKE that fails, by the probe it was made for (R103, R115, R116). -/
theorem wakeFailed_power {s : State} {p : Port} {o : Operation} (hk : o.kind = .wake) (hu : o.user = .power) {st : PortStats}
    (e : OpFailure) (n : Nat) :
    let y := (s.port p).closed .asleep st
    let again (y : PortRecord) : PortRecord := { y with
      engine := .waking, op := some ⟨.wake, .power, 1, s.clock + 15, false⟩ }
    let C := s.ported p y (s.marksClosed p)
    ((s.port p).probe = none → (s.port p).failures < 2 → ∃ ns, s.logAddedTo ns ∧
      let failed (z : PortRecord) : State := { s.ported p { z with failures := (s.port p).failures + 1 } (s.marksClosed p) with
        log := s.portLogged p e.cause none none none n, notices := ns }
      ((∀ k u, ¬ s.isUser p k u) → wakeFailed p o e n C = failed y) ∧
      ((∃ k u, s.isUser p k u) → wakeFailed p o e n C = failed (again y))) ∧
    (∀ pr, (s.port p).probe = some pr → pr.wakeFailures < 2 →
      let z : PortRecord := { y with probe := some { pr with wakeFailures := pr.wakeFailures + 1 } }
      ((∀ k u, ¬ s.isUser p k u) → wakeFailed p o e n C = s.ported p z (s.marksClosed p)) ∧
      ((∃ k u, s.isUser p k u) → wakeFailed p o e n C = s.ported p (again z) (s.marksClosed p))) ∧
    ∀ pr, (s.port p).probe = some pr → pr.wakeFailures = 2 →
      wakeFailed p o e n C = (probeFailed p none n C).rewoken p := by
  intro y again C
  have port : C.port p = y := s.ported_port p y _
  refine ⟨fun hp hf => ?_, fun pr hp hw => ?_, fun pr hp hw => ?_⟩
  · obtain ⟨ns, added, counted⟩ := countFailure_ported (s := s) (p := p) (y := y) hf (s.marksClosed p) e e.cause none none
      none n
    have entry : C.portEntry p o e.cause n = ⟨e.cause, .port, none, none, some p, none, n⟩ := by
      unfold State.portEntry
      rw [hk, hu]
      rfl
    obtain ⟨D, hD⟩ : ∃ D, D = ({ s.ported p { y with failures := y.failures + 1 } (s.marksClosed p) with
      log := s.portLogged p e.cause none none none n, notices := ns } : State) := ⟨_, rfl⟩
    have fails : wakeFailed p o e n C = arbitrate p D := by
      have engine : (D.port p).engine = .asleep := by
        rw [hD]
        exact congrArg PortRecord.engine (s.ported_port p { y with failures := y.failures + 1 } (s.marksClosed p))
      rw [wakeFailed_none (by rw [port]; exact hp), entry, counted, ← hD, State.rewoken_asleep engine]
    obtain ⟨alone, users⟩ := arbitrate_again (s := s) (p := p) (y := { y with failures := y.failures + 1 })
      (m := s.marksClosed p) (l := s.portLogged p e.cause none none none n) (ns := ns) rfl rfl rfl rfl rfl
    rw [hD] at fails
    exact ⟨ns, added, fun k => fails.trans (alone k), fun k => fails.trans (users k)⟩
  · obtain ⟨z, hz⟩ : ∃ z : PortRecord, z = { y with probe := some { pr with wakeFailures := pr.wakeFailures + 1 } } := ⟨_, rfl⟩
    have step : z.probe.map (·.step) = (s.port p).probe.map (·.step) := by
      rw [hz, hp]
      rfl
    have fails : wakeFailed p o e n C = arbitrate p (s.ported p z (s.marksClosed p)) := by
      have engine : ((s.ported p z (s.marksClosed p)).port p).engine = .asleep := by
        rw [State.ported_port, hz]
        rfl
      have below : ¬ pr.wakeFailures + 1 = Config.failureLimit := by
        have limit : Config.failureLimit = 3 := rfl
        omega
      rw [wakeFailed_some (by rw [port]; exact hp), if_neg below, setProbe, port,
        show C.setPort p _ = _ from s.ported_setPort p y _ _, ← hz, State.rewoken_asleep engine]
    obtain ⟨alone, users⟩ := arbitrate_again (s := s) (p := p) (y := z) (m := s.marksClosed p) (l := s.log)
      (ns := s.notices) (by rw [hz]; rfl) step (by rw [hz]; rfl) (by rw [hz]; rfl) (by rw [hz]; rfl)
    intro z'
    have same : z' = z := hz.symm
    rw [same]
    exact ⟨fun k => fails.trans (alone k), fun k => fails.trans (users k)⟩
  · have third : pr.wakeFailures + 1 = Config.failureLimit := by
      rw [hw]
      rfl
    rw [wakeFailed_some (by rw [port]; exact hp), if_pos third]
theorem opFailed_ident {s : State} {p : Port} {o : Operation} {pr : Probe} (hk : o.kind = .ident) (hu : o.user = .probe)
    (hp : (s.port p).probe = some pr) (e : OpFailure) (n : Nat) : opFailed p o e n s = probeFailed p none n
      (s.ported p ((s.port p).closed .idle ((s.port p).stats.after e.stat n)) (s.marksClosed p)) := by
  unfold opFailed
  rw [hu, hk]
  dsimp only
  rw [closeOp_ported p (by decide)]
  unfold probeIdent
  rw [State.ported_port, show ((s.port p).closed _ _).probe = some pr from hp]
  rfl

/-- An IDENT answered: the probe goes on, or fails on the capacity (R101, R103). -/
theorem probeIdent_found {s : State} {p : Port} {pr : Probe} (hp : (s.port p).probe = some pr) (st : PortStats) (cap : Nat)
    (id : Word32) (n : Nat) : probeIdent p (.ok (cap, id)) n (s.ported p ((s.port p).closed .idle st) (s.marksClosed p)) =
      if 64 ≤ cap ∧ cap ≤ 262144 then s.ported p { (s.port p).closed .idle st with
        probe := some { pr with step := .slotA, capacity := cap, identity := id } } (s.marksClosed p)
      else probeFailed p none n (s.ported p ((s.port p).closed .idle st) (s.marksClosed p)) := by
  unfold probeIdent setProbe
  rw [State.ported_port, show ((s.port p).closed .idle st).probe = some pr from hp]
  dsimp only
  rw [State.ported_setPort]
  rfl

theorem sleepEnded_done (s : State) (p : Port) (o : Operation) (st : PortStats) (n : Nat) :
    sleepEnded p o none n (s.ported p ((s.port p).closed .asleep st) s.power.marks) =
      s.ported p { (s.port p).closed .asleep st with failures := 0 } (s.power.marks.set p .clear) := by
  have marked : (s.ported p ((s.port p).closed .asleep st) s.power.marks).setMark p .clear =
      s.ported p ((s.port p).closed .asleep st) (s.power.marks.set p .clear) := rfl
  unfold sleepEnded
  dsimp only
  rw [marked, countSuccess, setFailures, State.ported_port, State.ported_setPort]

theorem wakeDone_none {s : State} {p : Port} (hp : (s.port p).probe = none) (st : PortStats) :
    wakeDone p (s.ported p ((s.port p).closed .idle st) (s.marksClosed p)) =
      s.ported p { (s.port p).closed .idle st with failures := 0 } (s.marksClosed p) := by
  unfold wakeDone
  rw [State.ported_port, show ((s.port p).closed .idle st).probe = none from hp]
  dsimp only
  rw [countSuccess, setFailures, State.ported_port, State.ported_setPort]

theorem wakeDone_some {s : State} {p : Port} {pr : Probe} (hp : (s.port p).probe = some pr) (st : PortStats) :
    wakeDone p (s.ported p ((s.port p).closed .idle st) (s.marksClosed p)) = s.ported p { (s.port p).closed .idle st with
      probe := some { pr with wakeFailures := 0 } } (s.marksClosed p) := by
  unfold wakeDone
  rw [State.ported_port, show ((s.port p).closed .idle st).probe = some pr from hp]
  dsimp only
  rw [setProbe, State.ported_port, State.ported_setPort]

theorem opFailed_sleep {s : State} {p : Port} {o : Operation} (hk : o.kind = .sleep) (hu : o.user = .power)
    (hf : (s.port p).failures < 2) (e : OpFailure) (n : Nat) : ∃ ns, s.logAddedTo ns ∧ opFailed p o e n s =
      { s.ported p { (s.port p).closed .idle ((s.port p).stats.after e.stat n) with failures := (s.port p).failures + 1 }
          (s.power.marks.set p .declined) with
        log := s.portLogged p e.cause none none none n, notices := ns } := by
  obtain ⟨ns, added, counted⟩ := countFailure_ported (s := s) (p := p)
    (y := (s.port p).closed .idle ((s.port p).stats.after e.stat n)) hf (s.power.marks.set p .declined) e e.cause none none
    none n
  refine ⟨ns, added, Eq.trans ?_ counted⟩
  unfold opFailed
  rw [hu, hk]
  dsimp only
  rw [closeOp_sleep]
  unfold sleepEnded State.portEntry
  rw [hu, hk]
  rfl

theorem opFailed_wake {s : State} {p : Port} {o : Operation} (hk : o.kind = .wake) (hu : o.user = .power) (e : OpFailure)
    (n : Nat) : opFailed p o e n s = wakeFailed p o e n
      (s.ported p ((s.port p).closed .asleep ((s.port p).stats.after e.stat n)) (s.marksClosed p)) := by
  unfold opFailed
  rw [hu, hk]
  dsimp only
  rw [closeOp_ported p (by decide)]
  rfl

theorem fetchResult_absent {w : Owner} {s : State} (h : s.request w.tag = none) (x : Except OpFailure (List Byte)) :
    fetchResult w x s = s := by
  unfold fetchResult
  rw [h]

theorem opFailed_fetch {s : State} {p : Port} {o : Operation} {b : Nat} {w : Owner} {z : Nat} (hk : o.kind = .rdblk b)
    (hu : o.user = .fetch w z) (hr : s.request w.tag = none) (hf : (s.port p).failures < 2) (e : OpFailure) (n : Nat) :
    ∃ ns, s.logAddedTo ns ∧ opFailed p o e n s =
      { s.ported p { (s.port p).closed .idle ((s.port p).stats.after e.stat n) with failures := (s.port p).failures + 1 }
          (s.marksClosed p) with
        log := s.portLogged p e.cause (some w.tag) (some z) (some b) n, notices := ns } := by
  obtain ⟨ns, added, counted⟩ := countFailure_ported (s := s) (p := p)
    (y := (s.port p).closed .idle ((s.port p).stats.after e.stat n)) hf (s.marksClosed p) e e.cause (some w.tag) (some z)
    (some b) n
  refine ⟨ns, added, Eq.trans ?_ counted⟩
  unfold opFailed
  rw [hu, hk]
  dsimp only
  rw [closeOp_ported p (by simp)]
  unfold fetchOpFailed State.portEntry
  rw [hu, hk]
  refine congrArg (countFailure p e []) ((fetchResult_absent ?_ _).trans rfl)
  obtain ⟨ns', entered⟩ := addEntry_eq ⟨e.cause, .port, some w.tag, some z, some p, some b, n⟩
    (s.ported p ((s.port p).closed .idle ((s.port p).stats.after e.stat n)) (s.marksClosed p))
  exact (congrArg (fun v => State.request v w.tag) entered).trans hr

/-- Settles O42, operation by operation; a probe that fails is `probeFailed_ported`, a WAKE that fails `wakeFailed_power`. -/
theorem laneCommandsResult : Obligations.LaneCommandsResult := by
  intro s p h x runs ends base idle probeFails
  have running : ∀ {o k u}, runs o k u → s.runningOp p = some o := fun r =>
    State.runningOp_some r.1 r.2.1
  have probe : ∀ (c : Instr) (f : State → State) (e : Engine) (st : PortStats) (n : Nat), exec c s = live f s →
      f s = settleStaging (probeFailed p none n (s.ported p (x.closed e st) (s.marksClosed p))) → probeFails c st n := by
    intro c f e st n hc hf hcls ht hd
    obtain ⟨ns, found, failed⟩ := probeFailed_ported e st hcls ht hd none n
    exact ⟨ns, found, exec_settles h f hc hf failed rfl⟩
  refine ⟨fun k answers => (live_high h (identEnds p answers)).trans (congrArg _ (identEnds_idle k answers)),
    fun k answers => (live_high h (sleepEnds p answers)).trans (congrArg _ (sleepEnds_idle k answers)),
    fun k answers => (live_high h (wakeEnds p answers)).trans (congrArg _ (wakeEnds_idle k answers)),
    fun k n => (live_high h (opTimesOut p n)).trans (congrArg _ (opTimesOut_idle k n)), fun o pr r hp => ?_, fun o r => ?_,
    fun o r => ?_, fun o w z b r hr hf hl n hn => ?_⟩
  · have run := running r
    obtain ⟨-, -, kind, user⟩ := r
    refine ⟨fun n cap id hn h1 h2 => ?_, fun n cap id hn hcap => ?_, ?_, fun n hn hl => ?_⟩
    · refine exec_settles h (identEnds p _) rfl (identEnds_done run kind (scanIdent_acked hn cap id)) ?_ rfl
      rw [closeOp_ported p (by decide), probeIdent_found hp, if_pos ⟨h1, h2⟩]
      rfl
    · refine probe _ (identEnds p _) .idle _ (n + 1) rfl ((identEnds_done run kind (scanIdent_acked hn cap id)).trans
        (congrArg settleStaging ?_))
      rw [closeOp_ported p (by decide), probeIdent_found hp, if_neg (by omega)]
      rfl
    · exact probe _ (identEnds p _) .idle _ 3 rfl ((identEnds_failed run kind rfl).trans
        (congrArg settleStaging (opFailed_ident kind user hp .noResponse 3)))
    · exact probe _ (opTimesOut p n) .idle _ n rfl ((opTimesOut_reached run hl n).trans
        (congrArg settleStaging (opFailed_ident kind user hp .opTimeout n)))
  · have run := running r
    obtain ⟨-, -, kind, user⟩ := r
    refine ⟨fun n hn => ?_, fun hf => ?_, fun hf hl n hn => ?_⟩
    · refine exec_settles h (sleepEnds p _) rfl (sleepEnds_done run kind (scanCommand_acked hn)) ?_ rfl
      rw [closeOp_sleep]
      exact sleepEnded_done s p o _ (n + 1)
    · obtain ⟨ns, added, failed⟩ := opFailed_sleep kind user hf .noResponse 3
      exact ⟨ns, added, exec_settles h (sleepEnds p _) rfl (sleepEnds_failed run kind rfl) failed rfl⟩
    · obtain ⟨ns, added, failed⟩ := opFailed_sleep kind user hf .opTimeout n
      exact ⟨ns, added, exec_settles h (opTimesOut p n) rfl (opTimesOut_reached run hl n) failed rfl⟩
  · have run := running r
    obtain ⟨-, -, kind, user⟩ := r
    refine ⟨fun n hn early => ?_, fun n hn late => ⟨fun hp => ?_, fun pr hp => ?_⟩, fun c cause st sent hc => ?_⟩
    · have done := wakeEnds_done run kind (scanCommand_acked hn)
      rw [if_neg (by omega)] at done
      exact (live_high h (wakeEnds p _)).trans (congrArg _ done)
    · have done := wakeEnds_done run kind (scanCommand_acked hn)
      rw [if_pos late, closeOp_ported p (by decide), wakeDone_none hp] at done
      exact exec_settles h (wakeEnds p _) rfl done rfl rfl
    · have done := wakeEnds_done run kind (scanCommand_acked hn)
      rw [if_pos late, closeOp_ported p (by decide), wakeDone_some hp] at done
      exact exec_settles h (wakeEnds p _) rfl done rfl rfl
    · intro again y
      have event : ∃ (f : State → State) (e : OpFailure), e.cause = cause ∧ exec c s = live f s ∧
          f s = settleStaging (wakeFailed p o e sent (s.ported p (x.closed .asleep st) (s.marksClosed p))) := by
        obtain ⟨rfl, rfl, rfl, rfl⟩ | ⟨rfl, hn, hl, rfl, rfl⟩ := hc
        · exact ⟨wakeEnds p _, .noResponse, rfl, rfl, (wakeEnds_failed run kind rfl).trans
            (congrArg settleStaging (opFailed_wake kind user .noResponse 3))⟩
        · exact ⟨opTimesOut p sent, .opTimeout, rfl, rfl, (opTimesOut_reached run hl sent).trans
            (congrArg settleStaging (opFailed_wake kind user .opTimeout sent))⟩
      obtain ⟨f, e, rfl, hf, fails⟩ := event
      obtain ⟨unprobed, again', third⟩ := wakeFailed_power (s := s) kind user (st := st) e sent
      refine ⟨fun hp hfail => ?_, fun pr hp hw => ⟨fun k => ?_, fun k => ?_⟩, fun pr hp hw hcls ht hd => ?_⟩
      · obtain ⟨ns, added, alone, users⟩ := unprobed hp hfail
        exact ⟨ns, added, fun k => exec_settles h f hf fails (alone k) rfl, fun k => exec_settles h f hf fails (users k) rfl⟩
      · exact exec_settles h f hf fails ((again' pr hp hw).1 k) rfl
      · exact exec_settles h f hf fails ((again' pr hp hw).2 k) rfl
      · obtain ⟨ns, found, failed⟩ := probeFailed_ported (s := s) .asleep st hcls ht hd none sent
        refine ⟨ns, found, exec_settles h f hf (fails.trans (congrArg settleStaging (third pr hp hw))) ?_ rfl⟩
        refine Eq.trans ?_ failed
        rw [failed]
        refine State.rewoken_awake fun k => ?_
        have engine := congrArg PortRecord.engine (s.ported_port p { (s.port p).closed .idle st with
          cls := .failed, probe := none, member := none, debounce := none } (s.marksClosed p))
        cases engine.symm.trans k
  · have run := running r
    obtain ⟨-, -, kind, user⟩ := r
    obtain ⟨ns, added, failed⟩ := opFailed_fetch kind user hr hf .opTimeout n
    exact ⟨ns, added, exec_settles h (opTimesOut p n) rfl (opTimesOut_reached run hl n) failed rfl⟩

end Sys2Proof.Machine
end

section
/-! PROOFS. The family 'other', map records read back, RDBLK_END and OP_TIMEOUT of an RDBLK (R63, R101 to R104, R109 to R117, R132). -/

namespace Sys2Proof.Machine

/-! ## Records that fail a test (R102, R223) -/

theorem leVal_lt (bs : List Byte) : leVal bs < 256 ^ bs.length := by
  induction bs with
  | nil => decide
  | cons b bs ih =>
    have small := b.isLt
    simp only [leVal, List.length_cons, Nat.pow_succ]
    omega

theorem extentOfRecord_none {form : List Byte} (h1 : form.getD 0 0 = 1)
    (h : 2 ≤ (form.getD 1 0).toNat ∨ 4 ≤ (form.getD 2 0).toNat) : extentOfRecord form = none := by
  unfold extentOfRecord
  dsimp only
  rw [if_pos h1]
  split
  next a p ha hp =>
    obtain large | large := h
    · have not0 : form.getD 1 0 ≠ 0 := fun k => by
        rw [k] at large
        exact absurd large (by decide)
      have not1 : form.getD 1 0 ≠ 1 := fun k => by
        rw [k] at large
        exact absurd large (by decide)
      cases (accessOfByte_none not0 not1).symm.trans ha
    · cases (portOfByte_none large).symm.trans hp
  next => rfl

/-- One bad extent form makes a record none. -/
theorem extentsOfRecord_none {n i : Nat} (hi : i < n) {bs : List Byte}
    (h : extentOfRecord ((bs.drop (16 * i)).take 16) = none) : extentsOfRecord n bs = none := by
  induction n generalizing i bs with
  | zero => omega
  | succ n ih =>
    unfold extentsOfRecord
    cases i with
    | zero =>
      rw [show bs.take 16 = (bs.drop (16 * 0)).take 16 from rfl, h]
    | succ i =>
      have rest : extentsOfRecord n (bs.drop 16) = none := by
        refine ih (i := i) (by omega) ?_
        rw [List.drop_drop, show 16 + 16 * i = 16 * (i + 1) by omega]
        exact h
      rw [rest]
      cases extentOfRecord (bs.take 16)
      all_goals rfl

/-- A field of the extent form at index `i` of a record. -/
theorem extentForm_getD (data : List Byte) (i : Nat) {k : Nat} (hk : k < 16) :
    (((data.drop 16).drop (16 * i)).take 16).getD k 0 = data.getD (16 + k + 16 * i) 0 := by
  simp only [List.getD_eq_getElem?_getD, List.getElem?_take, List.getElem?_drop, if_pos hk]
  rw [show 16 + (16 * i + k) = 16 + k + 16 * i by omega]

theorem findingOf_nothing {data : List Byte} (hl : data.length = 256)
    (h : leVal (data.take 4) ≠ 0x0A35C7E1 ∨ data.getD 4 0 ≠ 1 ∨
      (crc32 (data.take 252)).toNat ≠ leVal (data.drop 252) ∨ (data.getD 5 0 ≠ 1 ∧ data.getD 5 0 ≠ 2) ∨
      leVal ((data.drop 8).take 4) = 0 ∨
      (∃ i : Nat, i < 8 ∧ data.getD (16 + 16 * i) 0 = 1 ∧
        (2 ≤ (data.getD (17 + 16 * i) 0).toNat ∨ 4 ≤ (data.getD (18 + 16 * i) 0).toNat))) : findingOf data = .nothing := by
  unfold findingOf
  dsimp only
  split
  next good =>
    obtain ⟨mark, version, check, state, generation⟩ := good
    obtain h | h | h | ⟨h1, h2⟩ | h | ⟨i, hi, enabled, bad⟩ := h
    · exact absurd mark h
    · exact absurd version h
    · have field : ((data.drop 252).take 4) = data.drop 252 := List.take_of_length_le (by rw [List.length_drop]; omega)
      have bound := leVal_lt (data.drop 252)
      rw [List.length_drop, hl, show 256 ^ (256 - 252) = 2 ^ 32 by decide] at bound
      rw [check, field, BitVec.toNat_ofNat, Nat.mod_eq_of_lt bound] at h
      exact absurd rfl h
    · exact absurd state (not_or.2 ⟨h1, h2⟩)
    · rw [h] at generation
      exact absurd rfl generation
    · have form : extentOfRecord (((data.drop 16).drop (16 * i)).take 16) = none := by
        refine extentOfRecord_none ?_ ?_
        · rw [extentForm_getD data i (by decide)]
          exact enabled
        · rw [extentForm_getD data i (by decide), extentForm_getD data i (by decide)]
          exact bad
      rw [extentsOfRecord_none hi form]
  next => rfl

/-! ## What an RDBLK comes to -/

theorem rdblkEnds_other {s : State} {p : Port} (h : ∀ o b, (s.port p).op = some o → o.suspended = false → o.kind ≠ .rdblk b)
    (answers : List ReadAnswer) : rdblkEnds p answers s = s := by
  unfold rdblkEnds
  obtain e | ⟨o, e, ho, hs⟩ := s.runningOp_cases p
  · rw [e]
  · rw [e]
    dsimp only
    split
    next b k => exact absurd k (h o b ho hs)
    all_goals rfl

theorem rdblkEnds_done {s : State} {p : Port} {o : Operation} {b : Nat} (h : s.runningOp p = some o) (hk : o.kind = .rdblk b)
    {answers : List ReadAnswer} {r : Option (List Byte)} {sent : Nat} (ha : scanRead b 0 0 0 answers = some (.ok r, sent)) :
    rdblkEnds p answers s = settleStaging (readDone p o b r sent s) := by
  unfold rdblkEnds
  rw [h]
  dsimp only
  rw [hk]
  dsimp only
  rw [ha]

theorem rdblkEnds_failed {s : State} {p : Port} {o : Operation} {b : Nat} (h : s.runningOp p = some o) (hk : o.kind = .rdblk b)
    {answers : List ReadAnswer} {e : OpFailure} {sent : Nat} (ha : scanRead b 0 0 0 answers = some (.error e, sent)) :
    rdblkEnds p answers s = settleStaging (opFailed p o e sent s) := by
  unfold rdblkEnds
  rw [h]
  dsimp only
  rw [hk]
  dsimp only
  rw [ha]

/-- A block read for a fetch: the count returns to 0, and the fetch has its result. -/
theorem readDone_fetch {s : State} {p : Port} {o : Operation} {b : Nat} {w : Owner} {z : Nat} (hk : o.kind = .rdblk b)
    (hu : o.user = .fetch w z) (r : Option (List Byte)) (n : Nat) : readDone p o b r n s =
      fetchResult w (.ok (r.getD (zeros 256))) (s.ported p { (s.port p).closed .idle
        ((s.port p).stats.after .blockRead n) with failures := 0 } (s.marksClosed p)) := by
  unfold readDone
  rw [hu, hk]
  dsimp only
  rw [closeOp_ported p (by simp), countSuccess, setFailures, State.ported_port, State.ported_setPort]
  rfl

/-- A fetch of an ACTIVE request that has its block (R63). -/
theorem fetchResult_obtained {s : State} {w : Owner} {r : Request} {f : FetchRecord} {v : Fetch}
    (hr : s.request w.tag = some r) (ha : r.state = .active) (hf : s.fetchRecord w.tag = some f)
    (hw : f.admission = w.admission) (hv : f.fetch = some v) (d : List Byte) :
    fetchResult w (.ok d) s = fetchObtained w.tag v d s := by
  unfold fetchResult
  rw [hr, hf]
  dsimp only
  rw [hv]
  dsimp only
  rw [if_pos hw, ha]

/-- The block of a READ: its return slot is FILLED and its cursor moves on. -/
theorem fetchObtained_read {s : State} {t : Tag} {r : Request} {f : FetchRecord} {v : Fetch} {k : RetNo} {o : Owner}
    {i c : Nat} (hr : s.request t = some r) (hf : s.fetchRecord t = some f) (hv : v.ret = some k)
    (hk : s.returnSlot k = .fetching o i c) (d : List Byte) : fetchObtained t v d s = assignReturns { s with
      mover := { s.mover with
        fetches := s.mover.fetches.set t (some { f with cursor := f.cursor + 1, fetch := none })
        returns := s.mover.returns.set k (.filled o i c d)
        fillOrder := s.mover.fillOrder ++ [k] } } := by
  have found : ((s.setReturnSlot k (.filled o i c d)).setFillOrder (s.mover.fillOrder ++ [k])).fetchRecord t = some f := hf
  unfold fetchObtained
  rw [hr]
  dsimp only
  rw [hv]
  dsimp only
  rw [fillReturn_fetching hk, advanceCursor_some found]
  rfl

theorem enterReporting_some {s : State} {t : Tag} {r : Request} (hr : s.request t = some r) (st : CompletionStatus)
    (x : Option Nat) : enterReporting t st x s = { s with table := { s.table with
      slots := s.table.slots.set t (some { r with
        state := .reporting, status := some st, failingLbn := x, holdList := [], flushSet := [], settleSet := [] })
      completionOrder := s.table.completionOrder ++ [t] } } := by
  unfold enterReporting
  rw [hr]
  rfl

/-- The last block of a VERIFY: it is GOOD (R40, R63). -/
theorem fetchObtained_verified {s : State} {t : Tag} {r : Request} {g : BlockRange} {f : FetchRecord} {v : Fetch}
    (hr : s.request t = some r) (hg : r.range = some g) (hf : s.fetchRecord t = some f) (hv : v.ret = none)
    (hc : f.cursor + 1 = g.count) (d : List Byte) : fetchObtained t v d s = { s with
      table := { s.table with
        slots := s.table.slots.set t (some { r with
          blocksDone := r.blocksDone + 1, state := .reporting, status := some .good, failingLbn := none
          holdList := [], flushSet := [], settleSet := [] })
        completionOrder := s.table.completionOrder ++ [t] }
      mover := { s.mover with fetches := s.mover.fetches.set t none } } := by
  obtain ⟨A, hA⟩ : ∃ A, A = s.setRequest t { r with blocksDone := r.blocksDone + 1 } := ⟨_, rfl⟩
  have found : A.fetchRecord t = some f := by
    rw [hA]
    exact hf
  have moved : (A.setFetchRecord t (some { f with cursor := f.cursor + 1, fetch := none })).fetchRecord t =
      some { f with cursor := f.cursor + 1, fetch := none } := by
    rw [State.fetchRecord_setFetchRecord, if_pos rfl]
  have own : ((A.setFetchRecord t (some { f with cursor := f.cursor + 1, fetch := none })).setFetchRecord t none).request t =
      some { r with blocksDone := r.blocksDone + 1 } := by
    rw [State.setFetchRecord_request, State.setFetchRecord_request, hA, State.request_setRequest, if_pos rfl]
  unfold fetchObtained
  rw [hr]
  dsimp only
  rw [hv]
  dsimp only
  rw [← hA, advanceCursor_some found, hg]
  rw [moved]
  dsimp only
  rw [if_neg (by omega)]
  refine (enterReporting_some own .good none).trans ?_
  rw [hA]
  show ({ s with
    table := { s.table with
      slots := (s.table.slots.set t (some { r with blocksDone := r.blocksDone + 1 })).set t (some { r with
        blocksDone := r.blocksDone + 1, state := .reporting, status := some .good, failingLbn := none
        holdList := [], flushSet := [], settleSet := [] })
      completionOrder := s.table.completionOrder ++ [t] }
    mover := { s.mover with fetches :=
      (s.mover.fetches.set t (some { f with cursor := f.cursor + 1, fetch := none })).set t none } } : State) = _
  rw [Vector.set_set, Vector.set_set, hg]

/-- A READ's block, where no READ can take a return slot after it. -/
theorem fetchResult_read {s : State} {w : Owner} {r : Request} {g : BlockRange} {f : FetchRecord} {v : Fetch} {k : RetNo}
    {i c : Nat} (hr : s.request w.tag = some r) (ha : r.state = .active) (hg : r.range = some g)
    (hf : s.fetchRecord w.tag = some f) (hw : f.admission = w.admission) (hv : f.fetch = some v) (hret : v.ret = some k)
    (hk : s.returnSlot k = .fetching w i c)
    (h : (∀ n, n ≠ k → s.returnSlot n ≠ .free) ∨ (f.cursor + 1 = g.count ∧ ∀ u, u ≠ w.tag → ¬ s.wantsReturn u))
    (d : List Byte) : fetchResult w (.ok d) s = { s with mover := { s.mover with
      fetches := s.mover.fetches.set w.tag (some { f with cursor := f.cursor + 1, fetch := none })
      returns := s.mover.returns.set k (.filled w i c d)
      fillOrder := s.mover.fillOrder ++ [k] } } := by
  rw [fetchResult_obtained hr ha hf hw hv, fetchObtained_read hr hf hret hk]
  refine assignReturns_settled ?_
  have slots : ∀ n, (s.setReturnSlot k (.filled w i c d)).returnSlot n = if n = k then .filled w i c d else s.returnSlot n :=
    fun n => s.returnSlot_setReturnSlot k n _
  have fetches : ∀ u, (s.setFetchRecord w.tag (some { f with cursor := f.cursor + 1, fetch := none })).fetchRecord u =
      if u = w.tag then some { f with cursor := f.cursor + 1, fetch := none } else s.fetchRecord u :=
    fun u => s.fetchRecord_setFetchRecord w.tag u _
  obtain busy | ⟨last, others⟩ := h
  · refine .inr fun n free => ?_
    replace free := (slots n).symm.trans free
    by_cases hn : n = k
    · rw [if_pos hn] at free
      cases free
    · rw [if_neg hn] at free
      exact busy n hn free
  · refine .inl fun u wants => ?_
    obtain ⟨q, g', f', hq, kind, active, hg', hf', idle, more⟩ := wants
    replace hf' := (fetches u).symm.trans hf'
    by_cases hu : u = w.tag
    · subst hu
      rw [if_pos rfl] at hf'
      cases hf'
      cases hr.symm.trans hq
      cases hg.symm.trans hg'
      exact absurd more (by dsimp only; omega)
    · rw [if_neg hu] at hf'
      exact others u hu ⟨q, g', f', hq, kind, active, hg', hf', idle, more⟩

/-! ## A copy slot read by a probe (R101, R102, R104) -/

theorem readDone_probe {s : State} {p : Port} {o : Operation} {b : Nat} (hk : o.kind = .rdblk b) (hu : o.user = .probe)
    (r : Option (List Byte)) (n : Nat) : readDone p o b r n s = probeRead p b (.ok r) n
      (s.ported p ((s.port p).closed .idle ((s.port p).stats.after .blockRead n)) (s.marksClosed p)) := by
  unfold readDone
  rw [hu, hk]
  dsimp only
  rw [closeOp_ported p (by simp)]

/-- The first copy slot has been read; an outcome that does not fail the probe. -/
theorem probeRead_slotA {s : State} {p : Port} {y : PortRecord} {m : Vector SleepMark 4} {pr : Probe}
    (hp : y.probe = some pr) (hs : pr.step = .slotA) {b : Nat} {o : Except OpFailure (Option (List Byte))}
    (ho : (∃ r, o = .ok r) ∨ o = .error .checkFail) (n : Nat) : probeRead p b o n (s.ported p y m) =
      s.ported p { y with probe := some { pr with step := .slotB, findingA := slotFinding o } } m := by
  unfold probeRead
  rw [State.ported_port, hp]
  dsimp only
  rw [hs]
  obtain ⟨r, rfl⟩ | rfl := ho
  all_goals
    dsimp only
    rw [if_neg (by decide), setProbe, State.ported_port, State.ported_setPort]

theorem probeRead_slotB {s : State} {p : Port} {y : PortRecord} {m : Vector SleepMark 4} {pr : Probe}
    (hp : y.probe = some pr) (hs : pr.step = .slotB) {b : Nat} (r : Option (List Byte)) (n : Nat) :
    probeRead p b (.ok r) n (s.ported p y m) = probeComplete p
      (s.ported p { y with probe := some { pr with step := .complete, findingB := slotFinding (.ok r) } } m) := by
  unfold probeRead
  rw [State.ported_port, hp]
  dsimp only
  rw [hs, if_neg (by decide)]
  dsimp only
  rw [setProbe, State.ported_port, State.ported_setPort]

/-- The findings are held during start-up and in TENTATIVE and FINAL. -/
theorem probeComplete_held {s : State} {p : Port}
    (h : s.mapStore.ready = false ∨ ∃ c, s.mapStore.commit = some c ∧ ∀ m, c.phase ≠ .quiesce m) : probeComplete p s = s := by
  refine if_neg ?_
  obtain hr | ⟨c, hc, hm⟩ := h
  · rw [hr, Bool.false_and]
    decide
  · have writing : s.writingPhase = true := by
      refine s.writingPhase_iff.2 ⟨c, hc, ?_⟩
      cases hp : c.phase with
      | quiesce m => exact absurd hp (hm m)
      | tentative => exact .inl rfl
      | final => exact .inr rfl
    rw [writing]
    simp

theorem probeComplete_classifies {s : State} {p : Port} (hr : s.mapStore.ready = true)
    (hc : ∀ c, s.mapStore.commit = some c → ∃ m, c.phase = .quiesce m) : probeComplete p s = classify p s := by
  have quiet : s.writingPhase = false := by
    rw [← Bool.not_eq_true, s.writingPhase_iff]
    rintro ⟨c, hcm, hp⟩
    obtain ⟨m, hm⟩ := hc c hcm
    rw [hm] at hp
    exact hp.elim (fun k => by cases k) fun k => by cases k
  refine if_pos ?_
  rw [hr, quiet]
  rfl

/-- A port that its completed probe classifies, at the end of the event. -/
theorem classify_settled {s : State} {p : Port} {pr : Probe} (hp : (s.port p).probe = some pr) :
    ((settleStaging (classify p s)).port p).probe = none ∧
    ((settleStaging (classify p s)).port p).member =
      some ⟨pr.capacity, pr.identity, pr.newest.map (fun m => (m.generation, m.pool))⟩ ∧
    ((settleStaging (classify p s)).port p).cls =
      classFor s.mapStore.active (pr.newest.map (fun m => (m.generation, m.pool))) := by
  obtain ⟨X, n, m, e, eX, -⟩ := classify_calm hp
  have port : (classify p s).port p = (s.port p).classified s.mapStore.active pr := by
    rw [e, (calm_endOfProbeCheck p X).port p, eX]
    exact (s.port_setPort p p _).trans (if_pos rfl)
  obtain ⟨en, o, k⟩ := settleStaging_port (classify p s) p
  rw [k, port]
  exact ⟨rfl, rfl, rfl⟩
/-! ## An RDBLK of a fetch that fails (R63, R116, R117, R128, R132) -/

/-- The state in which the outcome of a failed fetch reaches its request. -/
theorem opFailed_fetchResult {s : State} {p : Port} {o : Operation} {b : Nat} {w : Owner} {z : Nat} (hk : o.kind = .rdblk b)
    (hu : o.user = .fetch w z) (e : OpFailure) (n : Nat) : ∃ ns D, s.logAddedTo ns ∧
      D = ({ s.ported p ((s.port p).closed .idle ((s.port p).stats.after e.stat n)) (s.marksClosed p) with
        log := s.portLogged p e.cause (some w.tag) (some z) (some b) n, notices := ns } : State) ∧
      (fetchResult w (.error e) D).port p = (s.port p).closed .idle ((s.port p).stats.after e.stat n) ∧
      (fetchResult w (.error e) D).link = s.link ∧
      opFailed p o e n s = countFailure p e [] (fetchResult w (.error e) D) := by
  obtain ⟨ns, added, entered⟩ := addEntry_port p e.cause (some w.tag) (some z) (some b) n
    (s.ported p ((s.port p).closed .idle ((s.port p).stats.after e.stat n)) (s.marksClosed p))
  refine ⟨ns, _, added, rfl, ((calm_fetchResult w (.error e) _).port p).trans ?_, (calm_fetchResult w (.error e) _).link, ?_⟩
  · exact s.ported_port p ((s.port p).closed .idle ((s.port p).stats.after e.stat n)) (s.marksClosed p)
  · unfold opFailed
    rw [hu, hk]
    dsimp only
    rw [closeOp_ported p (by simp)]
    unfold fetchOpFailed State.portEntry
    rw [hu, hk]
    exact congrArg (fun v => countFailure p e [] (fetchResult w (.error e) v)) entered

/-- The failure of an ACTIVE request's fetch halts the queue on it. -/
theorem opFailed_halts {s : State} {p : Port} {o : Operation} {b : Nat} {w : Owner} {z : Nat} {r : Request} {f : FetchRecord}
    {v : Fetch} (hk : o.kind = .rdblk b) (hu : o.user = .fetch w z) (hr : s.request w.tag = some r) (ha : r.state = .active)
    (hf : s.fetchRecord w.tag = some f) (hw : f.admission = w.admission) (hv : f.fetch = some v) (hg : TableGood s)
    (hn : s.table.snapshot = none) (hx : (s.port p).failures < 2) (e : OpFailure) (n : Nat) : ∃ ns F, s.logAddedTo ns ∧
      opFailed p o e n s = F ∧ State.haltsOn { s with
        log := s.portLogged p e.cause (some w.tag) (some z) (some b) n, notices := ns } F w.tag e.status (some v.lbn) e.cause ∧
      F.port p = { (s.port p).closed .idle ((s.port p).stats.after e.stat n) with failures := (s.port p).failures + 1 } ∧
      F.link = s.link := by
  obtain ⟨ns, D, added, hD, kept, link, failed⟩ := opFailed_fetchResult (s := s) (p := p) hk hu e n
  have halts : D.haltsOn (fetchResult w (.error e) D) w.tag e.status (some v.lbn) e.cause := by
    refine fetchResult_halts (s := D) (r := r) (f := f) ?_ ?_ ha ?_ hw hv ?_ e
    all_goals rw [hD]
    · exact hg
    · exact hr
    · exact hf
    · exact hn
  obtain ⟨R, hR⟩ : ∃ R, R = fetchResult w (.error e) D := ⟨_, rfl⟩
  rw [← hR] at failed halts kept link
  rw [countFailure_below (by rw [kept]; exact hx), kept] at failed
  refine ⟨ns, _, added, failed, ?_, (R.port_setPort p p _).trans (if_pos rfl), link⟩
  rw [hD] at halts
  exact halts.around (ns := ns) (ms := R.notices) (w := R.power) fun k hk => halts.notices k hk

/-- The failure of an ABORTING request's fetch ends it. -/
theorem opFailed_aborts {s : State} {p : Port} {o : Operation} {b : Nat} {w : Owner} {z : Nat} {r : Request} {f : FetchRecord}
    {v : Fetch} (hk : o.kind = .rdblk b) (hu : o.user = .fetch w z) (hr : s.request w.tag = some r) (ha : r.state = .aborting)
    (hf : s.fetchRecord w.tag = some f) (hw : f.admission = w.admission) (hv : f.fetch = some v)
    (hn : ∀ u, ¬ s.wantsReturn u) (hx : (s.port p).failures < 2) (e : OpFailure) (n : Nat) : ∃ F,
      opFailed p o e n s = F ∧ s.abortEnds F w r ∧ F.log = s.portLogged p e.cause (some w.tag) (some z) (some b) n ∧
      F.port p = { (s.port p).closed .idle ((s.port p).stats.after e.stat n) with failures := (s.port p).failures + 1 } ∧
      F.link = s.link := by
  obtain ⟨ns, D, -, hD, kept, link, failed⟩ := opFailed_fetchResult (s := s) (p := p) hk hu e n
  have ends : D.abortEnds (fetchResult w (.error e) D) w r ∧ (fetchResult w (.error e) D).log = D.log := by
    obtain ⟨ended, log, -⟩ := fetchResult_aborting (s := D) (r := r) (f := f) (by rw [hD]; exact hr) ha (by rw [hD]; exact hf)
      hw hv (by rw [hD]; exact hn) (.error e)
    exact ⟨ended, log⟩
  obtain ⟨R, hR⟩ : ∃ R, R = fetchResult w (.error e) D := ⟨_, rfl⟩
  rw [← hR] at failed ends kept link
  rw [countFailure_below (by rw [kept]; exact hx), kept] at failed
  obtain ⟨ended, log⟩ := ends
  refine ⟨_, failed, ?_, log.trans (by rw [hD]), (R.port_setPort p p _).trans (if_pos rfl), link⟩
  rw [hD] at ended
  exact ended

/-- The third failure in a row: the port is FAILED, and the request has its outcome (R63, R116, R132). -/
theorem opFailed_third {s : State} {p : Port} {o : Operation} {b : Nat} {w : Owner} {z : Nat} (hk : o.kind = .rdblk b)
    (hu : o.user = .fetch w z) (hx : (s.port p).failures = 2) (e : OpFailure) (n : Nat) :
    (opFailed p o e n s).port p = { (s.port p).closed .idle ((s.port p).stats.after e.stat n) with
      cls := .failed, probe := none, debounce := none, failures := 3 } ∧
    (∃ m, (opFailed p o e n s).notice ⟨.portFailed, some p⟩ = some m ∧ m.detail = .cause e.cause) ∧
    (opFailed p o e n s).link = s.link ∧
    ∀ r f v, s.request w.tag = some r → s.fetchRecord w.tag = some f → f.admission = w.admission → f.fetch = some v →
      (r.state = .active → ∃ q, (opFailed p o e n s).request w.tag = some q ∧ q.state = .reporting ∧
        q.status = some e.status ∧ q.failingLbn = some v.lbn ∧ q.blocksDone = r.blocksDone) ∧
      (r.state = .aborting → ∃ q, (opFailed p o e n s).request w.tag = some q ∧ q.state = .reporting ∧
        q.status = some .aborted ∧ q.blocksDone = r.blocksDone) := by
  obtain ⟨ns, D, -, hD, kept, link, failed⟩ := opFailed_fetchResult (s := s) (p := p) hk hu e n
  have near := near_countFailure p e [] (fetchResult w (.error e) D)
  rw [failed]
  obtain ⟨record, notice⟩ := countFailure_failed (e := e) (l := []) (s := fetchResult w (.error e) D) (p := p)
    (by rw [kept]; exact hx) (by rw [kept]; rfl)
  refine ⟨record.trans (by rw [kept]; rfl), notice, near.link.trans link, fun r f v hr hf hw hv => ⟨fun ha => ?_, fun ha => ?_⟩⟩
  · obtain ⟨q, found, state, status, failing, done⟩ := fetchResult_faults (s := D) (r := r) (f := f) (v := v)
      (by rw [hD]; exact hr) ha (by rw [hD]; exact hf) hw hv e
    obtain ⟨q', found', state', status', failing', done'⟩ := near.outcome found state
    exact ⟨q', found', state', status'.trans status, failing'.trans failing, done'.trans done⟩
  · obtain ⟨q, found, state, status, done⟩ := fetchResult_aborts (s := D) (r := r) (f := f) (v := v)
      (by rw [hD]; exact hr) ha (by rw [hD]; exact hf) hw hv (.error e)
    obtain ⟨q', found', state', status', -, done'⟩ := near.outcome found state
    exact ⟨q', found', state', status'.trans status, done'.trans done⟩

/-! ## A copy slot read that fails (R101, R103) -/

theorem opFailed_copySlot {s : State} {p : Port} {o : Operation} {b : Nat} (hk : o.kind = .rdblk b) (hu : o.user = .probe)
    (e : OpFailure) (n : Nat) : opFailed p o e n s = probeRead p b (.error e) n
      (s.ported p ((s.port p).closed .idle ((s.port p).stats.after e.stat n)) (s.marksClosed p)) := by
  unfold opFailed
  rw [hu, hk]
  dsimp only
  rw [closeOp_ported p (by simp)]
  rfl

theorem probeRead_fails {s : State} {p : Port} {y : PortRecord} {m : Vector SleepMark 4} {pr : Probe}
    (hp : y.probe = some pr) {e : OpFailure} (he : e = .noResponse ∨ e = .opTimeout) (b n : Nat) :
    probeRead p b (.error e) n (s.ported p y m) = probeFailed p (some b) n (s.ported p y m) := by
  unfold probeRead
  rw [State.ported_port, hp]
  obtain rfl | rfl := he
  all_goals rfl
/-! ## RDBLK_END -/

/-- The ways in which an RDBLK fails, as the model has them. -/
theorem rdblk_failure {s : State} {p : Port} {o : Operation} {b : Nat} {pre : List ReadAnswer} (h : s.resetLow = false)
    (run : s.runningOp p = some o) (hk : o.kind = .rdblk b) (hp : goesOnReading b pre) {e : Instr} {cause : HistoryCause}
    {st : PortStats} {sent : Nat}
    (he : (e = .rdblkEnd p (pre ++ [.noAck]) ∧ (pre.filter (fun a => a = .noAck)).length = 2 ∧ sent = pre.length + 1 ∧
        cause = .noResponse ∧ st = (s.port p).stats.retried pre.length) ∨
      ((∃ bytes, e = .rdblkEnd p (pre ++ [.stored bytes]) ∧ bytes ≠ List.replicate 258 0xFF ∧
          ¬ (bytes.length = 258 ∧ bytes = storedBlock b (bytes.take 256))) ∧
        (pre.filter (fun a => a ≠ .noAck)).length = 2 ∧ sent = pre.length + 1 ∧ cause = .checkFail ∧
        st = { (s.port p).stats.retried pre.length with checkFailures := satInc (s.port p).stats.checkFailures }) ∨
      (e = .opTimeout p sent ∧ 1 ≤ sent ∧ o.limit ≤ s.clock ∧ cause = .opTimeout ∧
        st = { (s.port p).stats.retried (sent - 1) with opTimeouts := satInc (s.port p).stats.opTimeouts })) :
    ∃ f : OpFailure, f.cause = cause ∧ f.status = .mediaError ∧ st = (s.port p).stats.after f.stat sent ∧
      (f = .checkFail ∨ f = .noResponse ∨ f = .opTimeout) ∧
      exec e s = .next (settleStaging (opFailed p o f sent s)) := by
  obtain ⟨rfl, two, rfl, rfl, rfl⟩ | ⟨⟨bytes, rfl, h1, h2⟩, two, rfl, rfl, rfl⟩ | ⟨rfl, -, late, rfl, rfl⟩ := he
  · exact ⟨.noResponse, rfl, rfl, rfl, .inr (.inl rfl), (live_high h (rdblkEnds p _)).trans
      (congrArg _ (rdblkEnds_failed run hk (scanRead_noAck hp two)))⟩
  · exact ⟨.checkFail, rfl, rfl, rfl, .inl rfl, (live_high h (rdblkEnds p _)).trans
      (congrArg _ (rdblkEnds_failed run hk (scanRead_bad hp h1 h2 two)))⟩
  · exact ⟨.opTimeout, rfl, rfl, rfl, .inr (.inr rfl), (live_high h (opTimesOut p sent)).trans
      (congrArg _ (opTimesOut_reached run late sent))⟩

/-- The data and the finding of a block that ends an RDBLK. -/
theorem blockReading_ends {b : Nat} {bytes data : List Byte}
    (h : (bytes = List.replicate 258 0xFF ∧ data = List.replicate 256 0) ∨
      (bytes ≠ List.replicate 258 0xFF ∧ data.length = 256 ∧ bytes = storedBlock b data)) : ∃ r,
    blockReading b bytes = some r ∧ r.getD (zeros 256) = data ∧
      slotFinding (.ok r) = if bytes = List.replicate 258 0xFF then .nothing else findingOf data := by
  obtain ⟨rfl, rfl⟩ | ⟨h1, h2, rfl⟩ := h
  · exact ⟨none, blockReading_erased b, rfl, (if_pos rfl).symm⟩
  · exact ⟨some data, blockReading_good h1 h2, rfl, (if_neg h1).symm⟩

/-- Settles O40; each of a read's users has its lemmas above. -/
theorem readBlockResult : Obligations.ReadBlockResult := by
  refine ⟨findingOf_recordBytes, fun data hl h => findingOf_nothing hl h, fun s p h => ?_⟩
  intro x
  refine ⟨fun answers k => (live_high h (rdblkEnds p answers)).trans (congrArg _ (rdblkEnds_other k answers)),
    fun o b pre ho hs hk hpre => ?_⟩
  have run := State.runningOp_some ho hs
  intro ends base tries
  refine ⟨fun bytes data hb => ?_, fun e cause st sent he => ?_⟩
  · intro y found
    obtain ⟨r, reading, rdata, finding⟩ := blockReading_ends hb
    have done := (live_high h (rdblkEnds p (pre ++ [.stored bytes]))).trans
      (congrArg _ (rdblkEnds_done run hk (scanRead_good hpre reading)))
    have settles : ∀ S : State, readDone p o b r (pre.length + 1) s = S → S.link = s.link → ends (.stored bytes) S := by
      intro S e hl
      rw [e] at done
      exact ⟨_, done, (settleStaging_link S).trans hl, endsAs_settleStaging S⟩
    have fetched : ∀ w z, o.user = .fetch w z → readDone p o b r (pre.length + 1) s =
        fetchResult w (.ok data) (s.ported p { y with failures := 0 } (s.marksClosed p)) := by
      intro w z hu
      rw [readDone_fetch hk hu, rdata]
      rfl
    have probed : o.user = .probe → readDone p o b r (pre.length + 1) s =
        probeRead p b (.ok r) (pre.length + 1) (s.ported p y (s.marksClosed p)) := fun hu => readDone_probe hk hu r _
    refine ⟨fun w z hu hr => ?_, fun w z q g f v k i c hu hr ha hg hf hw hv hret hk' hall => ?_,
      fun w z q g f v hu hr ha hg hf hw hv hret hcur => ?_, fun w z q f v hu hr ha hf hw hv hn => ?_,
      fun pr hu hp hstep => ?_, fun pr hu hp hstep hheld => ?_, fun pr hu hp hstep hready hcom => ?_⟩
    · exact settles _ ((fetched w z hu).trans (fetchResult_absent
        (s := s.ported p { y with failures := 0 } (s.marksClosed p)) hr _)) rfl
    · exact settles _ ((fetched w z hu).trans (fetchResult_read
        (s := s.ported p { y with failures := 0 } (s.marksClosed p)) hr ha hg hf hw hv hret hk' hall data)) rfl
    · have verified := (fetchResult_obtained (s := s.ported p { y with failures := 0 } (s.marksClosed p)) hr ha hf hw hv
        data).trans (fetchObtained_verified (s := s.ported p { y with failures := 0 } (s.marksClosed p))
        hr hg hf hret hcur data)
      exact settles _ ((fetched w z hu).trans verified) rfl
    · obtain ⟨ended, log, -, ports⟩ := fetchResult_aborting (s := s.ported p { y with failures := 0 } (s.marksClosed p))
        hr ha hf hw hv hn (.ok data)
      have link := (calm_fetchResult w (.ok data) (s.ported p { y with failures := 0 } (s.marksClosed p))).link
      have fetches := fetched w z hu
      generalize fetchResult w (.ok data) (s.ported p { y with failures := 0 } (s.marksClosed p)) = R at *
      rw [fetches] at done
      obtain ⟨en, op, port⟩ := settleStaging_port R p
      have record : R.port p = { y with failures := 0 } :=
        (congrArg (fun v => v[p]) ports).trans (s.ported_port p { y with failures := 0 } (s.marksClosed p))
      rw [record] at port
      refine ⟨_, done, (settleStaging_link R).trans link, ended.ends, (settleStaging_log R).trans log, ?_, ?_⟩
      · rw [port]
      · rw [port]
    · have moves := settles _ ((probed hu).trans (probeRead_slotA (y := y) hp hstep (.inl ⟨r, rfl⟩) _)) rfl
      rw [finding] at moves
      exact moves
    · have moves := settles _ ((probed hu).trans ((probeRead_slotB (y := y) hp hstep r _).trans
        (probeComplete_held (s := s.ported p _ _) hheld))) rfl
      rw [finding] at moves
      exact moves
    · intro newest
      obtain ⟨z, hz⟩ : ∃ z : PortRecord, z = { y with
        probe := some { pr with step := .complete, findingB := slotFinding (.ok r) } } := ⟨_, rfl⟩
      have classifies := (probed hu).trans ((probeRead_slotB (y := y) hp hstep r _).trans
        (probeComplete_classifies (s := s.ported p _ _) hready hcom))
      have probe : ((s.ported p z (s.marksClosed p)).port p).probe =
          some { pr with step := .complete, findingB := slotFinding (.ok r) } := by
        rw [State.ported_port, hz]
      obtain ⟨none, member, cls⟩ := classify_settled probe
      have link := (near_classify p (s.ported p z (s.marksClosed p))).link
      rw [← hz] at classifies
      rw [classifies] at done
      rw [finding] at member cls
      refine ⟨_, done, (settleStaging_link _).trans link, none, member, cls.trans ?_⟩
      exact classFor_held _ _
  · obtain ⟨e', rfl, status, rfl, kinds, taken⟩ := rdblk_failure h run hk hpre he
    intro y ends'
    have settles : ∀ S : State, opFailed p o e' sent s = S → S.link = s.link → ends' S := by
      intro S k hl
      rw [k] at taken
      exact ⟨_, taken, (settleStaging_link S).trans hl, endsAs_settleStaging S⟩
    refine ⟨fun w z hu hr hx => ?_, fun w z q f v hu hr ha hf hw hv hg hn hx => ?_,
      fun w z q f v hu hr ha hf hw hv hn hx => ?_, fun w z hu hx => ?_, fun pr hu hp hstep hc => ?_,
      fun hu hp hc hcls ht hd => ?_⟩
    · obtain ⟨ns, added, failed⟩ := opFailed_fetch hk hu hr hx e' sent
      exact ⟨ns, added, settles _ failed rfl⟩
    · obtain ⟨ns, F, added, failed, halts, port, link⟩ := opFailed_halts hk hu hr ha hf hw hv hg hn hx e' sent
      rw [failed] at taken
      rw [status] at halts
      obtain ⟨en, op, k⟩ := settleStaging_port F p
      rw [port] at k
      refine ⟨ns, _, added, taken, (settleStaging_link F).trans link, halts.ends (endsAs_settleStaging F), ?_, ?_, ?_⟩
      all_goals rw [k]
      all_goals rfl
    · obtain ⟨F, failed, ended, log, port, link⟩ := opFailed_aborts hk hu hr ha hf hw hv hn hx e' sent
      rw [failed] at taken
      obtain ⟨en, op, k⟩ := settleStaging_port F p
      rw [port] at k
      refine ⟨_, taken, (settleStaging_link F).trans link, ended.ends, (settleStaging_log F).trans log, ?_, ?_⟩
      all_goals rw [k]
      all_goals rfl
    · obtain ⟨record, ⟨m, notice, detail⟩, link, outcomes⟩ := opFailed_third hk hu hx e' sent
      obtain ⟨F, hF⟩ : ∃ F, F = opFailed p o e' sent s := ⟨_, rfl⟩
      rw [← hF] at record notice link outcomes taken
      refine ⟨_, m, taken, (settleStaging_link F).trans link, ?_, (settleStaging_notice F _ (by simp)).trans notice, detail,
        fun q f v hr hf hw hv => ?_⟩
      · rw [settleStaging_port_keeps p F (by rw [record]; rfl), record]
      · rw [settleStaging_request, ← status]
        exact outcomes q f v hr hf hw hv
    · have only : e' = .checkFail := by
        obtain k | k | k := kinds
        · exact k
        · rw [k] at hc
          cases hc
        · rw [k] at hc
          cases hc
      subst only
      exact settles _ ((opFailed_copySlot hk hu .checkFail sent).trans (probeRead_slotA (y := y) hp hstep (.inr rfl) _)) rfl
    · have only : e' = .noResponse ∨ e' = .opTimeout := kinds.resolve_left fun k => hc (by rw [k]; rfl)
      obtain ⟨pr, hpr⟩ := Option.isSome_iff_exists.1 hp
      obtain ⟨ns, found, failed⟩ := probeFailed_ported (s := s) .idle ((s.port p).stats.after e'.stat sent) hcls ht hd
        (some b) sent
      exact ⟨ns, found, settles _ ((opFailed_copySlot hk hu e' sent).trans ((probeRead_fails (y := y) hpr only b sent).trans
        failed)) rfl⟩

end Sys2Proof.Machine
end

section
/-! PROOFS. The answers of a PGBLK, its failures, and the end of a drain. -/

namespace Sys2Proof.Machine

/-! ## The answers of a PGBLK (R113) -/

/-- The answers of a PGBLK: the starts that go unacknowledged, the one that is, the polls and the last answer. -/
def programAnswers (starts : Nat) (polls : List ProgramAnswer) (last : ProgramAnswer) : List ProgramAnswer :=
  List.replicate starts .noAck ++ .startAck :: (polls ++ [last])

/-- The ways in which a PGBLK fails, with the cause, the stranding reason, the statistics and the attempts. -/
def State.programFails (s : State) (p : Port) (o : Operation) (starts : Nat) (polls : List ProgramAnswer) (c : Instr)
    (cause : HistoryCause) (reason : StrandReason) (st : PortStats) (sent : Nat) : Prop :=
  (c = .pgblkEnd p (programAnswers starts polls .failed) ∧ sent = starts + 1 + polls.length + 1 ∧ cause = .programFailed ∧
      reason = .programFailed ∧ st = { (s.port p).stats.retried (starts + 1 + polls.length) with
        programFailures := satInc (s.port p).stats.programFailures }) ∨
    (((c = .pgblkEnd p (programAnswers starts polls .noAck) ∧ starts + (polls.filter (fun a => a = .noAck)).length = 2 ∧
          sent = starts + 1 + polls.length + 1) ∨ (c = .pgblkEnd p [.noAck, .noAck, .noAck] ∧ sent = 3)) ∧
      cause = .noResponse ∧ reason = .noResponse ∧ st = (s.port p).stats.retried (sent - 1)) ∨
    (c = .opTimeout p sent ∧ 1 ≤ sent ∧ o.limit ≤ s.clock ∧ cause = .opTimeout ∧ reason = .opTimeout ∧
      st = { (s.port p).stats.retried (sent - 1) with opTimeouts := satInc (s.port p).stats.opTimeouts })

theorem pgblkEnds_other {s : State} {p : Port}
    (h : ∀ o b d, (s.port p).op = some o → o.suspended = false → o.kind ≠ .pgblk b d) (answers : List ProgramAnswer) :
    pgblkEnds p answers s = s := by
  unfold pgblkEnds
  obtain e | ⟨o, e, ho, hs⟩ := s.runningOp_cases p
  · rw [e]
  · rw [e]
    dsimp only
    split
    next b d k => exact absurd k (h o b d ho hs)
    all_goals rfl

theorem pgblkEnds_done {s : State} {p : Port} {o : Operation} {b : Nat} {d : List Byte} (h : s.runningOp p = some o)
    (hk : o.kind = .pgblk b d) {answers : List ProgramAnswer} {sent : Nat}
    (ha : scanProgram false 0 0 answers = some (.ok (), sent)) :
    pgblkEnds p answers s = settleStaging (programDone p o sent s) := by
  unfold pgblkEnds
  rw [h]
  dsimp only
  rw [hk]
  dsimp only
  rw [ha]

theorem pgblkEnds_failed {s : State} {p : Port} {o : Operation} {b : Nat} {d : List Byte} (h : s.runningOp p = some o)
    (hk : o.kind = .pgblk b d) {answers : List ProgramAnswer} {e : OpFailure} {sent : Nat}
    (ha : scanProgram false 0 0 answers = some (.error e, sent)) :
    pgblkEnds p answers s = settleStaging (opFailed p o e sent s) := by
  unfold pgblkEnds
  rw [h]
  dsimp only
  rw [hk]
  dsimp only
  rw [ha]

section Answers

variable {starts : Nat} {polls : List ProgramAnswer} (hp : ∀ a ∈ polls, a = .inProgress ∨ a = .noAck)
  (hn : starts + (polls.filter (fun a => a = .noAck)).length ≤ 2)

include hp hn

theorem scanProgram_ready : scanProgram false 0 0 (programAnswers starts polls .ready) =
    some (.ok (), starts + 1 + polls.length + 1) := (scanProgram_run starts polls .ready hp hn).trans rfl

theorem scanProgram_failed : scanProgram false 0 0 (programAnswers starts polls .failed) =
    some (.error .programFailed, starts + 1 + polls.length + 1) := (scanProgram_run starts polls .failed hp hn).trans rfl

theorem scanProgram_third (h : starts + (polls.filter (fun a => a = .noAck)).length = 2) :
    scanProgram false 0 0 (programAnswers starts polls .noAck) =
      some (.error .noResponse, starts + 1 + polls.length + 1) := by
  refine (scanProgram_run starts polls .noAck hp hn).trans ?_
  rw [h]
  rfl

/-- A PGBLK that fails, as the model has it. -/
theorem program_failure {s : State} {p : Port} {o : Operation} {b : Nat} {d : List Byte} (h : s.resetLow = false)
    (run : s.runningOp p = some o) (hk : o.kind = .pgblk b d) {c : Instr} {cause : HistoryCause} {reason : StrandReason}
    {st : PortStats} {sent : Nat} (hf : s.programFails p o starts polls c cause reason st sent) :
    ∃ f : OpFailure, f.cause = cause ∧ f.strandReason = reason ∧ st = (s.port p).stats.after f.stat sent ∧
      exec c s = .next (settleStaging (opFailed p o f sent s)) := by
  obtain ⟨rfl, rfl, rfl, rfl, rfl⟩ | ⟨⟨rfl, two, rfl⟩ | ⟨rfl, rfl⟩, rfl, rfl, rfl⟩ | ⟨rfl, -, late, rfl, rfl, rfl⟩ := hf
  · exact ⟨.programFailed, rfl, rfl, rfl, (live_high h (pgblkEnds p _)).trans
      (congrArg _ (pgblkEnds_failed run hk (scanProgram_failed hp hn)))⟩
  · exact ⟨.noResponse, rfl, rfl, rfl, (live_high h (pgblkEnds p _)).trans
      (congrArg _ (pgblkEnds_failed run hk (scanProgram_third hp hn two)))⟩
  · exact ⟨.noResponse, rfl, rfl, rfl, (live_high h (pgblkEnds p _)).trans
      (congrArg _ (pgblkEnds_failed run hk rfl))⟩
  · exact ⟨.opTimeout, rfl, rfl, rfl, (live_high h (opTimesOut p sent)).trans
      (congrArg _ (opTimesOut_reached run late sent))⟩

end Answers

/-! ## The end of a drain (R80, R81) -/

theorem programDone_drain {s : State} {p : Port} {o : Operation} {b : Nat} {d : List Byte} {i : SlotNo}
    (hk : o.kind = .pgblk b d) (hu : o.user = .drain i) (n : Nat) : programDone p o n s = drainSuccess i
      (s.ported p { (s.port p).closed .idle ((s.port p).stats.after .blockProgrammed n) with failures := 0 }
        (s.marksClosed p)) := by
  unfold programDone
  rw [hu, hk]
  dsimp only
  rw [closeOp_ported p (by simp), countSuccess, setFailures, State.ported_port, State.ported_setPort]

/-- The state in which the failure of a drain reaches its slot. -/
theorem opFailed_drain {s : State} {p : Port} {o : Operation} {b : Nat} {d : List Byte} {i : SlotNo} {z : Nat}
    (hk : o.kind = .pgblk b d) (hu : o.user = .drain i) (hz : (s.slot i).lbn? = some z) (e : OpFailure) (n : Nat) :
    ∃ ns D, s.logAddedTo ns ∧
      D = ({ s.ported p ((s.port p).closed .idle ((s.port p).stats.after e.stat n)) (s.marksClosed p) with
        log := s.portLogged p e.cause none (some z) (some b) n, notices := ns } : State) ∧
      D.port p = (s.port p).closed .idle ((s.port p).stats.after e.stat n) ∧
      opFailed p o e n s = countFailure p e (drainFailure i e D).2 (drainFailure i e D).1 := by
  obtain ⟨ns, added, entered⟩ := addEntry_port p e.cause none (some z) (some b) n
    (s.ported p ((s.port p).closed .idle ((s.port p).stats.after e.stat n)) (s.marksClosed p))
  refine ⟨ns, _, added, rfl, ?_, ?_⟩
  · exact s.ported_port p ((s.port p).closed .idle ((s.port p).stats.after e.stat n)) (s.marksClosed p)
  · have entry : (s.ported p ((s.port p).closed .idle ((s.port p).stats.after e.stat n)) (s.marksClosed p)).portEntry p o
        e.cause n = ⟨e.cause, .port, none, some z, some p, some b, n⟩ := by
      have lbn : (s.ported p ((s.port p).closed .idle ((s.port p).stats.after e.stat n)) (s.marksClosed p)).slotLbn i =
          some z := hz
      unfold State.portEntry
      rw [hu, hk]
      dsimp only
      rw [lbn]
      rfl
    unfold opFailed
    rw [hu, hk]
    dsimp only
    rw [closeOp_ported p (by simp)]
    unfold drainOpFailed
    dsimp only
    rw [show OpKind.engineAfter (.pgblk b d) true = Engine.idle from rfl, entry, entered]
    rfl

/-- A failure below the third, whatever it stranded. -/
theorem countFailure_handsOn {p : Port} {e : OpFailure} {l : List SlotNo} {s : State} (h : (s.port p).failures < 2) :
    countFailure p e l s = handOn l (s.setPort p { s.port p with failures := (s.port p).failures + 1 }) := by
  have below : min ((s.port p).failures + 1) Config.failureLimit = (s.port p).failures + 1 := by
    have limit : Config.failureLimit = 3 := rfl
    omega
  have more : ¬ (s.port p).failures + 1 = Config.failureLimit := by
    have limit : Config.failureLimit = 3 := rfl
    omega
  unfold countFailure setFailures
  dsimp only
  rw [below, if_neg more]

/-- A request after a drained slot has left its sets. -/
theorem Request.flushed_settled_other {i : SlotNo} {r : Request} (hf : i ∉ r.flushSet) (hs : i ∉ r.settleSet) :
    (r.flushed i).settled i = r := by
  have kept : r.flushed i = r := if_neg fun k => hf k.2.2
  rw [kept]
  exact if_neg hs

theorem setRemove_self (i : SlotNo) : setRemove i [i] = [] := by
  simp [setRemove]

/-- The last slot a SETTLING request waited for: a FLUSH counts it, and either is GOOD (R38, R39). -/
theorem Request.flushed_settled_last {i : SlotNo} {r : Request} (hs : r.state = .settling)
    (h : (r.kind = .flush ∧ r.flushSet = [i] ∧ r.settleSet = []) ∨ (r.kind = .write ∧ r.flushSet = [] ∧ r.settleSet = [i])) :
    (r.flushed i).settled i = { r with
      blocksDone := r.blocksDone + (if r.kind = .flush then 1 else 0), state := .reporting
      status := some .good, failingLbn := none, holdList := [], flushSet := [], settleSet := [] } := by
  obtain ⟨hk, hf, hset⟩ | ⟨hk, hf, hset⟩ := h
  · have flushed : r.flushed i =
        ({ r with flushSet := setRemove i r.flushSet, blocksDone := r.blocksDone + 1 } : Request).ended := by
      unfold Request.flushed
      rw [if_pos ⟨hk, hs, by rw [hf]; exact List.mem_singleton.2 rfl⟩, if_pos (by rw [hf, setRemove_self]; rfl)]
    have out : i ∉ (r.flushed i).settleSet := by
      rw [flushed]
      exact List.not_mem_nil
    rw [show (r.flushed i).settled i = r.flushed i from if_neg out, flushed, if_pos hk]
    rfl
  · have flushed : r.flushed i = r := if_neg fun k => by
      rw [hf] at k
      exact List.not_mem_nil k.2.2
    have write : ¬ r.kind = .flush := fun k => by
      rw [hk] at k
      cases k
    rw [flushed, if_neg write]
    unfold Request.settled
    rw [if_pos (by rw [hset]; exact List.mem_singleton.2 rfl), if_pos ⟨by rw [hset, setRemove_self]; rfl, hs⟩]
    rfl

/-- A request that held a slot whose place a newer one takes (R81, R92). -/
theorem Request.replaced_spec {i n : SlotNo} {r : Request} (hs : i ∉ r.settleSet) : ∃ f : List SlotNo,
    (i ∉ r.flushSet → f = r.flushSet) ∧ (i ∈ r.flushSet → ∀ k, k ∈ f ↔ k = n ∨ (k ∈ r.flushSet ∧ k ≠ i)) ∧
      (r.replaced i n).settled i = { r with flushSet := f } := by
  unfold Request.replaced
  by_cases hf : i ∈ r.flushSet
  · rw [if_pos hf]
    refine ⟨setInsert n (setRemove i r.flushSet), fun k => absurd hf k, fun _ k => ?_, if_neg hs⟩
    rw [mem_setInsert, setRemove, List.mem_filter, decide_eq_true_eq]
  · rw [if_neg hf]
    exact ⟨r.flushSet, fun _ => rfl, fun k => absurd k hf, if_neg hs⟩

theorem Request.replaced_last {i n : SlotNo} {r : Request} (hs : r.state = .settling) (hf : r.flushSet = [])
    (hset : r.settleSet = [i]) : (r.replaced i n).settled i = { r with
      state := .reporting, status := some .good, failingLbn := none, holdList := [], settleSet := [] } := by
  have kept : r.replaced i n = r := if_neg (by rw [hf]; exact List.not_mem_nil)
  rw [kept]
  unfold Request.settled
  rw [if_pos (by rw [hset]; exact List.mem_singleton.2 rfl), if_pos ⟨by rw [hset, setRemove_self]; rfl, hs⟩]
  unfold Request.ended
  rw [hf]

end Sys2Proof.Machine
end

section
/-! PROOFS. The drain of a slot ends. -/

namespace Sys2Proof.Machine

/-! ## The drain of a slot ends (R80, R81, R84) -/

section Drain

variable {s : State} {p : Port} {o : Operation} {b : Nat} {d : List Byte} {i : SlotNo} {z : Nat} {m : Bool}
  {data : List Byte} (hk : o.kind = .pgblk b d) (hu : o.user = .drain i) (hi : s.slot i = .draining z m data)
  (hw : s.noDrainWait z)

include hk hu hi

/-- A failed drain whose block has a newer copy: the count is taken on what the failure did to the slot. -/
theorem opFailed_drain_newer (hx : (s.port p).failures < 2) (e : OpFailure) (n : Nat) {k : SlotNo}
    (hn : s.newestCopy z = some k) : ∃ ns D, s.logAddedTo ns ∧
      D = ({ s.ported p ((s.port p).closed .idle ((s.port p).stats.after e.stat n)) (s.marksClosed p) with
        log := s.portLogged p e.cause none (some z) (some b) n, notices := ns } : State) ∧
      D.newestCopy z = some k ∧ (drainFailure i e D).1.port p = (s.port p).closed .idle ((s.port p).stats.after e.stat n) ∧
      opFailed p o e n s = (drainFailure i e D).1.setPort p { (s.port p).closed .idle ((s.port p).stats.after e.stat n) with
        failures := (s.port p).failures + 1 } := by
  obtain ⟨ns, D, added, hD, port, failed⟩ := opFailed_drain (s := s) (p := p) hk hu (by rw [hi]; rfl) e n
  have kept := ((calm_drainFailure i e D).port p).trans port
  have newest : D.newestCopy z = some k := by
    rw [hD]
    exact hn
  have none : (drainFailure i e D).2 = [] := by
    unfold drainFailure
    rw [show D.slot i = .draining z m data by rw [hD]; exact hi]
    dsimp only
    rw [newest]
  refine ⟨ns, D, added, hD, newest, kept, ?_⟩
  rw [failed, none, countFailure_handsOn (by rw [kept]; exact hx), kept]
  rfl

include hw

/-- A failed drain with no newer copy leaves the slot STRANDED, and SLOT_STRANDED counts one slot more. -/
theorem opFailed_strands (hx : (s.port p).failures < 2)
    (ha : ∀ u r, s.request u = some r → i ∉ r.flushSet ∧ i ∉ r.settleSet)
    (hn : ∀ j, ((s.slot j).isDirty = true ∨ (s.slot j).isStranded = true) → (s.slot j).lbn? ≠ some z) (e : OpFailure)
    (n : Nat) : ∃ ns : Notices,
      (∀ k, ns.pending.find? (fun n => n.key = k) = if k = ⟨.slotStranded, none⟩
        then some (raisedOnce k (.count (s.countSlots StagingSlot.isStranded + 1)) (s.notice k))
        else if k = ⟨.logAdded, none⟩ then some (raisedOnce k (.number s.log.nextNumber) (s.notice k)) else s.notice k) ∧
      opFailed p o e n s = { s.ported p { (s.port p).closed .idle ((s.port p).stats.after e.stat n) with
          failures := (s.port p).failures + 1 } (s.marksClosed p) with
        staging := { s.staging with
          slots := s.staging.slots.set i (.stranded z m data e.strandReason)
          drainOrder := s.staging.drainOrder.filter (fun j => j ≠ i) }
        log := s.portLogged p e.cause none (some z) (some b) n, notices := ns } := by
  obtain ⟨ns, D, added, hD, port, failed⟩ := opFailed_drain (s := s) (p := p) hk hu (by rw [hi]; rfl) e n
  have draining : D.slot i = .draining z m data := by
    rw [hD]
    exact hi
  have strands : drainFailure i e D = (strandSlot e.strandReason i D, [i]) := by
    unfold drainFailure
    rw [draining]
    dsimp only
    rw [show D.newestCopy z = none by rw [hD]; exact newestCopy_none hn]
  have stranded : strandSlot e.strandReason i D = (D.setStaging i (.stranded z m data e.strandReason)).setDrainOrder
      (setRemove i D.staging.drainOrder) := by
    unfold strandSlot
    rw [draining]
    rfl
  have below : ((strandSlot e.strandReason i D).port p).failures < 2 := by
    rw [stranded]
    exact Nat.lt_of_le_of_lt (Nat.le_of_eq (congrArg PortRecord.failures port)) hx
  rw [strands, countFailure_handsOn below, stranded] at failed
  obtain ⟨E, hE⟩ : ∃ E, E = ({ s.ported p { (s.port p).closed .idle ((s.port p).stats.after e.stat n) with
          failures := (s.port p).failures + 1 } (s.marksClosed p) with
        staging := { s.staging with
          slots := s.staging.slots.set i (.stranded z m data e.strandReason)
          drainOrder := s.staging.drainOrder.filter (fun j => j ≠ i) }
        log := s.portLogged p e.cause none (some z) (some b) n, notices := ns } : State) := ⟨_, rfl⟩
  have reached : ((D.setStaging i (.stranded z m data e.strandReason)).setDrainOrder
      (setRemove i D.staging.drainOrder)).setPort p { D.port p with failures := (D.port p).failures + 1 } = E := by
    rw [port, hD, hE]
    unfold State.ported State.setPort State.setDrainOrder State.setStaging
    dsimp only
    rw [Vector.set_set]
    rfl
  have slot : ∀ j, E.slot j = if j = i then .stranded z m data e.strandReason else s.slot j := by
    rw [hE]
    exact fun j => s.slot_setStaging i j _
  have count : E.countSlots StagingSlot.isStranded = s.countSlots StagingSlot.isStranded + 1 :=
    filter_one_more _ allSlots_nodup i (mem_allSlots i) _ _ (by rw [hi]; rfl)
      (by rw [slot, if_pos rfl]; rfl) fun j hj => by rw [slot, if_neg hj]
  have raises := handOn_alone (s := E) (by rw [slot, if_pos rfl]) (by rw [hE]; exact hw) (by rw [hE]; exact ha)
  obtain ⟨ms, raised, found⟩ := raise_spec ⟨.slotStranded, none⟩ (.count (s.countSlots StagingSlot.isStranded + 1)) E
  rw [count, raiseSingle, raised] at raises
  refine ⟨ms, fun k => (found k).trans ?_, ?_⟩
  · have notice : E.notice k = if k = ⟨.logAdded, none⟩ then some (raisedOnce k (.number s.log.nextNumber) (s.notice k))
        else s.notice k := by
      rw [hE]
      exact added k
    by_cases hs : k = ⟨.slotStranded, none⟩
    · subst hs
      rw [if_pos rfl, if_pos rfl, notice, if_neg (by decide)]
    · rw [if_neg hs, if_neg hs, notice]
  · rw [failed]
    refine (congrArg (handOn [i]) reached).trans (raises.trans ?_)
    rw [hE]

/-- A failed drain whose block has a newer copy that is not STRANDED frees the slot, and the newer one takes its place. -/
theorem opFailed_replaces (hx : (s.port p).failures < 2) (h1 : ∀ u, ¬ s.waits u) (h2 : s.returnsSettled)
    (ht : TableGood s) {k : SlotNo} (hn : s.newestCopy z = some k) (hd : (s.slot k).isStranded = false) (e : OpFailure)
    (n : Nat) : ∃ ns c, s.logAddedTo ns ∧
      opFailed p o e n s = { s.ported p { (s.port p).closed .idle ((s.port p).stats.after e.stat n) with
          failures := (s.port p).failures + 1 } (s.marksClosed p) with
        staging := { s.staging with slots := s.staging.slots.set i .free }, table := c
        log := s.portLogged p e.cause none (some z) (some b) n, notices := ns } ∧
      ∀ u, (opFailed p o e n s).request u = (s.request u).map (fun r => (r.replaced i k).settled i) := by
  obtain ⟨ns, D, added, hD, newest, -, failed⟩ := opFailed_drain_newer (s := s) (p := p) hk hu hi hx e n hn
  obtain ⟨c, frees, requests⟩ := drainFailure_newer (s := D) (z := z) (m := m) (data := data) e
    (by rw [hD]; exact hi) newest (by rw [hD]; exact hd) (by rw [hD]; exact hw) (by rw [hD]; exact h1)
    (by rw [hD]; exact h2) (by rw [hD]; exact ht)
  refine ⟨ns, c, added, ?_, fun u => ?_⟩
  · rw [failed, frees, hD]
    unfold State.ported State.setPort State.setStaging
    dsimp only
    rw [Vector.set_set]
  · rw [failed]
    refine (requests u).trans ?_
    rw [hD]
    rfl

/-- A failed drain whose newer copy is STRANDED faults the FLUSH that waited for the slot. -/
theorem opFailed_drain_halts (hx : (s.port p).failures < 2) (ht : TableGood s) {k : SlotNo} {mk : Bool} {old : List Byte}
    {why : StrandReason} {u : Tag} {r : Request} (hn : s.newestCopy z = some k) (hs : s.slot k = .stranded z mk old why)
    (hsn : s.table.snapshot = none) (hr : s.request u = some r) (hst : r.state = .settling) (hm : i ∈ r.flushSet)
    (ho : ∀ v q, s.request v = some q → (v ≠ u → i ∉ q.flushSet) ∧ i ∉ q.settleSet) (e : OpFailure) (n : Nat) :
    ∃ ns F, s.logAddedTo ns ∧ opFailed p o e n s = F ∧ F.link = s.link ∧
      ({ s with
        table := { s.table with slots := s.table.slots.set u (some { r with flushSet := setInsert k (setRemove i r.flushSet) }) }
        staging := { s.staging with slots := s.staging.slots.set i .free }
        log := s.portLogged p e.cause none (some z) (some b) n, notices := ns } : State).haltsOn F u .mediaError (some z)
          why.cause ∧
      F.port p = { (s.port p).closed .idle ((s.port p).stats.after e.stat n) with failures := (s.port p).failures + 1 } := by
  obtain ⟨ns, D, added, hD, newest, -, failed⟩ := opFailed_drain_newer (s := s) (p := p) hk hu hi hx e n hn
  obtain ⟨S, faults, halts⟩ := drainFailure_stranded (s := D) (z := z) (m := m) (data := data) (r := r) (u := u) e
    (by rw [hD]; exact hi) newest (by rw [hD]; exact hs) (by rw [hD]; exact hw) (by rw [hD]; exact ht)
    (by rw [hD]; exact hsn) (by rw [hD]; exact hr) hst hm (by rw [hD]; exact ho)
  have link := (calm_drainFailure i e D).link
  rw [faults] at failed link
  refine ⟨ns, _, added, failed, ?_, ?_, (S.port_setPort p p _).trans (if_pos rfl)⟩
  · refine link.trans ?_
    rw [hD]
    rfl
  · rw [hD] at halts
    exact halts.around (ns := ns) (ms := S.notices) (w := S.power) fun k hk => halts.notices k hk

end Drain

end Sys2Proof.Machine
end

section
/-! PROOFS. TENTATIVE map writes and the targets of a commit. -/

namespace Sys2Proof.Machine

/-! ## Who else is at work for a commit -/

theorem State.liveWrite_none {s : State} {p : Port} (h : (s.port p).op = none) : s.liveWrite p = false := by
  unfold State.liveWrite
  rw [h]

theorem State.liveWrite_other {s : State} {p : Port}
    (h : ∀ q m g k, (s.port p).op = some q → q.user ≠ .mapWrite m g k true) : s.liveWrite p = false := by
  unfold State.liveWrite
  cases e : (s.port p).op with
  | none => rfl
  | some q =>
    dsimp only
    cases u : q.user with
    | mapWrite m g k l =>
      cases l with
      | true => exact absurd u (h q m g k e)
      | false => rfl
    | _ => rfl

/-- No target but that of port `p` has a rewrite asked or in flight, and each port has one target. -/
def State.aloneWrites (s : State) (c : Commit) (p : Port) (tg : Target) : Prop :=
  (c.targets.map (·.port)).Nodup ∧ tg.ask = none ∧ ∀ v ∈ c.targets, v.port ≠ p →
    v.ask = none ∧ ∀ q m h k, (s.port v.port).op = some q → q.user ≠ .mapWrite m h k true

theorem State.aloneWrites.idle {s t : State} {c : Commit} {p : Port} {tg : Target} (h : s.aloneWrites c p tg)
    (hp : (t.port p).op = none) (ho : ∀ q, q ≠ p → (t.port q).op = (s.port q).op) {v : Target} (hv : v ∈ c.targets) :
    t.liveWrite v.port = false := by
  by_cases e : v.port = p
  · rw [e]
    exact State.liveWrite_none hp
  · exact State.liveWrite_other (by rw [ho _ e]; exact (h.2.2 v hv e).2)

/-- The targets of a commit after the target of port `p` became `x`. -/
def Commit.withTarget (c : Commit) (p : Port) (x : Target) : List Target :=
  c.targets.map (fun u => if u.port = p then x else u)

theorem Commit.setTarget_eq (c : Commit) {p : Port} {x : Target} (h : x.port = p) :
    c.setTarget x = { c with targets := c.withTarget p x } := by
  unfold Commit.setTarget Commit.withTarget
  rw [h]

theorem Commit.mem_withTarget {c : Commit} {p : Port} {x v : Target} (h : v ∈ c.withTarget p x) :
    v = x ∨ v ∈ c.targets ∧ v.port ≠ p := by
  unfold Commit.withTarget at h
  obtain ⟨u, hu, e⟩ := List.mem_map.1 h
  split at e
  · exact .inl e.symm
  next k => exact .inr ⟨e ▸ hu, e ▸ k⟩

/-! ## A TENTATIVE map write succeeds (R148) -/

section Tentative

variable {s : State} {c : Commit} {p : Port} {tg : Target} (hc : s.mapStore.commit = some c)
  (ht : firstOf c.targets (fun v => v.port = p) tg)

include hc ht

theorem tentativeWritten_eq : tentativeWritten p s = tentativeTest (s.setCommit (some { c with
    targets := c.withTarget p (if 1 < tg.owed then { tg with
        owed := tg.owed - 1, ask := some ⟨.tentative, if c.generation.toNat % 2 = 1 then 1 else 0⟩ }
      else { tg with owed := 0, stage := .tentativeWritten }) })) := by
  have found := (find_firstOf (l := c.targets) (f := fun v => decide (v.port = p)) (P := fun v => v.port = p)
    (fun v => by simp) tg).2 ht
  have slot : 1 - copySlot c.generation = if c.generation.toNat % 2 = 1 then 1 else 0 := by
    rw [copySlot_eq]
    split <;> rfl
  have port : tg.port = p := (firstOf_mem ht).2
  unfold tentativeWritten
  rw [hc]
  dsimp only
  rw [found]
  dsimp only
  rw [slot]
  by_cases more : 1 < tg.owed
  · rw [if_pos (by omega), if_pos more]
    exact congrArg (fun d => tentativeTest (s.setCommit (some d))) (c.setTarget_eq port)
  · rw [if_neg (by omega), if_neg more]
    exact congrArg (fun d => tentativeTest (s.setCommit (some d))) (c.setTarget_eq port)

theorem tentativeWritten_owes (hs : tg.stage = .awaitingTentative) (ho : 2 ≤ tg.owed) : tentativeWritten p s =
    s.setCommit (some { c with targets := c.withTarget p { tg with
      owed := tg.owed - 1, ask := some ⟨.tentative, if c.generation.toNat % 2 = 1 then 1 else 0⟩ } }) := by
  obtain ⟨mem, port⟩ := firstOf_mem ht
  rw [tentativeWritten_eq hc ht, if_pos (by omega)]
  refine tentativeTest_idle rfl ⟨_, List.mem_map.2 ⟨tg, mem, if_pos port⟩, ?_⟩
  dsimp only
  rw [hs]
  decide

theorem tentativeWritten_waits (ho : tg.owed ≤ 1) (hv : ∃ v ∈ c.targets, v.port ≠ p ∧ v.stage ≠ .tentativeWritten) :
    tentativeWritten p s = s.setCommit (some { c with
      targets := c.withTarget p { tg with owed := 0, stage := .tentativeWritten } }) := by
  obtain ⟨v, mem, other, stage⟩ := hv
  rw [tentativeWritten_eq hc ht, if_neg (by omega)]
  exact tentativeTest_idle rfl ⟨v, List.mem_map.2 ⟨v, mem, if_neg other⟩, stage⟩

/-- The last TENTATIVE success starts FINAL with the first target (R148, R150). -/
theorem tentativeWritten_last (ho : tg.owed ≤ 1) (ha : s.aloneWrites c p tg) (hop : (s.port p).op = none)
    (hv : ∀ v ∈ c.targets, v.port ≠ p → v.stage = .tentativeWritten) {lead : Target} {rest : List Target}
    (hl : c.targets = lead :: rest) : tentativeWritten p s = s.setCommit (some { c with
      phase := .final
      targets := c.targets.map (fun v => { v with
        owed := if v.port = p then 0 else v.owed, stage := .tentativeWritten
        ask := if v.port = lead.port then some ⟨.final, if c.generation.toNat % 2 = 1 then 0 else 1⟩ else none }) }) := by
  obtain ⟨mem, port⟩ := firstOf_mem ht
  obtain ⟨nodup, ask, others⟩ := ha
  rw [tentativeWritten_eq hc ht, if_neg (by omega)]
  have first : c.withTarget p { tg with owed := 0, stage := .tentativeWritten } =
      (if lead.port = p then { tg with owed := 0, stage := .tentativeWritten } else lead) ::
        rest.map (fun u => if u.port = p then { tg with owed := 0, stage := .tentativeWritten } else u) := by
    unfold Commit.withTarget
    rw [hl]
    rfl
  have started := tentativeTest_final (s := s.setCommit (some { c with
    targets := c.withTarget p { tg with owed := 0, stage := .tentativeWritten } })) rfl first fun v hm => by
      obtain rfl | ⟨hm, other⟩ := Commit.mem_withTarget hm
      · refine ⟨rfl, ask, ?_⟩
        dsimp only
        rw [port]
        exact State.liveWrite_none hop
      · exact ⟨hv v hm other, (others v hm other).1, State.liveWrite_other (others v hm other).2⟩
  refine started.trans (congrArg (fun l => s.setCommit (some { c with phase := .final, targets := l })) ?_)
  refine (List.map_map (l := c.targets)).trans (List.map_congr_left fun v hm => ?_)
  rw [copySlot_eq]
  dsimp only [Function.comp_apply]
  have tgp : ∀ u ∈ c.targets, u.port = p → u = tg := fun u hu e => same_target nodup hu mem (e.trans port.symm)
  have leads : (if lead.port = p then ({ tg with owed := 0, stage := .tentativeWritten } : Target) else lead).port =
      lead.port := by
    split
    next e => exact port.trans e.symm
    next => rfl
  rw [leads]
  have inLead : lead ∈ c.targets := by
    rw [hl]
    exact List.mem_cons_self
  have written : ∀ u ∈ c.targets, (if u.port = p then ({ tg with owed := 0, stage := .tentativeWritten } : Target) else u) =
      { u with owed := if u.port = p then 0 else u.owed, stage := .tentativeWritten, ask := none } := by
    intro u hu
    by_cases e : u.port = p
    · rw [if_pos e, if_pos e, tgp u hu e, ask]
    · rw [if_neg e, if_neg e, ← hv u hu e, ← (others u hu e).1]
  rw [written v hm, written lead inLead]
  by_cases e : v.port = lead.port
  · rw [same_target nodup hm inLead e, if_pos rfl, if_pos rfl]
  · rw [if_neg e, if_neg e]

end Tentative

end Sys2Proof.Machine
end

section
/-! PROOFS. FINAL map writes that succeed, and the commit that goes on or ends. -/

namespace Sys2Proof.Machine

/-! ## A FINAL map write succeeds (R105, R150 to R154) -/

theorem programDone_mapWrite {s : State} {p : Port} {o : Operation} {b : Nat} {d : List Byte} {w : MapWrite}
    {g pool : Word32} {live : Bool} (hk : o.kind = .pgblk b d) (hu : o.user = .mapWrite w g pool live) (n : Nat) :
    programDone p o n s = mapWriteDone p w g pool live
      (s.ported p { (s.port p).closed .idle ((s.port p).stats.after .blockProgrammed n) with failures := 0 }
        (s.marksClosed p)) := by
  unfold programDone
  rw [hu, hk]
  dsimp only
  rw [closeOp_ported p (by simp), countSuccess, setFailures, State.ported_port, State.ported_setPort]

theorem recordFinal_ported {s : State} {p : Port} {y : PortRecord} {m : Vector SleepMark 4} {b : Member}
    (h : y.member = some b) (g pool : Word32) :
    recordFinal p g pool (s.ported p y m) = s.ported p { y with member := some { b with newest := some (g, pool) } } m := by
  unfold recordFinal
  rw [State.ported_port, h]
  dsimp only
  rw [State.ported_setPort]

/-- A target of another port that waits for its FINAL rewrite. -/
def Target.nextTo (p : Port) (v : Target) : Prop := v.port ≠ p ∧ v.stage = .tentativeWritten

/-- The first target of another port that waits for its FINAL rewrite stands first among the waiting ones, whatever
became of the target of port `p`. -/
theorem Commit.firstOf_withTarget {c : Commit} {p : Port} {x lead : Target} (hx : x.stage ≠ .tentativeWritten)
    (h : firstOf c.targets (Target.nextTo p) lead) : firstOf (c.withTarget p x) (fun v => v.stage = .tentativeWritten) lead := by
  obtain ⟨a, b, e, ⟨other, stage⟩, before⟩ := h
  refine ⟨a.map (fun u => if u.port = p then x else u), b.map (fun u => if u.port = p then x else u), ?_, stage,
    fun z hz => ?_⟩
  · unfold Commit.withTarget
    rw [e, List.map_append, List.map_cons, if_neg other]
  · obtain ⟨u, hu, rfl⟩ := List.mem_map.1 hz
    dsimp only
    split
    · exact hx
    next k => exact fun c => before u hu ⟨k, c⟩

theorem Commit.firstOf_filter {c : Commit} {p : Port} {lead : Target} (h : firstOf c.targets (Target.nextTo p) lead) :
    firstOf (c.targets.filter (fun v => v.port ≠ p)) (fun v => v.stage = .tentativeWritten) lead := by
  obtain ⟨a, b, e, ⟨other, stage⟩, before⟩ := h
  refine ⟨a.filter (fun v => v.port ≠ p), b.filter (fun v => v.port ≠ p), ?_, stage, fun z hz => ?_⟩
  · rw [e, List.filter_append, List.filter_cons_of_pos (by simpa using other)]
  · obtain ⟨hm, k⟩ := List.mem_filter.1 hz
    exact fun c => before z hm ⟨by simpa using k, c⟩

theorem State.aloneWrites.idleWith {s S : State} {c : Commit} {p : Port} {tg x : Target} (h : s.aloneWrites c p tg)
    (hx : x.ask = none) (hp : x.port = p) (hop : (S.port p).op = none)
    (ho : ∀ q, q ≠ p → (S.port q).op = (s.port q).op) :
    ∀ v ∈ c.withTarget p x, v.ask = none ∧ S.liveWrite v.port = false := by
  intro v hv
  obtain rfl | ⟨hm, other⟩ := Commit.mem_withTarget hv
  · exact ⟨hx, by rw [hp]; exact State.liveWrite_none hop⟩
  · exact ⟨(h.2.2 v hm other).1, h.idle hop ho hm⟩

theorem Map.classOf_notProbe (m : Map) (n : Option (Word32 × Word32)) : m.classOf n ≠ .probe := by
  unfold Map.classOf
  split
  · decide
  · split
    · decide
    · split
      · decide
      · split
        · decide
        · decide

section Final

variable {s : State} {c : Commit} {p : Port} {tg : Target} (hc : s.mapStore.commit = some c)
  (ht : firstOf c.targets (fun v => v.port = p) tg)

include hc ht

/-- What a FINAL success leaves, whatever the commit does next. -/
theorem finalWritten_keeps (hop : (s.port p).op = none) (hd : ∀ i, (s.slot i).isDirty = false) :
    (finalWritten p s).log = s.log ∧
    (∃ o, (finalWritten p s).port p = { s.port p with cls := .pooled, op := o }) ∧
    (finalWritten p s).mapStore.active = (if c.pointReached then s.mapStore.active
      else { s.mapStore.draft with generation := c.generation }) ∧
    (finalWritten p s).mapStore.draft = (if c.pointReached then s.mapStore.draft else (finalWritten p s).mapStore.active) ∧
    (finalWritten p s).notice ⟨.portAttached, some p⟩ = (if (s.port p).cls = .pooled then s.notice ⟨.portAttached, some p⟩
      else some (raisedOnce ⟨.portAttached, some p⟩ (.portClass .pooled) (s.notice ⟨.portAttached, some p⟩))) ∧
    ∀ q, c.pointReached = false → (∀ v ∈ c.targets, v.port ≠ q) → (s.port q).cls.targetable = true →
      ((finalWritten p s).port q).cls = (finalWritten p s).mapStore.active.classOf ((s.port q).member.bind (·.newest)) := by
  obtain ⟨S, ends, maps, ⟨v, m, n, hS⟩, own, -, -, others, -, attached⟩ := finalWritten_spec hc ht
  obtain ⟨T, hT⟩ : ∃ T, T = S.setCommit (some { c with
    pointReached := true, written := setInsert p c.written
    targets := c.targets.map (fun v => if v.port = p then { tg with stage := .finalWritten } else v) }) := ⟨_, rfl⟩
  have apart : T.apartFindings := .inl (by rw [hT, hS]; exact hd)
  have port : ∀ q, T.port q = S.port q := fun q => by rw [hT]; rfl
  have log : T.log = s.log := by rw [hT, hS]; rfl
  have notice : ∀ k, T.notice k = S.notice k := fun k => by rw [hT]; rfl
  have active : T.mapStore.active = S.mapStore.active := by rw [hT]; rfl
  have draft : T.mapStore.draft = S.mapStore.draft := by rw [hT]; rfl
  obtain ⟨log', kept⟩ := finalNext_keeps apart
  have pooled : (T.port p).cls ≠ .probe := by
    rw [port, own]
    exact fun e => by cases e
  have stands := stands_finalNext (p := p) (s := T) pooled (by rw [port, own]; exact hop)
  obtain ⟨attached', o, record⟩ := kept p pooled
  rw [← hT] at ends
  rw [ends]
  refine ⟨log'.trans log, ⟨o, by rw [record, port, own]⟩, ?_, ?_, ?_, fun q hp hq htg => ?_⟩
  · rw [stands.active, active, maps]
    split <;> rfl
  · rw [stands.draft, draft, stands.active, active, maps]
    split <;> rfl
  · rw [attached', notice, attached]
  · have cls := others q hp hq htg
    have apartProbe : (T.port q).cls ≠ .probe := by
      rw [port, cls]
      exact Map.classOf_notProbe _ _
    obtain ⟨-, o, record⟩ := kept q apartProbe
    rw [record, port, stands.active, active]
    exact cls

/-- A FINAL success with another target to be rewritten asks it next (R150). -/
theorem finalWritten_asks (hop : (s.port p).op = none) (ha : s.aloneWrites c p tg) {lead : Target}
    (hl : firstOf c.targets (Target.nextTo p) lead) : (finalWritten p s).mapStore.commit = some { c with
      pointReached := true, written := setInsert p c.written
      targets := c.targets.map (fun v => if v.port = p then { v with stage := .finalWritten }
        else if v.port = lead.port then { v with ask := some ⟨.final, if c.generation.toNat % 2 = 1 then 0 else 1⟩ }
        else v) } := by
  obtain ⟨S, ends, -, ⟨v, m, n, hS⟩, own, others, -, -, -, -⟩ := finalWritten_spec hc ht
  obtain ⟨mem, port⟩ := firstOf_mem ht
  have idle := ha.idleWith (S := S) (x := { tg with stage := .finalWritten }) ha.2.1 port (by rw [own]; exact hop)
    fun q hq => by
      obtain ⟨k, e⟩ := others q hq
      rw [e]
  rw [ends, finalNext_asks (s := S.setCommit _) (x := lead) rfl idle
    (Commit.firstOf_withTarget (x := { tg with stage := .finalWritten }) (fun e => by cases e) hl)]
  · refine congrArg (fun l => some { c with pointReached := true, written := setInsert p c.written, targets := l }) ?_
    refine (List.map_map (l := c.targets)).trans (List.map_congr_left fun v hm => ?_)
    obtain ⟨inLead, other, -⟩ := firstOf_mem hl
    dsimp only [Function.comp_apply]
    rw [copySlot_eq]
    by_cases e : v.port = p
    · rw [if_pos e, if_pos e, same_target ha.1 hm mem (e.trans port.symm)]
      exact if_neg fun k => other (k.symm.trans port)
    · rw [if_neg e, if_neg e]
      by_cases k : v.port = lead.port
      · rw [same_target ha.1 hm inLead k]
      · rw [if_neg k, if_neg k]

/-- A FINAL success with no target left to be rewritten ends the commit DONE (R150, R154). -/
theorem finalWritten_ends {s0 : State} (hop : (s.port p).op = none) (hd : ∀ i, (s.slot i).isDirty = false)
    (ha : s.aloneWrites c p tg) (hl : ∀ v ∈ c.targets, ¬ v.nextTo p)
    (hn : s.notice ⟨.commitDone, none⟩ = s0.notice ⟨.commitDone, none⟩)
    (hp : ∀ q, q ≠ p → s.port q = s0.port q) :
    s0.commitEnds (settleStaging (finalWritten p s)) p .done (setInsert p c.written) c.failed := by
  obtain ⟨S, ends, -, ⟨v, m, n, hS⟩, own, others, kept, -, notice, -⟩ := finalWritten_spec hc ht
  obtain ⟨mem, port⟩ := firstOf_mem ht
  have idle := ha.idleWith (S := S) (x := { tg with stage := .finalWritten }) ha.2.1 port (by rw [own]; exact hop)
    fun q hq => by
      obtain ⟨k, e⟩ := others q hq
      rw [e]
  rw [ends, finalNext_ends (s := S.setCommit _) rfl idle fun v hv => ?_]
  · obtain ⟨x, hx⟩ : ∃ x, x = ({ c with
      pointReached := true, written := setInsert p c.written
      targets := c.targets.map (fun v => if v.port = p then { tg with stage := .finalWritten } else v) } : Commit) := ⟨_, rfl⟩
    have same := endCommit_ends (s0 := s0) (s := S.setCommit (some x)) (c := x) (p := p) .done rfl
      (.inl fun i => by rw [hS]; exact hd i) (notice.trans hn) fun q hq hc =>
        (kept q hq (by rw [hp q hq, hc]; rfl)).trans (hp q hq)
    rw [hx] at same
    exact same
  · obtain rfl | ⟨hm, other⟩ := Commit.mem_withTarget hv
    · exact fun e => by cases e
    · exact fun e => hl v hm ⟨other, e⟩

end Final

end Sys2Proof.Machine
end

section
/-! PROOFS. Map writes that fail, and what their commit does next. -/

namespace Sys2Proof.Machine

/-! ## A map write fails (R105, R149, R153) -/

theorem opFailed_mapWrite {s : State} {p : Port} {o : Operation} {b : Nat} {d : List Byte} {w : MapWrite} {g pool : Word32}
    {live : Bool} (hk : o.kind = .pgblk b d) (hu : o.user = .mapWrite w g pool live) (e : OpFailure) (n : Nat) :
    opFailed p o e n s = mapWriteFailed p o w live n
      (s.ported p ((s.port p).closed .idle ((s.port p).stats.after e.stat n)) (s.marksClosed p)) := by
  unfold opFailed
  rw [hu, hk]
  dsimp only
  rw [closeOp_ported p (by simp)]
  rfl

/-- What the commit does next never touches a FAILED port. -/
theorem mapWriteFailed_port {s : State} {p : Port} (hop : (s.port p).op = none) (o : Operation) (w : MapWrite) (live : Bool)
    (n : Nat) : (mapWriteFailed p o w live n s).port p = { s.port p with
      cls := .failed, engine := .idle, probe := none, debounce := none, failures := min ((s.port p).failures + 1) 3 } := by
  have entered : (addEntry (s.portEntry p o .mapWriteFailed n) s).port p = s.port p := (calm_addEntry _ s).port p
  obtain ⟨A, hA⟩ : ∃ A, A = setFailures p (min ((s.port p).failures + 1) Config.failureLimit)
    (addEntry (s.portEntry p o .mapWriteFailed n) s) := ⟨_, rfl⟩
  have counted : A.port p = { s.port p with failures := min ((s.port p).failures + 1) 3 } := by
    rw [hA, setFailures, State.port_setPort, if_pos rfl, entered]
    rfl
  have failed : (portFailed p .mapWriteFailed [] live A).port p = { s.port p with
      cls := .failed, engine := .idle, probe := none, debounce := none, failures := min ((s.port p).failures + 1) 3 } := by
    rw [portFailed_port (by rw [counted]; exact hop), counted]
  have out : ((portFailed p .mapWriteFailed [] live A).port p).cls ≠ .probe := by
    rw [failed]
    exact fun e => by cases e
  have idle : ((portFailed p .mapWriteFailed [] live A).port p).op = none := by
    rw [failed]
    exact hop
  unfold mapWriteFailed
  dsimp only
  rw [entered, ← hA]
  cases live with
  | false => exact failed
  | true =>
    rw [if_pos rfl]
    cases w.state with
    | tentative => exact (stands_endCommit out idle).port.trans failed
    | final => exact (stands_finalNext out idle).port.trans failed

/-- In FINAL, what comes next raises COMMIT_DONE alone, port kinds aside. -/
theorem finalNext_notice {s : State} (hd : s.apartFindings) {k : NoticeKey} (hk : k.kind ≠ .portAttached)
    (hn : k ≠ ⟨.commitDone, none⟩) : (finalNext s).notice k = s.notice k := by
  unfold finalNext
  split
  · rfl
  next c hc =>
    split
    · rfl
    · split
      · rfl
      · obtain ⟨-, -, notice, -⟩ := endCommit_spec (if c.pointReached then .done else .failedWrite) hc hd
        exact (notice k hk).trans (if_neg hn)

section Failing

variable {s : State} {p : Port} {o : Operation} {b : Nat} {d : List Byte} {w : MapWrite} {g pool : Word32}
  (hk : o.kind = .pgblk b d) (hq : s.quiesced)

include hk hq

/-- A failed map write in a part with nothing under way, up to what its commit does. -/
theorem opFailed_mapWrite_quiesced {live : Bool} (hu : o.user = .mapWrite w g pool live) {m : MapStore}
    (hm : ∀ S, S.mapStore = s.mapStore → (S.port p).op = none → dropTarget p true live S = { S with mapStore := m })
    (e : OpFailure) (n : Nat) : ∃ ns F,
      (∀ k, ns.pending.find? (fun n => n.key = k) =
        if k = ⟨.portFailed, some p⟩ then some (raisedOnce k (.cause .mapWriteFailed) (s.notice k))
        else if k = ⟨.logAdded, none⟩ then some (raisedOnce k (.number s.log.nextNumber) (s.notice k))
        else s.notice k) ∧
      F = ({ s.ported p { (s.port p).closed .idle ((s.port p).stats.after e.stat n) with
            cls := .failed, probe := none, debounce := none, failures := min ((s.port p).failures + 1) 3 } (s.marksClosed p) with
          mapStore := m, log := s.portLogged p .mapWriteFailed none none (some b) n, notices := ns } : State) ∧
      opFailed p o e n s = if live then match w.state with
        | .tentative => endCommit .failedWrite F
        | .final => finalNext F
      else F := by
  obtain ⟨y, hy⟩ : ∃ y, y = (s.port p).closed .idle ((s.port p).stats.after e.stat n) := ⟨_, rfl⟩
  have port : (s.ported p y (s.marksClosed p)).port p = y := s.ported_port p y (s.marksClosed p)
  obtain ⟨ns, found, failed⟩ := mapWriteFailed_quiesced (p := p) (b := live) (n := n) (pbn := some b) (m := m)
    (s := s.ported p y (s.marksClosed p)) hq (by rw [port, hy]; rfl) (s.marksClosed_declined p y) hm
  obtain ⟨F, hF⟩ : ∃ F, F = ({ s.ported p { (s.port p).closed .idle ((s.port p).stats.after e.stat n) with
      cls := .failed, probe := none, debounce := none, failures := min ((s.port p).failures + 1) 3 } (s.marksClosed p) with
    mapStore := m, log := s.portLogged p .mapWriteFailed none none (some b) n, notices := ns } : State) := ⟨_, rfl⟩
  refine ⟨ns, F, found, hF, ?_⟩
  have entry : (s.ported p y (s.marksClosed p)).portEntry p o .mapWriteFailed n =
      ⟨.mapWriteFailed, .port, none, none, some p, some b, n⟩ := portEntry_mapWrite hu hk _ _
  have entered : (addEntry ((s.ported p y (s.marksClosed p)).portEntry p o .mapWriteFailed n)
      (s.ported p y (s.marksClosed p))).port p = (s.ported p y (s.marksClosed p)).port p := (calm_addEntry _ _).port p
  rw [opFailed_mapWrite hk hu, ← hy]
  unfold mapWriteFailed
  dsimp only
  rw [entered, entry, failed, port, show ({ s.ported p y (s.marksClosed p) with
    ports := (s.ported p y (s.marksClosed p)).ports.set p { y with
      cls := .failed, engine := .idle, probe := none, debounce := none, failures := min (y.failures + 1) 3 }
    mapStore := m
    log := (s.ported p y (s.marksClosed p)).portLogged p .mapWriteFailed none none (some b) n, notices := ns } : State) = F
    by
      rw [hF, hy]
      unfold State.ported
      rw [Vector.set_set]
      rfl] <;> rfl

end Failing

/-- `F` is `s` after port `p` went FAILED on a map write and its target left the set of commit `c`. -/
structure State.losesTarget (s : State) (p : Port) (c : Commit) (F : State) : Prop where
  quiesced : F.quiesced
  maps : F.mapStore = { s.mapStore with commit := some { c with
    targets := c.targets.filter (fun v => v.port ≠ p), failed := setInsert p c.failed } }
  failed : (F.port p).cls = .failed
  idle : (F.port p).op = none
  others : ∀ q, q ≠ p → F.port q = s.port q
  done : F.notice ⟨.commitDone, none⟩ = s.notice ⟨.commitDone, none⟩
  noted : F.notice ⟨.portFailed, some p⟩ =
    some (raisedOnce ⟨.portFailed, some p⟩ (.cause .mapWriteFailed) (s.notice ⟨.portFailed, some p⟩))

theorem opFailed_liveWrite {s : State} {p : Port} {o : Operation} {b : Nat} {d : List Byte} {w : MapWrite} {g pool : Word32}
    (hk : o.kind = .pgblk b d) (hq : s.quiesced) (hu : o.user = .mapWrite w g pool true) {c : Commit}
    (hc : s.mapStore.commit = some c) (ht : c.isTarget p = true) (e : OpFailure) (n : Nat) : ∃ F, s.losesTarget p c F ∧
      F.log = s.portLogged p .mapWriteFailed none none (some b) n ∧
      opFailed p o e n s = match w.state with
        | .tentative => endCommit .failedWrite F
        | .final => finalNext F := by
  obtain ⟨ns, F, found, hF, failed⟩ := opFailed_mapWrite_quiesced hk hq hu (m := { s.mapStore with commit := some { c with
    targets := c.targets.filter (fun v => v.port ≠ p), failed := setInsert p c.failed } })
    (fun S hS op => (dropTarget_byWrite (c := c) (by rw [hS]; exact hc) ht op).trans (by rw [hS])) e n
  have own : F.port p = { (s.port p).closed .idle ((s.port p).stats.after e.stat n) with
      cls := .failed, probe := none, debounce := none, failures := min ((s.port p).failures + 1) 3 } := by
    rw [hF]
    exact s.ported_port p _ (s.marksClosed p)
  refine ⟨F, ⟨?_, ?_, ?_, ?_, fun q hq => ?_, ?_, ?_⟩, ?_, failed⟩
  · rw [hF]
    exact hq
  · rw [hF]
  · rw [own]
  · rw [own]
    rfl
  · rw [hF]
    exact s.ported_other hq _ (s.marksClosed p)
  · rw [hF]
    refine (found _).trans ?_
    rw [if_neg (by simp), if_neg (by simp)]
  · rw [hF]
    exact (found _).trans (if_pos rfl)
  · rw [hF]

section Lost

variable {s F : State} {p : Port} {c : Commit} (h : s.losesTarget p c F)

include h

theorem State.losesTarget.notProbe : (F.port p).cls ≠ .probe := by
  rw [h.failed]
  decide

/-- In TENTATIVE the commit ends FAILED_WRITE (R149). -/
theorem State.losesTarget.ends (r : CommitResult) :
    s.commitEnds (settleStaging (endCommit r F)) p r c.written (setInsert p c.failed) :=
  endCommit_ends (c := { c with targets := c.targets.filter (fun v => v.port ≠ p), failed := setInsert p c.failed }) r
    (by rw [h.maps]) h.quiesced.apartFindings h.done fun q hq _ => h.others q hq

/-- Whichever comes next, the log and the two maps stand, and PORT_FAILED with them. -/
theorem State.losesTarget.keeps (w : RecordState) :
    let G : State := match w with
      | .tentative => endCommit .failedWrite F
      | .final => finalNext F
    G.log = F.log ∧ G.mapStore.active = s.mapStore.active ∧ G.mapStore.draft = s.mapStore.draft ∧
      G.notice ⟨.portFailed, some p⟩ =
        some (raisedOnce ⟨.portFailed, some p⟩ (.cause .mapWriteFailed) (s.notice ⟨.portFailed, some p⟩)) := by
  have commit : F.mapStore.commit = some { c with
    targets := c.targets.filter (fun v => v.port ≠ p), failed := setInsert p c.failed } := by rw [h.maps]
  cases w with
  | tentative =>
    obtain ⟨maps, log, notice, -⟩ := endCommit_spec .failedWrite commit h.quiesced.apartFindings
    refine ⟨log, ?_, ?_, (notice _ (by simp)).trans ((if_neg (by simp)).trans h.noted)⟩
    all_goals dsimp only
    all_goals rw [maps, h.maps]
  | final =>
    have stands := stands_finalNext h.notProbe h.idle
    refine ⟨(finalNext_keeps h.quiesced.apartFindings).1, stands.active.trans (by rw [h.maps]),
      stands.draft.trans (by rw [h.maps]), (finalNext_notice h.quiesced.apartFindings (by simp) (by simp)).trans h.noted⟩

variable {tg : Target} (ha : s.aloneWrites c p tg)

include ha

theorem State.losesTarget.idleRest : ∀ v ∈ c.targets.filter (fun v => v.port ≠ p), v.ask = none ∧ F.liveWrite v.port = false := by
  intro v hv
  obtain ⟨hm, k⟩ := List.mem_filter.1 hv
  exact ⟨(ha.2.2 v hm (by simpa using k)).1, ha.idle h.idle (fun q hq => by rw [h.others q hq]) hm⟩

/-- In FINAL the next target is asked (R150, R153). -/
theorem State.losesTarget.asks {lead : Target} (hl : firstOf c.targets (Target.nextTo p) lead) :
    (finalNext F).mapStore.commit = some { c with
      failed := setInsert p c.failed
      targets := (c.targets.filter (fun v => v.port ≠ p)).map (fun v =>
        if v.port = lead.port then { v with ask := some ⟨.final, if c.generation.toNat % 2 = 1 then 0 else 1⟩ } else v) } := by
  rw [finalNext_asks (c := { c with targets := c.targets.filter (fun v => v.port ≠ p), failed := setInsert p c.failed })
    (by rw [h.maps]) (h.idleRest ha) (Commit.firstOf_filter hl)]
  refine congrArg (fun l => some { c with failed := setInsert p c.failed, targets := l }) (List.map_congr_left fun v hv => ?_)
  obtain ⟨hm, -⟩ := List.mem_filter.1 hv
  rw [copySlot_eq]
  by_cases k : v.port = lead.port
  · rw [same_target ha.1 hm (firstOf_mem hl).1 k]
  · exact (if_neg k).trans (if_neg k).symm

/-- In FINAL with no target left the commit ends, DONE once its point is reached (R153). -/
theorem State.losesTarget.endsFinal (hl : ∀ v ∈ c.targets, ¬ v.nextTo p) : s.commitEnds (settleStaging (finalNext F)) p
    (if c.pointReached then .done else .failedWrite) c.written (setInsert p c.failed) := by
  rw [finalNext_ends (c := { c with targets := c.targets.filter (fun v => v.port ≠ p), failed := setInsert p c.failed })
    (by rw [h.maps]) (h.idleRest ha) fun v hv => ?_]
  · exact h.ends _
  · obtain ⟨hm, k⟩ := List.mem_filter.1 hv
    exact fun e => hl v hm ⟨by simpa using k, e⟩

end Lost

end Sys2Proof.Machine
end

section
/-! PROOFS. What PGBLK_END and the timeout of a PGBLK do. -/

namespace Sys2Proof.Machine

theorem State.aloneWrites.ported {s : State} {c : Commit} {p : Port} {tg : Target} (h : s.aloneWrites c p tg) (y : PortRecord)
    (m : Vector SleepMark 4) : (s.ported p y m).aloneWrites c p tg := by
  refine ⟨h.1, h.2.1, fun v hv other => ?_⟩
  rw [s.ported_other other]
  exact h.2.2 v hv other

/-- Settles O41; the drains and the two kinds of map write each have their lemmas above. -/
theorem programBlockResult : Obligations.ProgramBlockResult := by
  intro s p h x
  refine ⟨fun answers k => (live_high h (pgblkEnds p answers)).trans (congrArg _ (pgblkEnds_other k answers)),
    fun o b d starts polls ho hs hk hp hn => ?_⟩
  have run := State.runningOp_some ho hs
  intro answers done ends base tries y logged fails
  have succeeds : exec done s = .next (settleStaging (programDone p o (starts + 1 + polls.length + 1) s)) :=
    (live_high h (pgblkEnds p _)).trans (congrArg _ (pgblkEnds_done run hk (scanProgram_ready hp hn)))
  have settled : ∀ S : State, programDone p o (starts + 1 + polls.length + 1) s = S → S.link = s.link → ends done S := by
    intro S e hl
    rw [e] at succeeds
    exact ⟨_, succeeds, (settleStaging_link S).trans hl, endsAs_settleStaging S⟩
  refine ⟨fun i z m data hu hi hw => ?_, ?_, ?_, ?_⟩
  · intro free
    have drains := programDone_drain (s := s) (p := p) hk hu (starts + 1 + polls.length + 1)
    refine ⟨fun h1 h2 ht => ?_, fun h1 h2 ha => ?_, fun c cause reason st sent hf hx => ?_⟩
    · obtain ⟨tb, frees, requests⟩ := drainSuccess_spec (s := s.ported p { y with failures := 0 } (s.marksClosed p)) hi hw
        h1 h2 ht
      have left : ∀ u, (settleStaging (programDone p o (starts + 1 + polls.length + 1) s)).request u =
          (s.request u).map (fun r => (r.flushed i).settled i) := fun u => by
        rw [settleStaging_request, drains]
        exact requests u
      have freed : programDone p o (starts + 1 + polls.length + 1) s = { (s.ported p { y with failures := 0 }
        (s.marksClosed p)).setStaging i .free with table := tb } := drains.trans frees
      refine ⟨_, succeeds, (settleStaging_link _).trans (by rw [freed]; rfl), fun j => ?_, fun u r hr =>
        ⟨fun hf hset => ?_, fun hst hlast => ?_⟩⟩
      · rw [settleStaging_slot, freed]
        exact s.slot_setStaging i j .free
      · rw [left, hr, Option.map_some, Request.flushed_settled_other hf hset]
      · rw [left, hr, Option.map_some, Request.flushed_settled_last hst hlast]
    · exact settled free (drains.trans (drainSuccess_alone (s := s.ported p { y with failures := 0 } (s.marksClosed p))
        hi hw h1 h2 ha)) rfl
    · obtain ⟨f, rfl, rfl, rfl, taken⟩ := program_failure hp hn h run hk hf
      have fails' : ∀ S : State, opFailed p o f sent s = S → S.link = s.link → ends c S := by
        intro S e hl
        rw [e] at taken
        exact ⟨_, taken, (settleStaging_link S).trans hl, endsAs_settleStaging S⟩
      refine ⟨fun ha hno => ?_, fun n hz ht hone => ⟨fun hd h1 h2 => ?_, fun mk old why u r hsl hsn hr hk' hst hm hoth => ?_⟩⟩
      · obtain ⟨ns, found, strands⟩ := opFailed_strands hk hu hi hw hx ha hno f sent
        exact ⟨ns, found, fails' _ strands rfl⟩
      · have newest := newestCopy_one (.inl hd) hz hone
        have fresh : (s.slot n).isStranded = false := by
          cases e : s.slot n with
          | stranded a b c d => rw [e] at hd; cases hd
          | _ => rfl
        obtain ⟨ns, tb, added, replaces, requests⟩ := opFailed_replaces hk hu hi hw hx h1 h2 ht newest fresh f sent
        have left : ∀ u, (settleStaging (opFailed p o f sent s)).request u =
            (s.request u).map (fun r => (r.replaced i n).settled i) := fun u => by
          rw [settleStaging_request]
          exact requests u
        have table : (settleStaging (opFailed p o f sent s)).table = tb := by
          rw [settleStaging_table, replaces]
        refine ⟨ns, _, added, taken, (settleStaging_link _).trans (by rw [replaces]; rfl), ?_, fun u r hr => ⟨fun hset => ?_,
          fun hkind hst hfl hset => ?_⟩⟩
        · rw [table, replaces]
          exact endsAs_settleStaging _
        · obtain ⟨l, same, put, e⟩ := Request.replaced_spec (n := n) (r := r) hset
          exact ⟨l, same, put, by rw [left, hr, Option.map_some, e]⟩
        · rw [left, hr, Option.map_some, Request.replaced_last hst hfl hset]
      · have newest := newestCopy_one (.inr (by rw [hsl]; rfl)) hz hone
        obtain ⟨ns, F, added, failed, link, halts, port⟩ := opFailed_drain_halts hk hu hi hw hx ht newest hsl hsn hr hst hm
          hoth f sent
        rw [failed] at taken
        obtain ⟨en, op, k⟩ := settleStaging_port F p
        rw [port] at k
        refine ⟨ns, _, _, added, fun j => ?_, taken, (settleStaging_link F).trans link, halts.ends (endsAs_settleStaging F),
          ?_, ?_⟩
        · rw [mem_setInsert, setRemove, List.mem_filter, decide_eq_true_eq]
        all_goals rw [k]
        all_goals rfl
  · intro w g pool c tg hu hc ht slot put alone next
    obtain ⟨mem, port'⟩ := firstOf_mem ht
    have writes := programDone_mapWrite (s := s) (p := p) hk hu (starts + 1 + polls.length + 1)
    refine ⟨fun hw => ⟨fun hst h2 => ?_, fun h1 hv => ?_, fun h1 ha hv lead rest hl => ?_⟩, fun hw m hm => ?_,
      fun e cause reason st sent hf hq => ?_⟩
    · refine settled _ (writes.trans ?_) rfl
      unfold mapWriteDone
      rw [hw]
      exact tentativeWritten_owes (s := s.ported p { y with failures := 0 } (s.marksClosed p)) hc ht hst h2
    · refine settled _ (writes.trans ?_) rfl
      unfold mapWriteDone
      rw [hw]
      exact tentativeWritten_waits (s := s.ported p { y with failures := 0 } (s.marksClosed p)) hc ht h1 hv
    · refine settled _ (writes.trans ?_) rfl
      unfold mapWriteDone
      rw [hw]
      refine tentativeWritten_last (s := s.ported p { y with failures := 0 } (s.marksClosed p)) hc ht h1
        (State.aloneWrites.ported ha _ _) ?_ (fun v hm other => (hv v hm other).2) hl
      rw [State.ported_port]
      rfl
    · obtain ⟨R, hR⟩ : ∃ R, R = s.ported p { y with failures := 0, member := some { m with newest := some (g, pool) } }
        (s.marksClosed p) := ⟨_, rfl⟩
      have port : R.port p = { y with failures := 0, member := some { m with newest := some (g, pool) } } := by
        rw [hR, State.ported_port]
      have idle : (R.port p).op = none := by
        rw [port]
        rfl
      have commit : R.mapStore.commit = some c := by
        rw [hR]
        exact hc
      have adopts : programDone p o (starts + 1 + polls.length + 1) s = finalWritten p R := by
        rw [writes, mapWriteDone, hw, hR]
        exact congrArg (finalWritten p) (recordFinal_ported (y := { y with failures := 0 }) hm g pool)
      have link : (finalWritten p R).link = s.link := (near_finalWritten p R).link.trans (by rw [hR]; rfl)
      rw [adopts] at succeeds
      refine ⟨fun hp => ?_, fun ha hq => ?_⟩
      · obtain ⟨record, active, draft⟩ := finalWritten_first commit hp idle
        obtain ⟨en, op, k⟩ := settleStaging_port (finalWritten p R) p
        rw [record, port] at k
        refine ⟨_, succeeds, (settleStaging_link _).trans link, ?_, ?_, ?_, ?_⟩
        · rw [settleStaging_mapStore, active, hR]
          rfl
        · rw [settleStaging_mapStore, draft]
        · rw [k]
        · rw [k]
      · have clean : ∀ i, (R.slot i).isDirty = false := by
          rw [hR]
          exact hq.noDirty
        have others : ∀ q, q ≠ p → R.port q = s.port q := fun q other => by
          rw [hR]
          exact s.ported_other other _ (s.marksClosed p)
        have notices : ∀ k, R.notice k = s.notice k := fun k => by
          rw [hR]
          rfl
        have alone' : R.aloneWrites c p tg := by
          rw [hR]
          exact State.aloneWrites.ported ha _ _
        have maps : R.mapStore = s.mapStore := by
          rw [hR]
          rfl
        obtain ⟨log, ⟨op, record⟩, active, draft, attached, untargeted⟩ := finalWritten_keeps commit ht idle clean
        have asks := fun lead => finalWritten_asks commit ht idle alone' (lead := lead)
        have finishes := finalWritten_ends (s0 := s) commit ht idle clean alone'
        rw [port] at record
        obtain ⟨en, op', k⟩ := settleStaging_port (finalWritten p R) p
        rw [record] at k
        refine ⟨_, setInsert p c.written, fun q => mem_setInsert p q c.written, succeeds, (settleStaging_link _).trans link,
          (settleStaging_log _).trans (log.trans (by rw [hR]; rfl)), ?_, ?_, ?_, ?_, ?_, fun q hp hv htg => ?_, fun lead hl => ?_,
          fun hl => ?_⟩
        · rw [k]
        · rw [k]
        · rw [settleStaging_mapStore, active, maps]
        · rw [settleStaging_mapStore, draft, maps]
        · rw [settleStaging_notice _ _ (by simp), attached, port, notices]
          rfl
        · obtain ⟨en, op, k⟩ := settleStaging_port (finalWritten p R) q
          have same := others q fun e => hv tg mem (port'.trans e.symm)
          rw [k, settleStaging_mapStore, ← same]
          exact untargeted q hp hv (by rw [same, targetable_isTargetPort]; exact htg)
        · rw [settleStaging_mapStore]
          exact asks lead hl
        · exact finishes hl (notices _) others
    · obtain ⟨f, rfl, -, rfl, taken⟩ := program_failure hp hn h run hk hf
      obtain ⟨F, lost, log, failed⟩ := opFailed_liveWrite hk hq hu hc (isTarget_true mem port') f sent
      obtain ⟨log', active, draft, noted⟩ := lost.keeps w.state
      have link := (near_opFailed p o f sent s).link
      have noted' := settleStaging_notice (opFailed p o f sent s) ⟨.portFailed, some p⟩ (by simp)
      have maps := settleStaging_mapStore (opFailed p o f sent s)
      refine ⟨_, setInsert p c.failed, fun q => mem_setInsert p q c.failed, taken, (settleStaging_link _).trans link,
        (settleStaging_log _).trans ?_, ?_, ?_, noted'.trans ?_, fun hw => ?_, fun hw ha => ⟨fun lead hl => ?_, fun hl => ?_⟩⟩
      · rw [failed]
        exact log'.trans log
      · rw [maps, failed]
        exact active
      · rw [maps, failed]
        exact draft
      · rw [failed]
        exact noted
      · rw [failed, hw]
        exact lost.ends .failedWrite
      · rw [maps, failed, hw]
        exact lost.asks ha hl
      · rw [failed, hw]
        exact lost.endsFinal ha hl
  · intro w g pool hu
    have writes := programDone_mapWrite (s := s) (p := p) hk hu (starts + 1 + polls.length + 1)
    refine ⟨fun hw => settled _ (writes.trans ?_) rfl, fun hw m hm => settled _ (writes.trans ?_) rfl⟩
    · unfold mapWriteDone
      rw [hw]
      rfl
    · unfold mapWriteDone
      rw [hw]
      exact recordFinal_ported (y := { y with failures := 0 }) hm g pool
  · intro w g pool live e cause reason st sent hu hf
    obtain ⟨f, rfl, rfl, rfl, taken⟩ := program_failure hp hn h run hk hf
    intro record
    obtain ⟨z, hz⟩ : ∃ z, z = x.closed .idle (x.stats.after f.stat sent) := ⟨_, rfl⟩
    have port : (opFailed p o f sent s).port p = record := by
      have own : (s.ported p z (s.marksClosed p)).port p = z := s.ported_port p z (s.marksClosed p)
      rw [opFailed_mapWrite hk hu, ← hz]
      refine (mapWriteFailed_port (by rw [own, hz]; rfl) o w live sent).trans ?_
      rw [own, hz]
      rfl
    refine ⟨⟨_, taken, (settleStaging_link _).trans (near_opFailed p o f sent s).link, ?_⟩, fun hl hq hc => ?_⟩
    · rw [settleStaging_port_keeps p _ (by rw [port]; rfl), port]
    · obtain ⟨ns, F, found, hF, failed⟩ := opFailed_mapWrite_quiesced hk hq hu (m := s.mapStore)
        (fun S hS op => (dropTarget_other (by rw [hS]; exact hc)).trans (by rw [← hS])) f sent
      rw [hl] at failed
      refine ⟨ns, found, _, taken, (settleStaging_link _).trans (near_opFailed p o f sent s).link, ?_⟩
      rw [failed]
      have ended := endsAs_settleStaging F
      rw [hF] at ended ⊢
      exact ended

end Sys2Proof.Machine
end

section
/-! PROOFS. Presence, debounce, and a commit target that leaves. -/

namespace Sys2Proof.Machine

/-! ## A port that enters DEBOUNCE (R98, R99) -/

theorem portEntered_settled (p : Port) (present : Bool) (noted : Option PortClass) (s : State) :
    s.portEntered (settleStaging (enterPort p present noted (probeEngine (s.port p)) [] s)) p present noted := by
  cases ho : (s.port p).op with
  | none => exact portEntered_idle present noted ho
  | some o =>
    obtain ⟨st, more, entered, -⟩ := enterPort_settled p present noted [] s (s.port p)
    exact ⟨st, more, entered, fun k => by cases ho.symm.trans k⟩

theorem enterPort_link (p : Port) (present : Bool) (noted : Option PortClass) (e : Engine) (s : State) :
    (enterPort p present noted e [] s).link = s.link := by
  cases present with
  | true => exact (near_portProbe p e [] s).link
  | false => exact (near_portEmpty p noted [] s).link

theorem debounceEnds_other {s : State} {p : Port} (h : (s.port p).cls ≠ .debounce) : debounceEnds p s = s := by
  unfold debounceEnds
  split
  next k _ => exact absurd k h
  next => rfl

theorem debounceEnds_early {s : State} {p : Port} {d : Debounce} (h : (s.port p).cls = .debounce)
    (hd : (s.port p).debounce = some d) (hc : s.clock < d.expiry) : debounceEnds p s = s := by
  unfold debounceEnds
  rw [h, hd]
  exact if_neg fun k => Nat.lt_irrefl _ (Nat.lt_of_lt_of_le hc (of_decide_eq_true k))

theorem debounceEnds_held {s : State} {p : Port} {d : Debounce} (h : (s.port p).cls = .debounce)
    (hd : (s.port p).debounce = some d) (hc : d.expiry ≤ s.clock) : debounceEnds p s =
      settleStaging (enterPort p d.level d.noted (probeEngine (s.port p)) [] s) := by
  unfold debounceEnds
  rw [h, hd]
  exact if_pos (decide_eq_true hc)

theorem exec_presenceChange {s : State} (h : s.resetLow = false) (p : Port) : exec (.presenceChange p) s =
    .next (presenceChanged p (!s.presence[p]) { s with presence := s.presence.set p (!s.presence[p]) }) := by
  refine Eq.trans (b := .next (if s.resetLow then _ else _)) rfl ?_
  rw [h]
  rfl

theorem presenceChanged_debounce {s : State} {p : Port} {d : Debounce} (h : (s.port p).cls = .debounce)
    (hd : (s.port p).debounce = some d) (level : Bool) : presenceChanged p level s =
      s.setPort p { s.port p with debounce := some ⟨level, s.clock + 25, d.noted⟩ } := by
  unfold presenceChanged
  rw [h, hd]
  rfl

theorem presenceChanged_leaves {s : State} {p : Port} (h : (s.port p).cls ≠ .debounce) (level : Bool) :
    presenceChanged p level s = settleStaging (enterDebounce p level s) := by
  unfold presenceChanged
  split
  next k _ => exact absurd k h
  next => rfl

/-- The port leaves for DEBOUNCE, before the waiting fetches and the commit are told. -/
def State.bounced (s : State) (p : Port) (o : Option Operation) (m : MapStore) : State := { s with
  presence := s.presence.set p (!s.presence[p])
  freeDraws := s.freeDraws + (if (s.port p).op.isSome then 1 else 0)
  ports := s.ports.set p { s.port p with
    cls := .debounce, probe := none, op := o
    debounce := some ⟨!s.presence[p], s.clock + 25,
      if (s.port p).cls = .empty ∨ (s.port p).cls = .probe then none else some (s.port p).cls⟩ }
  mapStore := m
  power := { s.power with marks := s.marksAfter p .debounce } }

/-- The operation that goes with the port, suspended with the attempts it has made (R99). -/
def State.heldOp (s : State) (p : Port) (n : Nat) : Option Operation :=
  (s.port p).op.map (fun o => { o with attempts := n, suspended := true })

theorem classified_note {c : PortClass} (h : c ≠ .debounce) : (if c.classified then some c else none) =
    if c = .empty ∨ c = .probe then none else some c := by
  cases c with
  | debounce => exact absurd rfl h
  | _ => rfl

theorem exec_bounces {s : State} {p : Port} (h : s.resetLow = false) (hc : (s.port p).cls ≠ .debounce) : ∃ n S,
    S = s.bounced p (s.heldOp p n) s.mapStore ∧ exec (.presenceChange p) s =
      .next (settleStaging (dropTarget p false false (if (s.port p).cls = .pooled then failWaitingAll p S else S))) := by
  obtain ⟨P, hP⟩ : ∃ P, P = ({ s with presence := s.presence.set p (!s.presence[p]) } : State) := ⟨_, rfl⟩
  have port : P.port p = s.port p := by
    rw [hP]
    rfl
  obtain ⟨n, S, hS, enters⟩ := enterDebounce_eq p (!s.presence[p]) P
  rw [port] at hS enters
  refine ⟨n, S, hS.trans ?_, (exec_presenceChange h p).trans ?_⟩
  · unfold State.bounced
    rw [← classified_note hc, hP]
    rfl
  · rw [← hP, presenceChanged_leaves (by rw [port]; exact hc), enters]

theorem State.bounced_port (s : State) (p : Port) (o : Option Operation) (m : MapStore) :
    (s.bounced p o m).port p = { s.port p with
      cls := .debounce, probe := none, op := o
      debounce := some ⟨!s.presence[p], s.clock + 25,
        if (s.port p).cls = .empty ∨ (s.port p).cls = .probe then none else some (s.port p).cls⟩ } :=
  Vector.getElem_set_self (xs := s.ports) p.isLt

theorem State.bounced_other (s : State) {p q : Port} (h : q ≠ p) (o : Option Operation) (m : MapStore) :
    (s.bounced p o m).port q = s.port q :=
  Vector.getElem_set_ne (xs := s.ports) p.isLt q.isLt fun k => h (Fin.ext k.symm)

/-- The first fetch that waits for the port halts the queue. -/
theorem State.bounced_halts {s : State} {p : Port} {o : Option Operation} {u : Tag} {r : Request} {f : FetchRecord}
    {x : Fetch} (hg : TableGood s) (hn : s.table.snapshot = none)
    (hw : firstOf s.table.admissionOrder (fun v => s.waitsOn p v = true) u) (hr : s.request u = some r)
    (ha : r.state = .active) (hf : s.fetchRecord u = some f) (hx : f.fetch = some x) :
    s.haltsOn (settleStaging (failWaitingAll p (s.bounced p o s.mapStore))) u .memberLost (some x.lbn) .memberLost := by
  have halts := failWaitingAll_halts (s := s.bounced p o s.mapStore) hg hn hw hr ha hf hx
  exact State.haltsOn.ends (s := s) halts (endsAs_settleStaging _)

/-! ## A commit target that leaves (R147) -/

/-- How a commit goes on after a target left its set (R147). -/
def Commit.goesOn (c : Commit) (s : State) : State :=
  match c.phase with
  | .quiesce _ => s
  | .tentative => tentativeTest s
  | .final => finalNext s

theorem Commit.goesOn_quiesce {c : Commit} {m : Nat} (h : c.phase = .quiesce m) (s : State) : c.goesOn s = s := by
  unfold Commit.goesOn
  rw [h]

theorem Commit.goesOn_tentative {c : Commit} (h : c.phase = .tentative) (s : State) : c.goesOn s = tentativeTest s := by
  unfold Commit.goesOn
  rw [h]

theorem Commit.goesOn_final {c : Commit} (h : c.phase = .final) (s : State) : c.goesOn s = finalNext s := by
  unfold Commit.goesOn
  rw [h]

section Target

variable {s : State} {p : Port} {c : Commit} {n : Nat} (hc : s.mapStore.commit = some c) (ht : c.isTarget p = true)

include hc ht

theorem dropTarget_bounced : ∃ X,
    X = s.bounced p ((s.heldOp p n).map (fun o => { o with user := o.user.orphaned })) { s.mapStore with
      commit := some { c with targets := c.targets.filter (fun v => v.port ≠ p) } } ∧
    dropTarget p false false (s.bounced p (s.heldOp p n) s.mapStore) =
    if !c.pointReached && (c.targets.filter (fun v => v.port ≠ p)).isEmpty then endCommit .failedNoTarget X
      else c.goesOn X := by
  obtain ⟨X, o, hX, ho, drops⟩ := dropTarget_left (p := p) (s := s.bounced p (s.heldOp p n) s.mapStore) (c := c) hc ht
  have reached : X = s.bounced p ((s.heldOp p n).map (fun o => { o with user := o.user.orphaned })) { s.mapStore with
      commit := some { c with targets := c.targets.filter (fun v => v.port ≠ p) } } := by
    rw [hX, ho, State.bounced_port]
    unfold State.bounced
    dsimp only
    rw [Vector.set_set]
  exact ⟨X, reached, drops⟩

end Target

/-- A target whose rewrite is asked or in flight. -/
def State.busyTarget (s : State) (v : Target) : Prop :=
  v.ask.isSome = true ∨ ∃ q m g k, (s.port v.port).op = some q ∧ q.user = .mapWrite m g k true

theorem State.not_busyTarget {s : State} {v : Target} (h : ¬ s.busyTarget v) : v.ask = none ∧ s.liveWrite v.port = false := by
  refine ⟨?_, State.liveWrite_other fun q m g k e u => h (.inr ⟨q, m, g, k, e, u⟩)⟩
  cases e : v.ask with
  | none => rfl
  | some a => exact absurd (.inl (by rw [e]; rfl)) h

theorem finalNext_waits {s : State} {c : Commit} (hc : s.mapStore.commit = some c) (h : ∃ v ∈ c.targets, s.busyTarget v) :
    finalNext s = s := by
  obtain ⟨v, hv, busy⟩ := h
  unfold finalNext
  rw [hc]
  dsimp only
  refine if_pos (List.any_eq_true.2 ⟨v, hv, ?_⟩)
  obtain k | ⟨q, m, g, k, e, u⟩ := busy
  · rw [k]
    rfl
  · have live : s.liveWrite v.port = true := by
      unfold State.liveWrite
      rw [e]
      dsimp only
      rw [u]
    rw [live, Bool.or_true]

/-- Asking the first of several targets, of which each port has one. -/
theorem Commit.setTarget_asks {c : Commit} (hn : (c.targets.map (·.port)).Nodup) {lead : Target} (hl : lead ∈ c.targets)
    (a : MapWrite) : c.setTarget { lead with ask := some a } = { c with
      targets := c.targets.map (fun v => if v.port = lead.port then { v with ask := some a } else v) } := by
  unfold Commit.setTarget
  refine congrArg (fun l => { c with targets := l }) (List.map_congr_left fun v hv => ?_)
  by_cases k : v.port = lead.port
  · rw [same_target hn hv hl k]
  · exact (if_neg k).trans (if_neg k).symm

theorem Commit.rest_nodup {c : Commit} (h : (c.targets.map (·.port)).Nodup) (p : Port) :
    ((c.targets.filter (fun v => v.port ≠ p)).map (·.port)).Nodup :=
  h.sublist (List.filter_sublist.map _)

theorem State.bounced_busy {s : State} {p : Port} {o : Option Operation} {m : MapStore} {v : Target} (h : v.port ≠ p) :
    (s.bounced p o m).busyTarget v ↔ s.busyTarget v := by
  unfold State.busyTarget
  rw [s.bounced_other h]

/-- The bounced port holds no findings, and the others hold what they held. -/
theorem State.bounced_apart {s : State} {p : Port} {o : Option Operation} {m : MapStore}
    (h : (∀ i, (s.slot i).isDirty = false) ∨
      ∀ q pr, (s.port q).cls = .probe → (s.port q).probe = some pr → pr.step ≠ .complete) :
    (s.bounced p o m).apartFindings := by
  refine h.imp (fun k => k) fun k q => ?_
  by_cases e : q = p
  · subst e
    refine State.holdsFindings_other ?_
    rw [State.bounced_port]
    exact fun e => by cases e
  · unfold State.holdsFindings
    rw [s.bounced_other e]
    cases cls : decide ((s.port q).cls = .probe) with
    | false => rfl
    | true =>
      cases pr : (s.port q).probe with
      | none => rfl
      | some x => exact decide_eq_false (k q x (of_decide_eq_true cls) pr)

theorem State.bounced_commitEnds {s : State} {p : Port} {o : Option Operation} {m : MapStore} {c : Commit} (r : CommitResult)
    (hc : m.commit = some c) (h : (∀ i, (s.slot i).isDirty = false) ∨
      ∀ q pr, (s.port q).cls = .probe → (s.port q).probe = some pr → pr.step ≠ .complete) :
    s.commitEnds (settleStaging (endCommit r (s.bounced p o m))) p r c.written c.failed :=
  endCommit_ends (s := s.bounced p o m) r hc (State.bounced_apart h) rfl fun _ hq _ => s.bounced_other hq o m

/-- Settles O37; the port, the waiting fetches and the commit have their lemmas above. -/
theorem presenceResult : Obligations.PresenceResult := by
  intro s p h
  refine ⟨fun d hcls hd => ⟨?_, fun hclk => ?_, fun hclk => ?_⟩, fun hcls => ⟨?_, ?_⟩⟩
  · exact (exec_presenceChange h p).trans (congrArg _ (presenceChanged_debounce
      (s := { s with presence := s.presence.set p (!s.presence[p]) }) hcls hd _))
  · exact (live_high h (debounceEnds p)).trans (congrArg _ (debounceEnds_early hcls hd hclk))
  · exact ⟨_, (live_high h (debounceEnds p)).trans (congrArg _ (debounceEnds_held hcls hd hclk)),
      (settleStaging_link _).trans (enterPort_link _ _ _ _ s), portEntered_settled p d.level d.noted s⟩
  · exact (live_high h (debounceEnds p)).trans (congrArg _ (debounceEnds_other hcls))
  · obtain ⟨n, S, hS, taken⟩ := exec_bounces h hcls
    have calm : Calm S (if (s.port p).cls = .pooled then failWaitingAll p S else S) := by
      split
      · exact calm_failWaitingAll p S
      · exact Calm.refl S
    have waitless : ((s.port p).cls = .pooled → s.returnsSettled ∧ ∀ u, s.waitsOn p u = false) →
        (if (s.port p).cls = .pooled then failWaitingAll p S else S) = S := by
      intro k
      split
      next cls =>
        rw [hS]
        exact failWaitingAll_idle (s := s.bounced p (s.heldOp p n) s.mapStore) (k cls).1 (k cls).2
      next => rfl
    obtain ⟨W, hW⟩ : ∃ W, W = if (s.port p).cls = .pooled then failWaitingAll p S else S := ⟨_, rfl⟩
    rw [← hW] at taken calm waitless
    have near := near_dropTarget p false false W
    refine ⟨_, n, taken, ?_, ?_, ?_⟩
    · rw [settleStaging_link, near.link, calm.link, hS]
      rfl
    · rw [(near_settleStaging _).presence, near.presence, calm.presence, hS]
      rfl
    · intro held record base none_waits
      refine ⟨fun hn => ?_, fun c hc ht hnodup hwait => ?_⟩
      · have stays : dropTarget p false false W = W := dropTarget_other fun c k => hn c (by
          rw [calm.mapStore, hS] at k
          exact k)
        rw [stays]
        refine ⟨?_, fun k => ?_, fun u r f x cls hg hsn hw hr ha hf hx => ?_⟩
        · have port : W.port p = record held := by
            rw [calm.port, hS]
            exact s.bounced_port p _ _
          rw [settleStaging_port_keeps p W (by rw [port]; rfl), port]
        · rw [waitless k, hS]
          exact endsAs_settleStaging _
        · rw [hW, if_pos cls, hS]
          exact State.bounced_halts hg hsn hw hr ha hf hx
      · obtain ⟨v, hv, vp⟩ := ht
        obtain ⟨X, hX, drops⟩ := dropTarget_bounced (n := n) hc (isTarget_true hv vp)
        obtain ⟨Y, hY⟩ : ∃ Y, Y = dropTarget p false false (s.bounced p (s.heldOp p n) s.mapStore) := ⟨_, rfl⟩
        rw [waitless hwait, hS, ← hY]
        rw [← hY] at drops
        intro rest left live asked apart
        have commit : X.mapStore.commit = some { c with targets := rest } := by
          rw [hX]
          rfl
        have busy : ∀ v ∈ rest, X.busyTarget v ↔ live v := fun v hv => by
          rw [hX]
          exact State.bounced_busy (by simpa using (List.mem_filter.1 hv).2)
        have idle : (∀ v ∈ rest, ¬ live v) → ∀ v ∈ rest, v.ask = none ∧ X.liveWrite v.port = false := fun k v hv =>
          State.not_busyTarget fun e => k v hv ((busy v hv).1 e)
        have nodup : (rest.map (·.port)).Nodup := Commit.rest_nodup hnodup p
        have going : rest ≠ [] ∨ c.pointReached = true → Y = c.goesOn X := fun k => by
          refine drops.trans (if_neg fun e => ?_)
          rw [Bool.and_eq_true, Bool.not_eq_true', List.isEmpty_iff] at e
          exact k.elim (fun f => f e.2) fun f => by cases f.symm.trans e.1
        have leaves : ∀ d : Commit, Y = X.setCommit (some d) → left d := by
          intro d e
          have same : Y = base (held.map (fun o => { o with user := o.user.orphaned })) { s.mapStore with commit := some d } := by
            rw [e, hX]
            rfl
          exact (congrArg (fun T : State => T.endsAs (settleStaging Y)) same).mp (endsAs_settleStaging Y)
        have keeps : Y = X → left { c with targets := rest } := fun e => leaves _ (e.trans (by rw [hX]; rfl))
        have ends : ∀ r, apart → Y = endCommit r X → s.commitEnds (settleStaging Y) p r c.written c.failed := fun r k e => by
          rw [e, hX]
          exact State.bounced_commitEnds (c := { c with targets := rest }) r rfl k
        refine ⟨fun hr hp ha => ?_, fun hr => ⟨fun m hm => ?_, fun hm hw => ?_, fun hm hall lead l hl => ?_⟩,
          fun hr hm => ⟨fun hb => ?_, fun hb => ⟨fun lead hl => ?_, fun ha hw => ?_⟩⟩⟩
        · exact ends _ ha (drops.trans (if_pos (by rw [hp]; exact List.isEmpty_iff.2 hr)))
        · exact keeps ((going (.inl hr)).trans (Commit.goesOn_quiesce hm X))
        · exact keeps ((going (.inl hr)).trans ((Commit.goesOn_tentative hm X).trans (tentativeTest_idle commit hw)))
        · refine leaves _ ((going (.inl hr)).trans ((Commit.goesOn_tentative hm X).trans ?_))
          rw [tentativeTest_final commit hl fun v hv => ⟨(hall v hv).1, idle (fun v hv => (hall v hv).2) v hv⟩,
            Commit.setTarget_asks (c := { c with phase := .final, targets := rest }) nodup (by rw [hl]; exact List.mem_cons_self),
            copySlot_eq]
        · obtain ⟨v, hv, k⟩ := hb
          exact keeps ((going hr).trans ((Commit.goesOn_final hm X).trans (finalNext_waits commit ⟨v, hv, (busy v hv).2 k⟩)))
        · refine leaves _ ((going hr).trans ((Commit.goesOn_final hm X).trans ?_))
          rw [finalNext_asks commit (idle hb) hl, Commit.setTarget_asks (c := { c with targets := rest }) nodup (firstOf_mem hl).1,
            copySlot_eq]
        · exact ends _ ha ((going hr).trans ((Commit.goesOn_final hm X).trans
            (finalNext_ends (c := { c with targets := rest }) commit (idle hb) hw)))

end Sys2Proof.Machine
end

section
/-! PROOFS. A block of a WRITE is counted, and takes its place. -/

namespace Sys2Proof.Machine

/-! ## A block is counted (R56) -/

/-- A request after one more of its blocks has been received in slot `n`. -/
def Request.received (r : Request) (n : SlotNo) : Request := { r with
  blocksDone := r.blocksDone + 1, settleSet := if r.through then setInsert n r.settleSet else r.settleSet }

/-- A WRITE of `g` once its blocks may all have been received (R39, R40). -/
def Request.finished (r : Request) (g : BlockRange) : Request :=
  if g.count = r.blocksDone then
    if r.through then { r with state := .settling }
    else { r with
      state := .reporting, status := some .good, failingLbn := none, holdList := [], flushSet := [], settleSet := [] }
  else r

theorem Request.received_mem {r : Request} (h : r.through = true) (n : SlotNo) : n ∈ (r.received n).settleSet := by
  unfold Request.received
  dsimp only
  rw [if_pos h]
  exact (mem_setInsert n n r.settleSet).2 (.inl rfl)

theorem countReceived_some {s : State} {t : Tag} {r : Request} (h : s.request t = some r) (n : SlotNo) :
    countReceived t n s = s.setRequest t (r.received n) := by
  unfold countReceived
  rw [h]
  rfl

/-- What the counting of a block can change: the request of the block and what the Data Mover forms. -/
structure State.countsBlock (s u : State) (t : Tag) (q : Request) : Prop where
  eq : ∃ b w o v, u = { s with
    table := b, mover := { s.mover with writes := w, grantOrder := o }, staging := { s.staging with slots := v } }
  request : ∀ v, u.request v = if v = t then some q else s.request v
  snapshot : u.table.snapshot = s.table.snapshot
  completed : u.table.completionOrder = if q.state = .reporting then s.table.completionOrder ++ [t] else s.table.completionOrder
  slot : ∀ i, (s.slot i).isFree = false → u.slot i = s.slot i

section Counts

variable {s : State} {t : Tag} {q : Solicited} {r : Request} {g : BlockRange} (hr : s.request t = some r)

theorem advanceGrant_granted (i : Nat) : ∃ wr o, Granted { s with mover := { s.mover with writes := wr, grantOrder := o } }
    (advanceGrant t q i s) := by
  unfold advanceGrant
  dsimp only
  split
  · exact ⟨_, _, granted_formGrants _⟩
  · exact ⟨_, s.mover.grantOrder, Granted.refl _⟩

theorem advanceGrant_more {i : Nat} (h : q.grant.received.length + 1 ≠ q.grant.slots.length) : advanceGrant t q i s =
    s.setWriteRecord t (some { q.record with
      grant := some { q.grant with received := q.grant.received ++ [i] }, timer := some s.dataExpiry }) := by
  unfold advanceGrant
  dsimp only
  rw [if_neg (by rw [List.length_append, List.length_singleton]; exact h)]

include hr

theorem finishWrite_more (hg : r.range = some g) (h : g.count ≠ r.blocksDone) : finishWrite t s = s := by
  unfold finishWrite
  rw [hr]
  dsimp only
  rw [hg]
  exact if_neg (by simpa using h)

theorem finishWrite_settles (hg : r.range = some g) (h : g.count = r.blocksDone) (ht : r.through = true)
    (hs : r.settleSet ≠ []) : finishWrite t s = (s.setWriteRecord t none).setRequest t { r with state := .settling } := by
  unfold finishWrite
  rw [hr]
  dsimp only
  rw [hg, if_pos (by simpa using h), if_neg]
  rintro (k | k)
  · rw [ht] at k
    cases k
  · exact hs (List.isEmpty_iff.1 k)

theorem finishWrite_reports (hg : r.range = some g) (h : g.count = r.blocksDone) (ht : r.through = false) :
    finishWrite t s = enterReporting t .good none (s.setWriteRecord t none) := by
  unfold finishWrite
  rw [hr]
  dsimp only
  rw [hg, if_pos (by simpa using h), if_pos (.inl ht)]

theorem finishWrite_counts (hg : r.range = some g) (hs : r.through = true → r.settleSet ≠ [])
    (ha : r.state = .active) : s.countsBlock (finishWrite t s) t (r.finished g) := by
  unfold Request.finished
  by_cases h : g.count = r.blocksDone
  · rw [if_pos h]
    obtain ht | ht := Bool.eq_false_or_eq_true r.through
    · rw [finishWrite_settles hr hg h ht (hs ht), if_pos ht]
      exact ⟨⟨_, _, s.mover.grantOrder, s.staging.slots, rfl⟩, fun v => State.request_setRequest s t v _, rfl, rfl, fun _ _ => rfl⟩
    · rw [finishWrite_reports hr hg h ht, enterReporting_some (s := s.setWriteRecord t none) hr, if_neg (by rw [ht]; decide)]
      exact ⟨⟨_, _, s.mover.grantOrder, s.staging.slots, rfl⟩, fun v => State.request_setRequest s t v _, rfl, rfl, fun _ _ => rfl⟩
  · rw [if_neg h, finishWrite_more hr hg h]
    refine ⟨⟨s.table, s.mover.writes, s.mover.grantOrder, s.staging.slots, rfl⟩, fun v => ?_, rfl, ?_, fun _ _ => rfl⟩
    · by_cases e : v = t
      · rw [if_pos e, e, hr]
      · rw [if_neg e]
    · rw [ha]
      rfl

theorem received_counts (q : Solicited) (i : Nat) (n : SlotNo) (hg : r.range = some g) (ha : r.state = .active) :
    s.countsBlock (finishWrite t (advanceGrant t q i (countReceived t n s))) t ((r.received n).finished g) := by
  rw [countReceived_some hr]
  obtain ⟨wr, o, ⟨⟨w, o', v, e⟩, kept⟩⟩ := advanceGrant_granted (s := s.setRequest t (r.received n)) (t := t) (q := q) i
  generalize advanceGrant t q i (s.setRequest t (r.received n)) = Z at e kept
  have own : Z.request t = some (r.received n) := by
    rw [e]
    exact (State.request_setRequest s t t _).trans (if_pos rfl)
  have counts := finishWrite_counts (g := g) own hg fun k e => by
    have mem := Request.received_mem (r := r) k n
    rw [e] at mem
    exact List.not_mem_nil mem
  obtain ⟨⟨b, w', o2, v', e'⟩, request, snapshot, completed, slot⟩ := counts ha
  refine ⟨⟨b, w', o2, v', by rw [e', e]; rfl⟩, fun u => (request u).trans ?_, snapshot.trans (by rw [e]; rfl),
    completed.trans (by rw [e]; rfl), fun j hj => ?_⟩
  · by_cases k : u = t
    · rw [if_pos k, if_pos k]
    · rw [if_neg k, if_neg k, e]
      exact (State.request_setRequest s t u _).trans (if_neg k)
  · have same : Z.slot j = s.slot j := kept j hj
    exact (slot j (by rw [same]; exact hj)).trans same

/-- A block that does not end its grant restarts the data timer (R53). -/
theorem received_writeRecord (q : Solicited) (i : Nat) (n : SlotNo) (hg : r.range = some g) (hc : g.count ≠ r.blocksDone + 1)
    (h : q.grant.received.length + 1 < q.grant.slots.length) :
    (finishWrite t (advanceGrant t q i (countReceived t n s))).writeRecord t = some { q.record with
      grant := some { q.grant with received := q.grant.received ++ [i] }, timer := some s.dataExpiry } := by
  rw [countReceived_some hr, advanceGrant_more (by omega),
    finishWrite_more (s := (s.setRequest t (r.received n)).setWriteRecord t _) (r := r.received n)
    ((State.request_setRequest s t t _).trans (if_pos rfl)) hg hc]
  exact (State.writeRecord_setWriteRecord _ _ _ _).trans (if_pos rfl)

/-- With its last block a WRITE has no record left. -/
theorem received_writeRecord_none (q : Solicited) (i : Nat) (n : SlotNo) (hg : r.range = some g)
    (hc : g.count = r.blocksDone + 1) :
    (finishWrite t (advanceGrant t q i (countReceived t n s))).writeRecord t = none := by
  rw [countReceived_some hr]
  have own : (advanceGrant t q i (s.setRequest t (r.received n))).request t = some (r.received n) := by
    obtain ⟨wr, o, granted⟩ := advanceGrant_granted (s := s.setRequest t (r.received n)) (t := t) (q := q) i
    exact (granted.request t).trans ((State.request_setRequest s t t _).trans (if_pos rfl))
  generalize advanceGrant t q i (s.setRequest t (r.received n)) = Z at own
  have gone : ∀ Y : State, (Y.setWriteRecord t none).writeRecord t = none := fun Y =>
    (State.writeRecord_setWriteRecord _ _ _ _).trans (if_pos rfl)
  obtain ht | ht := Bool.eq_false_or_eq_true r.through
  · rw [finishWrite_settles own hg hc ht fun e => by
      have mem := Request.received_mem ht n
      rw [e] at mem
      exact List.not_mem_nil mem]
    exact gone Z
  · rw [finishWrite_reports own hg hc ht, enterReporting_some (s := Z.setWriteRecord t none) own]
    exact gone Z

end Counts

/-! ## A block takes its place (R74, R75) -/

/-- The state once the block has superseded any older copy of it, and lies in its slot. -/
def State.arrived (A : State) (n : SlotNo) (x : Nat) (mark : Bool) (data : List Byte) : State :=
  if A.available x then (A.setStaging n (.dirty x mark data)).setDrainOrder (A.staging.drainOrder ++ [n])
  else A.setStaging n (.stranded x mark data .memberLost)

theorem supersede_alone {s : State} {n : SlotNo} {x : Nat} (m : Bool)
    (h : ∀ v q, s.request v = some q → ∀ y, s.newestCopy x = some y → y ∉ q.flushSet) :
    ∃ w o st, (supersede n x m s).1 = { s with mover := { s.mover with writes := w, grantOrder := o }, staging := st } := by
  unfold supersede
  cases hy : s.newestCopy x with
  | none => exact ⟨s.mover.writes, s.mover.grantOrder, s.staging, rfl⟩
  | some y =>
    dsimp only
    have still : forAdmitted (flushReplace y n) ((s.setStaging y .free).setDrainOrder (setRemove y s.staging.drainOrder)) =
        (s.setStaging y .free).setDrainOrder (setRemove y s.staging.drainOrder) := forAdmitted_idle _ _ fun t => by
      unfold flushReplace
      cases e : ((s.setStaging y .free).setDrainOrder (setRemove y s.staging.drainOrder)).request t with
      | none => rfl
      | some q =>
        dsimp only
        exact if_neg (h t q e y hy)
    rw [still]
    obtain ⟨w, o, v, e⟩ := (granted_formGrants ((s.setStaging y .free).setDrainOrder (setRemove y s.staging.drainOrder))).eq
    exact ⟨w, o, _, e⟩

end Sys2Proof.Machine
end

section
/-! PROOFS. A solicited block is taken, and its stranding is handed on. -/

namespace Sys2Proof.Machine

/-! ## A solicited block is taken (R55, R56, R74) -/

theorem State.solicited_some {s : State} {t : Tag} {i : Nat} {data : List Byte} {r : Request} {g : BlockRange}
    {w : WriteRecord} {x : Grant} {n : SlotNo} (hr : s.request t = some r) (hk : r.kind = .write) (ha : r.state = .active)
    (hg : r.range = some g) (hw : s.writeRecord t = some w) (hx : w.grant = some x) (h1 : x.first ≤ i) (h2 : i ∉ x.received)
    (h3 : x.slots[i - x.first]? = some n) : s.solicited ⟨t, i, data⟩ = some ⟨r, g, w, x, n⟩ := by
  unfold State.solicited
  dsimp only
  rw [hr, hw]
  dsimp only
  rw [hg, hx]
  dsimp only
  rw [if_pos ⟨hk, ha, h1, h2⟩, h3]
  rfl

theorem Request.finished_more {r : Request} {g : BlockRange} (h : g.count ≠ r.blocksDone) : r.finished g = r := if_neg h

theorem Request.finished_settles {r : Request} {g : BlockRange} (h : g.count = r.blocksDone) (ht : r.through = true) :
    r.finished g = { r with state := .settling } := (if_pos h).trans (if_pos ht)

theorem Request.finished_reports {r : Request} {g : BlockRange} (h : g.count = r.blocksDone) (ht : r.through = false) :
    r.finished g = { r with
      state := .reporting, status := some .good, failingLbn := none, holdList := [], flushSet := [], settleSet := [] } :=
  (if_pos h).trans (if_neg (by rw [ht]; decide))

theorem Request.finished_keeps (r : Request) (g : BlockRange) : (r.finished g).kind = r.kind ∧ (r.finished g).range = r.range ∧
    (r.finished g).urgent = r.urgent ∧ (r.finished g).through = r.through ∧ (r.finished g).admission = r.admission ∧
      (r.finished g).blocksDone = r.blocksDone := by
  unfold Request.finished
  split
  · split
    · exact ⟨rfl, rfl, rfl, rfl, rfl, rfl⟩
    · exact ⟨rfl, rfl, rfl, rfl, rfl, rfl⟩
  · exact ⟨rfl, rfl, rfl, rfl, rfl, rfl⟩

theorem Request.finished_sets {r : Request} {g : BlockRange} {n : SlotNo} (hf : n ∉ r.flushSet) (hs : n ∉ r.settleSet) :
    n ∉ (r.finished g).flushSet ∧ n ∉ (r.finished g).settleSet := by
  unfold Request.finished
  split
  · split
    · exact ⟨hf, hs⟩
    · exact ⟨List.not_mem_nil, List.not_mem_nil⟩
  · exact ⟨hf, hs⟩

/-- The THROUGH mark of a block, with that of the older copy it supersedes (R75). -/
def State.joinedMark (s : State) (x : Nat) (m : Bool) : Bool := m || (s.newestCopy x).any (fun y => (s.slot y).isThrough)

/-- The drain order without the older copy (R75). -/
def State.orderWithout (s : State) (x : Nat) : List SlotNo :=
  match s.newestCopy x with
  | none => s.staging.drainOrder
  | some y => s.staging.drainOrder.filter (fun z => z ≠ y)

/-- The state once a solicited block has been taken, before its stranding is handed on. -/
def State.blockTaken (s : State) (t : Tag) (q : Solicited) (i : Nat) (data : List Byte) : State :=
  finishWrite t (advanceGrant t q i (countReceived t q.slot
    (dataArrival q.slot (q.range.first + i) (s.slot q.slot).isThrough data s).1))

theorem State.arrived_staging (A : State) (n : SlotNo) (x : Nat) (mark : Bool) (data : List Byte) :
    ∃ st, A.arrived n x mark data = { A with staging := st } := by
  unfold State.arrived
  split
  · exact ⟨_, rfl⟩
  · exact ⟨_, rfl⟩

section Calm

variable {s : State} {t : Tag} {i : Nat} {data : List Byte} {r : Request} {g : BlockRange} {w : WriteRecord} {x : Grant}
  {n : SlotNo} (hr : s.request t = some r) (hk : r.kind = .write) (ha : r.state = .active)
  (hg : r.range = some g) (hw : s.writeRecord t = some w) (hx : w.grant = some x) (h1 : x.first ≤ i) (h2 : i ∉ x.received)
  (h3 : x.slots[i - x.first]? = some n)

include hr hk ha hg hw hx h1 h2 h3

theorem calm_blockTaken : Calm s (s.blockTaken t ⟨r, g, w, x, n⟩ i data) := by
  obtain ⟨place, still⟩ := calm_takesPlace (s := s) (State.solicited_some (data := data) hr hk ha hg hw hx h1 h2 h3)
  exact place.trans (calm_finishWrite t _ still)

end Calm

section Taken

variable {s : State} {t : Tag} {i : Nat} {data : List Byte} {r : Request} {g : BlockRange} {w : WriteRecord} {x : Grant}
  {n : SlotNo} {m : Bool} {o : Owner} (hr : s.request t = some r) (ha : r.state = .active)
  (hg : r.range = some g) (hw : s.writeRecord t = some w) (hx : w.grant = some x) (hn : s.slot n = .filling (g.first + i) o m)

include hr hw hx hn

theorem dataArrival_arrives : ∃ A fs, A = (supersede n (g.first + i) m s).1 ∧ Superseded s A n (g.first + i) t r w ∧
    A.request t = some { r with flushSet := fs } ∧
    dataArrival n (g.first + i) (s.slot n).isThrough data s = (A.arrived n (g.first + i)
      (s.joinedMark (g.first + i) m) data, !s.available (g.first + i)) := by
  obtain ⟨sp, mark⟩ := supersede_filling (x := g.first + i) hr hw (by rw [hx]; simp) ⟨_, hn⟩
  obtain ⟨fs, own⟩ := sp.req
  refine ⟨_, fs, rfl, sp, own, ?_⟩
  have through : (s.slot n).isThrough = m := by
    rw [hn]
    rfl
  unfold dataArrival State.arrived
  rw [through]
  dsimp only
  rw [mark, sp.calm.toSoft.available]
  unfold State.joinedMark
  cases s.available (g.first + i) with
  | true => rfl
  | false => rfl

include hg

/-- What the record of the WRITE becomes (R53, R56). -/
theorem blockTaken_writeRecord : (g.count = r.blocksDone + 1 →
      (s.blockTaken t ⟨r, g, w, x, n⟩ i data).writeRecord t = none) ∧
    (g.count ≠ r.blocksDone + 1 → x.received.length + 1 < x.slots.length →
      (s.blockTaken t ⟨r, g, w, x, n⟩ i data).writeRecord t = some { w with
        grant := some { x with received := x.received ++ [i] }, timer := some s.dataExpiry }) := by
  obtain ⟨A, fs, -, sp, own, arrives⟩ := dataArrival_arrives (data := data) hr hw hx hn
  obtain ⟨st, arrived⟩ := A.arrived_staging n (g.first + i) (s.joinedMark (g.first + i) m) data
  obtain ⟨X, hX⟩ : ∃ X, X = A.arrived n (g.first + i) (s.joinedMark (g.first + i) m) data := ⟨_, rfl⟩
  have holds : X.request t = some { r with flushSet := fs } := by
    rw [hX, arrived]
    exact own
  have expiry : X.dataExpiry = s.dataExpiry := by
    have soft := sp.calm.toSoft
    rw [hX, arrived]
    unfold State.dataExpiry State.ahead
    rw [← soft.clock, ← soft.params]
  unfold State.blockTaken
  dsimp only
  rw [arrives, ← hX]
  refine ⟨fun hc => received_writeRecord_none holds _ i n hg hc, fun hc hl => ?_⟩
  rw [← expiry]
  exact received_writeRecord holds ⟨r, g, w, x, n⟩ i n hg hc hl

include ha

theorem blockTaken_counts : ∃ A fs, A = (supersede n (g.first + i) m s).1 ∧ Superseded s A n (g.first + i) t r w ∧
    A.request t = some { r with flushSet := fs } ∧
    (A.arrived n (g.first + i) (s.joinedMark (g.first + i) m) data).countsBlock
      (s.blockTaken t ⟨r, g, w, x, n⟩ i data) t ((({ r with flushSet := fs } : Request).received n).finished g) := by
  obtain ⟨A, fs, hA, sp, own, arrives⟩ := dataArrival_arrives (data := data) hr hw hx hn
  refine ⟨A, fs, hA, sp, own, ?_⟩
  unfold State.blockTaken
  dsimp only
  rw [arrives]
  refine received_counts ?_ _ i n hg ha
  unfold State.arrived
  split
  · exact own
  · exact own

theorem blockTaken_place :
    (s.blockTaken t ⟨r, g, w, x, n⟩ i data).slot n = (if s.available (g.first + i)
      then .dirty (g.first + i) (s.joinedMark (g.first + i) m) data
      else .stranded (g.first + i) (s.joinedMark (g.first + i) m) data .memberLost) ∧
    (s.blockTaken t ⟨r, g, w, x, n⟩ i data).staging.drainOrder =
      s.orderWithout (g.first + i) ++ if s.available (g.first + i) then [n] else [] := by
  obtain ⟨A, fs, -, sp, -, ⟨b, w', o', v, e⟩, -, -, -, slot⟩ := blockTaken_counts (data := data) hr ha hg hw hx hn
  have before : A.staging.drainOrder = s.orderWithout (g.first + i) := sp.order
  rw [← before]
  have order : (s.blockTaken t ⟨r, g, w, x, n⟩ i data).staging.drainOrder = (A.arrived n (g.first + i)
      (s.joinedMark (g.first + i) m) data).staging.drainOrder := by
    rw [e]
  rw [order]
  have avail := sp.calm.toSoft.available (g.first + i)
  cases k : s.available (g.first + i) with
  | true =>
    have arrived : ∀ mark, A.arrived n (g.first + i) mark data =
        (A.setStaging n (.dirty (g.first + i) mark data)).setDrainOrder (A.staging.drainOrder ++ [n]) :=
      fun mark => if_pos (avail.trans k)
    rw [arrived] at slot ⊢
    have put := (A.slot_setStaging n n (.dirty (g.first + i)
      (s.joinedMark (g.first + i) m) data)).trans (if_pos rfl)
    exact ⟨(slot n (congrArg StagingSlot.isFree put)).trans put, rfl⟩
  | false =>
    have arrived : ∀ mark, A.arrived n (g.first + i) mark data = A.setStaging n (.stranded (g.first + i) mark data .memberLost) :=
      fun mark => if_neg (by rw [avail, k]; decide)
    rw [arrived] at slot ⊢
    have put := (A.slot_setStaging n n (.stranded (g.first + i)
      (s.joinedMark (g.first + i) m) data .memberLost)).trans (if_pos rfl)
    exact ⟨(slot n (congrArg StagingSlot.isFree put)).trans put, (List.append_nil _).symm⟩

/-- Where no other request depends on the slot or on the copy it supersedes, the others stand. -/
theorem blockTaken_alone (h : ∀ v q, s.request v = some q → ∀ y, s.newestCopy (g.first + i) = some y → y ∉ q.flushSet) :
    (∀ v, (s.blockTaken t ⟨r, g, w, x, n⟩ i data).request v =
      if v = t then some ((r.received n).finished g) else s.request v) ∧
    (s.blockTaken t ⟨r, g, w, x, n⟩ i data).mover.fetches = s.mover.fetches ∧
    (s.blockTaken t ⟨r, g, w, x, n⟩ i data).notices = s.notices ∧
    (s.blockTaken t ⟨r, g, w, x, n⟩ i data).table.snapshot = s.table.snapshot ∧
    (s.blockTaken t ⟨r, g, w, x, n⟩ i data).table.completionOrder = if ((r.received n).finished g).state = .reporting
      then s.table.completionOrder ++ [t] else s.table.completionOrder := by
  obtain ⟨A, fs, hA, sp, own, ⟨b, w', o', v, e⟩, request, snapshot, completed, -⟩ := blockTaken_counts (data := data) hr ha hg hw hx hn
  obtain ⟨w2, o2, st, e2⟩ := supersede_alone (n := n) m h
  rw [← hA] at e2
  have kept : ({ r with flushSet := fs } : Request) = r := by
    rw [e2] at own
    exact Option.some.inj (own.symm.trans hr)
  obtain ⟨st', arrived⟩ := A.arrived_staging n (g.first + i) (s.joinedMark (g.first + i) m) data
  rw [kept] at request completed
  rw [arrived, e2] at e request snapshot completed
  refine ⟨request, ?_, ?_, snapshot, completed⟩
  · rw [e]
  · rw [e]

end Taken

/-! ## The stranding is handed on (R84) -/

theorem handOn_one (i : SlotNo) (s : State) : handOn [i] s =
    raiseSingle .slotStranded (.count ((handOnSlot i s).countSlots StagingSlot.isStranded)) (handOnSlot i s) := by
  unfold handOn handOnWalk noteStranded
  rw [if_neg (by simp), slots_one]
  rfl

/-- A stranded slot that one ACTIVE or SETTLING request alone depends on faults it. -/
theorem handOnSlot_halts {s : State} {t : Tag} {q : Request} {n : SlotNo} {x : Nat} {m : Bool} {data : List Byte}
    {reason : StrandReason} (hn : s.slot n = .stranded x m data reason) (hg : TableGood s) (hsn : s.table.snapshot = none)
    (hq : s.request t = some q) (ha : q.state = .active ∨ q.state = .settling) (hm : n ∈ q.settleSet)
    (ho : ∀ v p, v ≠ t → s.request v = some p → n ∉ p.flushSet ∧ n ∉ p.settleSet) :
    s.haltsOn (handOnSlot n s) t .mediaError (some x) reason.cause := by
  have halts := requestFault_halts hg hq ha hsn .mediaError (some x) reason.cause
  have listed : t ∈ s.table.admissionOrder := (hg.2 t).2 (by rw [hq]; rfl)
  obtain ⟨pre, post, split, fresh⟩ := List.eq_append_cons_of_mem listed
  have others : ∀ v ∈ pre, strandRequest n x reason.cause v s = s := by
    intro v hv
    unfold strandRequest
    cases e : s.request v with
    | none => rfl
    | some p =>
      obtain ⟨hf, hs⟩ := ho v p (fun k => fresh (k ▸ hv)) e
      exact if_neg fun k => k.elim hf hs
  have own : strandRequest n x reason.cause t s = requestFault t .mediaError (some x) reason.cause s := by
    unfold strandRequest
    rw [hq]
    exact if_pos (.inr hm)
  unfold handOnSlot
  rw [hn]
  dsimp only
  rw [forAdmitted_first (strandRequest n x reason.cause) split others own fun v => halts.over.strandRequest n x reason.cause v,
    forAdmitted_idle _ _ fun v => halts.over.strandFetch x reason.cause v]
  exact halts
/-- The queue halts, and the stranding is noted with it. -/
theorem handOn_halts {s : State} {n : SlotNo} {t : Tag} {x : Option Nat} {c : HistoryCause}
    (halts : s.haltsOn (handOnSlot n s) t .mediaError x c) : ∃ ns : Notices,
    (∀ k, ns.pending.find? (fun n => n.key = k) = if k = ⟨.slotStranded, none⟩ then some (raisedOnce k
      (.count ((settleStaging (handOn [n] s)).countSlots StagingSlot.isStranded)) (s.notice k)) else s.notice k) ∧
    State.haltsOn { s with notices := ns } (settleStaging (handOn [n] s)) t .mediaError x c := by
  rw [handOn_one]
  obtain ⟨F, hF⟩ : ∃ F, F = handOnSlot n s := ⟨_, rfl⟩
  rw [← hF] at halts ⊢
  obtain ⟨ns, -, before⟩ := raise_spec ⟨.slotStranded, none⟩ (.count (F.countSlots StagingSlot.isStranded)) s
  obtain ⟨ms, raised, after⟩ := raise_spec ⟨.slotStranded, none⟩ (.count (F.countSlots StagingSlot.isStranded)) F
  rw [raiseSingle, raised]
  have counted : (settleStaging { F with notices := ms }).countSlots StagingSlot.isStranded =
      F.countSlots StagingSlot.isStranded := congrArg List.length (List.filter_congr fun j _ =>
    congrArg StagingSlot.isStranded (settleStaging_slot { F with notices := ms } j))
  refine ⟨ns, fun k => by rw [counted]; exact before k, State.haltsOn.ends (t := { F with notices := ms })
    (halts.around (v := F.ports) (w := F.power) fun k hk => ?_) (endsAs_settleStaging _)⟩
  rw [after k, before k]
  by_cases e : k = ⟨.slotStranded, none⟩
  · subst e
    have old := halts.notices ⟨.slotStranded, none⟩ hk
    rw [if_neg (by decide), if_neg (by decide)] at old
    rw [if_pos rfl, if_pos rfl, if_neg (by decide), if_neg (by decide), old]
  · rw [if_neg e, if_neg e]
    exact halts.notices k hk

section TakenBy

variable {s : State} {t : Tag} {i : Nat} {data : List Byte} {r : Request} {g : BlockRange} {w : WriteRecord} {x : Grant}
  {n : SlotNo} {m : Bool} {o : Owner} (hr : s.request t = some r) (ha : r.state = .active)
  (hg : r.range = some g) (hw : s.writeRecord t = some w) (hx : w.grant = some x) (hn : s.slot n = .filling (g.first + i) o m)

include hr hw hx hn

theorem takeBlock_eq : takeBlock ⟨t, i, data⟩ ⟨r, g, w, x, n⟩ s = settleStaging
    (handOn (if s.available (g.first + i) then [] else [n]) (s.blockTaken t ⟨r, g, w, x, n⟩ i data)) := by
  obtain ⟨A, fs, -, -, -, arrives⟩ := dataArrival_arrives (data := data) hr hw hx hn
  have lost : (dataArrival n (g.first + i) (s.slot n).isThrough data s).2 = !s.available (g.first + i) := by rw [arrives]
  unfold takeBlock State.blockTaken
  dsimp only
  rw [lost]
  cases s.available (g.first + i) with
  | true => rfl
  | false => rfl

include ha hg

/-- What is left of a block that a write-back WRITE can do without, once its stranding has been noted. -/
theorem handOn_blockTaken (h : s.available (g.first + i) = true ∨
      (((∀ v q, s.request v = some q → n ∉ q.flushSet ∧ n ∉ q.settleSet ∧
          ∀ y, s.newestCopy (g.first + i) = some y → y ∉ q.flushSet) ∧ s.noDrainWait (g.first + i)) ∧ r.through = false)) :
    ∃ ms, handOn (if s.available (g.first + i) then [] else [n]) (s.blockTaken t ⟨r, g, w, x, n⟩ i data) =
        { s.blockTaken t ⟨r, g, w, x, n⟩ i data with notices := ms } ∧
      (s.available (g.first + i) = false → ms.pending.find? (fun k => k.key = ⟨.slotStranded, none⟩) =
        some (raisedOnce ⟨.slotStranded, none⟩
          (.count ((s.blockTaken t ⟨r, g, w, x, n⟩ i data).countSlots StagingSlot.isStranded))
          (s.notice ⟨.slotStranded, none⟩))) := by
  cases k : s.available (g.first + i) with
  | true => exact ⟨_, rfl, fun e => by cases e⟩
  | false =>
    obtain ⟨⟨free, clear⟩, back⟩ := h.resolve_left (by rw [k]; decide)
    obtain ⟨requests, fetches, notices, -, -⟩ := blockTaken_alone (data := data) hr ha hg hw hx hn fun v q hq => (free v q hq).2.2
    obtain ⟨slot, -⟩ := blockTaken_place (data := data) hr ha hg hw hx hn
    rw [if_neg (by rw [k]; decide)] at slot
    obtain ⟨W, hW⟩ : ∃ W, W = s.blockTaken t ⟨r, g, w, x, n⟩ i data := ⟨_, rfl⟩
    rw [← hW] at requests fetches notices slot ⊢
    have raises := handOn_alone (s := W) slot (by
        unfold State.noDrainWait State.fetchRecord
        rw [fetches]
        exact clear) fun u q hq => by
      rw [requests] at hq
      by_cases e : u = t
      · rw [if_pos e] at hq
        cases hq
        obtain ⟨hf, hs, -⟩ := free t r hr
        refine Request.finished_sets (r := r.received n) hf ?_
        unfold Request.received
        rw [back]
        exact hs
      · rw [if_neg e] at hq
        exact ⟨(free u q hq).1, (free u q hq).2.1⟩
    obtain ⟨ms, raised, found⟩ := raise_spec ⟨.slotStranded, none⟩ (.count (W.countSlots StagingSlot.isStranded)) W
    refine ⟨ms, raises.trans raised, fun _ => (found _).trans ((if_pos rfl).trans ?_)⟩
    unfold State.notice
    rw [notices]

end TakenBy

/-- A solicited WRITE-DATA, as the model has it. -/
theorem exec_writeData {s : State} {q i : Byte} {t : Tag} {data : List Byte} {r : Request} {g : BlockRange} {w : WriteRecord}
    {x : Grant} {n : SlotNo} {m : Bool} {o : Owner} (hs : s.takes q) (hl : data.length = 256) (hi : i.toNat < 64)
    (hr : s.request t = some r) (hk : r.kind = .write) (ha : r.state = .active) (hg : r.range = some g)
    (hw : s.writeRecord t = some w) (hx : w.grant = some x) (h1 : x.first ≤ i.toNat) (h2 : i.toNat ∉ x.received)
    (h3 : x.slots[i.toNat - x.first]? = some n) (hn : s.slot n = .filling (g.first + i.toNat) o m) :
    exec (.writeData q (byte t.val :: i :: data)) s = .next { settleStaging
      (handOn (if s.available (g.first + i.toNat) then [] else [n])
        ((acceptFrame s).blockTaken t ⟨r, g, w, x, n⟩ i.toNat data)) with
      link := s.link.replied q [0x24, 0x00, byte t.val, i, byte (r.blocksDone + 1)] .nothing } := by
  have fields : takeKind .writeData (byte t.val :: i :: data) (acceptFrame s) =
      answer .ok [byte t.val, i, byte (r.blocksDone + 1)] (takeBlock ⟨t, i.toNat, data⟩ ⟨r, g, w, x, n⟩ (acceptFrame s)) := by
    show takeWriteData _ (acceptFrame s) = _
    unfold takeWriteData
    rw [dataFields_whole t i data hl hi]
    dsimp only
    rw [State.solicited_some (s := acceptFrame s) hr hk ha hg hw hx h1 h2 h3, byte_toNat]
  have takes := takeBlock_eq (s := acceptFrame s) (data := data) hr hw hx hn
  have calm := calm_blockTaken (s := acceptFrame s) (data := data) hr hk ha hg hw hx h1 h2 h3
  rw [takes] at fields
  exact exec_answered hs .writeData (by decide) _ fields ((settleStaging_link _).trans ((calm_handOn _ _).link.trans calm.link))

end Sys2Proof.Machine
end

section
/-! PROOFS. WRITE-DATA taken. -/

namespace Sys2Proof.Machine

/-- Settles O30; the block, its place and its stranding each have their lemmas above. -/
theorem writeDataTaken : Obligations.WriteDataTaken := by
  intro s q i t data r g w x n m o hs hl hi hr hk ha hg hw hx h1 h2 h3 hn lbn older mark lost order link same count alone
  obtain ⟨a, hA⟩ : ∃ a, a = acceptFrame s := ⟨_, rfl⟩
  have calm : Calm a (a.blockTaken t ⟨r, g, w, x, n⟩ i.toNat data) := by
    rw [hA]
    exact calm_blockTaken (s := acceptFrame s) hr hk ha hg hw hx h1 h2 h3
  have taken := exec_writeData hs hl hi hr hk ha hg hw hx h1 h2 h3 hn
  rw [← hA] at taken
  obtain ⟨slot, drain⟩ : (a.blockTaken t ⟨r, g, w, x, n⟩ i.toNat data).slot n =
      (if s.available lbn then .dirty lbn mark data else lost) ∧
      (a.blockTaken t ⟨r, g, w, x, n⟩ i.toNat data).staging.drainOrder = order ++ if s.available lbn then [n] else [] := by
    rw [hA]
    exact blockTaken_place (s := acceptFrame s) hr ha hg hw hx hn
  obtain ⟨A, fs, -, sp, -, ⟨b, w', o', v, e⟩, request, -, completed, -⟩ :=
    blockTaken_counts (s := acceptFrame s) (data := data) hr ha hg hw hx hn
  rw [← hA] at sp e request completed
  obtain ⟨gone, more⟩ : (g.count = r.blocksDone + 1 →
        (a.blockTaken t ⟨r, g, w, x, n⟩ i.toNat data).writeRecord t = none) ∧
      (g.count ≠ r.blocksDone + 1 → x.received.length + 1 < x.slots.length →
        (a.blockTaken t ⟨r, g, w, x, n⟩ i.toNat data).writeRecord t = some { w with
          grant := some { x with received := x.received ++ [i.toNat] }
          timer := some (s.clock + s.params.dataTimeout * 10) }) := by
    rw [hA]
    exact blockTaken_writeRecord (s := acceptFrame s) hr hg hw hx hn
  obtain ⟨p, hp⟩ : ∃ p, p = (({ r with flushSet := fs } : Request).received n).finished g := ⟨_, rfl⟩
  rw [← hp] at request completed
  have keeps : same p := by
    obtain ⟨kind, range, urgent, through, admission, blocks⟩ :=
      Request.finished_keeps (({ r with flushSet := fs } : Request).received n) g
    rw [hp]
    exact ⟨kind, range, urgent, through, admission, blocks⟩
  obtain ⟨W, hW⟩ : ∃ W, W = a.blockTaken t ⟨r, g, w, x, n⟩ i.toNat data := ⟨_, rfl⟩
  obtain ⟨st, arrived⟩ := A.arrived_staging n lbn (a.joinedMark lbn m) data
  have ends : W.table.completionOrder =
      if p.state = .reporting then s.table.completionOrder ++ [t] else s.table.completionOrder := by
    have before : (A.arrived n lbn (a.joinedMark lbn m) data).table.completionOrder = s.table.completionOrder := by
      rw [arrived]
      refine sp.compl.trans ?_
      rw [hA]
      rfl
    rw [hW, ← before]
    exact completed
  have log : W.log = s.log := by
    rw [hW, e]
    refine (congrArg State.log arrived).trans (sp.log.trans ?_)
    rw [hA]
    rfl
  have maps : W.mapStore = s.mapStore := by
    rw [hW, calm.mapStore, hA]
    rfl
  have params : W.params = s.params := by
    rw [hW, calm.params, hA]
    rfl
  have own : W.request t = some p := by
    rw [hW]
    exact (request t).trans (if_pos rfl)
  have others : s.keepsOthers W t := by
    rw [hW]
    rw [hA] at calm ⊢
    exact keepsOthers_of_same (s := acceptFrame s) fun u _ => calm.requests u
  refine ⟨fun hcase => ?_, fun hlost ⟨free, clear⟩ hthrough htg hsn => ?_⟩
  · obtain ⟨ms, handed, noted⟩ : ∃ ms, handOn (if s.available lbn then [] else [n]) W = { W with notices := ms } ∧
        (s.available lbn = false → ms.pending.find? (fun k => k.key = ⟨.slotStranded, none⟩) =
          some (raisedOnce ⟨.slotStranded, none⟩ (.count (W.countSlots StagingSlot.isStranded))
            (s.notice ⟨.slotStranded, none⟩))) := by
      rw [hW, hA]
      exact handOn_blockTaken (s := acceptFrame s) hr ha hg hw hx hn hcase
    rw [← hW, handed] at taken
    rw [← hW] at slot drain gone more
    obtain ⟨U, hU⟩ : ∃ U, U = settleStaging { W with notices := ms } := ⟨_, rfl⟩
    rw [← hU] at taken
    have slots : ∀ j, U.slot j = W.slot j := fun j => by
      rw [hU]
      exact settleStaging_slot _ j
    have orders : U.staging.drainOrder = W.staging.drainOrder := by rw [hU, settleStaging_drainOrder]
    have counted : (allSlots.filter (fun j => (U.slot j).isStranded)).length = W.countSlots StagingSlot.isStranded :=
      congrArg List.length (List.filter_congr fun j _ => congrArg StagingSlot.isStranded (slots j))
    have notice : U.notice ⟨.slotStranded, none⟩ = ms.pending.find? (fun k => k.key = ⟨.slotStranded, none⟩) := by
      rw [hU]
      exact settleStaging_notice _ _ (by simp)
    have table : U.table = W.table := by rw [hU, settleStaging_table]
    have record : U.writeRecord t = W.writeRecord t := by
      rw [hU]
      exact settleStaging_writeRecord _ t
    have rest : s.keepsOthers U t ∧ U.mapStore = s.mapStore ∧ U.params = s.params ∧ U.log = s.log := by
      rw [hU]
      exact ⟨keepsOthers_settleStaging (u := { W with notices := ms }) others, (settleStaging_mapStore _).trans maps,
        (settleStaging_params _).trans params, (settleStaging_log _).trans log⟩
    clear hU
    refine ⟨_, p, taken, rfl, fun k => ?_, fun k => ?_, ?_, keeps, fun hc => ?_, fun hc => ?_, rest⟩
    · rw [k, if_pos rfl] at slot drain
      exact ⟨(slots n).trans slot, orders.trans drain⟩
    · rw [k] at slot drain
      exact ⟨(slots n).trans slot, orders.trans (drain.trans (List.append_nil _)), notice.trans ((noted k).trans
        (congrArg (fun c => some (raisedOnce ⟨.slotStranded, none⟩ (.count c) (s.notice ⟨.slotStranded, none⟩)))
          counted.symm))⟩
    · unfold State.request
      rw [table]
      exact own
    · have goes : p = ({ r with flushSet := fs } : Request).received n := hp.trans (Request.finished_more hc)
      refine ⟨by rw [goes]; exact ha, fun hlen => record.trans (more hc hlen)⟩
    · refine ⟨record.trans (gone hc), fun ht => ?_, fun ht => ?_⟩
      · have settles := hp.trans (Request.finished_settles (r := ({ r with flushSet := fs } : Request).received n) hc ht)
        rw [settles]
        exact ⟨rfl, Request.received_mem (r := { r with flushSet := fs }) ht n⟩
      · have reports := hp.trans (Request.finished_reports (r := ({ r with flushSet := fs } : Request).received n) hc ht)
        rw [reports] at ends ⊢
        refine ⟨rfl, rfl, rfl, ?_⟩
        rw [if_pos rfl] at ends
        exact (congrArg Table.completionOrder table).trans ends
  · obtain ⟨stand, notices, snapshot⟩ : (∀ v, v ≠ t → W.request v = s.request v) ∧ W.notices = s.notices ∧
        W.table.snapshot = none := by
      rw [hW, hA]
      obtain ⟨requests, -, notices, snapshot, -⟩ := blockTaken_alone (s := acceptFrame s) (data := data) hr ha hg hw hx hn
        fun v q hq => (free v q hq).2.2
      exact ⟨fun v hv => (requests v).trans (if_neg hv), notices, snapshot.trans hsn⟩
    rw [hlost, ← hW] at taken
    rw [hlost, ← hW] at slot drain
    have good : TableGood W := by
      rw [hW]
      rw [hA] at calm ⊢
      exact TableGood.of_same (s := acceptFrame s) calm.requests calm.admissionOrder htg
    obtain ⟨state, mem⟩ : p.state = (if g.count = r.blocksDone + 1 then .settling else .active) ∧ n ∈ p.settleSet := by
      have received := Request.received_mem (r := { r with flushSet := fs }) hthrough n
      by_cases hc : g.count = r.blocksDone + 1
      · rw [hp, Request.finished_settles (r := ({ r with flushSet := fs } : Request).received n) hc hthrough, if_pos hc]
        exact ⟨rfl, received⟩
      · rw [hp, Request.finished_more (r := ({ r with flushSet := fs } : Request).received n) hc, if_neg hc]
        exact ⟨ha, received⟩
    have waits : p.state = .active ∨ p.state = .settling := by
      rw [state]
      split
      · exact .inr rfl
      · exact .inl rfl
    have halts := handOnSlot_halts slot good snapshot own waits mem fun v q hv hq => by
      rw [stand v hv] at hq
      exact ⟨(free v q hq).1, (free v q hq).2.1⟩
    obtain ⟨ns, found, noted⟩ := handOn_halts halts
    obtain ⟨U, hU⟩ : ∃ U, U = settleStaging (handOn [n] W) := ⟨_, rfl⟩
    rw [if_neg (by decide), ← hU] at taken
    rw [← hU] at found noted
    clear hU
    refine ⟨_, { W with notices := ns }, p, taken, rfl, noted, own, keeps, state, slot, drain.trans (List.append_nil _), others,
      ends.trans (if_neg fun k => ?_), fun k => (found k).trans ?_, maps, params, log⟩
    · rw [state] at k
      split at k
      · cases k
      · cases k
    · have same : W.notice k = s.notice k := by
        unfold State.notice
        rw [notices]
      exact congrArg (fun v => if k = ⟨.slotStranded, none⟩ then some (raisedOnce k (.count (count U)) v) else v) same

end Sys2Proof.Machine
end
